-- ==== Sys2Proof/Word.lean ====
section
/-! DEFINITION. The word types of the QX4 and the register numbers that operand codes name (R37, R192). -/

namespace Sys2Proof

/-- A byte of memory. -/
abbrev Byte := BitVec 8
/-- A vector register's width (R37). -/
abbrev Word32 := BitVec 32
/-- A uniform register's width, a virtual address, a program counter (R33, R37). -/
abbrev Word64 := BitVec 64
/-- One 96-bit instruction word (R35). -/
abbrev InstrWord := BitVec 96
/-- A thread mask: bit t for thread t (R38 amask). -/
abbrev Mask := BitVec 32
/-- The 128 bytes of one line, byte i in bits [8i+7:8i] (R5). -/
abbrev LineBits := BitVec 1024

/-- Vector registers v0 to v127 (R37). -/
abbrev VReg := Fin 128
/-- Uniform registers s0 to s191 (R37). -/
abbrev SReg := Fin 192
/-- Predicates p0 to p15 (R37). -/
abbrev PReg := Fin 16
/-- Tile registers t0 to t31 (R37). -/
abbrev TReg := Fin 32
/-- Function registers f0 to f15 (R37). -/
abbrev CReg := Fin 16
/-- Named barriers b0 to b95 (R37). -/
abbrev BReg := Fin 96
/-- A thread's index in its group (R2). -/
abbrev Tid := Fin 32

end Sys2Proof
end

