-- ==== Sys2Proof/Syntax.lean ====
section
/-! DEFINITION. The instructions of the QIA with their guard and scheduling fields, and the other steps of the part:
one constructor per row of spec/opcode_table.json (R53; 95_what_each_step_holds). -/

namespace Sys2Proof

/-! ## Operands (R37, R38) -/

/-- The special operands, codes 480 to 495 (R38). -/
inductive Special where
  | zero | tid | grp | blkx | bsz | core | clus | die | now | amask | fdep | nheld | lbk | lix | role | ctx
  deriving DecidableEq, Repr

/-- A source of class v0-v127, s0-s191 or a special operand: "I" of R237. -/
inductive Src where
  | v (n : VReg) | s (n : SReg) | sp (x : Special)
  deriving DecidableEq, Repr

/-- A field of class v0-v127, s0-s191 or zero: "D" of R237. -/
inductive Dst where
  | v (n : VReg) | s (n : SReg) | zero
  deriving DecidableEq, Repr

/-- A destination of class v0-v127, s0-s191, zero or p0-p15. -/
inductive DstP where
  | v (n : VReg) | s (n : SReg) | zero | p (n : PReg)
  deriving DecidableEq, Repr

/-- A field of class v0-v127 or zero. -/
inductive VDst where
  | v (n : VReg) | zero
  deriving DecidableEq, Repr

/-- A field of class s0-s191 or zero. -/
inductive SDst where
  | s (n : SReg) | zero
  deriving DecidableEq, Repr

/-- A field of class p0-p15 or zero. -/
inductive PDst where
  | p (n : PReg) | zero
  deriving DecidableEq, Repr

/-- A field of class v0-v127 or s0-s191. -/
inductive VS where
  | v (n : VReg) | s (n : SReg)
  deriving DecidableEq, Repr

/-- The index of a memory operand; code 480 where none is written (R18). -/
inductive Idx where
  | none | v (n : VReg) | s (n : SReg)
  deriving DecidableEq, Repr

/-- A memory operand with its 25-bit offset (R18, R110). -/
structure Addr where
  base : VS
  idx : Idx
  off : BitVec 25
  deriving DecidableEq, Repr

/-- SEL's condition: a predicate or a source (R237, R243). -/
inductive SelCond where
  | p (n : PReg) | i (x : Src)
  deriving DecidableEq, Repr

/-- A colour named by a register or by ext[15:0] (R356). -/
inductive Col where
  | v (n : VReg) | s (n : SReg) | imm (x : BitVec 16)
  deriving DecidableEq, Repr

/-- A uniform register, or an expression of `w` bits in ext (R188, R281). -/
inductive SImm (w : Nat) where
  | s (n : SReg) | imm (x : BitVec w)
  deriving DecidableEq, Repr

/-- SLEEP's tick count (R376). -/
inductive SleepN where
  | v (n : VReg) | s (n : SReg) | imm (x : BitVec 16)
  deriving DecidableEq, Repr

/-- WAKE's group operand and mask operand (R376). -/
inductive WakeG where
  | s (n : SReg) | grp
  deriving DecidableEq, Repr
inductive WakeM where
  | s (n : SReg) | amask
  deriving DecidableEq, Repr

/-! ## Modifiers -/

/-- The type suffixes of R51. -/
inductive Ty where
  | s32 | n32 | s64 | n64 | s16 | n16 | s8 | n8 | b32 | b64 | b16 | b8 | b128 | l6 | f32 | f16 | bf16
  deriving DecidableEq, Repr

/-- Rounding modes: nearest even, .rz, .rdn, .rup, .rna (R197). -/
inductive Rnd where
  | rne | rz | rdn | rup | rna
  deriving DecidableEq, Repr

/-- Comparison conditions (R237). -/
inductive Cond where
  | eq | ne | lt | le | gt | ge
  deriving DecidableEq, Repr

/-- Cache hints of the memory opcodes (R21, R114). -/
inductive Hint where
  | default | stream | keep | short | long | home
  deriving DecidableEq, Repr

/-- Scopes (R120). -/
inductive Scope where
  | core | clus | die | dev | sys
  deriving DecidableEq, Repr

/-- Fence kinds (R126). -/
inductive FenceKind where
  | rel | acq | ar
  deriving DecidableEq, Repr

/-- An atomic's ordering with its scope (R333). -/
inductive Ord where
  | relaxed | acq (s : Scope) | rel (s : Scope)
  deriving DecidableEq, Repr

/-- Atomic operations (R333). -/
inductive AOp where
  | add | min | max | and | or | xor | exch
  deriving DecidableEq, Repr

/-- Operations of GRED and GSCAN (R248). -/
inductive RedOp where
  | add | min | max | and | or | xor
  deriving DecidableEq, Repr

inductive VoteMode where
  | all | any | eq | ballot
  deriving DecidableEq, Repr

inductive ShflMode where
  | idx | up | down | xor
  deriving DecidableEq, Repr

/-- PSET's operations (R237). -/
inductive PsetOp where
  | and | or | xor | andn
  deriving DecidableEq, Repr

/-- Sizes of a bound limb set (R250). -/
inductive LimbSize where
  | k2 | k4 | k8 | k16 | k32
  deriving DecidableEq, Repr

/-- CPY's directions (R220). -/
inductive CpyDir where
  | inn | out | ss
  deriving DecidableEq, Repr

/-- What an error-correcting code finds: nothing, an error that it corrects, one that it cannot (R67, R411). -/
inductive Ecc where
  | none | corrected | uncorrectable
  deriving DecidableEq, Repr

/-- The end of an engine's pass, with what the code of the tile file finds (R316). -/
structure PassOver where
  engine : Nat
  error : Ecc
  deriving DecidableEq, Repr

/-- TDRAIN's operations and kinds (R327). -/
inductive DrainOp where
  | wr | add | max
  deriving DecidableEq, Repr
inductive DrainKind where
  | mem | spad
  deriving DecidableEq, Repr

/-- SIGNAL's operations (R339). -/
inductive SignalOp where
  | set | add
  deriving DecidableEq, Repr

/-- The system registers of R423. -/
inductive SysReg where
  | leaseDef | leaseShort | leaseLong | hzCore | hzClus | hzDie | hzDev | chbTol | chbPoolFree | wswin | wslen
  | trapBase | trapCause | trapPc | trapMask | trapAddr | recDepart | cntLocal | cntRemoteOut | cntRemoteIn | cntCxl
  | cmapBase | wdogTicks
  deriving DecidableEq, Repr

/-- How two guard terms combine (R35 gm). -/
inductive GuardMode where
  | one | and | or
  deriving DecidableEq, Repr

/-- Guard, stall, yield and reuse fields (R35, R43 to R47). `reuse` has bit 2 for a, bit 1 for b, bit 0 for c. -/
structure Ctl where
  p1 : PReg
  n1 : Bool
  p2 : PReg
  n2 : Bool
  gm : GuardMode
  stall : BitVec 4
  yld : Bool
  reuse : BitVec 3
  deriving DecidableEq, Repr

/-- Stream, priority and joint count (J - 1) of a matrix request (R302). -/
structure Rq where
  st : Fin 8
  pri : Fin 4
  j1 : BitVec 6
  deriving DecidableEq, Repr

/-! ## Names of blocks, groups and threads (R2, R158) -/

/-- A block by context, launch tag and block index (R158). -/
structure BlockKey where
  ctx : Nat
  lnch : Nat
  blk : Nat
  deriving DecidableEq, Repr

structure GroupRef where
  key : BlockKey
  grp : Nat
  deriving DecidableEq, Repr

structure ThreadRef where
  g : GroupRef
  tid : Tid
  deriving DecidableEq, Repr

/-! ## The steps -/

/-- The instructions (the table's first 147 rows), then the other steps of the part. A step that consumes a message
names it by its place in `State.net`; every other step names the unit or the object it acts on. -/
inductive Instr where
  -- control (R55, R376, R419)
  | nop (c : Ctl)
  | bra (c : Ctl) (off : BitVec 34)
  | brx (c : Ctl) (tgt : VS)
  | call (c : Ctl) (link : VDst) (off : BitVec 34)
  | callx (c : Ctl) (link : VDst) (tgt : VS)
  | ret (c : Ctl) (link : Option VReg)
  | exit (c : Ctl)
  | yield (c : Ctl)
  | wait (c : Ctl) (ld st cp tl : BitVec 4)
  | sleep (c : Ctl) (wk : PDst) (n : SleepN)
  | wake (c : Ctl) (g : WakeG) (m : WakeM)
  | trap (c : Ctl) (code : BitVec 8)
  | tret (c : Ctl)
  | bkpt (c : Ctl) (code : BitVec 8)
  | sysrd (c : Ctl) (d : SDst) (ix : SysReg)
  | syswr (c : Ctl) (ix : SysReg) (a : SDst)
  -- across threads (R248)
  | vote (c : Ctl) (m : VoteMode) (d : DstP) (a : PReg)
  | shfl (c : Ctl) (ty : Ty) (m : ShflMode) (d : VDst) (a n : Src) (pv : Option PReg)
  | gred (c : Ctl) (ty : Ty) (op : RedOp) (d : VDst) (a : Src)
  | gscan (c : Ctl) (ty : Ty) (op : RedOp) (ex : Bool) (d : VDst) (a : Src)
  -- integer (R237)
  | mov (c : Ctl) (ty : Ty) (d : Dst) (a : Src)
  | movi (c : Ctl) (ty : Ty) (d : Dst) (imm : BitVec 34)
  | iadd (c : Ctl) (ty : Ty) (d : Dst) (a b : Src)
  | isub (c : Ctl) (ty : Ty) (d : Dst) (a b : Src)
  | imul (c : Ctl) (ty : Ty) (d : Dst) (a b : Src)
  | imulh (c : Ctl) (ty : Ty) (d : Dst) (a b : Src)
  | imad (c : Ctl) (ty : Ty) (d : Dst) (a b x : Src)
  | imadw (c : Ctl) (ty : Ty) (d : Dst) (a b x : Src)
  | imin (c : Ctl) (ty : Ty) (d : Dst) (a b : Src)
  | imax (c : Ctl) (ty : Ty) (d : Dst) (a b : Src)
  | iabs (c : Ctl) (ty : Ty) (d : Dst) (a : Src)
  | and (c : Ctl) (ty : Ty) (d : Dst) (a b : Src)
  | or (c : Ctl) (ty : Ty) (d : Dst) (a b : Src)
  | xor (c : Ctl) (ty : Ty) (d : Dst) (a b : Src)
  | not (c : Ctl) (ty : Ty) (d : Dst) (a : Src)
  | shl (c : Ctl) (ty : Ty) (d : Dst) (a b : Src)
  | shr (c : Ctl) (ty : Ty) (d : Dst) (a b : Src)
  | sar (c : Ctl) (ty : Ty) (d : Dst) (a b : Src)
  | rot (c : Ctl) (ty : Ty) (d : Dst) (a b : Src)
  | bfx (c : Ctl) (ty : Ty) (d : Dst) (a pos len : Src)
  | bfi (c : Ctl) (ty : Ty) (d : Dst) (ins base pos len : Src)
  | popc (c : Ctl) (ty : Ty) (d : Dst) (a : Src)
  | clz (c : Ctl) (ty : Ty) (d : Dst) (a : Src)
  | brev (c : Ctl) (ty : Ty) (d : Dst) (a : Src)
  | iset (c : Ctl) (ty : Ty) (cond : Cond) (d : DstP) (a b : Src)
  | sel (c : Ctl) (ty : Ty) (d : Dst) (a b : Src) (cnd : SelCond)
  | lea (c : Ctl) (nx : Bool) (sh : BitVec 3) (d : Dst) (base : VS) (idx : Src)
  | idiv (c : Ctl) (ty : Ty) (rem : Bool) (d : Dst) (a b : Src)
  | pset (c : Ctl) (op : PsetOp) (d a b : PReg)
  -- bound limbs (R251, R254)
  | lbind (c : Ctl) (k : LimbSize)
  | lfree (c : Ctl)
  | ladc (c : Ctl) (d : VDst) (a : VReg) (b : Dst) (cin cout : Option PReg)
  | lsbb (c : Ctl) (d : VDst) (a : VReg) (b : Dst) (bin bout : Option PReg)
  | lshl (c : Ctl) (d : VDst) (a : VReg) (cnt : Src) (out : Option PReg)
  | lshr (c : Ctl) (d : VDst) (a : VReg) (cnt : Src) (out : Option PReg)
  | lmulw (c : Ctl) (d : VDst) (a : VReg) (wd : VS) (hi : VDst) (sel : BitVec 5)
  | lmac (c : Ctl) (d : VDst) (a : VReg) (wd : VS) (acc : Dst) (hi : VDst) (sel : BitVec 5)
  | lcmp (c : Ctl) (cond : Cond) (d : PReg) (a : VReg) (b : Dst)
  -- floating point (R261)
  | fadd (c : Ctl) (ty : Ty) (r : Rnd) (d : Dst) (a b : Src)
  | fsub (c : Ctl) (ty : Ty) (r : Rnd) (d : Dst) (a b : Src)
  | fmul (c : Ctl) (ty : Ty) (r : Rnd) (d : Dst) (a b : Src)
  | ffma (c : Ctl) (ty : Ty) (r : Rnd) (d : Dst) (a b x : Src)
  | fmin (c : Ctl) (ty : Ty) (d : Dst) (a b : Src)
  | fmax (c : Ctl) (ty : Ty) (d : Dst) (a b : Src)
  | fabs (c : Ctl) (ty : Ty) (d : Dst) (a : Src)
  | fneg (c : Ctl) (ty : Ty) (d : Dst) (a : Src)
  | fset (c : Ctl) (ty : Ty) (cond : Cond) (u : Bool) (d : DstP) (a b : Src)
  | fclass (c : Ctl) (ty : Ty) (d : DstP) (a : Src) (mask : BitVec 9)
  | frcp (c : Ctl) (r : Rnd) (d : Dst) (a : Src)
  | frsq (c : Ctl) (d : Dst) (a : Src)
  | fsqrt (c : Ctl) (r : Rnd) (d : Dst) (a : Src)
  | fexp2 (c : Ctl) (d : Dst) (a : Src)
  | flog2 (c : Ctl) (d : Dst) (a : Src)
  | fsin (c : Ctl) (d : Dst) (a : Src)
  | fcos (c : Ctl) (d : Dst) (a : Src)
  | fcvt (c : Ctl) (dty sty : Ty) (r : Rnd) (d : Dst) (a : Src) (scale : Src)
  | frnd (c : Ctl) (ty : Ty) (r : Rnd) (d : Dst) (a : Src)
  | fscale (c : Ctl) (ty : Ty) (r : Rnd) (d : Dst) (a b : Src)
  | fdot2 (c : Ctl) (ty : Ty) (r : Rnd) (d : Dst) (a b x : Src)
  -- function registers (R281)
  | chld (c : Ctl) (fd : CReg) (sa dom : SReg) (len : SImm 9)
  | chst (c : Ctl) (sa : SReg) (fa : CReg)
  | chdom (c : Ctl) (d : SDst) (fa : CReg)
  | chadd (c : Ctl) (sub : Bool) (fd fa fb : CReg)
  | chmul (c : Ctl) (fd fa fb : CReg)
  | chcomp (c : Ctl) (fd ff fg : CReg)
  | chint (c : Ctl) (fd fa : CReg)
  | chder (c : Ctl) (fd fa : CReg)
  | chroot (c : Ctl) (vd : VDst) (sc : SDst) (fa : CReg)
  | cheval (c : Ctl) (d : Dst) (fa : CReg) (x : Src) (pd : Option PReg)
  | chtrunc (c : Ctl) (fd fa : CReg) (len : SImm 9)
  | chlen (c : Ctl) (d : SDst) (fa : CReg)
  -- memory (R109, R126, R151, R183, R333, R337, R339)
  | ldg (c : Ctl) (h : Hint) (ty : Ty) (d : Dst) (m : Addr)
  | stg (c : Ctl) (h : Hint) (ty : Ty) (m : Addr) (val : Src)
  | ldx (c : Ctl) (h : Hint) (ty : Ty) (d : Dst) (m : Addr)
  | stx (c : Ctl) (h : Hint) (ty : Ty) (m : Addr) (val : Src)
  | ldw (c : Ctl) (h : Hint) (ty : Ty) (d : Dst) (m : Addr)
  | pref (c : Ctl) (h : Hint) (m : Addr)
  | linv (c : Ctl) (h : Hint) (m : Addr)
  | linvAll (c : Ctl) (h : Hint)
  | fence (c : Ctl) (h : Hint) (k : FenceKind) (s : Scope)
  | cst (c : Ctl) (h : Hint) (ty : Ty) (d : Dst) (hdr : SReg) (val : Src)
  | mcld (c : Ctl) (h : Hint) (dst base desc : SReg) (off : BitVec 25) (bk : Option BReg)
  | atom (c : Ctl) (ty : Ty) (op : AOp) (x : Bool) (o : Ord) (d : Dst) (base : VS) (idx : Idx) (val : Src)
  | acas (c : Ctl) (ty : Ty) (x : Bool) (o : Ord) (d : Dst) (base : VS) (idx : Idx) (new cmp : Src)
  | red (c : Ctl) (ty : Ty) (op : AOp) (x : Bool) (o : Ord) (base : VS) (idx : Idx) (val : Src)
  | signal (c : Ctl) (op : SignalOp) (base : SReg) (val : SDst)
  -- copy engine (R220)
  | cpy (c : Ctl) (dir : CpyDir) (hdl : SDst) (dst src desc : SReg) (bk : Option BReg)
  | cpyt (c : Ctl) (ty : Ty) (hdl : SDst) (dst src pair : SReg) (bk : Option BReg)
  | cpyw (c : Ctl) (ty : Ty) (hdl : SDst) (dst src pair : SReg) (bk : Option BReg)
  | cpywPut (c : Ctl) (hdl : SDst) (dst src pair : SReg)
  | cpys (c : Ctl) (dty sty : Ty) (r : Rnd) (hdl : SDst) (dst src pair : SReg)
  | cpyq (c : Ctl) (d : SReg) (hdl : SDst)
  | cpyx (c : Ctl) (hdl : SDst)
  | cpyxAll (c : Ctl)
  -- named barriers (R188)
  | bari (c : Ctl) (b : BReg) (cnt : SImm 12)
  | bara (c : Ctl) (sl : Option (Fin 4)) (b : BReg)
  | barw (c : Ctl) (b : BReg) (ph : SImm 1)
  | baraw (c : Ctl) (b : BReg)
  | barx (c : Ctl) (sl : Option (Fin 4)) (b : BReg) (bytes : SImm 16)
  | bart (c : Ctl) (d : DstP) (b : BReg) (ph : SImm 1)
  | barl (c : Ctl) (sl : Option (Fin 4)) (b : BReg)
  -- matrix engine (R302, R327)
  | tshp (c : Ctl) (ty : Ty) (td : TReg) (rows cols : SReg)
  | tld (c : Ctl) (st : Fin 8) (td : TReg) (sa : SReg)
  | tst (c : Ctl) (st : Fin 8) (sa : SReg) (ta : TReg)
  | tzero (c : Ctl) (st : Fin 8) (td : TReg)
  | mma (c : Ctl) (rq : Rq) (tc ta tb : TReg)
  | mloop (c : Ctl) (rq : Rq) (tc ta tb : TReg) (ab desc : SReg)
  | twait (c : Ctl) (mask : BitVec 8)
  | tfence (c : Ctl)
  | tdrain (c : Ctl) (op : DrainOp) (kind : DrainKind) (st : Fin 8) (pri : Fin 4) (dst : SReg) (ta : TReg)
      (desc : SReg) (bk : Option BReg)
  | tcvt (c : Ctl) (dty : Ty) (st : Fin 8) (r : Rnd) (td ta : TReg)
  | tgangOn (c : Ctl) (tc : TReg)
  | tgangOff (c : Ctl)
  -- monitors (R356)
  | mwait (c : Ctl) (d : PDst) (col : Col) (dl : Option SReg)
  | mnote (c : Ctl) (col : Col)
  | mnotea (c : Ctl) (col : Col)
  | mheld (c : Ctl) (d : VDst) (k : BitVec 3)
  | clrd (c : Ctl) (d : Dst) (m : Addr)
  -- record mode (R171)
  | recon (c : Ctl) (d : SDst) (region : BitVec 4) (base desc : SReg)
  | recoff (c : Ctl) (region : BitVec 4)
  | replay (c : Ctl) (region : BitVec 4)
  | rerec (c : Ctl) (region : BitVec 4)
  | recq (c : Ctl) (d : SDst) (region : BitVec 4) (sel : BitVec 3)
  -- queues (R403)
  | qpush (c : Ctl) (ok : PDst) (q : SReg) (sa : VS)
  | qpop (c : Ctl) (try_ : Bool) (ok : PDst) (q : SReg) (sa : VS)
  | qstat (c : Ctl) (d : Dst) (q : SReg) (sel : Bool)
  | launch (c : Ctl) (ok : PDst) (q : SReg) (lr : VS)
  -- fetch and translation (R34, R80, R83); `flip` is the error found in the fill, 0 for none
  | instructionFetch (g : GroupRef) (pc : Word64)
  | instructionFill (k : Nat) (flip : BitVec 512)
  | pageWalk (core : Nat) (ctx : Nat) (va : Word64)
  | walkResult (die : Nat) (k : Nat)
  -- homes and gateway caches
  | homeRead (m : Nat)
  | homeStore (m : Nat)
  | fillArrival (line : Nat) (error : Ecc)
  | gatewayRead (m : Nat)
  | gatewayRenewal (m : Nat)
  | gatewayStore (m : Nat)
  | forwardReturn (m : Nat)
  | gatewayWritePass (m : Nat)
  | loadResponse (m : Nat)
  | storeCompletion (m : Nat)
  | bufferTimerDrain (core : Nat) (k : Nat)
  | leaseExpiry (core : Nat) (line : Nat)
  | hostSnoop (line : Nat)
  | hostWrite (line : Nat) (data mask : LineBits)
  | hostRead (line : Nat)
  | cxlCompletion (m : Nat)
  | completionTimeout (m : Nat)
  | refreshWindowEnd (m : Nat)
  -- multicast and copies
  | multicastRequest (m : Nat)
  | multicastDeadline (k : Nat)
  | multicastLanding (m : Nat)
  | unitSend (core : Nat) (slot : Nat)
  | unitLanding (core : Nat) (slot : Nat) (unit : Nat)
  -- record mode
  | pushArrival (m : Nat)
  | pushInstall (core : Nat)
  | pushAtGateway (m : Nat)
  | pushAck (m : Nat)
  | fallBack (ctx : Nat) (region : Nat) (die : Nat)
  | regionChange (m : Nat)
  -- matrix engine, drain path, signals
  | passGrant (engine : Nat)
  | passEnd (pass : PassOver)
  | drainUpdate (m : Nat)
  | atomicUpdate (m : Nat)
  | signalApply (m : Nat)
  -- monitors
  | acquireRequest (m : Nat)
  | recall (m : Nat)
  | grantReturn (m : Nat)
  | grant (m : Nat)
  | colourRelease (t : ThreadRef)
  | monitorRelease (m : Nat)
  | notification (m : Nat)
  | mwaitDeadline (ctx colour : Nat) (t : ThreadRef)
  | sleepDeadline (t : ThreadRef)
  -- groups, blocks, launches
  | groupExitRelease (g : GroupRef)
  | blockRetirement (b : BlockKey)
  | blockPlacement (die : Nat)
  | steal (die : Nat)
  | preamble (ctx q seq : Nat)
  | nodeBinTimer (ctx q : Nat)
  | recordMoveBack (ctx q : Nat)
  | scoreWindow (core : Nat)
  | coreEnable (die : Nat)
  | engineEnable (die : Nat)
  | trapEntry (g : GroupRef)
  | termination (b : BlockKey)
  | dyingTimeout (b : BlockKey)
  | watchdog (ctx : Nat)
  | dugoutWrite (b : BlockKey)
  -- mailbox
  | unsupportedAccess (off : Nat) (bytes : Nat)
  | registerWrite (off : Nat) (val : Word64)
  -- telemetry (R450)
  | newestRecord (schema : BitVec 16)
  | mctpUnknownCommand (cmd : Byte)
  -- Seruk (R444, R445)
  | dataFlit (port : Nat) (flit : BitVec 2048)
  | idleFlit (port : Nat) (flit : BitVec 2048)
  | retryRequest (port : Nat) (flit : BitVec 2048)
  | training (port : Nat) (flit : BitVec 2048)
  | creditGrant (port : Nat) (flit : BitVec 2048)
  | portDown (port : Nat)
  | readALine (m : Nat)
  | writeALine (m : Nat)
  | peerAtom (m : Nat)
  | peerAcas (m : Nat)
  | peerRed (m : Nat)
  | peerSignal (m : Nat)
  | readData (m : Nat)
  | writeDone (m : Nat)
  | atomicResponse (m : Nat)
  | errorMessage (m : Nat)
  -- firmware and resets (R446 to R448, R456, R457)
  | workerReset (worker : Nat)
  -- `dead`: the unit does not respond, and its blocks cannot be saved
  | dieReset (die : Nat) (dead : Bool)
  | clusterReset (cluster : Nat) (dead : Bool)
  | coreReset (core : Nat) (dead : Bool)
  | recorderReset (die : Nat)
  | weightStoreReset (die : Nat)
  | contextReset (ctx : Nat)
  | boot (failed : Option Nat)
  | reserveReplacement (die : Nat)
  | spdmRequest (request : List Byte)
  | dieIdle (die : Nat)
  | wlPasses (line : Nat)
  -- mailbox commands, and other steps that name nothing: they stand last, as the compiler numbers at most 244
  -- constructors that have arguments (R436, R439, R440, R446 to R457)
  | contextCreate
  | contextDestroy
  | contextSetBkpt
  | contextSetRecDepart
  | contextSetWdogTicks
  | contextSetCmapBase
  | mapCodePage
  | shootdown
  | faultResolve
  | mbxLaunch
  | queueSet
  | queuePush
  | queueClose
  | preEmpt
  | resume
  | logReadReject
  | logReadFault
  | logReadFaultBuffer
  | updateWrite
  | updateVerify
  | updateActivate
  | recordRead
  | unknownCommand
  | doorbellDiscard
  | commandCompletion
  | pendClear
  | schemaList
  | umpireReset
  | selfTestTimeout
  | deviceReset
  | bullpenWindow
  deriving DecidableEq, Repr

end Sys2Proof
end

