-- ==== Sys2Proof/WellFormed.lean ====
section
/-! DEFINITION. Which instruction terms have a word: the type sets (R52), the pair and quad rule (R40), the form rule
(R42), the reuse rule (R47) and the combinations each chapter's encoding table refuses. A term that is no instruction
(an event row) has no word, and nothing to check. -/

namespace Sys2Proof

/-! ## Classes and widths of operands -/

/-- Bits a type's operands hold in registers: 128, 64 or 32 (R40, R233). -/
def Ty.bits : Ty → Nat
  | .b128 => 128
  | .s64 | .n64 | .b64 => 64
  | _ => 32

/-- A vector register number may start a value of `w` bits (R40). -/
def vAligned (w n : Nat) : Bool :=
  if w = 128 then n % 4 == 0 else if w = 64 then n % 2 == 0 else true

/-- A uniform register number may start a value of `w` bits (R40). -/
def sAligned (w n : Nat) : Bool := if w = 128 then n % 2 == 0 else true

/-- The special operands of vector class (R38). -/
def Special.isVec : Special → Bool
  | .tid | .fdep | .nheld | .lbk | .lix => true
  | _ => false

def Src.isReg : Src → Bool
  | .sp _ => false
  | _ => true
def Src.isVec : Src → Bool
  | .v _ => true
  | .s _ => false
  | .sp x => x.isVec
def Src.isZero : Src → Bool
  | .sp .zero => true
  | _ => false
/-- R40, and no special operand where 128 bits are needed (R233). -/
def Src.fits (w : Nat) : Src → Bool
  | .v n => vAligned w n.val
  | .s n => sAligned w n.val
  | .sp _ => w != 128

def Dst.isReg : Dst → Bool
  | .zero => false
  | _ => true
def Dst.isS : Dst → Bool
  | .s _ => true
  | _ => false
def Dst.isVec : Dst → Bool
  | .v _ => true
  | _ => false
def Dst.fits (w : Nat) : Dst → Bool
  | .v n => vAligned w n.val
  | .s n => sAligned w n.val
  | .zero => true

def DstP.isS : DstP → Bool
  | .s _ => true
  | _ => false
def DstP.isP : DstP → Bool
  | .p _ => true
  | _ => false
def DstP.fits (w : Nat) : DstP → Bool
  | .v n => vAligned w n.val
  | .s n => sAligned w n.val
  | _ => true

def VDst.fits (w : Nat) : VDst → Bool
  | .v n => vAligned w n.val
  | .zero => true
def SDst.isReg : SDst → Bool
  | .s _ => true
  | .zero => false

def VS.isVec : VS → Bool
  | .v _ => true
  | .s _ => false
def VS.fits (w : Nat) : VS → Bool
  | .v n => vAligned w n.val
  | .s n => sAligned w n.val

def Idx.isReg : Idx → Bool
  | .none => false
  | _ => true
def Idx.isVec : Idx → Bool
  | .v _ => true
  | _ => false

def SelCond.isReg : SelCond → Bool
  | .p _ => false
  | .i x => x.isReg
def SelCond.isVec : SelCond → Bool
  | .p _ => true
  | .i x => x.isVec

def SImm.isReg {w : Nat} : SImm w → Bool
  | .s _ => true
  | .imm _ => false
def SImm.immIn {w : Nat} (lo hi : Nat) : SImm w → Bool
  | .s _ => true
  | .imm x => decide (lo ≤ x.toNat) && decide (x.toNat ≤ hi)

def SleepN.isReg : SleepN → Bool
  | .imm _ => false
  | _ => true
def WakeG.isReg : WakeG → Bool
  | .s _ => true
  | .grp => false
def WakeM.isReg : WakeM → Bool
  | .s _ => true
  | .amask => false
def Col.ok : Col → Bool
  | .imm x => x != 0#16
  | _ => true

/-- R42: no destination in s0-s191 beside a vector-class source. -/
def formOk (dstS : Bool) (vecSrcs : List Bool) : Bool := !(dstS && vecSrcs.any id)

/-! ## Type sets (R52) -/

inductive TSet where
  | W | S | X | X4 | GR | L | F | F1 | H | LD | ST | A | AC | M | CV | IW
  deriving DecidableEq, Repr

def TSet.types : TSet → List Ty
  | .W => [.s32, .n32, .s64, .n64]
  | .S => [.s32, .s64]
  | .X => [.b32, .b64]
  | .X4 => [.b32, .b64, .b128]
  | .GR => [.s32, .n32, .s64, .n64, .f32]
  | .L => [.n32]
  | .F => [.f32, .f16, .bf16]
  | .F1 => [.f32]
  | .H => [.f16, .bf16]
  | .LD => [.s8, .n8, .s16, .n16, .b32, .b64, .b128]
  | .ST => [.b8, .b16, .b32, .b64, .b128]
  | .A => [.s32, .n32, .s64, .n64, .b32, .b64, .f32]
  | .AC => [.b32, .b64]
  | .M => [.s32, .s8, .l6, .f32, .f16, .bf16]
  | .CV => [.s32, .n32, .s64, .n64, .s16, .n16, .s8, .n8, .l6, .f32, .f16, .bf16]
  | .IW => [.s32, .n32]

def TSet.has (t : TSet) (ty : Ty) : Bool := t.types.contains ty

/-! ## Guard and scheduling fields -/

/-- With one term, the second predicate's fields are zero (R57 check 0x06); a reuse bit needs its field to hold a
register (R47). -/
def Ctl.ok (c : Ctl) (a b x : Bool) : Bool :=
  (c.gm != .one || (c.p2 == 0 && !c.n2)) &&
  (!c.reuse.getLsbD 2 || a) && (!c.reuse.getLsbD 1 || b) && (!c.reuse.getLsbD 0 || x)

/-! ## Shapes shared by many instructions -/

/-- `op.type d, a`. -/
def wf1 (c : Ctl) (t : TSet) (ty : Ty) (d : Dst) (a : Src) : Bool :=
  c.ok a.isReg false false && t.has ty && d.fits ty.bits && a.fits ty.bits && formOk d.isS [a.isVec]

/-- `op.type d, a, b`. -/
def wf2 (c : Ctl) (t : TSet) (ty : Ty) (d : Dst) (a b : Src) : Bool :=
  c.ok a.isReg b.isReg false && t.has ty && d.fits ty.bits && a.fits ty.bits && b.fits ty.bits &&
    formOk d.isS [a.isVec, b.isVec]

/-- `op.type d, a, b, c`. -/
def wf3 (c : Ctl) (t : TSet) (ty : Ty) (d : Dst) (a b x : Src) : Bool :=
  c.ok a.isReg b.isReg x.isReg && t.has ty && d.fits ty.bits && a.fits ty.bits && b.fits ty.bits &&
    x.fits ty.bits && formOk d.isS [a.isVec, b.isVec, x.isVec]

/-- A load: `op.type d, [base + index ± off]`; `w` is the width of a vector base (R110, R183). -/
def wfLoad (c : Ctl) (w : Nat) (ty : Ty) (d : Dst) (m : Addr) : Bool :=
  c.ok true m.idx.isReg false && TSet.LD.has ty && d.fits ty.bits && m.base.fits w &&
    formOk d.isS [m.base.isVec, m.idx.isVec]

/-- A store: `op.type [base + index ± off], value`. -/
def wfStore (c : Ctl) (w : Nat) (ty : Ty) (m : Addr) (val : Src) : Bool :=
  c.ok true m.idx.isReg val.isReg && TSet.ST.has ty && m.base.fits w && val.fits ty.bits

/-- R333: the pairing of an atomic's operation with its type. -/
def AOp.allows (op : AOp) (ty : Ty) : Bool :=
  match op with
  | .add | .min | .max => TSet.GR.has ty
  | .and | .or | .xor => TSet.A.has ty && ty != .f32
  | .exch => TSet.A.has ty

/-- R248: `.and`, `.or` and `.xor` take no `.f32`. -/
def RedOp.allows (op : RedOp) (ty : Ty) : Bool :=
  match op with
  | .add | .min | .max => TSet.GR.has ty
  | _ => TSet.W.has ty

def sEven (n : SReg) : Bool := n.val % 2 == 0

/-- The terms that have a word. -/
def Instr.wellFormed : Instr → Bool
  | .nop c | .bra c _ | .exit c | .yield c | .wait c _ _ _ _ | .trap c _ | .tret c | .bkpt c _ | .sysrd c _ _
  | .call c _ _ | .lbind c _ | .lfree c | .linvAll c _ | .fence c _ _ _ | .cpyxAll c | .mheld c _ _
  | .recoff c _ | .replay c _ | .rerec c _ | .tfence c | .tgangOn c _ | .tgangOff c
  | .chdom c _ _ | .chlen c _ _ | .chadd c _ _ _ _ | .chmul c _ _ _ | .chcomp c _ _ _ | .chint c _ _ | .chder c _ _
  | .chroot c _ _ _ | .pset c _ _ _ _ | .bara c _ _ | .baraw c _ | .barl c _ _ | .barw c _ _ | .barx c _ _ _
  | .tzero c _ _ | .mma c _ _ _ _ | .tld c _ _ _ | .tst c _ _ _ | .tshp c .s32 _ _ _ | .tshp c .s8 _ _ _
  | .tshp c .l6 _ _ _ | .tshp c .f32 _ _ _ | .tshp c .f16 _ _ _ | .tshp c .bf16 _ _ _ =>
    wfBare c
  | .tshp .. => false
  | .brx c t => c.ok true false false && t.fits 64
  | .callx c _ t => c.ok true false false && t.fits 64
  | .ret c l => c.ok l.isSome false false
  | .sleep c _ n => c.ok n.isReg false false
  | .wake c g m => c.ok g.isReg m.isReg false
  | .syswr c ix a => c.ok a.isReg false false && (ix == .chbTol || ix == .trapBase || ix == .trapPc)
  | .vote c m d _ => c.ok false false false &&
      (match m, d with
       | .ballot, .v _ => true
       | .ballot, .zero => true
       | .ballot, _ => false
       | _, .p _ => true
       | _, _ => false)
  | .shfl c ty _ d a n _ => c.ok a.isReg n.isReg false && TSet.X.has ty && d.fits ty.bits && a.fits ty.bits &&
      n.fits ty.bits
  | .gred c ty op d a => c.ok a.isReg false false && op.allows ty && d.fits ty.bits && a.fits ty.bits
  | .gscan c ty op _ d a => c.ok a.isReg false false && op.allows ty && d.fits ty.bits && a.fits ty.bits
  | .mov c ty d a => wf1 c .X4 ty d a
  | .movi c ty d _ => c.ok false false false && TSet.X.has ty && d.fits ty.bits
  | .iadd c ty d a b | .isub c ty d a b | .imul c ty d a b | .imulh c ty d a b | .imin c ty d a b
  | .imax c ty d a b | .idiv c ty _ d a b => wf2 c .W ty d a b
  | .imad c ty d a b x | .bfx c ty d a b x => wf3 c .W ty d a b x
  | .imadw c ty d a b x => c.ok a.isReg b.isReg x.isReg && TSet.IW.has ty && d.fits 64 && x.fits 64 &&
      formOk d.isS [a.isVec, b.isVec, x.isVec]
  | .iabs c ty d a => wf1 c .S ty d a
  | .not c ty d a | .popc c ty d a | .clz c ty d a | .brev c ty d a => wf1 c .X ty d a
  | .and c ty d a b | .or c ty d a b | .xor c ty d a b | .shl c ty d a b | .shr c ty d a b | .rot c ty d a b =>
    wf2 c .X ty d a b
  | .sar c ty d a b => wf2 c .S ty d a b
  | .bfi c ty d a b p l => c.ok a.isReg b.isReg p.isReg && TSet.X.has ty && d.fits ty.bits && a.fits ty.bits &&
      b.fits ty.bits && p.fits ty.bits && l.fits ty.bits && formOk d.isS [a.isVec, b.isVec, p.isVec, l.isVec]
  | .iset c ty _ d a b => c.ok a.isReg b.isReg false && TSet.W.has ty && d.fits ty.bits && a.fits ty.bits &&
      b.fits ty.bits && formOk d.isS [a.isVec, b.isVec]
  | .sel c ty d a b k => c.ok a.isReg b.isReg k.isReg && TSet.X.has ty && d.fits ty.bits && a.fits ty.bits &&
      b.fits ty.bits && formOk d.isS [a.isVec, b.isVec, k.isVec]
  | .lea c _ _ d base idx => c.ok true idx.isReg false && d.fits 64 && base.fits 64 &&
      formOk d.isS [base.isVec, idx.isVec]
  | .ladc c _ _ b _ _ | .lsbb c _ _ b _ _ | .lcmp c _ _ _ b => c.ok true b.isReg false
  | .lshl c _ _ n _ | .lshr c _ _ n _ => c.ok true n.isReg false
  | .lmulw c _ _ wd _ k => c.ok true true false && (wd.isVec || k == 0#5)
  | .lmac c _ _ wd acc _ k => c.ok true true acc.isReg && (wd.isVec || k == 0#5)
  | .fadd c ty _ d a b | .fsub c ty _ d a b | .fmul c ty _ d a b | .fmin c ty d a b | .fmax c ty d a b
  | .fscale c ty _ d a b => wf2 c .F ty d a b
  | .ffma c ty _ d a b x => wf3 c .F ty d a b x
  | .fdot2 c ty _ d a b x => wf3 c .H ty d a b x
  | .fabs c ty d a | .fneg c ty d a | .frnd c ty _ d a => wf1 c .F ty d a
  | .fset c ty _ _ d a b => c.ok a.isReg b.isReg false && TSet.F.has ty && formOk d.isS [a.isVec, b.isVec]
  | .fclass c ty d a m => c.ok a.isReg false false && TSet.F.has ty && formOk d.isS [a.isVec] &&
      (if d.isP then m != 0#9 else m == 0#9)
  | .frcp c _ d a | .fsqrt c _ d a | .frsq c d a | .fexp2 c d a | .flog2 c d a | .fsin c d a | .fcos c d a =>
    wf1 c .F1 .f32 d a
  | .fcvt c dt st _ d a e => c.ok a.isReg e.isReg false && TSet.CV.has dt && TSet.CV.has st &&
      !(dt == .l6 && st == .l6) && (dt == .l6 || st == .l6 || e.isZero) && d.fits dt.bits && a.fits st.bits &&
      formOk d.isS [a.isVec, e.isVec]
  | .chld c _ _ _ n => c.ok true true n.isReg && n.immIn 1 256
  | .chst c _ _ => c.ok true false false
  | .cheval c d _ x p => c.ok false x.isReg false && formOk d.isS [x.isVec] && !(d.isS && p.isSome)
  | .chtrunc c _ _ n => c.ok false n.isReg false && n.immIn 0 256
  | .ldg c _ ty d m | .ldw c _ ty d m => wfLoad c 64 ty d m
  | .ldx c _ ty d m => wfLoad c 32 ty d m
  | .stg c _ ty m v => wfStore c 64 ty m v
  | .stx c _ ty m v => wfStore c 32 ty m v
  | .pref c _ m | .linv c _ m => c.ok true m.idx.isReg false && m.base.fits 64
  | .cst c _ ty d _ v => c.ok true false v.isReg && TSet.X.has ty && d.fits ty.bits && v.fits ty.bits &&
      formOk d.isS [v.isVec]
  | .mcld c _ _ _ _ _ _ => c.ok true true false
  | .atom c ty op _ _ d base idx v => c.ok true idx.isReg v.isReg && op.allows ty && d.fits ty.bits &&
      base.fits 64 && v.fits ty.bits && formOk d.isS [base.isVec, idx.isVec, v.isVec]
  | .acas c ty _ _ d base idx n k => c.ok true idx.isReg n.isReg && TSet.AC.has ty && d.fits ty.bits &&
      base.fits 64 && n.fits ty.bits && k.fits ty.bits && formOk d.isS [base.isVec, idx.isVec, n.isVec, k.isVec]
  | .red c ty op _ _ base idx v => c.ok true idx.isReg v.isReg && op.allows ty && op != .exch && base.fits 64 &&
      v.fits ty.bits
  | .signal c _ _ v => c.ok true false v.isReg
  | .cpy c dir _ _ _ _ bk => c.ok true true true && (dir != .out || bk.isNone)
  | .cpyt c ty _ _ _ p _ | .cpyw c ty _ _ _ p _ => c.ok true true true && TSet.M.has ty && sEven p
  | .cpywPut c _ _ _ p => c.ok true true true && sEven p
  | .cpys c dt st _ _ _ _ p => c.ok true true true && TSet.M.has dt && TSet.M.has st && sEven p
  | .cpyq c _ h | .cpyx c h => c.ok h.isReg false false
  | .bari c _ n => wfBare c && n.immIn 1 2048
  | .bart c d _ _ => wfBare c && (match d with
      | .v _ => false
      | _ => true)
  | .mloop c _ _ _ _ ab desc => wfBare c && sEven ab && sEven desc
  | .twait c m => wfBare c && m != 0#8
  | .tdrain c _ kind _ _ _ _ _ bk => wfBare c && (kind == .spad || bk.isNone)
  | .tcvt c ty _ _ _ _ => wfBare c && TSet.M.has ty
  | .mwait c _ col _ | .mnote c col | .mnotea c col => wfBare c && col.ok
  | .clrd c d m => wfBare c && d.fits 32 && m.base.fits 64 && formOk d.isS [m.base.isVec, m.idx.isVec]
  | .recon c _ _ _ _ => c.ok true true false
  | .recq c _ _ k => wfBare c && k.ult 6#3
  | .qpush c _ _ _ | .qpop c _ _ _ _ => c.ok true true false
  | .qstat c _ _ _ => c.ok true false false
  | .launch c _ _ lr => c.ok true true false && lr.fits 64
  | _ => true
where
  /-- No field may carry a reuse bit. -/
  wfBare (c : Ctl) : Bool := c.ok false false false

end Sys2Proof
end

