-- ==== Sys2Proof/Decode.lean ====
section
/-! DEFINITION. The 96-bit word (R35), the checks the scanner makes on a slot in their order (R57), the decoder, and
the encoder beside it, both from the encoding tables of the chapters (R54). -/

namespace Sys2Proof

/-! ## The word's fields (R35) -/

structure Raw where
  opc : BitVec 8
  var : BitVec 4
  g1 : BitVec 4
  n1 : Bool
  g2 : BitVec 4
  n2 : Bool
  gm : BitVec 2
  d : BitVec 9
  a : BitVec 9
  b : BitVec 9
  c : BitVec 9
  e : BitVec 9
  hint : BitVec 3
  stall : BitVec 4
  yld : Bool
  reuse : BitVec 3
  ext : BitVec 16
  deriving DecidableEq, Repr

/-- Why a word is not an instruction: the reason 0x03 to 0x0E and the field number of R57. -/
structure Reject where
  reason : BitVec 8
  detail : BitVec 8
  deriving DecidableEq, Repr

def Raw.ofWord (w : InstrWord) : Raw where
  opc := w.extractLsb' 88 8
  var := w.extractLsb' 84 4
  g1 := w.extractLsb' 80 4
  n1 := w.getLsbD 79
  g2 := w.extractLsb' 75 4
  n2 := w.getLsbD 74
  gm := w.extractLsb' 72 2
  d := w.extractLsb' 63 9
  a := w.extractLsb' 54 9
  b := w.extractLsb' 45 9
  c := w.extractLsb' 36 9
  e := w.extractLsb' 27 9
  hint := w.extractLsb' 24 3
  stall := w.extractLsb' 20 4
  yld := w.getLsbD 19
  reuse := w.extractLsb' 16 3
  ext := w.extractLsb' 0 16

def Raw.toWord (r : Raw) : InstrWord :=
  r.opc ++ (r.var ++ (r.g1 ++ (BitVec.ofBool r.n1 ++ (r.g2 ++ (BitVec.ofBool r.n2 ++ (r.gm ++ (r.d ++ (r.a ++ (r.b ++
    (r.c ++ (r.e ++ (r.hint ++ (r.stall ++ (BitVec.ofBool r.yld ++ (r.reuse ++ r.ext)))))))))))))))

/-! ## Operand codes (R37, R38) -/

def VReg.code (n : VReg) : BitVec 9 := BitVec.ofNat 9 n.val
def SReg.code (n : SReg) : BitVec 9 := BitVec.ofNat 9 (128 + n.val)
def PReg.code (n : PReg) : BitVec 9 := BitVec.ofNat 9 (320 + n.val)
def TReg.code (n : TReg) : BitVec 9 := BitVec.ofNat 9 (336 + n.val)
def CReg.code (n : CReg) : BitVec 9 := BitVec.ofNat 9 (368 + n.val)
def BReg.code (n : BReg) : BitVec 9 := BitVec.ofNat 9 (384 + n.val)
/-- Code 480: `zero`, and an unused field. -/
def code480 : BitVec 9 := 480#9

def VReg.ofCode (x : BitVec 9) : Option VReg := if h : x.toNat < 128 then some ⟨x.toNat, h⟩ else none
def SReg.ofCode (x : BitVec 9) : Option SReg :=
  if h : 128 ≤ x.toNat ∧ x.toNat < 320 then some ⟨x.toNat - 128, by omega⟩ else none
def PReg.ofCode (x : BitVec 9) : Option PReg :=
  if h : 320 ≤ x.toNat ∧ x.toNat < 336 then some ⟨x.toNat - 320, by omega⟩ else none
def TReg.ofCode (x : BitVec 9) : Option TReg :=
  if h : 336 ≤ x.toNat ∧ x.toNat < 368 then some ⟨x.toNat - 336, by omega⟩ else none
def CReg.ofCode (x : BitVec 9) : Option CReg :=
  if h : 368 ≤ x.toNat ∧ x.toNat < 384 then some ⟨x.toNat - 368, by omega⟩ else none
def BReg.ofCode (x : BitVec 9) : Option BReg :=
  if h : 384 ≤ x.toNat ∧ x.toNat < 480 then some ⟨x.toNat - 384, by omega⟩ else none

def Special.code : Special → BitVec 9
  | .zero => 480#9
  | .tid => 481#9
  | .grp => 482#9
  | .blkx => 483#9
  | .bsz => 484#9
  | .core => 485#9
  | .clus => 486#9
  | .die => 487#9
  | .now => 488#9
  | .amask => 489#9
  | .fdep => 490#9
  | .nheld => 491#9
  | .lbk => 492#9
  | .lix => 493#9
  | .role => 494#9
  | .ctx => 495#9

def Special.ofCode (x : BitVec 9) : Option Special :=
  match x.toNat with
  | 480 => some .zero
  | 481 => some .tid
  | 482 => some .grp
  | 483 => some .blkx
  | 484 => some .bsz
  | 485 => some .core
  | 486 => some .clus
  | 487 => some .die
  | 488 => some .now
  | 489 => some .amask
  | 490 => some .fdep
  | 491 => some .nheld
  | 492 => some .lbk
  | 493 => some .lix
  | 494 => some .role
  | 495 => some .ctx
  | _ => none

/-- An operand that a class union names: its code, and the operand a code names. -/
def Src.code : Src → BitVec 9
  | .v n => n.code
  | .s n => n.code
  | .sp x => x.code
def Src.ofCode (x : BitVec 9) : Option Src :=
  match VReg.ofCode x with
  | some n => some (.v n)
  | none =>
    match SReg.ofCode x with
    | some n => some (.s n)
    | none => (Special.ofCode x).map .sp

def Dst.code : Dst → BitVec 9
  | .v n => VReg.code n
  | .s n => SReg.code n
  | .zero => code480
def Dst.ofCode (x : BitVec 9) : Option Dst :=
  match VReg.ofCode x with
  | some n => some (.v n)
  | .none =>
    match SReg.ofCode x with
    | some n => some (.s n)
    | .none =>
      if x == code480 then some .zero else none

def DstP.code : DstP → BitVec 9
  | .v n => VReg.code n
  | .s n => SReg.code n
  | .p n => PReg.code n
  | .zero => code480
def DstP.ofCode (x : BitVec 9) : Option DstP :=
  match VReg.ofCode x with
  | some n => some (.v n)
  | .none =>
    match SReg.ofCode x with
    | some n => some (.s n)
    | .none =>
      match PReg.ofCode x with
      | some n => some (.p n)
      | .none =>
        if x == code480 then some .zero else none

def VDst.code : VDst → BitVec 9
  | .v n => VReg.code n
  | .zero => code480
def VDst.ofCode (x : BitVec 9) : Option VDst :=
  match VReg.ofCode x with
  | some n => some (.v n)
  | .none =>
    if x == code480 then some .zero else none

def SDst.code : SDst → BitVec 9
  | .s n => SReg.code n
  | .zero => code480
def SDst.ofCode (x : BitVec 9) : Option SDst :=
  match SReg.ofCode x with
  | some n => some (.s n)
  | .none =>
    if x == code480 then some .zero else none

def PDst.code : PDst → BitVec 9
  | .p n => PReg.code n
  | .zero => code480
def PDst.ofCode (x : BitVec 9) : Option PDst :=
  match PReg.ofCode x with
  | some n => some (.p n)
  | .none =>
    if x == code480 then some .zero else none

def VS.code : VS → BitVec 9
  | .v n => VReg.code n
  | .s n => SReg.code n
def VS.ofCode (x : BitVec 9) : Option VS :=
  match VReg.ofCode x with
  | some n => some (.v n)
  | .none =>
    (SReg.ofCode x).map .s

def Idx.code : Idx → BitVec 9
  | .v n => VReg.code n
  | .s n => SReg.code n
  | .none => code480
def Idx.ofCode (x : BitVec 9) : Option Idx :=
  match VReg.ofCode x with
  | some n => some (.v n)
  | .none =>
    match SReg.ofCode x with
    | some n => some (.s n)
    | .none =>
      if x == code480 then some .none else none

def SelCond.code : SelCond → BitVec 9
  | .p n => n.code
  | .i x => x.code
def SelCond.ofCode (x : BitVec 9) : Option SelCond :=
  match PReg.ofCode x with
  | some n => some (.p n)
  | none => (Src.ofCode x).map .i

/-- A field that may be left out: 480 then. -/
def optCode {α : Type} (f : α → BitVec 9) : Option α → BitVec 9
  | some x => f x
  | none => code480
def optOf {α : Type} (f : BitVec 9 → Option α) (x : BitVec 9) : Option (Option α) :=
  if x == code480 then some none else (f x).map some

def WakeG.code : WakeG → BitVec 9
  | .s n => n.code
  | .grp => 482#9
def WakeG.ofCode (x : BitVec 9) : Option WakeG :=
  match SReg.ofCode x with
  | some n => some (.s n)
  | none => if x == 482#9 then some .grp else none
def WakeM.code : WakeM → BitVec 9
  | .s n => n.code
  | .amask => 489#9
def WakeM.ofCode (x : BitVec 9) : Option WakeM :=
  match SReg.ofCode x with
  | some n => some (.s n)
  | none => if x == 489#9 then some .amask else none

/-- A register in its field with ext zero, or 480 with the number in ext (R188, R281, R356, R376). -/
def SImm.code {w : Nat} : SImm w → BitVec 9
  | .s n => n.code
  | .imm _ => code480
def SImm.ext {w : Nat} : SImm w → BitVec 16
  | .s _ => 0#16
  | .imm x => x.setWidth 16
def SImm.of (w : Nat) (x : BitVec 9) (ext : BitVec 16) : Option (SImm w) :=
  if x == code480 then
    if (ext.setWidth w).setWidth 16 == ext then some (.imm (ext.setWidth w)) else none
  else if ext == 0#16 then (SReg.ofCode x).map .s else none
def SleepN.code : SleepN → BitVec 9
  | .v n => n.code
  | .s n => n.code
  | .imm _ => code480
def SleepN.ext : SleepN → BitVec 16
  | .imm x => x
  | _ => 0#16
def SleepN.of (x : BitVec 9) (ext : BitVec 16) : Option SleepN :=
  if x == code480 then some (.imm ext)
  else if ext == 0#16 then
    match VReg.ofCode x with
    | some n => some (.v n)
    | none => (SReg.ofCode x).map .s
  else none
def Col.code : Col → BitVec 9
  | .v n => n.code
  | .s n => n.code
  | .imm _ => code480
def Col.ext : Col → BitVec 16
  | .imm x => x
  | _ => 0#16
def Col.of (x : BitVec 9) (ext : BitVec 16) : Option Col :=
  if x == code480 then (if ext == 0#16 then none else some (.imm ext))
  else if ext == 0#16 then
    match VReg.ofCode x with
    | some n => some (.v n)
    | none => (SReg.ofCode x).map .s
  else none

/-! ## Codes of types and modifiers -/

/-- R51. -/
def Ty.code : Ty → BitVec 4
  | .s32 => 0#4
  | .n32 => 1#4
  | .s64 => 2#4
  | .n64 => 3#4
  | .s16 => 4#4
  | .n16 => 5#4
  | .s8 => 6#4
  | .n8 => 7#4
  | .b32 => 8#4
  | .b64 => 9#4
  | .b16 => 10#4
  | .b8 => 11#4
  | .b128 => 12#4
  | .l6 => 12#4
  | .f32 => 13#4
  | .f16 => 14#4
  | .bf16 => 15#4

/-- R51: code 0xC is .l6 in sets M and CV, .b128 elsewhere. -/
def Ty.ofCode (six : Bool) (x : BitVec 4) : Ty :=
  match x.toNat with
  | 0 => .s32
  | 1 => .n32
  | 2 => .s64
  | 3 => .n64
  | 4 => .s16
  | 5 => .n16
  | 6 => .s8
  | 7 => .n8
  | 8 => .b32
  | 9 => .b64
  | 10 => .b16
  | 11 => .b8
  | 13 => .f32
  | 14 => .f16
  | 12 => if six then .l6 else .b128
  | _ => .bf16

def TSet.six : TSet → Bool
  | .M | .CV => true
  | _ => false

/-- The type a var code names in a type set. -/
def TSet.of (t : TSet) (x : BitVec 4) : Option Ty :=
  if t.has (Ty.ofCode t.six x) then some (Ty.ofCode t.six x) else none

/-- R197. -/
def Rnd.code : Rnd → BitVec 3
  | .rne => 0#3
  | .rz => 1#3
  | .rdn => 2#3
  | .rup => 3#3
  | .rna => 4#3

def Rnd.ofCode (x : BitVec 3) : Option Rnd :=
  match x.toNat with
  | 0 => some .rne
  | 1 => some .rz
  | 2 => some .rdn
  | 3 => some .rup
  | 4 => some .rna
  | _ => none

/-- R237. -/
def Cond.code : Cond → BitVec 3
  | .eq => 0#3
  | .ne => 1#3
  | .lt => 2#3
  | .le => 3#3
  | .gt => 4#3
  | .ge => 5#3

def Cond.ofCode (x : BitVec 3) : Option Cond :=
  match x.toNat with
  | 0 => some .eq
  | 1 => some .ne
  | 2 => some .lt
  | 3 => some .le
  | 4 => some .gt
  | 5 => some .ge
  | _ => none

/-- R21. -/
def Hint.code : Hint → BitVec 3
  | .default => 0#3
  | .stream => 1#3
  | .keep => 2#3
  | .short => 3#3
  | .long => 4#3
  | .home => 5#3

def Hint.ofCode (x : BitVec 3) : Option Hint :=
  match x.toNat with
  | 0 => some .default
  | 1 => some .stream
  | 2 => some .keep
  | 3 => some .short
  | 4 => some .long
  | 5 => some .home
  | _ => none

/-- R120. -/
def Scope.code : Scope → BitVec 3
  | .core => 0#3
  | .clus => 1#3
  | .die => 2#3
  | .dev => 3#3
  | .sys => 4#3

def Scope.ofCode (x : BitVec 3) : Option Scope :=
  match x.toNat with
  | 0 => some .core
  | 1 => some .clus
  | 2 => some .die
  | 3 => some .dev
  | 4 => some .sys
  | _ => none

/-- R126. -/
def FenceKind.code : FenceKind → BitVec 4
  | .rel => 1#4
  | .acq => 2#4
  | .ar => 3#4

def FenceKind.ofCode (x : BitVec 4) : Option FenceKind :=
  match x.toNat with
  | 1 => some .rel
  | 2 => some .acq
  | 3 => some .ar
  | _ => none

/-- R333. -/
def AOp.code : AOp → BitVec 3
  | .add => 0#3
  | .min => 1#3
  | .max => 2#3
  | .and => 3#3
  | .or => 4#3
  | .xor => 5#3
  | .exch => 6#3

def AOp.ofCode (x : BitVec 3) : Option AOp :=
  match x.toNat with
  | 0 => some .add
  | 1 => some .min
  | 2 => some .max
  | 3 => some .and
  | 4 => some .or
  | 5 => some .xor
  | 6 => some .exch
  | _ => none

/-- R248. -/
def RedOp.code : RedOp → BitVec 3
  | .add => 0#3
  | .min => 1#3
  | .max => 2#3
  | .and => 3#3
  | .or => 4#3
  | .xor => 5#3

def RedOp.ofCode (x : BitVec 3) : Option RedOp :=
  match x.toNat with
  | 0 => some .add
  | 1 => some .min
  | 2 => some .max
  | 3 => some .and
  | 4 => some .or
  | 5 => some .xor
  | _ => none

/-- R248. -/
def VoteMode.code : VoteMode → BitVec 2
  | .all => 0#2
  | .any => 1#2
  | .eq => 2#2
  | .ballot => 3#2

def VoteMode.ofCode (x : BitVec 2) : Option VoteMode :=
  match x.toNat with
  | 0 => some .all
  | 1 => some .any
  | 2 => some .eq
  | 3 => some .ballot
  | _ => none

/-- R248. -/
def ShflMode.code : ShflMode → BitVec 2
  | .idx => 0#2
  | .up => 1#2
  | .down => 2#2
  | .xor => 3#2

def ShflMode.ofCode (x : BitVec 2) : Option ShflMode :=
  match x.toNat with
  | 0 => some .idx
  | 1 => some .up
  | 2 => some .down
  | 3 => some .xor
  | _ => none

/-- R237. -/
def PsetOp.code : PsetOp → BitVec 2
  | .and => 0#2
  | .or => 1#2
  | .xor => 2#2
  | .andn => 3#2

def PsetOp.ofCode (x : BitVec 2) : Option PsetOp :=
  match x.toNat with
  | 0 => some .and
  | 1 => some .or
  | 2 => some .xor
  | 3 => some .andn
  | _ => none

/-- R251. -/
def LimbSize.code : LimbSize → BitVec 3
  | .k2 => 1#3
  | .k4 => 2#3
  | .k8 => 3#3
  | .k16 => 4#3
  | .k32 => 5#3

def LimbSize.ofCode (x : BitVec 3) : Option LimbSize :=
  match x.toNat with
  | 1 => some .k2
  | 2 => some .k4
  | 3 => some .k8
  | 4 => some .k16
  | 5 => some .k32
  | _ => none

/-- R220. -/
def CpyDir.code : CpyDir → BitVec 2
  | .inn => 0#2
  | .out => 1#2
  | .ss => 2#2

def CpyDir.ofCode (x : BitVec 2) : Option CpyDir :=
  match x.toNat with
  | 0 => some .inn
  | 1 => some .out
  | 2 => some .ss
  | _ => none

/-- R327. -/
def DrainOp.code : DrainOp → BitVec 2
  | .wr => 0#2
  | .add => 1#2
  | .max => 2#2

def DrainOp.ofCode (x : BitVec 2) : Option DrainOp :=
  match x.toNat with
  | 0 => some .wr
  | 1 => some .add
  | 2 => some .max
  | _ => none

/-- R327. -/
def DrainKind.code : DrainKind → BitVec 1
  | .mem => 0#1
  | .spad => 1#1

def DrainKind.ofCode (x : BitVec 1) : Option DrainKind :=
  match x.toNat with
  | 0 => some .mem
  | 1 => some .spad
  | _ => none

/-- R339. -/
def SignalOp.code : SignalOp → BitVec 2
  | .set => 0#2
  | .add => 1#2

def SignalOp.ofCode (x : BitVec 2) : Option SignalOp :=
  match x.toNat with
  | 0 => some .set
  | 1 => some .add
  | _ => none

/-- R423. -/
def SysReg.code : SysReg → BitVec 12
  | .leaseDef => 1#12
  | .leaseShort => 2#12
  | .leaseLong => 3#12
  | .hzCore => 16#12
  | .hzClus => 17#12
  | .hzDie => 18#12
  | .hzDev => 19#12
  | .chbTol => 32#12
  | .chbPoolFree => 33#12
  | .wswin => 48#12
  | .wslen => 49#12
  | .trapBase => 64#12
  | .trapCause => 65#12
  | .trapPc => 66#12
  | .trapMask => 67#12
  | .trapAddr => 68#12
  | .recDepart => 80#12
  | .cntLocal => 96#12
  | .cntRemoteOut => 97#12
  | .cntRemoteIn => 98#12
  | .cntCxl => 99#12
  | .cmapBase => 112#12
  | .wdogTicks => 128#12

def SysReg.ofCode (x : BitVec 12) : Option SysReg :=
  match x.toNat with
  | 1 => some .leaseDef
  | 2 => some .leaseShort
  | 3 => some .leaseLong
  | 16 => some .hzCore
  | 17 => some .hzClus
  | 18 => some .hzDie
  | 19 => some .hzDev
  | 32 => some .chbTol
  | 33 => some .chbPoolFree
  | 48 => some .wswin
  | 49 => some .wslen
  | 64 => some .trapBase
  | 65 => some .trapCause
  | 66 => some .trapPc
  | 67 => some .trapMask
  | 68 => some .trapAddr
  | 80 => some .recDepart
  | 96 => some .cntLocal
  | 97 => some .cntRemoteOut
  | 98 => some .cntRemoteIn
  | 99 => some .cntCxl
  | 112 => some .cmapBase
  | 128 => some .wdogTicks
  | _ => none

/-- R35. -/
def GuardMode.code : GuardMode → BitVec 2
  | .one => 0#2
  | .and => 1#2
  | .or => 2#2

def GuardMode.ofCode (x : BitVec 2) : Option GuardMode :=
  match x.toNat with
  | 0 => some .one
  | 1 => some .and
  | 2 => some .or
  | _ => none

/-- R333: ord in [4:3], scope in [2:0]; a relaxed form has scope 0. -/
def Ord.code : Ord → BitVec 5
  | .relaxed => 0#5
  | .acq s => 1#2 ++ s.code
  | .rel s => 2#2 ++ s.code
def Ord.ofCode (x : BitVec 5) : Option Ord :=
  match (x.extractLsb' 3 2).toNat with
  | 0 => if x == 0#5 then some .relaxed else none
  | 1 => (Scope.ofCode (x.extractLsb' 0 3)).map .acq
  | 2 => (Scope.ofCode (x.extractLsb' 0 3)).map .rel
  | _ => none

/-- R188: var 0 for the issuing core's instance, 4 + N for slot N's. -/
def slotCode : Option (Fin 4) → BitVec 4
  | none => 0#4
  | some n => BitVec.ofNat 4 (4 + n.val)
def slotOf (x : BitVec 4) : Option (Fin 4) :=
  if h : 4 ≤ x.toNat ∧ x.toNat < 8 then some ⟨x.toNat - 4, by omega⟩ else none

/-! ## The opcode map (R53): the var values each opcode takes -/

def typed (t : TSet) : List Nat := t.types.map (fun ty => ty.code.toNat)

/-- The var values of an opcode; none for a value of opc that is not an instruction. -/
def opcodeVars (opc : Nat) : List Nat :=
  match opc with

  | 0x01 | 0x02 | 0x03 | 0x04 | 0x05 | 0x06 | 0x07 | 0x08 | 0x09 | 0x0A | 0x0B | 0x0C | 0x0D | 0x0E | 0x0F
  | 0x10 | 0x11 => [0]
  | 0x12 => typed .X
  | 0x13 | 0x14 => typed .GR
  | 0x20 => typed .X4
  | 0x21 => typed .X
  | 0x22 | 0x23 | 0x24 | 0x25 | 0x26 | 0x28 | 0x29 | 0x33 | 0x38 | 0x3B => typed .W
  | 0x27 => typed .IW
  | 0x2A | 0x31 => typed .S
  | 0x2B | 0x2C | 0x2D | 0x2E | 0x2F | 0x30 | 0x32 | 0x34 | 0x35 | 0x36 | 0x37 | 0x39 => typed .X
  | 0x3A | 0x3C | 0x40 | 0x41 => [0]
  | 0x42 | 0x43 | 0x44 | 0x45 | 0x46 | 0x47 | 0x48 => typed .L
  | 0x50 | 0x51 | 0x52 | 0x53 | 0x54 | 0x55 | 0x56 | 0x57 | 0x58 | 0x59 | 0x62 | 0x63 => typed .F
  | 0x5A | 0x5B | 0x5C | 0x5D | 0x5E | 0x5F | 0x60 => typed .F1
  | 0x61 => typed .CV
  | 0x64 => typed .H
  | 0x70 | 0x71 | 0x72 | 0x73 | 0x74 | 0x75 | 0x76 | 0x77 | 0x78 | 0x79 | 0x7A | 0x7B => [0]
  | 0x80 | 0x82 | 0x84 => typed .LD
  | 0x81 | 0x83 => typed .ST
  | 0x85 => [0]
  | 0x86 => [0, 1]
  | 0x87 => [1, 2, 3]
  | 0x88 => typed .X
  | 0x89 => [0]
  | 0x90 | 0x92 => typed .A
  | 0x91 => typed .AC
  | 0x93 | 0x98 => [0]
  | 0x99 | 0x9A | 0x9B => typed .M
  | 0x9C => [0]
  | 0x9D => [0, 1]
  | 0xA0 | 0xA2 | 0xA3 | 0xA5 => [0]
  | 0xA1 | 0xA4 | 0xA6 => [0, 4, 5, 6, 7]
  | 0xB0 | 0xB9 => typed .M
  | 0xB1 | 0xB2 | 0xB3 | 0xB4 | 0xB5 | 0xB6 | 0xB7 | 0xB8 => [0]
  | 0xBA => [0, 1]
  | 0xC0 | 0xC1 | 0xC2 | 0xC3 | 0xC4 | 0xC8 | 0xC9 | 0xCA | 0xCB | 0xCC | 0xD0 | 0xD1 | 0xD2 | 0xD3 => [0]
  | _ => []

/-! ## Operand fields (R36, R54) -/

/-- What a 9-bit code names: a register class, `zero`, `grp`, `amask`, another special operand of uniform or of vector
class, or nothing. -/
inductive Kind where
  | v | s | p | t | f | b | zero | grp | amask | uni | vec | bad
  deriving DecidableEq, Repr

def kindOf (x : BitVec 9) : Kind :=
  if x.toNat < 128 then .v else if x.toNat < 320 then .s else if x.toNat < 336 then .p
  else if x.toNat < 368 then .t else if x.toNat < 384 then .f else if x.toNat < 480 then .b
  else match x.toNat with
    | 480 => .zero
    | 482 => .grp
    | 489 => .amask
    | 481 | 490 | 491 | 492 | 493 => .vec
    | n => if n < 496 then .uni else .bad

/-- R37, R38: vector class. -/
def Kind.isVec : Kind → Bool
  | .v | .p | .vec => true
  | _ => false
def Kind.isSpecial : Kind → Bool
  | .zero | .grp | .amask | .uni | .vec => true
  | _ => false

/-- The use of an operand field in the variant written (R36). -/
inductive Field where
  | unused
  | bits
  | op (ks : List Kind) (w : Nat) (dst : Bool)
  deriving DecidableEq, Repr

structure Shape where
  d : Field := .unused
  a : Field := .unused
  b : Field := .unused
  c : Field := .unused
  e : Field := .unused
  deriving DecidableEq, Repr

namespace Shapes
/-- "I" of R237. -/
def i (w : Nat) : Field := .op [.v, .s, .zero, .grp, .amask, .uni, .vec] w false
/-- "D" of R237. -/
def d (w : Nat) : Field := .op [.v, .s, .zero] w true
def dp (w : Nat) : Field := .op [.v, .s, .zero, .p] w true
def vz (w : Nat) : Field := .op [.v, .zero] w true
def v : Field := .op [.v] 32 false
def vs (w : Nat) : Field := .op [.v, .s] w false
def vsz : Field := .op [.v, .s, .zero] 32 false
def s : Field := .op [.s] 32 false
/-- A uniform register of an even-aligned pair. -/
def s2 : Field := .op [.s] 128 false
def sz : Field := .op [.s, .zero] 32 false
def dsz : Field := .op [.s, .zero] 32 true
def ds : Field := .op [.s] 32 true
def p : Field := .op [.p] 32 false
def pz : Field := .op [.p, .zero] 32 false
def dpd : Field := .op [.p] 32 true
def dpz : Field := .op [.p, .zero] 32 true
def t : Field := .op [.t] 32 false
def f : Field := .op [.f] 32 false
def b : Field := .op [.b] 32 false
def bz : Field := .op [.b, .zero] 32 false
end Shapes

open Shapes in
/-- The operand fields of each opcode, by var and ext where the chapters say so (R54). -/
def shape (r : Raw) : Shape :=
  let w := (Ty.ofCode false r.var).bits
  let m := (Ty.ofCode true r.var).bits
  match r.opc.toNat with
  | 0x02 => { c := .bits, e := .bits }
  | 0x03 => { a := vs 64 }
  | 0x04 => { d := vz 32, c := .bits, e := .bits }
  | 0x05 => { d := vz 32, a := vs 64 }
  | 0x06 => { a := .op [.v, .zero] 32 false }
  | 0x0A => { d := dpz, a := vsz }
  | 0x0B => { a := .op [.s, .grp] 32 false, b := .op [.s, .amask] 32 false }
  | 0x0F => { d := dsz }
  | 0x10 => { a := sz }
  | 0x11 => { d := if r.ext.extractLsb' 0 2 == 3#2 then vz 32 else dpd, a := p }
  | 0x12 => { d := vz w, a := i w, b := i w, c := pz }
  | 0x13 | 0x14 => { d := vz w, a := i w }
  | 0x20 | 0x2A | 0x2E | 0x35 | 0x36 | 0x37 => { d := d w, a := i w }
  | 0x21 => { d := d w, c := .bits, e := .bits }
  | 0x22 | 0x23 | 0x24 | 0x25 | 0x28 | 0x29 | 0x2B | 0x2C | 0x2D | 0x2F | 0x30 | 0x31 | 0x32 | 0x3B =>
    { d := d w, a := i w, b := i w }
  | 0x26 | 0x33 => { d := d w, a := i w, b := i w, c := i w }
  | 0x27 => { d := d 64, a := i 32, b := i 32, c := i 64 }
  | 0x34 => { d := d w, a := i w, b := i w, c := i w, e := i w }
  | 0x38 => { d := dp w, a := i w, b := i w }
  | 0x39 => { d := d w, a := i w, b := i w, c := .op [.p, .v, .s, .zero, .grp, .amask, .uni, .vec] 32 false }
  | 0x3A => { d := d 64, a := vs 64, b := i 32 }
  | 0x3C => { d := dpd, a := p, b := p }
  | 0x42 | 0x43 => { d := vz 32, a := v, b := vsz, c := pz, e := dpz }
  | 0x44 | 0x45 => { d := vz 32, a := v, b := i 32, e := dpz }
  | 0x46 => { d := vz 32, a := v, b := vs 32, e := vz 32 }
  | 0x47 => { d := vz 32, a := v, b := vs 32, c := vsz, e := vz 32 }
  | 0x48 => { d := dpd, a := v, b := vsz }
  | 0x50 | 0x51 | 0x52 | 0x54 | 0x55 | 0x63 => { d := d 32, a := i 32, b := i 32 }
  | 0x53 | 0x64 => { d := d 32, a := i 32, b := i 32, c := i 32 }
  | 0x56 | 0x57 | 0x5A | 0x5B | 0x5C | 0x5D | 0x5E | 0x5F | 0x60 | 0x62 => { d := d 32, a := i 32 }
  | 0x58 => { d := dp 32, a := i 32, b := i 32 }
  | 0x59 => { d := dp 32, a := i 32 }
  | 0x61 =>
    { d := d m, a := i (Ty.ofCode true (r.ext.extractLsb' 0 4)).bits,
      b := if Ty.ofCode true r.var == .l6 || Ty.ofCode true (r.ext.extractLsb' 0 4) == .l6 then i 32 else .unused }
  | 0x70 => { d := f, a := s, b := s, c := sz }
  | 0x71 => { a := s, b := f }
  | 0x72 | 0x7B => { d := dsz, a := f }
  | 0x73 | 0x74 | 0x75 => { d := f, a := f, b := f }
  | 0x76 | 0x77 => { d := f, a := f }
  | 0x78 => { d := vz 32, a := f, e := dsz }
  | 0x79 => { d := d 32, a := f, b := i 32, e := dpz }
  | 0x7A => { d := f, a := f, b := sz }
  | 0x80 | 0x84 => { d := d w, a := vs 64, b := vsz, e := .bits }
  | 0x81 => { a := vs 64, b := vsz, c := i w, e := .bits }
  | 0x82 => { d := d w, a := vs 32, b := vsz, e := .bits }
  | 0x83 => { a := vs 32, b := vsz, c := i w, e := .bits }
  | 0x85 => { a := vs 64, b := vsz, e := .bits }
  | 0x86 => if r.var == 0#4 then { a := vs 64, b := vsz, e := .bits } else { e := .bits }
  | 0x88 => { d := d w, a := s, c := i w }
  | 0x89 => { d := s, a := s, b := s, c := bz, e := .bits }
  | 0x90 => { d := d w, a := vs 64, b := vsz, c := i w }
  | 0x91 => { d := d w, a := vs 64, b := vsz, c := i w, e := i w }
  | 0x92 => { a := vs 64, b := vsz, c := i w }
  | 0x93 => { a := s, c := sz }
  | 0x98 => { d := dsz, a := s, b := s, c := s, e := if r.ext.extractLsb' 0 2 == 1#2 then .unused else bz }
  | 0x99 => { d := dsz, a := s, b := s, c := s2, e := bz }
  | 0x9A => { d := dsz, a := s, b := s, c := s2, e := if r.var == 6#4 && r.ext.getLsbD 0 then .unused else bz }
  | 0x9B => { d := dsz, a := s, b := s, c := s2 }
  | 0x9C => { d := ds, a := sz }
  | 0x9D => if r.var == 0#4 then { a := sz } else {}
  | 0xA0 | 0xA2 | 0xA4 => { a := b, b := sz }
  | 0xA1 | 0xA3 | 0xA6 => { a := b }
  | 0xA5 => { d := .op [.p, .s, .zero] 32 true, a := b, b := sz }
  | 0xB0 => { d := t, a := s, b := s }
  | 0xB1 => { d := t, a := s }
  | 0xB2 => { a := s, b := t }
  | 0xB3 => { d := t }
  | 0xB4 => { d := t, a := t, b := t }
  | 0xB5 => { d := t, a := t, b := t, c := s2, e := s2 }
  | 0xB8 => { a := s, b := t, c := s, e := if r.ext.getLsbD 7 then bz else .unused }
  | 0xB9 => { d := t, a := t }
  | 0xBA => if r.var == 0#4 then { a := t } else {}
  | 0xC0 => { d := dpz, a := vsz, b := sz }
  | 0xC1 | 0xC2 => { a := vsz }
  | 0xC3 => { d := vz 32 }
  | 0xC4 => { d := d 32, a := vs 64, b := vsz, e := .bits }
  | 0xC8 => { d := dsz, a := s, b := s }
  | 0xCC => { d := dsz }
  | 0xD0 | 0xD1 => { d := dpz, a := s, b := vs 32 }
  | 0xD2 => { d := d 32, a := s }
  | 0xD3 => { d := dpz, a := s, b := vs 64 }
  | _ => {}

/-! ## The checks, in the order of R57 -/

/-- Check 0x08: the field's class, with no special operand where 128 bits are read. -/
def Field.classOk : Field → BitVec 9 → Bool
  | .op ks w dst, x => ks.contains (kindOf x) && !(w == 128 && !dst && (kindOf x).isSpecial)
  | _, _ => true
/-- Check 0x09. -/
def Field.unusedOk : Field → BitVec 9 → Bool
  | .unused, x => x == code480
  | _, _ => true
/-- Check 0x0A. -/
def Field.alignOk : Field → BitVec 9 → Bool
  | .op _ w _, x =>
    match kindOf x with
    | .v => vAligned w x.toNat
    | .s => sAligned w (x.toNat - 128)
    | _ => true
  | _, _ => true
def Field.isBits : Field → Bool
  | .bits => true
  | _ => false
def Field.isS : Field → BitVec 9 → Bool
  | .op _ _ true, x => kindOf x == .s
  | _, _ => false
def Field.isVecSource : Field → BitVec 9 → Bool
  | .op _ _ false, x => (kindOf x).isVec
  | _, _ => false
/-- Check 0x0D for one field: it holds v0-v127 or s0-s191. -/
def Field.isReg : Field → BitVec 9 → Bool
  | .op _ _ _, x => kindOf x == .v || kindOf x == .s
  | _, _ => false

/-- The opcodes whose chapters refuse every reuse bit (R188, R302, R327, R356, R419). -/
def noReuse (opc : Nat) : Bool :=
  (0x0C ≤ opc && opc ≤ 0x0E) || (0xA0 ≤ opc && opc ≤ 0xA6) || (0xB0 ≤ opc && opc ≤ 0xBA) ||
    (0xC0 ≤ opc && opc ≤ 0xC4)

/-- The first field, in the order d, a, b, c, e, of which `bad` holds, with its number. -/
def firstField (fs : List (BitVec 8 × Field × BitVec 9)) (bad : Field → BitVec 9 → Bool) : Option (BitVec 8) :=
  (fs.find? (fun x => bad x.2.1 x.2.2)).map (fun x => x.1)

def Raw.fields (r : Raw) : List (BitVec 8 × Field × BitVec 9) :=
  let s := shape r
  [(0#8, s.d, r.d), (1#8, s.a, r.a), (2#8, s.b, r.b), (3#8, s.c, r.c), (4#8, s.e, r.e)]

/-- Checks 0x03 to 0x06, which need no operand (R57). -/
def Raw.checkHead (r : Raw) : Option Reject :=
  if (opcodeVars r.opc.toNat).isEmpty then some ⟨0x03#8, 0#8⟩
  else if !(opcodeVars r.opc.toNat).contains r.var.toNat then some ⟨0x04#8, 0#8⟩
  else if r.gm == 3#2 then some ⟨0x05#8, 0#8⟩
  else if r.gm == 0#2 && (r.g2 != 0#4 || r.n2) then some ⟨0x06#8, 0#8⟩
  else none

/-- Checks 0x07 to 0x0D (R57). -/
def Raw.checkFields (r : Raw) : Option Reject :=
  let fs := r.fields
  match firstField fs (fun f x => !f.isBits && kindOf x == .bad) with
  | some n => some ⟨0x07#8, n⟩
  | none =>
  match firstField fs (fun f x => !f.classOk x) with
  | some n => some ⟨0x08#8, n⟩
  | none =>
  if r.opc == 0x79#8 && kindOf r.d == .s && kindOf r.e == .p then some ⟨0x08#8, 4#8⟩ else
  match firstField fs (fun f x => !f.unusedOk x) with
  | some n => some ⟨0x09#8, n⟩
  | none =>
  match firstField fs (fun f x => !f.alignOk x) with
  | some n => some ⟨0x0A#8, n⟩
  | none =>
  if fs.any (fun x => x.2.1.isS x.2.2) && fs.any (fun x => x.2.1.isVecSource x.2.2) then some ⟨0x0B#8, 0#8⟩
  else if (if 0x80 ≤ r.opc.toNat && r.opc.toNat ≤ 0x89 then 5#3 else 0#3).ult r.hint then some ⟨0x0C#8, 0#8⟩
  else if r.reuse.getLsbD 2 && (noReuse r.opc.toNat || !(shape r).a.isReg r.a) then some ⟨0x0D#8, 1#8⟩
  else if r.reuse.getLsbD 1 && (noReuse r.opc.toNat || !(shape r).b.isReg r.b) then some ⟨0x0D#8, 2#8⟩
  else if r.reuse.getLsbD 0 && (noReuse r.opc.toNat || !(shape r).c.isReg r.c) then some ⟨0x0D#8, 3#8⟩
  else none

/-! ## From the fields to the instruction. `none` here is check 0x0E: an ext value the instruction does not define -/

/-- `x` where `b` holds. -/
def given {α : Type} (b : Bool) (x : Option α) : Option α := if b then x else none

def Raw.ctl (r : Raw) : Option Ctl := do
  let gm ← GuardMode.ofCode r.gm
  some ⟨r.g1.toFin, r.n1, r.g2.toFin, r.n2, gm, r.stall, r.yld, r.reuse⟩

/-- The ext bits outside `mask` are zero. -/
def Raw.extIn (r : Raw) (mask : BitVec 16) : Bool := r.ext &&& ~~~mask == 0#16

/-- R18. -/
def Raw.addr (r : Raw) : Option Addr := do
  some ⟨← VS.ofCode r.a, ← Idx.ofCode r.b, r.e ++ r.ext⟩
/-- R19. -/
def Raw.imm (r : Raw) : BitVec 34 := r.c ++ (r.e ++ r.ext)
def Raw.rnd (r : Raw) : Option Rnd := Rnd.ofCode (r.ext.extractLsb' 4 3)
def Raw.stream (r : Raw) : Fin 8 := (r.ext.extractLsb' 0 3).toFin
def Raw.pri (r : Raw) : Fin 4 := (r.ext.extractLsb' 3 2).toFin

/-- Control, traps and system registers (R55, R376, R419). -/
def buildControl (r : Raw) (k : Ctl) : Option Instr :=
  match r.opc.toNat with
  | 0x01 => given (r.ext == 0#16) (do some (.nop k ))
  | 0x02 => some (.bra k r.imm)
  | 0x03 => given (r.ext == 0#16) (do some (.brx k (← VS.ofCode r.a)))
  | 0x04 => do some (.call k (← VDst.ofCode r.d) r.imm)
  | 0x05 => given (r.ext == 0#16) (do some (.callx k (← VDst.ofCode r.d) (← VS.ofCode r.a)))
  | 0x06 => given (r.ext == 0#16) (do some (.ret k (← optOf VReg.ofCode r.a)))
  | 0x07 => given (r.ext == 0#16) (do some (.exit k ))
  | 0x08 => given (r.ext == 0#16) (do some (.yield k ))
  | 0x09 => some (.wait k (r.ext.extractLsb' 12 4) (r.ext.extractLsb' 8 4) (r.ext.extractLsb' 4 4) (r.ext.extractLsb' 0 4))
  | 0x0A => do some (.sleep k (← PDst.ofCode r.d) (← SleepN.of r.a r.ext))
  | 0x0B => given (r.ext == 0#16) (do some (.wake k (← WakeG.ofCode r.a) (← WakeM.ofCode r.b)))
  | 0x0C => given (r.extIn 0x00FF#16) (do some (.trap k (r.ext.setWidth 8)))
  | 0x0D => given (r.ext == 0#16) (do some (.tret k ))
  | 0x0E => given (r.extIn 0x00FF#16) (do some (.bkpt k (r.ext.setWidth 8)))
  | 0x0F => given (r.extIn 0x0FFF#16) (do some (.sysrd k (← SDst.ofCode r.d) (← SysReg.ofCode (r.ext.setWidth 12))))
  | 0x10 => given (r.ext == 0x020#16 || r.ext == 0x040#16 || r.ext == 0x042#16)
      (do some (.syswr k (← SysReg.ofCode (r.ext.setWidth 12)) (← SDst.ofCode r.a)))
  | _ => none

/-- The instructions across threads (R248). -/
def buildCross (r : Raw) (k : Ctl) : Option Instr :=
  match r.opc.toNat with
  | 0x11 => given (r.extIn 0x0003#16) (do some (.vote k (← VoteMode.ofCode (r.ext.setWidth 2)) (← DstP.ofCode r.d) (← PReg.ofCode r.a)))
  | 0x12 => given (r.extIn 0x0003#16) (do some (.shfl k (← TSet.of .X r.var) (← ShflMode.ofCode (r.ext.setWidth 2)) (← VDst.ofCode r.d) (← Src.ofCode r.a) (← Src.ofCode r.b) (← optOf PReg.ofCode r.c)))
  | 0x13 => given (r.extIn 0x0007#16) (do
      let op ← RedOp.ofCode (r.ext.setWidth 3)
      let ty ← TSet.of .GR r.var
      given (op.allows ty) (do some (.gred k ty op (← VDst.ofCode r.d) (← Src.ofCode r.a))))
  | 0x14 => given (r.extIn 0x000F#16) (do
      let op ← RedOp.ofCode (r.ext.setWidth 3)
      let ty ← TSet.of .GR r.var
      given (op.allows ty) (do some (.gscan k ty op (r.ext.getLsbD 3) (← VDst.ofCode r.d) (← Src.ofCode r.a))))
  | _ => none

/-- Integer and address arithmetic (R237). -/
def buildInteger (r : Raw) (k : Ctl) : Option Instr :=
  match r.opc.toNat with
  | 0x20 => given (r.ext == 0#16) (do some (.mov k (← TSet.of .X4 r.var) (← Dst.ofCode r.d) (← Src.ofCode r.a)))
  | 0x21 => do some (.movi k (← TSet.of .X r.var) (← Dst.ofCode r.d) r.imm)
  | 0x22 => given (r.ext == 0#16) (do some (.iadd k (← TSet.of .W r.var) (← Dst.ofCode r.d) (← Src.ofCode r.a) (← Src.ofCode r.b)))
  | 0x23 => given (r.ext == 0#16) (do some (.isub k (← TSet.of .W r.var) (← Dst.ofCode r.d) (← Src.ofCode r.a) (← Src.ofCode r.b)))
  | 0x24 => given (r.ext == 0#16) (do some (.imul k (← TSet.of .W r.var) (← Dst.ofCode r.d) (← Src.ofCode r.a) (← Src.ofCode r.b)))
  | 0x25 => given (r.ext == 0#16) (do some (.imulh k (← TSet.of .W r.var) (← Dst.ofCode r.d) (← Src.ofCode r.a) (← Src.ofCode r.b)))
  | 0x26 => given (r.ext == 0#16) (do some (.imad k (← TSet.of .W r.var) (← Dst.ofCode r.d) (← Src.ofCode r.a) (← Src.ofCode r.b) (← Src.ofCode r.c)))
  | 0x27 => given (r.ext == 0#16) (do some (.imadw k (← TSet.of .IW r.var) (← Dst.ofCode r.d) (← Src.ofCode r.a) (← Src.ofCode r.b) (← Src.ofCode r.c)))
  | 0x28 => given (r.ext == 0#16) (do some (.imin k (← TSet.of .W r.var) (← Dst.ofCode r.d) (← Src.ofCode r.a) (← Src.ofCode r.b)))
  | 0x29 => given (r.ext == 0#16) (do some (.imax k (← TSet.of .W r.var) (← Dst.ofCode r.d) (← Src.ofCode r.a) (← Src.ofCode r.b)))
  | 0x2A => given (r.ext == 0#16) (do some (.iabs k (← TSet.of .S r.var) (← Dst.ofCode r.d) (← Src.ofCode r.a)))
  | 0x2B => given (r.ext == 0#16) (do some (.and k (← TSet.of .X r.var) (← Dst.ofCode r.d) (← Src.ofCode r.a) (← Src.ofCode r.b)))
  | 0x2C => given (r.ext == 0#16) (do some (.or k (← TSet.of .X r.var) (← Dst.ofCode r.d) (← Src.ofCode r.a) (← Src.ofCode r.b)))
  | 0x2D => given (r.ext == 0#16) (do some (.xor k (← TSet.of .X r.var) (← Dst.ofCode r.d) (← Src.ofCode r.a) (← Src.ofCode r.b)))
  | 0x2E => given (r.ext == 0#16) (do some (.not k (← TSet.of .X r.var) (← Dst.ofCode r.d) (← Src.ofCode r.a)))
  | 0x2F => given (r.ext == 0#16) (do some (.shl k (← TSet.of .X r.var) (← Dst.ofCode r.d) (← Src.ofCode r.a) (← Src.ofCode r.b)))
  | 0x30 => given (r.ext == 0#16) (do some (.shr k (← TSet.of .X r.var) (← Dst.ofCode r.d) (← Src.ofCode r.a) (← Src.ofCode r.b)))
  | 0x31 => given (r.ext == 0#16) (do some (.sar k (← TSet.of .S r.var) (← Dst.ofCode r.d) (← Src.ofCode r.a) (← Src.ofCode r.b)))
  | 0x32 => given (r.ext == 0#16) (do some (.rot k (← TSet.of .X r.var) (← Dst.ofCode r.d) (← Src.ofCode r.a) (← Src.ofCode r.b)))
  | 0x33 => given (r.ext == 0#16) (do some (.bfx k (← TSet.of .W r.var) (← Dst.ofCode r.d) (← Src.ofCode r.a) (← Src.ofCode r.b) (← Src.ofCode r.c)))
  | 0x34 => given (r.ext == 0#16) (do some (.bfi k (← TSet.of .X r.var) (← Dst.ofCode r.d) (← Src.ofCode r.a) (← Src.ofCode r.b) (← Src.ofCode r.c) (← Src.ofCode r.e)))
  | 0x35 => given (r.ext == 0#16) (do some (.popc k (← TSet.of .X r.var) (← Dst.ofCode r.d) (← Src.ofCode r.a)))
  | 0x36 => given (r.ext == 0#16) (do some (.clz k (← TSet.of .X r.var) (← Dst.ofCode r.d) (← Src.ofCode r.a)))
  | 0x37 => given (r.ext == 0#16) (do some (.brev k (← TSet.of .X r.var) (← Dst.ofCode r.d) (← Src.ofCode r.a)))
  | 0x38 => given (r.extIn 0x0007#16) (do some (.iset k (← TSet.of .W r.var) (← Cond.ofCode (r.ext.setWidth 3)) (← DstP.ofCode r.d) (← Src.ofCode r.a) (← Src.ofCode r.b)))
  | 0x39 => given (r.ext == 0#16) (do some (.sel k (← TSet.of .X r.var) (← Dst.ofCode r.d) (← Src.ofCode r.a) (← Src.ofCode r.b) (← SelCond.ofCode r.c)))
  | 0x3A => given (r.extIn 0x000F#16) (do some (.lea k (r.ext.getLsbD 3) (r.ext.setWidth 3) (← Dst.ofCode r.d) (← VS.ofCode r.a) (← Src.ofCode r.b)))
  | 0x3B => given (r.extIn 0x0001#16) (do some (.idiv k (← TSet.of .W r.var) (r.ext.getLsbD 0) (← Dst.ofCode r.d) (← Src.ofCode r.a) (← Src.ofCode r.b)))
  | 0x3C => given (r.extIn 0x0003#16) (do some (.pset k (← PsetOp.ofCode (r.ext.setWidth 2)) (← PReg.ofCode r.d) (← PReg.ofCode r.a) (← PReg.ofCode r.b)))
  | _ => none

/-- Bound limbs (R251, R254). -/
def buildLimb (r : Raw) (k : Ctl) : Option Instr :=
  match r.opc.toNat with
  | 0x40 => given (r.extIn 0x0007#16) (do some (.lbind k (← LimbSize.ofCode (r.ext.setWidth 3))))
  | 0x41 => given (r.ext == 0#16) (do some (.lfree k ))
  | 0x42 => given (r.ext == 0#16) (do some (.ladc k (← VDst.ofCode r.d) (← VReg.ofCode r.a) (← Dst.ofCode r.b) (← optOf PReg.ofCode r.c) (← optOf PReg.ofCode r.e)))
  | 0x43 => given (r.ext == 0#16) (do some (.lsbb k (← VDst.ofCode r.d) (← VReg.ofCode r.a) (← Dst.ofCode r.b) (← optOf PReg.ofCode r.c) (← optOf PReg.ofCode r.e)))
  | 0x44 => given (r.ext == 0#16) (do some (.lshl k (← VDst.ofCode r.d) (← VReg.ofCode r.a) (← Src.ofCode r.b) (← optOf PReg.ofCode r.e)))
  | 0x45 => given (r.ext == 0#16) (do some (.lshr k (← VDst.ofCode r.d) (← VReg.ofCode r.a) (← Src.ofCode r.b) (← optOf PReg.ofCode r.e)))
  | 0x46 => given (r.extIn 0x001F#16) (do
      let wd ← VS.ofCode r.b
      given (wd.isVec || r.ext == 0#16) (do some (.lmulw k (← VDst.ofCode r.d) (← VReg.ofCode r.a) wd (← VDst.ofCode r.e) (r.ext.setWidth 5))))
  | 0x47 => given (r.extIn 0x001F#16) (do
      let wd ← VS.ofCode r.b
      given (wd.isVec || r.ext == 0#16) (do some (.lmac k (← VDst.ofCode r.d) (← VReg.ofCode r.a) wd (← Dst.ofCode r.c) (← VDst.ofCode r.e) (r.ext.setWidth 5))))
  | 0x48 => given (r.extIn 0x0007#16) (do some (.lcmp k (← Cond.ofCode (r.ext.setWidth 3)) (← PReg.ofCode r.d) (← VReg.ofCode r.a) (← Dst.ofCode r.b)))
  | _ => none

/-- Floating point (R261). -/
def buildFloat (r : Raw) (k : Ctl) : Option Instr :=
  match r.opc.toNat with
  | 0x50 => given (r.extIn 0x0070#16) (do some (.fadd k (← TSet.of .F r.var) (← r.rnd) (← Dst.ofCode r.d) (← Src.ofCode r.a) (← Src.ofCode r.b)))
  | 0x51 => given (r.extIn 0x0070#16) (do some (.fsub k (← TSet.of .F r.var) (← r.rnd) (← Dst.ofCode r.d) (← Src.ofCode r.a) (← Src.ofCode r.b)))
  | 0x52 => given (r.extIn 0x0070#16) (do some (.fmul k (← TSet.of .F r.var) (← r.rnd) (← Dst.ofCode r.d) (← Src.ofCode r.a) (← Src.ofCode r.b)))
  | 0x53 => given (r.extIn 0x0070#16) (do some (.ffma k (← TSet.of .F r.var) (← r.rnd) (← Dst.ofCode r.d) (← Src.ofCode r.a) (← Src.ofCode r.b) (← Src.ofCode r.c)))
  | 0x54 => given (r.ext == 0#16) (do some (.fmin k (← TSet.of .F r.var) (← Dst.ofCode r.d) (← Src.ofCode r.a) (← Src.ofCode r.b)))
  | 0x55 => given (r.ext == 0#16) (do some (.fmax k (← TSet.of .F r.var) (← Dst.ofCode r.d) (← Src.ofCode r.a) (← Src.ofCode r.b)))
  | 0x56 => given (r.ext == 0#16) (do some (.fabs k (← TSet.of .F r.var) (← Dst.ofCode r.d) (← Src.ofCode r.a)))
  | 0x57 => given (r.ext == 0#16) (do some (.fneg k (← TSet.of .F r.var) (← Dst.ofCode r.d) (← Src.ofCode r.a)))
  | 0x58 => given (r.extIn 0x000F#16) (do some (.fset k (← TSet.of .F r.var) (← Cond.ofCode (r.ext.setWidth 3)) (r.ext.getLsbD 3) (← DstP.ofCode r.d) (← Src.ofCode r.a) (← Src.ofCode r.b)))
  | 0x59 => given (r.extIn 0x01FF#16) (do
      let d ← DstP.ofCode r.d
      given (if d.isP then r.ext != 0#16 else r.ext == 0#16)
        (do some (.fclass k (← TSet.of .F r.var) d (← Src.ofCode r.a) (r.ext.setWidth 9))))
  | 0x5A => given (r.extIn 0x0070#16) (do some (.frcp k (← r.rnd) (← Dst.ofCode r.d) (← Src.ofCode r.a)))
  | 0x5B => given (r.ext == 0#16) (do some (.frsq k (← Dst.ofCode r.d) (← Src.ofCode r.a)))
  | 0x5C => given (r.extIn 0x0070#16) (do some (.fsqrt k (← r.rnd) (← Dst.ofCode r.d) (← Src.ofCode r.a)))
  | 0x5D => given (r.ext == 0#16) (do some (.fexp2 k (← Dst.ofCode r.d) (← Src.ofCode r.a)))
  | 0x5E => given (r.ext == 0#16) (do some (.flog2 k (← Dst.ofCode r.d) (← Src.ofCode r.a)))
  | 0x5F => given (r.ext == 0#16) (do some (.fsin k (← Dst.ofCode r.d) (← Src.ofCode r.a)))
  | 0x60 => given (r.ext == 0#16) (do some (.fcos k (← Dst.ofCode r.d) (← Src.ofCode r.a)))
  | 0x61 => given (r.extIn 0x007F#16) (do
      let dt ← TSet.of .CV r.var
      let st ← TSet.of .CV (r.ext.extractLsb' 0 4)
      given (!(dt == .l6 && st == .l6)) (do some (.fcvt k dt st (← r.rnd) (← Dst.ofCode r.d) (← Src.ofCode r.a) (← Src.ofCode r.b))))
  | 0x62 => given (r.extIn 0x0070#16) (do some (.frnd k (← TSet.of .F r.var) (← r.rnd) (← Dst.ofCode r.d) (← Src.ofCode r.a)))
  | 0x63 => given (r.extIn 0x0070#16) (do some (.fscale k (← TSet.of .F r.var) (← r.rnd) (← Dst.ofCode r.d) (← Src.ofCode r.a) (← Src.ofCode r.b)))
  | 0x64 => given (r.extIn 0x0070#16) (do some (.fdot2 k (← TSet.of .H r.var) (← r.rnd) (← Dst.ofCode r.d) (← Src.ofCode r.a) (← Src.ofCode r.b) (← Src.ofCode r.c)))
  | _ => none

/-- Function registers (R281). -/
def buildFunction (r : Raw) (k : Ctl) : Option Instr :=
  match r.opc.toNat with
  | 0x70 => do
      let n ← SImm.of 9 r.c r.ext
      given (n.immIn 1 256) (do some (.chld k (← CReg.ofCode r.d) (← SReg.ofCode r.a) (← SReg.ofCode r.b) n))
  | 0x71 => given (r.ext == 0#16) (do some (.chst k (← SReg.ofCode r.a) (← CReg.ofCode r.b)))
  | 0x72 => given (r.ext == 0#16) (do some (.chdom k (← SDst.ofCode r.d) (← CReg.ofCode r.a)))
  | 0x73 => given (r.extIn 0x0001#16) (do some (.chadd k (r.ext.getLsbD 0) (← CReg.ofCode r.d) (← CReg.ofCode r.a) (← CReg.ofCode r.b)))
  | 0x74 => given (r.ext == 0#16) (do some (.chmul k (← CReg.ofCode r.d) (← CReg.ofCode r.a) (← CReg.ofCode r.b)))
  | 0x75 => given (r.ext == 0#16) (do some (.chcomp k (← CReg.ofCode r.d) (← CReg.ofCode r.a) (← CReg.ofCode r.b)))
  | 0x76 => given (r.ext == 0#16) (do some (.chint k (← CReg.ofCode r.d) (← CReg.ofCode r.a)))
  | 0x77 => given (r.ext == 0#16) (do some (.chder k (← CReg.ofCode r.d) (← CReg.ofCode r.a)))
  | 0x78 => given (r.ext == 0#16) (do some (.chroot k (← VDst.ofCode r.d) (← SDst.ofCode r.e) (← CReg.ofCode r.a)))
  | 0x79 => given (r.ext == 0#16) (do some (.cheval k (← Dst.ofCode r.d) (← CReg.ofCode r.a) (← Src.ofCode r.b) (← optOf PReg.ofCode r.e)))
  | 0x7A => do
      let n ← SImm.of 9 r.b r.ext
      given (n.immIn 0 256) (do some (.chtrunc k (← CReg.ofCode r.d) (← CReg.ofCode r.a) n))
  | 0x7B => given (r.ext == 0#16) (do some (.chlen k (← SDst.ofCode r.d) (← CReg.ofCode r.a)))
  | _ => none

/-- Memory (R109, R126, R151, R183, R337). -/
def buildMemory (r : Raw) (k : Ctl) : Option Instr :=
  match r.opc.toNat with
  | 0x80 => do some (.ldg k (← Hint.ofCode r.hint) (← TSet.of .LD r.var) (← Dst.ofCode r.d) (← r.addr))
  | 0x81 => do some (.stg k (← Hint.ofCode r.hint) (← TSet.of .ST r.var) (← r.addr) (← Src.ofCode r.c))
  | 0x82 => do some (.ldx k (← Hint.ofCode r.hint) (← TSet.of .LD r.var) (← Dst.ofCode r.d) (← r.addr))
  | 0x83 => do some (.stx k (← Hint.ofCode r.hint) (← TSet.of .ST r.var) (← r.addr) (← Src.ofCode r.c))
  | 0x84 => do some (.ldw k (← Hint.ofCode r.hint) (← TSet.of .LD r.var) (← Dst.ofCode r.d) (← r.addr))
  | 0x85 => do some (.pref k (← Hint.ofCode r.hint) (← r.addr))
  | 0x86 => if r.var == 0#4 then do some (.linv k (← Hint.ofCode r.hint) (← r.addr))
      else given (r.e == 0#9 && r.ext == 0#16) (do some (.linvAll k (← Hint.ofCode r.hint)))
  | 0x87 => given (r.extIn 0x0007#16) (do some (.fence k (← Hint.ofCode r.hint) (← FenceKind.ofCode r.var) (← Scope.ofCode (r.ext.setWidth 3))))
  | 0x88 => given (r.ext == 0#16) (do some (.cst k (← Hint.ofCode r.hint) (← TSet.of .X r.var) (← Dst.ofCode r.d) (← SReg.ofCode r.a) (← Src.ofCode r.c)))
  | 0x89 => do some (.mcld k (← Hint.ofCode r.hint) (← SReg.ofCode r.d) (← SReg.ofCode r.a) (← SReg.ofCode r.b) (r.e ++ r.ext) (← optOf BReg.ofCode r.c))
  | _ => none

/-- Atomics and signals (R333, R339). -/
def buildAtomic (r : Raw) (k : Ctl) : Option Instr :=
  match r.opc.toNat with
  | 0x90 => given (r.extIn 0x01FF#16) (do
      let op ← AOp.ofCode (r.ext.setWidth 3)
      let ty ← TSet.of .A r.var
      given (op.allows ty) (do some (.atom k ty op (r.ext.getLsbD 8) (← Ord.ofCode (r.ext.extractLsb' 3 5)) (← Dst.ofCode r.d) (← VS.ofCode r.a)
        (← Idx.ofCode r.b) (← Src.ofCode r.c))))
  | 0x91 => given (r.extIn 0x01F8#16) (do some (.acas k (← TSet.of .AC r.var) (r.ext.getLsbD 8) (← Ord.ofCode (r.ext.extractLsb' 3 5)) (← Dst.ofCode r.d) (← VS.ofCode r.a)
      (← Idx.ofCode r.b) (← Src.ofCode r.c) (← Src.ofCode r.e)))
  | 0x92 => given (r.extIn 0x01FF#16) (do
      let op ← AOp.ofCode (r.ext.setWidth 3)
      let ty ← TSet.of .A r.var
      given (op.allows ty && op != .exch) (do some (.red k ty op (r.ext.getLsbD 8) (← Ord.ofCode (r.ext.extractLsb' 3 5)) (← VS.ofCode r.a)
        (← Idx.ofCode r.b) (← Src.ofCode r.c))))
  | 0x93 => given (r.extIn 0x0003#16) (do some (.signal k (← SignalOp.ofCode (r.ext.setWidth 2)) (← SReg.ofCode r.a) (← SDst.ofCode r.c)))
  | _ => none

/-- The copy engine (R220). -/
def buildCopy (r : Raw) (k : Ctl) : Option Instr :=
  match r.opc.toNat with
  | 0x98 => given (r.extIn 0x0003#16) (do some (.cpy k (← CpyDir.ofCode (r.ext.setWidth 2)) (← SDst.ofCode r.d) (← SReg.ofCode r.a) (← SReg.ofCode r.b) (← SReg.ofCode r.c) (← optOf BReg.ofCode r.e)))
  | 0x99 => given (r.ext == 0#16) (do some (.cpyt k (← TSet.of .M r.var) (← SDst.ofCode r.d) (← SReg.ofCode r.a) (← SReg.ofCode r.b) (← SReg.ofCode r.c) (← optOf BReg.ofCode r.e)))
  | 0x9A => if r.ext == 0#16 then do some (.cpyw k (← TSet.of .M r.var) (← SDst.ofCode r.d) (← SReg.ofCode r.a) (← SReg.ofCode r.b) (← SReg.ofCode r.c) (← optOf BReg.ofCode r.e))
      else given (r.ext == 1#16 && r.var == 6#4) (do some (.cpywPut k (← SDst.ofCode r.d) (← SReg.ofCode r.a) (← SReg.ofCode r.b) (← SReg.ofCode r.c)))
  | 0x9B => given (r.extIn 0x007F#16) (do some (.cpys k (← TSet.of .M r.var) (← TSet.of .M (r.ext.extractLsb' 0 4)) (← r.rnd) (← SDst.ofCode r.d) (← SReg.ofCode r.a) (← SReg.ofCode r.b) (← SReg.ofCode r.c)))
  | 0x9C => given (r.ext == 0#16) (do some (.cpyq k (← SReg.ofCode r.d) (← SDst.ofCode r.a)))
  | 0x9D => given (r.ext == 0#16) (if r.var == 0#4 then do some (.cpyx k (← SDst.ofCode r.a)) else some (.cpyxAll k))
  | _ => none

/-- Named barriers (R188). -/
def buildBarrier (r : Raw) (k : Ctl) : Option Instr :=
  match r.opc.toNat with
  | 0xA0 => do
      let n ← SImm.of 12 r.b r.ext
      given (n.immIn 1 2048) (do some (.bari k (← BReg.ofCode r.a) n))
  | 0xA1 => given (r.ext == 0#16) (do some (.bara k (slotOf r.var) (← BReg.ofCode r.a)))
  | 0xA2 => do some (.barw k (← BReg.ofCode r.a) (← SImm.of 1 r.b r.ext))
  | 0xA3 => given (r.ext == 0#16) (do some (.baraw k (← BReg.ofCode r.a)))
  | 0xA4 => do some (.barx k (slotOf r.var) (← BReg.ofCode r.a) (← SImm.of 16 r.b r.ext))
  | 0xA5 => do some (.bart k (← DstP.ofCode r.d) (← BReg.ofCode r.a) (← SImm.of 1 r.b r.ext))
  | 0xA6 => given (r.ext == 0#16) (do some (.barl k (slotOf r.var) (← BReg.ofCode r.a)))
  | _ => none

/-- The matrix engine and its drains (R302, R327). -/
def buildMatrix (r : Raw) (k : Ctl) : Option Instr :=
  match r.opc.toNat with
  | 0xB0 => given (r.ext == 0#16) (do some (.tshp k (← TSet.of .M r.var) (← TReg.ofCode r.d) (← SReg.ofCode r.a) (← SReg.ofCode r.b)))
  | 0xB1 => given (r.extIn 0x0007#16) (do some (.tld k r.stream (← TReg.ofCode r.d) (← SReg.ofCode r.a)))
  | 0xB2 => given (r.extIn 0x0007#16) (do some (.tst k r.stream (← SReg.ofCode r.a) (← TReg.ofCode r.b)))
  | 0xB3 => given (r.extIn 0x0007#16) (do some (.tzero k r.stream (← TReg.ofCode r.d)))
  | 0xB4 => given (r.extIn 0x07FF#16) (do some (.mma k ⟨r.stream, r.pri, r.ext.extractLsb' 5 6⟩ (← TReg.ofCode r.d) (← TReg.ofCode r.a) (← TReg.ofCode r.b)))
  | 0xB5 => given (r.extIn 0x07FF#16) (do some (.mloop k ⟨r.stream, r.pri, r.ext.extractLsb' 5 6⟩ (← TReg.ofCode r.d) (← TReg.ofCode r.a) (← TReg.ofCode r.b) (← SReg.ofCode r.c) (← SReg.ofCode r.e)))
  | 0xB6 => given (r.extIn 0x00FF#16 && r.ext != 0#16) (some (.twait k (r.ext.setWidth 8)))
  | 0xB7 => given (r.ext == 0#16) (do some (.tfence k ))
  | 0xB8 => given (r.extIn 0x00FF#16) (do some (.tdrain k (← DrainOp.ofCode (r.ext.extractLsb' 5 2))
      (← DrainKind.ofCode (r.ext.extractLsb' 7 1)) r.stream r.pri (← SReg.ofCode r.a) (← TReg.ofCode r.b) (← SReg.ofCode r.c) (← optOf BReg.ofCode r.e)))
  | 0xB9 => given (r.extIn 0x0077#16) (do some (.tcvt k (← TSet.of .M r.var) r.stream (← r.rnd) (← TReg.ofCode r.d) (← TReg.ofCode r.a)))
  | 0xBA => given (r.ext == 0#16) (if r.var == 0#4 then do some (.tgangOn k (← TReg.ofCode r.a)) else some (.tgangOff k))
  | _ => none

/-- Coloured monitors (R356). -/
def buildMonitor (r : Raw) (k : Ctl) : Option Instr :=
  match r.opc.toNat with
  | 0xC0 => do some (.mwait k (← PDst.ofCode r.d) (← Col.of r.a r.ext) (← optOf SReg.ofCode r.b))
  | 0xC1 => do some (.mnote k (← Col.of r.a r.ext))
  | 0xC2 => do some (.mnotea k (← Col.of r.a r.ext))
  | 0xC3 => given (r.extIn 0x0007#16) (do some (.mheld k (← VDst.ofCode r.d) (r.ext.setWidth 3)))
  | 0xC4 => do some (.clrd k (← Dst.ofCode r.d) (← r.addr))
  | _ => none

/-- Record mode (R171). -/
def buildRecord (r : Raw) (k : Ctl) : Option Instr :=
  match r.opc.toNat with
  | 0xC8 => given (r.extIn 0x000F#16) (do some (.recon k (← SDst.ofCode r.d) (r.ext.setWidth 4) (← SReg.ofCode r.a) (← SReg.ofCode r.b)))
  | 0xC9 => given (r.extIn 0x000F#16) (do some (.recoff k (r.ext.setWidth 4)))
  | 0xCA => given (r.extIn 0x000F#16) (do some (.replay k (r.ext.setWidth 4)))
  | 0xCB => given (r.extIn 0x000F#16) (do some (.rerec k (r.ext.setWidth 4)))
  | 0xCC => given (r.extIn 0x007F#16 && (r.ext.extractLsb' 4 3).ult 6#3)
      (do some (.recq k (← SDst.ofCode r.d) (r.ext.setWidth 4) (r.ext.extractLsb' 4 3)))
  | _ => none

/-- Queues (R403). -/
def buildQueue (r : Raw) (k : Ctl) : Option Instr :=
  match r.opc.toNat with
  | 0xD0 => given (r.ext == 0#16) (do some (.qpush k (← PDst.ofCode r.d) (← SReg.ofCode r.a) (← VS.ofCode r.b)))
  | 0xD1 => given (r.extIn 0x0001#16) (do some (.qpop k (r.ext.getLsbD 0) (← PDst.ofCode r.d) (← SReg.ofCode r.a) (← VS.ofCode r.b)))
  | 0xD2 => given (r.extIn 0x0001#16) (do some (.qstat k (← Dst.ofCode r.d) (← SReg.ofCode r.a) (r.ext.getLsbD 0)))
  | 0xD3 => given (r.ext == 0#16) (do some (.launch k (← PDst.ofCode r.d) (← SReg.ofCode r.a) (← VS.ofCode r.b)))
  | _ => none

/-- The instruction a word's fields name, once checks 0x03 to 0x0D have passed. -/
def Raw.build (r : Raw) (k : Ctl) : Option Instr :=
  if r.opc.ult 0x11#8 then buildControl r k
  else if r.opc.ult 0x20#8 then buildCross r k
  else if r.opc.ult 0x40#8 then buildInteger r k
  else if r.opc.ult 0x50#8 then buildLimb r k
  else if r.opc.ult 0x70#8 then buildFloat r k
  else if r.opc.ult 0x80#8 then buildFunction r k
  else if r.opc.ult 0x90#8 then buildMemory r k
  else if r.opc.ult 0x98#8 then buildAtomic r k
  else if r.opc.ult 0xA0#8 then buildCopy r k
  else if r.opc.ult 0xB0#8 then buildBarrier r k
  else if r.opc.ult 0xC0#8 then buildMatrix r k
  else if r.opc.ult 0xC8#8 then buildMonitor r k
  else if r.opc.ult 0xD0#8 then buildRecord r k
  else buildQueue r k

def decodeRaw (r : Raw) : Except Reject Instr :=
  match r.checkHead with
  | some x => .error x
  | none =>
    match r.checkFields with
    | some x => .error x
    | none =>
      match r.ctl.bind r.build with
      | some i => .ok i
      | none => .error ⟨0x0E#8, 0#8⟩

/-- Every 96-bit value is an instruction or the cause of a code-reject record (R59). -/
def decode (w : InstrWord) : Except Reject Instr := decodeRaw (Raw.ofWord w)

/-- The decoder of R33's slots on bytes: twelve bytes, lowest address first; `none` where there are not twelve, or where
they are no instruction. -/
def wordOfBytes (bs : List Byte) : InstrWord :=
  bs.foldr (fun b acc => (acc <<< 8) ||| b.setWidth 96) 0#96
def decodeBytes (bs : List Byte) : Option Instr :=
  if bs.length = 12 then
    match decode (wordOfBytes bs) with
    | .ok i => some i
    | .error _ => none
  else none

/-- The instruction this decoder reads from a word whose bits are `w` (one word of 96 bits; R35). -/
def decodeTableWord (nbits w : Nat) : Option Instr :=
  if nbits ≤ 96 then
    match decode (BitVec.ofNat 96 (w % 2 ^ nbits)) with
    | .ok i => some i
    | .error _ => none
  else none

/-! ## The encoder -/

/-- A word with no operands: fields d to e hold 480, hint 000, ext 0. -/
def Raw.base (opc : BitVec 8) (var : BitVec 4) (k : Ctl) : Raw where
  opc := opc
  var := var
  g1 := BitVec.ofNat 4 k.p1.val
  n1 := k.n1
  g2 := BitVec.ofNat 4 k.p2.val
  n2 := k.n2
  gm := k.gm.code
  d := code480
  a := code480
  b := code480
  c := code480
  e := code480
  hint := 0#3
  stall := k.stall
  yld := k.yld
  reuse := k.reuse
  ext := 0#16

/-- R19: c:e:ext. -/
def Raw.withImm (r : Raw) (x : BitVec 34) : Raw :=
  { r with c := x.extractLsb' 25 9, e := x.extractLsb' 16 9, ext := x.extractLsb' 0 16 }
/-- R18: a, b and e:ext. -/
def Raw.withAddr (r : Raw) (m : Addr) : Raw :=
  { r with a := m.base.code, b := m.idx.code, e := m.off.extractLsb' 16 9, ext := m.off.extractLsb' 0 16 }
def bit (b : Bool) : BitVec 1 := BitVec.ofBool b
def Rnd.ext (r : Rnd) : BitVec 16 := 0#9 ++ (r.code ++ 0#4)
def Rq.ext (q : Rq) : BitVec 16 := 0#5 ++ (q.j1 ++ (BitVec.ofNat 2 q.pri.val ++ BitVec.ofNat 3 q.st.val : BitVec 5))
def atomExt (x : Bool) (o : Ord) (op : BitVec 3) : BitVec 16 := 0#7 ++ (bit x ++ (o.code ++ op))

/-- The fields of an instruction's word; none for a step that is no instruction. -/
def Instr.toRaw : Instr → Option Raw
  | .nop k => some (Raw.base 0x01#8 0#4 k)
  | .bra k o => some ((Raw.base 0x02#8 0#4 k).withImm o)
  | .brx k t => some { Raw.base 0x03#8 0#4 k with a := t.code }
  | .call k l o => some { (Raw.base 0x04#8 0#4 k).withImm o with d := l.code }
  | .callx k l t => some { Raw.base 0x05#8 0#4 k with d := l.code, a := t.code }
  | .ret k l => some { Raw.base 0x06#8 0#4 k with a := optCode VReg.code l }
  | .exit k => some (Raw.base 0x07#8 0#4 k)
  | .yield k => some (Raw.base 0x08#8 0#4 k)
  | .wait k ld st cp tl => some { Raw.base 0x09#8 0#4 k with ext := ld ++ (st ++ (cp ++ tl)) }
  | .sleep k d n => some { Raw.base 0x0A#8 0#4 k with d := d.code, a := n.code, ext := n.ext }
  | .wake k g m => some { Raw.base 0x0B#8 0#4 k with a := g.code, b := m.code }
  | .trap k x => some { Raw.base 0x0C#8 0#4 k with ext := x.setWidth 16 }
  | .tret k => some (Raw.base 0x0D#8 0#4 k)
  | .bkpt k x => some { Raw.base 0x0E#8 0#4 k with ext := x.setWidth 16 }
  | .sysrd k d i => some { Raw.base 0x0F#8 0#4 k with d := d.code, ext := i.code.setWidth 16 }
  | .syswr k i a => some { Raw.base 0x10#8 0#4 k with a := a.code, ext := i.code.setWidth 16 }
  | .vote k m d a => some { Raw.base 0x11#8 0#4 k with d := d.code, a := a.code, ext := m.code.setWidth 16 }
  | .shfl k ty m d a n p =>
    some { Raw.base 0x12#8 ty.code k with d := d.code, a := a.code, b := n.code, c := optCode PReg.code p, ext := m.code.setWidth 16 }
  | .gred k ty op d a => some { Raw.base 0x13#8 ty.code k with d := d.code, a := a.code, ext := op.code.setWidth 16 }
  | .gscan k ty op ex d a =>
    some { Raw.base 0x14#8 ty.code k with d := d.code, a := a.code, ext := 0#12 ++ (bit ex ++ op.code) }
  | .mov k ty d a => some { Raw.base 0x20#8 ty.code k with d := d.code, a := a.code }
  | .movi k ty d i => some { (Raw.base 0x21#8 ty.code k).withImm i with d := d.code }
  | .iadd k ty d a b => some { Raw.base 0x22#8 ty.code k with d := d.code, a := a.code, b := b.code }
  | .isub k ty d a b => some { Raw.base 0x23#8 ty.code k with d := d.code, a := a.code, b := b.code }
  | .imul k ty d a b => some { Raw.base 0x24#8 ty.code k with d := d.code, a := a.code, b := b.code }
  | .imulh k ty d a b => some { Raw.base 0x25#8 ty.code k with d := d.code, a := a.code, b := b.code }
  | .imad k ty d a b x => some { Raw.base 0x26#8 ty.code k with d := d.code, a := a.code, b := b.code, c := x.code }
  | .imadw k ty d a b x => some { Raw.base 0x27#8 ty.code k with d := d.code, a := a.code, b := b.code, c := x.code }
  | .imin k ty d a b => some { Raw.base 0x28#8 ty.code k with d := d.code, a := a.code, b := b.code }
  | .imax k ty d a b => some { Raw.base 0x29#8 ty.code k with d := d.code, a := a.code, b := b.code }
  | .iabs k ty d a => some { Raw.base 0x2A#8 ty.code k with d := d.code, a := a.code }
  | .and k ty d a b => some { Raw.base 0x2B#8 ty.code k with d := d.code, a := a.code, b := b.code }
  | .or k ty d a b => some { Raw.base 0x2C#8 ty.code k with d := d.code, a := a.code, b := b.code }
  | .xor k ty d a b => some { Raw.base 0x2D#8 ty.code k with d := d.code, a := a.code, b := b.code }
  | .not k ty d a => some { Raw.base 0x2E#8 ty.code k with d := d.code, a := a.code }
  | .shl k ty d a b => some { Raw.base 0x2F#8 ty.code k with d := d.code, a := a.code, b := b.code }
  | .shr k ty d a b => some { Raw.base 0x30#8 ty.code k with d := d.code, a := a.code, b := b.code }
  | .sar k ty d a b => some { Raw.base 0x31#8 ty.code k with d := d.code, a := a.code, b := b.code }
  | .rot k ty d a b => some { Raw.base 0x32#8 ty.code k with d := d.code, a := a.code, b := b.code }
  | .bfx k ty d a b x => some { Raw.base 0x33#8 ty.code k with d := d.code, a := a.code, b := b.code, c := x.code }
  | .bfi k ty d a b p l =>
    some { Raw.base 0x34#8 ty.code k with d := d.code, a := a.code, b := b.code, c := p.code, e := l.code }
  | .popc k ty d a => some { Raw.base 0x35#8 ty.code k with d := d.code, a := a.code }
  | .clz k ty d a => some { Raw.base 0x36#8 ty.code k with d := d.code, a := a.code }
  | .brev k ty d a => some { Raw.base 0x37#8 ty.code k with d := d.code, a := a.code }
  | .iset k ty q d a b =>
    some { Raw.base 0x38#8 ty.code k with d := d.code, a := a.code, b := b.code, ext := q.code.setWidth 16 }
  | .sel k ty d a b q => some { Raw.base 0x39#8 ty.code k with d := d.code, a := a.code, b := b.code, c := q.code }
  | .lea k nx sh d m i =>
    some { Raw.base 0x3A#8 0#4 k with d := d.code, a := m.code, b := i.code, ext := 0#12 ++ (bit nx ++ sh) }
  | .idiv k ty rm d a b =>
    some { Raw.base 0x3B#8 ty.code k with d := d.code, a := a.code, b := b.code, ext := 0#15 ++ bit rm }
  | .pset k op d a b =>
    some { Raw.base 0x3C#8 0#4 k with d := d.code, a := a.code, b := b.code, ext := op.code.setWidth 16 }
  | .lbind k n => some { Raw.base 0x40#8 0#4 k with ext := n.code.setWidth 16 }
  | .lfree k => some (Raw.base 0x41#8 0#4 k)
  | .ladc k d a b i o =>
    some { Raw.base 0x42#8 1#4 k with d := d.code, a := a.code, b := b.code, c := optCode PReg.code i, e := optCode PReg.code o }
  | .lsbb k d a b i o =>
    some { Raw.base 0x43#8 1#4 k with d := d.code, a := a.code, b := b.code, c := optCode PReg.code i, e := optCode PReg.code o }
  | .lshl k d a n o =>
    some { Raw.base 0x44#8 1#4 k with d := d.code, a := a.code, b := n.code, e := optCode PReg.code o }
  | .lshr k d a n o =>
    some { Raw.base 0x45#8 1#4 k with d := d.code, a := a.code, b := n.code, e := optCode PReg.code o }
  | .lmulw k d a wd hi x =>
    some { Raw.base 0x46#8 1#4 k with d := d.code, a := a.code, b := wd.code, e := hi.code, ext := x.setWidth 16 }
  | .lmac k d a wd acc hi x =>
    some { Raw.base 0x47#8 1#4 k with d := d.code, a := a.code, b := wd.code, c := acc.code, e := hi.code, ext := x.setWidth 16 }
  | .lcmp k q d a b =>
    some { Raw.base 0x48#8 1#4 k with d := d.code, a := a.code, b := b.code, ext := q.code.setWidth 16 }
  | .fadd k ty r d a b => some { Raw.base 0x50#8 ty.code k with d := d.code, a := a.code, b := b.code, ext := r.ext }
  | .fsub k ty r d a b => some { Raw.base 0x51#8 ty.code k with d := d.code, a := a.code, b := b.code, ext := r.ext }
  | .fmul k ty r d a b => some { Raw.base 0x52#8 ty.code k with d := d.code, a := a.code, b := b.code, ext := r.ext }
  | .ffma k ty r d a b x =>
    some { Raw.base 0x53#8 ty.code k with d := d.code, a := a.code, b := b.code, c := x.code, ext := r.ext }
  | .fmin k ty d a b => some { Raw.base 0x54#8 ty.code k with d := d.code, a := a.code, b := b.code }
  | .fmax k ty d a b => some { Raw.base 0x55#8 ty.code k with d := d.code, a := a.code, b := b.code }
  | .fabs k ty d a => some { Raw.base 0x56#8 ty.code k with d := d.code, a := a.code }
  | .fneg k ty d a => some { Raw.base 0x57#8 ty.code k with d := d.code, a := a.code }
  | .fset k ty q u d a b =>
    some { Raw.base 0x58#8 ty.code k with d := d.code, a := a.code, b := b.code, ext := 0#12 ++ (bit u ++ q.code) }
  | .fclass k ty d a m => some { Raw.base 0x59#8 ty.code k with d := d.code, a := a.code, ext := m.setWidth 16 }
  | .frcp k r d a => some { Raw.base 0x5A#8 13#4 k with d := d.code, a := a.code, ext := r.ext }
  | .fsqrt k r d a => some { Raw.base 0x5C#8 13#4 k with d := d.code, a := a.code, ext := r.ext }
  | .frsq k d a => some { Raw.base 0x5B#8 13#4 k with d := d.code, a := a.code }
  | .fexp2 k d a => some { Raw.base 0x5D#8 13#4 k with d := d.code, a := a.code }
  | .flog2 k d a => some { Raw.base 0x5E#8 13#4 k with d := d.code, a := a.code }
  | .fsin k d a => some { Raw.base 0x5F#8 13#4 k with d := d.code, a := a.code }
  | .fcos k d a => some { Raw.base 0x60#8 13#4 k with d := d.code, a := a.code }
  | .fcvt k dt st r d a x =>
    some { Raw.base 0x61#8 dt.code k with d := d.code, a := a.code, b := x.code, ext := 0#9 ++ (r.code ++ st.code) }
  | .frnd k ty r d a => some { Raw.base 0x62#8 ty.code k with d := d.code, a := a.code, ext := r.ext }
  | .fscale k ty r d a b =>
    some { Raw.base 0x63#8 ty.code k with d := d.code, a := a.code, b := b.code, ext := r.ext }
  | .fdot2 k ty r d a b x =>
    some { Raw.base 0x64#8 ty.code k with d := d.code, a := a.code, b := b.code, c := x.code, ext := r.ext }
  | .chld k f s m n =>
    some { Raw.base 0x70#8 0#4 k with d := f.code, a := s.code, b := m.code, c := n.code, ext := n.ext }
  | .chst k s f => some { Raw.base 0x71#8 0#4 k with a := s.code, b := f.code }
  | .chdom k d f => some { Raw.base 0x72#8 0#4 k with d := d.code, a := f.code }
  | .chadd k x f g h =>
    some { Raw.base 0x73#8 0#4 k with d := f.code, a := g.code, b := h.code, ext := 0#15 ++ bit x }
  | .chmul k f g h => some { Raw.base 0x74#8 0#4 k with d := f.code, a := g.code, b := h.code }
  | .chcomp k f g h => some { Raw.base 0x75#8 0#4 k with d := f.code, a := g.code, b := h.code }
  | .chint k f g => some { Raw.base 0x76#8 0#4 k with d := f.code, a := g.code }
  | .chder k f g => some { Raw.base 0x77#8 0#4 k with d := f.code, a := g.code }
  | .chroot k v s f => some { Raw.base 0x78#8 0#4 k with d := v.code, a := f.code, e := s.code }
  | .cheval k d f x p =>
    some { Raw.base 0x79#8 0#4 k with d := d.code, a := f.code, b := x.code, e := optCode PReg.code p }
  | .chtrunc k f g n => some { Raw.base 0x7A#8 0#4 k with d := f.code, a := g.code, b := n.code, ext := n.ext }
  | .chlen k d f => some { Raw.base 0x7B#8 0#4 k with d := d.code, a := f.code }
  | .ldg k h ty d m => some { (Raw.base 0x80#8 ty.code k).withAddr m with d := d.code, hint := h.code }
  | .ldx k h ty d m => some { (Raw.base 0x82#8 ty.code k).withAddr m with d := d.code, hint := h.code }
  | .ldw k h ty d m => some { (Raw.base 0x84#8 ty.code k).withAddr m with d := d.code, hint := h.code }
  | .stg k h ty m v => some { (Raw.base 0x81#8 ty.code k).withAddr m with c := v.code, hint := h.code }
  | .stx k h ty m v => some { (Raw.base 0x83#8 ty.code k).withAddr m with c := v.code, hint := h.code }
  | .pref k h m => some { (Raw.base 0x85#8 0#4 k).withAddr m with hint := h.code }
  | .linv k h m => some { (Raw.base 0x86#8 0#4 k).withAddr m with hint := h.code }
  | .linvAll k h => some { Raw.base 0x86#8 1#4 k with e := 0#9, hint := h.code }
  | .fence k h x s => some { Raw.base 0x87#8 x.code k with hint := h.code, ext := s.code.setWidth 16 }
  | .cst k h ty d m v => some { Raw.base 0x88#8 ty.code k with d := d.code, a := m.code, c := v.code, hint := h.code }
  | .mcld k h d m x o bk =>
    some { Raw.base 0x89#8 0#4 k with d := d.code, a := m.code, b := x.code, c := optCode BReg.code bk, e := o.extractLsb' 16 9, ext := o.extractLsb' 0 16, hint := h.code }
  | .atom k ty op x o d m i v =>
    some { Raw.base 0x90#8 ty.code k with d := d.code, a := m.code, b := i.code, c := v.code, ext := atomExt x o op.code }
  | .acas k ty x o d m i n v =>
    some { Raw.base 0x91#8 ty.code k with d := d.code, a := m.code, b := i.code, c := n.code, e := v.code, ext := atomExt x o 0#3 }
  | .red k ty op x o m i v =>
    some { Raw.base 0x92#8 ty.code k with a := m.code, b := i.code, c := v.code, ext := atomExt x o op.code }
  | .signal k op m v => some { Raw.base 0x93#8 0#4 k with a := m.code, c := v.code, ext := op.code.setWidth 16 }
  | .cpy k dir h d s x bk =>
    some { Raw.base 0x98#8 0#4 k with d := h.code, a := d.code, b := s.code, c := x.code, e := optCode BReg.code bk, ext := dir.code.setWidth 16 }
  | .cpyt k ty h d s x bk =>
    some { Raw.base 0x99#8 ty.code k with d := h.code, a := d.code, b := s.code, c := x.code, e := optCode BReg.code bk }
  | .cpyw k ty h d s x bk =>
    some { Raw.base 0x9A#8 ty.code k with d := h.code, a := d.code, b := s.code, c := x.code, e := optCode BReg.code bk }
  | .cpywPut k h d s x =>
    some { Raw.base 0x9A#8 6#4 k with d := h.code, a := d.code, b := s.code, c := x.code, ext := 1#16 }
  | .cpys k dt st r h d s x =>
    some { Raw.base 0x9B#8 dt.code k with d := h.code, a := d.code, b := s.code, c := x.code, ext := 0#9 ++ (r.code ++ st.code) }
  | .cpyq k d h => some { Raw.base 0x9C#8 0#4 k with d := d.code, a := h.code }
  | .cpyx k h => some { Raw.base 0x9D#8 0#4 k with a := h.code }
  | .cpyxAll k => some (Raw.base 0x9D#8 1#4 k)
  | .bari k b n => some { Raw.base 0xA0#8 0#4 k with a := b.code, b := n.code, ext := n.ext }
  | .bara k sl b => some { Raw.base 0xA1#8 (slotCode sl) k with a := b.code }
  | .barw k b n => some { Raw.base 0xA2#8 0#4 k with a := b.code, b := n.code, ext := n.ext }
  | .baraw k b => some { Raw.base 0xA3#8 0#4 k with a := b.code }
  | .barx k sl b n => some { Raw.base 0xA4#8 (slotCode sl) k with a := b.code, b := n.code, ext := n.ext }
  | .bart k d b n => some { Raw.base 0xA5#8 0#4 k with d := d.code, a := b.code, b := n.code, ext := n.ext }
  | .barl k sl b => some { Raw.base 0xA6#8 (slotCode sl) k with a := b.code }
  | .tshp k ty t r c => some { Raw.base 0xB0#8 ty.code k with d := t.code, a := r.code, b := c.code }
  | .tld k st t s =>
    some { Raw.base 0xB1#8 0#4 k with d := t.code, a := s.code, ext := (BitVec.ofNat 3 st.val).setWidth 16 }
  | .tst k st s t =>
    some { Raw.base 0xB2#8 0#4 k with a := s.code, b := t.code, ext := (BitVec.ofNat 3 st.val).setWidth 16 }
  | .tzero k st t => some { Raw.base 0xB3#8 0#4 k with d := t.code, ext := (BitVec.ofNat 3 st.val).setWidth 16 }
  | .mma k q c a b => some { Raw.base 0xB4#8 0#4 k with d := c.code, a := a.code, b := b.code, ext := q.ext }
  | .mloop k q c a b s x =>
    some { Raw.base 0xB5#8 0#4 k with d := c.code, a := a.code, b := b.code, c := s.code, e := x.code, ext := q.ext }
  | .twait k m => some { Raw.base 0xB6#8 0#4 k with ext := m.setWidth 16 }
  | .tfence k => some (Raw.base 0xB7#8 0#4 k)
  | .tdrain k op kd st pr d t x bk =>
    some { Raw.base 0xB8#8 0#4 k with a := d.code, b := t.code, c := x.code, e := optCode BReg.code bk, ext := 0#8 ++ (kd.code ++ (op.code ++ (BitVec.ofNat 2 pr.val ++ BitVec.ofNat 3 st.val : BitVec 5))) }
  | .tcvt k ty st r d a =>
    some { Raw.base 0xB9#8 ty.code k with d := d.code, a := a.code, ext := 0#9 ++ (r.code ++ (0#1 ++ (BitVec.ofNat 3 st.val))) }
  | .tgangOn k t => some { Raw.base 0xBA#8 0#4 k with a := t.code }
  | .tgangOff k => some (Raw.base 0xBA#8 1#4 k)
  | .mwait k d c l =>
    some { Raw.base 0xC0#8 0#4 k with d := d.code, a := c.code, b := optCode SReg.code l, ext := c.ext }
  | .mnote k c => some { Raw.base 0xC1#8 0#4 k with a := c.code, ext := c.ext }
  | .mnotea k c => some { Raw.base 0xC2#8 0#4 k with a := c.code, ext := c.ext }
  | .mheld k d n => some { Raw.base 0xC3#8 0#4 k with d := d.code, ext := n.setWidth 16 }
  | .clrd k d m => some { (Raw.base 0xC4#8 0#4 k).withAddr m with d := d.code }
  | .recon k d g m x =>
    some { Raw.base 0xC8#8 0#4 k with d := d.code, a := m.code, b := x.code, ext := g.setWidth 16 }
  | .recoff k g => some { Raw.base 0xC9#8 0#4 k with ext := g.setWidth 16 }
  | .replay k g => some { Raw.base 0xCA#8 0#4 k with ext := g.setWidth 16 }
  | .rerec k g => some { Raw.base 0xCB#8 0#4 k with ext := g.setWidth 16 }
  | .recq k d g s => some { Raw.base 0xCC#8 0#4 k with d := d.code, ext := 0#9 ++ (s ++ g) }
  | .qpush k p q s => some { Raw.base 0xD0#8 0#4 k with d := p.code, a := q.code, b := s.code }
  | .qpop k t p q s => some { Raw.base 0xD1#8 0#4 k with d := p.code, a := q.code, b := s.code, ext := 0#15 ++ bit t }
  | .qstat k d q s => some { Raw.base 0xD2#8 0#4 k with d := d.code, a := q.code, ext := 0#15 ++ bit s }
  | .launch k p q l => some { Raw.base 0xD3#8 0#4 k with d := p.code, a := q.code, b := l.code }
  | _ => none

/-- The word of an instruction (R35). -/
def encode (i : Instr) : Option InstrWord := i.toRaw.map Raw.toWord

/-- The row is one of the 147 with a word. -/
def Instr.hasWord (i : Instr) : Bool := i.toRaw.isSome

end Sys2Proof
end

