-- ==== Sys2Proof/Config.lean ====
section
/-! DEFINITION. What the device fixes for every run, and the free values: the constants with no body stand for
what the spec leaves open, so nothing can be proved of them. -/

namespace Sys2Proof.Config

/-- ε, the largest difference of a core's `now` from the common time (R4). -/
def epsilon : Nat := 3
/-- LEASE_DEF, LEASE_SHORT and LEASE_LONG in ticks (R93). -/
def leaseDef : Nat := 2048
def leaseShort : Nat := 256
def leaseLong : Nat := 16384
/-- The L1 TLB of a core, the TLB of a cluster, a die's walk cache, walks in progress, walks queued (R79, R80). -/
def tlbCore : Nat := 256
def tlbCluster : Nat := 4096
def walkCache : Nat := 512
def walkers : Nat := 64
def walkQueue : Nat := 1024
/-- Entries of a coalescing buffer (R103). -/
def bufferEntries : Nat := 32
/-- Ways of a slice set, of a gateway set (R90, R98). -/
def sliceWays : Nat := 16
/-- Miss entries of a slice, renewals of a gateway cache (R143). -/
def missEntries : Nat := 64
/-- Multicast entries of a join point, members of an entry (R144). -/
def mcastEntries : Nat := 32
def mcastMembers : Nat := 64
/-- Recorder entries of a slice, its push queue, a core's landing buffer (R157, R162, R163). -/
def recorderEntries : Nat := 16384
def pushQueue : Nat := 64
def landing : Nat := 16
/-- Copy command slots of a core, units in flight of one engine (R218). -/
def copySlots : Nat := 32
def unitsInFlight : Nat := 64
/-- Reservation table entries of a matrix engine, granules of its tile file (R292, R293). -/
def tableEntries : Nat := 32
def tileGranules : Nat := 1024
/-- Grant cache entries of a core, colours a thread may hold (R346, R350). -/
def grantCache : Nat := 64
def heldColours : Nat := 8
/-- Hardware slots of a monitor for its waiters (R344). -/
def monitorSlots : Nat := 8
/-- Frames a thread holds in hardware (R381). -/
def hwFrames : Nat := 64
/-- Barriers of a core, lanes of a core, groups of a lane, words of a lane's register file (R176, R185, R232). -/
def barriersPerCore : Nat := 96
def lanesPerCore : Nat := 64
def groupsPerLane : Nat := 4
def laneWords : Nat := 4096
/-- Records of a log, entries of a fault buffer (R413, R436). -/
def logRecords : Nat := 4096
def faultBuffer : Nat := 64
/-- Ticks a dying handler may run (R414). -/
def dyingTicks : Nat := 1048576
/-- Records and launch records a die's pending store holds (R402). -/
def pendingRecords : Nat := 4096
def pendingLaunches : Nat := 64
/-- Weight of a root launch, and the weight that ends a phase (R400). -/
def rootWeight : Nat := 2 ^ 62
def phaseWeight : Nat := 2 ^ 63
/-- WDOG_TICKS and REC_DEPART of a context that selects the default (R167, R424). -/
def wdogDefault : Nat := 2 ^ 30
def recDepartDefault : Nat := 1024
/-- Victim tags of a core, and the cycles of a score window (R407). -/
def victimTags : Nat := 1024
def scoreCycles : Nat := 4096
/-- CHB_TOL at launch, 2^-24 (R277). -/
def chbTol : Word32 := 0x33800000#32
/-- What a byte that nothing has written reads as. DESIGN CHOICE (log 1): the spec gives HBM4E, the CXL tier and
host memory no reset contents; scratchpad, pools, tiles and the weight store read zero by R179, R304 and R456. -/
def blankByte : Byte := 0#8

/-- The free value of R8: any bits for a vector or uniform register read or written as undefined, one for every
number of `State.fresh` and every place it is used. -/
opaque freeBits : Nat → Word64
/-- The free value of a byte left undefined: an overlapping copy (R224), a tile register in a race (R297). -/
opaque freeByte : Nat → Byte
/-- The bank and row of a line's upper index bits in its stack, under firmware's row map (R63): it changes latency only. -/
opaque rowMap : Nat → Nat
/-- Units of request and response class that a port grants to the other end (R444): not given. -/
opaque portCredits : Nat × Nat
/-- Peer p's port in firmware's peer table, if it has one (R442), and the size in GiB of the memory on a downstream port
(R441), at most 8 TiB, 0 where there is none: what is installed is not the spec's. -/
opaque peerPort : Nat → Option (Fin 16)
opaque cxlSize : Nat → Fin 8193
/-- The firmware carve-out: flat first byte and length of each range (R73). -/
opaque carveOut : List (Nat × Nat)
/-- Whether a boot step has an alternate path (R456). -/
opaque hasAlternate : Nat → Bool
/-- Spare HBM4E rows and reserve channels of a die's stack, and reserve gateway lanes of a die, as fitted (R453). -/
opaque spareRows : Nat → Nat → Nat
opaque spareChannels : Nat → Nat → Nat
opaque spareGatewayLanes : Nat → Nat → Nat
/-- The page of place 000 that holds the inventory record: the spec does not say which one it is (R457; log 46). -/
opaque inventoryPage : Fin (2 ^ 23)
/-- Counts of corrected errors above which a unit is replaced; the spec gives no thresholds (R457). -/
opaque bullpenThreshold : Nat → Nat
/-- Whether a firmware image's signature verifies against the fused key (R447): the key is not in the spec. An image is
the bytes of its bank. -/
opaque signatureValid : List (Nat × Byte) → Bool
/-- The security version an image carries, and the fused minimum (R447): the image format is not in the spec. -/
opaque securityVersion : List (Nat × Byte) → Nat
opaque fusedMinimum : Nat
/-- Whether a new image passes its self-test (R448). -/
opaque selfTest : List (Nat × Byte) → Bool
/-- The SHA3-256 measurement of an image and the signature over an answer (R447): key and encoding are not given. -/
opaque measurement : List (Nat × Byte) → BitVec 256
opaque spdmAnswer : List (BitVec 256) → List Byte → List Byte
/-- Bytes of the Dugout records of every block that a context with so many threads may save (R439): the launches that it
will make are not known at its creation, and the spec gives no sum. What a group saves with its share of its block is far
below 32 MiB, so a thread accounts for at most 1 MiB of them; no thread, no record. -/
opaque dugoutNeed (thr : Nat) : Fin (thr * 2 ^ 20 + 1)
/-- Sensor readings of schema 0x0001 (R451), by the number of samples taken so far. -/
opaque sensors : Nat → List Byte
/-- Larrin's IANA enterprise number (R450). -/
opaque enterpriseNumber : BitVec 32

end Sys2Proof.Config
end

