-- ==== Sys2Proof/Machine/Table.lean ====
section
/-! DEFINITION. Association lists: tables of units and objects by key, with no key twice. -/

namespace Sys2Proof.Machine

/-- The value at a key. -/
def tblGet {κ α : Type} [DecidableEq κ] : List (κ × α) → κ → Option α
  | [], _ => none
  | (k', v) :: r, k => if k' = k then some v else tblGet r k

/-- The value at a key of a table in which an absent key has a default. -/
def tblGetD {κ α : Type} [DecidableEq κ] (t : List (κ × α)) (k : κ) (d : α) : α := (tblGet t k).getD d

/-- Put a value at a key: in its place if the key is there, else at the end. -/
def tblPut {κ α : Type} [DecidableEq κ] : List (κ × α) → κ → α → List (κ × α)
  | [], k, v => [(k, v)]
  | (k', v') :: r, k, v => if k' = k then (k, v) :: r else (k', v') :: tblPut r k v

/-- Remove a key. -/
def tblDel {κ α : Type} [DecidableEq κ] (t : List (κ × α)) (k : κ) : List (κ × α) :=
  t.filter (fun x => decide (x.1 ≠ k))

/-- Change the value at a key, if it is there. -/
def tblMod {κ α : Type} [DecidableEq κ] (t : List (κ × α)) (k : κ) (f : α → α) : List (κ × α) :=
  t.map (fun x => if x.1 = k then (x.1, f x.2) else x)

/-- Insert before the first element that is not below. -/
def insertBy {α : Type} (le : α → α → Bool) (x : α) : List α → List α
  | [] => [x]
  | y :: r => if le x y then x :: y :: r else y :: insertBy le x r

/-- Insertion sort: structural, so that the kernel can run it. -/
def sortBy {α : Type} (le : α → α → Bool) (l : List α) : List α := l.foldr (insertBy le) []

/-- The first of a list of numbers that satisfies a test, from `lo`, at most `n` of them. -/
def firstFrom (p : Nat → Bool) (lo : Nat) : Nat → Option Nat
  | 0 => none
  | n + 1 => if p lo then some lo else firstFrom p (lo + 1) n

/-- The bits set in a mask, ascending: the threads of ACTIVE in the order of R10. -/
def maskTids (m : Mask) : List Tid := (List.finRange 32).filter (fun t => m.getLsbD t.val)

/-- The mask of the threads that satisfy a test. -/
def maskOf (p : Tid → Bool) : Mask :=
  (List.finRange 32).foldl (fun m t => if p t then m ||| (1#32 <<< t.val) else m) 0#32

/-- One thread's mask. -/
def bitOf (t : Tid) : Mask := 1#32 <<< t.val

end Sys2Proof.Machine
end

