-- ==== Sys2Proof/Machine/Memory.lean ====
section
/-! DEFINITION. Bytes behind the homes: HBM4E of four dies, the CXL tier, host memory, the weight stores, the cores'
SRAM and the tile files, one list of cells in canonical form (addresses rising, no cell that holds what an unlisted
address reads as). Little-endian throughout (R5). -/

namespace Sys2Proof.Machine

abbrev Memory := List Host.Cell

/-- What a byte that no cell lists reads as (log 1). -/
def blank : Byte := Config.blankByte

/-- The canonical form, above a bound on the next address. -/
def wfFrom (lo : Nat) : Memory → Bool
  | [] => true
  | (a, b) :: r => decide (lo ≤ a) && b != blank && wfFrom (a + 1) r

def Memory.wf (m : Memory) : Bool := wfFrom 0 m

def Memory.read (m : Memory) (a : Nat) : Byte :=
  match m with
  | [] => blank
  | (a', b) :: r => if a = a' then b else if a < a' then blank else Memory.read r a

def Memory.write (m : Memory) (a : Nat) (b : Byte) : Memory :=
  match m with
  | [] => if b = blank then [] else [(a, b)]
  | (a', b') :: r =>
    if a < a' then (if b = blank then (a', b') :: r else (a, b) :: (a', b') :: r)
    else if a = a' then (if b = blank then r else (a, b) :: r)
    else (a', b') :: Memory.write r a b

/-- `n` bytes from `a`, the byte at `a` in the low bits. -/
def Memory.readN (m : Memory) (a : Nat) : Nat → List Byte
  | 0 => []
  | n + 1 => m.read a :: Memory.readN m (a + 1) n

def Memory.writeL (m : Memory) (a : Nat) : List Byte → Memory
  | [] => m
  | b :: r => Memory.writeL (m.write a b) (a + 1) r

/-- The number that little-endian bytes stand for, and `n` bytes of a number (R5). -/
def leNat : List Byte → Nat
  | [] => 0
  | b :: r => b.toNat + 256 * leNat r

def leBytes : Nat → Nat → List Byte
  | 0, _ => []
  | n + 1, x => BitVec.ofNat 8 x :: leBytes n (x / 256)

def leBits (w : Nat) (bs : List Byte) : BitVec w := BitVec.ofNat w (leNat bs)

/-! ## Where each store's bytes lie in the list. The numbers are the model's own (log 2): the spec gives each store
its own addresses and no common numbering. -/

/-- A line of main memory is named by its first byte's place divided by 128. -/
abbrev LineNo := Nat

/-- HBM4E byte `off` of die `d` (64 GiB × 2 per die: 2^37). -/
def hbmKey (d off : Nat) : Nat := d * 2 ^ 37 + off
/-- CXL byte at physical address `pa`. -/
def cxlKey (pa : Nat) : Nat := 2 ^ 44 + pa
/-- Host memory byte at physical address `pa` (place 110). -/
def hostKey (pa : Nat) : Nat := 2 ^ 54 + pa
/-- Byte `a` of a die's weight store. -/
def weightKey (d a : Nat) : Nat := 2 ^ 58 + d * 2 ^ 30 + a
/-- Byte of core `c`'s SRAM: granule `g` lies in way 15 − g div 8 (R176). -/
def sramKey (c g off : Nat) : Nat := 2 ^ 59 + c * 2 ^ 19 + (15 - g / 8) * 32768 + (g % 8) * 4096 + off
/-- Byte of engine `e`'s tile file (4 MiB). -/
def tileKey (e off : Nat) : Nat := 2 ^ 60 + e * 2 ^ 22 + off

end Sys2Proof.Machine
end

