-- ==== Sys2Proof/Machine/Group.lean ====
section
/-! DEFINITION. The plain data of threads, groups and blocks (11, 13, 17, 18, 19, 20). -/

namespace Sys2Proof.Machine

/-- The fault codes of R409. -/
inductive FaultCode where
  | pageNotPresent | pagePermRead | pagePermWrite | pagePermExec | misaligned | scratchRange | deferredWrite
  | hostAtomicRefused | weightStoreWrite | colourOrder | colourOverflow | mwaitHeld | divergeBound | limbShape
  | domainMismatch | chbPool | tileShape | tileAlloc | barrierOverflow | frameOverflow | trapNested | peerGone
  | queueClosed | eccUncorrectable | watchdog | softwareTrap | breakpoint | colourSpan
  deriving DecidableEq, Repr

/-- R409. -/
def FaultCode.byte : FaultCode → Byte
  | .pageNotPresent => 0x01#8 | .pagePermRead => 0x02#8 | .pagePermWrite => 0x03#8 | .pagePermExec => 0x04#8
  | .misaligned => 0x05#8 | .scratchRange => 0x06#8 | .deferredWrite => 0x07#8 | .hostAtomicRefused => 0x08#8
  | .weightStoreWrite => 0x09#8 | .colourOrder => 0x0A#8 | .colourOverflow => 0x0B#8 | .mwaitHeld => 0x0C#8
  | .divergeBound => 0x0D#8 | .limbShape => 0x0E#8 | .domainMismatch => 0x0F#8 | .chbPool => 0x10#8
  | .tileShape => 0x11#8 | .tileAlloc => 0x12#8 | .barrierOverflow => 0x13#8 | .frameOverflow => 0x14#8
  | .trapNested => 0x15#8 | .peerGone => 0x16#8 | .queueClosed => 0x17#8 | .eccUncorrectable => 0x18#8
  | .watchdog => 0x19#8 | .softwareTrap => 0x1A#8 | .breakpoint => 0x1B#8 | .colourSpan => 0x1C#8

/-- Replayable, handled or fatal (R409). -/
inductive FaultKind where
  | fatal | replayable | handled | discardedMember
  deriving DecidableEq, Repr

def FaultCode.kind : FaultCode → FaultKind
  | .pageNotPresent => .replayable
  | .softwareTrap | .breakpoint => .handled
  | _ => .fatal

/-- A fault as it is raised (R410): what a fault record holds beyond its group. `fb` is the fault-buffer entry of a
DEFERRED_WRITE. -/
structure FaultInfo where
  code : FaultCode
  reason : Byte := 0#8
  mask : Mask := 0#32
  addr : Word64 := 0#64
  pc : Word64 := 0#64
  fb : Option Nat := none
  deriving DecidableEq, Repr

/-- A frame record of R381. -/
structure Frame where
  ret : Word64
  depth : Nat
  deriving DecidableEq, Repr

/-- A held-set entry (R346, R433); `owner` is the thread that the monitor names for it (R349). -/
structure Held where
  colour : Nat
  frame : Nat
  handler : Bool
  hzc : Nat
  owner : Tid
  deriving DecidableEq, Repr

/-- What a parked thread waits for (R383, R432). -/
inductive Wait where
  | barrier (slot bar : Nat) (phase : Bool)
  | colour (c : Nat)
  | mwait (c : Nat) (pd : Option PReg) (frame : Nat) (handler : Bool)
  | sleep (wk : Option PReg)
  | qpop (q : Nat) (sa : Word64) (ok : Option PReg)
  | tretJoin
  /-- Released, and waiting for the other threads of its bound set (R252). -/
  | set
  deriving DecidableEq, Repr

/-- `shelved`: released while its group is in a handler, and standing in the trap slots (R417). -/
inductive ThreadStatus where
  | running | exited | shelved
  | parked (w : Wait)
  deriving DecidableEq, Repr

/-- A thread (R231, R250, R346, R367, R417). -/
structure Thread where
  v : Vector Word32 128
  p : BitVec 16
  pc : Word64
  status : ThreadStatus
  /-- Deadline of a SLEEP or MWAIT. -/
  deadline : Option Nat
  /-- When the present wait began (R425). -/
  since : Nat
  /-- Hardware frames, newest first, at most 64 (R381). -/
  frames : List Frame
  fdep : Nat
  /-- Frame depth at trap entry (R417). -/
  tdep : Nat
  wakePending : Bool
  held : List Held
  lbk : Nat
  lix : Nat
  /-- The binding suspended by a trap entry (R257). -/
  savedLbk : Nat
  savedLix : Nat
  /-- In the handler: it was in the frontier at trap entry (R417, R421). -/
  inTrap : Bool
  deriving DecidableEq, Repr

/-- A thread at launch (R399). -/
def Thread.launched (pc : Word64) : Thread where
  v := Vector.replicate 128 0#32
  p := 0x8000#16
  pc := pc
  status := .running
  deadline := none
  since := 0
  frames := []
  fdep := 0
  tdep := 0
  wakePending := false
  held := []
  lbk := 0
  lix := 0
  savedLbk := 0
  savedLix := 0
  inTrap := false

/-- A function register (R273). -/
structure FuncReg where
  a : Word32
  b : Word32
  base : Nat
  n : Nat
  deriving DecidableEq, Repr

def FuncReg.empty : FuncReg := ⟨0#32, 0#32, 0, 0⟩

/-- Horizons of one group: HZ or OB, one time per scope (R107, R125). -/
structure Horizons where
  core : Nat := 0
  clus : Nat := 0
  die : Nat := 0
  dev : Nat := 0
  deriving DecidableEq, Repr

/-- Fold times in: the larger of each (R107). -/
def Horizons.fold (h k : Horizons) : Horizons :=
  ⟨max h.core k.core, max h.clus k.clus, max h.die k.die, max h.dev k.dev⟩

/-- The time at a scope; system scope uses the device horizon (R127). -/
def Horizons.at (h : Horizons) : Scope → Nat
  | .core => h.core
  | .clus => h.clus
  | .die => h.die
  | .dev | .sys => h.dev

/-- A register that an instruction writes or reads, for one thread or for the group (R50). -/
inductive RegRef where
  | v (t : Tid) (n : VReg)
  | p (t : Tid) (n : PReg)
  | s (n : SReg)
  deriving DecidableEq, Repr

/-- The counter classes (R49); `none` for an operation that no counter counts (a prefetch, a spill). -/
inductive OpClass where
  | ld | st | cp | tl | none
  deriving DecidableEq, Repr

/-- What an operation does, where a rule asks: an STX or LDX orders barrier arrivals (R190), an STG is excepted in a
core-scope release (R127), a fill brings frames back (R382). -/
inductive OpKind where
  | global | scratch | stg | other | fill
  deriving DecidableEq, Repr

/-- What a part of an operation brings its thread (none: the group): a value for `dst`, or why there is none. -/
structure Arrival where
  who : Option Tid
  va : Word64
  dst : Dst
  ty : Ty
  x : BitVec 128
  bad : Option (FaultCode × Byte)
  deriving DecidableEq, Repr

/-- An operation a group has issued and that is still outstanding (R49, R127). -/
structure Op where
  id : Nat
  cls : OpClass
  kind : OpKind
  /-- The issuing instruction and its ACTIVE set (R410). -/
  pc : Word64
  act : Mask
  /-- Parts that have not finished. -/
  parts : Nat
  /-- Destinations not yet final, and those written meanwhile (R50). -/
  dests : List RegRef
  clobbered : List RegRef
  /-- A part whose response or completion left the device (R135). -/
  ext : Bool
  /-- Threads whose write to a coloured line this operation makes, other than by a store (R352). -/
  cols : List (Tid × Nat)
  /-- What has arrived: it takes effect when the last part has (R253). -/
  arrivals : List Arrival := []
  deriving DecidableEq, Repr

/-- An observation waiting for its times (R124, R125). -/
inductive Pending where
  /-- From a gateway's pending bytes: the forward's number, until W_dev has returned. -/
  | gateway (die line fwd : Nat)
  /-- From a coalescing-buffer entry of another group: the core, the entry's number. -/
  | entry (core entry : Nat)
  deriving DecidableEq, Repr

/-- What releases colours (R352, R357). -/
inductive RelOp where
  | ret | exit | tret
  | mwait (d : Option PReg) (dl : Nat)
  deriving DecidableEq, Repr

/-- A thread's way out of a RET: its target, and a frame filled from memory (R379, R381). -/
structure RetTo where
  t : Tid
  pc : Word64
  fill : Option Frame
  deriving DecidableEq, Repr

/-- What a fence waits for (R127): the earlier operations, and the time once it is read. `since` is the number that the
next operation had at its start: it covers the operations below, and what they observed. -/
structure FenceWait where
  kind : FenceKind
  scope : Scope
  since : Nat
  ops : List Nat
  target : Option Nat
  act : Mask
  deriving DecidableEq, Repr

/-- Why an entry is not ready (R371). Operations are named by their numbers. -/
inductive HoldKind where
  /-- WAIT's four limits (R385). -/
  | counters (ld st cp tl : Nat)
  | fence (f : FenceWait)
  /-- TWAIT, TFENCE and a request that an instruction waits for (R303, R310, R311): then the next slot. -/
  | ops (ids : List Nat)
  /-- The scratchpad accesses before an arrival, then the arrival (R190). -/
  | arrive (ids : List Nat) (slot : Nat) (bar : BReg) (await : Bool) (act : Mask)
  /-- The scratchpad accesses before a CHLD or CHST; then it issues (R283). -/
  | bank (ids : List Nat)
  /-- The stores before a CST to its header's line; then it issues (R338). -/
  | lines (ls : List Nat)
  /-- The fills of a RET; then it issues (R382). -/
  | filled (ids : List Nat)
  /-- The requests before a TSHP or TGANG.off; then it issues (R304, R312). -/
  | table (ids : List Nat)
  /-- Releases still to be sent by `left`, then the effect on `act` (R352). -/
  | release (op : RelOp) (act left : Mask) (ways : List RetTo)
  /-- The release before an atomic or a queue instruction; then it issues (R131, R404). -/
  | before (f : FenceWait)
  /-- The acquire after an atomic; then the next slot (R131). -/
  | after (f : FenceWait)
  /-- A region instruction until an earlier change of its context is over; then it issues (R169). -/
  | turn
  /-- A region instruction until its change has reached every point (R169). -/
  | region (change : Nat)
  /-- RECQ until every point has been sampled; then its result goes to the register (R175). -/
  | query (change : Nat) (d : Dst)
  deriving DecidableEq, Repr

/-- A hold on the threads of `mask`; `pc` is the instruction that made it (R127, R362). -/
structure Hold where
  mask : Mask
  pc : Word64
  kind : HoldKind
  deriving DecidableEq, Repr

/-- An entry of the frontier, or of the saved frontier in the trap slots (R369, R417). -/
structure FEntry where
  pc : Word64
  mask : Mask
  deriving DecidableEq, Repr

/-- A group parked on PAGE_NOT_PRESENT (R82): the entry, the address and when. Once the host has resolved it, the group's
next issue is that entry's again, with the same threads. -/
structure Parked where
  entry : FEntry
  addr : Word64
  time : Nat
  resolved : Bool
  deriving DecidableEq, Repr

/-- A resident group (R231, R369, R399, R416). -/
structure Group where
  core : Nat
  lane : Nat
  slot : Nat
  role : Nat
  budget : Nat
  threads : Vector Thread 32
  s : Vector Word64 192
  f : Vector FuncReg 16
  chbTol : Word32
  /-- The pool's coefficients and its granule base on the core (R274). -/
  pool : List Word32
  poolBase : Nat
  inHandler : Bool
  dying : Bool
  trapBase : Word64
  trapCause : Word64
  trapPc : Word64
  trapMask : Word64
  trapAddr : Word64
  /-- The saved frontier of the trap slots (R417). -/
  saved : List FEntry
  /-- A fault found after issue, waiting for the next instruction boundary (R417). -/
  pendingTrap : Option FaultInfo
  hz : Horizons
  ob : Horizons
  /-- Observations whose times are outstanding, each with the number of the operation that made it. -/
  pendObs : List (Pending × Nat)
  ops : List Op
  holds : List Hold
  /-- The holds of the entries in the trap slots. -/
  savedHolds : List Hold
  /-- Frame records that have arrived for a RET: thread, its depth, the record (R382). -/
  fills : List (Tid × Nat × BitVec 128)
  /-- Registers that hold undefined values, which every read finds anew (R8, R50). -/
  undef : List RegRef
  /-- Registers whose code has found an uncorrectable error (R411). -/
  regPoison : List RegRef
  parked : Option Parked
  /-- No issue before this tick (R45). -/
  stallUntil : Nat
  /-- The entry that YIELD passes over (R384). -/
  passOver : Option Word64
  /-- The group has issued with the yield bit, and no other of its lane has issued since (R46). -/
  mustPass : Bool
  /-- Since when its next instruction, a uniform one, has been ready (R373). -/
  waitFrom : Option Nat
  /-- The order in which the groups of a core came to it (R374, R407). -/
  resident : Nat
  /-- All threads have exited and the release of R137 has begun. -/
  leaving : Bool
  deriving DecidableEq, Repr

/-- A barrier instance (R186). -/
structure Barrier where
  pend : Int
  gen : BitVec 16
  ph : Bool
  tgt : Nat
  arr : Nat
  deriving DecidableEq, Repr

def Barrier.zero : Barrier := ⟨0, 0#16, false, 0, 0⟩

/-- A slot of the layout field (R394): groups and their budget. -/
structure RoleSlot where
  groups : Nat
  budget : Nat
  deriving DecidableEq, Repr

/-- A launch record's fields (R394). -/
structure LaunchRec where
  cbase : Word64
  wgt : Nat
  wlen : Nat
  wdst : Nat
  wsrc : Word64
  clen : Nat
  bound : Nat
  cval : Word64
  csig : Word64
  fsz : Nat
  fsb : Word64
  nrun : Nat
  serial : Bool
  root : Bool
  wpre : Bool
  gang : Bool
  co : Bool
  ceil : Nat
  floor : Nat
  psize : Nat
  chb16 : Nat
  ntile : Nat
  nbar : Nat
  scr : Nat
  /-- No role, copy, matrix, epilogue. -/
  lay : List RoleSlot
  bsz : Nat
  nblk : Nat
  param : Word64
  prun : Word64
  entry : Word64
  zeros : Bool
  deriving DecidableEq, Repr

inductive BlockStatus where
  | running
  /-- A fatal fault was accepted and the handler runs (R414): since when. -/
  | dying (since : Nat)
  /-- Termination is due to complete (R414 step 5). -/
  | terminating
  /-- Stopped for pre-emption (R426). -/
  | stopping
  deriving DecidableEq, Repr

/-- A resident block (R177, R185, R397, R400, R414). -/
structure Block where
  launch : Nat
  lr : LaunchRec
  /-- The launch record's virtual address, for the Dugout header (R428). -/
  lrAddr : Word64
  /-- Priority runs: first index and priority (R368), as read when the block was placed. -/
  runs : List (Nat × Nat)
  cores : List Nat
  /-- First granule of each slot's share. -/
  shares : List Nat
  share : Nat
  weight : Nat
  /-- The phase whose weight it holds. -/
  phase : Option Nat
  /-- Gang number and member (R397). -/
  gang : Option (Nat × Nat)
  bars : List ((Nat × Nat) × Barrier)
  status : BlockStatus
  latch : Option (Nat × FaultInfo)
  /-- Completion times of the lines its copies and drains wrote (R137). -/
  hz : Horizons
  ngroups : Nat
  /-- By group, which 32 records of the context's monitor spill area are its threads' (R345). -/
  spill : List Nat
  deriving DecidableEq, Repr

end Sys2Proof.Machine
end

