-- ==== Sys2Proof/Machine/Units.lean ====
section
/-! DEFINITION. The plain data of the memory system, the copy and matrix engines, monitors, launches, firmware and
ports (03 to 07, 10, 14, 16, 17, 19, 21). -/

namespace Sys2Proof.Machine

/-! ## Requests and their times -/

/-- A block-slot as record mode names it (R158). -/
structure BlockSlot where
  blk : Nat
  slot : Nat
  deriving DecidableEq, Repr

/-- One thread's share of a load: `n` bytes at `off` of a line, for `dst`; `who` is none for a uniform load. -/
structure LoadPart where
  g : GroupRef
  op : Nat
  who : Option Tid
  va : Word64
  off : Nat
  n : Nat
  dst : Dst
  ty : Ty
  /-- The buffer's bytes of the line at issue, which take precedence (R104). -/
  own : LineBits
  ownMask : LineBits
  deriving DecidableEq, Repr

/-- What a read was sent for: an L1's request for a line, one access of its own, a unit of the copy command with a
number in a slot (a line of an MCLD that is read alone), a multicast entry, a gateway's renewal, or only to bring the line
in (R89, R99, R105, R115, R146, R226). -/
inductive ReadFor where
  | l1 (core : Nat) (alloc : Bool)
  | direct (core : Nat) (parts : List LoadPart)
  | copy (core slot cmd unit : Nat)
  | mcast (k : Nat)
  | renew (die : Nat)
  | bring
  deriving DecidableEq, Repr

/-- A read of a line (R94, R99): `len` is the lease asked for, `bypass` a read at the home (R114), `slot` the
block-slot of a consuming read (R159). -/
structure ReadReq where
  line : LineNo
  len : Option Nat
  keep : Bool
  bypass : Bool
  core : Nat
  ctx : Nat
  slot : Option BlockSlot
  tgt : ReadFor
  deriving DecidableEq, Repr

/-- What reading some bytes of a line observes (R124): the times known, and what is still to return. -/
structure ObsShare where
  mask : LineBits
  times : Horizons
  pending : Option Pending
  deriving DecidableEq, Repr

/-- What a response says of where its bytes came from (R124). -/
abbrev ObsInfo := List ObsShare

/-- A store of bytes of a line on its way to the home (R95, R100). -/
structure StoreReq where
  line : LineNo
  data : LineBits
  mask : LineBits
  txn : Nat
  core : Nat
  ctx : Nat
  keep : Bool
  slot : Option BlockSlot
  poison : Bool
  /-- A home-only store: no lease counts against it (R105). -/
  l0 : Bool
  /-- The colour of the line. -/
  colour : Nat
  /-- The die-scope time, and the gateway's number for the forward, once it has passed a gateway. -/
  via : Option (Nat × Nat × Nat)
  deriving DecidableEq, Repr

/-- A drained entry or a direct store, until its times have returned (R103, R107). -/
structure StoreTxn where
  id : Nat
  line : LineNo
  ctx : Nat
  core : Nat
  mask : LineBits
  /-- When it entered the buffer; none for a store that never was in it (R106; log 37). -/
  coreTime : Option Nat
  ops : List (GroupRef × Nat)
  writers : List GroupRef
  threads : List ThreadRef
  colour : Nat
  deriving DecidableEq, Repr

/-- The update of one thread's atomic, of a SIGNAL or of a peer's message (R335, R339, R445). -/
inductive UpdateOp where
  | rmw (op : AOp) (ty : Ty) (x : Word64)
  | cas (ty : Ty) (new cmp : Word64)
  | signal (op : SignalOp) (x : Word64)
  /-- The element stores of a CST to one line (R338), and what a unit of a copy writes to one (R226). -/
  | put (data mask : LineBits) (keep : Bool)
  /-- A drain's elements in one line, by byte (R326, R330). -/
  | drain (op : DrainOp) (ty : Ty) (els : List (Nat × Word64))
  deriving DecidableEq, Repr

/-- Whose update it is: a thread's or a group's, a unit's of the copy command with a number in a slot, a drain's of an
engine's request. -/
inductive UpdateFor where
  | group
  | copy (core slot cmd unit : Nat)
  | drain (cluster id : Nat)
  deriving DecidableEq, Repr

structure Update where
  addr : Nat
  op : UpdateOp
  core : Nat
  ctx : Nat
  g : GroupRef
  opId : Nat
  who : Option Tid
  dst : Option Dst
  /-- The thread that holds the line's colour, and the colour. -/
  colour : Nat
  holder : Option Tid
  /-- A line of mtype 01, which no lease counts against (R105). -/
  l0 : Bool
  va : Word64
  tgt : UpdateFor := .group
  deriving DecidableEq, Repr

/-- A message from a peer (R445): the port it came by, its tag, its mtype (`kind`), and the fields it has. -/
structure PeerReq where
  port : Nat
  tag : Nat
  addr : Nat
  kind : Nat
  ty : Ty
  op : Nat
  x : Word64
  y : Word64
  mask : BitVec 128
  data : LineBits
  /-- Of a response. -/
  status : Nat
  deriving DecidableEq, Repr

/-! ## Colours (17) -/

/-- A queued requester (R345): its thread (limb 0 or the lowest of a unit), the threads parked with it, log2 of its bound
set's size, its record in the spill area, whether it stands in a hardware slot. -/
structure Waiter where
  t : ThreadRef
  unit : Mask
  lset : Nat
  dl : Nat := 0
  ntf : Bool := false
  mwait : Bool := false
  index : Nat := 0
  hw : Bool := false
  deriving DecidableEq, Repr

inductive Owner where
  | free
  | thread (w : Waiter)
  | cached (core : Nat)
  | recalled (core : Nat)
  deriving DecidableEq, Repr

/-- A monitor at its home (R344). -/
structure Monitor where
  own : Owner
  acq : List Waiter
  wset : List Waiter
  g : Nat
  deriving DecidableEq, Repr

def Monitor.fresh : Monitor := ⟨.free, [], [], 0⟩

/-- A grant-cache entry of a core (R350). -/
structure GrantEntry where
  user : Option ThreadRef
  /-- log2 of its user's bound set size. -/
  lset : Nat
  recalled : Bool
  g : Nat
  stamp : Nat
  deriving DecidableEq, Repr

/-! ## Multicast and copies (06, 10) -/

/-- A member of a multicast entry: core, command slot with the command's number there, line number within the command
(R144). -/
structure Member where
  core : Nat
  slot : Nat
  cmd : Nat
  j : Nat
  deriving DecidableEq, Repr

/-- Where a line's multicast entry is kept (R144). -/
inductive JoinPoint where
  | home | gateway (die : Nat)
  deriving DecidableEq, Repr

structure McastReq where
  at_ : JoinPoint
  line : LineNo
  ctx : Nat
  tag : Nat
  nm : Nat
  hold : Nat
  hint : Hint
  /-- A line of mtype 01: no gateway copy is used (R98). -/
  l0 : Bool
  member : Member
  deriving DecidableEq, Repr

structure McastEntry where
  req : McastReq
  /-- Its members have come, or its deadline: no request joins it any more. -/
  closed : Bool
  /-- Its read is under way to the line, or waits there for it. -/
  asked : Bool
  expect : Nat
  deadline : Nat
  members : List Member
  /-- Members counted toward E, withdrawn ones included (R150). -/
  count : Nat
  deriving DecidableEq, Repr

inductive CopyKind where
  | cpy (d : CpyDir) | cpyt (ty : Ty) | cpyw (ty : Ty) | cpys (dty sty : Ty) (r : Rnd)
  | mcld (off : BitVec 25) (h : Hint)
  deriving DecidableEq, Repr

inductive CopyState where
  | running | parked (addr : Word64) (time : Nat) | cancelling
  /-- A fault at a later page has been raised: no further unit is sent (R223). -/
  | failed
  deriving DecidableEq, Repr

/-- A leaf as a TLB holds it (R69, R79). -/
structure Leaf where
  base : Word64
  level : Nat
  pa : Nat
  place : Nat
  mtype : Nat
  colour : Nat
  cmode : Nat
  g : Bool
  rec_ : Bool
  x : Bool
  w : Bool
  r : Bool
  deriving DecidableEq, Repr

/-- A command in a slot of a core's copy engine (R218, R219, R228, R230). -/
structure CopyCmd where
  seq : Nat
  g : GroupRef
  op : Nat
  kind : CopyKind
  dst : Word64
  src : Word64
  w0 : Word64
  w1 : Word64
  bk : Option Nat
  pc : Word64
  act : Mask
  state : CopyState
  /-- Units in all (MCLD: lines), the next to be sent, those in flight with the leaves they were translated by. -/
  units : Nat
  next : Nat
  inFlight : List (Nat × List Leaf)
  /-- MCLD: lines landed, and the lines still to be asked for: number; line and whether home-only, none where it has to be
  translated again (R150). -/
  landed : List Nat
  todo : List (Nat × Option (LineNo × Bool))
  /-- Lines that have arrived, by unit, and whether they are poisoned. -/
  got : List ((Nat × LineNo) × (LineBits × Bool))
  /-- Units whose writes are on their way: how many are missing, the bytes they write. -/
  writing : List (Nat × (Nat × Nat))
  /-- Bytes written and counted. -/
  done : Nat
  hz : Horizons
  colour : Nat
  holder : Option Tid
  /-- A unit of it has gone to place 110 (R424). -/
  outside : Bool := false
  deriving DecidableEq, Repr

/-! ## Matrix engine (14) -/

/-- A tile register (R290). -/
structure TileReg where
  ty : Ty
  rows : Nat
  cols : Nat
  base : Nat
  ng : Nat
  /-- It holds undefined values, which every read finds anew (R8, R297). -/
  undef : Bool := false
  deriving DecidableEq, Repr

def TileReg.none : TileReg := ⟨.s32, 0, 0, 0, 0, false⟩

inductive ReqKind where
  | tld (td : TReg) | tst (ta : TReg) | tzero (td : TReg) | tcvt (r : Rnd) (td ta : TReg)
  | mma (tc ta tb : TReg) | mloop (tc ta tb : TReg)
  | tdrain (op : DrainOp) (kind : DrainKind) (ta : TReg) (bk : Option Nat)
  deriving DecidableEq, Repr

/-- How far a request has come: in the table, in the pass that the engine makes, or with updates still on their way. -/
inductive ReqPhase where
  | queued | granted
  | draining (left : Nat)
  deriving DecidableEq, Repr

/-- An entry of the reservation table (R293 to R297, R431). -/
structure Request where
  id : Nat
  kind : ReqKind
  /-- The instruction of the first post. -/
  word : Instr
  stream : Nat
  pri : Nat
  need : Nat
  posts : Nat
  /-- Posting groups with the operation that each post began. -/
  posters : List (GroupRef × Nat)
  first : GroupRef
  pc : Word64
  act : Mask
  /-- Operand registers at the first post: up to four words (R431). -/
  val : List Word64
  /-- The next step of an MLOOP, and its full barrier's gen at the post. -/
  step : Nat
  g0 : BitVec 16
  phase : ReqPhase
  /-- Since when it has been eligible (R295). -/
  since : Option Nat
  /-- Registers whose reads are undefined, and those that are undefined once it has completed (R297). -/
  raced : List TReg
  clash : List TReg
  /-- The gang and the number of its operation (R312). -/
  gang : Option (Nat × Nat)
  /-- TDRAIN .mem: the leaves of its lines, its colour and the thread that holds it. -/
  leaves : List Leaf
  colour : Nat
  holder : Option Tid
  deriving DecidableEq, Repr

/-- A member that has joined a gang: its accumulator, its MLOOPs posted so far, and the steps of each: in all, and
finished (R312). -/
structure GangMember where
  tc : TReg
  reg : TileReg
  posted : Nat
  ops : List (Nat × Nat × Nat)
  deriving DecidableEq, Repr

structure Gang where
  inst : Nat
  members : List (Nat × GangMember)
  deriving DecidableEq, Repr

/-! ## Caches and cores -/

/-- A line held at a home: a slice or the host agent (R90, R108, R123). -/
structure SliceLine where
  data : LineBits
  lx : Nat
  wl : Nat
  keep : Bool
  dirty : Bool
  used : Nat
  poison : Bool
  deriving DecidableEq, Repr

/-- What a slice holds back for a line: a request in a miss entry, in arrival order (R143). -/
inductive HeldReq where
  | read (r : ReadReq)
  | store (t : StoreReq)
  | update (u : Update) (fwd : Option (Nat × Nat))
  | mcast (k : Nat)
  deriving DecidableEq, Repr

/-- A miss entry: the requests it holds, and its fill where that waits for a way (R123, R143): whether it is poisoned. -/
structure Miss where
  held : List HeldReq
  fill : Option Bool
  deriving DecidableEq, Repr

/-- A forward that a gateway has sent and whose time has not returned (R101, R458): its number, its W_die, its bytes. -/
structure Forward where
  id : Nat
  wdie : Nat
  mask : LineBits
  deriving DecidableEq, Repr

/-- A line at a gateway cache (R98 to R101, R123). -/
structure GwLine where
  data : LineBits
  /-- The copy is there (its own lease decides whether it is usable). -/
  copy : Bool
  xg : Nat
  lxg : Nat
  wdev : Nat
  fwds : List Forward
  waiting : List ReadReq
  renewing : Bool
  /-- A write of R458 has passed since the renewal was sent: the data that arrives is of no use. -/
  stale : Bool
  used : Nat
  deriving DecidableEq, Repr

def GwLine.empty : GwLine := ⟨0#1024, false, 0, 0, 0, [], [], false, false, 0⟩

/-- An earlier copy of the line that a pushed one has been put beside, in use until its own lease ends (R163). -/
structure OlderCopy where
  data : LineBits
  expiry : Nat
  wl : Nat
  push : Option (Nat × Nat)
  deriving DecidableEq, Repr

/-- An L1 copy: a leased copy, or a pushed one (R94, R163). -/
structure L1Copy where
  data : LineBits
  from_ : Nat
  expiry : Nat
  wl : Nat
  /-- A pushed copy that no load has requested yet, with its region (R166). -/
  push : Option (Nat × Nat)
  colour : Nat
  used : Nat
  older : Option OlderCopy := none
  deriving DecidableEq, Repr

/-- What a load or a prefetch asks an L1 for: the load's share of the line, and the request that it would send. -/
structure L1Want where
  part : Option LoadPart
  req : ReadReq
  alloc : Bool
  colour : Nat
  deriving DecidableEq, Repr

/-- A request of an L1 for a line, and the loads that wait for it (R89). -/
structure L1Req where
  /-- Loads that the response serves, those that came after it was sent, and those that need a request of their own
  once it has come (log 16). -/
  parts : List LoadPart
  joined : List L1Want
  next : List L1Want
  /-- The use of what it brings has been ended before it came. -/
  ended : Bool
  alloc : Bool
  req : ReadReq
  /-- False while a store of the core to the line awaits its times (R104). -/
  sent : Bool
  colour : Nat
  /-- Bytes of entries drained since the request: the copy takes them (R104). -/
  drained : LineBits
  drainedMask : LineBits
  deriving DecidableEq, Repr

/-- A coalescing-buffer entry (R103). -/
structure BufEntry where
  id : Nat
  line : LineNo
  ctx : Nat
  va : Word64
  data : LineBits
  mask : LineBits
  writers : List GroupRef
  threads : List ThreadRef
  ops : List (GroupRef × Nat)
  created : Nat
  /-- When its youngest store entered. -/
  latest : Nat
  /-- Its translation's entry has been removed by a shootdown (R85). -/
  retrans : Bool
  keep : Bool
  colour : Nat
  /-- The youngest store that wrote into it: instruction and ACTIVE set (R410). -/
  lastG : GroupRef
  lastPc : Word64
  lastAct : Mask
  /-- Poisoned bytes found at the drain (R411). -/
  poison : Bool
  deriving DecidableEq, Repr

structure TlbEntry where
  ctx : Nat
  leaf : Leaf
  deriving DecidableEq, Repr

/-- A pushed line on its way into an L1 (R163). -/
structure PushMsg where
  line : LineNo
  colour : Nat
  data : LineBits
  w : Nat
  len : Nat
  ctx : Nat
  region : Nat
  consumer : BlockSlot
  core : Nat
  txn : Nat
  deriving DecidableEq, Repr

/-- A fetch of an instruction line outstanding: who asked, the line's byte in memory, how many fills have failed
(R34). -/
structure Fetch where
  g : GroupRef
  pc : Word64
  at_ : Nat
  failed : Nat
  deriving DecidableEq, Repr

/-- A core's own units. -/
structure Core where
  icache : List ((Nat × Word64) × BitVec 512)
  fetches : List ((Nat × Word64) × Fetch)
  tlb : List TlbEntry
  copies : List (LineNo × L1Copy)
  reqs : List (LineNo × L1Req)
  /-- Weight-store lines (R118). -/
  weights : List (Nat × LineBits)
  buffer : List BufEntry
  landing : List PushMsg
  grants : List ((Nat × Nat) × GrantEntry)
  slots : List (Nat × CopyCmd)
  seq : Nat
  /-- Victim tags, the running score, the last window's score (R407). -/
  victims : List LineNo
  score : Nat
  lastScore : Nat
  /-- Windows of 4,096 cycles completed. -/
  window : Nat
  enabled : Bool
  /-- By lane, the place in residency order of the group that started the last vector instruction (R374). -/
  lanes : List (Nat × (Nat × Nat))
  deriving DecidableEq, Repr

/-- A core after reset; `enabled` under R408. -/
def Core.reset : Core := ⟨[], [], [], [], [], [], [], [], [], [], 0, [], 0, 0, 0, false, []⟩

/-- A cluster's engine and TLB. -/
structure Cluster where
  tlb : List TlbEntry
  tiles : List ((BlockKey × Nat) × TileReg)
  table : List (BlockKey × Request)
  enabled : Bool
  /-- Granted entry: its identifier and when its pass began. -/
  busy : Option (Nat × Nat)
  deriving DecidableEq, Repr

def Cluster.reset : Cluster := ⟨[], [], [], false, none⟩

/-- A walk in progress or queued (R80), with the cores whose requests have joined it. -/
structure Walk where
  cores : List Nat
  ctx : Nat
  va : Word64
  deriving DecidableEq, Repr

/-- A walk-cache entry (R80): a non-leaf entry of level 1 or 2, by the first address below it, and the table it names. -/
structure WalkEntry where
  ctx : Nat
  level : Nat
  base : Word64
  place : Nat
  pfn : Nat
  deriving DecidableEq, Repr

/-- A recorder entry (R157). -/
structure RecEntry where
  conf : Bool
  region : Nat
  ctx : Nat
  line : LineNo
  prod : BlockSlot
  cons : List BlockSlot
  deriving DecidableEq, Repr

/-- A die's counters and controllers. -/
structure Die where
  cntLocal : Word64
  cntRemoteOut : Word64
  cntRemoteIn : Word64
  cntCxl : Word64
  walks : List Walk
  walkQueue : List Walk
  walkCache : List WalkEntry
  /-- EVX of each slice, and of the gateway toward each die (R91, R101). -/
  evx : List (Nat × Nat)
  gwEvx : List (Nat × Nat)
  /-- Cores and engines enabled so far, when the last step was, when the last block left (R408). -/
  coresOn : Nat
  enginesOn : Nat
  lastEnable : Nat
  lastEngine : Nat
  emptySince : Nat
  idle : Bool
  deriving DecidableEq, Repr

def Die.reset : Die := ⟨0#64, 0#64, 0#64, 0#64, [], [], [], [], [], 0, 0, 0, 0, 0, false⟩

/-! ## Contexts, queues and launches -/

/-- What a slice has counted of a region: entries dropped, pushes sent and discarded, whether one was freed with conf
(R175). -/
structure RegionCount where
  drop : Nat := 0
  pushed : Nat := 0
  discarded : Nat := 0
  conf : Bool := false
  deriving DecidableEq, Repr

/-- A record region of a context (R155, R175). A state is 0 closed, 1 recording, 2 replaying, 3 fallen back. -/
structure Region where
  /-- At the record controller. -/
  state : Nat
  /-- As each slice, gateway cache and die has acknowledged it last; one not listed: closed (R169). -/
  views : List (Nat × Nat)
  /-- The frames by place × 2^32 + PFN (R156), until every unit has acknowledged that the region is closed. -/
  frames : List Nat
  dep : Nat
  lease : Nat
  np : Nat
  gen : BitVec 16
  /-- By slice. -/
  counts : List (Nat × RegionCount)
  /-- By die (R166). -/
  departures : List Nat
  dmask : BitVec 4
  deriving DecidableEq, Repr

def Region.closed : Region := ⟨0, [], [], 0, 0, 0, 0#16, [], [0, 0, 0, 0], 0#4⟩

/-- A change of a region, or the sampling of one by RECQ, until every slice and gateway cache has acknowledged it (R169,
R175): how many have not; for a sampling what is asked for, the state word's other fields, and the sum so far. -/
structure Change where
  ctx : Nat
  region : Nat
  left : Nat
  sel : Option Nat := none
  word : Word64 := 0#64
  sum : Nat := 0
  conf : Bool := false
  deriving DecidableEq, Repr

/-- A fault record (R412). -/
structure FaultRec where
  info : FaultInfo
  kind : FaultKind
  time : Nat
  ctx : Nat
  blk : Nat
  core : Nat
  grp : Nat
  deriving DecidableEq, Repr

/-- A code-reject record (R58). -/
structure RejectRec where
  page : Word64
  ctx : Nat
  line : Nat
  slot : Nat
  reason : Byte
  detail : Byte
  deriving DecidableEq, Repr

/-- A fault-buffer entry (R413). -/
structure FbEntry where
  va : Word64
  mask : BitVec 128
  data : LineBits
  deriving DecidableEq, Repr

/-- A log: a ring of 4,096 records, and whether an older one was overwritten since the last read (R436). -/
structure Log (α : Type) where
  recs : List α
  ovf : Bool
  deriving DecidableEq, Repr

/-- A record of a queue with its weight (R400, R402). -/
structure QRec where
  bytes : List Byte
  weight : Nat
  /-- The phase whose weight it is. -/
  phase : Option Nat
  backing : Bool
  /-- When it arrived at its queue (R401). -/
  since : Nat
  deriving DecidableEq, Repr

/-- A queue: its descriptor (R393), its records and its parked poppers. -/
structure Queue where
  tmpl : Word64
  timer : Nat
  bcap : Nat
  bbase : Word64
  ncoal : Nat
  cl : Bool
  ext : Bool
  rsz : Nat
  kind : Nat
  recs : List QRec
  poppers : List (ThreadRef × Mask)
  /-- Launches accepted so far (R440). -/
  seq : Nat
  /-- The failing check that the bin's error record names, until the descriptor is replaced (R401). -/
  error : Option Nat
  deriving DecidableEq, Repr

/-- The queue a table entry without a descriptor holds: kind none. -/
def Queue.none : Queue := ⟨0#64, 0, 0, 0#64, 0, false, false, 0, 0, [], [], 0, Option.none⟩

/-- Who owns a launch's blocks (R397). -/
inductive Origin where
  | host
  | device (die : Nat)
  deriving DecidableEq, Repr

/-- An accepted launch (R158, R394 to R401). -/
structure Launch where
  ctx : Nat
  q : Option Nat
  seq : Nat
  tag : Nat
  lr : LaunchRec
  lrAddr : Word64
  runs : List (Nat × Nat)
  origin : Origin
  weight : Nat
  /-- Next block, counted within each owner die's residue (a gang counts as one). -/
  next : List Nat
  placed : Nat
  retired : Nat
  lastBlk : Nat
  preambled : Bool
  records : List (List Byte)
  phase : Option Nat
  stamp : Nat
  /-- The launch record waits in its queue's memory backing (R402). -/
  backing : Bool
  deriving DecidableEq, Repr

/-- A phase root on the I/O die (R400). -/
structure Phase where
  h : Nat
  ctx : Nat
  csig : Word64
  cval : Word64
  lastBlk : Nat
  /-- The root launch has retired. -/
  rootDone : Bool
  deriving DecidableEq, Repr

/-- A context record (R392, R439) and its logs. -/
structure Ctx where
  rootPlace : Nat
  rootPfn : Nat
  glob : Bool
  bkpt : Bool
  cmapBase : Word64
  /-- First address and length of the range on each die (R117). -/
  ws : List (Nat × Nat)
  recDepart : Word32
  wdog : Word64
  qtab : Word64
  qcount : Nat
  thr : Nat
  areaPlace : Nat
  areaPfn : Nat
  areaSize : Nat
  regions : List (Nat × Region)
  rejects : Log RejectRec
  faults : Log FaultRec
  fbuf : List (Nat × FbEntry)
  /-- When the watchdog count last stood at 0 (R424). -/
  wdogFrom : Nat
  deriving DecidableEq, Repr

/-- A saved block (R428 to R433): what its Dugout record holds. -/
structure Saved where
  block : Block
  groups : List (Nat × Group)
  tiles : List (Nat × TileReg × List Byte)
  requests : List Request
  commands : List CopyCmd
  shares : List (List Byte)
  /-- Ready to be placed again (R434). -/
  resuming : Bool
  die : Nat
  /-- First byte of its record in the Dugout area, and its size (R428). -/
  at_ : Nat
  size : Nat
  /-- Threads released while saved: group, thread, the wait it had, its ok (R432). -/
  events : List (Nat × Tid × Wait × Bool)
  /-- Blocks of the context in its cluster at the save: they resume together (R181). -/
  mates : List BlockKey
  deriving DecidableEq, Repr

/-! ## Messages in flight (R141) -/

/-- Where a scratchpad access goes (R180, R187). -/
inductive ScratchAt where
  | bytes (key : BlockKey) (slot off : Nat) (peer : Bool)
  | window (slot bar off : Nat)
  deriving DecidableEq, Repr

/-- One thread's scratchpad access (R184): `who` is none for a uniform one. -/
structure ScratchPart where
  at_ : ScratchAt
  addr : Word64
  who : Option Tid
  n : Nat
  dst : Dst
  ty : Ty
  data : BitVec 128
  deriving DecidableEq, Repr

inductive Body where
  | read (r : ReadReq) (home : Bool)
  | renewal (die : Nat) (line : LineNo) (data : LineBits) (x wl : Nat) (poison : Bool)
  | loadResp (core : Nat) (line : LineNo) (data : LineBits) (x : Option Nat) (wl : Nat) (obs : ObsInfo) (poison : Bool)
      (tgt : ReadFor)
  | scratch (g : GroupRef) (op : Nat) (load : Bool) (parts : List ScratchPart)
  | weightResp (core addr : Nat) (alloc : Bool) (parts : List LoadPart)
  | store (t : StoreReq) (home : Bool)
  | forwardReturn (die : Nat) (line : LineNo) (fwd w : Nat) (done : Option (Nat × Nat × Nat))
  | storeDone (txn : Nat) (times : Horizons)
  /-- A gateway's die-scope time of a store that it has forwarded (R100). -/
  | storeDie (txn wdie : Nat)
  | pass (u : Update)
  | update (u : Update) (fwd : Option (Nat × Nat))
  | updateDone (u : Update) (old : Word64) (w wl : Nat) (poison : Bool)
  /-- The scratchpad updates of one thread, or of the threads of a bound set (R253). -/
  | scratchUpdate (g : GroupRef) (op : Nat) (parts : List (ScratchPart × UpdateOp))
  /-- The elements of a .spad drain that have still to be applied, by byte of a slot's share; whether some have been
  (R326). -/
  | drain (key : BlockKey) (cluster id slot off : Nat) (op : DrainOp) (ty : Ty) (els : List (Nat × Word64)) (begun : Bool)
  | signal (u : Update) (ops : List Nat) (target : Option Nat)
  | host (r : ReadReq)
  | hostStore (t : StoreReq)
  | mcast (r : McastReq)
  | mcastLand (m : Member) (data : LineBits) (bad : Bool)
  | push (p : PushMsg) (gateway : Bool)
  | pushAck (p : PushMsg) (discarded : Bool)
  /-- To one unit: its new state, or, as 4, a sampling. -/
  | region (ctx region : Nat) (state : Nat) (change : Nat)
  | acquire (ctx colour : Nat) (w : Waiter)
  | recall (ctx colour core : Nat)
  | grantReturn (ctx colour core : Nat) (g : Nat)
  | grant (ctx colour : Nat) (w : Waiter) (g : Nat) (local_ : Bool)
  | monRelease (ctx colour core : Nat) (t : ThreadRef) (hzc : Nat) (wait : Option Waiter)
  | notify (ctx colour : Nat) (all : Bool)
  | peerReq (r : PeerReq)
  /-- An answer to a peer, which leaves once its time has passed (R443). -/
  | peerResp (port tag kind status : Nat) (data : LineBits) (old : Word64) (from_ : Nat)
  | refresh (core addr : Nat) (alloc : Bool) (parts : List LoadPart)
  deriving DecidableEq, Repr

/-- The class of a packet (R141), and ordering channels of agents outside the network. -/
inductive Class where
  | req | resp | time | monitor | control | peer | scratch
  deriving DecidableEq, Repr

/-- Class, source port, destination port: packets of one channel arrive in the order sent (R141). -/
structure Chan where
  cls : Class
  src : Nat
  dst : Nat
  deriving DecidableEq, Repr

/-- `own` and `seq` are the threads and the issue of a home-only access: it reaches its home behind every earlier
home-only access of the same threads (R105). -/
structure Msg where
  ch : Chan
  body : Body
  own : List ThreadRef := []
  seq : Nat := 0
  deriving DecidableEq, Repr

/-! ## Host port, peers and firmware (21) -/

/-- A mailbox (R437, R438). -/
structure Mailbox where
  cmd : Word64
  stat : Word64
  en : Bool
  pend : Bool
  args : List Word64
  res : List Word64
  /-- The command taken at the doorbell, its arguments, and its outcome once it has one. -/
  busy : Option (Word64 × List Word64)
  outcome : Option (List Word64 × Nat × Nat)
  /-- The command has taken its first step: a pre-emption has stopped its blocks. -/
  begun : Bool
  /-- The next operation number when it took it: a shootdown waits for what came before. -/
  mark : Nat
  /-- Blocks saved since the command was taken (R440). -/
  saved : Nat
  lost : Bool
  interrupts : Nat
  /-- The last access completed with Unsupported Request (R437). -/
  unsupported : Nat
  deriving DecidableEq, Repr

def Mailbox.reset : Mailbox :=
  ⟨0#64, 0#64, false, false, List.replicate 32 0#64, List.replicate 32 0#64, none, none, false, 0, 0, false, 0, 0⟩

inductive UmpireState where
  | running
  | resetting
  | switching (since : Nat)
  deriving DecidableEq, Repr

/-- A kind of reserve unit of a die (R453, R457). -/
inductive Reserve where
  | cluster | slice
  | rows (stack : Nat)
  | gatewayLane (k : Nat)
  | serukLane (port : Nat)
  deriving DecidableEq, Repr

/-- Firmware: its banks, the switch in progress, the measurements (R446 to R448, R456). -/
structure Firmware where
  started : Bool
  bankA : List Host.Cell
  bankB : List Host.Cell
  activeB : Bool
  verified : Bool
  umpire : UmpireState
  /-- Resets of the Umpire pair and of each worker core. -/
  umpireResets : Nat
  workerResets : List (Nat × Nat)
  measurements : List (BitVec 256)
  spdm : List Byte
  /-- MCTP's last response. -/
  mctp : List Byte
  /-- Corrected and uncorrected errors by unit (R452). -/
  corrected : List (Nat × Nat)
  uncorrected : List (Nat × Nat)
  /-- Counts at the start of the hourly window, units over their threshold in the last one, units marked for
  replacement, and reserve units brought in by die (4 for the I/O die) (R457). -/
  window : List (Nat × Nat)
  overOnce : List Nat
  marked : List Nat
  replaced : List ((Nat × Reserve) × Nat)
  windowStart : Nat
  samples : Nat
  /-- The boot record (R455, R456): boots, the last step that failed, alternate and skipped steps, when it ended. -/
  bootCount : Nat
  bootFailed : Option Nat
  alternate : BitVec 64
  skipped : BitVec 64
  bootTime : Nat
  /-- Installed sizes of the CXL ports in GiB (R441). -/
  cxl0 : Nat
  cxl1 : Nat
  /-- Peer table: peer p's port (R442). -/
  peers : List (Nat × Nat)
  /-- Ranges locked beyond the contexts' areas: flat first byte and length (R73). -/
  carveOut : List (Nat × Nat)
  /-- Host writes refused with a completer abort: the lines (R56). -/
  aborts : List Nat
  deriving DecidableEq, Repr

/-- A Seruk port (R443, R444). -/
structure Port where
  up : Bool
  training : Bool
  /-- Lanes in use; bit 8 is the Bullpen lane. -/
  lanes : BitVec 9
  /-- The next sequence number to be sent, and the next expected. -/
  txSeq : BitVec 12
  rxSeq : BitVec 12
  /-- The highest data flit received in order, and whether the other end has yet to be told. -/
  acked : Option (BitVec 12)
  ackDue : Bool
  /-- Sent and not acknowledged. -/
  replay : List (BitVec 12 × BitVec 2048)
  /-- Retry requests in succession without an acknowledgement. -/
  retries : Nat
  wantRetry : Bool
  discarding : Bool
  /-- Credits held at the other end, and units freed here since the last flit. -/
  crq : Nat
  crs : Nat
  freedRq : Nat
  freedRs : Nat
  /-- Units of a message that continues in a later flit. -/
  partial_ : List (BitVec 128)
  /-- Our own requests waiting for responses, by tag. -/
  outstanding : List (Nat × Msg)
  /-- Flits on the link, in the order sent. -/
  out : List (BitVec 2048)
  /-- Data flits sent, data flits retried, times down (R454). -/
  sent : Nat
  retried : Nat
  downs : Nat
  /-- The largest completion time of the peer's writes and updates (R339). -/
  lastW : Nat
  deriving DecidableEq, Repr

def Port.reset : Port :=
  ⟨false, false, 0#9, 0#12, 0#12, none, false, [], 0, false, false, 0, 0, 0, 0, [], [], [], 0, 0, 0, 0⟩

/-- How the host port completed the host's last access to device memory (R56, R136). -/
inductive HostDone where
  | data (line : LineNo) (bits : LineBits) (poison : Bool)
  /-- A write to a code frame. -/
  | abort (line : LineNo)
  deriving DecidableEq, Repr

/-- What a poisoned store word, register or line is (R411). -/
inductive PoisonKey where
  | byte (a : Nat)
  | pool (g : GroupRef) (w : Nat)
  | barrier (b : BlockKey) (slot k : Nat)
  deriving DecidableEq, Repr

/-! ## The order of steps (log 3) -/

/-- What the next step of the part is: an event of the table, or an issue of a group. -/
inductive What where
  | event (i : Instr)
  | issue (g : GroupRef)
  deriving DecidableEq, Repr

structure Turn where
  dt : Nat
  what : What
  deriving DecidableEq, Repr

/-- The frontier entry that is issuing: its group, PC and mask (R371). -/
structure Cur where
  g : GroupRef
  pc : Word64
  mask : Mask
  deriving DecidableEq, Repr

end Sys2Proof.Machine
end

