-- ==== Sys2Proof/Machine/State.lean ====
section
/-! DEFINITION. The whole machine as plain data, why it can stop, and the machine after reset (R456). -/

namespace Sys2Proof.Machine

/-- Why the machine stops. The part itself never stops (every fault of R409 is a next state): nothing raises one. -/
inductive Fault where
  /-- No step raises this; safe: a run that met it would stop where the hardware goes on. -/
  | unreachable
  deriving DecidableEq, Repr

inductive Refusal where
  /-- Raised by Dispatch.lean for an instruction without a meaning; safe. -/
  | notModelled (mnemonic : String)
  /-- Raised by Step.lean when a line in an instruction cache holds a word that the scanner never lets there (R59):
  the machine meets no such word; safe. -/
  | notAnInstruction (reason detail : Byte)
  deriving DecidableEq, Repr

structure State where
  /-- Device time in ticks (R4), and each core's difference from it plus 3 (absent: 3). -/
  now : Nat
  skew : List (Nat × Fin 7)
  /-- The model's own: free values used so far (R8), the steps to come, the entry that is issuing. -/
  fresh : Nat
  agenda : List Turn
  cur : Option Cur
  /-- The next identifier of an operation, transaction, request or change. -/
  nextId : Nat
  groups : List (GroupRef × Group)
  blocks : List (BlockKey × Block)
  saved : List (BlockKey × Saved)
  launches : List (Nat × Launch)
  phases : List (Nat × Phase)
  queues : List ((Nat × Nat) × Queue)
  ctxs : List (Nat × Ctx)
  mem : Memory
  poison : List PoisonKey
  cores : List (Nat × Core)
  clusters : List (Nat × Cluster)
  dies : List (Nat × Die)
  /-- Lines at the homes: slices and host agent; miss entries (R143). -/
  lines : List (LineNo × SliceLine)
  misses : List (LineNo × Miss)
  /-- Lines of the gateway caches by die and line. -/
  gateways : List ((Nat × LineNo) × GwLine)
  txns : List (Nat × StoreTxn)
  net : List Msg
  mcast : List (Nat × McastEntry)
  mcastWait : List McastReq
  monitors : List ((Nat × Nat) × Monitor)
  recorder : List RecEntry
  /-- Region changes and samplings being acknowledged, by number (R169). -/
  changes : List (Nat × Change)
  /-- Pushes not yet acknowledged, by store (R165): the completion message waits. -/
  pushWait : List (Nat × (Nat × Msg))
  /-- Frames marked as code (R56), by place × 2^32 + PFN, with their executable mappings (context, page). -/
  codeFrames : List (Nat × List (Nat × Word64))
  /-- Gangs by context, launch tag and number (R312). -/
  gangs : List ((Nat × Nat × Nat) × Gang)
  mbx : Mailbox
  fw : Firmware
  ports : List (Nat × Port)
  hostDone : Option HostDone
  deriving DecidableEq, Repr

/-- Firmware after device reset: not started (R437), banks kept (R456). -/
def Firmware.reset : Firmware where
  started := false
  bankA := []
  bankB := []
  activeB := false
  verified := false
  umpire := .running
  umpireResets := 0
  workerResets := []
  measurements := []
  spdm := []
  mctp := []
  corrected := []
  uncorrected := []
  window := []
  overOnce := []
  marked := []
  replaced := []
  windowStart := 0
  samples := 0
  bootCount := 0
  bootFailed := none
  alternate := 0#64
  skipped := 0#64
  bootTime := 0
  cxl0 := 0
  cxl1 := 0
  peers := []
  carveOut := []
  aborts := []

/-- The device after reset (R4, R437, R456): time 0, no context, no block, every cache empty. -/
def State.reset : State where
  now := 0
  skew := []
  fresh := 0
  agenda := []
  cur := none
  nextId := 0
  groups := []
  blocks := []
  saved := []
  launches := []
  phases := []
  queues := []
  ctxs := []
  mem := []
  poison := []
  cores := []
  clusters := []
  dies := []
  lines := []
  misses := []
  gateways := []
  txns := []
  net := []
  mcast := []
  mcastWait := []
  monitors := []
  recorder := []
  changes := []
  pushWait := []
  codeFrames := []
  gangs := []
  mbx := Mailbox.reset
  fw := Firmware.reset
  ports := []
  hostDone := none

end Sys2Proof.Machine
end

