-- ==== Sys2Proof/Machine/Ops.lean ====
section
/-! DEFINITION. The named operations over groups, threads and registers, outstanding operations, and the one way a
fault is taken and a handler left (R8, R33, R41, R49, R50, R82, R410 to R422). -/

namespace Sys2Proof.Machine

/-- The outcome of a step. -/
abbrev Out := Host.Outcome State Fault Refusal

/-! ## Access to the tables -/

def State.group (s : State) (r : GroupRef) : Option Group := tblGet s.groups r
def State.setGroup (s : State) (r : GroupRef) (g : Group) : State := { s with groups := tblPut s.groups r g }
def State.modGroup (s : State) (r : GroupRef) (f : Group → Group) : State := { s with groups := tblMod s.groups r f }
def State.block (s : State) (b : BlockKey) : Option Block := tblGet s.blocks b
def State.modBlock (s : State) (b : BlockKey) (f : Block → Block) : State := { s with blocks := tblMod s.blocks b f }
def State.core (s : State) (c : Nat) : Core := tblGetD s.cores c Core.reset
def State.modCore (s : State) (c : Nat) (f : Core → Core) : State :=
  { s with cores := tblPut s.cores c (f (s.core c)) }
def State.cluster (s : State) (c : Nat) : Cluster := tblGetD s.clusters c Cluster.reset
def State.modCluster (s : State) (c : Nat) (f : Cluster → Cluster) : State :=
  { s with clusters := tblPut s.clusters c (f (s.cluster c)) }
def State.die (s : State) (d : Nat) : Die := tblGetD s.dies d Die.reset
def State.modDie (s : State) (d : Nat) (f : Die → Die) : State := { s with dies := tblPut s.dies d (f (s.die d)) }
def State.ctx (s : State) (c : Nat) : Option Ctx := tblGet s.ctxs c
def State.modCtx (s : State) (c : Nat) (f : Ctx → Ctx) : State := { s with ctxs := tblMod s.ctxs c f }
def State.modLaunch (s : State) (l : Nat) (f : Launch → Launch) : State := { s with launches := tblMod s.launches l f }

/-- The numbers of R2. -/
def dieOfCore (c : Nat) : Nat := c / 192
def clusterOfCore (c : Nat) : Nat := c / 4
def dieOfCluster (c : Nat) : Nat := c / 48

/-- A core's own reading of device time (R4). -/
def State.nowAt (s : State) (core : Nat) : Nat := s.now + (tblGetD s.skew core 3).val - 3

/-- A number no other object has. -/
def State.freshId (s : State) : Nat × State := (s.nextId, { s with nextId := s.nextId + 1 })

/-- The free value of a place in the present step (R8). -/
def State.free (s : State) (place : Nat) : Word64 := Config.freeBits (s.fresh * 2 ^ 16 + place)

/-- Send a message: behind every earlier one of its channel (R141). -/
def State.send (s : State) (ch : Chan) (b : Body) : State := { s with net := s.net ++ [⟨ch, b, [], 0⟩] }

/-- The same, for a home-only access (R105). -/
def State.sendOwn (s : State) (ch : Chan) (b : Body) (own : List ThreadRef) (seq : Nat) : State :=
  { s with net := s.net ++ [⟨ch, b, own, seq⟩] }

/-- Whether a message is an earlier home-only access of a thread that made this one (R105). -/
def Msg.ahead (x y : Msg) : Bool := decide (y.seq < x.seq) && y.own.any (fun t => x.own.contains t)

/-- A message to a peer leaves by its port (R443). -/
def Chan.toPeer (c : Chan) : Bool := c.cls == .req && decide (7000 ≤ c.dst) && decide (c.dst < 7016)

/-- The message at a place of the network, if no earlier one of its channel is still under way (R141) and no earlier
home-only access of its threads has yet to reach its home (R105). -/
def State.deliverable (s : State) (m : Nat) : Option Msg :=
  match s.net[m]? with
  | none => none
  | some x =>
    if x.ch.toPeer || (s.net.take m).any (fun y => decide (y.ch = x.ch)) || s.net.any (fun y => x.ahead y) ||
        s.ports.any (fun p => p.2.outstanding.any (fun y => x.ahead y.2)) then none else some x

def State.take (s : State) (m : Nat) : State := { s with net := s.net.eraseIdx m }

/-! ## The program counter (R33) -/

/-- A slot address: its place in the line is 0, 12, 24, 36 or 48. -/
def isSlot (a : Word64) : Bool :=
  match (a.setWidth 6).toNat with
  | 0 | 12 | 24 | 36 | 48 => true
  | _ => false

/-- The index of a slot. -/
def slotIndex (a : Word64) : Int := ((a.toNat / 64) * 5 + (a.toNat % 64) / 12 : Nat)

/-- The address of an index, modulo 2^64. -/
def indexAddr (i : Int) : Word64 := BitVec.ofInt 64 (i / 5 * 64 + i % 5 * 12)

/-- The slot after this one: slot 0 of the next line after slot 4. -/
def nextSlot (a : Word64) : Word64 := if (a.setWidth 6).toNat = 48 then a + 16#64 else a + 12#64

/-! ## Threads -/

def Group.thread (g : Group) (t : Tid) : Thread := g.threads[t]
def Group.modThread (g : Group) (t : Tid) (f : Thread → Thread) : Group :=
  { g with threads := g.threads.set t (f g.threads[t]) }
/-- Change the threads of a mask, each by its own number. -/
def Group.modThreads (g : Group) (m : Mask) (f : Tid → Thread → Thread) : Group :=
  { g with threads := Vector.ofFn (fun t : Tid => if m.getLsbD t.val then f t g.threads[t] else g.threads[t]) }

def Thread.isRunning (t : Thread) : Bool := t.status == .running
def Thread.isExited (t : Thread) : Bool := t.status == .exited
def Thread.isParked (t : Thread) : Bool :=
  match t.status with
  | .parked _ => true
  | _ => false

def Group.running (g : Group) : Mask := maskOf (fun t => (g.thread t).isRunning)
def Group.alive (g : Group) : Mask := maskOf (fun t => !(g.thread t).isExited)

/-- The threads of a thread's bound set, or the thread alone (R250). -/
def Group.boundSet (g : Group) (t : Tid) : Mask :=
  let k := (g.thread t).lbk
  if k = 0 then bitOf t else maskOf (fun u => u.val / k == t.val / k)

/-- A mask with the whole bound set of each of its threads (R253). -/
def Group.wholeSets (g : Group) (m : Mask) : Mask := (maskTids m).foldl (fun acc t => acc ||| g.boundSet t) m

/-! ## The frontier (R368 to R370) -/

/-- The priority of a PC (R368). -/
def Block.prio (b : Block) (pc : Word64) : Nat :=
  if b.lr.cbase.toNat ≤ pc.toNat ∧ pc.toNat < b.lr.cbase.toNat + 64 * b.lr.clen then
    let off := pc.toNat - b.lr.cbase.toNat
    let i := off / 64 * 5 + off % 64 / 12
    b.runs.foldl (fun acc r => if r.1 ≤ i then r.2 else acc) 0
  else 0

/-- Priority first, then the lower PC (R369). -/
def entryBefore (b : Block) (x y : FEntry) : Bool :=
  let p := b.prio x.pc
  let q := b.prio y.pc
  decide (q < p) || (decide (p = q) && decide (x.pc.toNat ≤ y.pc.toNat))

/-- Join a thread to the entry at its PC, or make one (R370). -/
def joinEntry (es : List FEntry) (pc : Word64) (m : Mask) : List FEntry :=
  match es with
  | [] => [⟨pc, m⟩]
  | e :: r => if e.pc = pc then ⟨pc, e.mask ||| m⟩ :: r else e :: joinEntry r pc m

/-- The frontier: the running threads by PC, most urgent first. -/
def Group.frontier (g : Group) (b : Block) : List FEntry :=
  sortBy (entryBefore b) ((maskTids g.running).foldl (fun es t => joinEntry es (g.thread t).pc (bitOf t)) [])

/-- The group waits for the host to resolve a page (R82). -/
def Group.onPage (g : Group) : Bool := g.parked.any (fun p => !p.resolved)

/-- The entries that may issue: after a page has been resolved, the one that parked (R82). -/
def Group.entries (g : Group) (b : Block) : List FEntry :=
  match g.parked with
  | some p => if p.resolved then [p.entry] else []
  | none => g.frontier b

/-! ## Registers (R37, R40, R41, R43, R50) -/

/-- A register that an outstanding counted instruction will still write (R50). -/
def Group.isPending (g : Group) (r : RegRef) : Bool := g.ops.any (fun o => o.dests.contains r)

/-- A write to such a register: it holds an undefined value once the operation is done (R50). -/
def Group.clobber (g : Group) (r : RegRef) : Group :=
  if g.isPending r then
    { g with ops := g.ops.map (fun o => if o.dests.contains r then { o with clobbered := r :: o.clobbered } else o) }
  else g

/-- A register written in full is free of an earlier error, and defined (R50, R411). -/
def Group.cleanse (g : Group) (r : RegRef) : Group :=
  if g.regPoison.contains r || g.undef.contains r then
    { g with
      regPoison := g.regPoison.filter (fun x => decide (x ≠ r))
      undef := g.undef.filter (fun x => decide (x ≠ r)) }
  else g

/-- The bare write of a vector register; at or above the budget it is discarded (R41). -/
def Group.putV (g : Group) (t : Tid) (n : VReg) (x : Word32) : Group :=
  if n.val < g.budget then g.modThread t (fun th => { th with v := th.v.set n x }) else g
def Group.putS (g : Group) (n : SReg) (x : Word64) : Group := { g with s := g.s.set n x }
/-- A write to p15 is discarded (R43). -/
def Group.putP (g : Group) (t : Tid) (n : PReg) (x : Bool) : Group :=
  if n.val = 15 then g
  else g.modThread t (fun th =>
    { th with p := if x then th.p ||| (1#16 <<< n.val) else th.p &&& ~~~(1#16 <<< n.val) })

/-- A register whose writes are not discarded (R41, R43). -/
def Group.writable (g : Group) : RegRef → Bool
  | .v _ n => decide (n.val < g.budget)
  | .p _ n => n.val != 15
  | .s _ => true

/-- An instruction's write of a register; what the bare write discards changes nothing. -/
def Group.writeV (g : Group) (t : Tid) (n : VReg) (x : Word32) : Group :=
  if n.val < g.budget then ((g.putV t n x).clobber (.v t n)).cleanse (.v t n) else g
def Group.writeS (g : Group) (n : SReg) (x : Word64) : Group := ((g.putS n x).clobber (.s n)).cleanse (.s n)
def Group.writeP (g : Group) (t : Tid) (n : PReg) (x : Bool) : Group :=
  if n.val = 15 then g else (g.putP t n x).cleanse (.p t n)

/-- p15 reads 1 (R43). -/
def Thread.pred (t : Thread) (n : PReg) : Bool := n.val == 15 || t.p.getLsbD n.val

/-- Numbers of the places of free values within a step. -/
def placeV (t : Tid) (n : VReg) : Nat := t.val * 128 + n.val
def placeS (n : SReg) : Nat := 4096 + n.val

/-- What a register holds is a definite value. -/
def Group.defined (g : Group) (r : RegRef) : Bool := !g.isPending r && !g.undef.contains r

/-- vn of a thread, read by operand number `k`: undefined at or above the budget, while its load is outstanding, and after
a write that came before that load (R41, R50). Two reads of it need not agree (R8). -/
def State.readV (s : State) (g : Group) (t : Tid) (n : VReg) (k : Nat) : Word32 :=
  if n.val < g.budget && g.defined (.v t n) then (g.thread t).v[n] else (s.free (placeV t n + 8192 * k)).setWidth 32
def State.readS (s : State) (g : Group) (n : SReg) (k : Nat) : Word64 :=
  if g.defined (.s n) then g.s[n] else s.free (placeS n + 8192 * k)

/-- The next registers of a pair or quad (R40). -/
def VReg.up (n : VReg) (k : Nat) : VReg := ⟨(n.val + k) % 128, Nat.mod_lt _ (by decide)⟩
def SReg.up (n : SReg) (k : Nat) : SReg := ⟨(n.val + k) % 192, Nat.mod_lt _ (by decide)⟩

/-- Write a value of width `w` (at most 64) to a vector register or pair (R234). -/
def Group.writeVw (g : Group) (w : Nat) (t : Tid) (n : VReg) (x : Word64) : Group :=
  if w = 64 then (g.writeV t n (x.setWidth 32)).writeV t (VReg.up n 1) ((x >>> 32).setWidth 32)
  else g.writeV t n (x.setWidth 32)

/-- Extend a result of at most 32 bits to a uniform register: by its sign for a signed type, else with zeros (R234,
R258). -/
def extendS (ty : Ty) (x : Word64) : Word64 :=
  match ty with
  | .s32 | .s16 | .s8 => (x.setWidth 32).signExtend 64
  | _ => if ty.bits = 64 then x else (x.setWidth 32).setWidth 64

/-- Write a result of a type to a destination (R234). -/
def Group.write (g : Group) (ty : Ty) (d : Dst) (t : Tid) (x : Word64) : Group :=
  match d with
  | .v n => g.writeVw ty.bits t n x
  | .s n => g.writeS n (extendS ty x)
  | .zero => g

/-- Write a comparison's result, 1 or 0, or a predicate (R242, R268). -/
def Group.writeDP (g : Group) (ty : Ty) (d : DstP) (t : Tid) (x : Word64) : Group :=
  match d with
  | .v n => g.writeVw ty.bits t n x
  | .s n => g.writeS n (extendS ty x)
  | .zero => g
  | .p n => g.writeP t n (x != 0#64)

/-- Move the threads of a mask to the next slot, where they are running (R370). -/
def Group.advance (g : Group) (m : Mask) (pc : Word64) : Group :=
  g.modThreads m (fun _ th => if th.isRunning then { th with pc := nextSlot pc } else th)

/-- Write a 128-bit value: a quad, or a pair of uniform registers (R40). -/
def Group.write128 (g : Group) (d : Dst) (t : Tid) (x : BitVec 128) : Group :=
  match d with
  | .v n => (g.writeVw 64 t n (x.setWidth 64)).writeVw 64 t (VReg.up n 2) ((x >>> 64).setWidth 64)
  | .s n => (g.writeS n (x.setWidth 64)).writeS (SReg.up n 1) ((x >>> 64).setWidth 64)
  | .zero => g

/-! ## Outstanding operations (R49, R50) -/

/-- Put an element at the end unless it is there. -/
def insertNew {α : Type} [DecidableEq α] (l : List α) (x : α) : List α := if l.contains x then l else l ++ [x]

/-- The registers a result of a type fills (R40, R111). -/
def Dst.regs (ty : Ty) (d : Dst) (t : Tid) : List RegRef :=
  match d with
  | .v n => (List.range (ty.bits / 32)).map (fun k => .v t (VReg.up n k))
  | .s n => if ty.bits = 128 then [.s n, .s (SReg.up n 1)] else [.s n]
  | .zero => []

/-- The value of a loaded type, extended to 64 bits (R111). -/
def loadedWord (ty : Ty) (x : BitVec 128) : Word64 :=
  match ty with
  | .s8 => (x.setWidth 8).signExtend 64
  | .n8 | .b8 => (x.setWidth 8).setWidth 64
  | .s16 => (x.setWidth 16).signExtend 64
  | .n16 | .b16 => (x.setWidth 16).setWidth 64
  | .b32 | .n32 | .f32 => (x.setWidth 32).setWidth 64
  | .s32 => (x.setWidth 32).signExtend 64
  | _ => x.setWidth 64

/-- Write a loaded value to its destination: a register that another outstanding operation will write is left
undefined by that one (R50, R111). -/
def Group.deposit (g : Group) (op : Nat) (ty : Ty) (d : Dst) (t : Tid) (x : BitVec 128) : Group :=
  let regs := (Dst.regs ty d t).filter g.writable
  let w := loadedWord ty x
  let g1 := match d with
    | .zero => g
    | .v n =>
      if ty.bits = 128 then (List.range 4).foldl (fun g k => g.putV t (VReg.up n k) ((x >>> (32 * k)).setWidth 32)) g
      else if ty.bits = 64 then (g.putV t n (w.setWidth 32)).putV t (VReg.up n 1) ((w >>> 32).setWidth 32)
      else g.putV t n (w.setWidth 32)
    | .s n =>
      if ty.bits = 128 then (g.putS n (x.setWidth 64)).putS (SReg.up n 1) ((x >>> 64).setWidth 64) else g.putS n w
  let g2 := { g1 with ops := g1.ops.map (fun o =>
    if o.id = op then o else { o with clobbered := regs.filter (fun r => o.dests.contains r) ++ o.clobbered }) }
  regs.foldl Group.cleanse g2

/-- A part's bytes have arrived. -/
def Group.arrival (g : Group) (op : Nat) (a : Arrival) : Group :=
  { g with ops := g.ops.map (fun o => if o.id = op then { o with arrivals := o.arrivals ++ [a] } else o) }

/-- A number for a new operation, and the operation at the end of its group's list. -/
def State.issueOp (s : State) (r : GroupRef) (mk : Nat → Op) : Nat × State :=
  let (id, s1) := s.freshId
  (id, s1.modGroup r (fun g => { g with ops := g.ops ++ [mk id] }))

/-- A wait counter: the operations of its class that are outstanding. -/
def Group.counter (g : Group) (c : OpClass) : Nat := (g.ops.filter (fun o => decide (o.cls = c))).length

/-- Fold completion times into a group's horizons (R107). -/
def State.foldHz (s : State) (r : GroupRef) (h : Horizons) : State :=
  s.modGroup r (fun g => { g with hz := g.hz.fold h })

/-- Record what an operation observes in some bytes of a line (R124, R125): the times of every place that served one of
them, and what is still to return there. -/
def Group.saw (g : Group) (op : Nat) (bytes : LineBits) (o : ObsInfo) : Group :=
  let mine := o.filter (fun x => x.mask &&& bytes != 0#1024)
  { g with
    ob := mine.foldl (fun h x => h.fold x.times) g.ob
    pendObs := (mine.filterMap ObsShare.pending).foldl (fun l p => insertNew l (p, op)) g.pendObs }
def State.observe (s : State) (r : GroupRef) (op : Nat) (bytes : LineBits) (o : ObsInfo) : State :=
  s.modGroup r (fun g => g.saw op bytes o)

/-! ## Errors by unit (R411, R452) -/

/-- An entry of the error tables: unit kind and instance. -/
def unitKey (kind inst : Nat) : Nat := kind * 65536 + inst

/-- Corrected soft errors, and an uncorrectable one. -/
def State.corrected (s : State) (kind inst n : Nat) : State :=
  let k := unitKey kind inst
  { s with fw := { s.fw with corrected := tblPut s.fw.corrected k (tblGetD s.fw.corrected k 0 + n) } }
def State.uncorrected (s : State) (kind inst : Nat) : State :=
  let k := unitKey kind inst
  { s with fw := { s.fw with uncorrected := tblPut s.fw.uncorrected k (tblGetD s.fw.uncorrected k 0 + 1) } }

/-! ## Logs (R412, R436) -/

/-- Append to a ring of 4,096: the oldest record gives way. -/
def Log.push {α : Type} (l : Log α) (x : α) : Log α :=
  if l.recs.length < Config.logRecords then { l with recs := l.recs ++ [x] }
  else ⟨(l.recs.drop 1) ++ [x], true⟩

/-- A fault record of a group (R412). -/
def State.record (s : State) (r : GroupRef) (kind : FaultKind) (info : FaultInfo) : State :=
  let core := match s.group r with
    | some g => g.core
    | none => 0
  s.modCtx r.key.ctx (fun c => { c with faults := c.faults.push ⟨info, kind, s.now, r.key.ctx, r.key.blk, core, r.grp⟩ })

/-! ## Taking a fault (R414 to R418) -/

/-- A handler address is a nonzero slot address; any other TRAP_BASE is treated as 0 (R416). -/
def Group.hasHandler (g : Group) : Bool := g.trapBase != 0#64 && isSlot g.trapBase

/-- TRAP_CAUSE (R416). -/
def trapCauseOf (fatal : Bool) (info : FaultInfo) : Word64 :=
  (BitVec.ofBool fatal).setWidth 64 <<< 16 ||| info.reason.setWidth 64 <<< 8 ||| info.code.byte.setWidth 64

/-- Trap entry (R417): the four registers, the frontier into the trap slots, the entry depths, the bindings suspended,
and one entry at TRAP_BASE for every thread that has neither exited nor parked. -/
def Group.takeTrap (g : Group) (fatal : Bool) (info : FaultInfo) : Group :=
  let run := g.running
  let entries := (maskTids run).foldl (fun es t => joinEntry es (g.thread t).pc (bitOf t)) []
  let g1 := g.modThreads 0xFFFFFFFF#32 (fun _ th =>
    { th with tdep := th.fdep, savedLbk := th.lbk, savedLix := th.lix, lbk := 0, lix := 0 })
  let g2 := g1.modThreads run (fun _ th => { th with pc := g.trapBase, inTrap := true })
  { g2 with
    inHandler := true
    dying := fatal
    trapCause := trapCauseOf fatal info
    trapPc := if fatal then info.pc else nextSlot info.pc
    trapMask := info.mask.setWidth 64
    trapAddr := info.addr
    saved := entries
    savedHolds := g.holds
    holds := []
    pendingTrap := none
    passOver := none }

/-- The return from a handler (R421): bindings restored, the TRAP_MASK threads of the saved frontier at TRAP_PC, the
saved frontier in place of the current one, without the threads that have exited. -/
def Group.leaveHandler (g : Group) : Group :=
  let back : Mask := g.saved.foldl (fun m e => m ||| e.mask) 0#32
  let pcOf (t : Tid) : Word64 :=
    if (g.trapMask.setWidth 32).getLsbD t.val then g.trapPc
    else match g.saved.find? (fun e => e.mask.getLsbD t.val) with
      | some e => e.pc
      | none => g.trapPc
  let g1 := g.modThreads 0xFFFFFFFF#32 (fun _ th =>
    { th with lbk := th.savedLbk, lix := th.savedLix, savedLbk := 0, savedLix := 0, tdep := 0, inTrap := false })
  let g2 := g1.modThreads back (fun t th =>
    if th.isExited then th else { th with pc := pcOf t, status := .running, since := 0 })
  { g2 with inHandler := false, dying := false, saved := [], holds := g.savedHolds, savedHolds := [] }

/-- A fatal fault (R414): the block's latch takes the first; the block stops; a group with a handler enters it and the
block is dying, else termination is due. -/
def State.fatal (s : State) (r : GroupRef) (info : FaultInfo) : State :=
  match s.block r.key, s.group r with
  | some b, some g =>
    if b.latch.isSome then
      -- a fault in the dying handler completes termination; any other later fault is discarded
      if g.dying then s.modBlock r.key (fun b => { b with status := .terminating }) else s
    else
      let s1 := (s.record r .fatal info).modBlock r.key (fun b => { b with latch := some (r.grp, info) })
      if g.hasHandler && info.code != .watchdog && info.code != .trapNested && g.alive != 0#32 then
        (s1.modBlock r.key (fun b => { b with status := .dying s.now })).setGroup r (g.takeTrap true info)
      else s1.modBlock r.key (fun b => { b with status := .terminating })
  | _, _ => s

/-- Any fault of a group, with whole bound sets in its mask (R253, R410, R414, R418). `entry` is the frontier entry
that a replayable fault parks with (R82). -/
def State.raise (s : State) (r : GroupRef) (entry : FEntry) (info0 : FaultInfo) : State :=
  match s.group r with
  | none => s
  | some g =>
    let info := { info0 with mask := g.wholeSets info0.mask }
    match info.code.kind with
    | .replayable =>
      (s.record r .replayable info).setGroup r { g with parked := some ⟨entry, info.addr, s.now, false⟩ }
    | _ =>
      if g.inHandler then
        s.fatal r { info with code := .trapNested, reason := if info.code = .trapNested then info.reason
                                                             else info.code.byte }
      else if info.code.kind = .handled && g.hasHandler then s.setGroup r (g.takeTrap false info)
      else s.fatal r info

/-- A fault found after issue (R410): it waits for the group's next instruction boundary (R417). -/
def State.raiseLater (s : State) (r : GroupRef) (info : FaultInfo) : State :=
  s.modGroup r (fun g => if g.pendingTrap.isSome then g else { g with pendingTrap := some info })

/-- The threads that an arrival concerns. -/
def Op.concerns (o : Op) (a : Arrival) : Mask := (a.who.map bitOf).getD o.act

/-- The fault of the parts that failed: the first one's, with every thread that it has met (R410). -/
def Op.fault (o : Op) : Option FaultInfo :=
  (o.arrivals.filterMap Arrival.bad)[0]?.map (fun (f : FaultCode × Byte) =>
    let mine := o.arrivals.filter (fun a => a.bad == some f)
    let mask : Mask := mine.foldl (fun m a => m ||| o.concerns a) 0#32
    let low := mine.find? (fun a => a.who.isNone || a.who == (maskTids mask).head?)
    { code := f.1, reason := f.2, mask := mask, addr := (low.map Arrival.va).getD 0#64, pc := o.pc })

/-- Write what has arrived: nothing for a thread of a set that a part has failed for (R253). -/
def Group.depositAll (g : Group) (o : Op) : Group :=
  let lost := g.wholeSets ((o.arrivals.filter (fun a => a.bad.isSome)).foldl (fun m a => m ||| o.concerns a) 0#32)
  (o.arrivals.filter (fun a => o.concerns a &&& lost == 0#32)).foldl
    (fun g a => g.deposit o.id a.ty a.dst (a.who.getD 0) a.x) g

/-- End a part of an operation. With its last part the operation is over: what has arrived is written, the registers
written meanwhile hold undefined values, and a part that failed makes the instruction fault (R50, R253, R410). -/
def State.opPart (s : State) (r : GroupRef) (id : Nat) : State :=
  match s.group r with
  | none => s
  | some g =>
    match g.ops.find? (fun o => o.id == id) with
    | none => s
    | some o =>
      if 1 < o.parts then
        s.setGroup r { g with ops := g.ops.map (fun x => if x.id = id then { x with parts := x.parts - 1 } else x) }
      else
        let g1 := g.depositAll o
        let s1 := s.setGroup r { g1 with
          ops := g1.ops.filter (fun x => x.id != id)
          undef := o.clobbered.foldl insertNew g1.undef }
        match o.fault with
        | some f => s1.raiseLater r f
        | none => s1

/-- A hold of an instruction that completes before its group's next issue (R171, R278). -/
def Hold.stops (h : Hold) : Bool :=
  match h.kind with
  | .turn | .bank _ | .region _ | .query _ _ => true
  | _ => false

/-- Such an instruction has issued: the group's next instruction boundary is behind it (R417). -/
def Group.midway (g : Group) : Bool := g.holds.any Hold.stops

/-- The bound set a thread's wait concerns: the suspended one for a thread that parked before its group's trap entry
(R252, R257). -/
def Group.waitSet (g : Group) (t : Tid) : Mask :=
  if g.inHandler && !(g.thread t).inTrap then
    let k := (g.thread t).savedLbk
    if k = 0 then bitOf t else maskOf (fun u => u.val / k == t.val / k)
  else g.boundSet t

/-- A thread with its PC set joins the frontier, or the trap slots if its group is in a handler that it is no thread of
(R370, R417). -/
def Group.rejoin (g : Group) (t : Tid) : Group :=
  if g.inHandler && !(g.thread t).inTrap then
    { g.modThread t (fun th => { th with status := .shelved }) with
      saved := joinEntry g.saved (g.thread t).pc (bitOf t) }
  else g.modThread t (fun th => { th with status := .running })

/-- A thread leaves its wait for a PC; a bound set re-enters when all of it has been released (R252). -/
def Group.release (g : Group) (t : Tid) (pc : Word64) : Group :=
  let g1 := g.modThread t (fun th => { th with status := .parked .set, deadline := none, pc := pc })
  let set := maskTids (g1.waitSet t)
  if set.all (fun u => (g1.thread u).status == .parked .set) then set.foldl Group.rejoin g1 else g1

/-- Park a thread (R383). -/
def Group.park (g : Group) (t : Tid) (now : Nat) (w : Wait) (dl : Option Nat) (pc : Word64) : Group :=
  g.modThread t (fun th => { th with status := .parked w, deadline := dl, since := now, pc := pc })

end Sys2Proof.Machine
end

