-- ==== Sys2Proof/Machine/Operands.lean ====
section
/-! DEFINITION. Reading operands: special operands, sources of each width, memory addresses (R38, R42, R110, R183,
R233). Every value is read as the registers stood at issue (R10, R234). -/

namespace Sys2Proof.Machine

/-- An instruction at issue: the state, its group, its PC, the entry's mask and ACTIVE (R371, R43). -/
structure Iss where
  s : State
  r : GroupRef
  g : Group
  pc : Word64
  mask : Mask
  act : Mask
  /-- Which operand is read: its number among the instruction's fields. -/
  pos : Nat := 0

/-- The same, for operand number `k`. -/
def Iss.nth (e : Iss) (k : Nat) : Iss := { e with pos := k }

namespace Operand

/-- R38. -/
def special (e : Iss) (t : Tid) : Special → Word64
  | .zero => 0#64
  | .tid => BitVec.ofNat 64 t.val
  | .grp => BitVec.ofNat 64 e.r.grp
  | .blkx => BitVec.ofNat 64 e.r.key.blk
  | .bsz =>
    match e.s.block e.r.key with
    | some b => BitVec.ofNat 64 b.lr.bsz
    | none => 0#64
  | .core => BitVec.ofNat 64 e.g.core
  | .clus => BitVec.ofNat 64 (clusterOfCore e.g.core)
  | .die => BitVec.ofNat 64 (dieOfCore e.g.core)
  | .now => BitVec.ofNat 64 (e.s.nowAt e.g.core)
  | .amask => e.mask.setWidth 64
  | .fdep => BitVec.ofNat 64 (e.g.thread t).fdep
  | .nheld => BitVec.ofNat 64 (e.g.thread t).held.length
  | .lbk => BitVec.ofNat 64 (e.g.thread t).lbk
  | .lix => BitVec.ofNat 64 (e.g.thread t).lix
  | .role => BitVec.ofNat 64 e.g.role
  | .ctx => BitVec.ofNat 64 e.r.key.ctx

def v (e : Iss) (t : Tid) (n : VReg) : Word32 := e.s.readV e.g t n e.pos
def s (e : Iss) (n : SReg) : Word64 := e.s.readS e.g n e.pos
def p (e : Iss) (t : Tid) (n : PReg) : Bool := (e.g.thread t).pred n

/-- A vector register or pair, zero-extended to 64 bits (R40). -/
def vw (e : Iss) (w : Nat) (t : Tid) (n : VReg) : Word64 :=
  if w = 64 then (v e t n).setWidth 64 ||| ((v e t (VReg.up n 1)).setWidth 64 <<< 32)
  else (v e t n).setWidth 64

/-- A source of width 32 or 64, zero-extended to 64 bits (R233). -/
def src (e : Iss) (w : Nat) (t : Tid) : Src → Word64
  | .v n => vw e w t n
  | .s n => if w = 64 then s e n else ((s e n).setWidth 32).setWidth 64
  | .sp x => if w = 64 then special e t x else ((special e t x).setWidth 32).setWidth 64

/-- A 128-bit source (R40, R233): a quad, or a pair of uniform registers. -/
def src128 (e : Iss) (t : Tid) : Src → BitVec 128
  | .v n => (vw e 64 t n).setWidth 128 ||| ((vw e 64 t (VReg.up n 2)).setWidth 128 <<< 64)
  | .s n => (s e n).setWidth 128 ||| ((s e (SReg.up n 1)).setWidth 128 <<< 64)
  | .sp _ => 0#128

/-- A field of class v, s or zero as a 32-bit word (R255). -/
def dst32 (e : Iss) (t : Tid) : Dst → Word32
  | .v n => v e t n
  | .s n => (s e n).setWidth 32
  | .zero => 0#32

def vs (e : Iss) (w : Nat) (t : Tid) : VS → Word64
  | .v n => vw e w t n
  | .s n => s e n

/-- The low 32 bits of an operand. -/
def src32 (e : Iss) (t : Tid) (x : Src) : Word32 := (src e 32 t x).setWidth 32

/-- An index: a uniform register's 64 bits, or a vector register's 32 bits sign-extended (R110). -/
def idx (e : Iss) (t : Tid) : Idx → Word64
  | .none => 0#64
  | .v n => (v e t n).signExtend 64
  | .s n => s e n

/-- base + index + offset modulo 2^64; a vector base is a pair for memory (R110), one register zero-extended for
scratchpad (R183). -/
def addr (e : Iss) (w : Nat) (t : Tid) (m : Addr) : Word64 :=
  vs e w t m.base + idx (e.nth 1) t m.idx + m.off.signExtend 64

/-- A register of a field where `zero` reads 0. -/
def sdst (e : Iss) : SDst → Word64
  | .s n => s e n
  | .zero => 0#64

/-- A uniform register, or the expression in ext. -/
def simm (e : Iss) {w : Nat} : SImm w → Word64
  | .s n => s e n
  | .imm x => x.setWidth 64

/-- A colour: bits [15:0] (R356). -/
def col (e : Iss) (t : Tid) : Col → Nat
  | .v n => ((v e t n).setWidth 16).toNat
  | .s n => ((s e n).setWidth 16).toNat
  | .imm x => x.toNat

end Operand

end Sys2Proof.Machine

namespace Sys2Proof

/-! ## The form an instruction's operands give it (R42) -/

def VDst.isVec : VDst → Bool
  | .v _ => true
  | .zero => false
def PDst.isVec : PDst → Bool
  | .p _ => true
  | .zero => false
def Col.isVec : Col → Bool
  | .v _ => true
  | _ => false
def DstP.isVec : DstP → Bool
  | .v _ => true
  | .p _ => true
  | _ => false

end Sys2Proof
end

