-- ==== Sys2Proof/Machine/Flags.lean ====
section
/-! DEFINITION. Predicates: guards (R43, R44), the check of bound sets (R252), comparisons (R237, R242). -/

namespace Sys2Proof.Machine

/-- One thread's guard (R43). -/
def guardOf (t : Thread) (c : Ctl) : Bool :=
  let a := t.pred c.p1 ^^ c.n1
  let b := t.pred c.p2 ^^ c.n2
  match c.gm with
  | .one => a
  | .and => a && b
  | .or => a || b

/-- ACTIVE: the threads of the entry whose guard is true (R10, R43). -/
def activeOf (g : Group) (c : Ctl) (mask : Mask) : Mask :=
  maskOf (fun t => mask.getLsbD t.val && guardOf (g.thread t) c)

/-- The threads of bound sets of the entry of which some but not all are active (R252). -/
def splitSets (g : Group) (mask act : Mask) : Mask :=
  maskOf (fun t =>
    let set := g.boundSet t
    mask.getLsbD t.val && (g.thread t).lbk != 0 && (set &&& act) != 0#32 && (set &&& act) != set)

end Sys2Proof.Machine

namespace Sys2Proof

/-- Signed types (R51, R233). -/
def Ty.signed : Ty → Bool
  | .s32 | .s64 | .s16 | .s8 => true
  | _ => false

/-- The width of a type's own values (R192, R193, R203): in memory an .l6 element takes a byte (R207). -/
def Ty.width : Ty → Nat
  | .b128 => 128
  | .s64 | .n64 | .b64 => 64
  | .s16 | .n16 | .b16 | .f16 | .bf16 => 16
  | .s8 | .n8 | .b8 | .l6 => 8
  | _ => 32

/-- The IEEE types (R193). -/
def Ty.isFloat : Ty → Bool
  | .f32 | .f16 | .bf16 => true
  | _ => false

/-- The number that `w` bits stand for under a type (R233). -/
def intOf (signed : Bool) (w : Nat) (x : Word64) : Int :=
  if signed then (x.setWidth w).toInt else ((x.setWidth w).toNat : Int)

/-- R237. -/
def Cond.holds (c : Cond) (x y : Int) : Bool :=
  match c with
  | .eq => decide (x = y)
  | .ne => decide (x ≠ y)
  | .lt => decide (x < y)
  | .le => decide (x ≤ y)
  | .gt => decide (y < x)
  | .ge => decide (y ≤ x)

/-- R244. -/
def PsetOp.apply (op : PsetOp) (x y : Bool) : Bool :=
  match op with
  | .and => x && y
  | .or => x || y
  | .xor => x ^^ y
  | .andn => x && !y

end Sys2Proof

namespace Sys2Proof.Machine

/-- 1 for true, 0 for false. -/
def boolWord (b : Bool) : Word64 := if b then 1#64 else 0#64

end Sys2Proof.Machine
end

