-- ==== Sys2Proof/Machine/Issue.lean ====
section
/-! DEFINITION. What every instruction shares: its start (guards, bound sets), its end (the next PC, stall, the
watchdog), the two forms (R42 to R45, R252, R370, R424). -/

namespace Sys2Proof.Machine

/-- Lane cycles and ticks (R6): 3.3 cycles of the arithmetic clock in a tick, rounded up. -/
def ticksOfCycles (n : Nat) : Nat := (10 * n + 32) / 33

/-- A group whose entry issues: the marks that let it issue are gone, and so is a resolved page (R82). -/
def Group.taken (g : Group) (k : Cur) : Group :=
  { g with
    parked := none
    holds := g.holds.filter (fun h => !(decide (h.pc = k.pc) && (h.mask &&& k.mask) != 0#32 && (match h.kind with
      | .bank _ | .lines _ | .filled _ | .table _ | .turn => true
      | _ => false))) }

/-- The state as an issue finds it: one more free value is in use, and the watchdog count of the context starts again
(R424). -/
def State.begun (s : State) (k : Cur) (g : Group) : State :=
  ({ s.setGroup k.g g with cur := none, fresh := s.fresh + 1 }).modCtx k.g.key.ctx (fun x => { x with wdogFrom := s.now })

/-- Begin an issue: ACTIVE is formed, and an instruction that would split a bound set faults (R252). With no entry
issuing, nothing happens. -/
def begin_ (c : Ctl) (s : State) (body : Iss → Out) : Out :=
  match s.cur with
  | none => .next s
  | some k =>
    match s.group k.g with
    | none => .next { s with cur := none }
    | some g0 =>
      let g := g0.taken k
      let s1 := s.begun k g
      let act := activeOf g c k.mask
      let bad := splitSets g k.mask act
      if bad != 0#32 then
        .next (s1.raise k.g ⟨k.pc, k.mask⟩ { code := .divergeBound, mask := bad, pc := k.pc })
      else body ⟨s1, k.g, g, k.pc, k.mask, act, 0⟩

/-- End an issue with the group `g`: the entry's threads that are not in `stay` go to the next slot, and the stall
field holds the group (R45, R370). -/
def Iss.retireWith (e : Iss) (c : Ctl) (s : State) (g : Group) (stay : Mask) : State :=
  let g1 := g.advance (e.mask &&& ~~~stay) e.pc
  s.setGroup e.r { g1 with stallUntil := e.s.now + ticksOfCycles c.stall.toNat }

/-- End an issue that changed only its group. -/
def Iss.retire (e : Iss) (c : Ctl) (g : Group) : State := e.retireWith c e.s g 0#32

/-- Raise a fault of the issuing instruction (R410). -/
def Iss.fault (e : Iss) (code : FaultCode) (mask : Mask) (addr : Word64 := 0#64) (reason : Byte := 0#8) : Out :=
  .next (e.s.raise e.r ⟨e.pc, e.mask⟩ { code := code, reason := reason, mask := mask, addr := addr, pc := e.pc })

/-- For each thread of ACTIVE, lowest first (R10). -/
def Iss.forThreads (e : Iss) (g : Group) (f : Tid → Group → Group) : Group :=
  (maskTids e.act).foldl (fun g t => f t g) g

/-- The two forms (R42, R44): a vector instruction acts for each thread of ACTIVE; a uniform one acts once, if ACTIVE
is not empty. -/
def Iss.perForm (e : Iss) (vec : Bool) (f : Tid → Group → Group) : Group :=
  if vec then e.forThreads e.g f
  else if e.act = 0#32 then e.g else f 0 e.g

/-- An instruction that computes one value and writes it to a destination. -/
def execValue (c : Ctl) (vec : Bool) (ty : Ty) (d : Dst) (f : Iss → Tid → Word64) (s : State) : Out :=
  begin_ c s (fun e => .next (e.retire c (e.perForm vec (fun t g => g.write ty d t (f e t)))))

/-- The same, with a destination that may be a predicate. -/
def execTest (c : Ctl) (vec : Bool) (ty : Ty) (d : DstP) (f : Iss → Tid → Word64) (s : State) : Out :=
  begin_ c s (fun e => .next (e.retire c (e.perForm vec (fun t g => g.writeDP ty d t (f e t)))))

end Sys2Proof.Machine
end

