-- ==== Sys2Proof/Machine/Translate.lean ====
section
/-! DEFINITION. Routed addresses and homes (R60 to R65), page walks, the TLBs and colours (R68 to R81). -/

namespace Sys2Proof.Machine

/-! ## Routed addresses -/

/-- The fold of R61: the XOR of the 18 two-bit pairs PA[13:12] to PA[47:46]. -/
def foldDie (pa : Nat) : Nat :=
  (List.range 18).foldl (fun d i => d ^^^ (pa / 2 ^ (12 + 2 * i) % 4)) 0

/-- The byte a routed address names, in the numbering of `Memory` (R60, R61). -/
def flatByte (place pa : Nat) : Nat :=
  match place with
  | 0 => hbmKey (foldDie pa) (pa / 2 ^ 14 * 4096 + pa % 4096)
  | 1 => hbmKey 0 pa
  | 2 => hbmKey 1 pa
  | 3 => hbmKey 2 pa
  | 4 => hbmKey 3 pa
  | 5 => cxlKey pa
  | _ => hostKey pa

/-- The pool a line lies in. -/
def isHbm (l : LineNo) : Bool := decide (l < 2 ^ 32)
def isHost (l : LineNo) : Bool := decide (2 ^ 47 ≤ l)
def isCxl (l : LineNo) : Bool := !isHbm l && !isHost l

/-- The peer window of place 110 (R442). -/
def peerBase : Nat := 0xF00000000000
def isPeer (l : LineNo) : Bool := decide (2 ^ 47 + peerBase / 128 ≤ l)
/-- The peer a line of the window names, and the address in its place-000 space. -/
def peerOf (l : LineNo) : Nat := (l - 2 ^ 47) * 128 / 2 ^ 40 % 16
def peerAddr (l : LineNo) : Nat := (l - 2 ^ 47) * 128 % 2 ^ 40

/-- The die of a line's home (R60, R61); a host line's home is the agent on the I/O die, die 4 here. -/
def homeDie (l : LineNo) : Nat :=
  if isHbm l then l / 2 ^ 30 else if isHost l then 4 else foldDie ((l - 2 ^ 37) * 128)

/-- The slice (R63, R64). -/
def homeSlice (l : LineNo) : Nat :=
  let x := if isHbm l then l % 2 ^ 30 else l - 2 ^ 37
  (x ^^^ (x / 2 ^ 12) ^^^ (x / 2 ^ 24)) % 48

/-- Where the DRAM of a die keeps a line (R63): stack, channel, pseudo-channel, and the bank and row that firmware's map gives
the remaining bits. -/
structure DramPlace where
  stack : Nat
  channel : Nat
  pseudo : Nat
  row : Nat
  deriving DecidableEq, Repr

def dramPlace (l : LineNo) : DramPlace :=
  let x := l % 2 ^ 30
  ⟨(x / 2 ^ 1 ^^^ x / 2 ^ 10) % 2, (x / 2 ^ 2 ^^^ x / 2 ^ 11) % 32, x % 2, Config.rowMap (x / 2 ^ 16)⟩

/-- The CXL port of a line of place 101, and the device address there (R64). -/
def State.cxlPlace (s : State) (l : LineNo) : Nat × Nat :=
  let pa := (l - 2 ^ 37) * 128
  if s.fw.cxl0 = s.fw.cxl1 then (pa / 4096 % 2, pa / 8192 * 4096 + pa % 4096)
  else if pa < s.fw.cxl0 * 2 ^ 30 then (0, pa) else (1, pa - s.fw.cxl0 * 2 ^ 30)

/-- A line's place in its slice and its gateway cache. The set numbers are the model's (log 13). -/
def sliceSet (l : LineNo) : Nat := l / 48 % 1536
def gatewaySet (l : LineNo) : Nat := l % 8192

/-- Ports as channel ends (R139, R141, R142): a core's is its cluster's; home slices and the host agent, gateway
caches. -/
def portCore (c : Nat) : Nat := clusterOfCore c
def portHome (l : LineNo) : Nat :=
  if isPeer l then 7000 + peerOf l else 1000 + homeDie l * 48 + (if isHost l then 0 else homeSlice l)
def portFirmware : Nat := 900
def portGateway (die toward : Nat) : Nat := 2000 + die * 4 + toward

/-- The first byte of a line as a list number. -/
def lineByte (l : LineNo) : Nat := l * 128

/-- The bytes of a line as its home has them. -/
def State.lineData (s : State) (l : LineNo) : LineBits :=
  match tblGet s.lines l with
  | some x => x.data
  | none => leBits 1024 (s.mem.readN (lineByte l) 128)

/-- Bytes of main memory as their homes have them: a home-only read that nothing counts. -/
def State.homeByte (s : State) (b : Nat) : Byte := ((s.lineData (b / 128)) >>> (8 * (b % 128))).setWidth 8
def State.homeBytes (s : State) (b : Nat) : Nat → List Byte
  | 0 => []
  | n + 1 => s.homeByte b :: State.homeBytes s (b + 1) n

/-! ## Page entries (R68 to R73) -/

inductive WalkResult where
  | error (reason : Byte)
  | absent
  | leaf (l : Leaf)
  deriving DecidableEq, Repr

/-- R68: bits [63:55] equal bit 54. -/
def canonical (va : Word64) : Bool := va.extractLsb' 55 9 == (if va.getLsbD 54 then 0x1FF#9 else 0#9)

/-- Bytes a leaf maps. -/
def leafSize (level : Nat) : Nat := if level = 1 then 2 ^ 42 else if level = 2 then 2 ^ 29 else 2 ^ 16

/-- The end of a pool (R60). -/
def poolEnd (fw : Firmware) (place : Nat) : Nat :=
  match place with
  | 0 => 2 ^ 39
  | 5 => min ((fw.cxl0 + fw.cxl1) * 2 ^ 30) (2 ^ 44)
  | 6 => 2 ^ 48
  | _ => 2 ^ 37

/-- The ranges that firmware has locked (R73): routed (place, first byte, length). -/
def State.locked (s : State) : List (Nat × Nat × Nat) :=
  s.ctxs.map (fun c => (c.2.areaPlace, c.2.areaPfn * 65536, c.2.areaSize * 65536))

/-- The bytes of a routed range of whole frames: an interleaved one has a quarter of them on each die (R60, R61). -/
def flatRanges (place pa size : Nat) : List (Nat × Nat) :=
  if place = 0 then (List.range 4).map (fun d => (hbmKey d (pa / 4), size / 4)) else [(flatByte place pa, size)]

/-- A leaf whose frame shares a byte with a locked range (R73). -/
def State.isLocked (s : State) (place pa size : Nat) : Bool :=
  let locked := s.locked.flatMap (fun r => flatRanges r.1 r.2.1 r.2.2) ++ s.fw.carveOut
  locked.any (fun r => (flatRanges place pa size).any (fun x => decide (x.1 < r.1 + r.2) && decide (r.1 < x.1 + x.2)))

/-- The reasons a leaf fails, lowest first (R69, R71 to R74, R77). -/
def leafReasons (s : State) (level : Nat) (x : Word64) : List (Byte × Bool) :=
  let place := (x.extractLsb' 10 3).toNat
  let mtype := (x.extractLsb' 13 2).toNat
  let cmode := (x.extractLsb' 6 2).toNat
  let pfn := (x.extractLsb' 32 32).toNat
  let rec_ := x.getLsbD 8
  let combo := (mtype = 0 ∧ place ≤ 5) ∨ (mtype = 1 ∧ place ≤ 6) ∨ (mtype = 2 ∧ place = 6)
  [(0x02#8, x.getLsbD 15 || x.getLsbD 5 || (cmode != 1 && x.extractLsb' 16 16 != 0#16)),
   (0x03#8, cmode == 3),
   (0x04#8, place == 7),
   (0x05#8, mtype == 3),
   (0x06#8, !decide combo || (place == 6 && decide (peerBase ≤ pfn * 65536) && mtype != 1) || (rec_ && !(mtype == 0 && decide (place ≤ 5)))),
   (0x07#8, pfn % (leafSize level / 65536) != 0),
   (0x08#8, decide (poolEnd s.fw place < pfn * 65536 + leafSize level)),
   (0x09#8, s.isLocked place (pfn * 65536) (leafSize level))]

/-- The reasons a non-leaf entry fails (R70). -/
def tableReasons (level : Nat) (x : Word64) : List (Byte × Bool) :=
  [(0x02#8, x.extractLsb' 13 19 != 0#19 || x.extractLsb' 5 5 != 0#5 || x.extractLsb' 1 3 != 0#3),
   (0x04#8, decide (4 < (x.extractLsb' 10 3).toNat)),
   (0x0A#8, level == 3)]

def firstReason : List (Byte × Bool) → Option Byte
  | [] => none
  | (r, b) :: rest => if b then some r else firstReason rest

/-- A leaf's fields (R69); G counts only in a context that may have it (R75). -/
def leafOf (glob : Bool) (level : Nat) (va x : Word64) : Leaf where
  base := va &&& ~~~(BitVec.ofNat 64 (leafSize level - 1))
  level := level
  pa := (x.extractLsb' 32 32).toNat * 65536
  place := (x.extractLsb' 10 3).toNat
  mtype := (x.extractLsb' 13 2).toNat
  colour := (x.extractLsb' 16 16).toNat
  cmode := (x.extractLsb' 6 2).toNat
  g := x.getLsbD 9 && glob
  rec_ := x.getLsbD 8
  x := x.getLsbD 3
  w := x.getLsbD 2
  r := x.getLsbD 1

/-- The index of a level in a virtual address (R68). -/
def levelIndex (va : Word64) (level : Nat) : Nat :=
  (va.extractLsb' (if level = 1 then 42 else if level = 2 then 29 else 16) 13).toNat

/-- The walk from a table of a level on, `fuel` levels (R68 to R77). A non-leaf entry whose frame lies beyond its pool has none
of R77's reasons: the walk reads on at the number that the frame has in the list of bytes (DESIGN CHOICE, log 47). -/
def walkFrom (s : State) (glob : Bool) (va : Word64) : Nat → Nat → Nat → WalkResult
  | 0, _, _ => .error 0x0A#8
  | fuel + 1, place, pfn =>
    let level := 3 - fuel
    let x : Word64 := leBits 64 (s.homeBytes (flatByte place (pfn * 65536 + 8 * levelIndex va level)) 8)
    if !x.getLsbD 0 then .absent
    else if x.getLsbD 4 then
      match firstReason (leafReasons s level x) with
      | some r => .error r
      | none => .leaf (leafOf glob level va x)
    else
      match firstReason (tableReasons level x) with
      | some r => .error r
      | none => walkFrom s glob va fuel (x.extractLsb' 10 3).toNat (x.extractLsb' 32 32).toNat

/-- A walk of a context (R68). -/
def State.walk (s : State) (ctx : Nat) (va : Word64) : WalkResult :=
  if !canonical va then .error 0x01#8
  else match s.ctx ctx with
    | none => .absent
    | some c => walkFrom s c.glob va 3 c.rootPlace c.rootPfn

/-! ## The walk cache (R80, R84) -/

/-- The first address that an entry of a level serves. -/
def levelBase (level : Nat) (va : Word64) : Word64 := va &&& ~~~(BitVec.ofNat 64 (leafSize level - 1))

/-- The non-leaf entries that a walk reads, the deepest first. -/
def tablesFrom (s : State) (ctx : Nat) (va : Word64) : Nat → Nat → Nat → List WalkEntry
  | 0, _, _ => []
  | fuel + 1, place, pfn =>
    let level := 3 - fuel
    let x : Word64 := leBits 64 (s.homeBytes (flatByte place (pfn * 65536 + 8 * levelIndex va level)) 8)
    if !x.getLsbD 0 || x.getLsbD 4 || (firstReason (tableReasons level x)).isSome then []
    else
      let p := (x.extractLsb' 10 3).toNat
      let f := (x.extractLsb' 32 32).toNat
      tablesFrom s ctx va fuel p f ++ [⟨ctx, level, levelBase level va, p, f⟩]

/-- Where a walk by a die's walkers begins: below the deepest entry of its walk cache that serves it, else at the root.
Levels to go, place and PFN of the table. -/
def Die.walkFirst (d : Die) (ctx : Nat) (c : Ctx) (va : Word64) : Nat × Nat × Nat :=
  let at_ (level : Nat) : Option WalkEntry :=
    d.walkCache.find? (fun e => e.ctx == ctx && e.level == level && e.base == levelBase level va)
  match at_ 2, at_ 1 with
  | some e, _ => (1, e.place, e.pfn)
  | none, some e => (2, e.place, e.pfn)
  | none, none => (3, c.rootPlace, c.rootPfn)

/-- A walk by a die's walkers. The non-leaf entries it has read are in the walk cache; a new one takes the place of the
one filled longest ago (log 13). -/
def State.walkBy (s : State) (die ctx : Nat) (va : Word64) : WalkResult × State :=
  if !canonical va then (.error 0x01#8, s)
  else match s.ctx ctx with
    | none => (.absent, s)
    | some c =>
      let (n, place, pfn) := (s.die die).walkFirst ctx c va
      (walkFrom s c.glob va n place pfn,
        match tablesFrom s ctx va n place pfn with
        | [] => s
        | es => s.modDie die (fun d => { d with walkCache := (es ++ d.walkCache).take Config.walkCache }))

/-! ## TLBs (R75, R79) -/

def Leaf.covers (l : Leaf) (va : Word64) : Bool :=
  va &&& ~~~(BitVec.ofNat 64 (leafSize l.level - 1)) == l.base

/-- Whether an entry serves a context: its own, or a global leaf that the context reaches by one too. -/
def tlbServes (s : State) (ctx : Nat) (va : Word64) (e : TlbEntry) : Bool :=
  e.leaf.covers va && (e.ctx == ctx || (e.leaf.g && match s.walk ctx va with
    | .leaf l => l.g
    | _ => false))

def fillTlb (cap : Nat) (t : List TlbEntry) (e : TlbEntry) : List TlbEntry :=
  (e :: t.filter (fun x => decide (x ≠ e))).take cap

/-- A leaf fills the L1 TLB of a core and the TLB of its cluster. -/
def State.fillTlbs (s : State) (core : Nat) (e : TlbEntry) : State :=
  (s.modCore core (fun c => { c with tlb := fillTlb Config.tlbCore c.tlb e })).modCluster (clusterOfCore core)
    (fun c => { c with tlb := fillTlb Config.tlbCluster c.tlb e })

def sameWalk (x y : Walk) : Bool := x.ctx == y.ctx && x.va.extractLsb' 16 39 == y.va.extractLsb' 16 39

/-- A walk in progress ends: a leaf fills the TLBs of every core that has joined it, and the oldest request in the queue
starts (R80). -/
def State.endWalk (s : State) (die k : Nat) (w : Walk) : WalkResult × State :=
  let s1 := s.modDie die (fun d => { d with
    walks := d.walks.eraseIdx k ++ d.walkQueue.take 1
    walkQueue := d.walkQueue.drop 1 })
  match s1.walkBy die w.ctx w.va with
  | (.leaf l, s2) => (.leaf l, w.cores.foldl (fun s core => s.fillTlbs core ⟨w.ctx, l⟩) s2)
  | r => r

/-- An instruction's walk: it joins a walk in progress for its page, which then ends with it, or is made at once (log
18). -/
def State.walkNow (s : State) (core ctx : Nat) (va : Word64) : WalkResult × State :=
  let die := dieOfCore core
  match (s.die die).walks.zipIdx.find? (fun x => sameWalk x.1 ⟨[], ctx, va⟩) with
  | some (w, k) => s.endWalk die k { w with cores := w.cores ++ [core], va := va }
  | none =>
    match s.walkBy die ctx va with
    | (.leaf l, s1) => (.leaf l, s1.fillTlbs core ⟨ctx, l⟩)
    | r => r

/-- A translation through the cluster's TLB, else by a walk (R79): the drain path and atomics have no L1 TLB of their
own. -/
def State.translateCluster (s : State) (core ctx : Nat) (va : Word64) : WalkResult × State :=
  match (s.cluster (clusterOfCore core)).tlb.find? (tlbServes s ctx va) with
  | some e => (.leaf e.leaf, s)
  | none => s.walkNow core ctx va

/-- A translation through the two TLBs, else by a walk whose leaf fills both (R79). A new entry takes the place of the
one filled longest ago (log 13). -/
def State.translate (s : State) (core ctx : Nat) (va : Word64) : WalkResult × State :=
  match (s.core core).tlb.find? (tlbServes s ctx va) with
  | some e => (.leaf e.leaf, s)
  | none =>
    match (s.cluster (clusterOfCore core)).tlb.find? (tlbServes s ctx va) with
    | some e => (.leaf e.leaf, s.modCore core (fun c => { c with tlb := fillTlb Config.tlbCore c.tlb e }))
    | none => s.walkNow core ctx va

/-- The routed byte an address reaches through a leaf. -/
def Leaf.pByte (l : Leaf) (va : Word64) : Nat := l.pa + va.toNat % leafSize l.level
def Leaf.flat (l : Leaf) (va : Word64) : Nat := flatByte l.place (l.pByte va)
def Leaf.line (l : Leaf) (va : Word64) : LineNo := l.flat va / 128

/-! ## Code frames (R56) -/

/-- A frame's number, and the quarters of 16 KiB it consists of: four in a row, or one on each die (R61). -/
def frameOf (place pa : Nat) : Nat := place * 2 ^ 32 + pa / 65536
def frameQuarters (f : Nat) : List Nat :=
  (List.range 4).map (fun i =>
    if f / 2 ^ 32 = 0 then i * 2 ^ 23 + f % 2 ^ 32 else flatByte (f / 2 ^ 32) (f % 2 ^ 32 * 65536) / 16384 + i)
def inFrame (f b : Nat) : Bool := (frameQuarters f).contains (b / 16384)

/-- Whether a byte lies in a frame marked as code. -/
def State.isCode (s : State) (b : Nat) : Bool := s.codeFrames.any (fun f => inFrame f.1 b)

/-! ## Colours (R74) -/

/-- A translation by the path of a core's memory unit, or by its cluster's drain path (R326). -/
def State.translateBy (s : State) (drain : Bool) (core ctx : Nat) (va : Word64) : WalkResult × State :=
  if drain then s.translateCluster core ctx va else s.translate core ctx va

/-- The colour of a line, by its leaf; reason 0x0D where the colour map cannot be read. The entry is read at its home
through the context's leaf for it, so that a changed entry is seen at once, before the shootdown of its page too (the spec
allows the old colour there as well; DESIGN CHOICE, log 44). -/
def State.colourOf (s : State) (drain : Bool) (core ctx : Nat) (l : Leaf) (va : Word64) : Except Byte Nat :=
  match l.cmode with
  | 0 => .ok 0
  | 1 => .ok l.colour
  | _ =>
    match s.ctx ctx with
    | none => .error 0x0D#8
    | some c =>
      let at_ := c.cmapBase + BitVec.ofNat 64 ((va.extractLsb' 16 39).toNat * 1024 + (va.extractLsb' 7 9).toNat * 2)
      match (s.translateBy drain core ctx at_).1 with
      | .leaf m =>
        if m.r && m.cmode == 0 then .ok (leNat (s.homeBytes (m.flat at_) 2)) else .error 0x0D#8
      | _ => .error 0x0D#8

/-! ## What an access needs (R78) and the faults of an instruction (R77, R81) -/

/-- Permissions an access needs. -/
structure Need where
  r : Bool
  w : Bool
  deriving DecidableEq, Repr

def Need.read : Need := ⟨true, false⟩
def Need.write : Need := ⟨false, true⟩
def Need.both : Need := ⟨true, true⟩

/-- A thread's translated access: its leaf and its line's colour. -/
structure Xlat where
  leaf : Leaf
  colour : Nat
  deriving DecidableEq, Repr

inductive XlatResult where
  | error (reason : Byte)
  | lacksW
  | lacksR
  | absent
  | ok (x : Xlat)
  deriving DecidableEq, Repr

/-- An access to the peer window that cannot be carried: beyond the peer's space, no port, or a port that is down
(R442). -/
def State.peerDead (s : State) (l : LineNo) : Bool :=
  isPeer l && (decide (2 ^ 39 ≤ peerAddr l) || (match tblGet s.fw.peers (peerOf l) with
    | none => true
    | some p => !(tblGetD s.ports p Port.reset).up))

/-- One address: translation, permission, colour. A leaf with X grants no W, and neither does a code frame (R56). -/
def State.xlate (s : State) (core ctx : Nat) (n : Need) (va : Word64) (drain : Bool := false) : XlatResult × State :=
  match s.translateBy drain core ctx va with
  | (.error r, s1) => (.error r, s1)
  | (.absent, s1) => (.absent, s1)
  | (.leaf l, s1) =>
    if n.w && (!l.w || l.x || s1.isCode (l.flat va)) then (.lacksW, s1)
    else if n.r && !l.r then (.lacksR, s1)
    else if s1.peerDead (l.line va) then (.error 0x0C#8, s1)
    else match s1.colourOf drain core ctx l va with
      | .error r => (.error r, s1)
      | .ok k => (.ok ⟨l, k⟩, s1)

/-- Translate the addresses of some threads, lowest first. -/
def State.xlateAll (s : State) (core ctx : Nat) (n : Need) (addr : Tid → Word64) (drain : Bool := false) :
    List Tid → List (Tid × XlatResult) × State
  | [] => ([], s)
  | t :: r =>
    let (x, s1) := s.xlate core ctx n (addr t) drain
    let (xs, s2) := State.xlateAll s1 core ctx n addr drain r
    ((t, x) :: xs, s2)

/-- The threads with a result of one kind. -/
def maskWhere (l : List (Tid × XlatResult)) (p : XlatResult → Bool) : Mask :=
  l.foldl (fun m x => if p x.2 then m ||| bitOf x.1 else m) 0#32

/-- The one fault of R81: the code, the threads, the reason. -/
def xlatFault (n : Need) (l : List (Tid × XlatResult)) : Option (FaultCode × Mask × Byte) :=
  let err := maskWhere l (fun x => match x with
    | .error _ => true
    | _ => false)
  let w := maskWhere l (fun x => x == .lacksW)
  let r := maskWhere l (fun x => x == .lacksR)
  let a := maskWhere l (fun x => x == .absent)
  if err != 0#32 then
    let reason := match l.find? (fun x => match x.2 with
      | .error _ => true
      | _ => false) with
      | some (_, .error k) => k
      | _ => 0#8
    some (if n.w then .pagePermWrite else .pagePermRead, err, reason)
  else if w != 0#32 then some (.pagePermWrite, w, 0#8)
  else if r != 0#32 then some (.pagePermRead, r, 0#8)
  else if a != 0#32 then some (.pageNotPresent, a, 0#8)
  else none

end Sys2Proof.Machine
end

