-- ==== Sys2Proof/Machine/Dugout.lean ====
section
/-! DEFINITION. The Dugout record of a saved block, byte for byte, and its place in the context's area (R369, R381, R428 to
R433). -/

namespace Sys2Proof.Machine

/-- A number made of fields, each with its lowest bit. -/
def fieldsNat (l : List (Nat × Nat)) : Nat := (l.map (fun x => x.1 * 2 ^ x.2)).sum

/-- An option's number, or a default. -/
def codeOr {α : Type} (f : α → Nat) (x : Option α) (d : Nat) : Nat := (x.map f).getD d

/-! ## Threads (R432, R433) -/

/-- `st` and `warg` of a wait. -/
def Wait.code : Wait → Nat × Nat
  | .barrier slot bar ph => (2, fieldsNat [(bar, 0), (slot, 7), (ph.toNat, 9)])
  | .colour c => (3, c)
  | .mwait c pd frame h => (4, fieldsNat [(c, 0), (codeOr (fun n => (PReg.code n).toNat % 256) pd 255, 16), (frame, 24), (h.toNat, 44)])
  | .sleep wk => (5, codeOr (fun n => (PReg.code n).toNat % 256) wk 255)
  | .qpop q sa ok => (6, fieldsNat [(q, 0), ((sa.setWidth 32).toNat, 16), (codeOr (fun n => (PReg.code n).toNat % 256) ok 255, 48)])
  | .tretJoin => (7, 0)
  | .set => (0, 0)

def Thread.record (th : Thread) (inh : Bool) (ev : Option (Wait × Bool)) : List Byte :=
  let (st, warg) := match ev with
    | some (w, _) => w.code
    | none => match th.status with
      | .exited => (1, 0)
      | .parked w => w.code
      | _ => (0, 0)
  let lset (k : Nat) : Nat := if k = 0 then 0 else k.log2
  leBytes 64 (fieldsNat
    [(if st = 0 || st = 1 then 0 else th.pc.toNat, 448), (th.deadline.getD 0, 384), (warg, 320), (th.fdep, 300),
     (th.tdep, 280), ((th.p ||| 0x8000#16).toNat, 256), (st, 252), (th.wakePending.toNat, 251), (ev.isSome.toNat, 250),
     ((ev.map Prod.snd).getD false |>.toNat, 249), (lset (if inh then th.savedLbk else th.lbk), 246),
     (if inh then th.savedLix else th.lix, 241), (if inh then lset th.lbk else 0, 237), (if inh then th.lix else 0, 232),
     (th.held.length, 228)])

def Held.record (h : Held) : List Byte :=
  leBytes 16 (fieldsNat [(h.hzc, 64), (h.handler.toNat, 52), (h.frame, 32), (h.colour, 0)])

def Frame.record (f : Frame) : List Byte := leBytes 16 (fieldsNat [(f.depth, 64), (f.ret.toNat, 0)])

/-- Bytes padded with zeros to a length. -/
def padTo (n : Nat) (l : List Byte) : List Byte := l ++ List.replicate (n - l.length) 0#8

/-! ## Groups (R369, R429, R430) -/

def FEntry.record (b : Block) (e : FEntry) : List Byte :=
  leBytes 16 (fieldsNat [(e.pc.toNat, 64), (b.prio e.pc, 48), (e.mask.toNat, 0)])

def FuncReg.record (f : FuncReg) : List Byte :=
  leBytes 16 (fieldsNat [(f.b.toNat, 64), (f.a.toNat, 32), (f.base, 16), (f.n, 0)])

def Horizons.fields (h : Horizons) (at_ : Nat) : List (Nat × Nat) :=
  [(h.dev, at_ + 192), (h.die, at_ + 128), (h.clus, at_ + 64), (h.core, at_)]

/-- A group's record. -/
def Group.record (g : Group) (b : Block) (grp : Nat) (events : List (Nat × Tid × Wait × Bool)) : List Byte :=
  let ctr (c : OpClass) : Nat := (g.ops.filter (fun o => decide (o.cls = c))).length
  let ev (t : Tid) : Option (Wait × Bool) := (events.find? (fun x => x.1 == grp && x.2.1 == t)).map (fun x => x.2.2)
  let entries (l : List FEntry) : List Byte := padTo 512 (l.flatMap (FEntry.record b))
  leBytes 128 (fieldsNat (g.hz.fields 768 ++ g.ob.fields 512 ++
    [(g.trapBase.toNat, 448), (g.budget, 440), (g.role, 438), (grp, 432), (g.inHandler.toNat, 431),
     (ctr .ld, 422), (ctr .st, 416), (ctr .cp, 410), (ctr .tl, 404)])) ++
  (List.finRange 192).flatMap (fun n => leBytes 8 g.s[n].toNat) ++
  entries (g.frontier b) ++
  padTo 640 (entries (sortBy (entryBefore b) g.saved) ++ leBytes 8 g.trapCause.toNat ++ leBytes 8 g.trapPc.toNat ++ leBytes 8 g.trapMask.toNat ++
    leBytes 8 g.trapAddr.toNat) ++
  padTo 320 ((List.finRange 16).flatMap (fun n => g.f[n].record) ++ leBytes 4 g.chbTol.toNat) ++
  (List.finRange 32).flatMap (fun t =>
    let th := g.thread t
    th.record g.inHandler (ev t) ++ padTo 128 (th.held.flatMap Held.record) ++
      padTo 1024 (th.frames.reverse.flatMap Frame.record)) ++
  ((List.finRange 128).take g.budget).flatMap (fun n =>
    (List.finRange 32).flatMap (fun t => leBytes 4 ((g.thread t).v[n]).toNat)) ++
  padTo (64 * b.lr.chb16) (g.pool.flatMap (fun c => leBytes 4 c.toNat))

/-! ## Remainders, tiles, matrix entries, barriers (R186, R230, R290, R431) -/

def Ctl.plain : Ctl := ⟨15, false, 15, false, .one, 0#4, false, 0#3⟩

/-- An instruction with a command's opcode, variant and modifiers. -/
def CopyCmd.instr (x : CopyCmd) : Instr :=
  let bk : Option BReg := x.bk.bind (fun n => if h : n < 96 then some ⟨n, h⟩ else none)
  match x.kind with
  | .cpy d => .cpy Ctl.plain d .zero 0 0 0 bk
  | .cpyt ty => .cpyt Ctl.plain ty .zero 0 0 0 bk
  | .cpyw ty => .cpyw Ctl.plain ty .zero 0 0 0 bk
  | .cpys dty sty r => .cpys Ctl.plain dty sty r .zero 0 0 0
  | .mcld off h => .mcld Ctl.plain h 0 0 0 off bk

def CopyCmd.isMcld (x : CopyCmd) : Bool :=
  match x.kind with
  | .mcld _ _ => true
  | _ => false

/-- A remainder, and for an MCLD the map of the lines that have not landed. A parked command is state 2. -/
def CopyCmd.record (x : CopyCmd) : List Byte :=
  let w := (encode x.instr).getD 0#96
  let st := match x.state with
    | .parked _ _ => 2
    | _ => 1
  leBytes 64 (fieldsNat [(x.src.toNat, 448), (x.dst.toNat, 384), (x.w0.toNat, 320), (x.w1.toNat, 256),
    (if x.isMcld then 0 else x.next, 224), (x.seq, 192), ((w.extractLsb' 88 8).toNat, 184), ((w.extractLsb' 84 4).toNat, 180),
    ((w.setWidth 16).toNat, 164), (x.bk.getD 127, 157), (x.g.grp, 151), (st, 148)]) ++
  (if x.isMcld then leBytes 64 (((List.range x.units).filter (fun j => !x.landed.contains j)).map (fun j => 2 ^ j)).sum else [])

def TileReg.record (x : TileReg) : List Byte :=
  leBytes 8 (fieldsNat [(x.ty.code.toNat, 52), (x.rows, 42), (x.cols, 32), (x.ng, 0)])

def Request.record (r : Request) : List Byte :=
  let v (n : Nat) : Nat := ((r.val[n]?).getD 0#64).toNat
  leBytes 128 (fieldsNat [(v 0, 960), (v 1, 896), (v 2, 832), (v 3, 768),
    ((((r.posters.map (fun p => p.1.grp)).eraseDups).map (fun n => 2 ^ n)).sum, 704), (r.step, 672), (r.g0.toNat, 656),
    (r.posts, 648), (((encode r.word).getD 0#96).toNat, 544)])

def Barrier.record (x : Barrier) : List Byte :=
  leBytes 16 (fieldsNat [((BitVec.ofInt 32 x.pend).toNat, 96), (x.gen.toNat, 80), (x.ph.toNat, 64), (x.tgt, 32), (x.arr, 0)])

/-! ## The block (R428) -/

/-- Sections one behind the other, each padded to 64 bytes, with the offset of each. -/
def sections (at_ : Nat) : List (List Byte) → List Nat × List Byte
  | [] => ([], [])
  | x :: r =>
    let y := padTo ((x.length + 63) / 64 * 64) x
    let (os, bs) := sections (at_ + y.length) r
    (at_ :: os, y ++ bs)

def Saved.record (v : Saved) (key : BlockKey) : List Byte :=
  let b := v.block
  let shaped := fun (n : TReg) => (v.tiles.find? (fun x => x.1 == n.val)).map Prod.snd
  let tiles := (List.finRange 32).flatMap (fun n => match shaped n with
      | some (x, _) => x.record
      | none => leBytes 8 0) ++ (List.finRange 32).flatMap (fun n => match shaped n with
      | some (_, bs) => bs
      | none => [])
  let bars := (List.range b.cores.length).flatMap (fun slot => (List.range b.lr.nbar).flatMap (fun k =>
    (tblGetD b.bars (slot, k) Barrier.zero).record))
  let groups := v.groups.flatMap (fun g => g.2.record b g.1 v.events)
  let (os, body) := sections (256 + (groups.length + 63) / 64 * 64)
    [bars, v.commands.flatMap CopyCmd.record, tiles, v.requests.flatMap Request.record, v.shares.flatten]
  let o (n : Nat) : Nat := (os[n]?).getD 0
  let size := 256 + (groups.length + 63) / 64 * 64 + body.length
  leBytes 256 (fieldsNat ([(b.lrAddr.toNat, 1984), (b.weight, 1920),
    (((v.groups.filter (fun g => g.2.parked.isSome)).map (fun g => 2 ^ g.1)).sum, 1856), (key.blk, 1824), (key.ctx, 1808),
    (b.gang.isSome.toNat, 1807), (codeOr Prod.snd b.gang 0, 1805), (b.cores.length, 1801), (b.ngroups, 1794),
    (v.commands.length, 1786), (v.requests.length, 1780), (key.lnch, 1760), (size, 1728), (o 0, 1696), (o 1, 1664),
    (o 2, 1632), (o 3, 1600), (o 4, 1568)] ++ b.cores.zipIdx.map (fun c => (c.1, 1528 + 10 * c.2)))) ++
    padTo ((groups.length + 63) / 64 * 64) groups ++ body

/-! ## Bytes that firmware writes, and the Dugout area (R73, R345, R428, R439) -/

/-- Write a byte at its home. -/
def State.homePut (s : State) (b : Nat) (x : Byte) : State :=
  { s with
    mem := s.mem.write b x
    lines := s.lines.map (fun l =>
      if l.1 = b / 128 then
        let sh := 8 * (b % 128)
        (l.1, { l.2 with data := (l.2.data &&& ~~~(255#1024 <<< sh)) ||| (x.setWidth 1024 <<< sh) })
      else l) }

/-- Write bytes at routed addresses. -/
def State.putFlat (place : Nat) : Nat → List Byte → State → State
  | _, [], s => s
  | pa, x :: r, s => State.putFlat place (pa + 1) r (s.homePut (flatByte place pa) x)

/-- Where a record of some bytes begins in the context's area: behind the spill records, first fit (log 33). -/
def State.dugoutPlace (s : State) (ctx size : Nat) : Nat :=
  match s.ctx ctx with
  | none => 0
  | some c =>
    let base := (c.areaPfn * 65536 + 32 * c.thr + 63) / 64 * 64
    let used := (s.saved.filter (fun v => v.1.ctx == ctx)).map (fun v => (v.2.at_, v.2.size))
    let free (a : Nat) : Bool := used.all (fun u => decide (a + size ≤ u.1 ∨ u.1 + u.2 ≤ a))
    let ends := sortBy (fun (x y : Nat) => decide (x ≤ y)) (used.map (fun u => (u.1 + u.2 + 63) / 64 * 64))
    ((base :: ends).find? free).getD base

/-- Keep a saved block and write its record; bytes beyond the area are not written. -/
def State.putSaved (s : State) (key : BlockKey) (v : Saved) : State :=
  let s1 := { s with saved := tblPut s.saved key v }
  match s.ctx key.ctx with
  | none => s1
  | some c =>
    let stop := (c.areaPfn + c.areaSize) * 65536
    State.putFlat c.areaPlace v.at_ ((v.record key).take (stop - v.at_)) s1

/-- An event that reaches threads of a saved block: it is recorded in their thread states (R362, R427, R432). -/
def State.savedEvent (s : State) (key : BlockKey) (grp : Nat) (m : Mask) (ok : Bool) (f : Saved → Saved) : State :=
  match tblGet s.saved key with
  | none => s
  | some v =>
    let evs := match tblGet v.groups grp with
      | none => []
      | some g => (maskTids m).filterMap (fun t => match (g.thread t).status with
        | .parked w => some (grp, t, w, ok)
        | _ => none)
    let v1 := f v
    s.putSaved key { v1 with events := v1.events.filter (fun x => !evs.any (fun y => y.1 == x.1 && y.2.1 == x.2.1)) ++ evs }

end Sys2Proof.Machine
end

