-- ==== Sys2Proof/Machine/Home.lean ====
section
/-! DEFINITION. Lines at their homes and at the gateway caches: leases, completion times, replacement, the request
counters (R87 to R101, R108, R123, R458), the poison of R67 and R411. -/

namespace Sys2Proof.Machine

/-- A lease length by hint; a stream or home read asks for none (R93, R94, R114). -/
def leaseOf : Hint → Option Nat
  | .default | .keep => some Config.leaseDef
  | .short => some Config.leaseShort
  | .long => some Config.leaseLong
  | .stream | .home => none

/-- Bytes of `m` from `x`, the rest from `old`. -/
def mergeLine (old x m : LineBits) : LineBits := (old &&& ~~~m) ||| (x &&& m)
/-- The mask of `n` bytes from `off`, and bytes placed there. -/
def byteMask (off n : Nat) : LineBits := BitVec.ofNat 1024 ((2 ^ (8 * n) - 1) * 2 ^ (8 * off))
def placeBytes (off : Nat) (x : BitVec 128) : LineBits := BitVec.ofNat 1024 (x.toNat * 2 ^ (8 * off))
def fieldOf (x : LineBits) (off n : Nat) : BitVec 128 := BitVec.ofNat 128 (x.toNat / 2 ^ (8 * off) % 2 ^ (8 * n))
def fullMask : LineBits := BitVec.allOnes 1024

/-! ## Counters (R87, R88) -/

/-- A request is accepted at a home slice: from its own die, or from another die's gateway. -/
def State.countHome (s : State) (l : LineNo) (remote : Bool) : State :=
  if isHost l then s
  else s.modDie (homeDie l) (fun d =>
    let d1 := if remote then { d with cntRemoteIn := d.cntRemoteIn + 1#64 } else d
    if isCxl l then { d1 with cntCxl := d1.cntCxl + 1#64 }
    else if remote then d1 else { d1 with cntLocal := d1.cntLocal + 1#64 })

/-- A request of a die's core reaches its gateway cache. -/
def State.countOut (s : State) (die : Nat) : State :=
  s.modDie die (fun d => { d with cntRemoteOut := d.cntRemoteOut + 1#64 })

/-! ## Presence at a home (R90, R91, R123) -/

def sameSet (l m : LineNo) : Bool :=
  !isHost m && homeDie l == homeDie m && homeSlice l == homeSlice m && sliceSet l == sliceSet m

/-- The lines of a line's set. -/
def State.setOf (s : State) (l : LineNo) : List (LineNo × SliceLine) := s.lines.filter (fun x => sameSet l x.1)

/-- The least recently used of some lines. -/
def lruLine (l : List (LineNo × SliceLine)) : Option (LineNo × SliceLine) :=
  l.foldl (fun acc x => match acc with
    | none => some x
    | some y => if x.2.used < y.2.used then some x else some y) none

/-- The way a new line takes: the least recently used of those that may go. Lines with keep stay while any line of the
set has keep clear, and a line whose WL exceeds now stays: none while that leaves no way (R91, R123). -/
def State.victim (s : State) (l : LineNo) : Option (LineNo × SliceLine) :=
  let set := s.setOf l
  let plain := set.filter (fun x => !x.2.keep)
  lruLine ((if plain.isEmpty then set else plain).filter (fun x => decide (x.2.wl ≤ s.now)))

def State.evx (s : State) (l : LineNo) : Nat := tblGetD (s.die (homeDie l)).evx (homeSlice l) 0

/-- A line written back: its bytes, and whether they are poisoned (R67). A clean line has the bytes of its memory, so that
their write changes nothing. -/
def State.writeBack (s : State) (l : LineNo) (x : SliceLine) : State :=
  { s with
    mem := s.mem.writeL (lineByte l) (leBytes 128 x.data.toNat)
    poison := if !x.dirty then s.poison
      else (if s.poison.isEmpty then [] else s.poison.filter (fun p => decide (p ≠ .byte (lineByte l))))
        ++ (if x.poison then [.byte (lineByte l)] else []) }

/-- Evict a line (R91). -/
def State.evict (s : State) (l : LineNo) (x : SliceLine) : State :=
  let s1 := (s.writeBack l x).modDie (homeDie l) (fun d =>
    { d with evx := tblPut d.evx (homeSlice l) (max (tblGetD d.evx (homeSlice l) 0) x.lx) })
  { s1 with lines := tblDel s1.lines l }

/-- A line as it comes from memory, with LX = EVX (R91); `bad` is an error found in the fill (R67). -/
def State.fromMemory (s : State) (l : LineNo) (bad : Bool) : SliceLine :=
  { data := leBits 1024 (s.mem.readN (lineByte l) 128)
    lx := if isHost l then 0 else s.evx l
    wl := 0
    keep := false
    dirty := false
    used := s.now
    poison := bad || s.poison.contains (.byte (lineByte l)) }

/-- Bring a line to its home: none where no way can be freed yet. Host lines have no sets (R108). -/
def State.bringIn (s : State) (l : LineNo) (bad : Bool) : Option State :=
  if (tblGet s.lines l).isSome then some s
  else if isHost l || decide ((s.setOf l).length < Config.sliceWays) then
    some { s with lines := tblPut s.lines l (s.fromMemory l bad) }
  else match s.victim l with
    | none => none
    | some (v, x) =>
      let s1 := s.evict v x
      some { s1 with lines := tblPut s1.lines l (s1.fromMemory l bad) }

/-! ## Reads and writes at a home (R92 to R96) -/

def State.modLine (s : State) (l : LineNo) (f : SliceLine → SliceLine) : State :=
  { s with lines := tblMod s.lines l f }

/-- Set keep unless eight ways of the set have it (R91). -/
def State.setKeep (s : State) (l : LineNo) : State :=
  if 8 ≤ ((s.setOf l).filter (fun x => x.2.keep)).length then s else s.modLine l (fun x => { x with keep := true })

/-- A lease of `n` ticks taken now (R94). -/
def State.grantLease (s : State) (l : LineNo) (n : Nat) : Nat × State :=
  (s.now + n, s.modLine l (fun x => { x with lx := max x.lx (s.now + n), used := s.now }))

/-- The WL and the poison of a line at its home. -/
def State.wlOf (s : State) (l : LineNo) : Nat :=
  match tblGet s.lines l with
  | some x => x.wl
  | none => 0
def State.linePoisoned (s : State) (l : LineNo) : Bool :=
  match tblGet s.lines l with
  | some x => x.poison
  | none => s.poison.contains (.byte (lineByte l))

/-- A slice's miss entries in use. -/
def State.missCount (s : State) (l : LineNo) : Nat :=
  (s.misses.filter (fun m => homeDie m.1 == homeDie l && homeSlice m.1 == homeSlice l)).length

/-- Whether an access that no message carries can be made at a line's home now: the line is there, and no request for it
waits (R92, R143). If it is not, its fill is asked for, in a miss entry of its slice where one is free. -/
def State.ready (s : State) (l : LineNo) : Bool × State :=
  if (tblGet s.misses l).isSome then (false, s)
  else if isHost l || (tblGet s.lines l).isSome then (true, s)
  else if s.missCount l < Config.missEntries then (false, { s with misses := tblPut s.misses l ⟨[], none⟩ })
  else (false, s)

/-- Apply a store at its home: W = max(A, L) + ε, never below an earlier W of the line (R95, R96, R105). The line is
there; a line of host memory is taken into the agent, but a home-only store goes past an agent that does not hold it
(R65, R108). -/
def State.applyStore (s : State) (l : LineNo) (data mask : LineBits) (l0 keep poison : Bool) : Nat × State :=
  if isHost l && l0 && (tblGet s.lines l).isNone then
    (s.now + Config.epsilon,
      { s with mem := s.mem.writeL (lineByte l) (leBytes 128 (mergeLine (s.lineData l) data mask).toNat) })
  else
    let x := (tblGet s.lines l).getD (s.fromMemory l false)
    let w := max (max s.now (if l0 then 0 else x.lx) + Config.epsilon) x.wl
    let s2 := { s with lines := tblPut s.lines l { x with
      data := mergeLine x.data data mask
      wl := w
      dirty := true
      used := s.now
      poison := poison || (x.poison && mask != fullMask) } }
    (w, if keep then s2.setKeep l else s2)

/-! ## Membership of record regions (R155, R156). Each die's 48 slices, its three gateway caches and its own controller
know a region by the last change they have acknowledged (R169). -/

def regionUnits : Nat := 208
def sliceUnit (l : LineNo) : Nat := homeDie l * 52 + homeSlice l
def gatewayUnit (die toward : Nat) : Nat := die * 52 + 48 + (toward + 3 - die) % 4
def dieUnit (die : Nat) : Nat := die * 52 + 51

def Region.view (r : Region) (unit : Nat) : Nat := tblGetD r.views unit 0

/-- The region of a context that a line belongs to and that a unit has open. -/
def State.regionAt (s : State) (unit ctx : Nat) (l : LineNo) : Option (Nat × Region) :=
  match s.ctx ctx with
  | none => none
  | some c => c.regions.find? (fun r => r.2.view unit != 0 && r.2.frames.any (fun f => inFrame f (lineByte l)))

/-- A gateway cache does not serve a context's reads of its recorded lines from its copy (R161). -/
def State.gwBypass (s : State) (ctx die : Nat) (l : LineNo) : Bool :=
  let unit := gatewayUnit die (homeDie l)
  match s.regionAt unit ctx l with
  | none => false
  | some (_, r) => r.view unit == 1 || r.view unit == 2

/-! ## Gateway caches (R98 to R101, R458) -/

def State.gw (s : State) (die : Nat) (l : LineNo) : GwLine := tblGetD s.gateways (die, l) GwLine.empty
def State.putGw (s : State) (die : Nat) (l : LineNo) (x : GwLine) : State :=
  { s with gateways := tblPut s.gateways (die, l) x }

def gwSameSet (die : Nat) (l : LineNo) (k : Nat × LineNo) : Bool :=
  k.1 == die && homeDie k.2 == homeDie l && gatewaySet k.2 == gatewaySet l

/-- Its eviction register toward a die. -/
def State.gwEvx (s : State) (die : Nat) (l : LineNo) : Nat := tblGetD (s.die die).gwEvx (homeDie l) 0

/-- Make room for a line: evict, with all its forwards returned, the line used longest ago (R101). -/
def State.gwRoom (s : State) (die : Nat) (l : LineNo) : State :=
  if (tblGet s.gateways (die, l)).isSome then s
  else
    let set := s.gateways.filter (fun x => gwSameSet die l x.1)
    if set.length < Config.sliceWays then s
    else
      let free := set.filter (fun x => x.2.fwds.isEmpty && x.2.waiting.isEmpty && !x.2.renewing)
      match free.foldl (fun (acc : Option ((Nat × LineNo) × GwLine)) x => match acc with
        | none => some x
        | some y => if x.2.used < y.2.used then some x else some y) none with
      | none => s
      | some (k, x) =>
        ({ s with gateways := tblDel s.gateways k }).modDie die (fun d =>
          { d with gwEvx := tblPut d.gwEvx (homeDie l) (max (tblGetD d.gwEvx (homeDie l) 0) x.lxg) })

/-- Whether a line has an entry of a gateway cache, or one can be made. -/
def State.gwHasRoom (s : State) (die : Nat) (l : LineNo) : Bool :=
  (tblGet s.gateways (die, l)).isSome ||
  (let set := s.gateways.filter (fun x => gwSameSet die l x.1)
   decide (set.length < Config.sliceWays) ||
   set.any (fun x => x.2.fwds.isEmpty && x.2.waiting.isEmpty && !x.2.renewing))

/-- The line, or a new one whose LXg is the eviction register. -/
def State.gwOpen (s : State) (die : Nat) (l : LineNo) : GwLine × State :=
  let s1 := s.gwRoom die l
  match tblGet s1.gateways (die, l) with
  | some x => (x, s1)
  | none => ({ GwLine.empty with lxg := s1.gwEvx die l }, s1)

/-- Usable while the gateway's now is below Xg − ε (R99). -/
def GwLine.usable (x : GwLine) (now : Nat) : Bool := x.copy && decide (now + Config.epsilon < x.xg)

/-- The bytes of forwarded stores whose times have not returned. -/
def GwLine.pending (x : GwLine) : LineBits := x.fwds.foldl (fun m f => m ||| f.mask) 0#1024

/-- The observation of bytes with one time at every scope (R124). -/
def deviceObs (wl : Nat) : ObsInfo := [⟨fullMask, ⟨wl, wl, wl, wl⟩, none⟩]
def noObs : ObsInfo := []

/-- The bytes that each forward was the last to write. -/
def lastBytes : List Forward → List (Forward × LineBits)
  | [] => []
  | f :: r => (f, f.mask &&& ~~~(r.foldl (fun m g => m ||| g.mask) 0#1024)) :: lastBytes r

/-- What serving a line from a gateway observes (R124): of the bytes whose forwards have all returned the W_dev known, of
the others W_die, until their W_dev returns. -/
def GwLine.obs (x : GwLine) (die : Nat) (l : LineNo) : ObsInfo :=
  ⟨~~~x.pending, ⟨x.wdev, x.wdev, x.wdev, x.wdev⟩, none⟩ ::
    ((lastBytes x.fwds).filter (fun f => f.2 != 0#1024)).map (fun f =>
      ⟨f.2, ⟨f.1.wdie, f.1.wdie, f.1.wdie, 0⟩, some (.gateway die l f.1.id)⟩)

/-- End the use of a gateway cache's copy, and of what a renewal under way will bring. -/
def State.endGateway (s : State) (die : Nat) (l : LineNo) : State :=
  match tblGet s.gateways (die, l) with
  | none => s
  | some x => s.putGw die l { x with copy := false, stale := x.stale || x.renewing }

/-- Whether an access that no message carries can pass a die's gateway cache now: behind its forwards for the line (R101,
R458). -/
def State.gwPasses (s : State) (die : Nat) (l : LineNo) : Bool :=
  isHost l || homeDie l == die || (s.gw die l).fwds.isEmpty

end Sys2Proof.Machine
end

