-- ==== Sys2Proof/Machine/Scratch.lean ====
section
/-! DEFINITION. Scratchpad addresses and their checks, LDX and STX, and the named barriers (R180 to R191). -/

namespace Sys2Proof.Machine

/-- An instruction that waits: its entry stays at its PC under a hold (R371). -/
def Iss.hold (e : Iss) (c : Ctl) (k : HoldKind) : Out :=
  .next (e.s.setGroup e.r { e.g with
    holds := e.g.holds ++ [⟨e.mask, e.pc, k⟩]
    stallUntil := e.s.now + ticksOfCycles c.stall.toNat })

/-- The faults of the threads that fail the first row that any thread fails, with the lowest one's address. -/
def firstRow (act : Mask) (rows : List (FaultCode × (Tid → Bool))) (addr : Tid → Word64) :
    Option (FaultCode × Mask × Word64) :=
  match rows with
  | [] => none
  | (code, bad) :: r =>
    let m := maskOf (fun t => act.getLsbD t.val && bad t)
    match maskTids m with
    | [] => firstRow act r addr
    | t :: _ => some (code, m, addr t)

/-! ## Addresses (R180) -/

/-- Where an address of a group leads. -/
def scratchAt (r : GroupRef) (slot : Nat) (a : Word64) : ScratchAt :=
  if !a.getLsbD 31 then
    let off := (a.setWidth 31).toNat
    if 0x7FFFF000 ≤ off ∧ off < 0x7FFFF600 then .window slot ((off - 0x7FFFF000) / 16) (off % 16)
    else .bytes r.key slot off false
  else
    .bytes (if a.getLsbD 30 then { r.key with blk := (a >>> 32).toNat } else r.key)
      (a.extractLsb' 28 2).toNat (a.setWidth 21).toNat true

/-- The reserved bits of a slot form. -/
def scratchReserved (a : Word64) : Bool := a.getLsbD 31 && a.extractLsb' 21 7 != 0#7

/-- Row 2 of R181: the range of the share, the slot, the window. All blocks of a launch have shares of one size. -/
def scratchBad (b : Block) (ldx : Bool) (n : Nat) (a : Word64) (w : ScratchAt) : Bool :=
  scratchReserved a ||
  (match w with
   | .bytes _ slot off _ => decide (b.cores.length ≤ slot) || decide (b.share < off + n)
   | .window _ bar _ => !ldx || decide (n < 4) || decide (b.lr.nbar ≤ bar))

/-- Row 3 of R181. -/
def scratchGone (s : State) (core : Nat) (w : ScratchAt) : Bool :=
  match w with
  | .window _ _ _ => false
  | .bytes key slot _ peer =>
    peer && (match s.block key with
      | none => true
      | some b => b.cores.all (fun c => clusterOfCore c != clusterOfCore core) || decide (b.cores.length ≤ slot))

/-- The three rows of R181 for accesses of `n` bytes at `addr`, aligned to `align`. -/
def scratchFault (e : Iss) (b : Block) (ldx : Bool) (align n : Nat) (act : Mask) (addr : Tid → Word64) :
    Option (FaultCode × Mask × Word64) :=
  let at_ (t : Tid) := scratchAt e.r e.g.slot (addr t)
  firstRow act
    [(.misaligned, fun t => (addr t).toNat % align != 0),
     (.scratchRange, fun t => scratchBad b ldx n (addr t) (at_ t)),
     (.peerGone, fun t => scratchGone e.s e.g.core (at_ t))] addr

/-! ## Bytes -/

/-- The list's number for byte `off` of a slot's share (R176, R177). -/
def shareKey (b : Block) (slot off : Nat) : Nat :=
  sramKey ((b.cores[slot]?).getD 0) ((b.shares[slot]?).getD 0 + off / 4096) (off % 4096)

def State.spRead (s : State) (b : Block) (slot off : Nat) : Nat → List Byte
  | 0 => []
  | n + 1 => s.mem.read (shareKey b slot off) :: State.spRead s b slot (off + 1) n

/-- Write bytes of a share; a byte written is no longer poisoned (R411). -/
def State.spWrite (s : State) (b : Block) (slot off : Nat) : List Byte → State
  | [] => s
  | x :: r =>
    let k := shareKey b slot off
    State.spWrite { s with
      mem := s.mem.write k x
      poison := if s.poison.isEmpty then [] else s.poison.filter (fun p => decide (p ≠ .byte k)) } b slot (off + 1) r

def State.spPoisoned (s : State) (b : Block) (slot off : Nat) : Nat → Bool
  | 0 => false
  | n + 1 => s.poison.contains (.byte (shareKey b slot off)) || State.spPoisoned s b slot (off + 1) n

/-- A barrier's 128 bits (R186). -/
def Barrier.bits (x : Barrier) : BitVec 128 :=
  BitVec.ofInt 32 x.pend ++ x.gen ++ 0#15 ++ BitVec.ofBool x.ph ++ (0#20 ++ BitVec.ofNat 12 x.tgt) ++
    (0#20 ++ BitVec.ofNat 12 x.arr)

def Block.bar (b : Block) (slot k : Nat) : Barrier := tblGetD b.bars (slot, k) Barrier.zero

/-- What a scratchpad read finds: the value and whether it is poisoned; none where the block has gone. -/
def State.scratchValue (s : State) (key : BlockKey) (at_ : ScratchAt) (n : Nat) : Option (BitVec 128 × Bool) :=
  match at_ with
  | .bytes k slot off _ =>
    (s.block k).map (fun b => (leBits 128 (s.spRead b slot off n), s.spPoisoned b slot off n))
  | .window slot bar off =>
    (s.block key).map (fun b =>
      (BitVec.ushiftRight (b.bar slot bar).bits (8 * off), s.poison.contains (.barrier key slot bar)))

/-! ## LDX and STX (R183, R184): the accesses go to the banks in the order of their lane (R134, R182) -/

def scratchChan (g : Group) : Chan := ⟨.scratch, g.core, g.lane⟩

/-- Issue the accesses of one LDX or STX. -/
def issueScratch (c : Ctl) (e : Iss) (load : Bool) (parts : List ScratchPart) (dests : List RegRef) : Out :=
  if e.act = 0#32 then .next (e.retire c e.g)
  else
    let s1 := e.retire c e.g
    let (id, s2) := s1.issueOp e.r (fun id =>
      { id := id, cls := if load then .ld else .st, kind := .scratch, pc := e.pc, act := e.act, parts := 1,
        dests := dests, clobbered := [], ext := false, cols := [] })
    .next (s2.send (scratchChan e.g) (.scratch e.r id load parts))

/-- The threads that access: each of ACTIVE, or one access of the group (R182). -/
def accessTids (vec : Bool) (act : Mask) : List Tid := if vec then maskTids act else (maskTids act).take 1

/-- LDX and STX with their checks. `val` is what a thread stores. -/
def scratchAccess (c : Ctl) (vec load : Bool) (ty : Ty) (m : Addr) (d : Dst) (val : Iss → Tid → BitVec 128)
    (s : State) : Out :=
  begin_ c s (fun e =>
    match e.s.block e.r.key with
    | none => .next e.s
    | some b =>
      let n := ty.width / 8
      let addr (t : Tid) := Operand.addr e 32 t m
      let act := if vec then e.act else maskOf (fun t => (accessTids false e.act).contains t)
      match scratchFault e b load n n act addr with
      | some (code, bad, a) => e.fault code (if vec then bad else e.act) a
      | none =>
        let ts := accessTids vec e.act
        issueScratch c e load
          (ts.map (fun t => ⟨scratchAt e.r e.g.slot (addr t), addr t, if vec then some t else none, n, d, ty, val e t⟩))
          (if load then ts.flatMap (fun t => Dst.regs ty d t) else []))

def execLdx (c : Ctl) (_h : Hint) (ty : Ty) (d : Dst) (m : Addr) (s : State) : Out :=
  scratchAccess c (d.isVec || m.base.isVec || m.idx.isVec) true ty m d (fun _ _ => 0#128) s

/-- The bytes a store takes from its source: a special operand supplies its value (R111). -/
def storeValue (e : Iss) (ty : Ty) (t : Tid) (x : Src) : BitVec 128 :=
  if ty = .b128 then Operand.src128 (e.nth 2) t x else (Operand.src (e.nth 2) ty.bits t x).setWidth 128

def execStx (c : Ctl) (_h : Hint) (ty : Ty) (m : Addr) (val : Src) (s : State) : Out :=
  scratchAccess c (val.isVec || m.base.isVec || m.idx.isVec) false ty m .zero (fun e t => storeValue e ty t val) s

/-- The threads that an access concerns: its own, or the group's. -/
def ScratchPart.unit (p : ScratchPart) : Mask := (p.who.map bitOf).getD 0xFFFFFFFF#32

/-- The fault that the accesses of an instruction meet at the banks: PEER_GONE before a poisoned word. -/
def State.bankFault (s : State) (r : GroupRef) (load : Bool) (parts : List ScratchPart) :
    Option (FaultCode × List ScratchPart) :=
  let found (p : ScratchPart) := s.scratchValue r.key p.at_ p.n
  match parts.filter (fun p => (found p).isNone), parts.filter (fun p => load && (found p).any Prod.snd) with
  | [], [] => none
  | [], bad => some (.eccUncorrectable, bad)
  | gone, _ => some (.peerGone, gone)

/-- The accesses of one instruction are performed, lowest thread first: `f` does one, for the threads outside the sets
that the fault names (R253). -/
def State.perform (s : State) (r : GroupRef) (op : Nat) (load : Bool) (parts : List ScratchPart)
    (f : ScratchPart → State → State) : State :=
  match s.group r with
  | none => s
  | some g =>
    let o := g.ops.find? (fun o => o.id == op)
    match s.bankFault r load parts with
    | none => (parts.foldl (fun s p => f p s) s).opPart r op
    | some (code, bad) =>
      let lost := g.wholeSets (bad.foldl (fun m p => m ||| p.unit) 0#32)
      (((parts.filter (fun p => p.unit &&& lost == 0#32)).foldl (fun s p => f p s) s).opPart r op).raiseLater r
        { code := code, mask := lost &&& (o.map Op.act).getD 0#32, addr := ((bad.head?).map ScratchPart.addr).getD 0#64
          pc := (o.map Op.pc).getD 0#64 }

/-- The accesses of one LDX (R124, R184). -/
def performLdx (s : State) (r : GroupRef) (op : Nat) (parts : List ScratchPart) : State :=
  s.perform r op true parts (fun p s => match s.scratchValue r.key p.at_ p.n with
    | some (v, _) => s.modGroup r (fun g => g.deposit op p.ty p.dst (p.who.getD 0) v)
    | none => s)

/-- Write the bytes of an access. -/
def State.scratchPut (s : State) (at_ : ScratchAt) (bs : List Byte) : State :=
  match at_ with
  | .window _ _ _ => s
  | .bytes k slot off _ => match s.block k with
    | none => s
    | some b => s.spWrite b slot off bs

/-- The accesses of one STX: of two that write a byte, the highest thread's remains (R184). -/
def performStx (s : State) (r : GroupRef) (op : Nat) (parts : List ScratchPart) : State :=
  s.perform r op false parts (fun p s => s.scratchPut p.at_ (leBytes p.n p.data.toNat))

/-! ## Named barriers (R186, R189) -/

/-- Check a barrier for completion after an operation on it: whether the phase ended, and the state. -/
def Barrier.check (x : Barrier) : Bool × Barrier :=
  if 1 ≤ x.tgt ∧ x.arr = x.tgt ∧ x.pend = 0 then
    (true, { x with ph := !x.ph, gen := x.gen + 1#16, arr := 0 })
  else (false, x)

/-- Release every thread of a group that is parked on a phase of a slot's barrier (R186). -/
def Group.releaseBar (g : Group) (slot bar : Nat) (ph : Bool) : Group :=
  (List.finRange 32).foldl (fun g t =>
    if (g.thread t).status == .parked (.barrier slot bar ph) then g.release t (g.thread t).pc else g) g

/-- Store a barrier's state after an operation, with what a completion does (R186). -/
def State.putBar (s : State) (key : BlockKey) (slot bar : Nat) (x : Barrier) : State :=
  let (done, y) := x.check
  let s1 := s.modBlock key (fun b => { b with bars := tblPut b.bars (slot, bar) y })
  if done then
    { s1 with groups := s1.groups.map (fun e =>
        if e.1.key = key then (e.1, e.2.releaseBar slot bar x.ph) else e) }
  else s1

/-- Bytes written by a copy, an MCLD or a drain are counted into a barrier (R185, R189): a fault where pend would pass
−2^31, and where the barrier's block has gone (R191). -/
def State.countBytes (s : State) (key : BlockKey) (slot bar n : Nat) : Except FaultCode State :=
  match s.block key with
  | none => .error .peerGone
  | some b =>
    let x := b.bar slot bar
    if x.pend - n < -(2 ^ 31) then .error .barrierOverflow else .ok (s.putBar key slot bar { x with pend := x.pend - n })

/-- The number of threads of a mask. -/
def maskCount (m : Mask) : Nat := (maskTids m).length

/-- What the barrier instructions share (R41, R185, R188, R411): the slot they name and the declared barriers. -/
def barOp (c : Ctl) (sl : Option (Fin 4)) (k : BReg) (f : Iss → Block → Nat → Barrier → Out) (s : State) : Out :=
  begin_ c s (fun e =>
    if e.act = 0#32 then .next (e.retire c e.g)
    else
      match e.s.block e.r.key with
      | none => .next e.s
      | some b =>
        let slot := match sl with
          | none => e.g.slot
          | some n => n.val
        if b.cores.length ≤ slot || b.lr.nbar ≤ k.val then e.fault .scratchRange e.act
        else if e.s.poison.contains (.barrier e.r.key slot k.val) then e.fault .eccUncorrectable e.act
        else f e b slot (b.bar slot k.val))

/-- Park the threads of ACTIVE on a phase; they go on at the next slot. -/
def parkOnBar (e : Iss) (g : Group) (act : Mask) (slot : Nat) (k : BReg) (ph : Bool) (pc : Word64) : Group :=
  (maskTids act).foldl (fun g t => g.park t e.s.now (.barrier slot k.val ph) none (nextSlot pc)) g

def execBari (c : Ctl) (k : BReg) (cnt : SImm 12) (s : State) : Out :=
  barOp c none k (fun e _ slot x =>
    let v := (Operand.simm e cnt).toNat
    if v < 1 || 2048 < v then e.fault .barrierOverflow e.act
    else .next ((e.retire c e.g).putBar e.r.key slot k.val { x with tgt := v, arr := 0, pend := 0 })) s

/-- The group's scratchpad accesses that have not been performed (R190). -/
def Group.banks (g : Group) : List Nat := (g.ops.filter (fun o => o.kind == .scratch)).map Op.id

/-- An arrival of the threads of `act`, once the accesses before it have been performed: also the wait of BARAW. The
entry's threads go on. -/
def arrive (s : State) (r : GroupRef) (mask act : Mask) (pc : Word64) (slot : Nat) (k : BReg) (await : Bool) : State :=
  match s.block r.key, s.group r with
  | some b, some g =>
    let x := b.bar slot k.val
    if x.tgt = 0 || x.tgt < x.arr + maskCount act then
      s.raise r ⟨pc, mask⟩ { code := .barrierOverflow, mask := act, pc := pc }
    else
      let g1 := g.advance mask pc
      let g2 := if await then
          (maskTids act).foldl (fun g t => g.park t s.now (.barrier slot k.val x.ph) none (nextSlot pc)) g1
        else g1
      (s.setGroup r g2).putBar r.key slot k.val { x with arr := x.arr + maskCount act }
  | _, _ => s

/-- BARA and BARAW: at once, or behind the group's earlier scratchpad accesses (R190). -/
def arriveWith (c : Ctl) (e : Iss) (slot : Nat) (k : BReg) (await : Bool) : Out :=
  match e.g.banks with
  | [] => .next (arrive (e.retireWith c e.s e.g e.mask) e.r e.mask e.act e.pc slot k await)
  | ids => e.hold c (.arrive ids slot k await e.act)

def execBara (c : Ctl) (sl : Option (Fin 4)) (k : BReg) (s : State) : Out :=
  barOp c sl k (fun e _ slot _ => arriveWith c e slot k false) s
def execBaraw (c : Ctl) (k : BReg) (s : State) : Out :=
  barOp c none k (fun e _ slot _ => arriveWith c e slot k true) s

/-- A phase operand: bit 0. -/
def phaseOf (e : Iss) (ph : SImm 1) : Bool := (Operand.simm e ph).getLsbD 0

def execBarw (c : Ctl) (k : BReg) (ph : SImm 1) (s : State) : Out :=
  barOp c none k (fun e _ slot x =>
    if x.ph != phaseOf e ph then .next (e.retire c e.g)
    else .next (e.retire c (parkOnBar e e.g e.act slot k x.ph e.pc))) s

def execBarx (c : Ctl) (sl : Option (Fin 4)) (k : BReg) (bytes : SImm 16) (s : State) : Out :=
  barOp c sl k (fun e _ slot x =>
    let v : Int := (Operand.simm e bytes).toNat
    if 2 ^ 31 - 1 < x.pend + v then e.fault .barrierOverflow e.act
    else .next ((e.retire c e.g).putBar e.r.key slot k.val { x with pend := x.pend + v })) s

def execBart (c : Ctl) (d : DstP) (k : BReg) (ph : SImm 1) (s : State) : Out :=
  barOp c none k (fun e _ _ x =>
    .next (e.retire c (e.perForm d.isVec (fun t g => g.writeDP .b64 d t (boolWord (x.ph != phaseOf e ph)))))) s

def execBarl (c : Ctl) (sl : Option (Fin 4)) (k : BReg) (s : State) : Out :=
  barOp c sl k (fun e _ slot x =>
    let a := maskCount e.act
    if x.tgt < a || x.tgt - a < x.arr then e.fault .barrierOverflow e.act
    else .next ((e.retire c e.g).putBar e.r.key slot k.val { x with tgt := x.tgt - a })) s

end Sys2Proof.Machine
end

