-- ==== Sys2Proof/Machine/Record.lean ====
section
/-! DEFINITION. Record mode: recorders, pushes, departures and the region instructions (R155 to R175). -/

namespace Sys2Proof.Machine

/-! ## Regions by context -/

def Ctx.region (c : Ctx) (n : Nat) : Region := tblGetD c.regions n Region.closed
def State.region (s : State) (ctx n : Nat) : Region :=
  match s.ctx ctx with
  | some c => c.region n
  | none => Region.closed
def State.modRegion (s : State) (ctx n : Nat) (f : Region → Region) : State :=
  s.modCtx ctx (fun c => { c with regions := tblPut c.regions n (f (c.region n)) })

/-- Add to one die's entry of a list of four. -/
def bumpDie (l : List Nat) (die : Nat) : List Nat :=
  l.zipIdx.map (fun x => if x.2 = die then x.1 + 1 else x.1)

/-- Change what a slice has counted of a region. -/
def State.countRegion (s : State) (ctx n unit : Nat) (f : RegionCount → RegionCount) : State :=
  s.modRegion ctx n (fun r => { r with counts := tblPut r.counts unit (f (tblGetD r.counts unit {})) })

/-- Tell every slice, gateway cache and die of a region's new state (R169). -/
def State.broadcast (s : State) (ctx n state : Nat) (c : Change) : Nat × State :=
  let (id, s1) := s.freshId
  (id, (List.range regionUnits).foldl (fun s unit => s.send ⟨.control, 100000 + ctx, 3000 + unit⟩ (.region ctx n state id))
    { s1 with changes := tblPut s1.changes id { c with ctx := ctx, region := n, left := regionUnits } })

def Change.plain : Change := { ctx := 0, region := 0, left := 0 }

/-- A die's count has passed the threshold and the controller has not yet recorded the fall-back (R168). -/
def Region.reports (r : Region) (die : Nat) : Bool :=
  r.state == 2 && decide (r.dep < (r.departures[die]?).getD 0)

/-- The controller records a fall-back (R168). -/
def State.fallBack (s : State) (ctx n die : Nat) : State :=
  ((s.modRegion ctx n (fun r => { r with state := 3, dmask := r.dmask ||| (1#4 <<< die) })).broadcast ctx n 3 .plain).2

/-- A departure on a die (R166). -/
def State.depart (s : State) (ctx n die : Nat) : State :=
  s.modRegion ctx n (fun r => { r with departures := bumpDie r.departures die })

/-- A pushed copy leaves an L1 of a die unrequested: a departure while the die knows the region as replaying. Where it
passes the threshold the controller has recorded the fall-back before the eviction is complete (R166, R168). -/
def State.departCopy (s : State) (die : Nat) : Option (Nat × Nat) → State
  | none => s
  | some (ctx, n) =>
    if (s.region ctx n).view (dieUnit die) != 2 then s
    else
      let s1 := s.depart ctx n die
      if (s1.region ctx n).reports die then s1.fallBack ctx n die else s1

/-! ## The recorder (R157 to R160, R166) -/

def State.entryOf (s : State) (ctx : Nat) (l : LineNo) : Option RecEntry :=
  s.recorder.find? (fun e => e.ctx == ctx && e.line == l)

def State.putEntry (s : State) (x : RecEntry) : State :=
  { s with recorder := s.recorder.map (fun e => if e.ctx = x.ctx ∧ e.line = x.line then x else e) }

def sameSlice (l m : LineNo) : Bool := homeDie l == homeDie m && homeSlice l == homeSlice m

/-- A consuming read at the home: recorded, or counted as a departure (R160, R166). -/
def State.consume (s : State) (ctx : Nat) (l : LineNo) (who : BlockSlot) : State :=
  let unit := sliceUnit l
  match s.regionAt unit ctx l with
  | none => s
  | some (n, r) =>
    let e := s.entryOf ctx l
    if r.view unit = 1 then
      match e with
      | none => s
      | some x =>
        if x.prod = who || x.cons.contains who then s
        else if x.cons.length < 4 then s.putEntry { x with cons := x.cons ++ [who] }
        else s.countRegion ctx n unit (fun c => { c with drop := c.drop + 1 })
    else if r.view unit = 2 then
      match e with
      | some x => if x.prod = who || x.cons.contains who then s else s.depart ctx n (homeDie l)
      | none => s.depart ctx n (homeDie l)
    else s

/-- A producing store while its region records (R160). -/
def State.recordStore (s : State) (ctx n : Nat) (l : LineNo) (who : BlockSlot) : State :=
  match s.entryOf ctx l with
  | none =>
    if Config.recorderEntries ≤ (s.recorder.filter (fun e => sameSlice e.line l)).length then
      s.countRegion ctx n (sliceUnit l) (fun c => { c with drop := c.drop + 1 })
    else { s with recorder := s.recorder ++ [⟨false, n, ctx, l, who, []⟩] }
  | some x =>
    if x.prod = who then s
    else if x.cons.isEmpty then s.putEntry { x with prod := who }
    else s.putEntry { x with conf := true }

/-! ## The residency map (R158) -/

/-- The launch of a block: its number in order of acceptance. -/
def State.launchStamp (s : State) (launch : Nat) : Nat :=
  match tblGet s.launches launch with
  | some l => l.stamp
  | none => 0

/-- The block with an index in the most recently accepted launch of the context that has it resident or saved; none
also where that block is saved. -/
def State.residentBlock (s : State) (ctx blk : Nat) : Option (BlockKey × Block) :=
  let here := (s.blocks.filter (fun b => b.1.ctx == ctx && b.1.blk == blk)).map
    (fun (b : BlockKey × Block) => ((s.launchStamp b.2.launch, some b) : Nat × Option (BlockKey × Block)))
  let away := (s.saved.filter (fun b => b.1.ctx == ctx && b.1.blk == blk)).map
    (fun b => ((s.launchStamp b.2.block.launch, none) : Nat × Option (BlockKey × Block)))
  ((here ++ away).foldl (fun (acc : Nat × Option (BlockKey × Block)) x =>
    if acc.1 ≤ x.1 then x else acc) (0, none)).2

/-- The core of a block-slot. -/
def State.coreOf (s : State) (ctx : Nat) (bs : BlockSlot) : Option Nat :=
  match s.residentBlock ctx bs.blk with
  | none => none
  | some (_, b) => b.cores[bs.slot]?

/-! ## Pushes (R162 to R165) -/

/-- Pushes that wait at a slice: its push queue. A push is one entry, and leaves as it goes on to its gateway or its
core (log 41). -/
def State.pushesFrom (s : State) (l : LineNo) : Nat :=
  (s.net.filter (fun m => match m.body with
    | .push p _ => sameSlice p.line l && decide (m.ch.src = portHome p.line)
    | _ => false)).length

/-- A producing store of a replaying region: one push for each consumer, each with a lease from W on; how many are under
way. The queue has room where it can take them all. A push whose consumer is resident nowhere is discarded as it is
sent. -/
def State.pushStore (s : State) (ctx : Nat) (l : LineNo) (colour : Nat) (who : BlockSlot) (w txn : Nat) : Nat × State :=
  let unit := sliceUnit l
  match s.regionAt unit ctx l, s.entryOf ctx l with
  | some (n, r), some x =>
    if r.view unit != 2 || x.prod != who then (0, s)
    else if Config.pushQueue < s.pushesFrom l + x.cons.length then
      (0, s.countRegion ctx n unit (fun c => { c with discarded := c.discarded + x.cons.length }))
    else
      let len := if r.lease = 1 then Config.leaseShort else if r.lease = 2 then Config.leaseLong else Config.leaseDef
      x.cons.foldl (fun (acc : Nat × State) c =>
        let s1 := (acc.2.modLine l (fun y => { y with lx := max y.lx (w + len) })).countRegion ctx n unit
          (fun c => { c with pushed := c.pushed + 1 })
        match s1.coreOf ctx c with
        | none => (acc.1, s1.countRegion ctx n unit (fun c => { c with discarded := c.discarded + 1 }))
        | some core =>
          let p : PushMsg := ⟨l, colour, s1.lineData l, w, len, ctx, n, c, core, txn⟩
          let away := dieOfCore core != homeDie l
          (acc.1 + 1, s1.send ⟨.resp, portHome l, if away then portGateway (dieOfCore core) (homeDie l) else portCore core⟩
            (.push p away))) (0, s)
  | _, _ => (0, s)

/-- What a store from a coalescing buffer means to the recorder: how many acknowledgements its time waits for. -/
def State.produce (s : State) (t : StoreReq) (w : Nat) : Nat × State :=
  match t.slot with
  | none => (0, s)
  | some who =>
    match s.regionAt (sliceUnit t.line) t.ctx t.line with
    | none => (0, s)
    | some (n, r) =>
      if r.view (sliceUnit t.line) = 1 then (0, s.recordStore t.ctx n t.line who)
      else s.pushStore t.ctx t.line t.colour who w t.txn

/-- End the use of the older one of a line's two copies in an L1. -/
def State.dropOlder (s : State) (core : Nat) (l : LineNo) : State :=
  match (tblGet (s.core core).copies l).bind L1Copy.older with
  | none => s
  | some y =>
    (s.modCore core (fun c => { c with copies := tblMod c.copies l (fun x => { x with older := none }) })).departCopy
      (dieOfCore core) y.push

/-- End the use of a line's copies in an L1; a pushed copy that no load has asked for is a departure (R166). -/
def State.dropCopy (s : State) (core : Nat) (l : LineNo) : State :=
  match tblGet (s.core core).copies l with
  | none => s
  | some x =>
    (((s.dropOlder core l).modCore core (fun c => { c with copies := tblDel c.copies l })).departCopy (dieOfCore core)
      x.push)

def State.dropCopies (s : State) (core : Nat) (p : LineNo → L1Copy → Bool) : State :=
  (((s.core core).copies.filter (fun x => p x.1 x.2)).map Prod.fst).foldl (fun s l => s.dropCopy core l) s

/-- Ways of a core's L1: those outside the carve-out (R102, R176). -/
def State.carveWays (s : State) (core : Nat) : Nat :=
  s.blocks.foldl (fun c b => b.2.cores.zipIdx.foldl (fun c k =>
    if k.1 = core then
      let top (g n : Nat) : Nat := if n = 0 then 0 else (g + n - 1) / 8 + 1
      max (max c (top ((b.2.shares[k.2]?).getD 0) ((b.2.share + 4095) / 4096)))
        (s.groups.foldl (fun c g =>
          if g.1.key = b.1 ∧ g.2.core = core then max c (top g.2.poolBase ((4 * g.2.pool.length + 4095) / 4096)) else c) 0)
    else c) c) 0
def State.l1Ways (s : State) (core : Nat) : Nat := 16 - s.carveWays core

/-! ### Victim tags and scores (R407) -/

/-- The tag of a weight-store line. -/
def weightTag (l : Nat) : LineNo := weightKey 0 0 / 128 + l

/-- A line that the L1 has evicted: its tag is the newest of 1,024. -/
def State.evicted (s : State) (core : Nat) (tag : LineNo) : State :=
  s.modCore core (fun c =>
    let tags := c.victims.filter (fun x => x != tag) ++ [tag]
    { c with victims := tags.drop (tags.length - Config.victimTags) })

/-- The window of the scores that device time is in. -/
def State.scoreWindow (s : State) : Nat := s.now * 33 / 10 / Config.scoreCycles

/-- A core's scores in a window: at the end of one its score counts for the next. -/
def Core.rolled (c : Core) (window : Nat) : Core :=
  if window ≤ c.window then c
  else { c with lastScore := if window = c.window + 1 then c.score else 0, score := 0, window := window }

/-- The score of the last window that is over. -/
def State.scoreOf (s : State) (core : Nat) : Nat := ((s.core core).rolled s.scoreWindow).lastScore

/-- A miss of the L1: one that a victim tag names adds to the score. -/
def State.scoreMiss (s : State) (core : Nat) (tag : LineNo) : State :=
  if (s.core core).victims.contains tag then
    s.modCore core (fun c =>
      let c1 := c.rolled s.scoreWindow
      { c1 with score := c1.score + 1 })
  else s

/-- Room for one more line in a set of the L1, which leased, pushed and weight-store lines share (R102): in a full set the
leased or pushed line used longest ago leaves, else the weight-store line that came first (log 13). -/
def State.l1Room (s : State) (core : Nat) (l : Nat) : State :=
  let c := s.core core
  let mine (k : Nat) : Bool := k % 256 == l % 256 && k != l
  let set := c.copies.filter (fun y => mine y.1)
  let ws := c.weights.filter (fun w => mine w.1)
  if set.length + ws.length < s.l1Ways core then s
  else match set.foldl (fun (acc : Option (LineNo × L1Copy)) y => match acc with
      | none => some y
      | some z => if y.2.used < z.2.used then some y else some z) none, ws with
    | some (v, _), _ => (s.dropCopy core v).evicted core v
    | none, w :: _ => (s.modCore core (fun c => { c with weights := tblDel c.weights w.1 })).evicted core (weightTag w.1)
    | none, [] => s

/-- Install a copy. -/
def State.installCopy (s : State) (core : Nat) (l : LineNo) (x : L1Copy) : State :=
  let s1 := (s.dropCopy core l).l1Room core l
  if s.l1Ways core = 0 then s1 else s1.modCore core (fun c => { c with copies := tblPut c.copies l x })

/-- An acknowledgement of a push goes back to the home. -/
def State.ackPush (s : State) (p : PushMsg) (discarded : Bool) : State :=
  s.send ⟨.control, portCore p.core, portHome p.line⟩ (.pushAck p discarded)

/-- PUSH_ARRIVAL (R163). -/
def execPushArrival (m : Nat) (s : State) : Out :=
  match s.deliverable m with
  | some ⟨_, .push p false, _, _⟩ =>
    let s1 := s.take m
    let c := s1.core p.core
    let held := match tblGet c.copies p.line with
      | some x => decide (p.w ≤ x.wl)
      | none => false
    if Config.landing ≤ c.landing.length || s1.coreOf p.ctx p.consumer != some p.core
        || c.buffer.any (fun b => b.line == p.line)
        || s1.txns.any (fun t => t.2.core == p.core && t.2.line == p.line) || held then
      .next (s1.ackPush p true)
    else .next (s1.modCore p.core (fun c => { c with landing := c.landing ++ [p] }))
  | _ => .next s

/-- A usable L1 copy (R94, R163). -/
def L1Copy.usable (x : L1Copy) (now : Nat) : Bool := decide (x.from_ ≤ now) && decide (now + Config.epsilon < x.expiry)
def OlderCopy.usable (x : OlderCopy) (now : Nat) : Bool := decide (now + Config.epsilon < x.expiry)

/-- What of a line's copies goes on being used beside a pushed one: the one that is usable now (R163). -/
def L1Copy.keptBeside (x : L1Copy) (now : Nat) : Option OlderCopy :=
  if x.usable now then some ⟨x.data, x.expiry, x.wl, x.push⟩ else x.older.filter (fun y => y.usable now)

/-- PUSH_INSTALL (R133, R163): beside an older copy still in use; not over one that carries a WL as large. -/
def execPushInstall (core : Nat) (s : State) : Out :=
  match (s.core core).landing with
  | [] => .next s
  | p :: r =>
    let s1 := s.modCore core (fun c => { c with landing := r })
    let old := tblGet (s.core core).copies p.line
    if old.any (fun x => decide (p.w ≤ x.wl)) then .next (s1.ackPush p true)
    else
      let older := old.bind (fun x => x.keptBeside (s.nowAt core))
      -- what is kept beside it has not left the L1
      let s2 := s1.modCore core (fun c => { c with copies := tblMod c.copies p.line (fun x =>
        if x.usable (s.nowAt core) then { x with push := none } else if older.isSome then { x with older := none } else x) })
      .next ((s2.installCopy core p.line
        { data := p.data, from_ := p.w, expiry := p.w + p.len, wl := p.w, push := some (p.ctx, p.region),
          colour := p.colour, used := s.now, older := older }).ackPush p false)

/-- PUSH_AT_GATEWAY (R164). A push for which no entry can be made waits. -/
def execPushAtGateway (m : Nat) (s : State) : Out :=
  match s.deliverable m with
  | some ⟨_, .push p true, _, _⟩ =>
    let die := dieOfCore p.core
    if !s.gwHasRoom die p.line then .next s
    else
      let (x, s1) := (s.take m).gwOpen die p.line
      if x.fwds.isEmpty then
        .next ((s1.putGw die p.line { x with lxg := max x.lxg (p.w + p.len) }).send
          ⟨.resp, portGateway die (homeDie p.line), portCore p.core⟩ (.push p false))
      else .next (s1.ackPush p true)
  | _ => .next s

/-- PUSH_ACK (R165): the store's time leaves the home with the last acknowledgement. -/
def execPushAck (m : Nat) (s : State) : Out :=
  match s.deliverable m with
  | some ⟨_, .pushAck p discarded, _, _⟩ =>
    let s1 := s.take m
    let s2 := if discarded then
        s1.countRegion p.ctx p.region (sliceUnit p.line) (fun c => { c with discarded := c.discarded + 1 }) else s1
    match tblGet s2.pushWait p.txn with
    | none => .next s2
    | some (n, msg) =>
      if n ≤ 1 then .next { s2 with pushWait := tblDel s2.pushWait p.txn, net := s2.net ++ [msg] }
      else .next { s2 with pushWait := tblPut s2.pushWait p.txn (n - 1, msg) }
  | _ => .next s

/-! ## Changes of a region's state (R168, R169) -/

/-- Free entries of a slice: all of a region's, or those that it does not keep as it leaves the recording state (R160,
R174). -/
def State.freeEntries (s : State) (ctx n unit : Nat) (all : Bool) : State :=
  let gone (e : RecEntry) : Bool :=
    e.ctx == ctx && e.region == n && sliceUnit e.line == unit && (all || e.conf || e.cons.isEmpty)
  let confs := (s.recorder.filter (fun e => gone e && e.conf && !all)).length
  let s1 := { s with recorder := s.recorder.filter (fun e => !gone e) }
  if confs = 0 then s1 else s1.countRegion ctx n unit (fun c => { c with drop := c.drop + confs, conf := true })

/-- A unit takes a region's new state (R160, R169, R174). A die's count starts anew as it begins to record or to
replay. -/
def State.enterState (s : State) (ctx n unit state : Nat) : State :=
  let old := (s.region ctx n).view unit
  let s1 := if state = 0 ∨ state = 1 then
      (s.freeEntries ctx n unit true).modRegion ctx n (fun r => { r with counts := tblDel r.counts unit })
    else if old = 1 then s.freeEntries ctx n unit false else s
  s1.modRegion ctx n (fun r => { r with
    views := if state = 0 then tblDel r.views unit else tblPut r.views unit state
    departures := if unit % 52 = 51 && (state == 1 || state == 2) then
        r.departures.zipIdx.map (fun x => if x.2 = unit / 52 then 0 else x.1) else r.departures })

/-- What a unit adds to a sampling (R175). -/
def State.sample (s : State) (ctx n unit sel : Nat) : Nat :=
  let r := s.region ctx n
  let c := tblGetD r.counts unit {}
  match sel with
  | 1 => (s.recorder.filter (fun e => e.ctx == ctx && e.region == n && sliceUnit e.line == unit)).length
  | 3 => c.pushed
  | 4 => c.discarded
  | 5 => if unit % 52 = 51 then (r.departures[unit / 52]?).getD 0 else 0
  | _ => c.drop

/-- REGION_CHANGE: a unit acknowledges (R169, R175). With the last one a closed region has no lines any more. -/
def execRegionChange (m : Nat) (s : State) : Out :=
  match s.deliverable m with
  | some ⟨ch, .region ctx n state id, _, _⟩ =>
    let unit := ch.dst - 3000
    let s1 := s.take m
    let s2 := if state = 4 then s1 else s1.enterState ctx n unit state
    match tblGet s2.changes id with
    | none => .next s2
    | some c =>
      let c1 := { c with
        left := c.left - 1
        sum := c.sum + s2.sample ctx n unit (c.sel.getD 0)
        conf := c.conf || (tblGetD (s2.region ctx n).counts unit {}).conf }
      let s3 := { s2 with changes := if c1.left = 0 && c1.sel.isNone then tblDel s2.changes id else tblPut s2.changes id c1 }
      .next (if c1.left = 0 && state == 0 then s3.modRegion ctx n (fun _ => Region.closed) else s3)
  | _ => .next s

/-- FALL_BACK (R168). -/
def execFallBack (ctx region die : Nat) (s : State) : Out :=
  if (s.region ctx region).reports die then .next (s.fallBack ctx region die) else .next s

/-! ## The region instructions (R171 to R175) -/

/-- Whether a change of one of a context's regions is being acknowledged: the controller takes the next command after it
(R169). -/
def State.changing (s : State) (ctx : Nat) : Bool := s.changes.any (fun c => c.2.ctx == ctx && c.2.left != 0)

/-- A region instruction of a group that runs: it waits its turn at the controller. -/
def regionTurn (c : Ctl) (f : Iss → Out) (s : State) : Out :=
  begin_ c s (fun e =>
    if e.act = 0#32 then .next (e.retire c e.g)
    else if e.s.changing e.r.key.ctx then e.hold c .turn
    else f e)

/-- An instruction that changes a region: the entry waits for the acknowledgements. -/
def regionHold (c : Ctl) (e : Iss) (s : State) (n state : Nat) : Out :=
  let (id, s1) := s.broadcast e.r.key.ctx n state .plain
  match s1.group e.r with
  | none => .next s1
  | some g => ({ e with s := s1, g := g }).hold c (.region id)

/-- A page of RECON: its translation needs R and W (R173). -/
inductive PageCheck where
  | error (reason : Byte) | lacksW | lacksR | absent
  | ok (l : Leaf)
  deriving DecidableEq, Repr

def State.pageCheck (s : State) (core ctx : Nat) (va : Word64) : PageCheck × State :=
  match s.translate core ctx va with
  | (.error r, s1) => (.error r, s1)
  | (.absent, s1) => (.absent, s1)
  | (.leaf l, s1) =>
    if !l.w || l.x || s1.isCode (l.flat va) then (.lacksW, s1) else if !l.r then (.lacksR, s1) else (.ok l, s1)

/-- The pages from `base` on, with their addresses. -/
def State.pageChecks (s : State) (core ctx : Nat) (base : Word64) : Nat → List (Word64 × PageCheck) × State
  | 0 => ([], s)
  | n + 1 =>
    let (x, s1) := s.pageCheck core ctx base
    let (xs, s2) := State.pageChecks s1 core ctx (base + 0x10000#64) n
    ((base, x) :: xs, s2)

/-- The fault of RECON's pages, in the order of R173. -/
def pagesFault (l : List (Word64 × PageCheck)) : Option (FaultCode × Word64 × Byte) :=
  match l.find? (fun x => match x.2 with
    | .error _ => true
    | _ => false) with
  | some (a, .error r) => some (.pagePermWrite, a, r)
  | _ =>
    match l.find? (fun x => x.2 == .lacksW), l.find? (fun x => x.2 == .lacksR), l.find? (fun x => x.2 == .absent) with
    | some (a, _), _, _ => some (.pagePermWrite, a, 0#8)
    | _, some (a, _), _ => some (.pagePermRead, a, 0#8)
    | _, _, some (a, _) => some (.pageNotPresent, a, 0#8)
    | _, _, _ => none

/-- Whether two frames share a line. -/
def framesMeet (f g : Nat) : Bool := (frameQuarters f).any (fun q => (frameQuarters g).contains q)

/-- A frame that lies in an open region of any context (R156, R173). -/
def State.frameTaken (s : State) (f : Nat) : Bool :=
  s.ctxs.any (fun c => c.2.regions.any (fun r => r.2.state != 0 && r.2.frames.any (framesMeet f)))

/-- End with a result in S[d]. -/
def regionResult (c : Ctl) (e : Iss) (d : Dst) (x : Nat) : Out :=
  .next (e.retire c (e.g.write .b64 d 0 (BitVec.ofNat 64 x)))

def sdst : SDst → Dst
  | .s n => .s n
  | .zero => .zero

def execRecon (c : Ctl) (d : SDst) (region : BitVec 4) (base desc : SReg) (s : State) : Out :=
  regionTurn c (fun e =>
      let ctx := e.r.key.ctx
      let a := Operand.s e base
      let ds := Operand.s (e.nth 1) desc
      let lease := (ds.extractLsb' 16 2).toNat
      let np := (ds.extractLsb' 0 13).toNat
      if a.extractLsb' 0 16 != 0#16 then regionResult c e (sdst d) 3
      else if lease = 3 then regionResult c e (sdst d) 4
      else
        let (pages, s1) := e.s.pageChecks e.g.core ctx a (np + 1)
        let e1 := { e with s := s1 }
        match pagesFault pages with
        | some (code, va, reason) => e1.fault code e.act va reason
        | none =>
          let leaves := pages.filterMap (fun x => match x.2 with
            | .ok l => some (x.1, l)
            | _ => none)
          let frames := leaves.map (fun x => frameOf x.2.place (x.2.pByte x.1))
          if (s1.region ctx region.toNat).state != 0 then regionResult c e1 (sdst d) 1
          else if leaves.any (fun x => !x.2.rec_) then regionResult c e1 (sdst d) 2
          else if frames.any s1.frameTaken then regionResult c e1 (sdst d) 5
          else
            let dep := (ds.extractLsb' 48 16).toNat
            let dflt := match s1.ctx ctx with
              | some x => x.recDepart.toNat
              | none => 0
            let s2 := s1.modRegion ctx region.toNat (fun r => { Region.closed with
              state := 1, views := r.views, frames := frames, dep := if dep = 0 then dflt else dep, lease := lease, np := np })
            regionHold c e1 (s2.modGroup e.r (fun g => g.write .b64 (sdst d) 0 0#64)) region.toNat 1) s

/-- RECOFF, REPLAY and REREC: a command that finds its region in some states has no effect. What its slices and dies
hold of it changes as they acknowledge. -/
def regionCommand (c : Ctl) (region : BitVec 4) (to_ : Nat) (acts : Nat → Bool) (f : Region → Region) (s : State) : Out :=
  regionTurn c (fun e =>
    let n := region.toNat
    if !acts (e.s.region e.r.key.ctx n).state then .next (e.retire c e.g)
    else regionHold c e (e.s.modRegion e.r.key.ctx n f) n to_) s

def execRecoff (c : Ctl) (region : BitVec 4) (s : State) : Out :=
  regionCommand c region 0 (fun x => x != 0) (fun r => { r with state := 0 }) s
def execReplay (c : Ctl) (region : BitVec 4) (s : State) : Out :=
  regionCommand c region 2 (fun x => x == 1 || x == 3) (fun r => { r with state := 2, dmask := 0#4 }) s
def execRerec (c : Ctl) (region : BitVec 4) (s : State) : Out :=
  regionCommand c region 1 (fun x => x != 0) (fun r => { r with state := 1, gen := r.gen + 1#16, dmask := 0#4 }) s

/-- The state word of R175, but for what the slices say. -/
def Region.word (r : Region) : Word64 :=
  if r.state = 0 then 0#64
  else BitVec.ofNat 32 (r.np + 1) ++ r.gen ++ r.dmask ++ 0#2 ++ 0#2 ++ 0#2 ++ BitVec.ofNat 2 r.lease ++ BitVec.ofNat 4 r.state

/-- What a sampling that is over found: the state word with its conf and over bits, or the sum. -/
def Change.result (c : Change) : Word64 :=
  match c.sel with
  | some 0 => if c.word = 0#64 then 0#64
    else c.word ||| ((BitVec.ofBool c.conf ++ BitVec.ofBool (c.sum != 0) ++ 0#8 : BitVec 10).setWidth 64)
  | _ => BitVec.ofNat 64 c.sum

/-- RECQ: a closed region reads 0; an open one is sampled at every point (R175). -/
def execRecq (c : Ctl) (d : SDst) (region : BitVec 4) (sel : BitVec 3) (s : State) : Out :=
  regionTurn c (fun e =>
    let r := e.s.region e.r.key.ctx region.toNat
    if r.state = 0 then regionResult c e (sdst d) 0
    else
      let (id, s1) := e.s.broadcast e.r.key.ctx region.toNat 4 { Change.plain with sel := some sel.toNat, word := r.word }
      match s1.group e.r with
      | none => .next s1
      | some g => ({ e with s := s1, g := g }).hold c (.query id (sdst d))) s

end Sys2Proof.Machine
end

