-- ==== Sys2Proof/Machine/Buffer.lean ====
section
/-! DEFINITION. The coalescing buffer and the stores that leave it (R85, R97, R103 to R107, R113). -/

namespace Sys2Proof.Machine

/-- The instruction a drain is attributed to (R103, R410). -/
structure Drainer where
  g : GroupRef
  pc : Word64
  mask : Mask
  deriving DecidableEq, Repr

def Iss.drainer (e : Iss) : Drainer := ⟨e.r, e.pc, e.act⟩
def BufEntry.drainer (b : BufEntry) : Drainer := ⟨b.lastG, b.lastPc, b.lastAct⟩

/-- One more part of an operation. -/
def State.addPart (s : State) (r : GroupRef) (id : Nat) : State :=
  s.modGroup r (fun g => { g with ops := g.ops.map (fun o => if o.id = id then { o with parts := o.parts + 1 } else o) })

/-- Where a request of a core for a line goes: its home or agent, or its die's gateway cache toward the home (R98). -/
def goesHome (core : Nat) (l : LineNo) : Bool := isHost l || homeDie l == dieOfCore core
def chanOut (core : Nat) (l : LineNo) : Chan :=
  ⟨.req, portCore core, if goesHome core l then portHome l else portGateway (dieOfCore core) (homeDie l)⟩

/-- The block-slot of a group's core. -/
def State.blockSlot (s : State) (r : GroupRef) : Option BlockSlot :=
  (s.group r).map (fun g => ⟨r.key.blk, g.slot⟩)

/-- Send the store request of a transaction. A home-only store of host memory is a posted write (R135). -/
def State.sendStore (s : State) (core : Nat) (t : StoreReq) (own : List ThreadRef) : State :=
  if isHost t.line && t.l0 then s.sendOwn ⟨.req, portCore core, portHome t.line⟩ (.hostStore t) own t.txn
  else s.sendOwn (chanOut core t.line) (.store t (goesHome core t.line)) own t.txn

/-- A DEFERRED_WRITE (R85, R413): the lowest free entry of the context's fault buffer takes the bytes. -/
def State.deferredWrite (s : State) (ctx : Nat) (b : BufEntry) (d : Drainer) : State :=
  let free := match s.ctx ctx with
    | none => none
    | some c => firstFrom (fun k => (tblGet c.fbuf k).isNone) 0 Config.faultBuffer
  let bytes : BitVec 128 := BitVec.ofNat 128 ((List.range 128).foldl (fun acc i =>
    if b.mask.getLsbD (8 * i) then acc + 2 ^ i else acc) 0)
  let s1 := match free with
    | none => s
    | some k => s.modCtx ctx (fun c => { c with fbuf := tblPut c.fbuf k ⟨b.va, bytes, b.data⟩ })
  s1.raiseLater d.g { code := .deferredWrite, mask := d.mask, addr := b.va, pc := d.pc, fb := free }

/-- The observations that wait for a buffer entry's times or a forward's: the times are folded and they are pending no
more (R124, R127). -/
def State.resolve (s : State) (p : Pending) (h : Horizons) : State :=
  { s with groups := s.groups.map (fun e =>
      if e.2.pendObs.any (fun q => q.1 == p) then
        (e.1, { e.2 with ob := e.2.ob.fold h, pendObs := e.2.pendObs.filter (fun q => q.1 != p) })
      else e) }

/-- The core's copy, and a request under way, take the bytes of a drained entry (R104). -/
def State.drainToCopy (s : State) (core : Nat) (l : LineNo) (data mask : LineBits) : State :=
  s.modCore core (fun c => { c with
    copies := tblMod c.copies l (fun x => { x with
      data := mergeLine x.data data mask
      older := x.older.map (fun y => { y with data := mergeLine y.data data mask }) })
    landing := c.landing.map (fun p => if p.line = l then { p with data := mergeLine p.data data mask } else p)
    reqs := tblMod c.reqs l (fun r => { r with
      drained := mergeLine r.drained data mask
      drainedMask := r.drainedMask ||| mask }) })

/-- Drain an entry (R103): translate it again if a shootdown removed its translation (R85), give the copy its bytes,
and send the line. An entry that several stores wrote has the core-scope time and the block-slot of the youngest (log 37).
Where nothing is written, an observation of the entry waits for nothing more. -/
def State.drainEntry (s : State) (core : Nat) (b : BufEntry) (d : Drainer) : State :=
  let s1 := s.modCore core (fun c => { c with buffer := c.buffer.filter (fun x => x.id != b.id) })
  let go (s : State) (l : LineNo) (l0 : Bool) : State :=
    let s2 := s.drainToCopy core l b.data b.mask
    let t : StoreTxn := { id := b.id, line := l, ctx := b.ctx, core := core, mask := b.mask, coreTime := some b.latest,
                          ops := b.ops, writers := b.writers, threads := b.threads, colour := b.colour }
    let s3 := { s2 with txns := tblPut s2.txns b.id t }
    let s4 := s3.sendStore core { line := l, data := b.data, mask := b.mask, txn := b.id, core := core, ctx := b.ctx,
                                  keep := b.keep, slot := s.blockSlot b.lastG, poison := b.poison, l0 := l0,
                                  colour := b.colour, via := none } []
    if b.poison then s4.raiseLater d.g { code := .eccUncorrectable, mask := d.mask, addr := b.va, pc := d.pc } else s4
  let fail (s : State) : State :=
    b.ops.foldl (fun s o => s.opPart o.1 o.2) ((s.deferredWrite b.ctx b d).resolve (.entry core b.id) {})
  if !b.retrans then go s1 b.line false
  else
    match s1.translate core b.ctx b.va with
    | (.leaf l, s2) =>
      if l.w && !l.x && !s2.isCode (l.flat b.va) then go s2 (l.line b.va) (l.mtype == 1)
      else fail s2
    | (_, s2) => fail s2

/-- Drain every entry of a core that satisfies a test, oldest first. -/
def State.drainWhere (s : State) (core : Nat) (p : BufEntry → Bool) (d : Drainer) : State :=
  ((s.core core).buffer.filter p).foldl (fun s b => s.drainEntry core b d) s

def State.bufEntry (s : State) (core : Nat) (l : LineNo) : Option BufEntry :=
  (s.core core).buffer.find? (fun b => b.line == l)

/-- A store's bytes for one line: who stores, under which colour. -/
structure StoreBytes where
  line : LineNo
  va : Word64
  data : LineBits
  mask : LineBits
  ctx : Nat
  keep : Bool
  colour : Nat
  thread : ThreadRef
  op : Nat
  deriving DecidableEq, Repr

/-- Merge a store into the buffer (R103): its entry, or a new one, for which the oldest of 32 drains. -/
def State.bufferStore (s : State) (core : Nat) (x : StoreBytes) (d : Drainer) : State :=
  let s1 := if (s.bufEntry core x.line).isSome then s
    else match (s.core core).buffer with
      | [] => s
      | b :: r => if Config.bufferEntries ≤ r.length + 1 then s.drainEntry core b d else s
  match s1.bufEntry core x.line with
  | some b =>
    let fresh := !b.ops.contains (x.thread.g, x.op)
    let s2 := s1.modCore core (fun c => { c with buffer := c.buffer.map (fun y =>
      if y.id = b.id then { y with
        data := mergeLine y.data x.data x.mask
        mask := y.mask ||| x.mask
        writers := insertNew y.writers x.thread.g
        threads := insertNew y.threads x.thread
        ops := insertNew y.ops (x.thread.g, x.op)
        latest := s.nowAt core
        keep := y.keep || x.keep
        colour := x.colour
        lastG := d.g
        lastPc := d.pc
        lastAct := d.mask } else y) })
    if fresh then s2.addPart x.thread.g x.op else s2
  | none =>
    let (id, s2) := s1.freshId
    (s2.modCore core (fun c => { c with buffer := c.buffer ++
      [{ id := id, line := x.line, ctx := x.ctx, va := x.va &&& ~~~127#64, data := x.data, mask := x.mask,
         writers := [x.thread.g], threads := [x.thread], ops := [(x.thread.g, x.op)], created := s.nowAt core,
         latest := s.nowAt core, retrans := false, keep := x.keep, colour := x.colour, lastG := d.g, lastPc := d.pc,
         lastAct := d.mask, poison := false }] })).addPart x.thread.g x.op

/-- A store that goes straight to the home (R105, R114): its own request and transaction. It never enters the buffer, so
that its core-scope time is its cluster-scope time (log 37). -/
def State.directStore (s : State) (core : Nat) (x : StoreBytes) (l0 : Bool) : State :=
  let (id, s1) := s.freshId
  let t : StoreTxn := { id := id, line := x.line, ctx := x.ctx, core := core, mask := x.mask, coreTime := none,
                        ops := [(x.thread.g, x.op)], writers := [x.thread.g], threads := [x.thread],
                        colour := x.colour }
  let s2 := { s1 with txns := tblPut s1.txns id t }
  (s2.sendStore core { line := x.line, data := x.data, mask := x.mask, txn := id, core := core, ctx := x.ctx,
                       keep := x.keep, slot := none, poison := false, l0 := l0, colour := x.colour, via := none }
    (if l0 then [x.thread] else [])).addPart x.thread.g x.op

/-- Fold a store's time into what the threads that made it hold of its colour (R346). -/
def State.foldHzc (s : State) (ts : List ThreadRef) (colour w : Nat) : State :=
  if colour = 0 then s
  else ts.foldl (fun s t => s.modGroup t.g (fun g => g.modThread t.tid (fun th =>
    { th with held := th.held.map (fun h => if h.colour = colour then { h with hzc := max h.hzc w } else h) }))) s

/-- A read that waited for a store's times is sent once none is outstanding (R104). -/
def State.sendHeldReads (s : State) (core : Nat) (l : LineNo) : State :=
  if s.txns.any (fun t => t.2.core == core && t.2.line == l) then s
  else match tblGet (s.core core).reqs l with
    | none => s
    | some r =>
      if r.sent then s
      else (s.modCore core (fun c => { c with reqs := tblPut c.reqs l { r with sent := true } })).send
        (chanOut core l) (.read r.req (goesHome core l))

/-- A transaction's times have returned (R106, R107, R135). -/
def State.finishTxn (s : State) (id : Nat) (h : Horizons) : State :=
  match tblGet s.txns id with
  | none => s
  | some t =>
    let times : Horizons := { h with core := t.coreTime.getD h.clus }
    let s1 := { s with txns := tblDel s.txns id }
    let s2 := t.writers.foldl (fun s r => s.foldHz r times) s1
    let s3 := (s2.foldHzc t.threads t.colour h.dev).resolve (.entry t.core id) times
    (t.ops.foldl (fun s o => s.opPart o.1 o.2) s3).sendHeldReads t.core t.line

/-- A gateway's die-scope time of a store has returned (R100). -/
def State.dieTime (s : State) (id wdie : Nat) : State :=
  match tblGet s.txns id with
  | none => s
  | some t => t.writers.foldl (fun s r => s.foldHz r ⟨0, wdie, wdie, 0⟩) s

/-- End the use of copies, and of what requests under way will bring (R94, R116, R128, R351; log 16). -/
def State.endWhere (s : State) (core : Nat) (p : LineNo → L1Copy → Bool) (q : LineNo → L1Req → Bool) : State :=
  (s.dropCopies core p).modCore core (fun c => { c with
    reqs := c.reqs.map (fun r =>
      if q r.1 r.2 && r.2.sent then (r.1, { r.2 with ended := true, alloc := false }) else r) })

def State.endCopies (s : State) (core : Nat) (p : LineNo → Bool) : State :=
  s.endWhere core (fun l _ => p l) (fun l _ => p l)

/-- BUFFER_TIMER_DRAIN: 64 cycles after its creation, or once a shootdown asks for it (R84, R103). -/
def execBufferTimerDrain (core k : Nat) (s : State) : Out :=
  match (s.core core).buffer.find? (fun b => b.id == k) with
  | none => .next s
  | some b =>
    if b.retrans || decide (b.created + ticksOfCycles 64 ≤ s.nowAt core) then .next (s.drainEntry core b b.drainer)
    else .next s

end Sys2Proof.Machine
end

