-- ==== Sys2Proof/Machine/Colour.lean ====
section
/-! DEFINITION. Coloured data: monitors at their homes, grant caches, acquisition, release, MWAIT and notifications
(R341 to R366). -/

namespace Sys2Proof.Machine

/-! ## Held sets (R346, R347) -/

def Thread.holds (th : Thread) (c : Nat) : Bool := th.held.any (fun h => h.colour == c)
def Thread.topColour (th : Thread) : Nat := th.held.foldl (fun m h => max m h.colour) 0

/-- Keep a held set in ascending colour order. -/
def addHeld (h : Held) (l : List Held) : List Held :=
  insertBy (fun x y => decide (x.colour ≤ y.colour)) h (l.filter (fun x => x.colour != h.colour))

/-- The port of a monitor's home (R343). -/
def monPort (ctx colour : Nat) : Nat := 4000 + (colour ^^^ ctx) / 4 % 48 + 48 * ((colour ^^^ ctx) % 4)

def State.monitor (s : State) (ctx colour : Nat) : Monitor := tblGetD s.monitors (ctx, colour) Monitor.fresh

/-- Waiters in hardware slots, in the acquire queue and in the wait set, and whether others are spilled (R344). -/
def Monitor.na (m : Monitor) : Nat := (m.acq.filter Waiter.hw).length
def Monitor.nw (m : Monitor) : Nat := (m.wset.filter Waiter.hw).length
def Monitor.sp (m : Monitor) : Bool := (m.acq ++ m.wset).any (fun w => !w.hw)

/-- The first `n` of a queue stand in hardware slots. -/
def slotted (n : Nat) (l : List Waiter) : List Waiter := l.zipIdx.map (fun w => { w.1 with hw := decide (w.2 < n) })

/-- Share out the eight hardware slots (R344, R345): each queue keeps those that its head has, and what is free goes to the
next of the acquire queue, then of the wait set (log 34). -/
def Monitor.fit (m : Monitor) : Monitor :=
  let a := (m.acq.takeWhile Waiter.hw).length
  let b := (m.wset.takeWhile Waiter.hw).length
  let a1 := min m.acq.length (Config.monitorSlots - b)
  let b1 := min m.wset.length (Config.monitorSlots - max a a1)
  { m with acq := slotted (max a a1) m.acq, wset := slotted b1 m.wset }

/-- A waiter's record, with the index of the next one of its queue (R345). -/
def Waiter.record (w : Waiter) (next : Nat) : List Byte :=
  leBytes 32 (fieldsNat [(w.t.g.key.blk, 224), (w.t.g.grp, 218), (w.t.tid.val, 213), (w.lset, 210), (w.mwait.toNat, 209),
    (w.ntf.toNat, 208), (w.t.g.key.lnch, 192), (next, 160), (w.dl, 64)])

/-- Spilled waiters with the index of the next record of their queue. -/
def spilled (l : List Waiter) : List (Waiter × Nat) :=
  l.zip (l.drop 1 |>.map Waiter.index |>.concat 0xFFFFFFFF) |>.filter (fun x => !x.1.hw)

/-- Write the records of a monitor's spilled waiters (R345). -/
def State.writeSpill (s : State) (ctx : Nat) (m : Monitor) : State :=
  match s.ctx ctx with
  | none => s
  | some c => (spilled m.acq ++ spilled m.wset).foldl (fun s x =>
      State.putFlat c.areaPlace (c.areaPfn * 65536 + 32 * x.1.index) (x.1.record x.2) s) s

/-- A monitor that is free, has no waiters and has G = 0 holds no state (R344). -/
def State.putMonitor (s : State) (ctx colour : Nat) (m0 : Monitor) : State :=
  let m := m0.fit
  { s with monitors := if m = Monitor.fresh then tblDel s.monitors (ctx, colour) else tblPut s.monitors (ctx, colour) m }.writeSpill
    ctx m

/-- The record in the spill area that is a thread's (R345). -/
def State.spillIndex (s : State) (r : GroupRef) (t : Tid) : Nat :=
  let b := match s.block r.key with
    | some b => some b
    | none => (tblGet s.saved r.key).map Saved.block
  ((b.bind (fun b => b.spill[r.grp]?)).getD 0) * 32 + t.val

def State.grantEntry (s : State) (core ctx colour : Nat) : Option GrantEntry := tblGet (s.core core).grants (ctx, colour)
def State.putGrant (s : State) (core ctx colour : Nat) (x : GrantEntry) : State :=
  s.modCore core (fun c => { c with grants := tblPut c.grants (ctx, colour) x })
def State.delGrant (s : State) (core ctx colour : Nat) : State :=
  s.modCore core (fun c => { c with grants := tblDel c.grants (ctx, colour) })

/-- log2 of a bound set's size. -/
def lsetOf (k : Nat) : Nat := if k = 0 then 0 else k.log2

/-! ## Granting (R348, R349, R351, R357) -/

/-- Give a colour to a thread and its bound set, and release those who wait for it. `handler` frames are those of a
thread that is in its group's handler. -/
def Group.giveColour (g : Group) (w : Waiter) (colour gt : Nat) : Group :=
  let set := g.waitSet w.t.tid
  let g1 := { g.modThreads set (fun _ th =>
      let kept := match th.status with
        | .parked (.mwait c _ frame handler) => if c = colour then some (frame, handler) else none
        | _ => none
      { th with
        held := addHeld { colour := colour
                          frame := (kept.map Prod.fst).getD th.fdep
                          handler := (kept.map Prod.snd).getD (g.inHandler && th.inTrap)
                          hzc := 0
                          owner := w.t.tid } th.held }) with
    ob := g.ob.fold ⟨gt, gt, gt, gt⟩ }
  let waits (g : Group) (t : Tid) : Bool :=
    match (g.thread t).status with
    | .parked (.colour c) => decide (c = colour)
    | .parked (.mwait c _ _ _) => decide (c = colour)
    | _ => false
  (maskTids (w.unit ||| set)).foldl (fun g t =>
    if waits g t then
      let g2 := match (g.thread t).status with
        | .parked (.mwait _ (some d) _ _) => g.writeP t d w.ntf
        | _ => g
      g2.release t (g.thread t).pc
    else g) g1

/-- A colour that one limb of a set took before it was bound is the whole set's: nothing is requested (R349). -/
def Group.shareColour (g : Group) (set : Mask) (c : Nat) (owner : Tid) : Group :=
  g.modThreads set (fun _ th => if th.holds c then th else
    { th with held := addHeld ⟨c, th.fdep, g.inHandler && th.inTrap, 0, owner⟩ th.held })

/-- End the use of a core's copies of lines of a colour, pushed copies among them (R351, R353). -/
def State.endColour (s : State) (core colour : Nat) : State :=
  s.endWhere core (fun _ x => x.colour == colour) (fun _ r => r.colour == colour)

/-- A grant takes effect (R351). -/
def State.giveColour (s : State) (w : Waiter) (colour gt : Nat) : State :=
  match s.group w.t.g with
  | some g => (s.endColour g.core colour).modGroup w.t.g (fun g => g.giveColour w colour gt)
  | none =>
    -- recorded in the Dugout record of a saved thread (R362)
    s.savedEvent w.t.g.key w.t.g.grp w.unit w.ntf (fun v =>
      { v with groups := tblMod v.groups w.t.g.grp (fun g => g.giveColour w colour gt) })

/-- Whether a waiter's thread still exists, resident or saved. -/
def State.hasThread (s : State) (t : ThreadRef) : Bool :=
  let alive (g : Group) : Bool := !(g.thread t.tid).isExited
  match s.group t.g with
  | some g => alive g
  | none => match tblGet s.saved t.g.key with
    | some v => match tblGet v.groups t.g.grp with
      | some g => alive g
      | none => false
    | none => false

def State.coreOfGroup (s : State) (r : GroupRef) : Nat :=
  match s.group r with
  | some g => g.core
  | none => 0

/-! ## The home (R350, R354, R357, R358) -/

/-- Send a grant from the home. -/
def State.sendGrant (s : State) (ctx colour : Nat) (w : Waiter) (gt : Nat) : State :=
  s.send ⟨.monitor, monPort ctx colour, portCore (s.coreOfGroup w.t.g)⟩ (.grant ctx colour w gt false)

/-- Grant the head of the acquire queue of a free monitor, or recall a cached grant that someone waits for. -/
def State.pump (s : State) (ctx colour : Nat) (m : Monitor) : State :=
  match m.acq with
  | [] => s.putMonitor ctx colour m
  | w :: r =>
    match m.own with
    | .free => (s.putMonitor ctx colour { m with own := .thread w, acq := r }).sendGrant ctx colour w m.g
    | .cached core =>
      (s.putMonitor ctx colour { m with own := .recalled core }).send
        ⟨.monitor, monPort ctx colour, portCore core⟩ (.recall ctx colour core)
    | _ => s.putMonitor ctx colour m

/-- ACQUIRE_REQUEST (R350). -/
def execAcquireRequest (m : Nat) (s : State) : Out :=
  match s.deliverable m with
  | some ⟨_, .acquire ctx colour w, _, _⟩ =>
    let x := s.monitor ctx colour
    .next ((s.take m).pump ctx colour { x with acq := x.acq ++ [w] })
  | _ => .next s

/-- RECALL (R350): an idle grant returns with its G; one in use is marked. -/
def execRecall (m : Nat) (s : State) : Out :=
  match s.deliverable m with
  | some ⟨_, .recall ctx colour core, _, _⟩ =>
    let s1 := s.take m
    match s1.grantEntry core ctx colour with
    | none => .next s1
    | some e =>
      if e.user.isNone then
        .next ((s1.delGrant core ctx colour).send ⟨.monitor, portCore core, monPort ctx colour⟩
          (.grantReturn ctx colour core e.g))
      else .next (s1.putGrant core ctx colour { e with recalled := true })
  | _ => .next s

/-- GRANT_RETURN (R350, R354). -/
def execGrantReturn (m : Nat) (s : State) : Out :=
  match s.deliverable m with
  | some ⟨_, .grantReturn ctx colour _ g, _, _⟩ =>
    let x := s.monitor ctx colour
    .next ((s.take m).pump ctx colour { x with own := .free, g := max x.g g })
  | _ => .next s

/-- Make room in a core's grant cache: the least recently used idle entry goes home (R354). -/
def State.grantRoom (s : State) (core : Nat) : State :=
  let c := s.core core
  if c.grants.length < Config.grantCache then s
  else
    match (c.grants.filter (fun e => e.2.user.isNone)).foldl (fun (acc : Option ((Nat × Nat) × GrantEntry)) e =>
      match acc with
      | none => some e
      | some y => if e.2.stamp < y.2.stamp then some e else some y) none with
    | none => s
    | some (k, e) => (s.delGrant core k.1 k.2).send ⟨.monitor, portCore core, monPort k.1 k.2⟩
        (.grantReturn k.1 k.2 core e.g)

/-- Keep a monitor without acquire waiters cached at the releasing core, where there is room and the context still has a
block there (R354). -/
def State.cacheGrant (s : State) (ctx colour core : Nat) (m : Monitor) : Monitor × State :=
  let s1 := s.grantRoom core
  if m.acq.isEmpty && decide ((s1.core core).grants.length < Config.grantCache) &&
      s1.blocks.any (fun b => b.1.ctx == ctx && b.2.cores.contains core) then
    ({ m with own := .cached core }, s1.putGrant core ctx colour { user := none, lset := 0, recalled := false, g := m.g, stamp := s.now })
  else (m, s)

/-- MONITOR_RELEASE (R354, R357): the owner's release, and the entry of an MWAIT into the wait set, in one step. -/
def execMonitorRelease (m : Nat) (s : State) : Out :=
  match s.deliverable m with
  | some ⟨_, .monRelease ctx colour core t hzc wait, _, _⟩ =>
    let s1 := s.take m
    let x := s1.monitor ctx colour
    let mine := match x.own with
      | .thread w => w.t == t
      | .free => false
      | _ => wait.isSome
    if !mine then .next s1
    else
      let (y, s2) := s1.cacheGrant ctx colour core { x with own := .free, g := max x.g hzc }
      .next (s2.pump ctx colour (match wait with
        | none => y
        | some w =>
          if w.dl ≠ 0 ∧ w.dl ≤ s.now then { y with acq := y.acq ++ [w] } else { y with wset := y.wset ++ [w] }))
  | _ => .next s

/-- NOTIFICATION (R358). -/
def execNotification (m : Nat) (s : State) : Out :=
  match s.deliverable m with
  | some ⟨_, .notify ctx colour all, _, _⟩ =>
    let s1 := s.take m
    let x := s1.monitor ctx colour
    let n := if all then x.wset.length else 1
    let moved := (x.wset.take n).map (fun w => { w with ntf := true })
    if moved.isEmpty then .next s1
    else .next (s1.pump ctx colour { x with acq := x.acq ++ moved, wset := x.wset.drop n })
  | _ => .next s

/-- MWAIT_DEADLINE (R357). -/
def execMwaitDeadline (ctx colour : Nat) (t : ThreadRef) (s : State) : Out :=
  let x := s.monitor ctx colour
  match x.wset.find? (fun w => w.t == t) with
  | none => .next s
  | some w =>
    if w.dl ≠ 0 ∧ w.dl ≤ s.now then
      .next (s.pump ctx colour { x with acq := x.acq ++ [w], wset := x.wset.filter (fun y => decide (y ≠ w)) })
    else .next s

/-- Return a colour that its thread will never use (R364). -/
def State.abandon (s : State) (ctx colour : Nat) (w : Waiter) (gt : Nat) : State :=
  let core := s.coreOfGroup w.t.g
  s.send ⟨.monitor, portCore core, monPort ctx colour⟩ (.monRelease ctx colour core w.t gt none)

/-- Whether the core of a group has reached a time; for a saved group every core, whichever it will resume on. -/
def State.reached (s : State) (r : GroupRef) (t : Nat) : Bool :=
  match s.group r with
  | some g => decide (t ≤ s.nowAt g.core)
  | none => decide (t + 3 ≤ s.now)

/-- GRANT (R351): once the core's now has reached G. -/
def execGrant (m : Nat) (s : State) : Out :=
  match s.deliverable m with
  | some ⟨_, .grant ctx colour w gt loc, _, _⟩ =>
    let s1 := s.take m
    if !s1.hasThread w.t then
      if loc then .next s1 else .next (s1.abandon ctx colour w gt)
    else if !s.reached w.t.g gt then .next s
    else .next (s1.giveColour w colour gt)
  | _ => .next s

/-! ## Acquisition by an instruction (R347 to R349, R361) -/

/-- What the acquisition of an instruction comes to: a fault, or the state and the threads that wait. -/
inductive Acquired where
  | fault (code : FaultCode) (mask : Mask)
  | go (s : State) (waiting : Mask)

/-- Request a colour for a thread, which waits as part of `unit`. -/
def State.request (s : State) (r : GroupRef) (g : Group) (t : Tid) (colour : Nat) (unit : Mask) : Bool × State :=
  let set := g.boundSet t
  let owner : Tid := (maskTids set).headD t
  let w : Waiter := { t := ⟨r, owner⟩, unit := unit, lset := lsetOf (g.thread t).lbk, index := s.spillIndex r t }
  let ctx := r.key.ctx
  match s.grantEntry g.core ctx colour with
  | some e =>
    if e.user.isNone && !e.recalled then
      let s1 := s.putGrant g.core ctx colour { e with user := some w.t, lset := w.lset, stamp := s.now }
      if e.g ≤ s.nowAt g.core then (true, s1.giveColour w colour e.g)
      else (false, s1.send ⟨.monitor, portCore g.core, portCore g.core⟩ (.grant ctx colour w e.g true))
    else (false, s.send ⟨.monitor, portCore g.core, monPort ctx colour⟩ (.acquire ctx colour w))
  | none => (false, s.send ⟨.monitor, portCore g.core, monPort ctx colour⟩ (.acquire ctx colour w))

/-- One thread comes to a colour: it has it, or one of its set has it, or it requests it; whether it has it now. -/
def State.obtain (s : State) (r : GroupRef) (g : Group) (t : Tid) (c : Nat) (unit : Mask) : Bool × State :=
  let set := g.boundSet t
  match (maskTids set).findSome? (fun u => (g.thread u).held.find? (fun h => h.colour == c)) with
  | some h => (true, s.modGroup r (fun g => g.shareColour set c h.owner))
  | none => s.request r g t c unit

/-- The requests in ascending thread order, one for each bound set and colour; the threads that wait. -/
def State.requestAll (s : State) (r : GroupRef) (g : Group) : List (Tid × Nat) → List (Tid × Nat) → Mask → Mask × State
  | [], _, waiting => (waiting, s)
  | (t, c) :: rest, done, waiting =>
    let set := g.boundSet t
    let owner : Tid := (maskTids set).headD t
    if done.contains (owner, c) then State.requestAll s r g rest done waiting
    else
      let (now, s1) := s.obtain r g t c set
      State.requestAll s1 r g rest ((owner, c) :: done) (if now then waiting else waiting ||| set)

/-- The requests of an access that is made once: its thread waits on one monitor at a time (R345), so that it requests the
next of its colours, in ascending order, when it has the one before (DESIGN CHOICE, log 34); the colour that it waits for. -/
def State.requestOnce (s : State) (r : GroupRef) (g : Group) (unit : Mask) : List (Tid × Nat) → Option Nat × State
  | [] => (none, s)
  | (t, c) :: rest =>
    let (now, s1) := s.obtain r g t c unit
    if now then State.requestOnce s1 r g unit rest else (some c, s1)

/-- The checks and requests for the colours that threads need (`want`; colour 0 needs nothing). `unit` is ACTIVE where
the access is made once, for its lowest thread. The threads that wait are parked at the PC. -/
def acquire (e : Iss) (want : List (Tid × Nat)) (unit : Option Mask) : Acquired :=
  let need := (want.filter (fun x => x.2 != 0 && !(e.g.thread x.1).holds x.2)).dedup
  let bad (p : Tid → Nat → Bool) : Mask := need.foldl (fun m x => if p x.1 x.2 then m ||| bitOf x.1 else m) 0#32
  let order := bad (fun t c => decide (c < (e.g.thread t).topColour))
  -- what its whole set is about to be given counts (R349)
  let full := bad (fun t _ =>
    let mine := (((need.filter (fun x => (e.g.boundSet t).getLsbD x.1.val)).map Prod.snd).dedup).filter (fun c =>
      !(e.g.thread t).holds c)
    decide (Config.heldColours < (e.g.thread t).held.length + mine.length))
  if order != 0#32 then .fault .colourOrder order
  else if full != 0#32 then .fault .colourOverflow full
  else match unit with
    | some act =>
      let (c, s1) := e.s.requestOnce e.r e.g act (sortBy (fun x y => decide (x.2 ≤ y.2)) need)
      match c with
      | none => .go s1 0#32
      | some c =>
        .go (s1.modGroup e.r (fun g => (maskTids act).foldl (fun g t => g.park t s1.now (.colour c) none e.pc) g)) act
    | none =>
      let (waiting, s1) := e.s.requestAll e.r e.g need [] 0#32
      .go (s1.modGroup e.r (fun g =>
        (maskTids waiting).foldl (fun g t =>
          g.park t s1.now (match need.find? (fun x => x.1 == t && !(g.thread t).holds x.2) with
            | some (_, c) => .colour c
            | none => .set) none e.pc) g)) waiting

/-! ## Release (R352, R353, R364) -/

/-- The colours that an operation releases for a thread. -/
def RelOp.colours (op : RelOp) (th : Thread) : List Held :=
  match op with
  | .ret => th.held.filter (fun h => h.frame == th.fdep && !h.handler)
  | .exit => th.held
  | .tret => th.held.filter (fun h => h.handler)
  | .mwait _ _ => th.held

/-- What an operation releases for a thread's bound set: each limb's own. -/
def RelOp.ofSet (op : RelOp) (g : Group) (t : Tid) : List Held :=
  (maskTids (g.boundSet t)).flatMap (fun u => op.colours (g.thread u))

/-- Drain the entries of the colours that a thread releases and wrote (R103, R352). -/
def State.drainReleased (s : State) (r : GroupRef) (g : Group) (t : Tid) (hs : List Held) (d : Drainer) : State :=
  if hs.isEmpty then s
  else s.drainWhere g.core (fun b => b.threads.contains ⟨r, t⟩ && hs.any (fun h => h.colour == b.colour && b.ctx == r.key.ctx)) d

/-- Whether every write that a thread, or its bound set, made to lines of some colours has its times, every command is
done, and now has reached the colours' HZC (R352). -/
def State.releaseReady (s : State) (r : GroupRef) (g : Group) (t : Tid) (hs : List Held) : Bool :=
  let set := g.boundSet t
  hs.all (fun h =>
    !s.txns.any (fun x => x.2.colour == h.colour && x.2.ctx == r.key.ctx
      && x.2.threads.any (fun u => u.g == r && set.getLsbD u.tid.val))
    && !(s.core g.core).buffer.any (fun b => b.colour == h.colour && b.ctx == r.key.ctx
      && b.threads.any (fun u => u.g == r && set.getLsbD u.tid.val))
    && !g.ops.any (fun o => o.cols.any (fun c => c.2 == h.colour && set.getLsbD c.1.val))
    && (maskTids set).all (fun u => (g.thread u).held.all (fun k =>
        k.colour != h.colour || decide (k.hzc ≤ s.nowAt g.core))))

/-- Send one release of what the monitor names as `owner`'s: inside the core for a grant of its cache, else to the home;
`wait` is the MWAIT that goes with it, which always goes home. -/
def State.sendRelease (s : State) (r : GroupRef) (core colour : Nat) (owner : Tid) (hzc : Nat) (wait : Option Waiter) : State :=
  let ctx := r.key.ctx
  let home (s : State) (b : Body) : State := s.send ⟨.monitor, portCore core, monPort ctx colour⟩ b
  match s.grantEntry core ctx colour with
  | some e =>
    if e.user != some ⟨r, owner⟩ then s
    else
      let gt := max e.g hzc
      if wait.isSome then home (s.delGrant core ctx colour) (.monRelease ctx colour core ⟨r, owner⟩ gt wait)
      else if e.recalled then home (s.delGrant core ctx colour) (.grantReturn ctx colour core gt)
      else s.putGrant core ctx colour { e with user := none, g := gt }
  | none => home s (.monRelease ctx colour core ⟨r, owner⟩ hzc wait)

/-- A bound set gives up what each of its limbs releases, in descending colour order, and the entries are removed. A colour
that another thread of the group goes on holding, because it was bound with this one when it was granted, is released by
the last of them, with every HZC (DESIGN CHOICE, log 34). -/
def State.releaseSet (s : State) (r : GroupRef) (op : RelOp) (t : Tid) (wait : Option Waiter) : State :=
  match s.group r with
  | none => s
  | some g =>
    let set := g.boundSet t
    let hs := op.ofSet g t
    let s1 := s.modGroup r (fun g => g.modThreads set (fun _ th =>
      let mine := op.colours th
      { th with held := th.held.filter (fun h => !mine.contains h) }))
    let cs := sortBy (fun (x y : Nat) => decide (y ≤ x)) ((hs.map Held.colour).dedup)
    cs.foldl (fun (s : State) c =>
      let mine := hs.filter (fun h => h.colour == c)
      let hzc := mine.foldl (fun m h => max m h.hzc) 0
      let owner := ((mine[0]?).map Held.owner).getD t
      let kept : Mask := match s.group r with
        | none => 0#32
        | some g => maskOf (fun u => (g.thread u).held.any (fun h => h.colour == c && h.owner == owner))
      if kept != 0#32 && wait.isNone then
        s.modGroup r (fun g => g.modThreads kept (fun _ th =>
          { th with held := th.held.map (fun h => if h.colour = c then { h with hzc := max h.hzc hzc } else h) }))
      else s.sendRelease r g.core c owner hzc wait) s1

/-! ## The instructions (R356 to R360) -/

/-- A colour operand's class decides the form with the rest (R356). -/
def execMnoteWith (c : Ctl) (col : Col) (all : Bool) (s : State) : Out :=
  begin_ c s (fun e =>
    let ctx := e.r.key.ctx
    let send (s : State) (k : Nat) : State :=
      if k = 0 then s else s.send ⟨.monitor, portCore e.g.core, monPort ctx k⟩ (.notify ctx k all)
    let s1 := if col.isVec then (maskTids e.act).foldl (fun s t => send s (Operand.col e t col)) e.s
      else if e.act = 0#32 then e.s else send e.s (Operand.col e 0 col)
    .next (e.retireWith c s1 e.g 0#32))

def execMnote (c : Ctl) (col : Col) (s : State) : Out := execMnoteWith c col false s
def execMnotea (c : Ctl) (col : Col) (s : State) : Out := execMnoteWith c col true s

/-- MHELD's value. -/
def heldWord (th : Thread) (k : Nat) : Word32 :=
  match th.held[k]? with
  | none => 0#32
  | some h => BitVec.ofBool h.handler ++ BitVec.ofNat 15 (min h.frame 0x7FFF) ++ BitVec.ofNat 16 h.colour

def execMheld (c : Ctl) (d : VDst) (k : BitVec 3) (s : State) : Out :=
  begin_ c s (fun e => .next (e.retire c (e.forThreads e.g (fun t g =>
    match d with
    | .v n => g.writeV t n (heldWord (e.g.thread t) k.toNat)
    | .zero => g))))

/-- CLRD's value. -/
def clrdWord (th : Thread) (x : Xlat) : Word64 :=
  BitVec.ofNat 64 (x.colour + (if th.holds x.colour then 2 ^ 16 else 0) + (if x.leaf.cmode = 2 then 2 ^ 17 else 0))

def execClrd (c : Ctl) (d : Dst) (m : Addr) (s : State) : Out :=
  begin_ c s (fun e =>
    let vec := d.isVec || m.base.isVec || m.idx.isVec
    let addr (t : Tid) := Operand.addr e 64 t m
    let (xs, s1) := e.s.xlateAll e.g.core e.r.key.ctx Need.read addr false (accessTids vec e.act)
    let e1 := { e with s := s1 }
    match xlatFault Need.read xs with
    | some (code, mask, reason) =>
      e1.fault code (if vec then mask else e.act) (addr ((maskTids mask).headD 0)) reason
    | none =>
      .next (e1.retire c (xs.foldl (fun g x => match x.2 with
        | .ok y => g.write .n32 d x.1 (clrdWord (e.g.thread x.1) y)
        | _ => g) e.g)))

/-- The threads of ACTIVE that fail MWAIT's check (R357). -/
def mwaitBad (e : Iss) (col : Col) : Mask :=
  maskOf (fun t => e.act.getLsbD t.val &&
    (let c := Operand.col e t col
     !((e.g.thread t).held.map Held.colour == [c] && c != 0) ||
       (maskTids (e.g.boundSet t)).any (fun u => Operand.col e u col != c)))

def execMwait (c : Ctl) (d : PDst) (col : Col) (dl : Option SReg) (s : State) : Out :=
  begin_ c s (fun e =>
    if e.act = 0#32 then .next (e.retire c e.g)
    else
      let bad := mwaitBad e col
      if bad != 0#32 then e.fault .mwaitHeld bad
      else
        let when_ := match dl with
          | none => 0
          | some n => (Operand.s (e.nth 1) n).toNat
        let pd := match d with
          | .p n => some n
          | .zero => none
        let op := RelOp.mwait pd when_
        let s1 := (maskTids e.act).foldl (fun s t =>
          s.drainReleased e.r e.g t (op.colours (e.g.thread t)) e.drainer) e.s
        match s1.group e.r with
        | none => .next s1
        | some g => ({ e with s := s1, g := g }).hold c (.release op e.act e.act []))

end Sys2Proof.Machine
end

