-- ==== Sys2Proof/Machine/Access.lean ====
section
/-! DEFINITION. LDG, STG, LDW, PREF, LINV and LINV.all (R89, R109 to R119), and how a load's bytes reach its threads. -/

namespace Sys2Proof.Machine

/-! ## Checks in the order of R347 -/

/-- An instruction that addresses memory, past its checks: the state with its colours requested, the threads that
access with their translations, and the threads parked for a colour. -/
structure Checked where
  e : Iss
  xs : List (Tid × Xlat)
  waiting : Mask

inductive CheckResult where
  | stop (o : Out)
  | go (x : Checked)

/-- End an issue whose group the state holds. -/
def Iss.finish (e : Iss) (c : Ctl) (s : State) (stay : Mask) : State :=
  match s.group e.r with
  | some g => e.retireWith c s g stay
  | none => s

/-- An access to the list of translated threads, with `unit` where one thread accesses for all of ACTIVE. -/
def Iss.checks (e : Iss) (vec : Bool) (align : Nat) (need : Need) (addr : Tid → Word64)
    (more : List (Tid × Xlat) → Option (FaultCode × Mask) := fun _ => none) (drain : Bool := false) : CheckResult :=
  let ts := accessTids vec e.act
  let whole (m : Mask) : Mask := if vec then m else e.act
  let mis := ts.filter (fun t => (addr t).toNat % align != 0)
  match mis with
  | t :: _ => .stop (e.fault .misaligned (whole (maskOf (fun u => mis.contains u))) (addr t))
  | [] =>
    let (res, s1) := e.s.xlateAll e.g.core e.r.key.ctx need addr drain ts
    let e1 := { e with s := s1 }
    match xlatFault need res with
    | some (code, m, reason) => .stop (e1.fault code (whole m) (addr ((maskTids m).headD 0)) reason)
    | none =>
      let xs := res.filterMap (fun x => match x.2 with
        | .ok y => some (x.1, y)
        | _ => none)
      match more xs with
      | some (code, m) => .stop (e1.fault code (whole m) (addr ((maskTids m).headD 0)))
      | none =>
      match acquire e1 (xs.map (fun x => (x.1, x.2.colour))) (if vec then none else some e.act) with
      | .fault code m => .stop (e1.fault code m (addr ((maskTids m).headD 0)))
      | .go s2 waiting =>
        let g2 := (s2.group e.r).getD e.g
        .go ⟨{ e1 with s := s2, g := g2 }, xs.filter (fun x => !waiting.getLsbD x.1.val), waiting⟩

/-- The checks of an instruction that accesses memory, then its effect. -/
def withChecks (c : Ctl) (vec : Bool) (align : Nat) (need : Need) (m : Addr) (f : Checked → (Tid → Word64) → Out)
    (s : State) : Out :=
  begin_ c s (fun e =>
    if e.act = 0#32 then .next (e.retire c e.g)
    else
      let addr (t : Tid) := Operand.addr e 64 t m
      match e.checks vec align need addr with
      | .stop o => o
      | .go x => if x.xs.isEmpty then .next (x.e.finish c x.e.s x.waiting) else f x addr)

/-! ## A load's bytes -/

/-- The buffer's bytes of a line, and their mask (R104). -/
def State.buffered (s : State) (core : Nat) (l : LineNo) : LineBits × LineBits :=
  match s.bufEntry core l with
  | some b => (b.data, b.mask)
  | none => (0#1024, 0#1024)

/-- A part whose bytes are all in the coalescing buffer. -/
def LoadPart.covered (p : LoadPart) : Bool := p.ownMask &&& byteMask p.off p.n == byteMask p.off p.n
def LoadPart.touches (p : LoadPart) (m : LineBits) : Bool := m &&& byteMask p.off p.n != 0#1024
/-- The bytes of a part that do not come from the core's buffer. -/
def LoadPart.beyond (p : LoadPart) : LineBits := byteMask p.off p.n &&& ~~~p.ownMask

/-- Write the bytes of a line to the threads that wait for them; each part with its observation (R111, R112, R124). -/
def State.serve (s : State) (data : LineBits) (obs : ObsInfo) (poison : Bool) (parts : List LoadPart) : State :=
  parts.foldl (fun s p =>
    match s.group p.g with
    | none => s
    | some g =>
      let x := fieldOf (mergeLine data p.own p.ownMask) p.off p.n
      let o := g.ops.find? (fun o => o.id == p.op)
      let t := p.who.getD 0
      let bad := poison && !p.covered
      let g1 := if !bad && o.any (fun o => o.kind == .fill) then { g with fills := g.fills ++ [(t, (g.thread t).fdep, x)] }
        else g.arrival p.op { who := p.who, va := p.va, dst := p.dst, ty := p.ty, x := x
                              bad := if bad then some (.eccUncorrectable, 0#8) else none }
      ((s.setGroup p.g g1).observe p.g p.op p.beyond obs).opPart p.g p.op) s

/-- Bytes that the core has: their value is fixed now, and arrives as a response of the core to itself. -/
def State.serveHere (s : State) (core : Nat) (l : LineNo) (data : LineBits) (part : LoadPart) : State :=
  s.send ⟨.resp, 200000 + core, 200000 + core⟩ (.loadResp core l data none 0 noObs false (.direct core [part]))

/-- The copy of a line that is usable, with its WL: the one of a pushed pair that was there before serves until the pushed one
can (R94, R163). -/
def L1Copy.inUse (x : L1Copy) (now : Nat) : Option (LineBits × Nat) :=
  if x.usable now then some (x.data, x.wl)
  else if x.expiry ≤ now + Config.epsilon then none
  else (x.older.filter (fun y => y.usable now)).map (fun y => (y.data, y.wl))

/-- A load of the core asks for the line. A copy whose lease has ended leaves first; what is left of a pushed one can be
no departure any more (R166). -/
def State.requested (s : State) (core : Nat) (l : LineNo) : State :=
  let past (t : Nat) : Bool := decide (t ≤ s.nowAt core + Config.epsilon)
  let s1 := match tblGet (s.core core).copies l with
    | none => s
    | some x => if past x.expiry then s.dropCopy core l
      else if x.older.any (fun (y : OlderCopy) => past y.expiry) then s.dropOlder core l else s
  s1.modCore core (fun c => { c with copies := tblMod c.copies l (fun (x : L1Copy) =>
    { x with push := none, older := x.older.map (fun (y : OlderCopy) => { y with push := none }) }) })

/-- Whether a store of the core to a line awaits its times (R104). -/
def State.storeOut (s : State) (core : Nat) (l : LineNo) : Bool :=
  s.txns.any (fun t => t.2.core == core && t.2.line == l)

/-- A new request of the L1 for a line: sent at once, or after the core's stores to it (R104). -/
def State.askLine (s : State) (core : Nat) (l : LineNo) (w : L1Want) : State :=
  let held := s.storeOut core l
  let r : L1Req := { parts := w.part.toList, joined := [], next := [], ended := false, alloc := w.alloc, req := w.req,
                     sent := !held, colour := w.colour, drained := 0#1024, drainedMask := 0#1024 }
  let s1 := s.modCore core (fun c => { c with reqs := tblPut c.reqs l r })
  if held then s1 else s1.send (chanOut core l) (.read w.req (goesHome core l))

/-- Whether the response to a request can give what a want asks for: a lease and a copy where it asks for them, for a
prefetch no shorter a lease and the keep bit too (R114, R115). -/
def L1Req.gives (r : L1Req) (w : L1Want) : Bool :=
  (r.alloc || !w.alloc) &&
  (w.part.isSome || (decide (w.req.len.getD 0 ≤ r.req.len.getD 0) && (r.req.keep || !w.req.keep)))

/-- Loads that wait for a request. -/
def L1Req.waiting (r : L1Req) : List LoadPart := r.parts ++ (r.joined ++ r.next).filterMap L1Want.part

/-- An access finds no usable copy of a line: a miss for the score, unless another thread of its instruction has counted it
(R112, R407). -/
def State.noteMiss (s : State) (core : Nat) (l : LineNo) (g : GroupRef) (op : Nat) : State :=
  if (tblGet (s.core core).reqs l).any (fun r => r.waiting.any (fun p => decide (p.g = g ∧ p.op = op))) then s
  else s.scoreMiss core l

/-- A miss: a request of the L1 for the line, or a place behind the one outstanding (R89). The threads of one instruction
share the request that the first of them made (R112). What follows a request that cannot serve it waits for a request of
its own: a store has left since (R104), or the use of what it brings has ended (log 16). -/
def State.missLine (s : State) (core : Nat) (l : LineNo) (w : L1Want) : State :=
  match tblGet (s.core core).reqs l with
  | none => s.askLine core l w
  | some r =>
    let r1 : L1Req := match w.part with
      | none => if r.gives w then r else { r with next := r.next ++ [w] }
      | some p =>
        if !r.gives w then { r with next := r.next ++ [w] }
        else if !r.sent || r.parts.any (fun q => decide (q.g = p.g ∧ q.op = p.op)) then { r with parts := r.parts ++ [p] }
        else if r.ended || p.touches r.drainedMask || s.storeOut core l then { r with next := r.next ++ [w] }
        else { r with joined := r.joined ++ [w] }
    s.modCore core (fun c => { c with reqs := tblPut c.reqs l r1 })

/-- A read of one line for its parts, served by no L1 copy (R105, R114). -/
def State.directRead (s : State) (core : Nat) (ctx : Nat) (l : LineNo) (mtype : Nat) (parts : List LoadPart)
    (own : List ThreadRef) (seq : Nat) : State :=
  let req : ReadReq := { line := l, len := none, keep := false, bypass := true, core := core, ctx := ctx, slot := none,
                         tgt := .direct core parts }
  if isHost l && mtype == 1 then s.sendOwn ⟨.req, portCore core, portHome l⟩ (.host req) own seq
  else s.sendOwn (chanOut core l) (.read req (goesHome core l)) own seq

/-- The observation of bytes in an entry that another group has written into (R124). -/
def State.observeBuffer (s : State) (r : GroupRef) (core : Nat) (l : LineNo) (p : LoadPart) : State :=
  match s.bufEntry core l with
  | none => s
  | some b =>
    if p.touches b.mask && b.writers.any (fun w => decide (w ≠ r)) then
      s.observe r p.op fullMask [⟨fullMask, {}, some (.entry core b.id)⟩]
    else s

/-- One thread's load, past the checks. -/
def State.loadPart (s : State) (e : Iss) (h : Hint) (x : Xlat) (va : Word64) (part : LoadPart) : State :=
  let core := e.g.core
  let ctx := e.r.key.ctx
  let l := x.leaf.line va
  let s1 := s.observeBuffer e.r core l part
  if part.covered then s1.serveHere core l 0#1024 part
  else
    let s2 := s1.requested core l
    match (tblGet (s2.core core).copies l).bind (fun y => y.inUse (s2.nowAt core)) with
    | some (data, wl) =>
      ((s2.modCore core (fun c => { c with copies := tblMod c.copies l (fun y => { y with used := s2.now }) })).observe e.r
        part.op part.beyond (deviceObs wl)).serveHere core l data part
    | none =>
      (s2.noteMiss core l part.g part.op).missLine core l
        { part := some part, alloc := h != .stream, colour := x.colour
          req := { line := l, len := leaseOf h, keep := h == .keep, bypass := false, core := core, ctx := ctx
                   slot := if h == .stream then none else s.blockSlot e.r
                   tgt := .l1 core (h != .stream) } }

/-- The parts of a load by line: those of one line that go together (R88). -/
def groupByLine (xs : List (LineNo × LoadPart)) : List (LineNo × List LoadPart) :=
  xs.foldl (fun acc x => tblPut acc x.1 (tblGetD acc x.1 [] ++ [x.2])) []

/-- The accesses of a load, each thread's in ascending order: home-only ones, one per thread; with hint 101 one per line; else
through the L1 (R105, R112, R114). -/
def State.loadAll (s : State) (e : Iss) (h : Hint) (op : Nat) (xs : List (Tid × Xlat)) (addr : Tid → Word64)
    (mk : Tid → LoadPart) : State :=
  let core := e.g.core
  let ctx := e.r.key.ctx
  let line (y : Tid × Xlat) : LineNo := y.2.leaf.line (addr y.1)
  let part (y : Tid × Xlat) : LoadPart :=
    let b := if y.2.leaf.mtype = 1 then (0#1024, 0#1024) else s.buffered core (line y)
    { mk y.1 with own := b.1, ownMask := b.2 }
  let home := xs.filter (fun y => y.2.leaf.mtype == 1)
  let rest := xs.filter (fun y => y.2.leaf.mtype != 1)
  let s3 := home.foldl (fun s y => s.directRead core ctx (line y) 1 [part y] [⟨e.r, y.1⟩] op) s
  if h = .home then
    let parts := rest.map (fun y => (line y, part y))
    let s4 := parts.foldl (fun s p => s.observeBuffer e.r core p.1 p.2) s3
    let s5 := (parts.filter (fun p => p.2.covered)).foldl (fun s p => s.serveHere core p.1 0#1024 p.2) s4
    -- what it reads at the home may be newer than the core's copy, which is used no more (R97)
    (groupByLine (parts.filter (fun p => !p.2.covered))).foldl (fun s p =>
      ((s.requested core p.1).endCopies core (fun k => k == p.1)).directRead core ctx p.1 0 p.2 [] 0) s5
  else rest.foldl (fun s y => s.loadPart e h y.2 (addr y.1) (part y)) s3

/-- LDG past its checks: the operation, then its accesses. -/
def loadThreads (c : Ctl) (h : Hint) (ty : Ty) (d : Dst) (vec : Bool) (x : Checked) (addr : Tid → Word64) : Out :=
  let e := x.e
  let s1 := e.finish c e.s x.waiting
  let act : Mask := if vec then maskOf (fun t => x.xs.any (fun y => y.1 == t)) else e.act
  let (id, s2) := s1.issueOp e.r (fun id =>
    { id := id, cls := .ld, kind := .global, pc := e.pc, act := act, parts := x.xs.length,
      dests := x.xs.flatMap (fun y => Dst.regs ty d y.1), clobbered := []
      ext := x.xs.any (fun y => isHost (y.2.leaf.line (addr y.1))), cols := [] })
  .next (s2.loadAll e h id x.xs addr (fun t =>
    { g := e.r, op := id, who := if vec then some t else none, va := addr t, off := (addr t).toNat % 128, n := ty.width / 8
      dst := d, ty := ty, own := 0#1024, ownMask := 0#1024 }))

def execLdg (c : Ctl) (h : Hint) (ty : Ty) (d : Dst) (m : Addr) (s : State) : Out :=
  let vec := d.isVec || m.base.isVec || m.idx.isVec
  withChecks c vec (ty.width / 8) Need.read m (loadThreads c h ty d vec) s

/-! ## STG (R113, R114) -/

/-- One thread's store, past the checks. -/
def State.storePart (s : State) (e : Iss) (h : Hint) (x : Xlat) (va : Word64) (n op : Nat) (t : Tid)
    (val : BitVec 128) : State :=
  let core := e.g.core
  let l := x.leaf.line va
  let off := va.toNat % 128
  let sb : StoreBytes := { line := l, va := va, data := placeBytes off val, mask := byteMask off n, ctx := e.r.key.ctx,
                           keep := h == .keep && x.leaf.mtype != 1, colour := x.colour, thread := ⟨e.r, t⟩, op := op }
  if x.leaf.mtype = 1 then s.directStore core sb true
  else if h = .home then
    -- the line's entry drains first; the core's copy no longer has the latest store (R97)
    let s1 := s.drainWhere core (fun b => b.line == l) e.drainer
    (((s1.drainToCopy core l sb.data sb.mask).dropCopy core l).directStore core sb false)
  else s.bufferStore core sb e.drainer

def storeThreads (c : Ctl) (h : Hint) (ty : Ty) (val : Src) (vec : Bool) (x : Checked) (addr : Tid → Word64) : Out :=
  let e := x.e
  let n := ty.width / 8
  let s1 := e.finish c e.s x.waiting
  let act : Mask := if vec then maskOf (fun t => x.xs.any (fun y => y.1 == t)) else e.act
  let e1 := { e with act := act }
  let (id, s2) := s1.issueOp e.r (fun id =>
    { id := id, cls := .st, kind := .stg, pc := e.pc, act := act, parts := 1, dests := [], clobbered := []
      ext := x.xs.any (fun y => isHost (y.2.leaf.line (addr y.1))), cols := [] })
  let s3 := x.xs.foldl (fun s y =>
    s.storePart e1 h y.2 (addr y.1) n id y.1 (storeValue e ty y.1 val)) s2
  let s4 := if h = .stream then
      (x.xs.filter (fun y => y.2.leaf.mtype != 1)).foldl (fun s y =>
        let l := y.2.leaf.line (addr y.1)
        (s.drainWhere e.g.core (fun b => b.line == l) e1.drainer).dropCopy e.g.core l) s3
    else s3
  .next (s4.opPart e.r id)

def execStg (c : Ctl) (h : Hint) (ty : Ty) (m : Addr) (val : Src) (s : State) : Out :=
  let vec := val.isVec || m.base.isVec || m.idx.isVec
  withChecks c vec (ty.width / 8) Need.write m (storeThreads c h ty val vec) s

/-! ## LDW (R117 to R119) -/

/-- An address inside the issuing context's range on its die. -/
def State.weightOk (s : State) (ctx : Nat) (a : Word64) (n : Nat) : Bool :=
  match s.ctx ctx with
  | none => false
  | some c =>
    decide (a.toNat < 2 ^ 32) &&
    (match c.ws[(a.extractLsb' 30 2).toNat]? with
     | some (lo, len) => decide (lo ≤ a.toNat) && decide (a.toNat + n ≤ lo + len)
     | none => false)

/-- The bytes of a weight-store line, and its poison. -/
def State.weightLine (s : State) (l : Nat) : LineBits × Bool :=
  let key := weightKey (l * 128 / 2 ^ 30) (l * 128 % 2 ^ 30)
  (leBits 1024 (s.mem.readN key 128), s.poison.contains (.byte key))

/-- The bank group in its window (R119): of bits [11:8] of the offset. -/
def inRefresh (a now : Nat) : Bool := decide (now % 32000 / 2000 = a / 256 % 16) && decide (now % 2000 < 1000)

def execLdw (c : Ctl) (h : Hint) (ty : Ty) (d : Dst) (m : Addr) (s : State) : Out :=
  begin_ c s (fun e =>
    if e.act = 0#32 then .next (e.retire c e.g)
    else
      let vec := d.isVec || m.base.isVec || m.idx.isVec
      let n := ty.width / 8
      let addr (t : Tid) := Operand.addr e 64 t m
      let ts := accessTids vec e.act
      let whole (m : Mask) : Mask := if vec then m else e.act
      let bad (p : Tid → Bool) : List Tid := ts.filter p
      match bad (fun t => (addr t).toNat % n != 0), bad (fun t => !e.s.weightOk e.r.key.ctx (addr t) n) with
      | t :: r, _ => e.fault .misaligned (whole (maskOf (fun u => (t :: r).contains u))) (addr t)
      | [], t :: r => e.fault .pagePermRead (whole (maskOf (fun u => (t :: r).contains u))) (addr t) 0x0B#8
      | [], [] =>
        let core := e.g.core
        let alloc := h != .stream && h != .home
        let s1 := e.finish c e.s 0#32
        let (id, s2) := s1.issueOp e.r (fun id =>
          { id := id, cls := .ld, kind := .global, pc := e.pc, act := e.act, parts := ts.length,
            dests := ts.flatMap (fun t => Dst.regs ty d t), clobbered := [], ext := false, cols := [] })
        let parts := ts.map (fun t => ((addr t).toNat / 128,
          ({ g := e.r, op := id, who := if vec then some t else none, va := addr t, off := (addr t).toNat % 128, n := n, dst := d,
             ty := ty, own := 0#1024, ownMask := 0#1024 } : LoadPart)))
        .next ((groupByLine parts).foldl (fun s p =>
          match tblGet (s.core core).weights p.1 with
          | some data => p.2.foldl (fun s q => s.serveHere core p.1 data q) s
          | none => (s.scoreMiss core (weightTag p.1)).send ⟨.resp, 5000 + p.1 * 128 / 2 ^ 30, portCore core⟩
              (.weightResp core (p.1 * 128) alloc p.2)) s2))

/-! ## PREF, LINV, LINV.all (R115, R116, R166) -/

/-- The line a prefetch of one thread asks for, if it is not dropped. -/
def State.prefLine (s : State) (e : Iss) (va : Word64) : Option LineNo × State :=
  match s.xlate e.g.core e.r.key.ctx Need.read va with
  | (.ok x, s1) => (if x.leaf.mtype = 0 && x.colour == 0 then some (x.leaf.line va) else none, s1)
  | (_, s1) => (none, s1)

/-- Ask for a line: for the L1, or only to bring it to its home or to the gateway cache. -/
def State.prefetch (s : State) (e : Iss) (h : Hint) (l : LineNo) : State :=
  let core := e.g.core
  let out := h == .stream || h == .home
  let req : ReadReq :=
    { line := l, len := leaseOf h, keep := h == .keep, bypass := false, core := core, ctx := e.r.key.ctx
      slot := if out then none else s.blockSlot e.r, tgt := if out then .bring else .l1 core true }
  if out then s.send (chanOut core l) (.read req (goesHome core l))
  else
    let held := ((tblGet (s.core core).copies l).bind (fun y => y.inUse (s.nowAt core))).isSome
    (if held then s else s.scoreMiss core l).missLine core l { part := none, req := req, alloc := true, colour := 0 }

def execPref (c : Ctl) (h : Hint) (m : Addr) (s : State) : Out :=
  begin_ c s (fun e =>
    let vec := m.base.isVec || m.idx.isVec
    let (s1, lines) := (accessTids vec e.act).foldl (fun (acc : State × List LineNo) t =>
      match acc.1.prefLine e (Operand.addr e 64 t m) with
      | (some l, s) => (s, insertNew acc.2 l)
      | (none, s) => (s, acc.2)) (e.s, [])
    .next (e.finish c (lines.foldl (fun s l => s.prefetch e h l) s1) 0#32))

def execLinv (c : Ctl) (_h : Hint) (m : Addr) (s : State) : Out :=
  begin_ c s (fun e =>
    let vec := m.base.isVec || m.idx.isVec
    .next (e.finish c ((accessTids vec e.act).foldl (fun s t =>
      let va := Operand.addr e 64 t m
      match s.translate e.g.core e.r.key.ctx va with
      | (.leaf l, s1) => s1.endCopies e.g.core (fun k => k == l.line va)
      | (_, s1) => s1) e.s) 0#32))

def execLinvAll (c : Ctl) (_h : Hint) (s : State) : Out :=
  begin_ c s (fun e =>
    .next (e.finish c (if e.act = 0#32 then e.s else e.s.endCopies e.g.core (fun _ => true)) 0#32))

end Sys2Proof.Machine
end

