-- ==== Sys2Proof/Machine/Traffic.lean ====
section
/-! DEFINITION. What reaches a home, a gateway cache and a core: reads, stores, fills, renewals, forwards, responses
and completion times, and the walkers (R65, R80, R92 to R108, R112, R119, R123, R136, R143). -/

namespace Sys2Proof.Machine

/-! ## At the home (R92 to R96, R143, R159) -/

def McastReq.port (x : McastReq) : Nat :=
  match x.at_ with
  | .gateway die => portGateway die (homeDie x.line)
  | .home => portHome x.line

/-- The send of a multicast entry: one copy of its line to each member, and the entry is free (R146, R148). -/
def State.landAll (s : State) (k : Nat) (data : LineBits) (bad : Bool) : State :=
  match tblGet s.mcast k with
  | none => s
  | some e =>
    e.members.foldl (fun s m => s.send ⟨.resp, e.req.port, portCore m.core⟩ (.mcastLand m data bad))
      { s with mcast := tblDel s.mcast k }

/-- The response to a served read. -/
def State.answerRead (s : State) (r : ReadReq) (x : Option Nat) : State :=
  let l := r.line
  let data := s.lineData l
  let bad := s.linePoisoned l
  match r.tgt with
  | .bring => s
  | .mcast k => s.landAll k data bad
  | .renew die =>
    s.send ⟨.resp, portHome l, portGateway die (homeDie l)⟩ (.renewal die l data (x.getD 0) (s.wlOf l) bad)
  | .l1 core _ | .direct core _ | .copy core _ _ _ =>
    s.send ⟨.resp, portHome l, portCore core⟩
      (.loadResp core l data x (s.wlOf l) (deviceObs (s.wlOf l)) bad r.tgt)

/-- The lease that a read is granted: at the host agent 256 ticks for a load with any hint (R108; log 40), elsewhere what
it asks for. -/
def ReadReq.lease (r : ReadReq) : Option Nat :=
  if isHost r.line then
    match r.tgt with
    | .l1 _ _ | .direct _ _ => some Config.leaseShort
    | _ => none
  else r.len

/-- Serve a read of a line that is present: its recording, its lease, its answer. -/
def State.serveRead (s : State) (r : ReadReq) : State :=
  let s1 := match r.slot with
    | some who => s.consume r.ctx r.line who
    | none => s
  let (x, s2) := match r.lease with
    | none => (none, s1.modLine r.line (fun y => { y with used := s1.now }))
    | some n =>
      let (x, s2) := s1.grantLease r.line n
      (some x, s2)
  (if r.keep then s2.setKeep r.line else s2).answerRead r x

/-- The completion of a store applied at its home, held back behind its pushes (R100, R106, R165). -/
def State.storeApplied (s : State) (t : StoreReq) (w pushes : Nat) : State :=
  let msg : Msg := match t.via with
    | none => ⟨⟨.time, portHome t.line, portCore t.core⟩, .storeDone t.txn ⟨w, w, w, w⟩, [], 0⟩
    | some (die, fwd, wdie) =>
      ⟨⟨.time, portHome t.line, portGateway die (homeDie t.line)⟩,
        .forwardReturn die t.line fwd w (some (t.txn, t.core, wdie)), [], 0⟩
  if pushes = 0 then { s with net := s.net ++ [msg] }
  else { s with pushWait := tblPut s.pushWait t.txn (pushes, msg) }

def State.serveStore (s : State) (t : StoreReq) : State :=
  let (w, s1) := s.applyStore t.line t.data t.mask t.l0 t.keep t.poison
  let (k, s2) := s1.produce t w
  s2.storeApplied t w k

/-- A request at a home: held in its line's miss entry, or none if the line is present. The outer none: it waits at the
slice's input. -/
def State.missAt (s : State) (l : LineNo) (q : HeldReq) : Option (Option State) :=
  match tblGet s.misses l with
  | some m => some (some { s with misses := tblPut s.misses l { m with held := m.held ++ [q] } })
  | none =>
    if (tblGet s.lines l).isSome || isHost l then some none
    else if s.missCount l < Config.missEntries then some (some { s with misses := tblPut s.misses l ⟨[q], none⟩ })
    else none

/-- The host agent's line is there once it owns it (R108). -/
def State.hostLine (s : State) (l : LineNo) : State := (s.bringIn l false).getD s

def execHomeRead (m : Nat) (s : State) : Out :=
  match s.deliverable m with
  | some ⟨_, .read r true, _, _⟩ =>
    let s1 := (s.take m).countHome r.line (dieOfCore r.core != homeDie r.line)
    match s1.missAt r.line (.read r) with
    | none => .next s
    | some (some s2) => .next s2
    | some none => .next ((s1.hostLine r.line).serveRead r)
  | _ => .next s

def execHomeStore (m : Nat) (s : State) : Out :=
  match s.deliverable m with
  | some ⟨_, .store t true, _, _⟩ =>
    let s1 := (s.take m).countHome t.line (dieOfCore t.core != homeDie t.line)
    match s1.missAt t.line (.store t) with
    | none => .next s
    | some (some s2) => .next s2
    | some none => .next ((s1.hostLine t.line).serveStore t)
  | _ => .next s

/-! ## Gateway caches (R98 to R101, R161) -/

/-- Lines of a gateway cache that are being renewed or wait for it. -/
def State.renewals (s : State) (die : Nat) (l : LineNo) : Nat :=
  (s.gateways.filter (fun x => x.1.1 == die && homeDie x.1.2 == homeDie l && (x.2.renewing || !x.2.waiting.isEmpty))).length

/-- Start the renewal that the first waiting read needs, unless one is under way or a forward's time has yet to return
(R99, R101). -/
def State.startRenewal (s : State) (die : Nat) (l : LineNo) : State :=
  let x := s.gw die l
  match x.waiting with
  | [] => s
  | r :: _ =>
    if x.renewing || !x.fwds.isEmpty then s
    else
      (s.putGw die l { x with renewing := true, stale := false }).send ⟨.req, portGateway die (homeDie l), portHome l⟩
        (.read { r with len := some (r.len.getD Config.leaseDef), tgt := .renew die } true)

/-- Whether a gateway's line serves a read from its copy: usable, and the lease asked for ends within Xg (R99). -/
def GwLine.serves (x : GwLine) (now : Nat) (r : ReadReq) : Bool :=
  x.usable now && r.len.all (fun n => decide (now + n ≤ x.xg))

/-- Answer a read from a gateway's copy: a sub-lease within Xg (R99). -/
def State.answerGateway (s : State) (die : Nat) (r : ReadReq) (bad : Bool) : State :=
  let l := r.line
  let x := s.gw die l
  let exp := r.len.map (fun n => min (s.now + n) x.xg)
  let s1 := s.putGw die l { x with lxg := max x.lxg (exp.getD 0), used := s.now }
  match r.tgt with
  | .l1 core _ | .direct core _ | .copy core _ _ _ =>
    s1.send ⟨.resp, portGateway die (homeDie l), portCore core⟩ (.loadResp core l x.data exp x.wdev (x.obs die l) bad r.tgt)
  | .mcast k => s1.landAll k x.data bad
  | .renew _ | .bring => s1

/-- A read that is to be served by a die's gateway cache; none while it has to wait at the input. -/
def State.readGateway (s : State) (die : Nat) (r : ReadReq) : Option State :=
  let l := r.line
  if !s.gwHasRoom die l then none
  else
    let (x, s1) := s.gwOpen die l
    let s2 := s1.putGw die l x
    if x.serves s.now r && !s.gwBypass r.ctx die l then some (s2.answerGateway die r false)
    else if x.waiting.isEmpty && !x.renewing && decide (Config.missEntries ≤ s2.renewals die l) then none
    else some ((s2.putGw die l { x with waiting := x.waiting ++ [r] }).startRenewal die l)

/-- GATEWAY_READ. A read that passes to the home may return a store that the copy does not have, so that the copy's use
ends (R97, R114). -/
def execGatewayRead (m : Nat) (s : State) : Out :=
  match s.deliverable m with
  | some ⟨_, .read r false, own, seq⟩ =>
    let die := dieOfCore r.core
    let s1 := (s.take m).countOut die
    if r.bypass then
      .next ((s1.endGateway die r.line).sendOwn ⟨.req, portGateway die (homeDie r.line), portHome r.line⟩ (.read r true)
        own seq)
    else .next ((s1.readGateway die r).getD s)
  | _ => .next s

/-- GATEWAY_RENEWAL: fresh data under the die's own pending stores serves the read it was for, and the other waiting reads
that it can serve as if they arrived now (R99, R122); of a recorded line no other (R161). For the rest another renewal
starts. Data that a write of the die has passed meanwhile serves none. -/
def execGatewayRenewal (m : Nat) (s : State) : Out :=
  match s.deliverable m with
  | some ⟨_, .renewal die l data x wl bad, _, _⟩ =>
    let s1 := s.take m
    let g := s1.gw die l
    if g.stale then .next ((s1.putGw die l { g with renewing := false, stale := false }).startRenewal die l)
    else
      let y := { g with
        data := mergeLine data g.data g.pending
        copy := !bad
        xg := x
        wdev := max g.wdev wl
        renewing := false
        used := s1.now }
      let served (r : ReadReq × Nat) : Bool := r.2 == 0 || (y.serves s1.now r.1 && !s1.gwBypass r.1.ctx die l)
      let s2 := s1.putGw die l { y with waiting := (y.waiting.zipIdx.filter (fun r => !served r)).map Prod.fst }
      .next (((y.waiting.zipIdx.filter served).foldl (fun s r => s.answerGateway die r.1 bad) s2).startRenewal die l)
  | _ => .next s

/-- GATEWAY_STORE (R100): the bytes are merged, the die-scope time returns to the core, the store goes on. A home-only
store passes to the home (R98). -/
def execGatewayStore (m : Nat) (s : State) : Out :=
  match s.deliverable m with
  | some ⟨_, .store t false, own, seq⟩ =>
    let die := dieOfCore t.core
    let l := t.line
    let ch : Chan := ⟨.req, portGateway die (homeDie l), portHome l⟩
    let s1 := (s.take m).countOut die
    if t.l0 then .next (s1.sendOwn ch (.store t true) own seq)
    else if !s1.gwHasRoom die l then .next s
    else
      let (x, s2) := s1.gwOpen die l
      let (id, s3) := s2.freshId
      let wdie := max s.now x.lxg + Config.epsilon
      let y := { x with
        data := mergeLine x.data t.data t.mask
        fwds := x.fwds ++ [⟨id, wdie, t.mask⟩]
        used := s.now }
      .next (((s3.putGw die l y).send ⟨.time, portGateway die (homeDie l), portCore t.core⟩ (.storeDie t.txn wdie)).sendOwn
        ch (.store { t with via := some (die, id, wdie) } true) own seq)
  | _ => .next s

/-- What a response under way says of a forward whose time has returned (R124). -/
def Body.returned (b : Body) (p : Pending) (w : Nat) : Body :=
  match b with
  | .loadResp core l data x wl obs bad tgt =>
    .loadResp core l data x wl
      (obs.map (fun o => if o.pending = some p then { o with times := o.times.fold ⟨w, w, w, w⟩, pending := none } else o))
      bad tgt
  | b => b

/-- FORWARD_RETURN: the device-scope time returns; the pending observations of it are resolved; with the last one a
waiting renewal starts (R101, R124). -/
def execForwardReturn (m : Nat) (s : State) : Out :=
  match s.deliverable m with
  | some ⟨_, .forwardReturn die l fwd w done, _, _⟩ =>
    let s1 := s.take m
    let x := s1.gw die l
    let y := { x with
      fwds := x.fwds.filter (fun f => f.id != fwd)
      wdev := max x.wdev w
      stale := x.stale || x.renewing }
    let p : Pending := .gateway die l fwd
    let s2 := { (s1.putGw die l y).resolve p ⟨w, w, w, w⟩ with
      net := s1.net.map (fun (y : Msg) => { y with body := y.body.returned p w }) }
    let s3 := match done with
      | some (txn, core, wdie) =>
        s2.send ⟨.time, portGateway die (homeDie l), portCore core⟩ (.storeDone txn ⟨wdie, wdie, wdie, w⟩)
      | none => s2
    .next (s3.startRenewal die l)
  | _ => .next s

/-- GATEWAY_WRITE_PASS (R458). A line of mtype 01 is never held here: its update passes (R98). -/
def execGatewayWritePass (m : Nat) (s : State) : Out :=
  match s.deliverable m with
  | some ⟨_, .pass u, own, seq⟩ =>
    let die := dieOfCore u.core
    let l := u.addr / 128
    if u.l0 then
      .next (((s.take m).countOut die).sendOwn ⟨.req, portGateway die (homeDie l), portHome l⟩ (.update u none) own seq)
    else if !s.gwHasRoom die l then .next s
    else
      let (x, s1) := ((s.take m).countOut die).gwOpen die l
      let (id, s2) := s1.freshId
      .next ((s2.putGw die l { x with
        copy := false
        stale := x.stale || x.renewing
        fwds := x.fwds ++ [⟨id, 0, 0#1024⟩] }).sendOwn ⟨.req, portGateway die (homeDie l), portHome l⟩
          (.update u (some (die, id))) own seq)
  | _ => .next s

/-! ## At the core (R89, R94, R104, R112, R119) -/

/-- A line's data for the loads of an L1's request: those the response serves, a copy, and for the rest what they ask
for. -/
def State.fillLine (s : State) (core : Nat) (l : LineNo) (data : LineBits) (x : Option Nat) (wl : Nat) (obs : ObsInfo)
    (bad : Bool) : State :=
  match tblGet (s.core core).reqs l with
  | none => s
  | some r =>
    let s1 := s.modCore core (fun c => { c with reqs := tblDel c.reqs l })
    let good := match x with
      | some e => decide (s.nowAt core + Config.epsilon < e) && !r.ended
      | none => false
    let newer := match tblGet (s.core core).copies l with
      | some y => decide (wl < y.wl)
      | none => false
    let s2 := match x with
      | some e =>
        if r.alloc && !bad && !newer then
          s1.installCopy core l { data := mergeLine data r.drained r.drainedMask, from_ := 0, expiry := e, wl := wl,
                                  push := none, colour := r.colour, used := s.now }
        else s1
      | none => s1
    let s3 := s2.serve data obs bad (r.parts ++ (if good then r.joined.filterMap L1Want.part else []))
    ((if good then [] else r.joined) ++ r.next).foldl (fun s w => s.missLine core l w) s3

/-- A weight-store read is served, and its line held without a lease (R118): in a full set a weight-store line leaves, or
the leased copy used longest ago (R102; log 13). A poisoned line faults. -/
def State.weightArrive (s : State) (core addr : Nat) (alloc : Bool) (parts : List LoadPart) : State :=
  let (data, bad) := s.weightLine (addr / 128)
  let s1 :=
    if !alloc || bad || (tblGet (s.core core).weights (addr / 128)).isSome || s.l1Ways core == 0 then s
    else (s.l1Room core (addr / 128)).modCore core (fun c => { c with weights := c.weights ++ [(addr / 128, data)] })
  s1.serve data noObs bad parts

/-- A response of a line whose departure its die still has to report waits (R168). -/
def State.reportDue (s : State) (ctx : Nat) (l : LineNo) : Bool :=
  match s.regionAt (sliceUnit l) ctx l with
  | some (_, r) => r.reports (homeDie l)
  | none => false

/-- The context a response goes to. -/
def respCtx (s : State) (core : Nat) (l : LineNo) : ReadFor → Option Nat
  | .l1 _ _ => (tblGet (s.core core).reqs l).map (fun r => r.req.ctx)
  | .direct _ (p :: _) => some p.g.key.ctx
  | _ => none

/-- REFRESH_WINDOW_END (R119). -/
def execRefreshWindowEnd (m : Nat) (s : State) : Out :=
  match s.deliverable m with
  | some ⟨_, .refresh core a alloc parts, _, _⟩ =>
    if inRefresh a s.now then .next s else .next ((s.take m).weightArrive core a alloc parts)
  | _ => .next s

/-- LEASE_EXPIRY (R94). -/
def execLeaseExpiry (core line : Nat) (s : State) : Out :=
  match tblGet (s.core core).copies line with
  | none => .next s
  | some x =>
    let past (t : Nat) : Bool := decide (t ≤ s.nowAt core + Config.epsilon)
    if past x.expiry then .next (s.dropCopy core line)
    else if x.older.any (fun (y : OlderCopy) => past y.expiry) then .next (s.dropOlder core line)
    else .next s

/-! ## The host (R65, R108, R135, R136) -/

/-- HOST_SNOOP: `now` has passed LX plus ε when it lies behind (log 5). -/
def execHostSnoop (line : Nat) (s : State) : Out :=
  match (if isHost line then tblGet s.lines line else none) with
  | none => .next s
  | some x =>
    if x.lx + Config.epsilon < s.now then
      .next { s.writeBack line x with lines := tblDel s.lines line }
    else .next s

/-- HOST_WRITE: device memory at its home, refused with a completer abort on a code frame, which firmware logs (R56); or
the host's own memory, where the agent does not hold the line (log 17). -/
def execHostWrite (line : Nat) (data mask : LineBits) (s : State) : Out :=
  if isHost line then
    if (tblGet s.lines line).isSome then .next s
    else .next { s with mem := s.mem.writeL (lineByte line) (leBytes 128 (mergeLine (s.lineData line) data mask).toNat) }
  else if s.isCode (lineByte line) then
    .next { s with hostDone := some (.abort line), fw := { s.fw with aborts := s.fw.aborts ++ [line] } }
  else match s.ready line with
    | (false, s1) => .next s1
    | (true, s1) =>
      let s2 := if isCxl line then s1.countHome line false else s1
      .next (s2.applyStore line data mask false false false).2

/-- HOST_READ: every store that has arrived at the home is in the data that completes it (R136). -/
def execHostRead (line : Nat) (s : State) : Out :=
  if isHost line then .next s
  else match s.ready line with
    | (false, s1) => .next s1
    | (true, s1) =>
      let s2 := (if isCxl line then s1.countHome line false else s1).modLine line (fun x => { x with used := s.now })
      .next { s2 with hostDone := some (.data line (s2.lineData line) (s2.linePoisoned line)) }

/-- CXL_COMPLETION: a home-only read or posted write of host memory (R135). -/
def execCxlCompletion (m : Nat) (s : State) : Out :=
  match s.deliverable m with
  | some ⟨_, .host r, _, _⟩ => .next ((s.take m).answerRead r none)
  | some ⟨_, .hostStore t, _, _⟩ => .next ((s.take m).serveStore t)
  | _ => .next s

/-- A load's parts fail: nothing is written, and each thread's part faults. -/
def State.failParts (s : State) (code : FaultCode) (reason : Byte) (parts : List LoadPart) : State :=
  parts.foldl (fun s p =>
    (s.modGroup p.g (fun g => g.arrival p.op
      { who := p.who, va := p.va, dst := .zero, ty := p.ty, x := 0#128, bad := some (code, reason) })).opPart p.g p.op) s

/-! ## Walks (R79, R80). A walk that an instruction makes is one step with the instruction (log 18); the walkers'
walks fill the TLBs. Both go through the die's walk cache. -/

/-- PAGE_WALK: it joins a walk in progress, starts, or waits its turn. -/
def execPageWalk (core ctx : Nat) (va : Word64) (s : State) : Out :=
  let die := dieOfCore core
  let d := s.die die
  let w : Walk := ⟨[core], ctx, va⟩
  if d.walks.any (sameWalk w) then
    .next (s.modDie die (fun d => { d with walks := d.walks.map (fun x =>
      if sameWalk w x then { x with cores := insertNew x.cores core } else x) }))
  else if d.walks.length < Config.walkers then .next (s.modDie die (fun d => { d with walks := d.walks ++ [w] }))
  else if d.walkQueue.length < Config.walkQueue then
    .next (s.modDie die (fun d => { d with walkQueue := d.walkQueue ++ [w] }))
  else .next s

/-- WALK_RESULT: a leaf fills the TLBs of the cores that wait for it; an error or an entry not present fills none. -/
def execWalkResult (die k : Nat) (s : State) : Out :=
  match (s.die die).walks[k]? with
  | none => .next s
  | some w => .next (s.endWalk die k w).2

end Sys2Proof.Machine
end

