-- ==== Sys2Proof/Machine/Fence.lean ====
section
/-! DEFINITION. FENCE and WAIT, and what an entry under a hold waits for (R126 to R129, R131, R371, R385). -/

namespace Sys2Proof.Machine

/-! ## Fences -/

def FenceWait.releases (f : FenceWait) : Bool := f.kind != .acq
def FenceWait.acquires (f : FenceWait) : Bool := f.kind != .rel

/-- The earlier operations that a fence waits for (R127): loads, and with a release the stores; at core scope not STG. -/
def fenceOps (g : Group) (k : FenceKind) (sc : Scope) : List Nat :=
  (g.ops.filter (fun o =>
    o.cls == .ld || (k != .acq && o.cls == .st && (sc != .core || o.kind != .stg)))).map Op.id

/-- The observations that an acquire resolves: those of the operations before it (R127). -/
def FenceWait.obs (f : FenceWait) (g : Group) : List Pending :=
  if f.kind != .rel && f.scope != .core then (g.pendObs.filter (fun p => decide (p.2 < f.since))).map Prod.fst else []

/-- Drain what the group wrote, and the entries that it observed (R103, R127). -/
def State.fenceDrain (s : State) (r : GroupRef) (core : Nat) (obs : List Pending) (d : Drainer) : State :=
  s.drainWhere core (fun b => b.writers.contains r || obs.contains (.entry core b.id)) d

/-- A fence begins. -/
def State.fenceStart (s : State) (r : GroupRef) (k : FenceKind) (sc : Scope) (d : Drainer) : FenceWait × State :=
  match s.group r with
  | none => (⟨k, sc, s.nextId, [], none, d.mask⟩, s)
  | some g =>
    let f : FenceWait := ⟨k, sc, s.nextId, fenceOps g k sc, none, d.mask⟩
    (f, s.fenceDrain r g.core (f.obs g) d)

/-- The L1 copies whose use an acquire ends (R128). -/
def fenceEnds (core : Nat) (sc : Scope) (l : LineNo) : Bool :=
  match sc with
  | .core => false
  | .clus | .die => homeDie l != dieOfCore core
  | .dev => isHost l
  | .sys => true

/-- The time a fence waits for, as the horizons stand (R127). -/
def fenceTime (g : Group) (k : FenceKind) (sc : Scope) : Nat :=
  if k = .acq then g.ob.at sc else max (g.hz.at sc) (g.ob.at sc)

/-- The use of copies that an acquire ends. At system scope what is written from outside has to be seen, whoever has the
line leased: the die's gateway caches stop using their copies too (R128, R136; log 42). -/
def State.acquireEnds (s : State) (core : Nat) (sc : Scope) : State :=
  let s1 := s.endCopies core (fenceEnds core sc)
  if sc = .sys then
    { s1 with gateways := s1.gateways.map (fun x =>
        if x.1.1 = dieOfCore core then (x.1, { x.2 with copy := false, stale := x.2.stale || x.2.renewing }) else x) }
  else s1

/-- What has changed for a fence since it was looked at: the operations and observations still missing, the time once
they are done. An observation that a covered load has brought meanwhile counts (log 19). Some: it is over. -/
def State.fenceStep (s : State) (r : GroupRef) (pc : Word64) (f : FenceWait) : Option State × FenceWait × State :=
  match s.group r with
  | none => (some s, f, s)
  | some g =>
    let ops := f.ops.filter (fun i => g.ops.any (fun o => o.id == i))
    let obs := f.obs g
    let s1 := if obs.isEmpty then s else s.fenceDrain r g.core obs ⟨r, pc, f.act⟩
    let target := match f.target with
      | some t => some t
      | none => if ops.isEmpty && obs.isEmpty then some (fenceTime g f.kind f.scope) else none
    let f1 := { f with ops := ops, target := target }
    match target with
    | some t =>
      if t ≤ s.nowAt g.core then
        (some (if f.acquires then s1.acquireEnds g.core f.scope else s1), f1, s1)
      else (none, f1, s1)
    | none => (none, f1, s1)

def execFence (c : Ctl) (_h : Hint) (k : FenceKind) (sc : Scope) (s : State) : Out :=
  begin_ c s (fun e =>
    if e.act = 0#32 then .next (e.retire c e.g)
    else
      let (f, s1) := e.s.fenceStart e.r k sc e.drainer
      match s1.fenceStep e.r e.pc f with
      | (some s2, _, _) => .next (e.finish c s2 0#32)
      | (none, f1, s2) =>
        match s2.group e.r with
        | none => .next s2
        | some g => ({ e with s := s2, g := g }).hold c (.fence f1))

/-! ## WAIT (R385) -/

def counterOk (g : Group) (k : OpClass) (lim : Nat) : Bool := decide (lim = 15) || decide (g.counter k ≤ lim)
def countersOk (g : Group) (ld st cp tl : Nat) : Bool :=
  counterOk g .ld ld && counterOk g .st st && counterOk g .cp cp && counterOk g .tl tl

def execWait (c : Ctl) (ld st cp tl : BitVec 4) (s : State) : Out :=
  begin_ c s (fun e =>
    if e.act = 0#32 || countersOk e.g ld.toNat st.toNat cp.toNat tl.toNat then .next (e.retire c e.g)
    else e.hold c (.counters ld.toNat st.toNat cp.toNat tl.toNat))

/-! ## Holds (R371) -/

def opsDone (g : Group) (ids : List Nat) : Bool := ids.all (fun i => !g.ops.any (fun o => o.id == i))

/-- No store of the core to a line is under way, nor a forward or a renewal of its die. -/
def State.lineQuiet (s : State) (core : Nat) (l : LineNo) : Bool :=
  !s.storeOut core l && (s.gw (dieOfCore core) l).fwds.isEmpty && !(s.gw (dieOfCore core) l).renewing

/-- What has become of a hold. -/
inductive HoldStep where
  /-- It goes on; the state and the hold as they are now. -/
  | stays (s : State) (h : Hold)
  /-- It is over, and its threads go to the next slot. -/
  | over (s : State)
  /-- Its instruction may issue: the mark stays until it does. -/
  | ready (s : State) (h : Hold)
  /-- It is over, and its own effect has moved its threads. -/
  | done (s : State)

/-- Look at a hold. -/
def State.holdStep (s : State) (r : GroupRef) (g : Group) (h : Hold) : HoldStep :=
  match h.kind with
  | .counters ld st cp tl => if countersOk g ld st cp tl then .over s else .stays s h
  | .fence f =>
    match s.fenceStep r h.pc f with
    | (some s1, _, _) => .over s1
    | (none, f1, s1) => .stays s1 { h with kind := .fence f1 }
  | .after f =>
    match s.fenceStep r h.pc f with
    | (some s1, _, _) => .over s1
    | (none, f1, s1) => .stays s1 { h with kind := .after f1 }
  | .before f =>
    match s.fenceStep r h.pc f with
    | (some s1, f1, _) => .ready s1 { h with kind := .before f1 }
    | (none, f1, s1) => .stays s1 { h with kind := .before f1 }
  | .ops ids => if opsDone g ids then .over s else .stays s h
  | .bank ids | .filled ids => if opsDone g ids then .ready s h else .stays s h
  | .table ids =>
    if ids.any (fun i => (s.cluster (clusterOfCore g.core)).table.any (fun x => x.2.id == i)) then .stays s h else .ready s h
  | .lines ls => if ls.all (fun l => s.lineQuiet g.core l) then .ready s h else .stays s h
  | .arrive ids slot k await act =>
    if opsDone g ids then
      .done (arrive (s.modGroup r (fun g => { g with holds := g.holds.filter (fun x => decide (x ≠ h)) }))
        r h.mask act h.pc slot k await)
    else .stays s h
  | .release _ _ _ _ => .stays s h
  | .turn => if s.changing r.key.ctx then .stays s h else .ready s h
  | .region n => if (tblGet s.changes n).isNone then .over s else .stays s h
  | .query n d =>
    match tblGet s.changes n with
    | some x =>
      if x.left != 0 then .stays s h
      else .over ({ s with changes := tblDel s.changes n }.modGroup r (fun g => g.write .b64 d 0 x.result))
    | none => .over s

/-- Replace a hold of a group, or remove it. -/
def State.putHold (s : State) (r : GroupRef) (old : Hold) (new : Option Hold) : State :=
  s.modGroup r (fun g => { g with holds := g.holds.flatMap (fun x => if x = old then new.toList else [x]) })

/-- Look at one hold of a group, and at what its end does. -/
def State.settleHold (s : State) (r : GroupRef) (h : Hold) : State :=
  match s.group r with
  | none => s
  | some g =>
    match s.holdStep r g h with
    | .stays s1 h1 => if h1 = h then s1 else s1.putHold r h (some h1)
    | .ready s1 h1 => if h1 = h then s1 else s1.putHold r h (some h1)
    | .over s1 => (s1.putHold r h none).modGroup r (fun g => g.advance h.mask h.pc)
    | .done s1 => s1

/-- Look at every hold of a group. -/
def State.settle (s : State) (r : GroupRef) : State :=
  match s.group r with
  | none => s
  | some g => g.holds.foldl (fun s h => s.settleHold r h) s

/-- Whether a hold lets its threads' entry issue. -/
def State.holdReady (s : State) (r : GroupRef) (g : Group) (h : Hold) : Bool :=
  match s.holdStep r g h with
  | .ready _ _ => true
  | _ => false

/-- The release before an instruction: on the first issue the entry waits; once it is over the instruction goes on, and
the mark is gone. -/
def releaseFirst (c : Ctl) (sc : Scope) (e : Iss) (f : Iss → Out) : Out :=
  match e.g.holds.find? (fun h => decide (h.pc = e.pc) && (h.mask &&& e.mask) != 0#32 && (match h.kind with
    | .before _ => true
    | _ => false)) with
  | some h =>
    let g1 := { e.g with holds := e.g.holds.filter (fun x => decide (x ≠ h)) }
    f { e with s := e.s.setGroup e.r g1, g := g1 }
  | none =>
    let (w, s1) := e.s.fenceStart e.r .rel sc e.drainer
    match s1.fenceStep e.r e.pc w with
    | (some s2, _, _) =>
      match s2.group e.r with
      | none => .next s2
      | some g => f { e with s := s2, g := g }
    | (none, w1, s2) =>
      match s2.group e.r with
      | none => .next s2
      | some g => ({ e with s := s2, g := g }).hold c (.before w1)

/-- The acquire after an instruction that has issued: its entry waits at its PC for it. It covers the operations issued so
far, the instruction's among them (R131; DESIGN CHOICE, log 19). -/
def acquireAfter (e : Iss) (sc : Scope) (stay : Mask) (s : State) : State :=
  let (w, s1) := s.fenceStart e.r .acq sc e.drainer
  s1.modGroup e.r (fun g => { g with holds := g.holds ++ [⟨e.mask &&& ~~~stay, e.pc, .after w⟩] })

end Sys2Proof.Machine
end

