-- ==== Sys2Proof/Machine/Control.lean ====
section
/-! DEFINITION. NOP, transfers of control, frames, EXIT, YIELD, SLEEP and WAKE, and the releases of colours that RET,
EXIT, TRET and MWAIT wait for (R55, R352, R357, R375 to R388, R421). -/

namespace Sys2Proof.Machine

/-! ## Targets (R377) -/

/-- A target operand: a uniform register, or a thread's pair. -/
def targetOf (e : Iss) (t : Tid) (x : VS) : Word64 := Operand.vs e 64 t x

/-- The target of an offset. -/
def offTarget (pc : Word64) (off : BitVec 34) : Word64 := indexAddr (slotIndex pc + off.toInt)

/-- The two checks of R377 on the targets of some threads. -/
def targetFault (e : Iss) (act : Mask) (tgt : Tid → Word64) : Option (FaultCode × Mask × Word64) :=
  let split := maskOf (fun t => act.getLsbD t.val && (maskTids (e.g.boundSet t)).any (fun u => tgt u != tgt t))
  let bad := maskOf (fun t => act.getLsbD t.val && !isSlot (tgt t))
  if split != 0#32 then some (.divergeBound, split, 0#64)
  else match maskTids bad with
    | t :: _ => some (.misaligned, bad, tgt t)
    | [] => none

/-- Send the threads of ACTIVE to their targets, the rest of the entry to the next slot. -/
def Iss.transfer (e : Iss) (c : Ctl) (s : State) (g : Group) (tgt : Tid → Word64) : State :=
  e.retireWith c s (g.modThreads e.act (fun t th => { th with pc := tgt t })) e.act

def jump (c : Ctl) (tgt : Iss → Tid → Word64) (s : State) : Out :=
  begin_ c s (fun e =>
    match targetFault e e.act (tgt e) with
    | some (code, m, a) => e.fault code m a
    | none => .next (e.transfer c e.s e.g (tgt e)))

def execBra (c : Ctl) (off : BitVec 34) (s : State) : Out := jump c (fun e _ => offTarget e.pc off) s
def execBrx (c : Ctl) (t : VS) (s : State) : Out := jump c (fun e u => targetOf e u t) s

/-! ## Frames (R381, R382) -/

/-- The address of a thread's frame at a depth. -/
def frameAddr (b : Block) (r : GroupRef) (t : Tid) (k : Nat) : Word64 :=
  b.lr.fsb + BitVec.ofNat 64 ((r.key.blk * b.lr.bsz + 32 * r.grp + t.val) * b.lr.fsz + 16 * (k - 1))

def frameBits (f : Frame) : BitVec 128 := BitVec.ofNat 128 (f.ret.toNat + f.depth * 2 ^ 64)

/-- The greatest depth of a thread. -/
def frameLimit (b : Block) : Nat := Config.hwFrames + b.lr.fsz / 16

/-- Push a frame: the oldest of 64 has been spilled. -/
def Thread.push (th : Thread) (ret : Word64) : Thread :=
  { th with frames := (⟨ret, th.fdep + 1⟩ :: th.frames).take Config.hwFrames, fdep := th.fdep + 1 }

/-- Pop a frame; `fill` is the frame read back as the oldest. -/
def Thread.pop (th : Thread) (fill : Option Frame) : Thread :=
  { th with frames := th.frames.drop 1 ++ fill.toList, fdep := th.fdep - 1 }

/-- Spill the oldest hardware frames of threads at depth 64 or more: stores of the threads that no counter counts. -/
def State.spill (s : State) (e : Iss) (b : Block) (xs : List (Tid × Xlat)) : State :=
  let (id, s1) := s.freshId
  xs.foldl (fun s x =>
    let th := e.g.thread x.1
    match th.frames.getLast? with
    | none => s
    | some f => s.storePart e .default x.2 (frameAddr b e.r x.1 (th.fdep - 63)) 16 id x.1 (frameBits f)) s1

def callWith (c : Ctl) (link : VDst) (tgt : Iss → Tid → Word64) (s : State) : Out :=
  begin_ c s (fun e =>
    match targetFault e e.act (tgt e), e.s.block e.r.key with
    | some (code, m, a), _ => e.fault code m a
    | none, none => .next e.s
    | none, some b =>
      let full := maskOf (fun t => e.act.getLsbD t.val && decide (frameLimit b ≤ (e.g.thread t).fdep))
      if full != 0#32 then e.fault .frameOverflow full
      else
        let deep := (maskTids e.act).filter (fun t => decide (Config.hwFrames ≤ (e.g.thread t).fdep))
        let addr (t : Tid) := frameAddr b e.r t ((e.g.thread t).fdep - 63)
        let (res, s1) := e.s.xlateAll e.g.core e.r.key.ctx Need.write addr false deep
        let e1 := { e with s := s1 }
        match xlatFault Need.write res with
        | some (code, m, reason) => e1.fault code m (addr ((maskTids m).headD 0)) reason
        | none =>
          let xs := res.filterMap (fun x => match x.2 with
            | .ok y => some (x.1, y)
            | _ => none)
          let rt := nextSlot e.pc
          let g1 := e.g.modThreads e.act (fun _ th => th.push rt)
          let g2 := match link with
            | .v n => e.forThreads g1 (fun t g => g.writeV t n (rt.setWidth 32))
            | .zero => g1
          .next ((e1.transfer c s1 g2 (tgt e)).spill e b xs))

def execCall (c : Ctl) (link : VDst) (off : BitVec 34) (s : State) : Out :=
  callWith c link (fun e _ => offTarget e.pc off) s
def execCallx (c : Ctl) (link : VDst) (t : VS) (s : State) : Out :=
  callWith c link (fun e u => targetOf e u t) s

/-! ## The ends of RET, EXIT, TRET and MWAIT (R352, R357, R379, R380, R421) -/

/-- A thread exits: it discards its frames and its binding, and leaves for good (R257). -/
def Thread.exit (th : Thread) : Thread :=
  { th with
    status := .exited
    deadline := none
    frames := []
    fdep := 0
    lbk := 0
    lix := 0
    savedLbk := 0
    savedLix := 0 }

/-- Every thread of the handler that has not exited has executed TRET. -/
def Group.joined (g : Group) : Bool :=
  g.inHandler && (List.finRange 32).all (fun t =>
    let th := g.thread t
    !th.inTrap || th.isExited || th.status == .parked .tretJoin)

/-- A group whose handler threads have all arrived, or exited, leaves its handler; a dying one completes termination
(R414, R421, R422). -/
def State.handlerJoin (s : State) (r : GroupRef) : State :=
  match s.group r with
  | none => s
  | some g =>
    if !g.joined then s
    else if g.dying then s.modBlock r.key (fun b => { b with status := .terminating })
    else
      let back := maskOf (fun t => (g.thread t).inTrap && !(g.thread t).isExited)
      if back != 0#32 && !isSlot g.trapPc then
        s.raise r ⟨0#64, back⟩ { code := .trapNested, mask := back, pc := (g.thread ((maskTids back).headD 0)).pc }
      else s.setGroup r g.leaveHandler

/-- The effect of an instruction on a thread whose colours have been released. -/
def RelOp.finish (op : RelOp) (now : Nat) (pc : Word64) (ways : List RetTo) (g : Group) (t : Tid) : Group :=
  match op with
  | .exit => g.modThread t Thread.exit
  | .ret =>
    match ways.find? (fun w => w.t == t) with
    | some w => g.modThread t (fun th => { th.pop w.fill with pc := w.pc })
    | none => g.modThread t Thread.exit
  | .tret => g.park t now .tretJoin none pc
  | .mwait _ _ => g

/-- Finish, for the threads of `act`, an instruction whose colours have all been released. -/
def State.finishOp (s : State) (r : GroupRef) (op : RelOp) (act : Mask) (pc : Word64) (ways : List RetTo) : State :=
  (s.modGroup r (fun g => (maskTids act).foldl (op.finish s.now pc ways) g)).handlerJoin r

/-- An instruction that releases colours: the entries that its threads wrote drain, and its entry waits for the releases
where there are any. -/
def startRelease (c : Ctl) (e : Iss) (op : RelOp) (ways : List RetTo) : Out :=
  let left := maskOf (fun t => e.act.getLsbD t.val && !(op.ofSet e.g t).isEmpty)
  if left = 0#32 then .next ((e.retireWith c e.s e.g e.act).finishOp e.r op e.act e.pc ways)
  else
    let s1 := (maskTids left).foldl (fun s t =>
      s.drainReleased e.r e.g t (op.ofSet e.g t) { e.drainer with mask := left }) e.s
    match s1.group e.r with
    | none => .next s1
    | some g => ({ e with s := s1, g := g }).hold c (.release op e.act left ways)

/-- Park a bound set in MWAIT, each thread with its kept frame. -/
def Group.parkMwait (g : Group) (set : Mask) (now dl : Nat) (d : Option PReg) (pc : Word64) : Group :=
  (maskTids set).foldl (fun g t =>
    match (g.thread t).held with
    | h :: _ => g.park t now (.mwait h.colour d h.frame h.handler) (if dl = 0 then none else some dl) (nextSlot pc)
    | [] => g) g

/-- COLOUR_RELEASE: a thread whose waits are over sends its releases, for its whole bound set; with the last one the
instruction has its effect. A waiter of MWAIT parks as it sends its release. -/
def execColourRelease (t : ThreadRef) (s : State) : Out :=
  match s.group t.g with
  | none => .next s
  | some g =>
    match g.holds.find? (fun h => match h.kind with
      | .release _ _ left _ => left.getLsbD t.tid.val
      | _ => false) with
    | some ⟨mask, pc, .release op act left ways⟩ =>
      if !s.releaseReady t.g g t.tid (op.ofSet g t.tid) then .next s
      else
        let set := g.boundSet t.tid
        let owner : Tid := (maskTids set).headD t.tid
        let wait : Option Waiter := match op with
          | .mwait _ dl => some { t := ⟨t.g, owner⟩, unit := set, lset := lsetOf (g.thread t.tid).lbk, dl := dl, mwait := true
                                  index := s.spillIndex t.g owner }
          | _ => none
        let s1 := match op with
          | .mwait d dl => s.modGroup t.g (fun g => g.parkMwait set s.now dl d pc)
          | _ => s
        let s2 := s1.releaseSet t.g op t.tid wait
        let old : Hold := ⟨mask, pc, .release op act left ways⟩
        let left1 := left &&& ~~~set
        let parts := match op with
          | .mwait _ _ => set
          | _ => 0#32
        if left1 != 0#32 then
          .next (s2.putHold t.g old (some ⟨mask &&& ~~~parts, pc, .release op act left1 ways⟩))
        else
          .next (((s2.putHold t.g old none).modGroup t.g (fun g => g.advance (mask &&& ~~~act) pc)).finishOp t.g op act
            pc ways)
    | _ => .next s

/-! ## RET and EXIT -/

/-- A frame record of R381. -/
def frameOfBits (x : BitVec 128) : Frame := ⟨x.setWidth 64, (x.extractLsb' 64 32).toNat⟩

/-- The frame that has come for a thread at its depth. -/
def Group.filled (g : Group) (t : Tid) : Option Frame :=
  (g.fills.find? (fun f => f.1 == t && f.2.1 == (g.thread t).fdep)).map (fun f => frameOfBits f.2.2)

/-- The fills of some threads: loads of 16 bytes with the default hint, which no counter counts; the RET waits (R382). -/
def fillFrames (c : Ctl) (e : Iss) (xs : List (Tid × Xlat)) (addr : Tid → Word64) : Out :=
  let (id, s1) := e.s.issueOp e.r (fun id =>
    { id := id, cls := .none, kind := .fill, pc := e.pc, act := e.act, parts := xs.length, dests := [], clobbered := []
      ext := xs.any (fun y => isHost (y.2.leaf.line (addr y.1))), cols := [] })
  let s2 := s1.loadAll e .default id xs addr (fun t =>
    { g := e.r, op := id, who := some t, va := addr t, off := (addr t).toNat % 128, n := 16, dst := .zero, ty := .b128
      own := 0#1024, ownMask := 0#1024 })
  match s2.group e.r with
  | none => .next s2
  | some g => ({ e with s := s2, g := g }).hold c (.filled [id])

def execRet (c : Ctl) (link : Option VReg) (s : State) : Out :=
  begin_ c s (fun e =>
    match e.s.block e.r.key with
    | none => .next e.s
    | some b =>
      let th (t : Tid) := e.g.thread t
      let nested := maskOf (fun t => e.act.getLsbD t.val && e.g.inHandler && decide ((th t).fdep = (th t).tdep))
      let back := maskOf (fun t => e.act.getLsbD t.val && decide ((th t).fdep ≠ 0))
      let tgt (t : Tid) : Word64 :=
        match (th t).frames with
        | [] => 0#64
        | f :: _ => match link with
          | none => f.ret
          | some n => f.ret.extractLsb' 32 32 ++ Operand.v e t n
      if nested != 0#32 then e.fault .trapNested nested
      else match targetFault e back tgt with
        | some (code, m, a) => e.fault code m a
        | none =>
          let hw (t : Tid) : Bool := decide ((th t).fdep ≤ Config.hwFrames)
          let deep := (maskTids back).filter (fun t => !hw t && (e.g.filled t).isNone)
          let addr (t : Tid) := frameAddr b e.r t ((th t).fdep - 64)
          let (res, s1) := e.s.xlateAll e.g.core e.r.key.ctx Need.read addr false deep
          let e1 := { e with s := s1 }
          match xlatFault Need.read res with
          | some (code, m, reason) => e1.fault code m (addr ((maskTids m).headD 0)) reason
          | none =>
            let xs := res.filterMap (fun x => match x.2 with
              | .ok y => some (x.1, y)
              | _ => none)
            if !xs.isEmpty then fillFrames c e1 xs addr
            else
              let ways := (maskTids back).map (fun t => (⟨t, tgt t, if hw t then none else e.g.filled t⟩ : RetTo))
              let g1 := { e.g with fills := e.g.fills.filter (fun f => !e.act.getLsbD f.1.val) }
              startRelease c { e1 with s := s1.setGroup e.r g1, g := g1 } .ret ways)

def execExit (c : Ctl) (s : State) : Out := begin_ c s (fun e => startRelease c e .exit [])

/-! ## YIELD, SLEEP, WAKE (R384, R386 to R388) -/

def execYield (c : Ctl) (s : State) : Out :=
  begin_ c s (fun e =>
    if e.act = 0#32 then .next (e.retire c e.g)
    else .next (e.retire c { e.g with passOver := some (nextSlot e.pc) }))

def sleepTicks (e : Iss) (t : Tid) : SleepN → Nat
  | .v n => (Operand.v e t n).toNat
  | .s n => (Operand.s e n).toNat
  | .imm x => x.toNat

def wkOf : PDst → Option PReg
  | .p n => some n
  | .zero => none

/-- Write a wake result where one is named. -/
def Group.writeWk (g : Group) (t : Tid) (wk : Option PReg) (x : Bool) : Group :=
  match wk with
  | some n => g.writeP t n x
  | none => g

def execSleep (c : Ctl) (wk : PDst) (n : SleepN) (s : State) : Out :=
  begin_ c s (fun e =>
    let awake := maskOf (fun t => e.act.getLsbD t.val && (e.g.thread t).wakePending)
    let g1 := e.forThreads e.g (fun t g =>
      let k := sleepTicks e t n
      g.park t e.s.now (.sleep (wkOf wk)) (if k = 0 then none else some (e.s.nowAt e.g.core + k)) (nextSlot e.pc))
    let g2 := (maskTids awake).foldl (fun g t =>
      ((g.modThread t (fun th => { th with wakePending := false })).writeWk t (wkOf wk) true).release t (nextSlot e.pc)) g1
    .next (e.retireWith c e.s g2 e.act))

/-- A wake reaches a thread (R386, R387). -/
def Group.wake (g : Group) (t : Tid) : Group :=
  match (g.thread t).status with
  | .exited => g
  | .parked (.sleep wk) => (g.writeWk t wk true).release t (g.thread t).pc
  | _ => g.modThread t (fun th => { th with wakePending := true })

/-- Wakes reach threads of a group, resident or saved (R387, R388). -/
def State.wakeThreads (s : State) (r : GroupRef) (m : Mask) : State :=
  let wake (g : Group) : Group := (maskTids m).foldl (fun g t => g.wake t) g
  match s.group r with
  | some _ => s.modGroup r wake
  | none =>
    let sleeping : Mask := match (tblGet s.saved r.key).bind (fun v => tblGet v.groups r.grp) with
      | none => 0#32
      | some g => maskOf (fun t => m.getLsbD t.val && (match (g.thread t).status with
        | .parked (.sleep _) => true
        | _ => false))
    s.savedEvent r.key r.grp sleeping true (fun v => { v with groups := tblMod v.groups r.grp wake })

def execWake (c : Ctl) (gr : WakeG) (m : WakeM) (s : State) : Out :=
  begin_ c s (fun e =>
    let n := match gr with
      | .s x => (Operand.s e x).toNat
      | .grp => e.r.grp
    let mask : Mask := match m with
      | .s x => (Operand.s (e.nth 1) x).setWidth 32
      | .amask => e.mask
    let s1 := e.retire c e.g
    if e.act = 0#32 then .next s1
    else .next (s1.wakeThreads ⟨e.r.key, n⟩ mask))

/-- SLEEP_DEADLINE. The tick of the deadline still belongs to a WAKE (R388), so the release stands at its end. DEDUCED,
log 5. -/
def execSleepDeadline (t : ThreadRef) (s : State) : Out :=
  match s.group t.g with
  | none => .next s
  | some g =>
    match (g.thread t.tid).status, (g.thread t.tid).deadline with
    | .parked (.sleep wk), some d =>
      if d < s.nowAt g.core then
        .next (s.setGroup t.g ((g.writeWk t.tid wk false).release t.tid (g.thread t.tid).pc))
      else .next s
    | _, _ => .next s

/-- The sleepers whose deadlines have passed. -/
def State.overdue (s : State) : List ThreadRef :=
  s.groups.flatMap (fun x => (List.finRange 32).filterMap (fun t =>
    match (x.2.thread t).status, (x.2.thread t).deadline with
    | .parked (.sleep _), some d => if d < s.nowAt x.2.core then some ⟨x.1, t⟩ else none
    | _, _ => none))

/-- Release the sleepers whose deadlines have passed, together, as time passes (R386). -/
def State.wakeSleepers (s : State) : State :=
  s.overdue.foldl (fun (s : State) t => match execSleepDeadline t s with
    | .next t => t
    | _ => s) s

end Sys2Proof.Machine
end

