-- ==== Sys2Proof/Machine/Num.lean ====
section
/-! DEFINITION. Number formats to the last bit (R192 to R215): the IEEE formats and LNS6 as exact values, the one
rounding, sums and products, conversions, and the elementary functions of R270. -/

namespace Sys2Proof.Machine

/-! ## Exact values -/

/-- What a floating-point word or an LNS6 element stands for: ±m × 2^e, a signed zero where m is 0. -/
inductive Fp where
  | nan
  | inf (neg : Bool)
  | fin (neg : Bool) (m : Nat) (e : Int)
  deriving DecidableEq, Repr

def Fp.negate : Fp → Fp
  | .nan => .nan
  | .inf n => .inf !n
  | .fin n m e => .fin (!n) m e

def Fp.isNan : Fp → Bool
  | .nan => true
  | _ => false
def Fp.isZero : Fp → Bool
  | .fin _ 0 _ => true
  | _ => false
def Fp.sign : Fp → Bool
  | .nan => false
  | .inf n => n
  | .fin n _ _ => n

/-- The number of bits of a number: 0 for 0. -/
def bitLen (n : Nat) : Nat := if n = 0 then 0 else n.log2 + 1

/-- An integer times 2^e, a positive zero for 0. -/
def Fp.ofInt (x : Int) (e : Int) : Fp := .fin (decide (x < 0)) x.natAbs e

/-! ## Formats (R193, R194) -/

/-- Exponent bits and fraction bits. -/
structure Fmt where
  eb : Nat
  fb : Nat
  deriving DecidableEq, Repr

def fp32 : Fmt := ⟨8, 23⟩
def fp16 : Fmt := ⟨5, 10⟩
def bfloat16 : Fmt := ⟨8, 7⟩

/-- The format of a type suffix; FP32 for any other. -/
def fmtOf : Ty → Fmt
  | .f16 => fp16
  | .bf16 => bfloat16
  | _ => fp32

/-- The exponent of the last place of the smallest normal value. -/
def Fmt.qmin (f : Fmt) : Int := 2 - 2 ^ (f.eb - 1) - f.fb
/-- The code of +∞, of the largest finite value, of the canonical NaN and of the sign bit. -/
def Fmt.infCode (f : Fmt) : Nat := (2 ^ f.eb - 1) * 2 ^ f.fb
def Fmt.maxCode (f : Fmt) : Nat := f.infCode - 1
def Fmt.nanCode (f : Fmt) : Nat := f.infCode + 2 ^ (f.fb - 1)
def Fmt.signBit (f : Fmt) : Nat := 2 ^ (f.eb + f.fb)

/-- The value of a code (R193). -/
def Fmt.value (f : Fmt) (x : Nat) : Fp :=
  let frac := x % 2 ^ f.fb
  let ex := x / 2 ^ f.fb % 2 ^ f.eb
  let neg := decide (x / f.signBit % 2 = 1)
  if ex = 2 ^ f.eb - 1 then (if frac = 0 then .inf neg else .nan)
  else if ex = 0 then .fin neg frac f.qmin
  else .fin neg (2 ^ f.fb + frac) (f.qmin + ex - 1)

/-- Whether rounding goes to the next larger magnitude (R197), where the part cut off is `rem` of `unit`; `more`
says that the exact value lies a little above. -/
def roundsUp (r : Rnd) (neg : Bool) (kept rem unit : Nat) (more : Bool) : Bool :=
  let inexact := rem != 0 || more
  let above := decide (unit < 2 * rem) || (decide (2 * rem = unit) && more)
  let tie := decide (2 * rem = unit) && !more
  match r with
  | .rne => above || (tie && kept % 2 == 1)
  | .rna => above || tie
  | .rz => false
  | .rdn => neg && inexact
  | .rup => !neg && inexact

/-- A magnitude rounded to a multiple of 2^q: the multiple. `more` as in `roundsUp`. A cut of more places than the
number has plus one leaves a nonzero part below half. -/
def roundTo (r : Rnd) (neg : Bool) (m : Nat) (e q : Int) (more : Bool) : Nat :=
  if q ≤ e then m * 2 ^ (e - q).toNat + (if roundsUp r neg (m * 2 ^ (e - q).toNat) 0 4 more then 1 else 0)
  else
    let sh := (q - e).toNat
    if bitLen m + 1 < sh then (if roundsUp r neg 0 (if m = 0 then 0 else 1) 4 more then 1 else 0)
    else
      let kept := m / 2 ^ sh
      kept + (if roundsUp r neg kept (m % 2 ^ sh) (2 ^ sh) more then 1 else 0)

/-- Round ±(m × 2^e, or a little above) to a code of a format (R197, R198). -/
def Fmt.roundMag (f : Fmt) (r : Rnd) (neg : Bool) (m : Nat) (e : Int) (more : Bool) : Nat :=
  let q := max (e + bitLen m - 1 - f.fb) f.qmin
  let code := (q - f.qmin).toNat * 2 ^ f.fb + roundTo r neg m e q more
  let toMax := match r with
    | .rz => true
    | .rdn => !neg
    | .rup => neg
    | _ => false
  let lim := if f.infCode ≤ code then (if toMax then f.maxCode else f.infCode) else code
  lim + (if neg then f.signBit else 0)

/-- A value as a code: exact, or rounded once (R196 to R198). -/
def Fmt.round (f : Fmt) (r : Rnd) : Fp → Nat
  | .nan => f.nanCode
  | .inf neg => f.infCode + (if neg then f.signBit else 0)
  | .fin neg m e => if m = 0 then (if neg then f.signBit else 0) else f.roundMag r neg m e false

/-! ## Sums and products (R198, R262) -/

/-- The least exponent of a list of finite values. -/
def minExp : List Fp → Int → Int
  | [], acc => acc
  | .fin _ _ e :: r, acc => minExp r (min e acc)
  | _ :: r, acc => minExp r acc

/-- The exact sum of finite values as a multiple of 2^q. -/
def sumAt (q : Int) : List Fp → Int
  | [] => 0
  | .fin neg m e :: r => (if neg then -1 else 1) * (m * 2 ^ (e - q).toNat : Nat) + sumAt q r
  | _ :: r => sumAt q r

/-- The exact sum of values: NaN for a NaN or infinities of both signs; the sign of an exact zero under R198. -/
def sumFp (r : Rnd) (l : List Fp) : Fp :=
  let pos := l.contains (.inf false)
  let neg := l.contains (.inf true)
  if l.contains .nan || (pos && neg) then .nan
  else if pos then .inf false
  else if neg then .inf true
  else
    let q := minExp l 0
    let x := sumAt q l
    if x = 0 then
      let zneg := if l.all Fp.sign then true else if l.all (fun v => !v.sign) then false else decide (r = .rdn)
      .fin zneg 0 0
    else .ofInt x q

/-- The exact product (R262). -/
def mulFp (x y : Fp) : Fp :=
  match x, y with
  | .nan, _ => .nan
  | _, .nan => .nan
  | .inf a, .inf b => .inf (a ^^ b)
  | .inf a, .fin b m _ => if m = 0 then .nan else .inf (a ^^ b)
  | .fin a m _, .inf b => if m = 0 then .nan else .inf (a ^^ b)
  | .fin a m e, .fin b n k => .fin (a ^^ b) (m * n) (e + k)

/-- The order of real values: −1, 0 or 1; none for an unordered pair (R268). -/
def cmpFp (x y : Fp) : Option Int :=
  match x, y with
  | .nan, _ => none
  | _, .nan => none
  | .inf a, .inf b => some (if a = b then 0 else if a then -1 else 1)
  | .inf a, _ => some (if a then -1 else 1)
  | _, .inf b => some (if b then 1 else -1)
  | .fin a m e, .fin b n k =>
    let q := min e k
    some (sumAt q [.fin a m e, .fin (!b) n k]).sign

/-! ## To and from integers (R200 to R202) -/

/-- A finite value rounded to an integer (R265). -/
def intRound (r : Rnd) (neg : Bool) (m : Nat) (e : Int) : Int :=
  let x : Int := roundTo r neg m e 0 false
  if neg then -x else x

/-- The range of an integer type (R192). -/
def typeLeast (ty : Ty) : Int := if ty.signed then -(2 ^ (ty.width - 1)) else 0
def typeMost (ty : Ty) : Int := if ty.signed then 2 ^ (ty.width - 1) - 1 else 2 ^ ty.width - 1
def saturate (ty : Ty) (x : Int) : Int := max (typeLeast ty) (min x (typeMost ty))

/-- R200. -/
def fpToInt (ty : Ty) (r : Rnd) : Fp → Int
  | .nan => 0
  | .inf neg => if neg then typeLeast ty else typeMost ty
  | .fin neg m e => saturate ty (intRound r neg m e)

/-! ## LNS6 (R203 to R210) -/

/-- The fractions of R204 with their leading one. -/
def sigMant : Nat → Nat
  | 0 => 0x800000
  | 1 => 0x9837F0
  | 2 => 0xB504F3
  | _ => 0xD744FD

/-- A magnitude sig[q] × 2^k with L = 4k + q, times 2^e. -/
def lnsPower (neg : Bool) (l : Int) (e : Int) : Fp := .fin neg (sigMant (l % 4).toNat) (l / 4 + e - 23)

/-- The value of a code under a block scale (R203, R205). -/
def lnsValue (code : Nat) (scale : Nat) : Fp :=
  let m := code % 32
  let neg := decide (code / 32 % 2 = 1)
  if scale = 255 then .nan
  else if m = 0 then (if neg then .nan else .fin false 0 0)
  else lnsPower neg (m - 16) ((scale : Int) - 127)

/-- The magnitude code of a nonzero finite value (R209): y = 4 log2 z + 16 with z = m × 2^e, so that floor(y) and
floor(2y) are the places of the leading bits of z^4 and z^8. -/
def lnsCode (r : Rnd) (neg : Bool) (m : Nat) (e : Int) : Int :=
  let down : Int := bitLen (m ^ 4) - 1 + 4 * e + 16
  let up : Int := if m ^ 4 = 2 ^ (bitLen (m ^ 4) - 1) then down else down + 1
  let near : Int := ((bitLen (m ^ 8) : Int) - 1 + 8 * e + 32 + 1) / 2
  match r with
  | .rne | .rna => near
  | .rz => down
  | .rup => if neg then down else max 1 up
  | .rdn => if neg then max 1 up else down

/-- R209. -/
def lnsOf (r : Rnd) (scale : Nat) : Fp → Nat
  | .nan => 0x20
  | .inf neg => if scale = 255 then 0x20 else 31 + (if neg then 32 else 0)
  | .fin neg m e =>
    if scale = 255 then 0x20
    else if m = 0 then 0
    else
      let c := lnsCode r neg m (e - (scale - 127))
      if c < 1 then 0 else (min c 31).toNat + (if neg then 32 else 0)

/-- The exact product of two elements (R210). -/
def lnsMul (a ea b eb : Nat) : Fp :=
  match lnsValue a ea, lnsValue b eb with
  | .nan, _ => .nan
  | _, .nan => .nan
  | _, _ =>
    if a % 32 = 0 || b % 32 = 0 then .fin false 0 0
    else lnsPower (decide (a / 32 % 2 ≠ b / 32 % 2)) (a % 32 + b % 32 - 32) ((ea : Int) - 127 + (eb - 127))

/-! ## Any type (R258, R271) -/

/-- The exact value that a word stands for under a type; `scale` counts for .l6. -/
def valueOf (ty : Ty) (scale : Nat) (x : Word64) : Fp :=
  if ty.isFloat then (fmtOf ty).value x.toNat
  else if ty = .l6 then lnsValue (x.toNat % 64) scale
  else .ofInt (intOf ty.signed ty.width x) 0

/-- A value converted to a type (R199 to R202, R208, R209). -/
def convertTo (ty : Ty) (r : Rnd) (scale : Nat) (v : Fp) : Word64 :=
  if ty.isFloat then BitVec.ofNat 64 ((fmtOf ty).round r v)
  else if ty = .l6 then BitVec.ofNat 64 (lnsOf r scale v)
  else BitVec.ofInt 64 (fpToInt ty r v)

/-- A floating-point word's value, and a value rounded to a word. -/
def fpOf (ty : Ty) (x : Word64) : Fp := (fmtOf ty).value x.toNat
def fpTo (ty : Ty) (r : Rnd) (v : Fp) : Word64 := BitVec.ofNat 64 ((fmtOf ty).round r v)

/-! ## Roots and elementary functions (R270). A value that is not exact is given as a multiple of 2^−p that lies at or
just below it, with p well past the last place that rounding asks for (log 12). -/

/-- The integer square root: bit by bit, from bit n − 1. -/
def isqrtFrom (x : Nat) : Nat → Nat → Nat
  | 0, acc => acc
  | n + 1, acc => isqrtFrom x n (if (acc + 2 ^ n) * (acc + 2 ^ n) ≤ x then acc + 2 ^ n else acc)
def isqrt (x : Nat) : Nat := isqrtFrom x (bitLen x / 2 + 1) 0

/-- FRCP. -/
def frcp (r : Rnd) (x : Word64) : Word64 :=
  match fpOf .f32 x with
  | .nan => fpTo .f32 r .nan
  | .inf n => fpTo .f32 r (.fin n 0 0)
  | .fin n m e =>
    if m = 0 then fpTo .f32 r (.inf n)
    else BitVec.ofNat 64 (fp32.roundMag r n (2 ^ 64 / m) (-64 - e) (decide (2 ^ 64 % m ≠ 0)))

/-- A mantissa with an even exponent: √(m × 2^e) is √m' × 2^(e'/2). -/
def evenMant (m : Nat) (e : Int) : Nat × Int := if e % 2 = 0 then (m, e) else (2 * m, e - 1)

/-- FSQRT. -/
def fsqrt (r : Rnd) (x : Word64) : Word64 :=
  match fpOf .f32 x with
  | .nan => fpTo .f32 r .nan
  | .inf n => if n then fpTo .f32 r .nan else fpTo .f32 r (.inf false)
  | .fin n m e =>
    if m = 0 then fpTo .f32 r (.fin n 0 0)
    else if n then fpTo .f32 r .nan
    else
      let (m', e') := evenMant m e
      let y := m' * 2 ^ 80
      BitVec.ofNat 64 (fp32.roundMag r false (isqrt y) (e' / 2 - 40) (decide (isqrt y * isqrt y ≠ y)))

/-- FRSQ. -/
def frsq (x : Word64) : Word64 :=
  match fpOf .f32 x with
  | .nan => fpTo .f32 .rne .nan
  | .inf n => if n then fpTo .f32 .rne .nan else fpTo .f32 .rne (.fin false 0 0)
  | .fin n m e =>
    if m = 0 then fpTo .f32 .rne (.inf n)
    else if n then fpTo .f32 .rne .nan
    else
      let (m', e') := evenMant m e
      let s := isqrt (2 ^ 160 / m')
      BitVec.ofNat 64 (fp32.roundMag .rne false s (-80 - e' / 2) (decide (s * s * m' ≠ 2 ^ 160)))

/-- ln 2 as a multiple of 2^−p: the sum of 1 / (k × 2^k). -/
def ln2Fix (p : Nat) : Nat := (List.range p).foldl (fun acc k => acc + 2 ^ p / ((k + 1) * 2 ^ (k + 1))) 0

/-- e^y for y in [0, 1) as multiples of 2^−p: `n` terms after the first. -/
def expFix (p y : Nat) (n : Nat) : Nat :=
  ((List.range n).foldl (fun (acc : Nat × Nat) k =>
    let t := acc.2 * y / 2 ^ p / (k + 1)
    (acc.1 + t, t)) (2 ^ p, 2 ^ p)).1

/-- FEXP2. The argument is an integer plus a fraction below 1. -/
def fexp2 (x : Word64) : Word64 :=
  match fpOf .f32 x with
  | .nan => fpTo .f32 .rne .nan
  | .inf n => if n then fpTo .f32 .rne (.fin false 0 0) else fpTo .f32 .rne (.inf false)
  | .fin n m e =>
    if m = 0 then fpTo .f32 .rne (.fin false 1 0)
    else if 8 < e + bitLen m then (if n then fpTo .f32 .rne (.fin false 0 0) else fpTo .f32 .rne (.inf false))
    else
      let fix : Int := (if n then -1 else 1) * (m * 2 ^ (e + 192).toNat : Nat)
      let whole := fix / 2 ^ 192
      let frac := (fix % 2 ^ 192).toNat
      if frac = 0 then BitVec.ofNat 64 (fp32.roundMag .rne false 1 whole false)
      else BitVec.ofNat 64
        (fp32.roundMag .rne false (expFix 192 (frac * ln2Fix 192 / 2 ^ 192) 48) (whole - 192) true)

/-- The binary places of log2 of a number in [1, 2), given as a multiple of 2^−p, by repeated squaring. -/
def log2Fix (p : Nat) : Nat → Nat → Nat → Nat
  | 0, _, acc => acc
  | n + 1, y, acc =>
    let sq := y * y / 2 ^ p
    if 2 ^ (p + 1) ≤ sq then log2Fix p n (sq / 2) (2 * acc + 1) else log2Fix p n sq (2 * acc)

/-- FLOG2. -/
def flog2 (x : Word64) : Word64 :=
  match fpOf .f32 x with
  | .nan => fpTo .f32 .rne .nan
  | .inf n => if n then fpTo .f32 .rne .nan else fpTo .f32 .rne (.inf false)
  | .fin n m e =>
    if m = 0 then fpTo .f32 .rne (.inf true)
    else if n then fpTo .f32 .rne .nan
    else
      let whole : Int := e + bitLen m - 1
      let one := m * 2 ^ (320 - (bitLen m - 1))
      if one = 2 ^ 320 then fpTo .f32 .rne (.ofInt whole 0)
      else
        let fix : Int := whole * 2 ^ 112 + log2Fix 320 112 one 0
        if 0 ≤ fix then BitVec.ofNat 64 (fp32.roundMag .rne false fix.toNat (-112) true)
        else BitVec.ofNat 64 (fp32.roundMag .rne true (-fix - 1).toNat (-112) true)

/-- arctan(1/k) as a multiple of 2^−p, n terms. -/
def atanFix (p k n : Nat) : Int :=
  ((List.range n).foldl (fun (acc : Int × Nat) i =>
    (acc.1 + (if i % 2 = 0 then 1 else -1) * ((acc.2 / (2 * i + 1) : Nat) : Int), acc.2 / (k * k)))
    (0, 2 ^ p / k)).1

/-- 2π as a multiple of 2^−p (Machin). -/
def twoPiFix (p : Nat) : Nat := (32 * atanFix p 5 (p / 4 + 2) - 8 * atanFix p 239 (p / 15 + 2)).toNat

/-- The alternating series of sin (from y) or cos (from 1), as multiples of 2^−p. -/
def trigFix (p y : Nat) (sin : Bool) (n : Nat) : Int :=
  ((List.range n).foldl (fun (acc : Int × Nat) i =>
    let k := 2 * i + (if sin then 1 else 0)
    (acc.1 + (if i % 2 = 0 then 1 else -1) * (acc.2 : Int), acc.2 * y / 2 ^ p * y / 2 ^ p / ((k + 1) * (k + 2))))
    (0, if sin then y else 2 ^ p)).1

/-- FSIN and FCOS: the argument modulo 2π, the series, one rounding. -/
def ftrig (sin : Bool) (x : Word64) : Word64 :=
  match fpOf .f32 x with
  | .nan => fpTo .f32 .rne .nan
  | .inf _ => fpTo .f32 .rne .nan
  | .fin n m e =>
    if m = 0 then (if sin then fpTo .f32 .rne (.fin n 0 0) else fpTo .f32 .rne (.fin false 1 0))
    else
      let fix := m * 2 ^ (e + 400).toNat % twoPiFix 400
      let y := trigFix 400 fix sin 80
      let neg := (sin && n) ^^ decide (y < 0)
      BitVec.ofNat 64 (fp32.roundMag .rne neg y.natAbs (-400) true)

end Sys2Proof.Machine
end

