-- ==== Sys2Proof/Machine/Float.lean ====
section
/-! DEFINITION. Vector floating point, conversions and special functions (R258 to R272). -/

namespace Sys2Proof.Machine

/-- An instruction of one, two or three sources of its type and a value function on words (R259). -/
def float1 (c : Ctl) (ty : Ty) (d : Dst) (a : Src) (f : Word64 → Word64) (s : State) : Out :=
  execValue c (d.isVec || a.isVec) ty d (fun e t => f (Operand.src e 32 t a)) s
def float2 (c : Ctl) (ty : Ty) (d : Dst) (a b : Src) (f : Word64 → Word64 → Word64) (s : State) : Out :=
  execValue c (d.isVec || a.isVec || b.isVec) ty d (fun e t => f (Operand.src e 32 t a) (Operand.src (e.nth 1) 32 t b)) s
def float3 (c : Ctl) (ty : Ty) (d : Dst) (a b x : Src) (f : Word64 → Word64 → Word64 → Word64) (s : State) : Out :=
  execValue c (d.isVec || a.isVec || b.isVec || x.isVec) ty d
    (fun e t => f (Operand.src e 32 t a) (Operand.src (e.nth 1) 32 t b) (Operand.src (e.nth 2) 32 t x)) s

/-! ## Value functions -/

def floatAdd (ty : Ty) (r : Rnd) (x y : Word64) : Word64 := fpTo ty r (sumFp r [fpOf ty x, fpOf ty y])
def floatSub (ty : Ty) (r : Rnd) (x y : Word64) : Word64 := fpTo ty r (sumFp r [fpOf ty x, (fpOf ty y).negate])
def floatMul (ty : Ty) (r : Rnd) (x y : Word64) : Word64 := fpTo ty r (mulFp (fpOf ty x) (fpOf ty y))
def floatFma (ty : Ty) (r : Rnd) (x y z : Word64) : Word64 :=
  fpTo ty r (sumFp r [mulFp (fpOf ty x) (fpOf ty y), fpOf ty z])

/-- A word with only the bits of its type. -/
def floatBits (ty : Ty) (x : Word64) : Word64 := BitVec.ofNat 64 (x.toNat % 2 ^ ty.width)
def floatNan (ty : Ty) : Word64 := fpTo ty .rne .nan
def floatSign (ty : Ty) : Word64 := BitVec.ofNat 64 (fmtOf ty).signBit

/-- FMIN and FMAX (R263): of two zeros, the negative one is the smaller. -/
def floatMinMax (ty : Ty) (max : Bool) (x y : Word64) : Word64 :=
  let u := fpOf ty x
  let v := fpOf ty y
  let firstLess := match cmpFp u v with
    | some i => if u.isZero && v.isZero then u.sign else decide (i < 0)
    | none => false
  if u.isNan && v.isNan then floatNan ty
  else if u.isNan then floatBits ty y
  else if v.isNan then floatBits ty x
  else floatBits ty (if firstLess ^^ max then x else y)

/-- R264. -/
def floatAbs (ty : Ty) (x : Word64) : Word64 :=
  if (fpOf ty x).isNan then floatNan ty else floatBits ty x &&& ~~~(floatSign ty)
def floatNeg (ty : Ty) (x : Word64) : Word64 :=
  if (fpOf ty x).isNan then floatNan ty else floatBits ty x ^^^ floatSign ty

/-- R265. -/
def floatRound (ty : Ty) (r : Rnd) (x : Word64) : Word64 :=
  match fpOf ty x with
  | .fin n m e => if 0 ≤ e then floatBits ty x else fpTo ty r (.fin n (intRound r n m e).natAbs 0)
  | v => fpTo ty r v

/-- R266. -/
def floatScale (ty : Ty) (r : Rnd) (x n : Word64) : Word64 :=
  match fpOf ty x with
  | .fin neg m e => fpTo ty r (.fin neg m (e + (n.setWidth 32).toInt))
  | v => fpTo ty r v

/-- R267. -/
def floatDot2 (ty : Ty) (r : Rnd) (x y z : Word64) : Word64 :=
  fpTo .f32 r (sumFp r [mulFp (fpOf ty x) (fpOf ty y), mulFp (fpOf ty (x >>> 16)) (fpOf ty (y >>> 16)), fpOf .f32 z])

/-- R268. -/
def floatSet (ty : Ty) (cond : Cond) (u : Bool) (x y : Word64) : Bool :=
  match cmpFp (fpOf ty x) (fpOf ty y) with
  | some i => cond.holds i 0
  | none => u || decide (cond = .ne)

/-- The class of a value (R269). -/
def floatClass (ty : Ty) (x : Word64) : Nat :=
  let f := fmtOf ty
  match fpOf ty x with
  | .nan => 8
  | .inf n => if n then 0 else 7
  | .fin n m _ =>
    if m = 0 then (if n then 3 else 4)
    else if m < 2 ^ f.fb then (if n then 2 else 5)
    else if n then 1 else 6

/-! ## The instructions -/

def execFadd (c : Ctl) (ty : Ty) (r : Rnd) (d : Dst) (a b : Src) (s : State) : Out := float2 c ty d a b (floatAdd ty r) s
def execFsub (c : Ctl) (ty : Ty) (r : Rnd) (d : Dst) (a b : Src) (s : State) : Out := float2 c ty d a b (floatSub ty r) s
def execFmul (c : Ctl) (ty : Ty) (r : Rnd) (d : Dst) (a b : Src) (s : State) : Out := float2 c ty d a b (floatMul ty r) s
def execFfma (c : Ctl) (ty : Ty) (r : Rnd) (d : Dst) (a b x : Src) (s : State) : Out :=
  float3 c ty d a b x (floatFma ty r) s
def execFmin (c : Ctl) (ty : Ty) (d : Dst) (a b : Src) (s : State) : Out := float2 c ty d a b (floatMinMax ty false) s
def execFmax (c : Ctl) (ty : Ty) (d : Dst) (a b : Src) (s : State) : Out := float2 c ty d a b (floatMinMax ty true) s
def execFabs (c : Ctl) (ty : Ty) (d : Dst) (a : Src) (s : State) : Out := float1 c ty d a (floatAbs ty) s
def execFneg (c : Ctl) (ty : Ty) (d : Dst) (a : Src) (s : State) : Out := float1 c ty d a (floatNeg ty) s
/-- FSET (R268): an integer or a predicate. -/
def execFset (c : Ctl) (ty : Ty) (cond : Cond) (u : Bool) (d : DstP) (a b : Src) (s : State) : Out :=
  execTest c (d.isVec || a.isVec || b.isVec) .n32 d
    (fun e t => boolWord (floatSet ty cond u (Operand.src e 32 t a) (Operand.src (e.nth 1) 32 t b))) s
/-- FCLASS (R269). -/
def execFclass (c : Ctl) (ty : Ty) (d : DstP) (a : Src) (mask : BitVec 9) (s : State) : Out :=
  execTest c (d.isVec || a.isVec) .n32 d (fun e t =>
    let k : Word64 := BitVec.ofNat 64 (2 ^ floatClass ty (Operand.src e 32 t a))
    match d with
    | .p _ => k &&& mask.setWidth 64
    | _ => k) s
def execFrcp (c : Ctl) (r : Rnd) (d : Dst) (a : Src) (s : State) : Out := float1 c .f32 d a (frcp r) s
def execFrsq (c : Ctl) (d : Dst) (a : Src) (s : State) : Out := float1 c .f32 d a frsq s
def execFsqrt (c : Ctl) (r : Rnd) (d : Dst) (a : Src) (s : State) : Out := float1 c .f32 d a (fsqrt r) s
def execFexp2 (c : Ctl) (d : Dst) (a : Src) (s : State) : Out := float1 c .f32 d a fexp2 s
def execFlog2 (c : Ctl) (d : Dst) (a : Src) (s : State) : Out := float1 c .f32 d a flog2 s
def execFsin (c : Ctl) (d : Dst) (a : Src) (s : State) : Out := float1 c .f32 d a (ftrig true) s
def execFcos (c : Ctl) (d : Dst) (a : Src) (s : State) : Out := float1 c .f32 d a (ftrig false) s

/-- The scale of an .l6 side (R272): 127 where none is written. -/
def cvtScale (e : Iss) (t : Tid) : Src → Nat
  | .sp .zero => 127
  | x => ((Operand.src e 32 t x).setWidth 8).toNat

/-- FCVT (R271, R272). A type converted to itself returns the value, a NaN as the canonical one. -/
def execFcvt (c : Ctl) (dty sty : Ty) (r : Rnd) (d : Dst) (a : Src) (scale : Src) (s : State) : Out :=
  execValue c (d.isVec || a.isVec || scale.isVec) dty d (fun e t =>
    convertTo dty r (cvtScale (e.nth 1) t scale) (valueOf sty (cvtScale (e.nth 1) t scale) (Operand.src e sty.bits t a))) s
def execFrnd (c : Ctl) (ty : Ty) (r : Rnd) (d : Dst) (a : Src) (s : State) : Out := float1 c ty d a (floatRound ty r) s
def execFscale (c : Ctl) (ty : Ty) (r : Rnd) (d : Dst) (a b : Src) (s : State) : Out :=
  float2 c ty d a b (floatScale ty r) s
/-- FDOT2 (R267): an FP32 result. -/
def execFdot2 (c : Ctl) (ty : Ty) (r : Rnd) (d : Dst) (a b x : Src) (s : State) : Out :=
  float3 c .f32 d a b x (floatDot2 ty r) s

end Sys2Proof.Machine
end

