-- ==== Sys2Proof/Machine/Integer.lean ====
section
/-! DEFINITION. Integer and address arithmetic (R237 to R246). Values are 64-bit words whose low `w` bits count. -/

namespace Sys2Proof.Machine

/-! ## The functions of R239 to R246 -/

/-- The low `w` bits. -/
def low (w : Nat) (x : Word64) : Nat := x.toNat % 2 ^ w

/-- IMULH: the high half of the exact product (R239). -/
def intMulh (ty : Ty) (x y : Word64) : Word64 :=
  BitVec.ofInt 64 (intOf ty.signed ty.bits x * intOf ty.signed ty.bits y / 2 ^ ty.bits)

def intMin (ty : Ty) (x y : Word64) : Word64 :=
  if intOf ty.signed ty.bits x ≤ intOf ty.signed ty.bits y then x else y
def intMax (ty : Ty) (x y : Word64) : Word64 :=
  if intOf ty.signed ty.bits x ≤ intOf ty.signed ty.bits y then y else x

/-- IABS: the magnitude modulo 2^w (R239). -/
def intAbs (ty : Ty) (x : Word64) : Word64 := BitVec.ofInt 64 (intOf true ty.bits x).natAbs

/-- Shifts by an unsigned count: 0 from w on (R239). -/
def intShl (w : Nat) (x y : Word64) : Word64 :=
  if w ≤ low w y then 0#64 else BitVec.ofNat 64 (low w x * 2 ^ low w y)
def intShr (w : Nat) (x y : Word64) : Word64 :=
  if w ≤ low w y then 0#64 else BitVec.ofNat 64 (low w x / 2 ^ low w y)
def intSar (w : Nat) (x y : Word64) : Word64 :=
  if w ≤ low w y then (if intOf true w x < 0 then BitVec.ofInt 64 (-1) else 0#64)
  else BitVec.ofInt 64 (intOf true w x / 2 ^ low w y)

/-- Rotation to the left by the count modulo w (R239). -/
def intRot (w : Nat) (x y : Word64) : Word64 :=
  let n := low w y % w
  BitVec.ofNat 64 (low w x * 2 ^ n % 2 ^ w + low w x / 2 ^ (w - n) % 2 ^ n)

/-- Count the ones among bits [n−1:0]. -/
def onesBelow (x : Word64) : Nat → Nat
  | 0 => 0
  | n + 1 => onesBelow x n + (if x.getLsbD n then 1 else 0)

/-- Zeros above the highest one of bits [n−1:0]; n when there is none. -/
def zerosAbove (x : Word64) : Nat → Nat
  | 0 => 0
  | n + 1 => if x.getLsbD n then 0 else zerosAbove x n + 1

/-- Bits [n−1:0] of x in reverse order. -/
def mirror (x : Word64) (n : Nat) : Nat :=
  (List.range n).foldl (fun acc i => 2 * acc + (if x.getLsbD i then 1 else 0)) 0

/-- The field of R241: position and length modulo 256, the length cut at the width. -/
def fieldLen (w : Nat) (p len : Word64) : Nat :=
  let p := low 8 p
  if p < w then min (low 8 len) (w - p) else 0

/-- BFX (R241). -/
def bitExtract (ty : Ty) (x p len : Word64) : Word64 :=
  let l := fieldLen ty.bits p len
  if l = 0 then 0#64
  else BitVec.ofInt 64 (intOf ty.signed l (BitVec.ofNat 64 (low ty.bits x / 2 ^ low 8 p)))

/-- BFI (R241). -/
def bitInsert (w : Nat) (ins base p len : Word64) : Word64 :=
  let l := fieldLen w p len
  if l = 0 then base
  else
    let m : Word64 := BitVec.ofNat 64 ((2 ^ l - 1) * 2 ^ low 8 p)
    (base &&& ~~~m) ||| (BitVec.ofNat 64 (low l ins * 2 ^ low 8 p) &&& m)

/-- IDIV and its remainder, with the edge cases of R246; the quotient truncates toward zero. -/
def intDiv (ty : Ty) (rem : Bool) (x y : Word64) : Word64 :=
  let w := ty.bits
  let a := intOf ty.signed w x
  let b := intOf ty.signed w y
  if b = 0 then
    if rem then x
    else if !ty.signed then BitVec.ofNat 64 (2 ^ w - 1)
    else if 0 ≤ a then BitVec.ofNat 64 (2 ^ (w - 1) - 1)
    else BitVec.ofInt 64 (-(2 ^ (w - 1)))
  else if rem then BitVec.ofInt 64 (Int.tmod a b)
  else BitVec.ofInt 64 (Int.tdiv a b)

/-! ## The instructions -/

/-- `op.type d, a` and `op.type d, a, b` with a value function (R239). -/
def exec1 (c : Ctl) (ty : Ty) (d : Dst) (a : Src) (f : Word64 → Word64) (s : State) : Out :=
  execValue c (d.isVec || a.isVec) ty d (fun e t => f (Operand.src e ty.bits t a)) s
def exec2 (c : Ctl) (ty : Ty) (d : Dst) (a b : Src) (f : Word64 → Word64 → Word64) (s : State) : Out :=
  execValue c (d.isVec || a.isVec || b.isVec) ty d
    (fun e t => f (Operand.src e ty.bits t a) (Operand.src (e.nth 1) ty.bits t b)) s
def exec3 (c : Ctl) (ty : Ty) (d : Dst) (a b x : Src) (f : Word64 → Word64 → Word64 → Word64) (s : State) : Out :=
  execValue c (d.isVec || a.isVec || b.isVec || x.isVec) ty d
    (fun e t => f (Operand.src e ty.bits t a) (Operand.src (e.nth 1) ty.bits t b) (Operand.src (e.nth 2) ty.bits t x)) s

/-- MOV (R238). -/
def execMov (c : Ctl) (ty : Ty) (d : Dst) (a : Src) (s : State) : Out :=
  if ty = .b128 then
    begin_ c s (fun e => .next (e.retire c (e.perForm (d.isVec || a.isVec)
      (fun t g => g.write128 d t (Operand.src128 e t a)))))
  else exec1 c ty d a id s
/-- MOVI: the immediate sign-extended to 64 bits (R238). -/
def execMovi (c : Ctl) (ty : Ty) (d : Dst) (imm : BitVec 34) (s : State) : Out :=
  execValue c d.isVec ty d (fun _ _ => imm.signExtend 64) s
def execIadd (c : Ctl) (ty : Ty) (d : Dst) (a b : Src) (s : State) : Out := exec2 c ty d a b (fun x y => x + y) s
def execIsub (c : Ctl) (ty : Ty) (d : Dst) (a b : Src) (s : State) : Out := exec2 c ty d a b (fun x y => x - y) s
def execImul (c : Ctl) (ty : Ty) (d : Dst) (a b : Src) (s : State) : Out := exec2 c ty d a b (fun x y => x * y) s
def execImulh (c : Ctl) (ty : Ty) (d : Dst) (a b : Src) (s : State) : Out := exec2 c ty d a b (intMulh ty) s
def execImad (c : Ctl) (ty : Ty) (d : Dst) (a b x : Src) (s : State) : Out :=
  exec3 c ty d a b x (fun x y z => x * y + z) s
/-- IMADW: 32-bit factors, a 64-bit addend and a 64-bit result (R240). -/
def execImadw (c : Ctl) (ty : Ty) (d : Dst) (a b x : Src) (s : State) : Out :=
  execValue c (d.isVec || a.isVec || b.isVec || x.isVec) .b64 d
    (fun e t => BitVec.ofInt 64 (intOf ty.signed 32 (Operand.src e 32 t a) * intOf ty.signed 32 (Operand.src (e.nth 1) 32 t b)
      + intOf ty.signed 64 (Operand.src (e.nth 2) 64 t x))) s
def execImin (c : Ctl) (ty : Ty) (d : Dst) (a b : Src) (s : State) : Out := exec2 c ty d a b (intMin ty) s
def execImax (c : Ctl) (ty : Ty) (d : Dst) (a b : Src) (s : State) : Out := exec2 c ty d a b (intMax ty) s
def execIabs (c : Ctl) (ty : Ty) (d : Dst) (a : Src) (s : State) : Out := exec1 c ty d a (intAbs ty) s
def execAnd (c : Ctl) (ty : Ty) (d : Dst) (a b : Src) (s : State) : Out := exec2 c ty d a b (fun x y => x &&& y) s
def execOr (c : Ctl) (ty : Ty) (d : Dst) (a b : Src) (s : State) : Out := exec2 c ty d a b (fun x y => x ||| y) s
def execXor (c : Ctl) (ty : Ty) (d : Dst) (a b : Src) (s : State) : Out := exec2 c ty d a b (fun x y => x ^^^ y) s
def execNot (c : Ctl) (ty : Ty) (d : Dst) (a : Src) (s : State) : Out := exec1 c ty d a (fun x => ~~~x) s
def execShl (c : Ctl) (ty : Ty) (d : Dst) (a b : Src) (s : State) : Out := exec2 c ty d a b (intShl ty.bits) s
def execShr (c : Ctl) (ty : Ty) (d : Dst) (a b : Src) (s : State) : Out := exec2 c ty d a b (intShr ty.bits) s
def execSar (c : Ctl) (ty : Ty) (d : Dst) (a b : Src) (s : State) : Out := exec2 c ty d a b (intSar ty.bits) s
def execRot (c : Ctl) (ty : Ty) (d : Dst) (a b : Src) (s : State) : Out := exec2 c ty d a b (intRot ty.bits) s
def execBfx (c : Ctl) (ty : Ty) (d : Dst) (a pos len : Src) (s : State) : Out := exec3 c ty d a pos len (bitExtract ty) s
def execBfi (c : Ctl) (ty : Ty) (d : Dst) (ins base pos len : Src) (s : State) : Out :=
  execValue c (d.isVec || ins.isVec || base.isVec || pos.isVec || len.isVec) ty d
    (fun e t => bitInsert ty.bits (Operand.src e ty.bits t ins) (Operand.src (e.nth 1) ty.bits t base)
      (Operand.src (e.nth 2) ty.bits t pos) (Operand.src (e.nth 3) ty.bits t len)) s
def execPopc (c : Ctl) (ty : Ty) (d : Dst) (a : Src) (s : State) : Out :=
  exec1 c ty d a (fun x => BitVec.ofNat 64 (onesBelow x ty.bits)) s
def execClz (c : Ctl) (ty : Ty) (d : Dst) (a : Src) (s : State) : Out :=
  exec1 c ty d a (fun x => BitVec.ofNat 64 (zerosAbove x ty.bits)) s
def execBrev (c : Ctl) (ty : Ty) (d : Dst) (a : Src) (s : State) : Out :=
  exec1 c ty d a (fun x => BitVec.ofNat 64 (mirror x ty.bits)) s
/-- ISET (R242). -/
def execIset (c : Ctl) (ty : Ty) (cond : Cond) (d : DstP) (a b : Src) (s : State) : Out :=
  execTest c (d.isVec || a.isVec || b.isVec) ty d (fun e t => boolWord (cond.holds
    (intOf ty.signed ty.bits (Operand.src e ty.bits t a)) (intOf ty.signed ty.bits (Operand.src (e.nth 1) ty.bits t b)))) s
/-- SEL's condition (R243): a predicate, or a value nonzero over 32 bits of a vector register and 64 otherwise. -/
def selCond (e : Iss) (t : Tid) : SelCond → Bool
  | .p n => Operand.p e t n
  | .i (.v n) => Operand.v e t n != 0#32
  | .i (.s n) => Operand.s e n != 0#64
  | .i (.sp x) => Operand.special e t x != 0#64
def execSel (c : Ctl) (ty : Ty) (d : Dst) (a b : Src) (cnd : SelCond) (s : State) : Out :=
  execValue c (d.isVec || a.isVec || b.isVec || cnd.isVec) ty d
    (fun e t => if selCond (e.nth 2) t cnd then Operand.src e ty.bits t a else Operand.src (e.nth 1) ty.bits t b) s
/-- LEA's index (R245). -/
def leaIndex (e : Iss) (nx : Bool) (t : Tid) : Src → Word64
  | .v n => if nx then (Operand.v e t n).setWidth 64 else (Operand.v e t n).signExtend 64
  | .s n => Operand.s e n
  | .sp x => Operand.special e t x
def execLea (c : Ctl) (nx : Bool) (sh : BitVec 3) (d : Dst) (base : VS) (idx : Src) (s : State) : Out :=
  execValue c (d.isVec || base.isVec || idx.isVec) .b64 d
    (fun e t => Operand.vs e 64 t base + (leaIndex (e.nth 1) nx t idx <<< sh.toNat)) s
def execIdiv (c : Ctl) (ty : Ty) (rem : Bool) (d : Dst) (a b : Src) (s : State) : Out :=
  exec2 c ty d a b (intDiv ty rem) s
/-- PSET (R244). -/
def execPset (c : Ctl) (op : PsetOp) (d a b : PReg) (s : State) : Out :=
  begin_ c s (fun e => .next (e.retire c (e.forThreads e.g (fun t g =>
    g.writeP t d (op.apply (Operand.p e t a) (Operand.p e t b))))))
def execNop (c : Ctl) (s : State) : Out := begin_ c s (fun e => .next (e.retire c e.g))

end Sys2Proof.Machine
end

