-- ==== Sys2Proof/Machine/Tile.lean ====
section
/-! DEFINITION. The canonical layout of tiles in scratchpad and in the tile file, packed LNS6 in memory, and the choice
of a block scale (R203 to R207, R216, R217, R225). -/

namespace Sys2Proof.Machine

/-- A canonical tile of a type, with its rows and the elements of a row. -/
structure TileGeo where
  ty : Ty
  rows : Nat
  cols : Nat

/-- Bytes of an element in scratchpad. -/
def TileGeo.w (g : TileGeo) : Nat := g.ty.width / 8
def TileGeo.isL6 (g : TileGeo) : Bool := g.ty == .l6
/-- Bytes of a block: an LNS6 block has a strip of scales. -/
def TileGeo.block (g : TileGeo) : Nat := if g.isL6 then 2112 else 2048
/-- Blocks down and across. -/
def TileGeo.bh (g : TileGeo) : Nat := (g.rows + 31) / 32
def TileGeo.bw (g : TileGeo) : Nat := (g.cols * g.w + 63) / 64
def TileGeo.size (g : TileGeo) : Nat := g.bh * g.bw * g.block
/-- The byte of a tile where element (i, c) begins. -/
def TileGeo.at_ (g : TileGeo) (i c : Nat) : Nat :=
  (i / 32 * g.bw + c * g.w / 64) * g.block + i % 32 * 64 + c * g.w % 64
/-- The byte of the scale of an LNS6 element. -/
def TileGeo.scaleAt (g : TileGeo) (i c : Nat) : Nat := (i / 32 * g.bw + c / 64) * g.block + 2048 + 2 * (i % 32) + c % 64 / 32

/-- A unit of a tile command: one row of a block. -/
structure TileRow where
  i : Nat
  j : Nat
  deriving DecidableEq, Repr

/-- Unit `u`: blocks in ascending order, rows ascending (R218). -/
def TileGeo.unit (g : TileGeo) (u : Nat) : TileRow := ⟨u / 32 / g.bw * 32 + u % 32, u / 32 % g.bw⟩
def TileGeo.units (g : TileGeo) : Nat := g.bh * g.bw * 32
/-- Elements of a row of a block. -/
def TileGeo.perRow (g : TileGeo) : Nat := 64 / g.w
/-- Where a unit's 64 bytes lie in the tile, and the two strip bytes of an LNS6 one. -/
def TileGeo.rowAt (g : TileGeo) (r : TileRow) : Nat := (r.i / 32 * g.bw + r.j) * g.block + r.i % 32 * 64
def TileGeo.stripAt (g : TileGeo) (r : TileRow) : Nat := (r.i / 32 * g.bw + r.j) * g.block + 2048 + 2 * (r.i % 32)

/-- The columns of a unit that hold source elements. -/
def TileGeo.rowCols (g : TileGeo) (r : TileRow) : List Nat :=
  if g.rows ≤ r.i then []
  else (List.range g.perRow).map (fun k => r.j * g.perRow + k) |>.filter (fun c => decide (c < g.cols))

/-! ## The memory side of CPYT, CPYW and CPYS (R206, R221) -/

/-- A matrix on the memory side: its address, its stride, the scale array, its transposition. -/
structure MemSide where
  ty : Ty
  base : Word64
  stride : Nat
  tr : Bool
  scales : Word64

/-- A range of memory-side bytes. -/
structure Range where
  va : Word64
  n : Nat
  deriving DecidableEq, Repr

/-- Where the memory side keeps element (i, c) of the tile. An LNS6 element lies in a block of 24 bytes. -/
def MemSide.elem (m : MemSide) (i c : Nat) : Range :=
  let row := if m.tr then c else i
  let k := if m.tr then i else c
  if m.ty = .l6 then ⟨m.base + BitVec.ofNat 64 (row * m.stride + k / 32 * 24), 24⟩
  else ⟨m.base + BitVec.ofNat 64 (row * m.stride + k * (m.ty.width / 8)), m.ty.width / 8⟩

/-- The byte of the scale of element (i, c). -/
def MemSide.scale (m : MemSide) (i c : Nat) : Range := ⟨m.scales + BitVec.ofNat 64 (i * m.stride / 24 + c / 32), 1⟩

/-- The ranges that some elements of one tile row occupy on the memory side. -/
def MemSide.ranges (m : MemSide) (i : Nat) (cols : List Nat) : List Range :=
  (cols.flatMap (fun c => if m.ty = .l6 then [m.elem i c, m.scale i c] else [m.elem i c])).foldl
    (fun acc r => if acc.contains r then acc else acc ++ [r]) []

/-- Code number `k` of 24 packed bytes, and packing a code into them. -/
def unpack6 (bs : List Byte) (k : Nat) : Nat := leNat bs / 2 ^ (6 * k) % 64
def pack6 (codes : List Nat) : List Byte := leBytes 24 ((codes.zipIdx.map (fun x => x.1 % 64 * 2 ^ (6 * x.2))).foldl (· + ·) 0)

/-! ## The scale of a block (R225) -/

/-- floor(log2 |x|) of a finite nonzero value. -/
def fpExp (m : Nat) (e : Int) : Int := (m.log2 : Int) + e

/-- The exponent of the largest magnitude of finite values, none if all are zero or none is finite. -/
def topExp : List Fp → Option Int
  | [] => none
  | .fin _ m e :: r =>
    let x := if m = 0 then none else some (fpExp m e)
    match x, topExp r with
    | some a, some b => some (max a b)
    | some a, none => some a
    | none, y => y
  | _ :: r => topExp r

/-- E chosen for a block. -/
def scaleOf (vs : List Fp) : Nat :=
  match topExp vs with
  | none => 127
  | some x => (min 254 (max 0 (x + 124))).toNat

end Sys2Proof.Machine
end

