-- ==== Sys2Proof/Machine/Product.lean ====
section
/-! DEFINITION. The arithmetic of the matrix engine: sums of blocks and groups into an accumulator element, and the
operations of a drain (R210 to R214, R300, R330). -/

namespace Sys2Proof.Machine

/-- An operand element and its block's scale. -/
structure Elem where
  x : Word64
  scale : Nat
  deriving DecidableEq, Repr

/-- Cut a list into pieces of `n`; `fuel` is at least the number of pieces. -/
def pieces {α : Type} (n : Nat) : Nat → List α → List (List α)
  | 0, _ => []
  | fuel + 1, l => if l.isEmpty then [] else l.take n :: pieces n fuel (l.drop n)

/-- The sum of the products of one block or group, rounded once; an exact zero sum is +0 (R211, R212). -/
def blockSum (ps : List Fp) : Word64 :=
  let x := sumFp .rne ps
  fpTo .f32 .rne (if x.isZero then .fin false 0 0 else x)

/-- Continue the reduction of an accumulator element over some pairs, in ascending k (R211 to R213). -/
def reduce (ty : Ty) (acc : Word64) (ps : List (Elem × Elem)) : Word64 :=
  let prod (p : Elem × Elem) : Fp := mulFp (valueOf ty p.1.scale p.1.x) (valueOf ty p.2.scale p.2.x)
  match ty with
  | .l6 =>
    (pieces 32 ps.length ps).foldl (fun acc b => floatAdd .f32 .rne acc (blockSum (b.map (fun p =>
      lnsMul (p.1.x.toNat % 64) p.1.scale (p.2.x.toNat % 64) p.2.scale)))) acc
  | .f16 | .bf16 => (pieces 16 ps.length ps).foldl (fun acc g => floatAdd .f32 .rne acc (blockSum (g.map prod))) acc
  | .f32 => ps.foldl (fun acc p => floatFma .f32 .rne p.1.x p.2.x acc) acc
  | _ =>
    (pieces 32 ps.length ps).foldl (fun acc g =>
      BitVec.ofInt 64 (saturate .s32 (intOf true 32 acc +
        (g.map (fun p => intOf true 8 p.1.x * intOf true 8 p.2.x)).foldl (· + ·) 0))) acc

/-- The type of the accumulator of a product, by its operands' (R300). -/
def accTy : Ty → Option Ty
  | .l6 | .f16 | .bf16 | .f32 => some .f32
  | .s8 => some .s32
  | _ => none

/-- A drain's operation on one element (R330). -/
def drainValue (op : DrainOp) (ty : Ty) (old x : Word64) : Word64 :=
  match op with
  | .wr => x
  | .add =>
    if ty.isFloat then floatAdd ty .rne old x
    else BitVec.ofInt 64 (saturate ty (intOf true ty.width old + intOf true ty.width x))
  | .max =>
    if ty.isFloat then floatMinMax ty true old x
    else if intOf true ty.width old ≤ intOf true ty.width x then x else old

end Sys2Proof.Machine
end

