-- ==== Sys2Proof/Machine/Atomic.lean ====
section
/-! DEFINITION. ATOM, ACAS, RED, SIGNAL and CST, and updates at their ports (R326, R333 to R340). -/

namespace Sys2Proof.Machine

/-! ## What an update does (R335, R339) -/

/-- f of R335. -/
def atomicValue (op : AOp) (ty : Ty) (old x : Word64) : Word64 :=
  match op with
  | .add => if ty.isFloat then floatAdd ty .rne old x else old + x
  | .min => if ty.isFloat then floatMinMax ty false old x else intMin ty old x
  | .max => if ty.isFloat then floatMinMax ty true old x else intMax ty old x
  | .and => old &&& x
  | .or => old ||| x
  | .xor => old ^^^ x
  | .exch => x

/-- The type whose width an update has. -/
def UpdateOp.ty : UpdateOp → Ty
  | .rmw _ ty _ | .cas ty _ _ => ty
  | .drain _ ty _ => ty
  | .signal _ _ | .put _ _ _ => .b64

def UpdateOp.bytes (f : UpdateOp) : Nat := f.ty.width / 8

/-- The new value, or none where nothing is written. -/
def UpdateOp.value (f : UpdateOp) (old : Word64) : Option Word64 :=
  match f with
  | .rmw op ty x => some (atomicValue op ty old x)
  | .cas ty new cmp => if low ty.width old = low ty.width cmp then some new else none
  | .signal .set x => some x
  | .signal .add x => some (old + x)
  | .put _ _ _ | .drain _ _ _ => none

/-- Bytes of the elements of a line, one write's data and mask. -/
def elemBytes (w : Nat) (els : List (Nat × Word64)) : LineBits × LineBits :=
  els.foldl (fun acc x => (mergeLine acc.1 (placeBytes x.1 (x.2.setWidth 128)) (byteMask x.1 w), acc.2 ||| byteMask x.1 w))
    (0#1024, 0#1024)

/-- What an update answers. -/
structure Updated where
  old : Word64
  w : Nat
  wl : Nat
  bad : Bool
  s : State

/-- Apply an update at its home, where the line is, in one place of its order (R92, R95, R326). -/
def State.applyUpdate (s : State) (u : Update) : Updated :=
  let l := u.addr / 128
  let s1 := if u.l0 then s else s.hostLine l
  let off := u.addr % 128
  let old : Word64 := (fieldOf (s1.lineData l) off u.op.bytes).setWidth 64
  let wl := s1.wlOf l
  let bad := s1.linePoisoned l
  match u.op with
  | .put data mask keep =>
    let (w, s2) := s1.applyStore l data mask u.l0 keep false
    ⟨old, w, wl, false, s2⟩
  | .drain op ty els =>
    let n := ty.width / 8
    let new := els.foldl (fun x y => mergeLine x
      (placeBytes y.1 ((drainValue op ty ((fieldOf x y.1 n).setWidth 64) y.2).setWidth 128)) (byteMask y.1 n)) (s1.lineData l)
    let (w, s2) := s1.applyStore l new (elemBytes n els).2 u.l0 false false
    ⟨old, w, wl, op != .wr && bad, s2⟩
  | f =>
    match f.value old with
    | none => ⟨old, 0, wl, bad, s1⟩
    | some x =>
      let (w, s2) := s1.applyStore l (placeBytes off (x.setWidth 128)) (byteMask off f.bytes) u.l0 false false
      ⟨old, w, wl, bad, s2⟩

/-- An update at its home, and the messages that follow it. -/
def State.serveUpdate (s : State) (u : Update) (fwd : Option (Nat × Nat)) : State :=
  let x := s.applyUpdate u
  let l := u.addr / 128
  let s1 := x.s.send ⟨.resp, portHome l, portCore u.core⟩ (.updateDone u x.old x.w x.wl x.bad)
  match fwd with
  | some (die, id) => s1.send ⟨.time, portHome l, portGateway die (homeDie l)⟩ (.forwardReturn die l id x.w none)
  | none => s1

/-- Scratchpad updates at their slots' carve-out ports, each thread's in ascending order (R134, R326, R335, R411). -/
def State.scratchUpdate (s : State) (r : GroupRef) (op : Nat) (parts : List (ScratchPart × UpdateOp)) : State :=
  s.perform r op true (parts.map Prod.fst) (fun p s =>
    match s.scratchValue r.key p.at_ p.n, parts.find? (fun x => x.1 == p) with
    | some (v, _), some (_, f) =>
      let old : Word64 := v.setWidth 64
      let s1 := match f.value old with
        | some x => s.scratchPut p.at_ (leBytes p.n x.toNat)
        | none => s
      s1.modGroup r (fun g => g.deposit op p.ty p.dst (p.who.getD 0) (old.setWidth 128))
    | _, _ => s)

/-- An update of firmware's is no core's request: like the host's, only the CXL tier counts it (R88). -/
def State.countUpdate (s : State) (u : Update) : State :=
  let l := u.addr / 128
  if u.g.key.lnch = 65536 then (if isCxl l then s.countHome l false else s)
  else s.countHome l (dieOfCore u.core != homeDie l)

/-- An update reaches its home: held where the line is missing, else applied. -/
def State.updateAt (s0 : State) (m : Nat) (u : Update) (fwd : Option (Nat × Nat)) : State :=
  let l := u.addr / 128
  let s1 := (s0.take m).countUpdate u
  match s1.missAt l (.update u fwd) with
  | none => s0
  | some (some s2) => s2
  | some none => s1.serveUpdate u fwd

/-- A drain has begun at a slot's carve-out port: the port applies nothing else until it is over (R326). -/
def State.portBusy (s : State) (at_ : ScratchAt) : Bool :=
  match at_ with
  | .bytes k slot _ _ => s.net.any (fun m => match m.body with
    | .drain key _ _ sl _ _ _ _ begun => begun && decide (key = k) && sl == slot
    | _ => false)
  | .window _ _ _ => false

/-- ATOMIC_UPDATE: an update of a thread, a group or a copy. -/
def execAtomicUpdate (m : Nat) (s : State) : Out :=
  match s.deliverable m with
  | some ⟨_, .update u fwd, _, _⟩ => .next (s.updateAt m u fwd)
  | some ⟨_, .scratchUpdate g op parts, _, _⟩ =>
    if parts.any (fun p => s.portBusy p.1.at_) then .next s else .next ((s.take m).scratchUpdate g op parts)
  | _ => .next s

/-! ## Leaving the core (R103, R336, R458) -/

/-- Send an update: to its home, or to pass its die's gateway cache. -/
def State.sendUpdate (s : State) (u : Update) (own : List ThreadRef) : State :=
  let l := u.addr / 128
  if goesHome u.core l then s.sendOwn ⟨.req, portCore u.core, portHome l⟩ (.update u none) own u.opId
  else s.sendOwn (chanOut u.core l) (.pass u) own u.opId

/-- The buffer's entry for a line drains, and the core's copy ends. -/
def State.leaveLine (s : State) (core : Nat) (l : LineNo) (d : Drainer) : State :=
  (s.drainWhere core (fun b => b.line == l) d).endCopies core (fun k => k == l)

/-- Host memory under mtype 01 takes no atomic (R334, R442). -/
def refused (addr : Tid → Word64) (xs : List (Tid × Xlat)) : Option (FaultCode × Mask) :=
  let m := maskOf (fun t => xs.any (fun x => x.1 == t && isHost (x.2.leaf.line (addr t)) && !isPeer (x.2.leaf.line (addr t))
    && x.2.leaf.mtype == 1))
  if m != 0#32 then some (.hostAtomicRefused, m) else none

/-! ## ATOM, ACAS, RED -/

/-- An atomic of memory past its checks. -/
def atomicThreads (c : Ctl) (vec : Bool) (o : Ord) (d : Option Dst) (mk : Iss → Tid → UpdateOp) (ty : Ty)
    (x : Checked) (addr : Tid → Word64) : Out :=
  let e := x.e
  let act : Mask := if vec then maskOf (fun t => x.xs.any (fun y => y.1 == t)) else e.act
  let stay := match o with
    | .acq _ => e.mask
    | _ => x.waiting
  let s1 := e.finish c e.s stay
  let (id, s2) := s1.issueOp e.r (fun id =>
    { id := id, cls := if d.isSome then .ld else .st, kind := .other, pc := e.pc, act := act, parts := x.xs.length
      dests := match d with
        | some d => x.xs.flatMap (fun y => Dst.regs ty d y.1)
        | none => []
      clobbered := [], ext := x.xs.any (fun y => isHost (y.2.leaf.line (addr y.1)))
      cols := (x.xs.filter (fun y => y.2.colour != 0)).map (fun y => (y.1, y.2.colour)) })
  let s3 := x.xs.foldl (fun s y =>
    let l := y.2.leaf.line (addr y.1)
    (s.leaveLine e.g.core l { e.drainer with mask := act }).sendUpdate
      { addr := y.2.leaf.flat (addr y.1), op := mk e y.1, core := e.g.core, ctx := e.r.key.ctx, g := e.r, opId := id
        who := if vec then some y.1 else none, dst := d, colour := y.2.colour
        holder := if y.2.colour = 0 then none else some y.1, l0 := y.2.leaf.mtype == 1, va := addr y.1 }
      (if y.2.leaf.mtype = 1 then [⟨e.r, y.1⟩] else [])) s2
  match o with
  | .acq sc => .next (acquireAfter { e with act := act } sc x.waiting s3)
  | _ => .next s3

/-- The threads of a list in units: each alone, or with the others of its bound set. -/
def Group.units (g : Group) (ts : List Tid) : List (List Tid) :=
  (ts.filter (fun t => (ts.filter (fun u => (g.boundSet t).getLsbD u.val)).head? == some t)).map
    (fun t => ts.filter (fun u => (g.boundSet t).getLsbD u.val))

/-- An atomic of scratchpad past its checks: one message for each unit, in order. -/
def scratchAtomic (c : Ctl) (vec : Bool) (o : Ord) (d : Option Dst) (mk : Iss → Tid → UpdateOp) (ty : Ty) (e : Iss)
    (addr : Tid → Word64) : Out :=
  let ts := accessTids vec e.act
  let units := if vec then e.g.units ts else [ts]
  let s1 := e.finish c e.s (match o with
    | .acq _ => e.mask
    | _ => 0#32)
  let (id, s2) := s1.issueOp e.r (fun id =>
    { id := id, cls := if d.isSome then .ld else .st, kind := .scratch, pc := e.pc, act := e.act, parts := units.length
      dests := match d with
        | some d => ts.flatMap (fun t => Dst.regs ty d t)
        | none => []
      clobbered := [], ext := false, cols := [] })
  let part (t : Tid) : ScratchPart :=
    { at_ := scratchAt e.r e.g.slot (addr t), addr := addr t, who := if vec then some t else none, n := ty.width / 8
      dst := d.getD .zero, ty := ty, data := 0#128 }
  let s3 := units.foldl (fun s us => s.send (scratchChan e.g) (.scratchUpdate e.r id (us.map (fun t => (part t, mk e t))))) s2
  match o with
  | .acq sc => .next (acquireAfter e sc 0#32 s3)
  | _ => .next s3

/-- The checks of R334, then the updates. -/
def atomicBody (c : Ctl) (vec sp : Bool) (o : Ord) (d : Option Dst) (m : Addr) (mk : Iss → Tid → UpdateOp) (ty : Ty)
    (e : Iss) : Out :=
  let addr (t : Tid) := Operand.addr e 64 t m
  let n := ty.width / 8
  if sp then
    match e.s.block e.r.key with
    | none => .next e.s
    | some b =>
      let act := if vec then e.act else maskOf (fun t => (accessTids false e.act).contains t)
      match scratchFault e b false n n act addr with
      | some (code, bad, a) => e.fault code (if vec then bad else e.act) a
      | none => scratchAtomic c vec o d mk ty e addr
  else
    match e.checks vec n Need.both addr (refused addr) true with
    | .stop out => out
    | .go x => if x.xs.isEmpty then .next (x.e.finish c x.e.s x.waiting) else atomicThreads c vec o d mk ty x addr

/-- An atomic with its ordering (R131). -/
def atomicWith (c : Ctl) (vec sp : Bool) (o : Ord) (d : Option Dst) (m : Addr) (mk : Iss → Tid → UpdateOp) (ty : Ty)
    (s : State) : Out :=
  begin_ c s (fun e =>
    if e.act = 0#32 then .next (e.retire c e.g)
    else match o with
      | .rel sc => releaseFirst c sc e (atomicBody c vec sp o d m mk ty)
      | _ => atomicBody c vec sp o d m mk ty e)

/-- The memory operand of an atomic: no offset. -/
def addrOf (base : VS) (idx : Idx) : Addr := ⟨base, idx, 0#25⟩

def execAtom (c : Ctl) (ty : Ty) (op : AOp) (x : Bool) (o : Ord) (d : Dst) (base : VS) (idx : Idx) (val : Src)
    (s : State) : Out :=
  atomicWith c (d.isVec || base.isVec || idx.isVec || val.isVec) x o (some d) (addrOf base idx)
    (fun e t => .rmw op ty (Operand.src (e.nth 2) ty.bits t val)) ty s

def execAcas (c : Ctl) (ty : Ty) (x : Bool) (o : Ord) (d : Dst) (base : VS) (idx : Idx) (new cmp : Src) (s : State) :
    Out :=
  atomicWith c (d.isVec || base.isVec || idx.isVec || new.isVec || cmp.isVec) x o (some d) (addrOf base idx)
    (fun e t => .cas ty (Operand.src (e.nth 2) ty.bits t new) (Operand.src (e.nth 3) ty.bits t cmp)) ty s

def execRed (c : Ctl) (ty : Ty) (op : AOp) (x : Bool) (o : Ord) (base : VS) (idx : Idx) (val : Src) (s : State) : Out :=
  atomicWith c (base.isVec || idx.isVec || val.isVec) x o none (addrOf base idx)
    (fun e t => .rmw op ty (Operand.src (e.nth 2) ty.bits t val)) ty s

/-! ## An update in one step: a SIGNAL whose time has passed, and the header of a CST (R338, R339, R458) -/

/-- The update, behind its die's forwards and once its line is there; else what has been asked for. -/
def State.updateNow (s : State) (die : Nat) (u : Update) : Except State Updated :=
  let l := u.addr / 128
  if !s.gwPasses die l then .error s
  else match s.ready l with
    | (false, s1) => .error s1
    | (true, s1) =>
      let away := !(isHost l || homeDie l == die)
      let s2 := if away then (s1.countOut die).endGateway die l else s1
      .ok ((s2.countHome l away).applyUpdate u)

/-! ## SIGNAL (R339) -/

/-- The earlier operations whose memory writes a SIGNAL follows. -/
def memoryWrites (g : Group) : List Nat := (g.ops.filter (fun o => o.kind == .stg || o.kind == .other)).map Op.id

def execSignal (c : Ctl) (op : SignalOp) (base : SReg) (val : SDst) (s : State) : Out :=
  withSignal c base (fun x addr t y =>
    let e := x.e
    let ops := memoryWrites e.g
    let s1 := e.finish c e.s 0#32
    let (id, s2) := s1.issueOp e.r (fun id =>
      { id := id, cls := .st, kind := .global, pc := e.pc, act := e.act, parts := 1, dests := [], clobbered := []
        ext := isHost (y.leaf.line addr), cols := if y.colour = 0 then [] else [(t, y.colour)] })
    let s3 := s2.drainWhere e.g.core (fun b => b.line == y.leaf.line addr) e.drainer
    .next (s3.send ⟨.control, 8000 + e.g.core, id⟩ (.signal
      { addr := y.leaf.flat addr, op := .signal op (Operand.sdst (e.nth 2) val), core := e.g.core, ctx := e.r.key.ctx, g := e.r
        opId := id, who := none, dst := none, colour := y.colour, holder := if y.colour = 0 then none else some t
        l0 := y.leaf.mtype == 1, va := addr } ops none))) s
where
  /-- The checks of a SIGNAL, for the lowest thread of ACTIVE. -/
  withSignal (c : Ctl) (base : SReg) (f : Checked → Word64 → Tid → Xlat → Out) (s : State) : Out :=
    begin_ c s (fun e =>
      if e.act = 0#32 then .next (e.retire c e.g)
      else
        let a := Operand.s e base
        match e.checks false 8 Need.both (fun _ => a) (refused (fun _ => a)) with
        | .stop out => out
        | .go x => match x.xs with
          | [] => .next (x.e.finish c x.e.s x.waiting)
          | (t, y) :: _ => f x a t y)

/-- Replace a message's body in its place. -/
def State.setBody (s : State) (m : Nat) (b : Body) : State :=
  { s with net := s.net.zipIdx.map (fun x => if x.2 = m then { x.1 with body := b } else x.1) }

/-- SIGNAL_APPLY: once the earlier writes are done their time is fixed; the update is applied when it has passed. -/
def execSignalApply (m : Nat) (s : State) : Out :=
  match s.deliverable m with
  | some ⟨_, .signal u ops target, _, _⟩ =>
    match s.group u.g with
    | none => .next (s.take m)
    | some g =>
      if !opsDone g ops then .next s
      else
        let t := target.getD g.hz.dev
        if s.nowAt u.core < t then .next (s.setBody m (.signal u [] (some t)))
        else if isPeer (u.addr / 128) then .next ((s.take m).sendUpdate u [])
        else match s.updateNow (dieOfCore u.core) u with
          | .error s1 => .next s1
          | .ok x =>
            let s1 := (x.s.take m).foldHz u.g ⟨x.w, x.w, x.w, x.w⟩
            let s2 := match u.holder with
              | some h => s1.foldHzc [⟨u.g, h⟩] u.colour x.w
              | none => s1
            .next (s2.opPart u.g u.opId)
  | _ => .next s

/-! ## CST (R337, R338) -/

/-- The header as the home has it. -/
structure CstHeader where
  qbase : Word64
  count : Nat
  limit : Nat

def headerOf (data : LineBits) (off : Nat) : CstHeader :=
  let x := BitVec.ushiftRight data (8 * off)
  ⟨x.setWidth 64, (x.extractLsb' 64 64).toNat, (x.extractLsb' 128 64).toNat⟩

/-- The threads that store, with their element addresses. -/
def cstElements (h : CstHeader) (w : Nat) (ts : List Tid) : List (Tid × Nat × Word64) :=
  ((ts.zipIdx.filter (fun x => decide (h.count + x.2 < h.limit))).map
    (fun x => (x.1, h.count + x.2, h.qbase + BitVec.ofNat 64 ((h.count + x.2) * w))))

/-- Element bytes by line. -/
def cstLines (xs : List (Nat × LineBits × LineBits × Bool × Word64)) : List (Nat × LineBits × LineBits × Bool × Word64) :=
  xs.foldl (fun acc x =>
    match acc.find? (fun y => y.1 == x.1) with
    | none => acc ++ [x]
    | some _ => acc.map (fun y =>
        if y.1 = x.1 then (y.1, mergeLine y.2.1 x.2.1 x.2.2.1, y.2.2.1 ||| x.2.2.1, y.2.2.2) else y)) []

/-- What a CST whose checks are over does. -/
def cstApply (c : Ctl) (h : Hint) (ty : Ty) (d : Dst) (val : Src) (e : Iss) (hd : Word64) (hx : Xlat) (q : CstHeader)
    (els : List (Tid × Nat × Word64)) (xs : List (Tid × Xlat)) (s : State) : Out :=
  let core := e.g.core
  let n := ty.width / 8
  let low : Tid := (maskTids e.act).headD 0
  let dty : Ty := match d with
    | .s _ => .b64
    | _ => if ty.bits = 64 then .b64 else .b32
  let lineOf (x : Tid × Nat × Word64) : Option (Xlat × Nat) :=
    (xs.find? (fun y => y.1 == x.1)).map (fun y => (y.2, y.2.leaf.line x.2.2))
  let lines := cstLines (els.filterMap (fun x => (lineOf x).map (fun y =>
    (y.2, placeBytes (x.2.2.toNat % 128) (storeValue e ty x.1 val), byteMask (x.2.2.toNat % 128) n, y.1.leaf.mtype == 1,
      x.2.2))))
  let colours := (hx.colour :: xs.map (fun y => y.2.colour)).filter (fun k => k != 0)
  let upd (addr : Nat) (op : UpdateOp) (l0 : Bool) (colour id : Nat) (va : Word64) : Update :=
    { addr := addr, op := op, core := core, ctx := e.r.key.ctx, g := e.r, opId := id, who := none, dst := none
      colour := colour, holder := if colour = 0 then none else some low, l0 := l0, va := va }
  let count := BitVec.ofNat 64 (min q.limit (q.count + maskCount e.act))
  let s1 := (lines.foldl (fun s l => s.leaveLine core l.1 e.drainer) s)
  match s1.updateNow (dieOfCore core) (upd (hx.leaf.flat hd + 8) (.signal .set count) (hx.leaf.mtype == 1) hx.colour 0 hd) with
  | .error s1 => .next s1
  | .ok r =>
    if r.bad then { e with s := s }.fault .eccUncorrectable e.act hd
    else
      let s2 := e.finish c (r.s.endCopies core (fun k => k == hx.leaf.line hd)) 0#32
      let (id, s3) := s2.issueOp e.r (fun id =>
        { id := id, cls := .st, kind := .other, pc := e.pc, act := e.act, parts := 1 + lines.length
          dests := (maskTids e.act).flatMap (fun t => Dst.regs dty d t), clobbered := []
          ext := xs.any (fun y => y.2.leaf.place == 6), cols := colours.map (fun k => (low, k)) })
      let s4 := s3.modGroup e.r (fun g => (maskTids e.act).foldl (fun g t =>
        g.deposit id dty d t (match els.find? (fun x => x.1 == t) with
          | some x => BitVec.ofNat 128 x.2.1
          | none => BitVec.allOnes 128)) g)
      let s5 := (s4.foldHz e.r ⟨r.w, r.w, r.w, r.w⟩).foldHzc (if hx.colour = 0 then [] else [⟨e.r, low⟩]) hx.colour r.w
      let s6 := lines.foldl (fun s l =>
        let k := (xs.find? (fun y => y.2.leaf.line (((els.find? (fun z => z.1 == y.1)).map (fun z => z.2.2)).getD 0#64) == l.1)).map
          (fun y => y.2.colour)
        s.sendUpdate (upd (lineByte l.1) (.put l.2.1 l.2.2.1 (h == .keep)) l.2.2.2.1 (k.getD 0) id l.2.2.2.2) []) s5
      .next (s6.opPart e.r id)

def execCst (c : Ctl) (h : Hint) (ty : Ty) (d : Dst) (hdr : SReg) (val : Src) (s : State) : Out :=
  begin_ c s (fun e =>
    if e.act = 0#32 then .next (e.retire c e.g)
    else
      let core := e.g.core
      let ctx := e.r.key.ctx
      let low : Tid := (maskTids e.act).headD 0
      let hd := Operand.s e hdr
      if hd.toNat % 32 ≠ 0 then e.fault .misaligned e.act hd
      else
        let (hres, s1) := e.s.xlateAll core ctx Need.both (fun _ => hd) false [low]
        match xlatFault Need.both hres, hres with
        | some (code, _, reason), _ => { e with s := s1 }.fault code e.act hd reason
        | none, [(_, .ok hx)] =>
          -- the header's earlier stores reach its home first
          let l := hx.leaf.line hd
          let s2 := s1.drainWhere core (fun b => b.line == l) e.drainer
          if !s2.lineQuiet core l then
            match s2.group e.r with
            | none => .next s2
            | some g => ({ e with s := s2, g := g }).hold c (.lines [l])
          else
            let n := ty.width / 8
            let q := headerOf (s2.lineData l) (hx.leaf.flat hd % 128)
            let els := cstElements q n (maskTids e.act)
            let addr (t : Tid) : Word64 := ((els.find? (fun x => x.1 == t)).map (fun x => x.2.2)).getD 0#64
            let e2 := { e with s := s2 }
            match els.filter (fun x => x.2.2.toNat % n != 0) with
            | x :: r => e2.fault .misaligned (maskOf (fun t => (x :: r).any (fun y => y.1 == t))) x.2.2
            | [] =>
              let (res, s3) := s2.xlateAll core ctx Need.write addr false (els.map Prod.fst)
              match xlatFault Need.write res with
              | some (code, m, reason) =>
                { e with s := s3 }.fault code m (addr ((maskTids m).headD 0)) reason
              | none =>
                let xs := res.filterMap (fun x => match x.2 with
                  | .ok y => some (x.1, y)
                  | _ => none)
                let g3 := (s3.group e.r).getD e.g
                match acquire { e with s := s3, g := g3 } ((low, hx.colour) :: xs.map (fun x => (low, x.2.colour)))
                  (some e.act) with
                | .fault code m => { e with s := s3 }.fault code m hd
                | .go s4 waiting =>
                  let e4 := { e with s := s4, g := (s4.group e.r).getD e.g }
                  if waiting != 0#32 then .next (e4.finish c s4 waiting)
                  else cstApply c h ty d val e4 hd hx q els xs s4
        | _, _ => .next s1)

end Sys2Proof.Machine
end

