-- ==== Sys2Proof/Machine/Copy.lean ====
section
/-! DEFINITION. The copy engine: CPY, CPYT, CPYW, CPYS, CPYQ, CPYX and their units (R218 to R230). -/

namespace Sys2Proof.Machine

/-! ## Shapes (R221) -/

/-- Rows, elements per row, stride and transposition of word0. -/
structure Word0 where
  nr : Nat
  nc : Nat
  stride : Nat
  tr : Bool

def word0 (x : Word64) : Word0 :=
  ⟨(x.setWidth 9).toNat + 1, (x.extractLsb' 16 9).toNat + 1, (x >>> 32).toNat, x.getLsbD 31⟩

/-- The tile of a tile command, by the type it has in scratchpad. -/
def tileOf (ty : Ty) (w0 : Word64) : TileGeo :=
  let x := word0 w0
  if x.tr then ⟨ty, x.nc, x.nr⟩ else ⟨ty, x.nr, x.nc⟩

def copyLength (w0 : Word64) : Nat := 16 * ((w0.setWidth 20).toNat + 1)

/-- The type in scratchpad of a command that has a tile. -/
def CopyKind.spTy : CopyKind → Option Ty
  | .cpyt ty | .cpyw ty => some ty
  | .cpys _ sty _ => some sty
  | _ => none

/-- Bytes that a command touches in scratchpad. -/
def CopyKind.spBytes (k : CopyKind) (w0 : Word64) : Nat :=
  match k.spTy with
  | some ty => (tileOf ty w0).size
  | none => copyLength w0

def CopyKind.unitCount (k : CopyKind) (w0 : Word64) : Nat :=
  match k.spTy with
  | some ty => (tileOf ty w0).units
  | none => (copyLength w0 + 127) / 128

/-- Destination bytes of a command (R228). -/
def CopyKind.total (k : CopyKind) (w0 : Word64) : Nat :=
  match k with
  | .cpys dty _ _ =>
    let x := word0 w0
    if dty = .l6 then x.nr * x.nc * 3 / 4 + x.nr * (x.nc / 32) else x.nr * x.nc * (dty.width / 8)
  | k => k.spBytes w0

/-- The memory side of a tile command. -/
def memSide (ty : Ty) (base w0 w1 : Word64) : MemSide := ⟨ty, base, (word0 w0).stride, (word0 w0).tr, w1⟩

/-- A part of CPY's range: its offset and length. -/
def cpyUnit (w0 : Word64) (u : Nat) : Nat × Nat := (128 * u, min 128 (copyLength w0 - 128 * u))

/-- The columns whose bytes a unit of CPYS reads: for an LNS6 destination whole blocks of 32, to choose their scales. -/
def cpysCols (g : TileGeo) (dty : Ty) (r : TileRow) : List Nat :=
  let cs := g.rowCols r
  if dty = .l6 then
    (match cs with
     | [] => []
     | c :: _ => (List.range ((g.perRow + 31) / 32 * 32)).map (fun k => c / 32 * 32 + k) |>.filter (fun c => decide (c < g.cols)))
  else cs

/-- The 64 bytes of a tile row, and its strip bytes, from its memory side (R206, R216, R217). -/
def rowFromMem (g : TileGeo) (m : MemSide) (r : TileRow) (rd : Range → List Byte) : List Byte × List Byte :=
  let cols := g.rowCols r
  let row := (List.range g.perRow).flatMap (fun k =>
    let c := r.j * g.perRow + k
    if cols.contains c then
      (if g.isL6 then [BitVec.ofNat 8 (unpack6 (rd (m.elem r.i c)) (c % 32))] else rd (m.elem r.i c))
    else List.replicate g.w 0#8)
  let strip := if g.isL6 then
      (List.range 2).flatMap (fun h =>
        let c := r.j * 64 + 32 * h
        if cols.contains c then rd (m.scale r.i c) else [0x7F#8])
    else []
  (row, strip)

/-- The memory-side bytes that a unit of CPYS makes, range by range (R225). `el` reads a tile element's word, `sc` the
scale of an LNS6 one. -/
def rowToMem (g : TileGeo) (m : MemSide) (rnd : Rnd) (r : TileRow) (el : Nat → Word64) (sc : Nat → Nat) :
    List (Range × List Byte) :=
  let cols := g.rowCols r
  if m.ty = .l6 then
    -- the blocks that begin or continue in this row of the tile
    (cols.map (fun c => c / 32)).dedup.flatMap (fun n =>
      let all := (List.range 32).map (fun j => 32 * n + j)
      let e := if g.isL6 then sc (32 * n) else scaleOf (all.map (fun c => valueOf g.ty 127 (el c)))
      let code (c : Nat) : Nat := if g.isL6 then (el c).toNat % 64
        else (convertTo .l6 rnd e (valueOf g.ty 127 (el c))).toNat
      -- a unit writes the bytes that its own elements make: 12 or 24 of the block's
      let mine := all.filter (fun c => cols.contains c)
      let first := (mine.headD 0) % 32
      let bs := ((pack6 (all.map code)).drop (first * 3 / 4)).take (mine.length * 3 / 4)
      let at_ := m.elem r.i (32 * n)
      [(⟨at_.va + BitVec.ofNat 64 (first * 3 / 4), mine.length * 3 / 4⟩, bs)] ++
        (if first = 0 then [(m.scale r.i (32 * n), [BitVec.ofNat 8 e])] else []))
  else
    cols.map (fun c =>
      let v := valueOf g.ty (if g.isL6 then sc c else 127) (el c)
      (m.elem r.i c, leBytes (m.ty.width / 8) (convertTo m.ty rnd 127 v).toNat))

/-- The memory-side ranges of a unit: what it reads, and what it writes. -/
def CopyCmd.memRanges (x : CopyCmd) (u : Nat) : List Range :=
  match x.kind with
  | .cpy .inn => [⟨x.src + BitVec.ofNat 64 (cpyUnit x.w0 u).1, (cpyUnit x.w0 u).2⟩]
  | .cpy .out => [⟨x.dst + BitVec.ofNat 64 (cpyUnit x.w0 u).1, (cpyUnit x.w0 u).2⟩]
  | .cpyt ty =>
    let g := tileOf ty x.w0
    (memSide ty x.src x.w0 x.w1).ranges (g.unit u).i (g.rowCols (g.unit u))
  | .cpys dty sty r =>
    let g := tileOf sty x.w0
    (rowToMem g (memSide dty x.dst x.w0 x.w1) r (g.unit u) (fun _ => 0#64) (fun _ => 0)).map Prod.fst
  | _ => []

/-- The weight-store ranges of a unit of CPYW. -/
def CopyCmd.weightRanges (x : CopyCmd) (u : Nat) : List Range :=
  match x.kind with
  | .cpyw ty =>
    let g := tileOf ty x.w0
    (memSide ty ((x.src.setWidth 32).setWidth 64) x.w0 ((x.w1.setWidth 32).setWidth 64)).ranges (g.unit u).i
      (g.rowCols (g.unit u))
  | _ => []

/-- Addresses of the lines that a range touches. -/
def Range.lines (r : Range) : List Word64 :=
  (List.range ((r.va.toNat % 128 + r.n + 127) / 128)).map (fun k =>
    if k = 0 then r.va else (r.va &&& ~~~127#64) + BitVec.ofNat 64 (128 * k))

/-! ## Issue (R219, R222) -/

/-- The lowest free slot of a core's engine. -/
def State.freeSlot (s : State) (core : Nat) : Option Nat :=
  firstFrom (fun k => (tblGet (s.core core).slots k).isNone) 0 Config.copySlots

def handleOf (seq slot : Nat) : Word64 := BitVec.ofNat 64 (seq * 2 ^ 32 + slot)

def CopyKind.isMem : CopyKind → Bool
  | .cpy .ss | .cpyw _ => false
  | _ => true
/-- Kinds whose memory side is the destination. -/
def CopyKind.toMem : CopyKind → Bool
  | .cpy .out | .cpys _ _ _ => true
  | _ => false

/-- The scratchpad operands. -/
def spOperands (k : CopyKind) (dst src : Word64) : List Word64 :=
  match k with
  | .cpy .ss => [dst, src]
  | .cpy .out | .cpys _ _ _ => [src]
  | _ => [dst]

/-- The element width or the alignment of a memory side. -/
def memAlign (ty : Ty) : Nat := if ty = .l6 then 8 else ty.width / 8

/-- The memory-side type of a tile command. -/
def CopyKind.memTy : CopyKind → Option Ty
  | .cpyt ty | .cpyw ty => some ty
  | .cpys dty _ _ => some dty
  | _ => none

/-- A weight-store range of CPYW within the context's ranges: every row, and every row's scales. -/
def weightRowsOk (s : State) (ctx : Nat) (ty : Ty) (src w0 w1 : Word64) : Bool :=
  let x := word0 w0
  (List.range x.nr).all (fun i =>
    let ok (a n : Nat) : Bool := decide (a < 2 ^ 32) && s.weightOk ctx (BitVec.ofNat 64 a) n
    if ty = .l6 then
      ok ((src.setWidth 32).toNat + i * x.stride) (x.nc / 32 * 24) && ok ((w1.setWidth 32).toNat + i * x.stride / 24) (x.nc / 32)
    else ok ((src.setWidth 32).toNat + i * x.stride) (x.nc * (ty.width / 8)))

/-- The first fault of checks 1 to 4 and 6, with its address. -/
def copyFaults (e : Iss) (b : Block) (k : CopyKind) (dst src w0 w1 : Word64) (bk : Option Nat) :
    Option (FaultCode × Word64 × Byte) :=
  let x := word0 w0
  let l6 := k.memTy == some .l6 || k.spTy == some .l6
  let sps := spOperands k dst src
  let mem := if k.toMem then dst else src
  let at_ (a : Word64) := scratchAt e.r e.g.slot a
  let misaligned : Option Word64 :=
    match k.memTy with
    | none => if dst.toNat % 16 ≠ 0 then some dst else if src.toNat % 16 ≠ 0 then some src else none
    | some ty =>
      match sps.find? (fun a => a.toNat % 64 != 0) with
      | some a => some a
      | none => if mem.toNat % memAlign ty ≠ 0 || x.stride % memAlign ty ≠ 0 then some mem else none
  if l6 && (x.nc % 32 != 0 || x.stride % 24 != 0 || x.tr) then some (.tileShape, 0#64, 0#8)
  else match misaligned with
    | some a => some (.misaligned, a, 0#8)
    | none =>
      match sps.find? (fun a => scratchBad b false (k.spBytes w0) a (at_ a)) with
      | some a => some (.scratchRange, a, 0#8)
      | none =>
        if (match bk with
            | some n => decide (b.lr.nbar ≤ n)
            | none => false) then some (.scratchRange, 0#64, 0#8)
        else match sps.find? (fun a => scratchGone e.s e.g.core (at_ a)) with
          | some a => some (.peerGone, a, 0#8)
          | none =>
            match k with
            | .cpyw ty => if weightRowsOk e.s e.r.key.ctx ty src w0 w1 then none else some (.pagePermRead, src, 0x0B#8)
            | _ => none

/-- Put a command in a slot: it counts from its issue. -/
def startCopy (c : Ctl) (e : Iss) (slot : Nat) (k : CopyKind) (hdl : SDst) (dst src w0 w1 : Word64) (bk : Option Nat)
    (colour : Nat) : Out :=
  let low : Tid := (maskTids e.act).headD 0
  let seq := (e.s.core e.g.core).seq
  let g1 := e.g.write .b64 (sdst hdl) 0 (handleOf seq slot)
  let s1 := e.retireWith c e.s g1 0#32
  let (id, s2) := s1.issueOp e.r (fun id =>
    { id := id, cls := .cp, kind := if k.toMem then .other else .global, pc := e.pc, act := e.act, parts := 1, dests := []
      clobbered := [], ext := false, cols := if colour = 0 then [] else [(low, colour)] })
  .next (s2.modCore e.g.core (fun x => { x with
    seq := (seq + 1) % 2 ^ 32
    slots := tblPut x.slots slot
      { seq := seq, g := e.r, op := id, kind := k, dst := dst, src := src, w0 := w0, w1 := w1, bk := bk, pc := e.pc
        act := e.act, state := .running, units := k.unitCount w0, next := 0, inFlight := [], landed := [], todo := []
        got := [], writing := [], done := 0, hz := {}, colour := colour, holder := if colour = 0 then none else some low } }))

/-- A counted command (R222). A full engine stalls it. -/
def copyWith (c : Ctl) (k : CopyKind) (hdl : SDst) (dst src pair : SReg) (bk : Option BReg) (s : State) : Out :=
  begin_ c s (fun e =>
    if e.act = 0#32 then .next (e.retire c e.g)
    else match e.s.freeSlot e.g.core, e.s.block e.r.key with
      | some slot, some b =>
        let d := Operand.s e dst
        let a := Operand.s (e.nth 1) src
        let w0 := Operand.s (e.nth 2) pair
        let w1 := match k with
          | .cpy _ => 0#64
          | _ => Operand.s (e.nth 2) (SReg.up pair 1)
        let bn := bk.map (fun x => x.val)
        match copyFaults e b k d a w0 w1 bn with
        | some (code, va, reason) => e.fault code e.act va reason
        | none =>
          if !k.isMem then startCopy c e slot k hdl d a w0 w1 bn 0
          else
            let need := if k.toMem then Need.write else Need.read
            let va := if k.toMem then d else a
            match e.checks false 1 need (fun _ => va) with
            | .stop out => out
            | .go x =>
              match x.xs with
              | [] => .next (x.e.finish c x.e.s x.waiting)
              | (_, y) :: _ => startCopy c x.e slot k hdl d a w0 w1 bn y.colour
      | _, _ => .next e.s)

def execCpy (c : Ctl) (dir : CpyDir) (hdl : SDst) (dst src desc : SReg) (bk : Option BReg) (s : State) : Out :=
  copyWith c (.cpy dir) hdl dst src desc bk s
def execCpyt (c : Ctl) (ty : Ty) (hdl : SDst) (dst src pair : SReg) (bk : Option BReg) (s : State) : Out :=
  copyWith c (.cpyt ty) hdl dst src pair bk s
def execCpyw (c : Ctl) (ty : Ty) (hdl : SDst) (dst src pair : SReg) (bk : Option BReg) (s : State) : Out :=
  copyWith c (.cpyw ty) hdl dst src pair bk s
def execCpys (c : Ctl) (dty sty : Ty) (r : Rnd) (hdl : SDst) (dst src pair : SReg) (s : State) : Out :=
  copyWith c (.cpys dty sty r) hdl dst src pair none s

/-- CPYW.s8.put is never accepted from a kernel (check 5). Its bytes need no alignment and it touches no scratchpad, so that
the checks before find nothing. -/
def execCpywPut (c : Ctl) (_hdl : SDst) (_dst _src _pair : SReg) (s : State) : Out :=
  begin_ c s (fun e =>
    if e.act = 0#32 then .next (e.retire c e.g)
    else match e.s.freeSlot e.g.core with
      | none => .next e.s
      | some _ => e.fault .weightStoreWrite e.act)

/-! ## CPYQ and CPYX (R228, R229) -/

/-- The command of a live handle. -/
def State.liveCopy (s : State) (r : GroupRef) (core : Nat) (h : Word64) : Option (Nat × CopyCmd) :=
  (s.core core).slots.find? (fun x => handleOf x.2.seq x.1 == h && decide (x.2.g.key = r.key) && !x.2.isMcld)

/-- A status word. -/
def copyStatus (x : CopyCmd) : Word64 :=
  let st := match x.state with
    | .running | .failed => 1
    | .parked _ _ => 2
    | .cancelling => 4
  BitVec.ofNat 64 ((x.kind.total x.w0 - x.done) * 2 ^ 32 + st)

def execCpyq (c : Ctl) (d : SReg) (hdl : SDst) (s : State) : Out :=
  begin_ c s (fun e =>
    if e.act = 0#32 then .next (e.retire c e.g)
    else .next (e.retire c (e.g.writeS d (match e.s.liveCopy e.r e.g.core (Operand.sdst e hdl) with
      | some (_, x) => copyStatus x
      | none => 0#64))))

def State.putSlot (s : State) (core slot : Nat) (x : CopyCmd) : State :=
  s.modCore core (fun c => { c with slots := tblPut c.slots slot x })

/-- A fault that the engine finds, attributed to the command's issue (R223, R410). -/
def State.copyFault (s : State) (x : CopyCmd) (code : FaultCode) (addr : Word64) (reason : Byte) : State :=
  s.raiseLater x.g { code := code, reason := reason, mask := x.act, addr := addr, pc := x.pc }

/-- Where a command's destination bytes are counted. -/
def State.copyBar (s : State) (x : CopyCmd) : Option (BlockKey × Nat × Nat) :=
  match x.bk, s.group x.g with
  | some n, some g =>
    match scratchAt x.g g.slot x.dst with
    | .bytes k slot _ _ => some (k, slot, n)
    | _ => none
  | _, _ => none

/-- A command ends: its times are folded, its counter falls, its slot is free (R132, R137). -/
def State.endCopy (s : State) (core slot : Nat) (x : CopyCmd) : State :=
  let s1 := s.modCore core (fun c => { c with slots := tblDel c.slots slot })
  let s2 := (s1.foldHz x.g x.hz).modBlock x.g.key (fun b => { b with hz := b.hz.fold x.hz })
  (match x.holder with
   | some t => s2.foldHzc [⟨x.g, t⟩] x.colour x.hz.dev
   | none => s2).opPart x.g x.op

/-- Count bytes into a command's barrier, or raise BARRIER_OVERFLOW (R189). -/
def State.countCopy (s : State) (x : CopyCmd) (n : Nat) : State :=
  match s.copyBar x with
  | none => s
  | some (k, slot, bar) =>
    match s.countBytes k slot bar n with
    | .ok s1 => s1
    | .error code => s.copyFault x code 0#64 0#8

/-- Nothing of a command is under way: no unit reads, and no write is unanswered. -/
def CopyCmd.still (x : CopyCmd) : Bool := x.inFlight.isEmpty && x.writing.isEmpty

/-- A cancelled command with nothing in flight: the bytes it never wrote are counted, and it ends (R229). `credit` is
false at termination. -/
def State.finishCancel (s : State) (core slot : Nat) (x : CopyCmd) (credit : Bool) : State :=
  if !x.still then s.putSlot core slot { x with state := .cancelling }
  else (if credit then s.countCopy x (x.kind.total x.w0 - x.done) else s).endCopy core slot x

def execCpyx (c : Ctl) (hdl : SDst) (s : State) : Out :=
  begin_ c s (fun e =>
    let s1 := e.retire c e.g
    if e.act = 0#32 then .next s1
    else match e.s.liveCopy e.r e.g.core (Operand.sdst e hdl) with
      | some (slot, x) => .next (s1.finishCancel e.g.core slot x true)
      | none => .next s1)

def execCpyxAll (c : Ctl) (s : State) : Out :=
  begin_ c s (fun e =>
    let s1 := e.retire c e.g
    if e.act = 0#32 then .next s1
    else .next (((e.s.core e.g.core).slots.filter (fun x => decide (x.2.g = e.r) && !x.2.isMcld)).foldl (fun s x => s.finishCancel e.g.core x.1 x.2 true) s1))

/-! ## Units (R218, R223, R224, R226) -/

/-- Units in flight of an engine. -/
def State.unitsOut (s : State) (core : Nat) : Nat :=
  ((s.core core).slots.map (fun x => x.2.inFlight.length + x.2.writing.length)).foldl (· + ·) 0

/-- What the translation of a unit's lines comes to. -/
inductive UnitPages where
  | fault (code : FaultCode) (addr : Word64) (reason : Byte)
  | absent (addr : Word64)
  | ok (leaves : List Leaf)

def State.unitPages (s : State) (core ctx colour : Nat) (need : Need) : List Word64 → UnitPages × State
  | [] => (.ok [], s)
  | va :: r =>
    match s.xlate core ctx need va with
    | (.error k, s1) => (.fault (if need.w then .pagePermWrite else .pagePermRead) va k, s1)
    | (.lacksW, s1) => (.fault .pagePermWrite va 0#8, s1)
    | (.lacksR, s1) => (.fault .pagePermRead va 0#8, s1)
    | (.absent, s1) => (.absent va, s1)
    | (.ok x, s1) =>
      if x.colour ≠ colour then (.fault .colourSpan va 0#8, s1)
      else match State.unitPages s1 core ctx colour need r with
        | (.ok ls, s2) => (.ok (insertNew ls x.leaf), s2)
        | y => y

/-- The block of a command still runs copies. -/
def State.copiesRun (s : State) (k : BlockKey) : Bool :=
  match s.block k with
  | some b => b.status != .stopping && b.status != .terminating
  | none => false

/-- The line of a virtual address under a unit's leaves. -/
def leafAt (ls : List Leaf) (va : Word64) : Option Leaf := ls.find? (fun l => l.covers va)

/-- The lines of some addresses under a unit's leaves, with their home-only bit. -/
def unitLines (ls : List Leaf) (vas : List Word64) : List (LineNo × Bool) :=
  (vas.filterMap (fun va => (leafAt ls va).map (fun l => (l.line va, l.mtype == 1)))).dedup

/-- A fence that its group began before an operation has yet to end (R132). -/
def Group.fencedBefore (g : Group) (op : Nat) : Bool :=
  (g.holds ++ g.savedHolds).any (fun h => match h.kind with
    | .fence f | .before f | .after f => decide (f.since ≤ op)
    | _ => false)

def State.copyMayRead (s : State) (x : CopyCmd) : Bool :=
  match s.group x.g with
  | some g => !g.fencedBefore x.op
  | none => true

/-- Read one line for a command: at its home or its die's gateway cache, which grants no lease (R226); host memory under
mtype 01, and a peer's, past the agent (R135, R442). -/
def State.readFor (s : State) (core ctx : Nat) (l : LineNo) (l0 : Bool) (tgt : ReadFor) : State :=
  let r : ReadReq := { line := l, len := none, keep := false, bypass := l0, core := core, ctx := ctx, slot := none, tgt := tgt }
  if isHost l && l0 then s.send ⟨.req, portCore core, portHome l⟩ (.host r)
  else s.send (chanOut core l) (.read r (goesHome core l))

/-- UNIT_SEND of a command with units: the next unit's pages are translated, and its lines are asked for. -/
def State.sendUnit (s : State) (core slot : Nat) (x : CopyCmd) : State :=
  let vas := (x.memRanges x.next).flatMap Range.lines
  match s.unitPages core x.g.key.ctx x.colour (if x.kind.toMem then Need.write else Need.read) vas with
  | (.fault code va reason, s1) => (s1.putSlot core slot { x with state := .failed }).copyFault x code va reason
  | (.absent va, s1) =>
    (s1.putSlot core slot { x with state := .parked va s.now }).record x.g .replayable
      { code := .pageNotPresent, mask := x.act, addr := va, pc := x.pc }
  | (.ok ls, s1) =>
    let s2 := s1.putSlot core slot { x with
      next := x.next + 1, inFlight := x.inFlight ++ [(x.next, ls)], outside := x.outside || ls.any (fun l => l.place == 6) }
    if x.kind.toMem then s2
    else (unitLines ls vas).foldl (fun s y => s.readFor core x.g.key.ctx y.1 y.2 (.copy core slot x.op x.next)) s2

/-- Bytes of a range out of read lines. -/
def bytesOf (ls : List Leaf) (got : LineNo → Option (LineBits × Bool)) (r : Range) : List Byte :=
  (List.range r.n).map (fun k =>
    let va := r.va + BitVec.ofNat 64 k
    match (leafAt ls va).bind (fun l => (got (l.line va)).map (fun y => (l, y.1))) with
    | none => 0#8
    | some (l, d) => (BitVec.ushiftRight d (8 * (l.flat va % 128))).setWidth 8)

/-- Bytes of the weight store. -/
def State.weightBytes (s : State) (r : Range) : List Byte :=
  (List.range r.n).map (fun k =>
    let a := r.va.toNat + k
    s.mem.read (weightKey (a / 2 ^ 30 % 4) (a % 2 ^ 30)))

/-- Bytes by line: later bytes over earlier ones. -/
def linesOf (ls : List Leaf) (ws : List (Range × List Byte)) : List (LineNo × Bool × LineBits × LineBits) :=
  (ws.flatMap (fun w => w.2.zipIdx.map (fun b => (w.1.va + BitVec.ofNat 64 b.2, b.1)))).foldl (fun acc b =>
    match leafAt ls b.1 with
    | none => acc
    | some l =>
      let n := l.line b.1
      let off := l.flat b.1 % 128
      let d := placeBytes off (b.2.setWidth 128)
      let m := byteMask off 1
      match acc.find? (fun y => y.1 == n) with
      | none => acc ++ [(n, l.mtype == 1, d, m)]
      | some _ => acc.map (fun y => if y.1 = n then (n, y.2.1, mergeLine y.2.2.1 d m, y.2.2.2 ||| m) else y)) []

/-- A share's bytes at a scratchpad address, and whether one is poisoned; none where the block is gone. -/
def State.spAt (s : State) (r : GroupRef) (slot : Nat) (a : Word64) (off n : Nat) : Option (List Byte × Bool) :=
  match scratchAt r slot a with
  | .bytes k sl o _ => (s.block k).map (fun b => (s.spRead b sl (o + off) n, s.spPoisoned b sl (o + off) n))
  | _ => none

def State.spPut (s : State) (r : GroupRef) (slot : Nat) (a : Word64) (off : Nat) (bs : List Byte) : State :=
  match scratchAt r slot a with
  | .bytes k sl o _ => match s.block k with
    | some b => s.spWrite b sl (o + off) bs
    | none => s
  | _ => s

/-- What a unit's landing comes to. -/
inductive Landing where
  | wait
  | fault (code : FaultCode)
  /-- Its bytes are in scratchpad: how many. -/
  | done (n : Nat) (s : State)
  /-- Its bytes go to memory: how many, and by line with the home-only bit. -/
  | writes (n : Nat) (ws : List (LineNo × Bool × LineBits × LineBits))

/-- Where the destination of a CPY.ss overlaps its own source, the bytes are undefined (R224). -/
def ssBytes (s : State) (r : GroupRef) (slot : Nat) (x : CopyCmd) (off : Nat) (bs : List Byte) : List Byte :=
  match scratchAt r slot x.dst, scratchAt r slot x.src with
  | .bytes k sl o _, .bytes k2 sl2 o2 _ =>
    if k = k2 ∧ sl = sl2 then
      bs.zipIdx.map (fun b =>
        let p := o + off + b.2
        if o2 ≤ p ∧ p < o2 + copyLength x.w0 then Config.freeByte (s.fresh * 2 ^ 32 + b.2) else b.1)
    else bs
  | _, _ => bs

/-- The bytes of a unit that has been read into scratchpad: a fault where one was poisoned (R411) or the destination's block
has gone (R181). -/
def State.intoScratch (s : State) (slot : Nat) (x : CopyCmd) (bad : Bool) (ws : List (Nat × List Byte)) : Landing :=
  if (s.spAt x.g slot x.dst 0 0).isNone then .fault .peerGone
  else if bad then .fault .eccUncorrectable
  else .done ((ws.map (fun w => w.2.length)).foldl (· + ·) 0) (ws.foldl (fun s w => s.spPut x.g slot x.dst w.1 w.2) s)

/-- The row of a tile and its strip, out of its memory side. -/
def tileRow (g : TileGeo) (m : MemSide) (r : TileRow) (rd : Range → List Byte) : List (Nat × List Byte) :=
  let (row, strip) := rowFromMem g m r rd
  [(g.rowAt r, row), (g.stripAt r, strip)]

/-- Read a unit at its source and make its destination's bytes. -/
def State.landUnit (s : State) (slot : Nat) (x : CopyCmd) (u : Nat) (ls : List Leaf) : Landing :=
  let ranges := x.memRanges u
  let need := (unitLines ls (ranges.flatMap Range.lines)).map Prod.fst
  let got (l : LineNo) : Option (LineBits × Bool) := tblGet x.got (u, l)
  let missing := need.any (fun l => (got l).isNone)
  let bad := need.any (fun l => ((got l).map Prod.snd).getD false)
  match x.kind with
  | .cpy .inn =>
    if missing then .wait
    else s.intoScratch slot x bad [((cpyUnit x.w0 u).1, ranges.flatMap (bytesOf ls got))]
  | .cpyt ty =>
    if missing then .wait
    else
      let g := tileOf ty x.w0
      s.intoScratch slot x bad (tileRow g (memSide ty x.src x.w0 x.w1) (g.unit u) (bytesOf ls got))
  | .cpyw ty =>
    let ws := x.weightRanges u
    if ws.any (fun w => inRefresh w.va.toNat s.now) then .wait
    else
      let g := tileOf ty x.w0
      s.intoScratch slot x
        (ws.any (fun w => (s.weightLine (w.va.toNat / 128)).2 || (s.weightLine ((w.va.toNat + w.n - 1) / 128)).2))
        (tileRow g (memSide ty ((x.src.setWidth 32).setWidth 64) x.w0 ((x.w1.setWidth 32).setWidth 64)) (g.unit u)
          s.weightBytes)
  | .cpy .ss =>
    let (off, n) := cpyUnit x.w0 u
    match s.spAt x.g slot x.src off n with
    | none => .fault .peerGone
    | some (bs, bad) => s.intoScratch slot x bad [(off, ssBytes s x.g slot x off bs)]
  | .cpy .out =>
    let (off, n) := cpyUnit x.w0 u
    match s.spAt x.g slot x.src off n with
    | none => .fault .peerGone
    | some (bs, bad) =>
      if bad then .fault .eccUncorrectable else .writes n (linesOf ls [(⟨x.dst + BitVec.ofNat 64 off, n⟩, bs)])
  | .cpys dty sty rnd =>
    let g := tileOf sty x.w0
    let r := g.unit u
    let cols := cpysCols g dty r
    let rd (off n : Nat) : Option (List Byte × Bool) := s.spAt x.g slot x.src off n
    let el (c : Nat) : Word64 := ((rd (g.at_ r.i c) g.w).map (fun y => leBits 64 y.1)).getD 0#64
    let sc (c : Nat) : Nat := ((rd (g.scaleAt r.i c) 1).map (fun y => leNat y.1)).getD 0
    let bad := cols.any (fun c => (rd (g.at_ r.i c) g.w).any Prod.snd || (g.isL6 && (rd (g.scaleAt r.i c) 1).any Prod.snd))
    if (rd 0 0).isNone then .fault .peerGone
    else if bad then .fault .eccUncorrectable
    else
      let ws := rowToMem g (memSide dty x.dst x.w0 x.w1) rnd r el sc
      .writes ((ws.map (fun y => y.2.length)).foldl (· + ·) 0) (linesOf ls ws)
  | .mcld _ _ => .wait

/-- A unit, or a line of an MCLD, is over: its bytes are counted, and with the last one the command ends (R218, R224). -/
def State.unitDone (s : State) (core slot : Nat) (x : CopyCmd) (n : Nat) : State :=
  let y := { x with done := x.done + n }
  let s1 := (s.putSlot core slot y).countCopy y n
  match y.state with
  | .cancelling => s1.finishCancel core slot y true
  | .running => if (if y.isMcld then y.landed.length = y.units else y.next = y.units) ∧ y.still then s1.endCopy core slot y else s1
  | _ => s1

/-- UNIT_LANDING. The writes of a unit leave as store requests, past the coalescing buffer, and the core's copies of their
lines end (R226, R458); the unit is over once they are all answered. -/
def execUnitLanding (core slot unit : Nat) (s : State) : Out :=
  match tblGet (s.core core).slots slot with
  | none => .next s
  | some x =>
    match tblGet x.inFlight unit, s.group x.g with
    | some ls, some g =>
      let y := { x with inFlight := tblDel x.inFlight unit, got := x.got.filter (fun p => p.1.1 != unit) }
      match s.landUnit g.slot x unit ls with
      | .wait => .next s
      | .fault code => .next ((s.putSlot core slot { y with state := .failed }).copyFault x code 0#64 0#8)
      | .done n s1 => .next ({ s1 with fresh := s.fresh + 1 }.unitDone core slot y n)
      | .writes n [] => .next (s.unitDone core slot y n)
      | .writes n ws =>
        .next (ws.foldl (fun s w =>
          (s.endCopies core (fun k => k == w.1)).sendUpdate
            { addr := lineByte w.1, op := .put w.2.2.1 w.2.2.2 false, core := core, ctx := x.g.key.ctx, g := x.g, opId := x.op
              who := none, dst := none, colour := x.colour, holder := x.holder, l0 := w.2.1, va := 0#64
              tgt := .copy core slot x.op unit } [])
          (s.putSlot core slot { y with writing := tblPut y.writing unit (ws.length, n) }))
    | _, _ => .next s

/-- The command that an answer is for: the one with a number in a slot. -/
def State.copyAt (s : State) (core slot cmd : Nat) : Option CopyCmd :=
  (tblGet (s.core core).slots slot).filter (fun x => x.op == cmd)

/-- A write of a unit has been answered: its time counts for the command (R132). -/
def State.unitWritten (s : State) (core slot cmd unit w : Nat) : State :=
  match s.copyAt core slot cmd with
  | none => s
  | some x =>
    let y := { x with hz := x.hz.fold ⟨w, w, w, w⟩ }
    match tblGet y.writing unit with
    | none => s
    | some (k, n) =>
      if k ≤ 1 then s.unitDone core slot { y with writing := tblDel y.writing unit } n
      else s.putSlot core slot { y with writing := tblPut y.writing unit (k - 1, n) }

/-- A line that a unit has asked for. -/
def State.unitRead (s : State) (core slot cmd unit : Nat) (l : LineNo) (data : LineBits) (bad : Bool) : State :=
  match s.copyAt core slot cmd with
  | none => s
  | some x => s.putSlot core slot { x with got := tblPut x.got (unit, l) (data, bad) }

end Sys2Proof.Machine
end

