-- ==== Sys2Proof/Machine/Multicast.lean ====
section
/-! DEFINITION. MCLD, the multicast entries of slices and gateway caches, and fills that serve a miss entry's requests
(R143 to R154). -/

namespace Sys2Proof.Machine

/-! ## Join points (R144, R145) -/

/-- Requests of one entry. -/
def McastReq.sameKey (x y : McastReq) : Bool :=
  decide (x.at_ = y.at_) && x.line == y.line && x.ctx == y.ctx && x.tag == y.tag

/-- Requests whose entries one slice or gateway cache keeps. -/
def McastReq.sameUnit (x y : McastReq) : Bool :=
  decide (x.at_ = y.at_) && (match x.at_ with
    | .home => sameSlice x.line y.line
    | .gateway _ => homeDie x.line == homeDie y.line)

/-- The read of an entry at a slice that holds its line (R146, R147). -/
def State.mcastAtHome (s : State) (k : Nat) : State :=
  match tblGet s.mcast k with
  | none => s
  | some e =>
    let l := e.req.line
    let s1 := s.modLine l (fun y => { y with used := s.now })
    (if e.req.hint = .keep then s1.setKeep l else s1).landAll k (s1.lineData l) (s1.linePoisoned l)

/-- Close an entry and read its line (R146): at a slice at once or in the line's miss entry; at a gateway cache from its
copy, after a renewal where that is not usable; with hint 101, and for a line of mtype 01, at the home behind every store
that the gateway has forwarded. The entry is kept, closed, until the line has been read. -/
def State.sendMcast (s : State) (k : Nat) : State :=
  match tblGet s.mcast k with
  | none => s
  | some e =>
    let l := e.req.line
    let shut : State := { s with mcast := tblPut s.mcast k { e with closed := true } }
    let asked (s : State) : State := { s with mcast := tblMod s.mcast k (fun x => { x with asked := true }) }
    if e.asked then s
    else
      match e.req.at_ with
      | .home =>
        match (shut.countHome l false).missAt l (.mcast k) with
        | none => shut
        | some (some s1) => asked s1
        | some none => (shut.countHome l false).mcastAtHome k
      | .gateway die =>
        let r : ReadReq := { line := l, len := none, keep := false, bypass := true, core := e.req.member.core
                             ctx := e.req.ctx, slot := none, tgt := .mcast k }
        let s1 := asked (shut.countOut die)
        if e.req.hint = .home || e.req.l0 then
          s1.send ⟨.req, portGateway die (homeDie l), portHome l⟩ (.read r true)
        else (s1.readGateway die { r with bypass := false }).getD shut

/-- Send the entries whose deadlines lie behind: at every join point, or at that of a request. -/
def State.sendOverdue (s : State) (p : McastReq → Bool := fun _ => true) : State :=
  (s.mcast.filter (fun e => p e.2.req && !e.2.closed && decide (e.2.deadline < s.now))).foldl (fun s e => s.sendMcast e.1) s

/-- A request joins the oldest entry open for its key, or opens one; none where no entry is free (R145). Requests of one
key may differ in their hints, or in the mtype of their pages: the entry reads as the request that opened it asks, and sets
the keep bit where one that joins it at a slice has hint 010 (DESIGN CHOICE, log 43). -/
def State.joinMcast (s0 : State) (r : McastReq) : Option State :=
  let s := s0.sendOverdue (fun x => x.sameUnit r)
  let full (e : McastEntry) (k : Nat) (s : State) : State :=
    let s1 := { s with mcast := tblPut s.mcast k e }
    if e.count = e.expect then s1.sendMcast k else s1
  match s.mcast.find? (fun e => e.2.req.sameKey r && !e.2.closed && decide (e.2.members.length < Config.mcastMembers)) with
  | some (k, e) =>
    let hint := if r.hint = .keep && r.at_ = .home then .keep else e.req.hint
    some (full { e with req := { e.req with hint := hint }, members := e.members ++ [r.member], count := e.count + 1 } k s)
  | none =>
    if Config.mcastEntries ≤ (s.mcast.filter (fun e => e.2.req.sameUnit r)).length then none
    else
      let (k, s1) := s.freshId
      some (full { req := r, closed := false, asked := false, expect := r.nm + 1, deadline := s.now + 16 * r.hold
                   members := [r.member], count := 1 } k s1)

/-- Take the requests that wait at a join point, in the order of their arrival, until one has to go on waiting. -/
def State.admitMcast (s : State) (unit : McastReq) : State :=
  (s.mcastWait.foldl (fun (acc : State × Bool) r =>
    if acc.2 || !r.sameUnit unit then acc
    else match acc.1.joinMcast r with
      | none => (acc.1, true)
      | some s1 => ({ s1 with mcastWait := s1.mcastWait.erase r }, false)) (s, false)).1

/-- MULTICAST_REQUEST. -/
def execMulticastRequest (m : Nat) (s : State) : Out :=
  match s.deliverable m with
  | some ⟨_, .mcast r, _, _⟩ =>
    let s1 := s.take m
    .next (({ s1 with mcastWait := s1.mcastWait ++ [r] }).admitMcast r)
  | _ => .next s

/-- MULTICAST_DEADLINE: an entry whose time has come, or one that waits to be read, sends; requests that wait at its join
point are taken where it has freed an entry. -/
def execMulticastDeadline (k : Nat) (s : State) : Out :=
  match tblGet s.mcast k with
  | none => .next s
  | some e => if e.closed || decide (e.deadline ≤ s.now) then .next ((s.sendMcast k).admitMcast e.req) else .next s

/-- A line of an MCLD lands: it is written and counted; with the last one the command ends. A poisoned line faults
(R223, R411). -/
def State.mcldLand (s : State) (w : Member) (data : LineBits) (bad : Bool) : State :=
  match s.copyAt w.core w.slot w.cmd with
  | none => s
  | some x =>
    match s.group x.g with
    | none => s
    | some g =>
      if bad then s.copyFault x .eccUncorrectable 0#64 0#8
      else
        (s.spPut x.g g.slot x.dst (128 * w.j) (leBytes 128 data.toNat)).unitDone w.core w.slot
          { x with landed := insertNew x.landed w.j } 128

/-- MULTICAST_LANDING. -/
def execMulticastLanding (m : Nat) (s : State) : Out :=
  match s.deliverable m with
  | some ⟨_, .mcastLand w data bad, _, _⟩ => .next ((s.take m).mcldLand w data bad)
  | _ => .next s

/-- A line that a command has asked for has come: an MCLD's, or a unit's. -/
def State.copyRead (s : State) (core slot cmd unit : Nat) (l : LineNo) (data : LineBits) (bad : Bool) : State :=
  match s.copyAt core slot cmd with
  | none => s
  | some x => if x.isMcld then s.mcldLand ⟨core, slot, cmd, unit⟩ data bad else s.unitRead core slot cmd unit l data bad

/-- Take a command's members out of every entry that has not been read (R150). They stay counted. -/
def State.withdrawMcast (s : State) (core slot : Nat) : State :=
  { s with mcast := s.mcast.map (fun e =>
      (e.1, { e.2 with members := e.2.members.filter (fun x => !(x.core == core && x.slot == slot)) })) }

/-! ## MCLD (R151 to R154) -/

/-- The descriptor of R152. -/
structure McldDesc where
  hold : Nat
  lines : Nat
  nm : Nat
  tag : Nat

def mcldDesc (x : Word64) : McldDesc :=
  ⟨(x.extractLsb' 32 12).toNat, (x.extractLsb' 22 9).toNat + 1, (x.extractLsb' 16 6).toNat, (x.setWidth 16).toNat⟩

/-- The colour of a range of lines: that of its first coloured line. Lines of colour 0 are uncoloured (R341), so that a range
with some of them beside lines of one colour has one (R153, R329). -/
def oneColour (xs : List (Word64 × Xlat)) : Nat := ((xs.map (fun x => x.2.colour)).find? (fun k => k != 0)).getD 0

/-- Translate the lines of a range, in order. -/
def State.xlateLines (s : State) (core ctx : Nat) : List Word64 → List (Word64 × XlatResult) × State
  | [] => ([], s)
  | va :: r =>
    let (x, s1) := s.xlate core ctx Need.read va
    let (xs, s2) := State.xlateLines s1 core ctx r
    ((va, x) :: xs, s2)

/-- The fault of a range of lines (R81, R153), with the address of the lowest faulting page. -/
def rangeFault (l : List (Word64 × XlatResult)) : Option (FaultCode × Word64 × Byte) :=
  let page (va : Word64) : Word64 := va &&& ~~~0xFFFF#64
  match l.find? (fun x => match x.2 with
    | .error _ => true
    | _ => false) with
  | some (va, .error k) => some (.pagePermRead, page va, k)
  | _ =>
    match l.find? (fun x => x.2 == .lacksR), l.find? (fun x => x.2 == .absent) with
    | some (va, _), _ => some (.pagePermRead, page va, 0#8)
    | none, some (va, _) => some (.pageNotPresent, page va, 0#8)
    | none, none => none

/-- A part of an operation is to place 110: it holds the watchdog's count from now on (R424). -/
def State.opOutside (s : State) (r : GroupRef) (id : Nat) : State :=
  s.modGroup r (fun g => { g with ops := g.ops.map (fun o => if o.id = id then { o with ext := true } else o) })

/-- Send the request of one line of a command: to its join point, or, for a line of host memory or of a peer, which has
none, to be read alone (R144, R442). `nm` is none for what is requested again on resumption (R150). -/
def State.mcldLine (s : State) (core slot : Nat) (x : CopyCmd) (again : Bool) (j : Nat) (l : LineNo) (l0 : Bool) : State :=
  let ctx := x.g.key.ctx
  let q := mcldDesc x.w0
  let h := match x.kind with
    | .mcld _ h => h
    | _ => .default
  if isHost l then (s.opOutside x.g x.op).readFor core ctx l l0 (.copy core slot x.op j)
  else
    let r : McastReq := { at_ := if homeDie l = dieOfCore core then .home else .gateway (dieOfCore core), line := l, ctx := ctx
                          tag := q.tag, nm := if again then 0 else q.nm, hold := q.hold, hint := h, l0 := l0
                          member := ⟨core, slot, x.op, j⟩ }
    s.send ⟨.req, portCore core, r.port⟩ (.mcast r)

/-- The address of a line of an MCLD. -/
def CopyCmd.lineVa (x : CopyCmd) (j : Nat) : Word64 := x.src + BitVec.ofNat 64 (128 * j)

/-- The requests of a command leave, in ascending order. A line that is asked for again on resumption is translated again. The
spec does not say what happens where its page no longer translates: as for a copy, the command parks on PAGE_NOT_PRESENT
with that line still to be asked for, and any other fault is raised at the MCLD (R150; DESIGN CHOICE, log 43). -/
def State.sendMcld (s : State) (core slot : Nat) (x : CopyCmd) : State :=
  let (absent, s1) := x.todo.foldl (fun (acc : List Nat × State) y =>
    match y.2 with
    | some l => (acc.1, acc.2.mcldLine core slot x false y.1 l.1 l.2)
    | none =>
      match acc.2.xlate core x.g.key.ctx Need.read (x.lineVa y.1) with
      | (.ok z, s) => (acc.1, s.mcldLine core slot x true y.1 (z.leaf.line (x.lineVa y.1)) (z.leaf.mtype == 1))
      | (.absent, s) => (acc.1 ++ [y.1], s)
      | (r, s) => match rangeFault [(x.lineVa y.1, r)] with
        | some (code, a, reason) => (acc.1, s.copyFault x code a reason)
        | none => (acc.1, s)) ([], s)
  match absent with
  | [] => s1.putSlot core slot { x with todo := [] }
  | j :: _ =>
    (s1.putSlot core slot { x with todo := absent.map (fun j => (j, none)), state := .parked (x.lineVa j) s.now }).record x.g
      .replayable { code := .pageNotPresent, mask := x.act, addr := x.lineVa j, pc := x.pc }

/-- UNIT_SEND: the next unit of a command, or the requests of an MCLD, once the fences before it are over (R132, R218). -/
def execUnitSend (core slot : Nat) (s : State) : Out :=
  match tblGet (s.core core).slots slot with
  | none => .next s
  | some x =>
    if !s.copiesRun x.g.key || !s.copyMayRead x then .next s
    else if x.isMcld then .next (if x.todo.isEmpty || x.state != .running then s else s.sendMcld core slot x)
    else if x.state != .running || x.units ≤ x.next || Config.unitsInFlight ≤ s.unitsOut core then .next s
    else .next (s.sendUnit core slot x)

/-- A command whose checks are over: its requests leave at once, or when the fences before it are over. -/
def startMcld (c : Ctl) (e : Iss) (h : Hint) (slot : Nat) (dst src desc : Word64) (bk : Option Nat)
    (xs : List (Word64 × Xlat)) (colour : Nat) : Out :=
  let low : Tid := (maskTids e.act).headD 0
  let q := mcldDesc desc
  let core := e.g.core
  let s1 := e.finish c e.s 0#32
  let seq := (s1.core core).seq
  let (id, s2) := s1.issueOp e.r (fun id =>
    { id := id, cls := .cp, kind := .global, pc := e.pc, act := e.act, parts := 1, dests := [], clobbered := []
      ext := false, cols := if colour = 0 then [] else [(low, colour)] })
  let x : CopyCmd :=
    { seq := seq, g := e.r, op := id, kind := .mcld 0#25 h, dst := dst, src := src, w0 := desc, w1 := 0#64, bk := bk
      pc := e.pc, act := e.act, state := .running, units := q.lines, next := q.lines, inFlight := [], landed := []
      todo := xs.zipIdx.map (fun y => (y.2, some (y.1.2.leaf.line y.1.1, y.1.2.leaf.mtype == 1))), got := [], writing := []
      done := 0, hz := {}, colour := colour, holder := if colour = 0 then none else some low }
  .next (if s2.copyMayRead x then s2.sendMcld core slot x else s2.putSlot core slot x)

def execMcld (c : Ctl) (h : Hint) (dst base desc : SReg) (off : BitVec 25) (bk : Option BReg) (s : State) : Out :=
  begin_ c s (fun e =>
    if e.act = 0#32 then .next (e.retire c e.g)
    else match e.s.freeSlot e.g.core, e.s.block e.r.key with
      | some slot, some b =>
        let low : Tid := (maskTids e.act).headD 0
        let d : Word64 := ((Operand.s e dst).setWidth 32).setWidth 64
        let a := Operand.s (e.nth 1) base + off.signExtend 64
        let q := mcldDesc (Operand.s (e.nth 2) desc)
        if a.toNat % 128 ≠ 0 then e.fault .misaligned e.act a
        else if d.toNat % 128 ≠ 0 then e.fault .misaligned e.act d
        else if b.share < d.toNat + 128 * q.lines then e.fault .scratchRange e.act d
        else if (match bk with
            | some n => decide (b.lr.nbar ≤ n.val)
            | none => false) then e.fault .scratchRange e.act
        else
          let (res, s1) := e.s.xlateLines e.g.core e.r.key.ctx
            ((List.range q.lines).map (fun j => a + BitVec.ofNat 64 (128 * j)))
          let e1 := { e with s := s1 }
          match rangeFault res with
          | some (code, va, reason) => e1.fault code e.act va reason
          | none =>
            let xs := res.filterMap (fun x => match x.2 with
              | .ok y => some (x.1, y)
              | _ => none)
            let colour := oneColour xs
            match xs.find? (fun x => x.2.colour != 0 && x.2.colour != colour) with
            | some (va, _) => e1.fault .colourSpan e.act va
            | none =>
              match acquire e1 [(low, colour)] (some e.act) with
              | .fault code m => e1.fault code m a
              | .go s2 waiting =>
                let e2 := { e1 with s := s2, g := (s2.group e.r).getD e.g }
                if waiting != 0#32 then .next (e2.finish c s2 waiting)
                else startMcld c e2 h slot d a (Operand.s (e.nth 2) desc) (bk.map (fun n => n.val)) xs colour
      | _, _ => .next e.s)

/-! ## Fills (R123, R143) -/

/-- Serve the requests that a miss entry held, in the order of their arrival. -/
def State.serveHeld (s : State) (q : HeldReq) : State :=
  match q with
  | .read r => s.serveRead r
  | .store t => s.serveStore t
  | .update u fwd => s.serveUpdate u fwd
  | .mcast k => s.mcastAtHome k

/-- Place a fill and serve what waits for it, or leave it waiting for a way. -/
def State.placeFill (s : State) (l : LineNo) (m : Miss) (bad : Bool) : State :=
  match s.bringIn l bad with
  | none => { s with misses := tblPut s.misses l { m with fill := some bad } }
  | some s1 => m.held.foldl State.serveHeld { s1 with misses := tblDel s1.misses l }

/-- An error of a unit counts for it (R67, R411, R452). -/
def State.eccError (s : State) (e : Ecc) (kind inst : Nat) : State :=
  match e with
  | .none => s
  | .corrected => s.corrected kind inst 1
  | .uncorrectable => s.uncorrected kind inst

/-- An error of a fill counts for the stack or the port that the line comes from (R67). -/
def State.fillError (s : State) (e : Ecc) (l : LineNo) : State :=
  if isHbm l then s.eccError e 7 (homeDie l * 2 + (dramPlace l).stack)
  else if isCxl l then s.eccError e 9 (s.cxlPlace l).1
  else s

/-- FILL_ARRIVAL: the line is read, with the error that its code finds (R67). -/
def execFillArrival (line : Nat) (error : Ecc) (s : State) : Out :=
  match tblGet s.misses line with
  | none => .next s
  | some m => if m.fill.isSome then .next s
    else .next ((s.fillError error line).placeFill line m (error == .uncorrectable))

/-- WL_PASSES: a fill that waited for a way. -/
def execWlPasses (line : Nat) (s : State) : Out :=
  match tblGet s.misses line with
  | none => .next s
  | some m => match m.fill with
    | none => .next s
    | some bad => .next (s.placeFill line m bad)

end Sys2Proof.Machine
end

