-- ==== Sys2Proof/Machine/Fetch.lean ====
section
/-! DEFINITION. Code lines and their trailers, the scanner, instruction fetches and fills (R29, R32 to R34, R56 to R59,
R83). -/

namespace Sys2Proof.Machine

/-! ## Lines (R29, R32) -/

/-- Eight steps of the CRC on its 16 bits. -/
def crcShift : Nat → BitVec 16 → BitVec 16
  | 0, x => x
  | n + 1, x => crcShift n (if x.getLsbD 15 then (x <<< 1) ^^^ 0x1021#16 else x <<< 1)

def crc16 (bs : List Byte) : BitVec 16 :=
  bs.foldl (fun x b => crcShift 8 (x ^^^ (b ++ 0#8))) 0xFFFF#16

/-- The 64 bytes of a line. -/
def lineBytes (x : BitVec 512) : List Byte := leBytes 64 x.toNat

/-- The trailer is the one its 60 bytes have. -/
def trailerOk (x : BitVec 512) : Bool := x.extractLsb' 480 16 == crc16 ((lineBytes x).take 60)

/-- The word of a slot. -/
def slotWord (x : BitVec 512) (slot : Nat) : InstrWord := x.extractLsb' (96 * slot) 96
def pcSlot (pc : Word64) : Nat := pc.toNat % 64 / 12
def pcLine (pc : Word64) : Word64 := pc &&& ~~~63#64

/-! ## The scanner (R57) -/

/-- The first check that a line fails: slot (7 for the trailer), reason, detail. -/
def scanLine (x : BitVec 512) : Option (Nat × Reject) :=
  if !trailerOk x then some (7, ⟨0x01#8, 0#8⟩)
  else if x.extractLsb' 496 16 != 0#16 then some (7, ⟨0x02#8, 0#8⟩)
  else (List.range 5).findSome? (fun k =>
    match decode (slotWord x k) with
    | .ok _ => none
    | .error r => some (k, r))

/-- A line of a frame, as its home has it. -/
def State.codeLine (s : State) (flat : Nat) : BitVec 512 := leBits 512 (s.homeBytes flat 64)

/-- The first line of a frame that fails, with what failed. -/
def State.scanFrame (s : State) (place pa : Nat) : Option (Nat × Nat × Reject) :=
  (List.range 1024).findSome? (fun i =>
    (scanLine (s.codeLine (flatByte place (pa + 64 * i)))).map (fun r => (i, r.1, r.2)))

/-! ## Fetch and fill (R34, R83) -/

/-- The entry of a group at a PC. -/
def State.entryAt (s : State) (r : GroupRef) (pc : Word64) : Option FEntry :=
  match s.group r, s.block r.key with
  | some g, some b => (g.frontier b).find? (fun e => e.pc == pc)
  | _, _ => none

/-- INSTRUCTION_FETCH. -/
def execInstructionFetch (r : GroupRef) (pc : Word64) (s : State) : Out :=
  match s.group r, s.entryAt r pc with
  | some g, some e =>
    let key := (r.key.ctx, pcLine pc)
    let c := s.core g.core
    if g.onPage || (tblGet c.icache key).isSome || (tblGet c.fetches key).isSome then .next s
    else
      let info (code : FaultCode) (reason : Byte) : FaultInfo :=
        { code := code, reason := reason, mask := e.mask, addr := pc, pc := pc }
      match s.translate g.core r.key.ctx (pcLine pc) with
      | (.error k, s1) => .next (s1.raise r e (info .pagePermExec k))
      | (.absent, s1) => .next (s1.raise r e (info .pageNotPresent 0#8))
      | (.leaf l, s1) =>
        if l.x && !l.w && l.level == 3 && s1.isCode (l.flat pc) then
          .next (s1.modCore g.core (fun c => { c with
            fetches := c.fetches ++ [(key, ⟨r, pc, l.flat (pcLine pc), 0⟩)] }))
        else .next (s1.raise r e (info .pagePermExec 0#8))
  | _, _ => .next s

/-- The outstanding fetches of the part, by core. -/
def State.fetchList (s : State) : List (Nat × (Nat × Word64) × Fetch) :=
  s.cores.flatMap (fun c => c.2.fetches.map (fun f => (c.1, f.1, f.2)))

/-- INSTRUCTION_FILL: fill number `k` of those outstanding arrives, with the bits of `flip` in error. -/
def execInstructionFill (k : Nat) (flip : BitVec 512) (s : State) : Out :=
  match s.fetchList[k]? with
  | none => .next s
  | some (core, key, f) =>
    let x := s.codeLine f.at_ ^^^ flip
    let drop (s : State) : State := s.modCore core (fun c => { c with fetches := tblDel c.fetches key })
    if s.linePoisoned (f.at_ / 128) then
      -- an error that the memory could not correct is the fetching instruction's (R67)
      let s1 := drop s
      match s1.entryAt f.g f.pc with
      | some e => .next (s1.raise f.g e { code := .eccUncorrectable, mask := e.mask, pc := f.pc })
      | none => .next s1
    else if trailerOk x then
      let s1 := (drop s).modCore core (fun c => { c with icache := tblPut c.icache key x })
      .next (if f.failed = 0 then s1 else s1.corrected 1 core 1)
    else if f.failed < 2 then
      .next (s.modCore core (fun c => { c with fetches := tblPut c.fetches key { f with failed := f.failed + 1 } }))
    else
      let s1 := (drop s).uncorrected 1 core
      match s1.entryAt f.g f.pc with
      | some e => .next (s1.raise f.g e { code := .eccUncorrectable, mask := e.mask, pc := f.pc })
      | none => .next s1

end Sys2Proof.Machine
end

