-- ==== Sys2Proof/Machine/Matrix.lean ====
section
/-! DEFINITION. The matrix engine: tile registers, the reservation table, passes, gangs (R289 to R315). -/

namespace Sys2Proof.Machine

/-! ## Tile registers (R289 to R292) -/

def Block.cluster (b : Block) : Nat := clusterOfCore ((b.cores[0]?).getD 0)

def State.tile (s : State) (cl : Nat) (k : BlockKey) (n : TReg) : TileReg :=
  tblGetD (s.cluster cl).tiles (k, n.val) TileReg.none
def State.putTile (s : State) (cl : Nat) (k : BlockKey) (n : TReg) (x : TileReg) : State :=
  s.modCluster cl (fun c => { c with tiles := tblPut c.tiles (k, n.val) x })

def TileReg.shaped (x : TileReg) : Bool := x.rows != 0
def TileReg.geo (x : TileReg) : TileGeo := ⟨x.ty, x.rows, x.cols⟩
def TileReg.size (x : TileReg) : Nat := x.geo.size
def TileReg.sameShape (x y : TileReg) : Bool := x.rows == y.rows && x.cols == y.cols

/-- A tile register's bytes in the list of cells. -/
def TileReg.key (x : TileReg) (cl off : Nat) : Nat := tileKey cl (x.base * 4096 + off)
def State.tileBytes (s : State) (cl : Nat) (x : TileReg) : List Byte := s.mem.readN (x.key cl 0) x.size
def State.fillTile (s : State) (cl : Nat) (x : TileReg) (bs : List Byte) : State :=
  { s with mem := s.mem.writeL (x.key cl 0) bs }
/-- An element, with its block's scale. -/
def State.tileElem (s : State) (cl : Nat) (x : TileReg) (i c : Nat) : Elem :=
  ⟨leBits 64 (s.mem.readN (x.key cl (x.geo.at_ i c)) x.geo.w),
   if x.geo.isL6 then (s.mem.read (x.key cl (x.geo.scaleAt i c))).toNat else 127⟩
def State.putElem (s : State) (cl : Nat) (x : TileReg) (i c : Nat) (w : Word64) : State :=
  { s with mem := s.mem.writeL (x.key cl (x.geo.at_ i c)) (leBytes x.geo.w w.toNat) }

/-- The bytes of a cleared tile (R304): every element zero, every strip byte 0x7F. -/
def TileReg.clear (x : TileReg) : List Byte :=
  (List.range (x.geo.bh * x.geo.bw)).flatMap (fun _ =>
    List.replicate 2048 0#8 ++ (if x.geo.isL6 then List.replicate 64 0x7F#8 else []))

/-- The lowest run of `n` free granules (R292). -/
def freeRun (tiles : List TileReg) (n : Nat) : Option Nat :=
  firstFrom (fun base => decide (base + n ≤ Config.tileGranules) &&
    tiles.all (fun t => t.ng == 0 || decide (base + n ≤ t.base) || decide (t.base + t.ng ≤ base))) 0 Config.tileGranules

/-! ## Requests (R293 to R297) -/

def ReqKind.writes : ReqKind → List TReg
  | .tld td | .tzero td => [td]
  | .tcvt _ td _ => [td]
  | .tst _ | .tdrain _ _ _ _ => []
  | .mma tc _ _ => [tc]
  | .mloop tc ta tb => [tc, ta, tb]

def ReqKind.reads : ReqKind → List TReg
  | .tld _ | .tzero _ => []
  | .tcvt _ _ ta => [ta]
  | .tst ta | .tdrain _ _ ta _ => [ta]
  | .mma tc ta tb | .mloop tc ta tb => [tc, ta, tb]

/-- Registers that a request reads and an unordered one writes: its reads of them give undefined values (R297). -/
def ReqKind.taints (x y : ReqKind) : List TReg := x.reads.filter (fun t => y.writes.contains t)
/-- Registers that both write: undefined once both have completed (R297). Where only one writes, the register holds what
that one wrote, as the example "Streams between two groups" guarantees. DEDUCED, log 6. -/
def ReqKind.clashes (x y : ReqKind) : List TReg := x.writes.filter (fun t => y.writes.contains t)

def State.table (s : State) (cl : Nat) : List (BlockKey × Request) := (s.cluster cl).table
def State.request? (s : State) (cl id : Nat) : Option (BlockKey × Request) := (s.table cl).find? (fun x => x.2.id == id)
def State.modRequest (s : State) (cl id : Nat) (f : Request → Request) : State :=
  s.modCluster cl (fun c => { c with table := c.table.map (fun x => if x.2.id = id then (x.1, f x.2) else x) })

/-- An open joint entry that a post joins (R296). -/
def openJoint (k : BlockKey) (st : Nat) (mk : ReqKind) (x : BlockKey × Request) : Bool :=
  decide (x.1 = k) && x.2.stream == st && decide (x.2.posts < x.2.need) && (match x.2.kind, mk with
    | .mma t _ _, .mma u _ _ => t == u
    | .mloop t _ _, .mloop u _ _ => t == u
    | _, _ => false)

/-- Whether a post would find room (R293). -/
def State.tableRoom (s : State) (cl : Nat) (k : BlockKey) (st : Nat) (mk : ReqKind) : Bool :=
  decide ((s.table cl).length < Config.tableEntries) || (s.table cl).any (openJoint k st mk)

/-- A post: what it asks for. -/
structure Post where
  kind : ReqKind
  word : Instr
  stream : Nat
  pri : Nat := 0
  need : Nat := 1
  val : List Word64 := []
  g0 : BitVec 16 := 0#16
  leaves : List Leaf := []
  colour : Nat := 0
  holder : Option Tid := none
  cls : OpClass := .none
  writesMemory : Bool := false

/-- Put a request into the table, or join an open joint entry; its operation begins. An outstanding request of the
block on another stream that shares a register races with it (R297). -/
def State.post (s : State) (e : Iss) (cl : Nat) (p : Post) : Nat × State :=
  let (op, s1) := s.issueOp e.r (fun id =>
    { id := id, cls := p.cls, kind := if p.writesMemory then .other else .global, pc := e.pc, act := e.act, parts := 1
      dests := [], clobbered := [], ext := false
      cols := match p.holder with
        | some t => [(t, p.colour)]
        | none => [] })
  match (s1.table cl).find? (openJoint e.r.key p.stream p.kind) with
  | some x => (op, s1.modRequest cl x.2.id (fun r => { r with posts := r.posts + 1, posters := r.posters ++ [(e.r, op)] }))
  | none =>
    let (id, s2) := s1.freshId
    let other (x : BlockKey × Request) : Bool := decide (x.1 = e.r.key) && x.2.stream != p.stream
    let others := ((s2.table cl).filter other).map (fun x => x.2.kind)
    let r : Request := { id := id, kind := p.kind, word := p.word, stream := p.stream, pri := p.pri, need := p.need, posts := 1
                         posters := [(e.r, op)], first := e.r, pc := e.pc, act := e.act, val := p.val, step := 0, g0 := p.g0
                         phase := .queued, since := none, raced := (others.flatMap p.kind.taints).dedup
                         clash := (others.flatMap p.kind.clashes).dedup, gang := none, leaves := p.leaves, colour := p.colour, holder := p.holder }
    (op, s2.modCluster cl (fun c => { c with
      table := (c.table.map (fun x => if other x then
        (x.1, { x.2 with raced := (x.2.raced ++ x.2.kind.taints p.kind).dedup,
                          clash := (x.2.clash ++ x.2.kind.clashes p.kind).dedup }) else x)) ++ [(e.r.key, r)] }))

/-! ## Checks (R303) -/

/-- Scratchpad bytes from `lo` to `hi` about an address: not within a share of the block, in the local form or form 10. -/
def spanBad (b : Block) (r : GroupRef) (slot : Nat) (a : Word64) (lo hi : Int) : Bool :=
  scratchReserved a || (a.getLsbD 31 && a.getLsbD 30) ||
  (match scratchAt r slot a with
   | .window _ _ _ => true
   | .bytes _ sl off _ => decide (b.cores.length ≤ sl) || decide (off + lo < 0) || decide ((b.share : Int) < off + hi))

/-- A range of scratchpad that a request touches. -/
structure Span where
  a : Word64
  lo : Int
  hi : Int

/-- The first fault of the five checks, with its address. `inc` are the increments of an MLOOP, `bars` its barriers. -/
def requestFault (e : Iss) (b : Block) (named : List TReg) (shapes : List TileReg → Bool) (spans : List TileReg → List Span)
    (incs : List (BitVec 32)) (bars : List Nat) : Option (FaultCode × Word64) :=
  let regs := named.map (fun n => e.s.tile b.cluster e.r.key n)
  let sps := spans regs
  if named.any (fun n => decide (b.lr.ntile ≤ n.val)) then some (.tileAlloc, 0#64)
  else if !regs.all TileReg.shaped || !shapes regs then some (.tileShape, 0#64)
  else match sps.find? (fun x => x.a.toNat % 64 != 0) with
    | some x => some (.misaligned, x.a)
    | none =>
      if incs.any (fun i => i.toNat % 64 != 0) then some (.misaligned, 0#64)
      else match sps.find? (fun x => spanBad b e.r e.g.slot x.a x.lo x.hi) with
        | some x => some (.scratchRange, x.a)
        | none =>
          if bars.any (fun k => decide (b.lr.nbar ≤ k)) then some (.scratchRange, 0#64)
          else match sps.find? (fun x => scratchGone e.s e.g.core (scratchAt e.r e.g.slot x.a)) with
            | some x => some (.peerGone, x.a)
            | none => none

/-- What the instructions of this chapter share: nothing with ACTIVE empty; the block. -/
def tileOp (c : Ctl) (f : Iss → Block → Out) (s : State) : Out :=
  begin_ c s (fun e =>
    if e.act = 0#32 then .next (e.retire c e.g)
    else match e.s.block e.r.key with
      | none => .next e.s
      | some b => f e b)

/-- A request that its instruction waits for: the entry stays until it has completed. -/
def postAndWait (c : Ctl) (e : Iss) (b : Block) (p : Post) : Out :=
  if !e.s.tableRoom b.cluster e.r.key p.stream p.kind then .next e.s
  else
    let (op, s1) := e.s.post e b.cluster p
    match s1.group e.r with
    | none => .next s1
    | some g => ({ e with s := s1, g := g }).hold c (.ops [op])

/-- A request of the tl class: the group goes on. -/
def postAndGo (c : Ctl) (e : Iss) (b : Block) (p : Post) : Out :=
  if !e.s.tableRoom b.cluster e.r.key p.stream p.kind then .next e.s
  else .next ((e.finish c e.s 0#32).post e b.cluster p).2

/-! ## TSHP (R304) -/

/-- A mark that lets the issuing entry go on. -/
def State.marked (s : State) (p : HoldKind → Bool) : Bool :=
  match s.cur with
  | none => false
  | some k => match s.group k.g with
    | none => false
    | some g => g.holds.any (fun h => decide (h.pc = k.pc) && (h.mask &&& k.mask) != 0#32 && p h.kind)

def HoldKind.isTable : HoldKind → Bool
  | .table _ => true
  | _ => false

/-- Requests of a block that name a register. -/
def State.naming (s : State) (cl : Nat) (k : BlockKey) (n : TReg) : List Nat :=
  ((s.table cl).filter (fun x => decide (x.1 = k) && (x.2.kind.writes ++ x.2.kind.reads).contains n)).map (fun x => x.2.id)

/-- Steps 2 to 5. -/
def shapeTile (c : Ctl) (e : Iss) (b : Block) (ty : Ty) (td : TReg) (rows cols : Nat) : Out :=
  let cl := b.cluster
  let k := e.r.key
  if rows = 0 ∧ cols = 0 then .next (e.finish c (e.s.putTile cl k td TileReg.none) 0#32)
  else if rows = 0 ∨ cols = 0 ∨ 512 < rows ∨ 512 < cols ∨ (ty = .l6 ∧ cols % 32 ≠ 0) then e.fault .tileShape e.act
  else
    let n := ((⟨ty, rows, cols⟩ : TileGeo).size + 4095) / 4096
    let others := ((e.s.cluster cl).tiles.filter (fun x => decide (x.1 ≠ (k, td.val)))).map Prod.snd
    match freeRun others n with
    | none => e.fault .tileAlloc e.act
    | some base =>
      let x : TileReg := ⟨ty, rows, cols, base, n, false⟩
      .next (e.finish c ((e.s.putTile cl k td x).fillTile cl x x.clear) 0#32)

def execTshp (c : Ctl) (ty : Ty) (td : TReg) (rows cols : SReg) (s : State) : Out :=
  let ready := s.marked HoldKind.isTable
  tileOp c (fun e b =>
    if b.lr.ntile ≤ td.val then e.fault .tileAlloc e.act
    else match e.s.naming b.cluster e.r.key td with
      | x :: r =>
        if ready then shapeTile c e b ty td (Operand.s e rows).toNat (Operand.s (e.nth 1) cols).toNat
        else e.hold c (.table (x :: r))
      | [] => shapeTile c e b ty td (Operand.s e rows).toNat (Operand.s (e.nth 1) cols).toNat) s

/-! ## TLD, TST, TZERO, TCVT (R305, R306) -/

def execTld (c : Ctl) (st : Fin 8) (td : TReg) (sa : SReg) (s : State) : Out :=
  tileOp c (fun e b =>
    let a := Operand.s e sa
    match requestFault e b [td] (fun _ => true) (fun rs => rs.map (fun r => ⟨a, 0, r.size⟩)) [] [] with
    | some (code, va) => e.fault code e.act va
    | none => postAndWait c e b { kind := .tld td, word := .tld c st td sa, stream := st.val, val := [a] }) s

def execTst (c : Ctl) (st : Fin 8) (sa : SReg) (ta : TReg) (s : State) : Out :=
  tileOp c (fun e b =>
    let a := Operand.s e sa
    match requestFault e b [ta] (fun _ => true) (fun rs => rs.map (fun r => ⟨a, 0, r.size⟩)) [] [] with
    | some (code, va) => e.fault code e.act va
    | none => postAndWait c e b { kind := .tst ta, word := .tst c st sa ta, stream := st.val, val := [a] }) s

def execTzero (c : Ctl) (st : Fin 8) (td : TReg) (s : State) : Out :=
  tileOp c (fun e b =>
    match requestFault e b [td] (fun _ => true) (fun _ => []) [] [] with
    | some (code, va) => e.fault code e.act va
    | none => postAndWait c e b { kind := .tzero td, word := .tzero c st td, stream := st.val }) s

def execTcvt (c : Ctl) (dty : Ty) (st : Fin 8) (r : Rnd) (td ta : TReg) (s : State) : Out :=
  tileOp c (fun e b =>
    let ok (rs : List TileReg) : Bool := match rs with
      | [d, a] => td != ta && d.sameShape a && decide (d.ty = dty)
      | _ => false
    match requestFault e b [td, ta] ok (fun _ => []) [] [] with
    | some (code, va) => e.fault code e.act va
    | none => postAndWait c e b { kind := .tcvt r td ta, word := .tcvt c dty st r td ta, stream := st.val }) s

/-! ## MMA and MLOOP (R307 to R309) -/

/-- The shapes of a product (R300, R307). -/
def productOk (tc ta tb : TReg) (x a b : TileReg) : Bool :=
  decide (a.ty = b.ty) && decide (accTy a.ty = some x.ty) && a.cols == b.cols && x.rows == a.rows && x.cols == b.rows &&
    tc != ta && tc != tb

def execMma (c : Ctl) (rq : Rq) (tc ta tb : TReg) (s : State) : Out :=
  tileOp c (fun e b =>
    let ok (rs : List TileReg) : Bool := match rs with
      | [x, a, y] => productOk tc ta tb x a y
      | _ => false
    match requestFault e b [tc, ta, tb] ok (fun _ => []) [] [] with
    | some (code, va) => e.fault code e.act va
    | none => postAndGo c e b { kind := .mma tc ta tb, word := .mma c rq tc ta tb, stream := rq.st.val, pri := rq.pri.val
                                need := rq.j1.toNat + 1, cls := .tl }) s

/-- The descriptor pair of R308. -/
structure LoopDesc where
  incA : BitVec 32
  incB : BitVec 32
  nk : Nat
  bf : Option Nat
  be : Option Nat
  vr : Nat
  vc : Nat

def loopDesc (w0 w1 : Word64) : LoopDesc :=
  let bar (x : BitVec 7) : Option Nat := if x = 127#7 then none else some x.toNat
  ⟨w0.extractLsb' 32 32, w0.extractLsb' 0 32, (w1.extractLsb' 48 16).toNat + 1, bar (w1.extractLsb' 41 7),
    bar (w1.extractLsb' 34 7), (w1.extractLsb' 16 10).toNat, (w1.extractLsb' 0 10).toNat⟩

/-- The bytes of all steps about a stream's base. -/
def loopSpan (a : Word64) (inc : BitVec 32) (nk size : Nat) : Span :=
  let last : Int := (nk - 1 : Nat) * inc.toInt
  ⟨a, min 0 last, max 0 last + size⟩

def loopShapes (tc ta tb : TReg) (rs : List TileReg) : Bool :=
  match rs with
  | [x, a, y] =>
    let unit := match a.ty with
      | .l6 | .s8 => 32
      | .f16 | .bf16 => 16
      | _ => 1
    productOk tc ta tb x a y && ta != tb && a.cols % unit == 0
  | _ => false

/-- The gang of a block, if it has one that is joined (R312). -/
def gangKey (k : BlockKey) (n : Nat) : Nat × Nat × Nat := (k.ctx, k.lnch, n)

/-- An MLOOP posted by a member on its accumulator is its next gang operation. Step counts that differ are a fault of
every member's post, once all four have posted. -/
def State.gangPost (s : State) (cl : Nat) (k : BlockKey) (b : Block) (tc : TReg) (nk op : Nat) : State :=
  match b.gang with
  | none => s
  | some (n, q) =>
    match tblGet s.gangs (gangKey k n) with
    | none => s
    | some g =>
      match tblGet g.members q with
      | none => s
      | some m =>
        if m.tc ≠ tc then s
        else
          let m1 := { m with posted := m.posted + 1, ops := m.ops ++ [(m.posted, nk, 0)] }
          let g1 := { g with members := tblPut g.members q m1 }
          let mine (x : BlockKey × Request) : Bool := x.2.posters.any (fun p => p.2 == op)
          let s1 := ({ s with gangs := tblPut s.gangs (gangKey k n) g1 }).modCluster cl (fun c => { c with
            table := c.table.map (fun x => if mine x then (x.1, { x.2 with gang := some (g.inst, m.posted) }) else x) })
          let counts := g1.members.filterMap (fun x => (x.2.ops.find? (fun o => o.1 == m.posted)).map (fun o => o.2.1))
          if counts.length = 4 && counts.any (fun x => x != nk) then
            (s1.clusters.flatMap (fun c => c.2.table.filter (fun x => x.2.gang == some (g.inst, m.posted)))).foldl
              (fun s x => s.raiseLater x.2.first { code := .tileShape, mask := x.2.act, pc := x.2.pc }) s1
          else s1

def execMloop (c : Ctl) (rq : Rq) (tc ta tb : TReg) (ab desc : SReg) (s : State) : Out :=
  tileOp c (fun e b =>
    let sa := Operand.s e ab
    let sb := Operand.s e (SReg.up ab 1)
    let w0 := Operand.s (e.nth 1) desc
    let w1 := Operand.s (e.nth 1) (SReg.up desc 1)
    let q := loopDesc w0 w1
    let spans (rs : List TileReg) : List Span := match rs with
      | [_, x, y] => [loopSpan sa q.incA q.nk x.size, loopSpan sb q.incB q.nk y.size]
      | _ => []
    match requestFault e b [tc, ta, tb] (loopShapes tc ta tb) spans [q.incA, q.incB] (q.bf.toList ++ q.be.toList) with
    | some (code, va) => e.fault code e.act va
    | none =>
      let st := rq.st.val
      let kind : ReqKind := .mloop tc ta tb
      if !e.s.tableRoom b.cluster e.r.key st kind then .next e.s
      else
        let g0 := match q.bf with
          | some k => (b.bar e.g.slot k).gen
          | none => 0#16
        let joins := (e.s.table b.cluster).any (openJoint e.r.key st kind)
        let (op, s1) := (e.finish c e.s 0#32).post e b.cluster
          { kind := kind, word := .mloop c rq tc ta tb ab desc, stream := st, pri := rq.pri.val, need := rq.j1.toNat + 1
            val := [sa, sb, w0, w1], g0 := g0, cls := .tl }
        .next (if joins then s1 else s1.gangPost b.cluster e.r.key b tc q.nk op)) s

/-! ## TWAIT and TFENCE (R310, R311) -/

def execTwait (c : Ctl) (mask : BitVec 8) (s : State) : Out :=
  tileOp c (fun e b =>
    let ids := ((e.s.table b.cluster).filter (fun x => mask.getLsbD x.2.stream)).flatMap (fun x =>
      (x.2.posters.filter (fun p => p.1 == e.r)).map Prod.snd)
    let left := ids.filter (fun i => e.g.ops.any (fun o => o.id == i))
    if left.isEmpty then .next (e.retire c e.g) else e.hold c (.ops left)) s

def execTfence (c : Ctl) (s : State) : Out :=
  tileOp c (fun e _ =>
    let ids := (e.g.ops.filter (fun o => o.kind == .scratch && o.cls == .st)).map Op.id
    if ids.isEmpty then .next (e.retire c e.g) else e.hold c (.ops ids)) s

/-! ## Gangs (R312, R313) -/

def execTgangOn (c : Ctl) (tc : TReg) (s : State) : Out :=
  tileOp c (fun e b =>
    let x := e.s.tile b.cluster e.r.key tc
    if b.lr.ntile ≤ tc.val then e.fault .tileAlloc e.act
    else match b.gang with
      | none => e.fault .tileShape e.act
      | some (n, q) =>
        let key := gangKey e.r.key n
        let (id, s1) := e.s.freshId
        let (g, s2) := match tblGet e.s.gangs key with
          | some g => (g, e.s)
          | none => ((⟨id, []⟩ : Gang), s1)
        let differs := g.members.any (fun m => m.2.reg.ty != x.ty || !m.2.reg.sameShape x)
        if (tblGet g.members q).isSome || differs then e.fault .tileShape e.act
        else
          let m : GangMember := ⟨tc, x, 0, []⟩
          .next (e.finish c { s2 with gangs := tblPut s2.gangs key { g with members := tblPut g.members q m } } 0#32)) s

/-- The gang MLOOPs of a block that have not completed. -/
def State.gangLoops (s : State) (cl : Nat) (k : BlockKey) : List Nat :=
  ((s.table cl).filter (fun x => decide (x.1 = k) && x.2.gang.isSome)).map (fun x => x.2.id)

def execTgangOff (c : Ctl) (s : State) : Out :=
  let ready := s.marked HoldKind.isTable
  tileOp c (fun e b =>
    let off : Out := match b.gang with
      | none => .next (e.retire c e.g)
      | some (n, _) => .next (e.finish c { e.s with gangs := tblDel e.s.gangs (gangKey e.r.key n) } 0#32)
    match e.s.gangLoops b.cluster e.r.key with
    | [] => off
    | ids => if ready then off else e.hold c (.table ids)) s

/-! ## Passes (R295, R299) -/

/-- The gang condition of a step: every member has joined, has posted the operation, and has finished the step
before. An operation whose gang has ended runs alone. -/
def State.gangReady (s : State) (k : BlockKey) (r : Request) : Bool :=
  match r.gang, s.block k with
  | some (inst, n), some b =>
    match b.gang with
    | none => true
    | some (num, _) =>
      match tblGet s.gangs (gangKey k num) with
      | none => true
      | some g =>
        g.inst != inst || (g.members.length == 4 && g.members.all (fun m =>
          m.2.ops.any (fun o => o.1 == n && decide (r.step ≤ o.2.2))))
  | _, _ => true

/-- The slot whose barriers and local scratchpad a request uses: that of its first post. -/
def State.reqSlot (s : State) (r : Request) : Nat :=
  match s.group r.first with
  | some g => g.slot
  | none => 0

/-- The full-barrier condition of an MLOOP's next step. -/
def State.fullReady (s : State) (k : BlockKey) (r : Request) : Bool :=
  match r.kind, r.val, s.block k with
  | .mloop _ _ _, [_, _, w0, w1], some b =>
    match (loopDesc w0 w1).bf with
    | none => true
    | some n => decide (r.step + 1 ≤ ((b.bar (s.reqSlot r) n).gen - r.g0).toNat)
  | _, _, _ => true

/-- Whether another member of a gang has begun or finished the step that a member has still to make: the four stop after
the same step (R314). -/
def State.gangLags (s : State) (k : BlockKey) (r : Request) : Bool :=
  match r.gang, (s.block k).bind Block.gang with
  | some (inst, n), some (num, _) =>
    match tblGet s.gangs (gangKey k num) with
    | none => false
    | some g => g.inst == inst && (g.members.any (fun m => m.2.ops.any (fun o => o.1 == n && decide (r.step < o.2.2))) ||
        s.clusters.any (fun c => c.2.table.any (fun x =>
          x.2.gang == some (inst, n) && x.2.step == r.step && x.2.phase == .granted && x.2.id != r.id)))
  | _, _ => false

/-- The entries that may be granted, in the order of their posts. -/
def State.eligible (s : State) (cl : Nat) : List (BlockKey × Request) :=
  ((s.table cl).foldl (fun (acc : List (BlockKey × Nat) × List (BlockKey × Request)) x =>
    let busy := acc.1.contains (x.1, x.2.stream)
    let runs := match s.block x.1 with
      | some b => match b.status with
        | .running | .dying _ => true
        | .stopping => s.gangLags x.1 x.2
        | .terminating => false
      | none => false
    let ok := !busy && runs && x.2.phase == .queued && decide (x.2.need ≤ x.2.posts) && s.fullReady x.1 x.2 &&
      s.gangReady x.1 x.2
    ((x.1, x.2.stream) :: acc.1, if ok then acc.2 ++ [x] else acc.2)) ([], [])).2

/-- Entries that have become eligible: the engine cycles without a grant count from here on (R295). -/
def State.noteEligible (s : State) (cl : Nat) : State :=
  let el := s.eligible cl
  if el.all (fun x => x.2.since.isSome) then s
  else s.modCluster cl (fun c => { c with table := c.table.map (fun x =>
    if el.any (fun y => y.2.id == x.2.id) then (x.1, { x.2 with since := some (x.2.since.getD s.now) }) else x) })

def State.tickEngines (s : State) : State := s.clusters.foldl (fun s c => s.noteEligible c.1) s

/-- The effective priority (R295), in engine cycles of the arithmetic clock. -/
def Request.effective (r : Request) (now : Nat) : Nat := min 3 (r.pri + (now - r.since.getD now) * 33 / 10 / 4096)

/-- Free values for a tile register's bytes (R297). -/
def State.junkTile (s : State) (cl : Nat) (k : BlockKey) (n : TReg) : State :=
  let x := s.tile cl k n
  s.fillTile cl x ((List.range x.size).map (fun i => Config.freeByte (s.fresh * 2 ^ 32 + 2 ^ 31 + n.val * 2 ^ 21 + i)))

/-- The state whose tiles a request reads: registers in a race, and those that hold undefined values, give undefined ones
(R8, R297). -/
def State.tainted (s : State) (cl : Nat) (k : BlockKey) (r : Request) : State :=
  (r.raced ++ r.kind.reads.filter (fun n => (s.tile cl k n).undef)).foldl (fun s t => s.junkTile cl k t) s

/-- Whether a tile register holds undefined values from now on. -/
def State.setUndef (s : State) (cl : Nat) (k : BlockKey) (n : TReg) (u : Bool) : State :=
  let x := s.tile cl k n
  if x.undef = u then s else s.putTile cl k n { x with undef := u }

/-- A fault found in a request (R316, R410). -/
def State.requestFail (s : State) (r : Request) (code : FaultCode) (addr : Word64) : State :=
  s.raiseLater r.first { code := code, mask := r.act, addr := addr, pc := r.pc }

/-- Scratchpad bytes at an address of a request, with their poison. -/
def State.reqBytes (s : State) (k : BlockKey) (r : Request) (a : Word64) (off : Int) (n : Nat) : List Byte × Bool :=
  match scratchAt r.first (s.reqSlot r) a, s.block k with
  | .bytes _ sl o _, some b => (s.spRead b sl ((o : Int) + off).toNat n, s.spPoisoned b sl ((o : Int) + off).toNat n)
  | _, _ => ([], false)

/-- Load a tile from scratchpad. -/
def State.loadTile (s : State) (cl : Nat) (k : BlockKey) (r : Request) (n : TReg) (a : Word64) (off : Int) : State :=
  let x := s.tile cl k n
  let (bs, bad) := s.reqBytes k r a off x.size
  let s1 := (s.fillTile cl x bs).setUndef cl k n false
  if bad then s1.requestFail r .eccUncorrectable a else s1

/-- What a pass reads at its start, and an MLOOP's arrival at its empty barrier (R299, R309). -/
def State.startPass (s : State) (cl : Nat) (k : BlockKey) (r : Request) : State :=
  match r.kind, r.val with
  | .tld td, [a] => s.loadTile cl k r td a 0
  | .mloop _ ta tb, [sa, sb, w0, w1] =>
    let q := loopDesc w0 w1
    let s1 := (s.loadTile cl k r ta sa (r.step * q.incA.toInt)).loadTile cl k r tb sb (r.step * q.incB.toInt)
    match q.be, s1.block k with
    | some n, some b =>
      let slot := s1.reqSlot r
      let x := b.bar slot n
      if x.tgt = 0 || x.tgt < x.arr + 1 then s1.requestFail r .barrierOverflow 0#64
      else s1.putBar k slot n { x with arr := x.arr + 1 }
    | _, _ => s1
  | _, _ => s

/-- PASS_GRANT: the eligible entry of highest effective priority, the oldest post among equals. -/
def execPassGrant (engine : Nat) (s : State) : Out :=
  let c := s.cluster engine
  let el := s.eligible engine
  if c.busy.isSome || !c.enabled || el.isEmpty then .next s
  else
    let best := el.foldl (fun (acc : Option (BlockKey × Request)) x => match acc with
      | none => some x
      | some y => if y.2.effective s.now < x.2.effective s.now then some x else some y) none
    match best with
    | none => .next s
    | some (k, r) =>
      let s2 := (s.modRequest engine r.id (fun x => { x with phase := .granted, since := none })).modCluster engine
        (fun c => { c with busy := some (r.id, s.now) })
      .next { s2.startPass engine k r with fresh := s.fresh + 1 }

/-- A request completes: its entry is free, registers in a race hold undefined values, and its posts' operations end
(R49, R297). -/
def State.completeRequest (s : State) (cl : Nat) (k : BlockKey) (r : Request) : State :=
  let s1 := s.modCluster cl (fun c => { c with table := c.table.filter (fun x => x.2.id != r.id) })
  let s2 := r.clash.foldl (fun s t => s.setUndef cl k t true) s1
  r.posters.foldl (fun s p => s.opPart p.1 p.2) s2

/-- Reduce the elements of an accumulator over the operand tiles, as `s` has them, into `to_`. -/
def State.product (s to_ : State) (cl : Nat) (x a b : TileReg) (rows cols : Nat) : State :=
  (List.range (min rows x.rows)).foldl (fun s1 i =>
    (List.range (min cols x.cols)).foldl (fun s2 j =>
      let ps := (List.range a.cols).map (fun k => (s.tileElem cl a i k, s.tileElem cl b j k))
      s2.putElem cl x i j (reduce a.ty (s.tileElem cl x i j).x ps)) s1) to_

/-- Convert a tile (R306), as `s` has it, into `to_`. -/
def State.convertTile (s to_ : State) (cl : Nat) (r : Rnd) (d a : TileReg) : State :=
  if d.geo.isL6 && a.geo.isL6 then
    (List.range d.rows).foldl (fun s1 i => (List.range d.cols).foldl (fun s2 j =>
      let y := s.tileElem cl a i j
      let s3 := s2.putElem cl d i j (y.x &&& 63#64)
      { s3 with mem := s3.mem.write (d.key cl (d.geo.scaleAt i j)) (BitVec.ofNat 8 y.scale) }) s1) to_
  else
    (List.range d.rows).foldl (fun s1 i =>
      if d.geo.isL6 then
        (List.range (d.cols / 32)).foldl (fun s2 n =>
          let vs := (List.range 32).map (fun j =>
            let y := s.tileElem cl a i (32 * n + j)
            valueOf a.ty y.scale y.x)
          let e := scaleOf vs
          let s3 := { s2 with mem := s2.mem.write (d.key cl (d.geo.scaleAt i (32 * n))) (BitVec.ofNat 8 e) }
          vs.zipIdx.foldl (fun s v => s.putElem cl d i (32 * n + v.2) (convertTo .l6 r e v.1)) s3) s1
      else
        (List.range d.cols).foldl (fun s2 j =>
          let y := s.tileElem cl a i j
          s2.putElem cl d i j (convertTo d.ty r 127 (valueOf a.ty y.scale y.x))) s1) to_

/-- Record a gang step as finished. -/
def State.gangStep (s : State) (k : BlockKey) (r : Request) : State :=
  match r.gang, s.block k with
  | some (inst, n), some b =>
    match b.gang with
    | none => s
    | some (num, q) =>
      { s with gangs := tblMod s.gangs (gangKey k num) (fun g =>
          if g.inst = inst then { g with members := tblMod g.members q (fun m =>
            { m with ops := m.ops.map (fun o => if o.1 = n then (o.1, o.2.1, r.step + 1) else o) }) }
          else g) }
  | _, _ => s

/-! ## Drains (R326 to R331) -/

/-- The elements of a .mem drain by line, in ascending order. -/
def drainLines (ls : List Leaf) (els : List (Word64 × Word64)) : List (LineNo × Bool × List (Nat × Word64)) :=
  els.foldl (fun acc x =>
    match leafAt ls x.1 with
    | none => acc
    | some l =>
      let n := l.line x.1
      let el := (l.flat x.1 % 128, x.2)
      match acc.find? (fun y => y.1 == n) with
      | none => acc ++ [(n, l.mtype == 1, [el])]
      | some _ => acc.map (fun y => if y.1 = n then (n, y.2.1, y.2.2 ++ [el]) else y)) []

/-- Rows and columns of a drain. -/
def drainShape (x : TileReg) (desc : Word64) : Nat × Nat :=
  (min (desc.extractLsb' 0 10).toNat x.rows, min (desc.extractLsb' 16 10).toNat x.cols)

/-- The elements of a drain: row, column, value. -/
def State.drainElems (s : State) (cl : Nat) (x : TileReg) (desc : Word64) : List (Nat × Nat × Word64) :=
  let (r, c) := drainShape x desc
  (List.range r).flatMap (fun i => (List.range c).map (fun j => (i, j, (s.tileElem cl x i j).x)))

def drainAddr (dst desc : Word64) (w i c : Nat) : Word64 := dst + BitVec.ofNat 64 (i * (desc >>> 32).toNat + c * w)

/-- The update of one line of a drain. A peer takes a write; the result of .add and .max there has no message, and is free
(log 22). -/
def State.lineUpdate (s : State) (op : DrainOp) (ty : Ty) (l : LineNo) (els : List (Nat × Word64)) : UpdateOp :=
  if isPeer l then
    let (d, m) := elemBytes (ty.width / 8) els
    .put (if op = .wr then d
      else leBits 1024 ((List.range 128).map (fun i => Config.freeByte (s.fresh * 2 ^ 32 + 2 ^ 30 + l % 2 ^ 20 * 128 + i)))) m false
  else .drain op ty els

/-- Send a drain's updates by the cluster's port (R326, R331): how many. A .spad drain is one, which its port makes word by
word. -/
def State.sendDrain (s : State) (cl : Nat) (k : BlockKey) (r : Request) (op : DrainOp) (kind : DrainKind) (x : TileReg)
    (dst desc : Word64) : Nat × State :=
  let from_ := s.tainted cl k r
  match kind with
  | .mem =>
    let core := match s.group r.first with
      | some g => g.core
      | none => cl * 4
    let lines := drainLines r.leaves
      ((from_.drainElems cl x desc).map (fun y => (drainAddr dst desc x.geo.w y.1 y.2.1, y.2.2)))
    (lines.length, lines.foldl (fun s y =>
      (s.endCopies core (fun l => l == y.1)).sendUpdate
        { addr := lineByte y.1, op := s.lineUpdate op x.ty y.1 y.2.2, core := core, ctx := k.ctx, g := r.first, opId := 0
          who := none, dst := none, colour := r.colour, holder := r.holder, l0 := y.2.1, va := 0#64, tgt := .drain cl r.id } [])
      s)
  | .spad =>
    match scratchAt r.first (s.reqSlot r) dst with
    | .bytes key sl off _ =>
      let els := if x.geo.isL6 then (from_.tileBytes cl x).zipIdx.map (fun b => (b.2, b.1.setWidth 64))
        else (from_.drainElems cl x desc).map (fun y => (x.geo.at_ y.1 y.2.1, y.2.2))
      (1, s.send ⟨.scratch, 9000 + cl, sl⟩ (.drain key cl r.id sl off op (if x.geo.isL6 then .n8 else x.ty) els false))
    | _ => (0, s)

/-- A tile register of a request holds an error that its code cannot correct, found now or before (R316). -/
def State.tileBad (s : State) (cl : Nat) (k : BlockKey) (r : Request) (error : Ecc) : Bool :=
  !r.kind.reads.isEmpty && (error == .uncorrectable ||
    (!s.poison.isEmpty && r.kind.reads.any (fun n =>
      let x := s.tile cl k n
      s.poison.any (fun p => match p with
        | .byte a => decide (x.key cl 0 ≤ a) && decide (a < x.key cl x.size)
        | _ => false))))

/-- PASS_END: what the pass makes of the tiles, as they stand. An error found in the tile data that it read is the posting
instruction's (R316). -/
def execPassEnd (pass : PassOver) (s : State) : Out :=
  let engine := pass.engine
  let error := pass.error
  match (s.cluster engine).busy with
  | none => .next s
  | some (id, _) =>
    let s0 := { s.modCluster engine (fun c => { c with busy := none }) with fresh := s.fresh + 1 }
    match s.request? engine id with
    | none => .next s0
    | some (k, r) =>
      let s1 := (if r.kind.reads.isEmpty then s0 else s0.eccError error 4 engine) |> fun s =>
        if s.tileBad engine k r error then s.requestFail r .eccUncorrectable 0#64 else s
      let from_ := s.tainted engine k r
      let tile (n : TReg) : TileReg := s.tile engine k n
      let done (s : State) : Out := .next (s.completeRequest engine k r)
      match r.kind, r.val with
      | .tld _, _ => done s1
      | .tzero td, _ => done ((s1.fillTile engine (tile td) (tile td).clear).setUndef engine k td false)
      | .tst ta, [a] =>
        match scratchAt r.first (s.reqSlot r) a, s.block k with
        | .bytes _ sl off _, some b => done (s1.spWrite b sl off (from_.tileBytes engine (tile ta)))
        | _, _ => done s1
      | .tcvt rnd td ta, _ => done ((from_.convertTile s1 engine rnd (tile td) (tile ta)).setUndef engine k td false)
      | .mma tc ta tb, _ => done ((from_.product s1 engine (tile tc) (tile ta) (tile tb) 512 512).setUndef engine k tc false)
      | .mloop tc ta tb, [_, _, w0, w1] =>
        let q := loopDesc w0 w1
        let whole := decide ((tile tc).rows ≤ q.vr) && decide ((tile tc).cols ≤ q.vc)
        let s2 := ((from_.product s1 engine (tile tc) (tile ta) (tile tb) q.vr q.vc).setUndef engine k tc
          ((tile tc).undef && !whole)).gangStep k r
        if q.nk ≤ r.step + 1 then done s2
        else .next (s2.modRequest engine id (fun x => { x with step := r.step + 1, phase := .queued }))
      | .tdrain op kind ta _, [dst, desc] =>
        let (n, s2) := s1.sendDrain engine k r op kind (tile ta) dst desc
        if n = 0 then done s2 else .next (s2.modRequest engine id (fun x => { x with phase := .draining n }))
      | _, _ => done s1

/-- One update of a request has been made, at a time; `bad` where it read a poisoned line. -/
def State.drained (s : State) (cl : Nat) (k : BlockKey) (r : Request) (w : Nat) (bad : Bool) : State :=
  let s0 := if bad then s.requestFail r .eccUncorrectable 0#64 else s
  let s1 := (r.posters.foldl (fun s p => s.foldHz p.1 ⟨w, w, w, w⟩) s0).modBlock k (fun b => { b with hz := b.hz.fold ⟨w, w, w, w⟩ })
  let s2 := match r.holder with
    | some t => s1.foldHzc [⟨r.first, t⟩] r.colour w
    | none => s1
  match r.phase with
  | .draining n =>
    if n ≤ 1 then s2.completeRequest cl k r else s2.modRequest cl r.id (fun x => { x with phase := .draining (n - 1) })
  | _ => s2

/-- The elements of a .spad drain that lie in its first word (R326). -/
def firstWord (off : Nat) (els : List (Nat × Word64)) : List (Nat × Word64) × List (Nat × Word64) :=
  match els with
  | [] => ([], [])
  | x :: _ => els.span (fun y => decide ((off + y.1) / 4 = (off + x.1) / 4))

/-- The end of a .spad drain: its bytes are counted into its barrier, and it is over. -/
def State.drainOver (s : State) (cl : Nat) (k : BlockKey) (r : Request) (key : BlockKey) (slot n : Nat) : State :=
  let s1 := match r.kind with
    | .tdrain _ _ _ (some bar) =>
      match s.countBytes key slot bar n with
      | .ok t => t
      | .error code => s.requestFail r code 0#64
    | _ => s
  s1.drained cl k r 0 false

/-- The bytes that a .spad drain writes in all (R330). -/
def State.drainCount (s : State) (cl : Nat) (k : BlockKey) (r : Request) : Nat :=
  match r.kind, r.val with
  | .tdrain _ _ ta _, [_, desc] =>
    let x := s.tile cl k ta
    if x.geo.isL6 then x.size else (drainShape x desc).1 * (drainShape x desc).2 * x.geo.w
  | _, _ => 0

/-- DRAIN_UPDATE: an update of a line at its home; or the next word of a .spad drain at its slot's port, which does nothing
else until the last one (R326). -/
def execDrainUpdate (m : Nat) (s : State) : Out :=
  match s.deliverable m with
  | some ⟨_, .update u fwd, _, _⟩ => .next (s.updateAt m u fwd)
  | some ⟨_, .drain key cl id slot off op ty els begun, _, _⟩ =>
    match s.request? cl id, s.block key with
    | none, _ => .next (s.take m)
    | some (k, r), none => .next ((s.take m).drained cl k r 0 false |>.requestFail r .peerGone 0#64)
    | some (k, r), some b =>
      if !begun && s.portBusy (.bytes key slot 0 true) then .next s
      else
        let w := ty.width / 8
        let (now, rest) := firstWord off els
        let bad := op != .wr && now.any (fun y => s.spPoisoned b slot (off + y.1) w)
        let s1 := now.foldl (fun s y =>
          let old : Word64 := leBits 64 (s.spRead b slot (off + y.1) w)
          s.spWrite b slot (off + y.1) (leBytes w (drainValue op ty old y.2).toNat)) s
        let s2 := if bad then s1.requestFail r .eccUncorrectable 0#64 else s1
        .next (if rest.isEmpty then (s2.take m).drainOver cl k r key slot (s.drainCount cl k r)
          else s2.setBody m (.drain key cl id slot off op ty rest true))
  | _ => .next s

/-- The touched lines of a .mem drain, in ascending order of element. -/
def drainTouched (dst desc : Word64) (w rows cols : Nat) : List Word64 :=
  ((List.range rows).flatMap (fun i => Range.lines ⟨drainAddr dst desc w i 0, cols * w⟩)).map (fun a => a &&& ~~~127#64) |>.dedup

/-- Translate the lines of a range for writing. -/
def State.xlateWrites (s : State) (core ctx : Nat) : List Word64 → List (Word64 × XlatResult) × State
  | [] => ([], s)
  | va :: r =>
    let (x, s1) := s.xlate core ctx Need.write va true
    let (xs, s2) := State.xlateWrites s1 core ctx r
    ((va, x) :: xs, s2)

/-- The fault of a range of lines to be written (R81). -/
def writeFault (l : List (Word64 × XlatResult)) : Option (FaultCode × Word64 × Byte) :=
  match l.find? (fun x => match x.2 with
    | .error _ => true
    | _ => false) with
  | some (va, .error k) => some (.pagePermWrite, va, k)
  | _ =>
    match l.find? (fun x => x.2 == .lacksW), l.find? (fun x => x.2 == .absent) with
    | some (va, _), _ => some (.pagePermWrite, va, 0#8)
    | none, some (va, _) => some (.pageNotPresent, va, 0#8)
    | none, none => none

/-- Post a drain whose checks are over. -/
def postDrain (c : Ctl) (e : Iss) (b : Block) (p : Post) (xs : List (Word64 × Xlat)) : Out :=
  if !e.s.tableRoom b.cluster e.r.key p.stream p.kind then .next e.s
  else
    let lines := xs.map (fun x => x.2.leaf.line x.1)
    let s1 := e.s.drainWhere e.g.core (fun k => lines.contains k.line) e.drainer
    .next ((e.finish c s1 0#32).post e b.cluster { p with leaves := (xs.map (fun x => x.2.leaf)).dedup }).2

def execTdrain (c : Ctl) (op : DrainOp) (kind : DrainKind) (st : Fin 8) (pri : Fin 4) (dst : SReg) (ta : TReg)
    (desc : SReg) (bk : Option BReg) (s : State) : Out :=
  tileOp c (fun e b =>
    let a := Operand.s e dst
    let ds := Operand.s (e.nth 1) desc
    let bn := bk.map (fun k => k.val)
    let mem := kind == .mem
    let spans (rs : List TileReg) : List Span := if mem then [] else rs.map (fun r => ⟨a, 0, r.size⟩)
    match requestFault e b [ta] (fun _ => true) spans [] bn.toList with
    | some (code, va) => e.fault code e.act va
    | none =>
      let x := e.s.tile b.cluster e.r.key ta
      let w := x.geo.w
      let p : Post := { kind := .tdrain op kind ta bn, word := .tdrain c op kind st pri dst ta desc bk, stream := st.val
                        pri := pri.val, val := [a, ds], cls := .tl, writesMemory := mem }
      if x.geo.isL6 && (mem || op != .wr) then e.fault .tileShape e.act
      else if !mem then postDrain c e b p []
      else if a.toNat % w ≠ 0 ∨ (ds >>> 32).toNat % w ≠ 0 then e.fault .misaligned e.act a
      else
        let (rows, cols) := drainShape x ds
        let touched := if cols = 0 then [] else drainTouched a ds w rows cols
        let (res, s1) := e.s.xlateWrites e.g.core e.r.key.ctx touched
        let e1 := { e with s := s1 }
        match writeFault res with
        | some (code, va, reason) => e1.fault code e.act va reason
        | none =>
          let xs := res.filterMap (fun y => match y.2 with
            | .ok z => some (y.1, z)
            | _ => none)
          let colour := oneColour xs
          let low : Tid := (maskTids e.act).headD 0
          match xs.find? (fun y => y.2.colour != 0 && y.2.colour != colour) with
          | some (va, _) => e1.fault .colourSpan e.act va
          | none =>
            match acquire e1 [(low, colour)] (some e.act) with
            | .fault code m => e1.fault code m a
            | .go s2 waiting =>
              let e2 := { e1 with s := s2, g := (s2.group e.r).getD e.g }
              if waiting != 0#32 then .next (e2.finish c s2 waiting)
              else postDrain c e2 b { p with colour := colour, holder := if colour = 0 then none else some low } xs) s

end Sys2Proof.Machine
end

