-- ==== Sys2Proof/Machine/Launch.lean ====
section
/-! DEFINITION. Launch records and their checks, weights and phases, admission and placement of blocks (R176 to R179,
R274, R391, R394 to R400). -/

namespace Sys2Proof.Machine

/-! ## What firmware and the front end read in a context's memory (R226, R394) -/

/-- The routed byte of an address that the context may read. -/
def State.firmFlat (s : State) (ctx : Nat) (va : Word64) : Option Nat :=
  match s.walk ctx va with
  | .leaf l => if l.r && !s.peerDead (l.line va) then some (l.flat va) else none
  | _ => none

/-- A byte that firmware or a front end reads: as its home has it. What a peer's memory holds is not this device's: a free
value (DESIGN CHOICE, log 45). -/
def State.firmByte (s : State) (f : Nat) : Byte :=
  if isPeer (f / 128) then Config.freeByte (s.fresh * 2 ^ 32 + 2 ^ 29 + f % 2 ^ 28) else s.homeByte f

/-- The bytes of an object that lies within one line. -/
def State.firmBytes (s : State) (ctx : Nat) (va : Word64) (n : Nat) : Option (List Byte) :=
  (s.firmFlat ctx va).map (fun f => (List.range n).map (fun i => s.firmByte (f + i)))

/-! ## The launch record (R394) -/

def roleSlot (x : BitVec 16) : RoleSlot := ⟨(x.extractLsb' 8 8).toNat, (x.extractLsb' 0 8).toNat⟩

def launchRec (x : BitVec 1024) : LaunchRec where
  cbase := x.extractLsb' 960 64
  wgt := (x.extractLsb' 896 64).toNat
  wlen := (x.extractLsb' 864 32).toNat
  wdst := (x.extractLsb' 832 32).toNat
  wsrc := x.extractLsb' 768 64
  clen := (x.extractLsb' 736 32).toNat
  bound := (x.extractLsb' 704 32).toNat
  cval := x.extractLsb' 640 64
  csig := x.extractLsb' 576 64
  fsz := (x.extractLsb' 512 21).toNat
  fsb := x.extractLsb' 448 64
  nrun := (x.extractLsb' 432 16).toNat
  serial := x.getLsbD 420
  root := x.getLsbD 419
  wpre := x.getLsbD 418
  gang := x.getLsbD 417
  co := x.getLsbD 416
  ceil := (x.extractLsb' 392 5).toNat
  floor := (x.extractLsb' 384 5).toNat
  psize := (x.extractLsb' 371 13).toNat
  chb16 := (x.extractLsb' 360 9).toNat
  ntile := (x.extractLsb' 352 6).toNat
  nbar := (x.extractLsb' 344 7).toNat
  scr := (x.extractLsb' 320 21).toNat
  lay := [roleSlot (x.extractLsb' 256 16), roleSlot (x.extractLsb' 272 16), roleSlot (x.extractLsb' 288 16),
    roleSlot (x.extractLsb' 304 16)]
  bsz := (x.extractLsb' 240 16).toNat
  nblk := (x.extractLsb' 192 32).toNat + 1
  param := x.extractLsb' 128 64
  prun := x.extractLsb' 64 64
  entry := x.extractLsb' 0 64
  zeros := x.extractLsb' 533 43 == 0#43 && x.extractLsb' 421 11 == 0#11 && x.extractLsb' 397 19 == 0#19 &&
    x.extractLsb' 389 3 == 0#3 && x.extractLsb' 369 2 == 0#2 && x.extractLsb' 358 2 == 0#2 && !x.getLsbD 351 &&
    x.extractLsb' 341 3 == 0#3 && x.extractLsb' 224 16 == 0#16

/-- Cores of a block and the share of each slot (R177). -/
def LaunchRec.spread (r : LaunchRec) : Nat × Nat :=
  let up (x : Nat) : Nat := (x + 127) / 128 * 128
  if r.scr ≤ 393216 then (1, r.scr) else if r.scr ≤ 786432 then (2, up ((r.scr + 1) / 2)) else (4, up ((r.scr + 3) / 4))

def granules (n : Nat) : Nat := (n + 4095) / 4096

/-- Role and budget of each group, in the order of their numbers (R317, R394). -/
def LaunchRec.layout (r : LaunchRec) : List (Nat × Nat) :=
  r.lay.zipIdx.flatMap (fun x => List.replicate x.1.groups (x.2, x.1.budget))

def LaunchRec.groups (r : LaunchRec) : Nat := r.layout.length

/-- Granules of one group's pool (R274). -/
def LaunchRec.poolGranules (r : LaunchRec) : Nat := (r.chb16 + 63) / 64

/-! ## Admission to a core (R176 to R178, R185, R232, R274, R399, R407) -/

/-- What a core holds: granule runs, the lane and words of each group, barriers, floors and ceilings, the score. -/
structure CoreLoad where
  runs : List (Nat × Nat)
  lanes : List (Nat × Nat)
  bars : Nat
  floors : List Nat
  ceils : List Nat
  score : Nat

def CoreLoad.empty : CoreLoad := ⟨[], [], 0, [], [], 0⟩

/-- The place of one group: its number, role, budget, lane and first pool granule. -/
structure GroupSeat where
  grp : Nat
  role : Nat
  budget : Nat
  lane : Nat
  pool : Nat

/-- What an admission gives one slot of a block: its first granule and its groups' places. -/
structure Share where
  base : Nat
  groups : List GroupSeat

/-- The lowest granule at which a free run of a length begins, among the 120 that 15 ways hold. -/
def granuleFit (runs : List (Nat × Nat)) (n : Nat) : Option Nat :=
  if n = 0 then some 0
  else firstFrom (fun g => runs.all (fun u => decide (g + n ≤ u.1 ∨ u.1 + u.2 ≤ g))) 0 (121 - n)

/-- C of R176. -/
def carve (runs : List (Nat × Nat)) : Nat :=
  runs.foldl (fun c r => if r.2 = 0 then c else max c ((r.1 + r.2 - 1) / 8 + 1)) 0

/-- The lane with room for so many words that holds the fewest groups. -/
def laneFor (lanes : List (Nat × Nat)) (words : Nat) : Option Nat :=
  let held (l : Nat) : List (Nat × Nat) := lanes.filter (fun x => x.1 == l)
  ((List.range Config.lanesPerCore).foldl (fun (acc : Option (Nat × Nat)) l =>
    let h := held l
    if Config.groupsPerLane ≤ h.length || decide (Config.laneWords < (h.map Prod.snd).sum + words) then acc
    else match acc with
      | none => some (l, h.length)
      | some (_, k) => if h.length < k then some (l, h.length) else acc) none).map Prod.fst

/-- Words of a group in its lane's file (R232). -/
def laneWordsOf (budget : Nat) : Nat := 32 * (8 * ((budget + 7) / 8))

/-- Lanes and pools of the groups of a slot. -/
def seatGroups (pool : Nat) : List ((Nat × Nat) × Nat) → CoreLoad → Option (List GroupSeat × CoreLoad)
  | [], c => some ([], c)
  | ((role, budget), grp) :: rest, c =>
    match laneFor c.lanes (laneWordsOf budget), granuleFit c.runs pool with
    | some l, some g =>
      (seatGroups pool rest { c with lanes := (l, laneWordsOf budget) :: c.lanes, runs := (g, pool) :: c.runs }).map
        (fun x => (⟨grp, role, budget, l, g⟩ :: x.1, x.2))
    | _, _ => none

/-- Admit one slot of a block: its share first, then its pools; barriers; the L1 that is left (R178); the score where that
lies between the largest floor and the smallest ceiling (R407). -/
def CoreLoad.receive (c : CoreLoad) (r : LaunchRec) (slot : Nat) : Option (Share × CoreLoad) :=
  let (n, share) := r.spread
  match granuleFit c.runs (granules share) with
  | none => none
  | some b =>
    match seatGroups r.poolGranules (r.layout.zipIdx.filter (fun x => x.2 % n == slot))
        { c with runs := (b, granules share) :: c.runs } with
    | none => none
    | some (gs, c1) =>
      let l1 := 16 - carve c1.runs
      let c2 := { c1 with bars := c.bars + r.nbar, floors := r.floor :: c.floors, ceils := r.ceil :: c.ceils }
      if Config.barriersPerCore < c2.bars || decide (15 < carve c1.runs) || c2.floors.any (fun f => decide (l1 < f)) then none
      else if c.floors.isEmpty || c2.ceils.all (fun k => decide (k ≤ l1)) || decide (c.score < 256) then some (⟨b, gs⟩, c2)
      else none

/-- How many blocks of a launch one slot of an empty core admits. -/
def capacityFrom (r : LaunchRec) (slot : Nat) : Nat → CoreLoad → Nat
  | 0, _ => 0
  | n + 1, c => match c.receive r slot with
    | none => 0
    | some (_, c1) => capacityFrom r slot n { c1 with score := 0 } + 1

/-- Whether a grid fits an empty device (check 5): every core takes the same blocks, a spread block one cluster's cores, a
gang four clusters. -/
def fitsEmpty (r : LaunchRec) : Bool :=
  let n := r.spread.1
  let per := (List.range n).foldl (fun m k => min m (capacityFrom r k 257 CoreLoad.empty)) 257
  decide (r.nblk ≤ 192 * (per * (4 / n)))

/-! ## The checks (R395) -/

def ascending : List Nat → Bool
  | x :: y :: r => decide (x < y) && ascending (y :: r)
  | _ => true

/-- The first failing check. `runs` is none where the runs at prun cannot be read (log 31). -/
def launchCheck (r : LaunchRec) (runs : Option (List (Nat × Nat))) (host : Bool) : Option Nat :=
  let used := r.lay.zipIdx.filter (fun x => x.1.groups != 0 || x.1.budget != 0)
  let total := (r.lay.map RoleSlot.groups).sum
  let (n, share) := r.spread
  let t := granules share + (total + n - 1) / n * r.poolGranules
  if !isSlot r.entry || r.cbase.toNat % 64 != 0 || r.clen == 0 || decide (r.entry.toNat < r.cbase.toNat) ||
      decide (r.cbase.toNat + 64 * r.clen ≤ r.entry.toNat) || r.prun.toNat % 8 != 0 ||
      (match runs with
       | none => true
       | some l => !ascending (l.map Prod.fst)) then some 1
  else if (used.any (fun x => x.2 == 0) && decide (1 < used.length)) ||
      used.any (fun x => decide (x.1.groups < 1) || decide (64 < x.1.groups) || decide (x.1.budget < 1) ||
        decide (128 < x.1.budget)) ||
      decide (total < 1) || decide (64 < total) || r.bsz != 32 * total then some 2
  else if decide (2 ^ 30 < r.wlen) || decide (2 ^ 20 < r.fsz) || r.fsz % 16 != 0 || r.csig.toNat % 8 != 0 ||
      r.nrun == 0 || decide (r.ceil < 1) || decide (16 < r.ceil) || decide (r.floor < 1) || decide (16 < r.floor) ||
      decide (4096 < r.psize) || decide (256 < r.chb16) || decide (32 < r.ntile) || decide (96 < r.nbar) ||
      decide (1572864 < r.scr) || r.scr % 128 != 0 || decide (r.ceil < r.floor) ||
      decide (16 < r.floor + (t + 7) / 8) then some 3
  else if r.gang && r.nblk % 4 != 0 then some 4
  else if r.co && !fitsEmpty r then some 5
  else if r.wpre && !host then some 6
  else if !r.zeros then some 7
  else none

/-- The runs at prun. -/
def State.readRuns (s : State) (ctx : Nat) (at_ : Word64) : Nat → Option (List (Nat × Nat))
  | 0 => some []
  | n + 1 =>
    match s.firmBytes ctx at_ 8, State.readRuns s ctx (at_ + 8#64) n with
    | some b, some r =>
      let x := leBits 64 b
      some (((x.extractLsb' 0 32).toNat, (x.extractLsb' 32 16).toNat) :: r)
    | _, _ => none

/-- A record that the checks accept, with its runs; else the first failing check. -/
def State.readLaunch (s : State) (ctx : Nat) (bytes : List Byte) (host : Bool) : Except Nat (LaunchRec × List (Nat × Nat)) :=
  let r := launchRec (leBits 1024 bytes)
  let runs := if r.prun.toNat % 8 = 0 then s.readRuns ctx r.prun r.nrun else none
  match launchCheck r runs host with
  | some k => .error k
  | none => .ok (r, runs.getD [])

/-! ## Weights, phases and completion (R396, R400) -/

/-- The record that firmware writes where its update of a completion word fails. -/
def State.signalFault (s : State) (ctx : Nat) (addr : Word64) (blk : Nat) (code : FaultCode) (reason : Byte) : State :=
  s.modCtx ctx (fun c => { c with
    faults := c.faults.push ⟨{ code := code, reason := reason, addr := addr }, .fatal, s.now, ctx, blk, 0, 0⟩ })

/-- A peer's update made for no group names a launch tag that none has. -/
def noGroup (ctx blk : Nat) : GroupRef := ⟨⟨ctx, 65536, blk⟩, 0⟩

/-- Firmware's SIGNAL.add at a completion word: the update travels to the word's home like any other (R339). -/
def State.firmSignal (s : State) (ctx : Nat) (addr x : Word64) (blk : Nat) : State :=
  let fail := s.signalFault ctx addr blk
  if addr = 0#64 then s
  else match s.walk ctx addr with
    | .error k => fail .pagePermWrite k
    | .absent => fail .pageNotPresent 0#8
    | .leaf l =>
      let line := l.line addr
      if !l.w || l.x || s.isCode (l.flat addr) then fail .pagePermWrite 0#8
      else if !l.r then fail .pagePermRead 0#8
      else if isHost line && !isPeer line && l.mtype == 1 then fail .hostAtomicRefused 0#8
      else if s.peerDead line then fail .pagePermWrite 0x0C#8
      else
        let u : Update :=
          { addr := l.flat addr, op := .signal .add x, core := 0, ctx := ctx, g := noGroup ctx blk, opId := s.nextId
            who := none, dst := none, colour := 0, holder := none, l0 := l.mtype == 1, va := addr }
        ({ s with nextId := s.nextId + 1 }).send ⟨.req, portFirmware, portHome line⟩ (.update u none)

/-- A phase whose weight is whole again ends, once its root launch has retired. -/
def State.phaseEnd (s : State) (p : Nat) : State :=
  match tblGet s.phases p with
  | none => s
  | some x =>
    if Config.phaseWeight ≤ x.h && x.rootDone then
      ({ s with phases := tblDel s.phases p }).firmSignal x.ctx x.csig x.cval x.lastBlk
    else s

/-- Weight goes back to a root. -/
def State.returnWeight (s : State) (p : Option Nat) (w : Nat) : State :=
  match p with
  | none => s
  | some p => ({ s with phases := tblMod s.phases p (fun x => { x with h := x.h + w }) }).phaseEnd p

/-- What a root lends: min(floor(H / 2), 2^40); none where H is below 2. -/
def State.borrow (s : State) (p : Option Nat) : Option (Nat × State) :=
  match p.bind (tblGet s.phases) with
  | none => none
  | some x =>
    if x.h < 2 then none
    else
      let w := min (x.h / 2) (2 ^ 40)
      some (w, { s with phases := tblMod s.phases (p.getD 0) (fun x => { x with h := x.h - w }) })

/-- A block's weight with loans until its half is at least `need`: the weight, whether that is so, the roots. -/
def State.lend (p : Option Nat) (need : Nat) : Nat → Nat → State → Nat × Bool × State
  | 0, w, s => (w, decide (need ≤ w / 2), s)
  | n + 1, w, s =>
    if need ≤ w / 2 then (w, true, s)
    else match s.borrow p with
      | none => (w, false, s)
      | some (x, s1) => State.lend p need n (w + x) s1

/-- The weight of block b of a launch. -/
def blockWeight (w n b : Nat) : Nat := w / n + (if b < w % n then 1 else 0)

/-- A launch whose last block has retired or been terminated: its completion signal, or its phase's. -/
def State.launchEnd (s : State) (id : Nat) : State :=
  match tblGet s.launches id with
  | none => s
  | some l =>
    if l.retired < l.lr.nblk then s
    else
      let s1 := { s with launches := tblDel s.launches id }
      match l.lr.root, l.phase with
      | true, some p =>
        ({ s1 with phases := tblMod s1.phases p (fun x => { x with rootDone := true, lastBlk := l.lastBlk }) }).phaseEnd p
      | _, _ => s1.firmSignal l.ctx l.lr.csig l.lr.cval l.lastBlk

/-! ## Acceptance (R158, R394, R400, R402) -/

/-- The lowest launch tag that no launch of the context holds; 65,536 where all are held. -/
def State.freeTag (s : State) (ctx : Nat) : Nat :=
  (firstFrom (fun t => s.launches.all (fun l => !(l.2.ctx == ctx && l.2.tag == t))) 0 65536).getD 65536

/-- Accept a launch: a root launch opens a phase and brings its weight. -/
def State.accept (s : State) (ctx : Nat) (q : Option Nat) (seq : Nat) (lr : LaunchRec) (addr : Word64)
    (runs : List (Nat × Nat)) (o : Origin) (weight : Nat) (phase : Option Nat) (records : List (List Byte))
    (backing : Bool) : State :=
  let (id, s1) := s.freshId
  let s2 := if lr.root then
      { s1 with phases := tblPut s1.phases id ⟨2 ^ 62, ctx, lr.csig, lr.cval, 0, false⟩ }
    else s1
  let w := if lr.root then Config.rootWeight else weight
  let l : Launch :=
      { ctx := ctx, q := q, seq := seq, tag := s.freeTag ctx, lr := { lr with wgt := w }, lrAddr := addr, runs := runs
        origin := o, weight := w, next := [0, 0, 0, 0], placed := 0, retired := 0, lastBlk := 0
        preambled := !lr.wpre, records := records, phase := if lr.root then some id else phase, stamp := id
        backing := backing }
  { s2 with launches := tblPut s2.launches id l }

/-! ## Turn and ownership (R396, R397) -/

/-- Whether a launch's turn on its queue has come. -/
def State.itsTurn (s : State) (l : Launch) : Bool :=
  s.launches.all (fun k =>
    !(k.2.ctx == l.ctx && l.q.isSome && k.2.q == l.q && decide (k.2.seq < l.seq)) ||
      (k.2.placed == k.2.lr.nblk && !(l.lr.serial && k.2.seq + 1 == l.seq)))

def State.available (s : State) (l : Launch) : Bool :=
  !l.backing && decide (l.tag < 65536) && l.preambled && s.itsTurn l

/-- Blocks or gangs in all, and those that a die owns. -/
def Launch.units (l : Launch) : Nat := if l.lr.gang then l.lr.nblk / 4 else l.lr.nblk
def Launch.nextUnit (l : Launch) (die : Nat) : Option Nat :=
  let k := (l.next[die]?).getD 0
  match l.origin with
  | .host => if k * 4 + die < l.units then some (k * 4 + die) else none
  | .device d => if d = die ∧ k < l.units then some k else none

def Launch.isDevice (l : Launch) : Bool :=
  match l.origin with
  | .host => false
  | .device _ => true

/-- The distributor's next unit: host work in order of acceptance, then the newest device-spawned work; a thief gets the
oldest of either (R398). Grids placed at once are not here. -/
def State.pick (s : State) (die : Nat) (oldest : Bool) : Option (Nat × Launch × Nat) :=
  let mine := s.launches.filterMap (fun x =>
    if x.2.lr.co || !s.available x.2 then none else (x.2.nextUnit die).map (fun u => (x.1, x.2, u)))
  let best (l : List (Nat × Launch × Nat)) (newest : Bool) : Option (Nat × Launch × Nat) :=
    l.foldl (fun acc x => match acc with
      | none => some x
      | some y => if (if newest then y.2.1.stamp < x.2.1.stamp else x.2.1.stamp < y.2.1.stamp) then some x else acc) none
  match best (mine.filter (fun x => !x.2.1.isDevice)) false with
  | some x => some x
  | none => best (mine.filter (fun x => x.2.1.isDevice)) (!oldest)

/-! ## Seats (R177, R178, R397) -/

/-- What a core holds now. -/
def State.load (s : State) (core : Nat) : CoreLoad :=
  let here := s.blocks.filter (fun b => b.2.cores.contains core)
  let gs := s.groups.filter (fun g => g.2.core == core && !g.2.leaving)
  { runs := here.flatMap (fun b => (b.2.cores.zipIdx.filter (fun k => k.1 == core)).map (fun k =>
      ((b.2.shares[k.2]?).getD 0, granules b.2.share))) ++
      gs.map (fun g => (g.2.poolBase, granules (4 * g.2.pool.length)))
    lanes := gs.map (fun g => (g.2.lane, laneWordsOf g.2.budget))
    bars := (here.map (fun b => b.2.lr.nbar)).sum
    floors := here.map (fun b => b.2.lr.floor)
    ceils := here.map (fun b => b.2.lr.ceil)
    score := s.scoreOf core }

/-- Seats on given cores, slot by slot. -/
def State.seatOn (s : State) (r : LaunchRec) (cores : List Nat) : Option (List Nat × List Share) :=
  (cores.zipIdx.foldl (fun (acc : Option (List Share)) k =>
    match acc with
    | none => none
    | some l =>
      if !(s.core k.1).enabled then none
      else ((s.load k.1).receive r k.2).map (fun x => l ++ [x.1])) (some [])).map (fun l => (cores, l))

/-- Seats within a cluster. -/
def State.seatIn (s : State) (r : LaunchRec) (cl : Nat) : Option (List Nat × List Share) :=
  let c := 4 * cl
  (match r.spread.1 with
   | 1 => [[c], [c + 1], [c + 2], [c + 3]]
   | 2 => [[c, c + 1], [c + 2, c + 3]]
   | _ => [[c, c + 1, c + 2, c + 3]]).findSome? (s.seatOn r)

/-- Seats for a block, or for the four members of a gang, on a die: the lowest-numbered clusters that admit them. -/
def State.seats (s : State) (r : LaunchRec) (die : Nat) : Option (List (List Nat × List Share)) :=
  let cls := (List.range 48).map (fun k => die * 48 + k)
  if r.gang then
    let got := (cls.filterMap (s.seatIn r)).take 4
    if got.length = 4 then some got else none
  else (cls.findSome? (s.seatIn r)).map (fun x => [x])

/-! ## A block takes its place (R118, R178, R179, R274, R399, R400) -/

/-- A group at launch (R399). -/
def Group.launched (core lane slot role budget : Nat) (pc : Word64) (resident : Nat) : Group where
  core := core
  lane := lane
  slot := slot
  role := role
  budget := budget
  threads := Vector.replicate 32 (Thread.launched pc)
  s := Vector.replicate 192 0#64
  f := Vector.replicate 16 FuncReg.empty
  chbTol := Config.chbTol
  pool := []
  poolBase := 0
  inHandler := false
  dying := false
  trapBase := 0#64
  trapCause := 0#64
  trapPc := 0#64
  trapMask := 0#64
  trapAddr := 0#64
  saved := []
  pendingTrap := none
  hz := {}
  ob := {}
  pendObs := []
  ops := []
  holds := []
  savedHolds := []
  fills := []
  undef := []
  regPoison := []
  parked := none
  stallUntil := 0
  passOver := none
  mustPass := false
  waitFrom := none
  resident := resident
  leaving := false

/-- Remove the cells of a range: its bytes read as at the start. -/
def Memory.clear (m : Memory) (a n : Nat) : Memory := m.filter (fun c => decide (c.1 < a ∨ a + n ≤ c.1))

/-- Write zero to every byte of granules, which are then free of errors (R179, R411). -/
def State.zeroGranules (s : State) (core base n : Nat) : State :=
  (List.range n).foldl (fun s k =>
    let a := sramKey core (base + k) 0
    { s with
      mem := s.mem.clear a 4096
      poison := s.poison.filter (fun p => match p with
        | .byte b => decide (b < a ∨ a + 4096 ≤ b)
        | _ => true) }) s

/-- Lines beyond the ways that the L1 has now leave it: of a set the copies used longest ago first, then weight-store lines
(R102, R178; log 13). -/
def State.trimL1 (s : State) (core : Nat) : State :=
  let ways := s.l1Ways core
  let c := s.core core
  let sets := (c.copies.map (fun (x : LineNo × L1Copy) => x.1 % 256) ++
    c.weights.map (fun (x : Nat × LineBits) => x.1 % 256)).eraseDups
  sets.foldl (fun (s : State) k =>
    let c := s.core core
    let ws := c.weights.filter (fun (x : Nat × LineBits) => x.1 % 256 == k)
    let set := sortBy (fun (x y : LineNo × L1Copy) => decide (y.2.used ≤ x.2.used)) (c.copies.filter (fun (x : LineNo × L1Copy) => x.1 % 256 == k))
    let gone := (ws.take (ws.length - ways)).map Prod.fst
    let s1 := (set.drop (ways - ws.length)).foldl (fun s x => (s.dropCopy core x.1).evicted core x.1) s
    gone.foldl (fun s w => s.evicted core (weightTag w)) (s1.modCore core (fun c => { c with
      weights := c.weights.filter (fun x => !gone.contains x.1) }))) s

/-- The registers of a group at its start: s0 and s1 (R399). -/
def Group.withArgs (g : Group) (param : Word64) (records : Nat) : Group :=
  { g with s := (g.s.set 0 param).set 1 (BitVec.ofNat 64 records) }

/-- Records of the monitor spill area for the groups of a new block, 32 for each: the lowest that no block of the context,
resident or saved, has (R345; log 34). -/
def State.spillChunks (s : State) (ctx n : Nat) : List Nat :=
  let used := (s.blocks.filter (fun b => b.1.ctx == ctx)).flatMap (fun b => b.2.spill) ++
    (s.saved.filter (fun b => b.1.ctx == ctx)).flatMap (fun b => b.2.block.spill)
  ((List.range (used.length + n)).filter (fun k => !used.contains k)).take n

/-- Place a block on its cores: its granules read zero, its groups start, the L1s shrink, weight-store copies end, the
records of a node bin lie at the start of its scratchpad. -/
def State.putBlock (s : State) (id : Nat) (l : Launch) (blk : Nat) (gang : Option (Nat × Nat))
    (seat : List Nat × List Share) : State :=
  let key : BlockKey := ⟨l.ctx, l.tag, blk⟩
  let (_, share) := l.lr.spread
  let w := blockWeight l.weight l.lr.nblk blk
  let b : Block :=
    { launch := id, lr := l.lr, lrAddr := l.lrAddr, runs := l.runs, cores := seat.1, shares := seat.2.map Share.base
      share := share, weight := w, phase := l.phase, gang := gang, bars := [], status := .running, latch := none, hz := {}
      ngroups := l.lr.groups, spill := s.spillChunks l.ctx l.lr.groups }
  let s1 := (seat.1.zip seat.2).foldl (fun (s : State) (k : Nat × Share) =>
    let s1 := s.zeroGranules k.1 k.2.base (granules share)
    k.2.groups.foldl (fun (s : State) g => s.zeroGranules k.1 g.pool l.lr.poolGranules) s1) s
  let s2 := seat.1.foldl (fun s c =>
    if s.blocks.any (fun x => x.2.launch == id && x.2.cores.contains c) then s
    else s.modCore c (fun c => { c with weights := [] })) s1
  let s3 := { s2 with
    blocks := tblPut s2.blocks key b
    groups := (seat.1.zip seat.2).zipIdx.foldl (fun gs (k : (Nat × Share) × Nat) => k.1.2.groups.foldl (fun gs (g : GroupSeat) =>
      tblPut gs ⟨key, g.grp⟩ (({ Group.launched k.1.1 g.lane k.2 g.role g.budget l.lr.entry s.nextId with
        pool := List.replicate (16 * l.lr.chb16) 0#32
        poolBase := g.pool }).withArgs l.lr.param l.records.length)) gs) s2.groups
    nextId := s2.nextId + 1 }
  let s4 := s3.spWrite b 0 0 l.records.flatten
  (seat.1.foldl State.trimL1 s4).modCtx l.ctx (fun c => if s.blocks.any (fun x => x.1.ctx == l.ctx) then c
    else { c with wdogFrom := s.now })

/-- Place a unit of a launch that a die owns: a block, or the four members of a gang. -/
def State.putUnit (s : State) (id : Nat) (l : Launch) (u die : Nat) (seats : List (List Nat × List Share)) : State :=
  let s1 := seats.zipIdx.foldl (fun s k =>
    s.putBlock id l (if l.lr.gang then 4 * u + k.2 else u) (if l.lr.gang then some (u, k.2) else none) k.1) s
  s1.modLaunch id (fun l => { l with
    next := l.next.zipIdx.map (fun x => if x.2 = die then x.1 + 1 else x.1)
    placed := l.placed + seats.length })

/-- A unit's owner. -/
def Launch.owner (l : Launch) (u : Nat) : Nat :=
  match l.origin with
  | .host => u % 4
  | .device d => d

/-- Place a whole grid, each unit on its own die or on the next that has room (R398). -/
def State.putGrid (id : Nat) (l : Launch) : Nat → Nat → State → Option State
  | 0, _, s => some s
  | n + 1, u, s =>
    let d := l.owner u
    match [d, (d + 1) % 4, (d + 2) % 4, (d + 3) % 4].findSome? (s.seats l.lr) with
    | none => none
    | some x => State.putGrid id l n (u + 1) (s.putUnit id l u d x)

/-- A launch that found every tag held takes one that is free now. -/
def State.tagLaunch (s : State) (id : Nat) (l : Launch) : Launch × State :=
  if l.tag < 65536 then (l, s)
  else
    let l1 := { l with tag := s.freeTag l.ctx }
    (l1, { s with launches := tblPut s.launches id l1 })

/-- Tags for the launches that wait for one. -/
def State.tagAll (s : State) : State := s.launches.foldl (fun s x => (s.tagLaunch x.1 x.2).2) s

end Sys2Proof.Machine
end

