-- ==== Sys2Proof/Machine/Queue.lean ====
section
/-! DEFINITION. Queues at their homes, node bins, QPUSH, QPOP, QSTAT and LAUNCH (R393, R400 to R406). -/

namespace Sys2Proof.Machine

/-! ## Queues and their stores (R393, R402) -/

def State.queue (s : State) (ctx q : Nat) : Queue := tblGetD s.queues (ctx, q) Queue.none
def State.putQueue (s : State) (ctx q : Nat) (x : Queue) : State := { s with queues := tblPut s.queues (ctx, q) x }

/-- Record size in bytes. -/
def Queue.recBytes (x : Queue) : Nat := 16 * (x.rsz + 1)

/-- The launch records of a queue that the host has sent and that wait, by where they wait. -/
def Launch.waits (l : Launch) (backing : Bool) : Bool := l.origin == .host && l.backing == backing && decide (l.placed < l.lr.nblk)

/-- Records that a die's pending store holds: those of its queues, the host's launches among them. -/
def State.storeUsed (s : State) (die : Nat) : Nat :=
  ((s.queues.filter (fun x => x.1.2 % 4 == die)).map (fun x => (x.2.recs.filter (fun r => !r.backing)).length)).sum +
  (s.launches.filter (fun l => l.2.waits false && (match l.2.q with
    | some q => q % 4 == die
    | none => false))).length

/-- Launch records spawned on a die that its store holds: those of launches with blocks still to be placed (log 32). -/
def State.launchesUsed (s : State) (die : Nat) : Nat :=
  (s.launches.filter (fun l => l.2.origin == .device die && !l.2.backing && decide (l.2.placed < l.2.lr.nblk))).length

/-- Where a new record goes: true for the backing; none where that is full. -/
def State.recRoom (s : State) (q : Nat) (x : Queue) : Option Bool :=
  let back := (x.recs.filter (fun r => r.backing)).length
  if back = 0 ∧ s.storeUsed (q % 4) < Config.pendingRecords then some false
  else if back < x.bcap then some true else none

/-- The same for a launch of the host. -/
def State.hostRoom (s : State) (ctx q : Nat) (x : Queue) : Option Bool :=
  let back := (s.launches.filter (fun l => l.2.ctx == ctx && l.2.q == some q && l.2.backing)).length
  if back = 0 ∧ s.storeUsed (q % 4) < Config.pendingRecords then some false
  else if back < x.bcap then some true else none

/-- The same for a launch record that a block spawns. -/
def State.launchRoom (s : State) (ctx q die : Nat) (x : Queue) : Option Bool :=
  let back := (s.launches.filter (fun l => l.2.ctx == ctx && l.2.q == some q && l.2.backing)).length
  if back = 0 ∧ s.launchesUsed die < Config.pendingLaunches then some false
  else if back < x.bcap then some true else none

/-! ## Node bins (R401) -/

/-- A node bin launches its template with up to ncoal records; a template that the checks refuse leaves them waiting. -/
def State.binLaunch (s : State) (ctx q : Nat) : State :=
  let x := s.queue ctx q
  let n := min x.ncoal x.recs.length
  if x.kind ≠ 2 ∨ x.recs.isEmpty ∨ x.error.isSome then s
  else if Config.pendingLaunches ≤ s.launchesUsed (q % 4) then s
  else
    let stop (k : Nat) : State := s.putQueue ctx q { x with error := some k }
    match s.firmBytes ctx x.tmpl 128 with
    | none => stop 1
    | some bs =>
      match s.readLaunch ctx bs false with
      | .error k => stop k
      | .ok (lr, runs) =>
        if lr.nblk ≠ 1 ∨ lr.scr < x.ncoal * x.recBytes then stop 8
        else
          let taken := x.recs.take n
          (s.putQueue ctx q { x with recs := x.recs.drop n }).accept ctx none 0 lr x.tmpl runs
            (.device (q % 4)) (taken.map QRec.weight).sum (taken.findSome? QRec.phase)
            (taken.map QRec.bytes) false

/-- Whether a bin's moment has come: its count, or its timer, which runs from the first record of the batch. -/
def State.binDue (s : State) (x : Queue) : Bool :=
  x.kind == 2 && x.error.isNone && (match x.recs with
    | [] => false
    | r :: _ => decide (x.ncoal ≤ x.recs.length) || (x.timer != 0 && decide (r.since + x.timer ≤ s.now)))

/-- NODE_BIN_TIMER. -/
def execNodeBinTimer (ctx q : Nat) (s : State) : Out :=
  .next (if s.binDue (s.queue ctx q) then s.binLaunch ctx q else s)

/-! ## Serving parked poppers (R404, R405) -/

/-- The slot before an address. -/
def prevSlot (a : Word64) : Word64 := if (a.setWidth 6).toNat = 0 then a - 16#64 else a - 12#64

/-- The threads of a mask that a QPOP has parked. -/
def Group.popping (g : Group) (m : Mask) : List Tid := (maskTids m).filter (fun t => match (g.thread t).status with
  | .parked (.qpop _ _ _) => true
  | _ => false)

/-- Whether the threads' bound set holds one that was served and stands at the instruction (R252). -/
def Group.mateServed (g : Group) (m : Mask) : Bool :=
  (g.popping m).any (fun t => (maskTids (g.waitSet t)).any (fun u =>
    (g.thread u).status == .parked .set && (g.thread u).pc == prevSlot (g.thread t).pc))

/-- Release the threads of a parked QPOP: `ok` as given. Where one has been served, or one of its bound set, they stand
at the instruction until the acquire `f` is over. -/
def Group.unpop (g : Group) (m : Mask) (ok : Bool) (wait : Option FenceWait) : Group :=
  let ts := g.popping m
  let sets : Mask := ts.foldl (fun acc t => acc ||| g.waitSet t) 0#32
  let pc := match ts with
    | t :: _ => prevSlot (g.thread t).pc
    | [] => 0#64
  let at_ := if wait.isSome then pc else nextSlot pc
  let g0 := g.modThreads sets (fun _ th => if th.status == .parked .set then { th with pc := at_ } else th)
  let g1 := ts.foldl (fun g t =>
    let g1 := match (g.thread t).status with
      | .parked (.qpop _ _ (some p)) => g.writeP t p ok
      | _ => g
    g1.release t at_) g0
  match wait with
  | none => g1
  | some f =>
    let here := maskOf (fun t => sets.getLsbD t.val && (g1.thread t).isRunning)
    let away := maskOf (fun t => sets.getLsbD t.val && (g1.thread t).status == .shelved)
    { g1 with
      holds := if here = 0#32 then g1.holds else g1.holds ++ [⟨here, pc, .after f⟩]
      savedHolds := if away = 0#32 then g1.savedHolds else g1.savedHolds ++ [⟨away, pc, .after f⟩] }

/-- The destination of a parked QPOP. -/
def Group.popAddr (g : Group) (t : Tid) : Word64 :=
  match (g.thread t).status with
  | .parked (.qpop _ sa _) => sa
  | _ => 0#64

/-- Add a record's weight to a block. -/
def Block.gain (b : Block) (w : Nat) (p : Option Nat) : Block :=
  { b with weight := b.weight + w, phase := match b.phase with
      | some x => some x
      | none => if w = 0 then none else p }

/-- Put bytes into a saved block's scratchpad image. -/
def Saved.putBytes (v : Saved) (slot off : Nat) (bs : List Byte) : Saved :=
  { v with shares := v.shares.zipIdx.map (fun x =>
      if x.2 = slot then x.1.take off ++ bs ++ x.1.drop (off + bs.length) else x.1) }

/-- A record serves a parked popper, resident or saved. -/
def State.servePop (s : State) (t : ThreadRef) (m : Mask) (r : QRec) : State :=
  match s.group t.g with
  | some g =>
    let s1 := (s.spPut t.g g.slot (g.popAddr t.tid) 0 r.bytes).modBlock t.g.key (fun b => b.gain r.weight r.phase)
    let (f, s2) := s1.fenceStart t.g .acq .dev ⟨t.g, prevSlot (g.thread t.tid).pc, m⟩
    s2.modGroup t.g (fun g => g.unpop m true (some f))
  | none =>
    s.savedEvent t.g.key t.g.grp m true (fun v =>
      match tblGet v.groups t.g.grp with
      | none => v
      | some g =>
        let v1 := match scratchAt t.g g.slot (g.popAddr t.tid) with
          | .bytes _ slot off _ => v.putBytes slot off r.bytes
          | _ => v
        { v1 with
          block := v1.block.gain r.weight r.phase
          groups := tblMod v1.groups t.g.grp (fun g => g.unpop m true (some ⟨.acq, .dev, s.nextId, [], none, m⟩)) })

/-- Serve parked poppers while records wait, oldest first. -/
def State.servePops (ctx q : Nat) : Nat → State → State
  | 0, s => s
  | n + 1, s =>
    let x := s.queue ctx q
    match x.recs, x.poppers with
    | r :: rs, (t, m) :: ps =>
      State.servePops ctx q n ((s.putQueue ctx q { x with recs := rs, poppers := ps }).servePop t m r)
    | _, _ => s

/-- A record arrives at its queue: it is placed (R402), serves a popper, or fills a bin; none where there is no room. -/
def State.pushRec (s : State) (ctx q : Nat) (bytes : List Byte) (weight : Nat) (phase : Option Nat) : Option State :=
  let x := s.queue ctx q
  (s.recRoom q x).map (fun backing =>
    let s1 := s.putQueue ctx q { x with recs := x.recs ++ [⟨bytes, weight, phase, backing, s.now⟩] }
    let s2 := State.servePops ctx q 1 s1
    let y := s2.queue ctx q
    if y.kind = 2 ∧ y.ncoal ≤ y.recs.length then s2.binLaunch ctx q else s2)

/-- A queue closes: its poppers, who wait because it is empty, go on with 0, or fault where they name no predicate. -/
def State.closeQueue (s : State) (ctx q : Nat) : State :=
  let x := s.queue ctx q
  (x.poppers).foldl (fun s p =>
    let (t, m) := p
    let okOf (g : Group) : Bool := match (g.thread t.tid).status with
      | .parked (.qpop _ _ ok) => ok.isSome
      | _ => true
    match s.group t.g with
    | some g =>
      if okOf g then
        if g.mateServed m then
          let (f, s1) := s.fenceStart t.g .acq .dev ⟨t.g, prevSlot (g.thread t.tid).pc, m⟩
          s1.modGroup t.g (fun g => g.unpop m false (some f))
        else s.modGroup t.g (fun g => g.unpop m false none)
      else s.raiseLater t.g { code := .queueClosed, mask := m, pc := prevSlot (g.thread t.tid).pc }
    | none =>
      s.savedEvent t.g.key t.g.grp m false (fun v =>
        { v with groups := tblMod v.groups t.g.grp (fun g =>
            if okOf g then
              g.unpop m false (if g.mateServed m then some ⟨.acq, .dev, s.nextId, [], none, m⟩ else none)
            else { g with pendingTrap := some { code := .queueClosed, mask := m, pc := prevSlot (g.thread t.tid).pc } }) }))
    (s.putQueue ctx q { x with cl := true, poppers := [] })

/-- RECORD_MOVE_BACK: the oldest record in a queue's backing moves into the store as there is room. -/
def execRecordMoveBack (ctx q : Nat) (s : State) : Out :=
  let x := s.queue ctx q
  if x.kind = 3 then
    .next (match s.launches.find? (fun l => l.2.ctx == ctx && l.2.q == some q && l.2.backing) with
      | none => s
      | some (id, l) => match l.origin with
        | .device d =>
          if s.launchesUsed d < Config.pendingLaunches then s.modLaunch id (fun l => { l with backing := false }) else s
        | .host =>
          if s.storeUsed (q % 4) < Config.pendingRecords then s.modLaunch id (fun l => { l with backing := false }) else s)
  else if s.storeUsed (q % 4) < Config.pendingRecords then
    let onChip := x.recs.takeWhile (fun r => !r.backing)
    match x.recs.drop onChip.length with
    | [] => .next s
    | r :: rest => .next (s.putQueue ctx q { x with recs := onChip ++ { r with backing := false } :: rest })
  else .next s

/-! ## The instructions (R403, R404) -/

/-- The threads that act: every one of ACTIVE, or one for the group. -/
def queueTids (vec : Bool) (act : Mask) : List Tid := if vec then maskTids act else (maskTids act).take 1

/-- Row 1 of the checks. -/
def queueShut (e : Iss) (q : Nat) (kinds : List Nat) (open_ : Bool) : Bool :=
  let x := e.s.queue e.r.key.ctx q
  decide (((e.s.ctx e.r.key.ctx).map Ctx.qcount).getD 0 ≤ q) || !kinds.contains x.kind || (open_ && x.cl)

def queueOf (e : Iss) (q : SReg) : Nat := ((Operand.s e q).setWidth 16).toNat

/-- Rows 2 and 3 for a record in scratchpad. -/
def recFault (e : Iss) (vec : Bool) (n : Nat) (addr : Tid → Word64) : Option (FaultCode × Mask × Word64) :=
  match e.s.block e.r.key with
  | none => none
  | some b =>
    let act := maskOf (fun t => (queueTids vec e.act).contains t)
    (scratchFault e b false 16 n act addr).map (fun x => (x.1, if vec then x.2.1 else e.act, x.2.2))

/-- Write `ok` for the threads of a form. -/
def okWrite (e : Iss) (ok : PDst) (t : Tid) (x : Bool) (s : State) : State :=
  match ok with
  | .zero => s
  | .p n => s.modGroup e.r (fun g => g.writeP t n x)

/-- Split a block's weight for a push or a launch (R400): what the record takes, its phase; none where no loan is to be
had. A loan stays with the block. -/
def State.splitWeight (s : State) (k : BlockKey) (need : Nat) : Option (Nat × Option Nat) × State :=
  match s.block k with
  | none => (none, s)
  | some b =>
    match b.phase with
    | none => (some (0, none), s)
    | some p =>
      let (w, ok, s1) := State.lend (some p) need 128 b.weight s
      let s2 := s1.modBlock k (fun b => { b with weight := w })
      if ok then (some (w / 2, some p), s2) else (none, s2)

/-- A push or a launch has been made: its weight leaves the block. -/
def State.payWeight (s : State) (k : BlockKey) (w : Nat) : State := s.modBlock k (fun b => { b with weight := b.weight - w })

def pushOne (e : Iss) (ok : PDst) (q n : Nat) (s : State) (t : Tid) (a : Word64) : State :=
  match s.spAt e.r e.g.slot a 0 n, s.splitWeight e.r.key 1 with
  | none, (_, s1) => okWrite e ok t false s1
  | _, (none, s1) => okWrite e ok t false s1
  | some (bs, _), (some (w, p), s1) =>
    match s1.pushRec e.r.key.ctx q bs w p with
    | none => okWrite e ok t false s1
    | some s2 => okWrite e ok t true (s2.payWeight e.r.key w)

/-- A record whose bytes are poisoned (R411). -/
def recPoisoned (e : Iss) (vec : Bool) (n : Nat) (addr : Tid → Word64) : Mask :=
  maskOf (fun t => (queueTids vec e.act).contains t && match e.s.spAt e.r e.g.slot (addr t) 0 n with
    | some (_, bad) => bad
    | none => false)

def execQpush (c : Ctl) (ok : PDst) (q : SReg) (sa : VS) (s : State) : Out :=
  let vec := ok.isVec || sa.isVec
  begin_ c s (fun e =>
    if e.act = 0#32 then .next (e.retire c e.g)
    else
      let k := queueOf e q
      let n := (e.s.queue e.r.key.ctx k).recBytes
      let addr (t : Tid) := Operand.vs (e.nth 1) 32 t sa
      if queueShut e k [1, 2] true then e.fault .queueClosed e.act
      else match recFault e vec n addr with
        | some (code, m, a) => e.fault code m a
        | none =>
          if recPoisoned e vec n addr != 0#32 then
            e.fault .eccUncorrectable (if vec then recPoisoned e vec n addr else e.act)
          else releaseFirst c .dev e (fun e =>
            .next (e.finish c ((queueTids vec e.act).foldl (fun s t => pushOne e ok k n s t (addr t)) e.s) 0#32)))

/-- What the pops of an instruction have come to: the state, the threads parked, those served, those that fault. -/
structure Popped where
  s : State
  parked : Mask
  served : Mask
  shut : Mask

/-- One pop, for the threads of `m`. A bound set of which one thread would find the queue closed faults whole, and none
of its threads takes a record (R253). -/
def popOne (e : Iss) (try_ : Bool) (ok : PDst) (k : Nat) (acc : Popped) (t : Tid) (m : Mask) (a : Word64) : Popped :=
  let s := acc.s
  let x := s.queue e.r.key.ctx k
  let rest := maskTids (e.g.boundSet t &&& e.act &&& ~~~(acc.served ||| acc.shut))
  if acc.shut &&& m != 0#32 then acc
  else if x.cl && ok == .zero && decide (x.recs.length < (if m = bitOf t then rest.length else 1)) then
    { acc with shut := acc.shut ||| e.g.wholeSets m }
  else match x.recs with
  | r :: rs =>
    let s1 := ((s.putQueue e.r.key.ctx k { x with recs := rs }).spPut e.r e.g.slot a 0 r.bytes).modBlock e.r.key
      (fun b => b.gain r.weight r.phase)
    { acc with s := okWrite e ok t true s1, served := acc.served ||| m }
  | [] =>
    if x.cl || try_ then { acc with s := okWrite e ok t false s }
    else
      let w : Option PReg := match ok with
        | .p n => some n
        | .zero => none
      { acc with
        s := (s.putQueue e.r.key.ctx k { x with poppers := x.poppers ++ [(⟨e.r, t⟩, m)] }).modGroup e.r (fun g =>
          (maskTids m).foldl (fun g u => g.park u e.s.now (.qpop k a w) none (nextSlot e.pc)) g)
        parked := acc.parked ||| m }

def execQpop (c : Ctl) (try_ : Bool) (ok : PDst) (q : SReg) (sa : VS) (s : State) : Out :=
  let vec := ok.isVec || sa.isVec
  begin_ c s (fun e =>
    if e.act = 0#32 then .next (e.retire c e.g)
    else
      let k := queueOf e q
      let n := (e.s.queue e.r.key.ctx k).recBytes
      let addr (t : Tid) := Operand.vs (e.nth 1) 32 t sa
      if queueShut e k [1] false then e.fault .queueClosed e.act
      else match recFault e vec n addr with
        | some (code, m, a) => e.fault code m a
        | none =>
          let r := (queueTids vec e.act).foldl (fun acc t =>
            popOne e try_ ok k acc t (if vec then bitOf t else e.act) (addr t)) (⟨e.s, 0#32, 0#32, 0#32⟩ : Popped)
          if r.shut != 0#32 then { e with s := r.s }.fault .queueClosed r.shut
          else
            -- a bound set of which a thread waits is parked whole (R252)
            let stay := e.g.wholeSets r.parked
            let s1 := r.s.modGroup e.r (fun g =>
              (maskTids (stay &&& ~~~r.parked)).foldl (fun g u => g.park u e.s.now .set none e.pc) g)
            if r.served &&& ~~~stay != 0#32 then
              -- the entry waits at the instruction for the acquire (R404)
              .next (acquireAfter e .dev stay (e.finish c s1 e.mask))
            else .next (e.finish c s1 stay))

/-- Records waiting in a queue; for a grid, launches with blocks still to be placed. -/
def State.queuePend (s : State) (ctx q : Nat) : Nat :=
  let x := s.queue ctx q
  if x.kind = 3 then
    (s.launches.filter (fun l => l.2.ctx == ctx && l.2.q == some q && decide (l.2.placed < l.2.lr.nblk))).length
  else x.recs.length

def execQstat (c : Ctl) (d : Dst) (q : SReg) (sel : Bool) (s : State) : Out :=
  begin_ c s (fun e =>
    if e.act = 0#32 then .next (e.retire c e.g)
    else
      let k := queueOf e q
      let x := e.s.queue e.r.key.ctx k
      if queueShut e k [0, 1, 2, 3] false then e.fault .queueClosed e.act
      else
        let v : Word64 := if sel then BitVec.ofNat 64 (((e.s.block e.r.key).map Block.weight).getD 0)
          else BitVec.ofNat 64 (e.s.queuePend e.r.key.ctx k * 2 ^ 32 + (if x.cl then 8 else 0) + x.kind)
        .next (e.retire c (e.perForm d.isVec (fun t g => g.write (if d.isVec then .b32 else .b64) d t v))))

def launchOne (e : Iss) (ok : PDst) (q : Nat) (s : State) (t : Tid) (a : Word64) (flat : Nat) : State :=
  let ctx := e.r.key.ctx
  let die := dieOfCore e.g.core
  let x := s.queue ctx q
  match s.readLaunch ctx ((List.range 128).map (fun i => s.firmByte (flat + i))) false, s.launchRoom ctx q die x with
  | .ok (lr, runs), some backing =>
    let go (w : Nat) (p : Option Nat) (s : State) : State :=
      okWrite e ok t true ((s.putQueue ctx q { x with seq := x.seq + 1 }).accept ctx (some q) x.seq lr a runs
        (.device die) w p [] backing)
    if lr.root then go 0 none s
    else match s.splitWeight e.r.key lr.nblk with
      | (none, s1) => okWrite e ok t false s1
      | (some (w, p), s1) => go w p (s1.payWeight e.r.key w)
  | _, _ => okWrite e ok t false s

def execLaunch (c : Ctl) (ok : PDst) (q : SReg) (lr : VS) (s : State) : Out :=
  let vec := ok.isVec || lr.isVec
  begin_ c s (fun e =>
    if e.act = 0#32 then .next (e.retire c e.g)
    else
      let k := queueOf e q
      let addr (t : Tid) := Operand.vs (e.nth 1) 64 t lr
      let ts := queueTids vec e.act
      let whole (m : Mask) : Mask := if vec then m else e.act
      let bad := maskOf (fun t => ts.contains t && (addr t).toNat % 128 != 0)
      if queueShut e k [3] true then e.fault .queueClosed e.act
      else if bad != 0#32 then e.fault .misaligned (whole bad) (addr ((maskTids bad).headD 0))
      else
        let (res, s1) := e.s.xlateAll e.g.core e.r.key.ctx Need.read addr false ts
        let e1 := { e with s := s1 }
        match xlatFault Need.read res with
        | some (code, m, reason) => e1.fault code (whole m) (addr ((maskTids m).headD 0)) reason
        | none => releaseFirst c .dev e1 (fun e =>
          -- a launch record whose line is poisoned (R67)
          let ecc := maskOf (fun t => res.any (fun x => x.1 == t && match x.2 with
            | .ok y => e.s.linePoisoned (y.leaf.flat (addr t) / 128)
            | _ => false))
          if ecc != 0#32 then e.fault .eccUncorrectable (whole ecc) (addr ((maskTids ecc).headD 0))
          else .next (e.finish c (res.foldl (fun s x => match x.2 with
            | .ok y => launchOne e ok k s x.1 (addr x.1) (y.leaf.flat (addr x.1))
            | _ => s) e.s) 0#32)))

end Sys2Proof.Machine
end

