-- ==== Sys2Proof/Machine/Function.lean ====
section
/-! DEFINITION. Function registers: Chebyshev series in a group's pool (R273 to R288). -/

namespace Sys2Proof.Machine

/-! ## Exact coefficients -/

/-- A finite FP32 word as a rational number; none for a NaN or an infinity. -/
def ratOf (x : Word32) : Option Rat :=
  match fp32.value x.toNat with
  | .fin n m e =>
    let v : Rat := if 0 ≤ e then ((m * 2 ^ e.toNat : Nat) : Rat) else mkRat m (2 ^ (-e).toNat)
    some (if n then -v else v)
  | _ => none

/-- A rational number rounded once to FP32 under nearest even; an exact zero is +0 (R285). -/
def ratTo (q : Rat) : Word32 :=
  if q.num = 0 then 0#32
  else
    let k := bitLen q.den + 64
    let n := q.num.natAbs * 2 ^ k
    BitVec.ofNat 32 (fp32.roundMag .rne (decide (q.num < 0)) (n / q.den) (-k) (decide (n % q.den ≠ 0)))

/-- All the coefficients as rationals; none when one is not finite. -/
def ratsOf : List Word32 → Option (List Rat)
  | [] => some []
  | x :: r =>
    match ratOf x, ratsOf r with
    | some q, some qs => some (q :: qs)
    | _, _ => none

def ratAbs (q : Rat) : Rat := if q.num < 0 then -q else q
def ratSum (l : List Rat) : Rat := l.foldl (fun acc q => acc + q) 0
def ratAt (l : List Rat) (k : Nat) : Rat := (l[k]?).getD 0
def chNan : Word32 := 0x7FC00000#32

/-- The tolerance of R276: none for +∞ (one coefficient is left), +0 for a NaN or a negative value. -/
def tolOf (x : Word32) : Option Rat :=
  match fp32.value x.toNat with
  | .inf false => none
  | .fin false _ _ => some ((ratOf x).getD 0)
  | _ => some 0

/-- The length that trimming keeps: at least 1, the least m with Σ_{k ≥ m} |c_k| ≤ lim. `rev` is the series from its
last coefficient, `tail` the sum of those dropped. -/
def trimLen (lim : Rat) : List Rat → Rat → Nat
  | [], _ => 0
  | [_], _ => 1
  | q :: r, tail => if tail + ratAbs q ≤ lim then trimLen lim r (tail + ratAbs q) else r.length + 1

/-- Trimming (R276). -/
def trimCoefs (tol : Word32) (cs : List Word32) : List Word32 :=
  match ratsOf cs with
  | none => cs
  | some qs =>
    match tolOf tol with
    | none => cs.take 1
    | some t => cs.take (trimLen (t * ratSum (qs.map ratAbs)) qs.reverse 0)

/-! ## The pool (R274, R275) -/

def granulesOf (n : Nat) : Nat := (n + 15) / 16

/-- The granules of the registers other than one. -/
def usedGranule (g : Group) (but : Option CReg) (i : Nat) : Bool :=
  (List.finRange 16).any (fun k => some k != but &&
    decide (g.f[k].base ≤ i) && decide (i < g.f[k].base + granulesOf g.f[k].n))

/-- The free granules: how many in the longest run, and how many in all. -/
def poolFree (g : Group) : Nat × Nat :=
  let (_, best, all) := (List.range (g.pool.length / 16)).foldl (fun (acc : Nat × Nat × Nat) i =>
    if usedGranule g none i then (0, acc.2.1, acc.2.2)
    else (acc.1 + 1, max acc.2.1 (acc.1 + 1), acc.2.2 + 1)) (0, 0, 0)
  (best, all)

/-- The lowest run of `n` free granules. -/
def firstFit (g : Group) (fd : CReg) (n : Nat) : Option Nat :=
  let total := g.pool.length / 16
  if n = 0 then some 0
  else firstFrom (fun i => decide (i + n ≤ total) &&
    (List.range n).all (fun j => !usedGranule g (some fd) (i + j))) 0 total

/-- Put words over a list from a place on. -/
def overlay {α : Type} (l : List α) (at_ : Nat) (xs : List α) : List α :=
  l.take at_ ++ xs ++ l.drop (at_ + xs.length)

/-- Place a result (R275): none where no run is large enough, or where it is longer than 256 (R285). -/
def placeFunc (g : Group) (fd : CReg) (a b : Word32) (cs : List Word32) : Option Group :=
  if 256 < cs.length then none
  else match firstFit g fd (granulesOf cs.length) with
    | none => none
    | some i =>
      some { g with
        pool := overlay g.pool (16 * i) cs
        f := g.f.set fd (if cs.isEmpty then FuncReg.empty else ⟨a, b, i, cs.length⟩) }

/-- A register's coefficients. -/
def funcCoefs (g : Group) (k : CReg) : List Word32 := (g.pool.drop (16 * g.f[k].base)).take g.f[k].n

/-- Whether a coefficient of a register is poisoned (R411). -/
def funcPoisoned (e : Iss) (k : CReg) : Bool :=
  !e.s.poison.isEmpty &&
    (List.range e.g.f[k].n).any (fun i => e.s.poison.contains (.pool e.r (16 * e.g.f[k].base + i)))

/-- An instruction of the function unit (R282): once, if ACTIVE is not empty; an empty or poisoned source faults
(R280, R411). -/
def funcOp (c : Ctl) (srcs : List CReg) (f : Iss → Out) (s : State) : Out :=
  begin_ c s (fun e =>
    if e.act = 0#32 then .next (e.retire c e.g)
    else if srcs.any (fun k => e.g.f[k].n == 0) then e.fault .domainMismatch e.act
    else if srcs.any (funcPoisoned e) then e.fault .eccUncorrectable e.act
    else f e)

/-- End with a result to place; the words it writes are no longer poisoned. -/
def funcPlace (c : Ctl) (e : Iss) (fd : CReg) (a b : Word32) (cs : List Word32) : Out :=
  match placeFunc e.g fd a b cs with
  | none => e.fault .chbPool e.act
  | some g =>
    let lo := 16 * g.f[fd].base
    let s1 := if e.s.poison.isEmpty then e.s else { e.s with poison := e.s.poison.filter (fun p => match p with
      | .pool r w => !(decide (r = e.r) && decide (lo ≤ w) && decide (w < lo + cs.length))
      | _ => true) }
    .next (e.retireWith c s1 g 0#32)

/-! ## Load, store and queries (R283, R284) -/

/-- A read or write of scratchpad by the function unit: behind the group's earlier accesses (R134), after R181. -/
def funcScratch (c : Ctl) (e : Iss) (a : Word64) (len : Nat) (f : Block → Nat → Nat → Out) : Out :=
  match e.g.banks, e.s.block e.r.key with
  | _, none => .next e.s
  | [], some b =>
    match scratchFault e b false 4 (4 * len) e.act (fun _ => a) with
    | some (code, _, _) => e.fault code e.act a
    | none =>
      match scratchAt e.r e.g.slot a with
      | .bytes key slot off _ => f ((e.s.block key).getD b) slot off
      | .window _ _ _ => e.fault .scratchRange e.act a
  | ids, _ => e.hold c (.bank ids)

/-- Little-endian words of bytes. -/
def wordsOf : List Byte → List Word32
  | b0 :: b1 :: b2 :: b3 :: r => leBits 32 [b0, b1, b2, b3] :: wordsOf r
  | _ => []

def execChld (c : Ctl) (fd : CReg) (sa dom : SReg) (len : SImm 9) (s : State) : Out :=
  funcOp c [] (fun e =>
    let d := Operand.s e dom
    let a : Word32 := d.setWidth 32
    let b : Word32 := (d >>> 32).setWidth 32
    let n := (Operand.simm (e.nth 2) len).toNat
    let ok := match ratOf a, ratOf b with
      | some x, some y => decide (x < y)
      | _, _ => false
    if n < 1 || 256 < n || !ok then e.fault .domainMismatch e.act
    else funcScratch c e (Operand.s (e.nth 1) sa) n (fun blk slot off =>
      if e.s.spPoisoned blk slot off (4 * n) then e.fault .eccUncorrectable e.act
      else funcPlace c e fd a b (wordsOf (e.s.spRead blk slot off (4 * n))))) s

def execChst (c : Ctl) (sa : SReg) (fa : CReg) (s : State) : Out :=
  funcOp c [fa] (fun e =>
    funcScratch c e (Operand.s e sa) e.g.f[fa].n (fun blk slot off =>
      .next ((e.retire c e.g).spWrite blk slot off ((funcCoefs e.g fa).flatMap (fun x => leBytes 4 x.toNat))))) s

/-- Write a uniform destination. -/
def Group.writeSD (g : Group) (d : SDst) (x : Word64) : Group :=
  match d with
  | .s n => g.writeS n x
  | .zero => g

def execChdom (c : Ctl) (d : SDst) (fa : CReg) (s : State) : Out :=
  funcOp c [fa] (fun e =>
    .next (e.retire c (e.g.writeSD d (e.g.f[fa].a.setWidth 64 ||| (e.g.f[fa].b.setWidth 64 <<< 32))))) s

def execChlen (c : Ctl) (d : SDst) (fa : CReg) (s : State) : Out :=
  funcOp c [] (fun e => .next (e.retire c (e.g.writeSD d (BitVec.ofNat 64 e.g.f[fa].n)))) s

def execChtrunc (c : Ctl) (fd fa : CReg) (len : SImm 9) (s : State) : Out :=
  funcOp c [] (fun e =>
    let n := (Operand.simm (e.nth 2) len).toNat
    if n = 0 then funcPlace c e fd 0#32 0#32 []
    else if e.g.f[fa].n = 0 then e.fault .domainMismatch e.act
    else if funcPoisoned e fa then e.fault .eccUncorrectable e.act
    else funcPlace c e fd e.g.f[fa].a e.g.f[fa].b ((funcCoefs e.g fa).take n)) s

/-! ## Arithmetic on whole functions (R285, R286) -/

/-- Round, trim and place; canonical NaNs of the formula's length where a source is not finite. -/
def funcResult (c : Ctl) (e : Iss) (fd : CReg) (a b : Word32) (len : Nat) (res : Option (List Rat)) : Out :=
  match res with
  | none => funcPlace c e fd a b (List.replicate len chNan)
  | some qs => funcPlace c e fd a b (trimCoefs e.g.chbTol (qs.map ratTo))

def sameDomain (g : Group) (x y : CReg) : Bool := g.f[x].a == g.f[y].a && g.f[x].b == g.f[y].b

def execChadd (c : Ctl) (sub : Bool) (fd fa fb : CReg) (s : State) : Out :=
  funcOp c [fa, fb] (fun e =>
    let len := max e.g.f[fa].n e.g.f[fb].n
    let res := match ratsOf (funcCoefs e.g fa), ratsOf (funcCoefs e.g fb) with
      | some x, some y => some ((List.range len).map (fun k => if sub then ratAt x k - ratAt y k else ratAt x k + ratAt y k))
      | _, _ => none
    if sameDomain e.g fa fb then funcResult c e fd e.g.f[fa].a e.g.f[fa].b len res
    else e.fault .domainMismatch e.act) s

/-- Coefficient k of a product: ½ Σ over i + j = k and ½ Σ over |i − j| = k. -/
def prodCoef (x y : List Rat) (k : Nat) : Rat :=
  ratSum (x.zipIdx.flatMap (fun xi => y.zipIdx.map (fun yj =>
    (if xi.2 + yj.2 = k then xi.1 * yj.1 / 2 else 0)
      + (if xi.2 = yj.2 + k ∨ yj.2 = xi.2 + k then xi.1 * yj.1 / 2 else 0))))

/-- All coefficients of a product; none of an empty series. -/
def prodSeries (x y : List Rat) : List Rat :=
  if x.isEmpty || y.isEmpty then [] else (List.range (x.length + y.length - 1)).map (prodCoef x y)

def execChmul (c : Ctl) (fd fa fb : CReg) (s : State) : Out :=
  funcOp c [fa, fb] (fun e =>
    let res := match ratsOf (funcCoefs e.g fa), ratsOf (funcCoefs e.g fb) with
      | some x, some y => some (prodSeries x y)
      | _, _ => none
    if sameDomain e.g fa fb then
      funcResult c e fd e.g.f[fa].a e.g.f[fa].b (e.g.f[fa].n + e.g.f[fb].n - 1) res
    else e.fault .domainMismatch e.act) s

/-- (b − a) of a stored domain; its ends are finite. -/
def domainWidth (r : FuncReg) : Rat := (ratOf r.b).getD 0 - (ratOf r.a).getD 0

/-- CHINT's coefficients: those from k = 1 on, then c′_0 that makes the kept series 0 at a. -/
def intSeries (q : List Rat) (w : Rat) : List Rat :=
  let rest := (List.range (min (q.length + 1) 256 - 1)).map (fun i =>
    let k := i + 1
    w / 2 * ((if k = 1 then 2 * ratAt q 0 else ratAt q (k - 1)) - ratAt q (k + 1)) / (2 * k : Nat))
  let c0 := ratSum (rest.zipIdx.map (fun x => if x.2 % 2 = 0 then x.1 else -x.1))
  c0 :: rest

def execChint (c : Ctl) (fd fa : CReg) (s : State) : Out :=
  funcOp c [fa] (fun e =>
    let r := e.g.f[fa]
    funcResult c e fd r.a r.b (min (r.n + 1) 256)
      ((ratsOf (funcCoefs e.g fa)).map (fun q => intSeries q (domainWidth r)))) s

/-- CHDER's coefficients. -/
def derSeries (q : List Rat) (w : Rat) : List Rat :=
  (List.range (max 1 (q.length - 1))).map (fun k =>
    let d := ratSum (q.zipIdx.map (fun x => if k < x.2 ∧ (x.2 - k) % 2 = 1 then (2 * x.2 : Nat) * x.1 else 0))
    2 / w * (if k = 0 then d / 2 else d))

def execChder (c : Ctl) (fd fa : CReg) (s : State) : Out :=
  funcOp c [fa] (fun e =>
    let r := e.g.f[fa]
    funcResult c e fd r.a r.b (max 1 (r.n - 1))
      ((ratsOf (funcCoefs e.g fa)).map (fun q => derSeries q (domainWidth r)))) s

/-- One line of CHCOMP, as stored words: TRUNC256(RNE(f × U ⊗ B1 − B2 + c T_0)). -/
def compLine (f : Rat) (u b1 b2 : List Rat) (ck : Rat) : List Word32 :=
  let p := prodSeries u b1
  let len := max 1 (max p.length b2.length)
  ((List.range len).map (fun k => ratTo (f * ratAt p k - ratAt b2 k + (if k = 0 then ck else 0)))).take 256

/-- The lines for k from n_f − 1 down to 1: `cs` is c_(n_f − 1), …, c_1. -/
def compLines (u : List Rat) : List Rat → List Rat → List Rat → Option (List Rat × List Rat)
  | [], b1, b2 => some (b1, b2)
  | ck :: r, b1, b2 =>
    match ratsOf (compLine 2 u b1 b2 ck) with
    | none => none
    | some b0 => compLines u r b0 b1

/-- R's coefficients, none where a coefficient of a line is not finite. -/
def compSeries (f u : List Rat) : Option (List Word32) :=
  match f with
  | [] => none
  | c0 :: rest =>
    match compLines u rest.reverse [] [] with
    | none => none
    | some (b1, b2) =>
      let r := compLine 1 u b1 b2 c0
      (ratsOf r).map (fun _ => r)

def execChcomp (c : Ctl) (fd ff fg : CReg) (s : State) : Out :=
  funcOp c [ff, fg] (fun e =>
    let rf := e.g.f[ff]
    let rg := e.g.f[fg]
    let m := ((ratOf rf.a).getD 0 + (ratOf rf.b).getD 0) / 2
    let r := domainWidth rf / 2
    match ratsOf (funcCoefs e.g fg) with
    | none => e.fault .domainMismatch e.act
    | some q =>
      if r < ratSum ((q.zipIdx.map (fun x => ratAbs (if x.2 = 0 then x.1 - m else x.1)))) then
        e.fault .domainMismatch e.act
      else
        let u := ratsOf (q.zipIdx.map (fun x => ratTo ((if x.2 = 0 then x.1 - m else x.1) / r)))
        let res := match ratsOf (funcCoefs e.g ff), u with
          | some cf, some u => compSeries cf u
          | _, _ => none
        match res with
        | none => funcPlace c e fd rg.a rg.b (List.replicate (min 256 ((rf.n - 1) * (rg.n - 1) + 1)) chNan)
        | some qs => funcPlace c e fd rg.a rg.b (trimCoefs e.g.chbTol qs)) s

/-! ## Evaluation and roots (R287, R288) -/

def w32 (x : Word64) : Word32 := x.setWidth 32
def f32Sub (x y : Word32) : Word32 := w32 (floatSub .f32 .rne (x.setWidth 64) (y.setWidth 64))
def f32Fma (x y z : Word32) : Word32 := w32 (floatFma .f32 .rne (x.setWidth 64) (y.setWidth 64) (z.setWidth 64))
def f32Value (x : Word32) : Fp := fp32.value x.toNat

/-- The Clenshaw sequence at u. -/
def clenshaw (cs : List Word32) (u : Word32) : Word32 :=
  match cs with
  | [] => 0#32
  | c0 :: rest =>
    let u2 := w32 (floatMul .f32 .rne (u.setWidth 64) 0x40000000#64)
    let (b1, b2) := rest.reverse.foldl (fun (b : Word32 × Word32) ck => (f32Sub (f32Fma u2 b.1 ck) b.2, b.1))
      (0#32, 0#32)
    f32Sub (f32Fma u b1 c0) b2

/-- A register's value at x, and whether x lies outside its domain. -/
def evalAt (r : FuncReg) (cs : List Word32) (x : Word32) : Word32 × Bool :=
  let below := match cmpFp (f32Value x) (f32Value r.a) with
    | some i => decide (i < 0)
    | none => true
  let above := match cmpFp (f32Value x) (f32Value r.b) with
    | some i => decide (0 < i)
    | none => true
  if below || above then (chNan, true)
  else
    let v := (ratOf x).getD 0
    (clenshaw cs (ratTo ((2 * v - (ratOf r.a).getD 0 - (ratOf r.b).getD 0) / domainWidth r)), false)

def execCheval (c : Ctl) (d : Dst) (fa : CReg) (x : Src) (pd : Option PReg) (s : State) : Out :=
  funcOp c [fa] (fun e =>
    let cs := funcCoefs e.g fa
    .next (e.retire c (e.perForm (d.isVec || x.isVec || pd.isSome) (fun t g =>
      let (y, out) := evalAt e.g.f[fa] cs (Operand.src32 e t x)
      let g1 := g.write .f32 d t (y.setWidth 64)
      match pd with
      | none => g1
      | some q => g1.writeP t q out)))) s

/-- The bisection of a bracket: at most `n` more steps. -/
def bisect (cs : List Word32) : Nat → Word32 → Word32 → Word32 → Word32 → Word32
  | 0, lo, hi, ylo, yhi => if (ylo &&& 0x7FFFFFFF#32).toNat ≤ (yhi &&& 0x7FFFFFFF#32).toNat then lo else hi
  | n + 1, lo, hi, ylo, yhi =>
    let last := if (ylo &&& 0x7FFFFFFF#32).toNat ≤ (yhi &&& 0x7FFFFFFF#32).toNat then lo else hi
    let mid := ratTo (((ratOf lo).getD 0 + (ratOf hi).getD 0) / 2)
    if ratOf mid = ratOf lo || ratOf mid = ratOf hi then last
    else
      let ym := clenshaw cs mid
      if (f32Value ym).isNan then last
      else if (f32Value ym).isZero then mid
      else if (f32Value ym).sign = (f32Value ylo).sign then bisect cs n mid hi ym yhi
      else bisect cs n lo mid ylo ym

/-- A node value that can begin or end a bracket. -/
def rootSide (y : Word32) : Bool := !(f32Value y).isNan && !(f32Value y).isZero

/-- The roots in u, ascending. -/
def rootsOf (cs : List Word32) : List Word32 :=
  let node (i : Nat) : Word32 := ratTo (mkRat i 32 - 1)
  (List.range 65).flatMap (fun i =>
    let t := node i
    let y := clenshaw cs t
    let t' := node (i + 1)
    let y' := clenshaw cs t'
    (if (f32Value y).isZero then [t] else [])
      ++ (if i < 64 ∧ rootSide y = true ∧ rootSide y' = true ∧ (f32Value y).sign ≠ (f32Value y').sign then
            [bisect cs 64 t t' y y'] else []))

def execChroot (c : Ctl) (vd : VDst) (sc : SDst) (fa : CReg) (s : State) : Out :=
  funcOp c [fa] (fun e =>
    let roots := rootsOf (funcCoefs e.g fa)
    let r := e.g.f[fa]
    let g1 := e.forThreads e.g (fun t g =>
      match vd with
      | .zero => g
      | .v n => g.writeV t n (match (roots.take 32)[t.val]? with
        | none => chNan
        | some z => ratTo ((ratOf r.a).getD 0 + ((ratOf z).getD 0 + 1) * domainWidth r / 2)))
    .next (e.retire c (g1.writeSD sc (BitVec.ofNat 64 roots.length)))) s

end Sys2Proof.Machine
end

