-- ==== Sys2Proof/Machine/Trap.lean ====
section
/-! DEFINITION. TRAP, BKPT, TRET, SYSRD, SYSWR, and trap entry for a fault found after issue (R410, R416 to R423). -/

namespace Sys2Proof.Machine

/-- Raise a handled fault: the entry's other threads go to the next slot first. -/
def trapWith (c : Ctl) (code : FaultCode) (reason : BitVec 8) (e : Iss) : Out :=
  if e.act = 0#32 then .next (e.retire c e.g)
  else
    let s1 := e.retireWith c e.s e.g e.act
    .next (s1.raise e.r ⟨e.pc, e.act⟩ { code := code, reason := reason, mask := e.act, pc := e.pc })

def execTrap (c : Ctl) (code : BitVec 8) (s : State) : Out := begin_ c s (trapWith c .softwareTrap code)

/-- BKPT has no effect while the context's breakpoints are disabled (R420). -/
def execBkpt (c : Ctl) (code : BitVec 8) (s : State) : Out :=
  begin_ c s (fun e =>
    match e.s.ctx e.r.key.ctx with
    | some x => if x.bkpt then trapWith c .breakpoint code e else .next (e.retire c e.g)
    | none => .next (e.retire c e.g))

def execTret (c : Ctl) (s : State) : Out :=
  begin_ c s (fun e =>
    if e.act = 0#32 then .next (e.retire c e.g)
    else if !e.g.inHandler then e.fault .trapNested e.act
    else
      let bad := maskOf (fun t => e.act.getLsbD t.val && decide ((e.g.thread t).fdep ≠ (e.g.thread t).tdep))
      if bad != 0#32 then e.fault .trapNested bad
      else if e.g.dying then
        .next ((e.retireWith c e.s e.g e.act).modBlock e.r.key (fun b => { b with status := .terminating }))
      else startRelease c e .tret [])

/-- The window of R119 in progress at a time, or the next one: its start. -/
def windowStart (now : Nat) : Nat := if now % 2000 < 1000 then now / 2000 * 2000 else now / 2000 * 2000 + 2000

/-- What SYSRD reads. -/
def sysValue (e : Iss) (ix : SysReg) : Word64 :=
  let die := e.s.die (dieOfCore e.g.core)
  let ofCtx (f : Ctx → Word64) : Word64 := match e.s.ctx e.r.key.ctx with
    | some x => f x
    | none => 0#64
  match ix with
  | .leaseDef => BitVec.ofNat 64 Config.leaseDef
  | .leaseShort => BitVec.ofNat 64 Config.leaseShort
  | .leaseLong => BitVec.ofNat 64 Config.leaseLong
  | .hzCore => BitVec.ofNat 64 e.g.hz.core
  | .hzClus => BitVec.ofNat 64 e.g.hz.clus
  | .hzDie => BitVec.ofNat 64 e.g.hz.die
  | .hzDev => BitVec.ofNat 64 e.g.hz.dev
  | .chbTol => e.g.chbTol.setWidth 64
  | .chbPoolFree => BitVec.ofNat 64 ((poolFree e.g).1 * 16 * 65536 + (poolFree e.g).2 * 16)
  | .wswin => BitVec.ofNat 64 (windowStart (e.s.nowAt e.g.core))
  | .wslen => BitVec.ofNat 64 (windowStart (e.s.nowAt e.g.core) % 32000 / 2000 * 65536 + 1000)
  | .trapBase => e.g.trapBase
  | .trapCause => e.g.trapCause
  | .trapPc => e.g.trapPc
  | .trapMask => e.g.trapMask
  | .trapAddr => e.g.trapAddr
  | .recDepart => ofCtx (fun x => x.recDepart.setWidth 64)
  | .cntLocal => die.cntLocal
  | .cntRemoteOut => die.cntRemoteOut
  | .cntRemoteIn => die.cntRemoteIn
  | .cntCxl => die.cntCxl
  | .cmapBase => ofCtx Ctx.cmapBase
  | .wdogTicks => ofCtx Ctx.wdog

def execSysrd (c : Ctl) (d : SDst) (ix : SysReg) (s : State) : Out :=
  begin_ c s (fun e =>
    if e.act = 0#32 then .next (e.retire c e.g)
    else .next (e.retire c (e.g.write .b64 (sdst d) 0 (sysValue e ix))))

/-- SYSWR's effect; only three registers are written (R420). -/
def Group.sysWrite (g : Group) (ix : SysReg) (x : Word64) : Group :=
  match ix with
  | .chbTol => { g with chbTol := x.setWidth 32 }
  | .trapBase => { g with trapBase := x }
  | .trapPc => if g.inHandler then { g with trapPc := x } else g
  | _ => g

def execSyswr (c : Ctl) (ix : SysReg) (a : SDst) (s : State) : Out :=
  begin_ c s (fun e =>
    if e.act = 0#32 then .next (e.retire c e.g)
    else .next (e.retire c (e.g.sysWrite ix (Operand.sdst e a))))

/-- TRAP_ENTRY: a fault found after issue is taken at the group's next instruction boundary. -/
def execTrapEntry (r : GroupRef) (s : State) : Out :=
  match s.group r with
  | none => .next s
  | some g =>
    match g.pendingTrap with
    | none => .next s
    | some info =>
      if g.midway then .next s
      else .next ((s.setGroup r { g with pendingTrap := none }).raise r ⟨info.pc, info.mask⟩ info)

end Sys2Proof.Machine
end

