-- ==== Sys2Proof/Machine/Retire.lean ====
section
/-! DEFINITION. The ends of groups and blocks: exit, retirement, termination, the watchdog (R137, R313, R324, R354, R364,
R414, R415, R424, R425). -/

namespace Sys2Proof.Machine

/-! ## What a block leaves behind -/

def State.groupsOf (s : State) (k : BlockKey) : List (GroupRef × Group) := s.groups.filter (fun x => decide (x.1.key = k))

/-- The copy commands of a block: core, slot, command. -/
def State.copiesOf (s : State) (k : BlockKey) : List (Nat × Nat × CopyCmd) :=
  match s.block k with
  | none => []
  | some b => b.cores.flatMap (fun c => ((s.core c).slots.filter (fun x => decide (x.2.g.key = k))).map (fun x => (c, x.1, x.2)))

/-- The matrix entries of a block. -/
def State.entriesOf (s : State) (k : BlockKey) : List Request :=
  match s.block k with
  | none => []
  | some b => ((s.table b.cluster).filter (fun x => decide (x.1 = k))).map Prod.snd

/-- Reads whose line goes to the command with a number in a slot. -/
def ReadReq.isFor (r : ReadReq) (core slot cmd : Nat) : Bool :=
  match r.tgt with
  | .copy c k n _ => c == core && k == slot && n == cmd
  | _ => false
def Member.isFor (m : Member) (core slot cmd : Nat) : Bool := m.core == core && m.slot == slot && m.cmd == cmd

/-- Messages that carry a line, or its request, for a command. -/
def Body.isFor (b : Body) (core slot cmd : Nat) : Bool :=
  match b with
  | .read r _ | .host r => r.isFor core slot cmd
  | .loadResp _ _ _ _ _ _ _ (.copy c k n _) => c == core && k == slot && n == cmd
  | .mcast r => r.member.isFor core slot cmd
  | .mcastLand m _ _ => m.isFor core slot cmd
  | _ => false

/-- Whether a line, or its request, is on its way to a command: one that no withdrawal holds back (R150). -/
def State.lineComing (s : State) (core slot cmd : Nat) : Bool :=
  s.net.any (fun m => m.body.isFor core slot cmd) || s.mcastWait.any (fun r => r.member.isFor core slot cmd) ||
  s.ports.any (fun p => p.2.outstanding.any (fun o => o.2.body.isFor core slot cmd)) ||
  s.misses.any (fun m => m.2.held.any (fun q => match q with
    | .read r => r.isFor core slot cmd
    | _ => false)) ||
  s.gateways.any (fun g => g.2.waiting.any (fun r => r.isFor core slot cmd))

/-- The grants of a context in a core's cache go home (R354). One that a saved thread holds stays that thread's at the
home (R362). -/
def State.returnGrants (s : State) (core ctx : Nat) (p : GrantEntry → Bool) : State :=
  ((s.core core).grants.filter (fun e => e.1.1 == ctx && p e.2)).foldl (fun s e =>
    let s1 := s.delGrant core ctx e.1.2
    match e.2.user with
    | none => s1.send ⟨.monitor, portCore core, monPort ctx e.1.2⟩ (.grantReturn ctx e.1.2 core e.2.g)
    | some t =>
      let x := s1.monitor ctx e.1.2
      s1.putMonitor ctx e.1.2 { x with own := .thread { t := t, unit := bitOf t.tid, lset := e.2.lset }, g := max x.g e.2.g }) s

/-- A block leaves its cores: its groups, granules, barriers, pools, tile registers and entries are free; errors found in
them are gone with them; the context's grants go home where it was the last. -/
def State.freeBlock (s : State) (k : BlockKey) : State :=
  match s.block k with
  | none => s
  | some b =>
    let s1 := { s with
      groups := s.groups.filter (fun x => decide (x.1.key ≠ k))
      blocks := tblDel s.blocks k
      poison := s.poison.filter (fun p => match p with
        | .byte _ => true
        | .pool g _ => decide (g.key ≠ k)
        | .barrier x _ _ => decide (x ≠ k)) }
    let s2 := s1.modCluster b.cluster (fun c => { c with
      tiles := c.tiles.filter (fun x => decide (x.1.1 ≠ k))
      table := c.table.filter (fun x => decide (x.1 ≠ k)) })
    let s3 := b.cores.foldl (fun s c =>
      let s4 := s.modCore c (fun x => { x with slots := x.slots.filter (fun y => decide (y.2.g.key ≠ k)) })
      if s4.blocks.any (fun x => x.1.ctx == k.ctx && x.2.cores.contains c) then s4 else s4.returnGrants c k.ctx (fun _ => true)) s2
    let die := dieOfCore ((b.cores[0]?).getD 0)
    if s3.blocks.any (fun x => x.2.cores.any (fun c => dieOfCore c == die)) then s3
    else s3.modDie die (fun d => { d with emptySince := s.now })

/-- A block counts as retired for its launch (R396, R415). -/
def State.countRetired (s : State) (launch blk : Nat) : State :=
  (s.modLaunch launch (fun l => { l with retired := l.retired + 1, lastBlk := blk })).launchEnd launch

/-- The gang of a block, if any, ends for all four. -/
def State.endGang (s : State) (k : BlockKey) (b : Block) : State :=
  match b.gang with
  | none => s
  | some (n, _) => { s with gangs := tblDel s.gangs (gangKey k n) }

/-! ## Exit of a group (R137, R313) -/

/-- Drain what a group wrote, each entry for the threads that wrote into it. -/
def State.exitDrain (s : State) (r : GroupRef) (g : Group) : State :=
  ((s.core g.core).buffer.filter (fun b => b.writers.contains r)).foldl (fun s b =>
    s.drainEntry g.core b ⟨r, (g.thread 0).pc, maskOf (fun t => b.threads.contains ⟨r, t⟩)⟩) s

/-- The last group of a block has exited: a joint entry short of posts is withdrawn and the block terminated; else its
weight goes home. -/
def State.lastExit (s : State) (k : BlockKey) (b : Block) : State :=
  match (s.entriesOf k).filter (fun r => decide (r.posts < r.need)) with
  | r :: rs =>
    let s1 := s.modCluster b.cluster (fun c => { c with
      table := c.table.filter (fun x => !(r :: rs).any (fun y => y.id == x.2.id)) })
    s1.fatal r.first { code := .tileShape, mask := r.act, pc := r.pc }
  | [] => (s.modBlock k (fun b => { b with weight := 0 })).returnWeight b.phase b.weight

/-- GROUP_EXIT_RELEASE: the release of a group whose threads have all exited, then its resources. The last group of a
block waits for every command (R227). -/
def execGroupExitRelease (r : GroupRef) (s : State) : Out :=
  match s.group r, s.block r.key with
  | some g, some b =>
    if g.alive != 0#32 || g.leaving || g.pendingTrap.isSome then .next s
    else
      let s1 := s.exitDrain r g
      match s1.group r with
      | none => .next s1
      | some g1 =>
        let last := (s1.groupsOf r.key).all (fun x => decide (x.1 = r) || x.2.leaving)
        if last && !(s1.copiesOf r.key).isEmpty then .next s1
        else if !(fenceOps g1 .rel .sys).isEmpty || decide (s1.nowAt g.core < fenceTime g1 .rel .sys) || g1.pendingTrap.isSome then
          .next s1
        else
          let s2 := s1.setGroup r { g1 with leaving := true, pool := [], holds := [], savedHolds := [] }
          .next (if (s2.groupsOf r.key).all (fun x => x.2.leaving) then s2.lastExit r.key b else s2)
  | _, _ => .next s

/-! ## Retirement (R137, R324) -/

/-- Whether a block may retire: every group has gone, nothing that it issued is outstanding, its times have passed. -/
def State.retirable (s : State) (k : BlockKey) (b : Block) : Bool :=
  (match b.status with
   | .running | .stopping => true
   | _ => false) &&
  (s.groupsOf k).all (fun x => x.2.leaving) && (s.copiesOf k).isEmpty && (s.entriesOf k).isEmpty &&
  decide (b.hz.dev ≤ s.now)

def execBlockRetirement (k : BlockKey) (s : State) : Out :=
  match s.block k with
  | none => .next s
  | some b =>
    if !s.retirable k b then .next s
    else .next (((s.endGang k b).freeBlock k).countRetired b.launch k.blk)

/-! ## Termination (R364, R414, R415) -/

/-- Take a block's threads out of every queue: colour requests, wait sets, parked pops. -/
def State.removeWaits (s : State) (k : BlockKey) : State :=
  let mine (t : ThreadRef) : Bool := decide (t.g.key = k)
  let s1 : State := { s with
    net := (s.net.filter (fun m => match m.body with
      | .acquire _ _ w => !mine w.t
      | _ => true)).map (fun m => match m.body with
      | .monRelease ctx c core t hzc (some w) =>
        if mine w.t then { m with body := .monRelease ctx c core t hzc none } else m
      | _ => m)
    queues := s.queues.map (fun q => (q.1, { q.2 with poppers := q.2.poppers.filter (fun p => !mine p.1) })) }
  (s1.monitors.filter (fun m => (m.2.acq ++ m.2.wset).any (fun w => mine w.t))).foldl (fun s m =>
    s.putMonitor m.1.1 m.1.2 { m.2 with
      acq := m.2.acq.filter (fun w => !mine w.t), wset := m.2.wset.filter (fun w => !mine w.t) }) s1

/-- A DEFERRED_WRITE raised in a terminating block: a record, and nothing else. -/
def State.quietFaults (s : State) (k : BlockKey) : State :=
  (s.groupsOf k).foldl (fun s x =>
    match x.2.pendingTrap with
    | none => s
    | some info =>
      let s1 := if info.code = .deferredWrite then s.record x.1 .fatal info else s
      s1.modGroup x.1 (fun g => { g with pendingTrap := none })) s

/-- Drain every buffer entry that a block's groups wrote: for its termination, or for pre-emption, which interrupts each
group at its most urgent entry (R410). -/
def State.blockDrain (s : State) (k : BlockKey) (quiet : Bool) : State :=
  (s.groupsOf k).foldl (fun s x =>
    ((s.core x.2.core).buffer.filter (fun b => b.writers.contains x.1)).foldl (fun s b =>
      let d : Drainer := match quiet, (s.block k).map x.2.frontier with
        | false, some (e :: _) => ⟨x.1, e.pc, e.mask⟩
        | _, _ => ⟨x.1, b.lastPc, b.lastAct⟩
      let s1 := s.drainEntry x.2.core b d
      if quiet then s1.quietFaults k else s1) s) s

/-- The other members of a gang are terminated with a terminated one. -/
def State.endMembers (s : State) (k : BlockKey) (b : Block) : State :=
  match b.gang with
  | none => s
  | some (n, q) =>
    s.blocks.foldl (fun s x =>
      if x.1.ctx == k.ctx && x.1.lnch == k.lnch && decide (x.2.gang ≠ some (n, q)) && (x.2.gang.map Prod.fst) == some n &&
          x.2.latch.isNone then
        let info : FaultInfo := { code := .peerGone }
        (s.record ⟨x.1, 0⟩ .discardedMember info).modBlock x.1 (fun y => { y with
          latch := some (0, info), status := .terminating })
      else s) s

/-- Release every colour that a block's threads hold, where the device's waits for it are over; whether none is left. -/
def State.releaseBlock (s : State) (k : BlockKey) : Bool × State :=
  (s.groupsOf k).foldl (fun (acc : Bool × State) x =>
    (List.finRange 32).foldl (fun (acc : Bool × State) t =>
      match acc.2.group x.1 with
      | none => acc
      | some g =>
        if (g.thread t).held.isEmpty then acc
        else if acc.2.releaseReady x.1 g t (RelOp.exit.ofSet g t) then (acc.1, acc.2.releaseSet x.1 .exit t none)
        else (false, acc.2)) acc) (true, s)

/-- TERMINATION: waits end, commands and entries end, operations complete, colours are released, and then everything
is free and the block counts as retired. It takes as many steps as what is outstanding needs. -/
def execTermination (k : BlockKey) (s : State) : Out :=
  match s.block k with
  | none => .next s
  | some b =>
    if b.status ≠ .terminating then .next s
    else
      let s1 := ((s.removeWaits k).endMembers k b).quietFaults k
      let s2 := s1.blockDrain k true
      let s3 := (s2.copiesOf k).foldl (fun s x =>
        if x.2.2.isMcld then
          let s1 := s.withdrawMcast x.1 x.2.1
          if s1.lineComing x.1 x.2.1 x.2.2.op then s1 else s1.endCopy x.1 x.2.1 x.2.2
        else s.finishCancel x.1 x.2.1 x.2.2 false) s2
      let s4 := s3.modCluster b.cluster (fun c => { c with
        table := c.table.filter (fun x => decide (x.1 ≠ k) || x.2.phase != .queued) })
      let busy := !(s4.copiesOf k).isEmpty || !(s4.entriesOf k).isEmpty ||
        (s4.groupsOf k).any (fun x => x.2.ops.any (fun o => o.cls == .ld || o.cls == .st))
      if busy then .next s4
      else
        let s5 : State := { s4 with groups := s4.groups.map (fun (x : GroupRef × Group) =>
          if x.1.key = k then (x.1, { x.2 with ops := [] }) else x) }
        let (free, s6) := s5.releaseBlock k
        if !free then .next s6
        else .next ((((s6.endGang k b).freeBlock k).returnWeight b.phase b.weight).countRetired b.launch k.blk)

/-- A saved block ends: its waits, its weight, its place in its launch (R456). Its colours are released. -/
def State.endSaved (s : State) (k : BlockKey) : State :=
  match tblGet s.saved k with
  | none => s
  | some v =>
    let s1 := v.groups.foldl (fun (s : State) (g : Nat × Group) =>
      let hs := (List.finRange 32).flatMap (fun t => (g.2.thread t).held)
      ((hs.map (fun h => (h.colour, h.owner))).dedup).foldl (fun s c =>
        let hzc := (hs.filter (fun h => h.colour == c.1)).foldl (fun m h => max m h.hzc) 0
        -- from no core: it stays cached at none
        s.send ⟨.monitor, monPort k.ctx c.1, monPort k.ctx c.1⟩ (.monRelease k.ctx c.1 768 ⟨⟨k, g.1⟩, c.2⟩ hzc none)) s)
      (s.removeWaits k)
    (({ s1 with saved := tblDel s1.saved k }.endGang k v.block).returnWeight v.block.phase v.block.weight).countRetired
      v.block.launch k.blk

/-- DYING_TIMEOUT. -/
def execDyingTimeout (k : BlockKey) (s : State) : Out :=
  match s.block k with
  | none => .next s
  | some b => match b.status with
    | .dying since =>
      if since + Config.dyingTicks ≤ s.now then .next (s.modBlock k (fun b => { b with status := .terminating })) else .next s
    | _ => .next s

/-! ## The watchdog (R424, R425) -/

/-- A thread waits with a deadline: in SLEEP, or in MWAIT while it stands in the wait set, or its release is on its way there,
and the deadline has not passed (R365). -/
def State.waitsUntil (s : State) (r : GroupRef) (g : Group) (t : Tid) : Bool :=
  let th := g.thread t
  match th.status, th.deadline with
  | .parked (.sleep _), d => d.isSome
  | .parked (.mwait c _ _ _), some d =>
    let who : ThreadRef := ⟨r, (maskTids (g.waitSet t)).headD t⟩
    decide (s.now < d) && ((s.monitor r.key.ctx c).wset.any (fun w => w.t == who) || s.net.any (fun m => match m.body with
      | .monRelease _ _ _ _ _ (some w) => w.t == who
      | _ => false))
  | _, _ => false

/-- What holds a context's count at 0. -/
def State.wdogHeld (s : State) (ctx : Nat) : Bool :=
  let gs := s.groups.filter (fun g => g.1.key.ctx == ctx)
  !s.blocks.any (fun b => b.1.ctx == ctx) ||
  gs.any (fun g => g.2.onPage) ||
  s.cores.any (fun c => c.2.slots.any (fun x => x.2.g.key.ctx == ctx && (match x.2.state with
    | .parked _ _ => true
    | _ => false))) ||
  gs.any (fun g => (List.finRange 32).any (fun t => match (g.2.thread t).status with
    | .parked (.qpop q _ _) => (s.queue ctx q).ext
    | _ => s.waitsUntil g.1 g.2 t)) ||
  gs.any (fun g => g.2.ops.any Op.ext || (g.2.holds ++ g.2.savedHolds).any (fun h => match h.kind with
    | .fence f | .before f | .after f => f.scope == .sys
    | _ => false)) ||
  s.cores.any (fun c => c.2.slots.any (fun x => x.2.g.key.ctx == ctx && x.2.outside)) ||
  s.clusters.any (fun c => c.2.table.any (fun x => x.1.ctx == ctx && x.2.leaves.any (fun l => l.place == 6))) ||
  s.blocks.any (fun b => b.1.ctx == ctx && b.2.status == .stopping) ||
  s.saved.any (fun v => v.1.ctx == ctx && v.2.resuming)

/-- The counts that are held stand at 0 now. -/
def State.tickWatchdogs (s : State) : State :=
  { s with ctxs := s.ctxs.map (fun c => if s.wdogHeld c.1 then (c.1, { c.2 with wdogFrom := s.now }) else c) }

/-- The instruction of a thread in an internal wait, and since when it waits. -/
def State.internalWait (s : State) (r : GroupRef) (g : Group) (t : Tid) : Option (Word64 × Nat) :=
  let th := g.thread t
  match th.status with
  | .parked (.barrier _ _ _) => some (prevSlot th.pc, th.since)
  | .parked (.colour _) => some (th.pc, th.since)
  | .parked (.mwait _ _ _ _) | .parked (.sleep _) => if s.waitsUntil r g t then none else some (prevSlot th.pc, th.since)
  | .parked (.qpop q _ _) => if (s.queue r.key.ctx q).ext then none else some (prevSlot th.pc, th.since)
  | .parked .tretJoin => some (th.pc, th.since)
  | _ => none

/-- Entries of a block that wait for posts, for a full barrier or for gang members. -/
def State.waitingEntries (s : State) (k : BlockKey) : List Request :=
  (s.entriesOf k).filter (fun r => decide (r.posts < r.need) || !s.gangReady k r)

/-- A thread held in WAIT or TWAIT behind an entry in an internal wait. -/
def State.heldBehind (s : State) (r : GroupRef) (g : Group) (t : Tid) : Option Word64 :=
  if (s.entriesOf r.key).any (fun x => decide (x.posts < x.need) || !s.gangReady r.key x || !s.fullReady r.key x) then
    (g.holds.find? (fun h => h.mask.getLsbD t.val && (match h.kind with
      | .counters _ _ _ _ | .ops _ => true
      | _ => false))).map Hold.pc
  else none

/-- The fault of a block that the watchdog ends: the group whose wait began earliest, or the first post of an entry. -/
def State.wdogFault (s : State) (k : BlockKey) : Option (GroupRef × FaultInfo) :=
  let waits := (s.groupsOf k).flatMap (fun x => (List.finRange 32).filterMap (fun t =>
    match s.internalWait x.1 x.2 t, s.heldBehind x.1 x.2 t with
    | some (pc, n), _ => some (x.1, pc, n)
    | none, some pc => some (x.1, pc, s.now)
    | none, none => none))
  match waits.foldl (fun (acc : Option (GroupRef × Word64 × Nat)) x => match acc with
    | none => some x
    | some y => if x.2.2 < y.2.2 then some x else acc) none with
  | some (r, pc, _) =>
    let m := match s.group r with
      | none => 0#32
      | some g => maskOf (fun t => (s.internalWait r g t).map Prod.fst == some pc || s.heldBehind r g t == some pc)
    some (r, { code := .watchdog, mask := m, pc := pc })
  | none =>
    match s.waitingEntries k with
    | [] => none
    | x :: _ => some (x.first, { code := .watchdog, mask := x.act, pc := x.pc })

def State.wdogLimit (c : Ctx) : Nat := if c.wdog = 0#64 then Config.wdogDefault else c.wdog.toNat

/-- WATCHDOG. -/
def execWatchdog (ctx : Nat) (s : State) : Out :=
  match s.ctx ctx with
  | none => .next s
  | some c =>
    if s.wdogHeld ctx || decide (s.now < c.wdogFrom + State.wdogLimit c) then .next s
    else
      let s1 := s.modCtx ctx (fun c => { c with wdogFrom := s.now })
      .next ((s.blocks.filter (fun b => b.1.ctx == ctx)).foldl (fun s2 b =>
        match s.wdogFault b.1 with
        | none => s2
        | some (r, info) => s2.fatal r info) s1)

end Sys2Proof.Machine
end

