-- ==== Sys2Proof/Machine/Place.lean ====
section
/-! DEFINITION. Pre-emption, the Dugout, resumption, and the distributors (R314, R315, R396 to R398, R426 to R434). -/

namespace Sys2Proof.Machine

/-! ## Stopping (R426, R427) -/

/-- Stop running blocks that satisfy a test, and with a gang member the other three (R314). -/
def State.stopBlocks (s : State) (p : BlockKey → Block → Bool) : State :=
  let named := s.blocks.filter (fun b => b.2.status == .running && p b.1 b.2)
  let hit (k : BlockKey) (b : Block) : Bool := named.any (fun x => decide (x.1 = k) ||
    (x.1.ctx == k.ctx && x.1.lnch == k.lnch && b.gang.isSome && (x.2.gang.map Prod.fst) == b.gang.map Prod.fst))
  { s with blocks := s.blocks.map (fun b =>
      if b.2.status == .running && hit b.1 b.2 then (b.1, { b.2 with status := .stopping }) else b) }

/-- Requests whose groups wait for them and that have not been granted: they are withdrawn, and their instructions issue
again on resumption. -/
def ReqKind.waited : ReqKind → Bool
  | .tld _ | .tst _ | .tzero _ | .tcvt _ _ _ => true
  | _ => false

def State.withdrawWaited (s : State) (k : BlockKey) : State :=
  match s.block k with
  | none => s
  | some b =>
    let out := (s.entriesOf k).filter (fun r => r.kind.waited && r.phase == .queued)
    let ops := out.flatMap (fun r => r.posters.map Prod.snd)
    let s1 := s.modCluster b.cluster (fun c => { c with
      table := c.table.filter (fun x => !out.any (fun r => r.id == x.2.id)) })
    let keep (h : Hold) : Bool := match h.kind with
      | .ops ids => !ids.any (fun i => ops.contains i)
      | _ => true
    { s1 with groups := s1.groups.map (fun x =>
        if x.1.key = k then
          (x.1, { x.2 with
            ops := x.2.ops.filter (fun o => !ops.contains o.id)
            holds := x.2.holds.filter keep
            savedHolds := x.2.savedHolds.filter keep })
        else x) }

/-- A hold that finishes before the block is saved: its instruction has had its effect, or a part of it. -/
def HoldKind.finishes : HoldKind → Bool
  | .release _ _ _ _ | .region _ | .query _ _ | .after _ | .arrive _ _ _ _ _ => true
  | _ => false

/-- Whether a stopping block is quiet. -/
def State.quiet (s : State) (k : BlockKey) : Bool :=
  (s.groupsOf k).all (fun x =>
    let g := x.2
    !g.ops.any (fun o => o.cls != .cp && o.cls != .tl) && !(g.holds ++ g.savedHolds).any (fun h => h.kind.finishes) &&
    g.pendObs.isEmpty && g.pendingTrap.isNone && (g.alive != 0#32 || g.leaving || !(s.copiesOf k).isEmpty)) &&
  (s.copiesOf k).all (fun x => x.2.2.still && x.2.2.state != .cancelling && !s.lineComing x.1 x.2.1 x.2.2.op) &&
  (s.entriesOf k).all (fun r => r.phase == .queued && !s.gangLags k r) &&
  !((s.groupsOf k).all (fun x => x.2.leaving) && (s.copiesOf k).isEmpty && (s.entriesOf k).isEmpty)

/-! ## Saving (R428 to R433) -/

/-- A group as it is saved: waits that finish are over, the others issue again. -/
def Group.forSave (g : Group) : Group :=
  { g with holds := [], savedHolds := [], fills := [], stallUntil := 0, passOver := none, mustPass := false, waitFrom := none }

/-- What the Dugout holds of a quiet block. -/
def State.savedOf (s : State) (k : BlockKey) (b : Block) : Saved :=
  let cl := b.cluster
  { block := b
    groups := (s.groupsOf k).map (fun x => (x.1.grp, x.2.forSave))
    tiles := ((s.cluster cl).tiles.filter (fun x => decide (x.1.1 = k) && x.2.shaped)).map (fun x =>
      (x.1.2, x.2, s.tileBytes cl x.2))
    requests := (s.entriesOf k).map (fun r => { r with since := none })
    commands := (s.copiesOf k).map (fun x => { x.2.2 with todo := [], got := [] })
    shares := (List.range b.cores.length).map (fun slot => s.spRead b slot 0 b.share)
    resuming := false
    die := match (tblGet s.launches b.launch).map Launch.origin with
      | some (.device d) => d
      | _ => (match b.gang with
        | some (n, _) => n % 4
        | none => k.blk % 4)
    at_ := 0
    size := 0
    events := []
    mates := (s.blocks.filter (fun x => x.1.ctx == k.ctx && decide (x.1 ≠ k) && x.2.cluster == cl)).map Prod.fst }

/-- A block saved for a pre-emption command under way is one of its results (R440). -/
def State.countSaved (s : State) (k : BlockKey) : State :=
  match s.mbx.busy with
  | some (cmd, args) =>
    if (cmd.setWidth 16).toNat = 0x30 ∧ (((args[0]?).getD 0#64).setWidth 16).toNat = k.ctx then
      { s with mbx := { s.mbx with saved := s.mbx.saved + 1 } }
    else s
  | none => s

/-- DUGOUT_WRITE: the block quiesces; once it is quiet its record is written and its resources are free. -/
def execDugoutWrite (k : BlockKey) (s : State) : Out :=
  match s.block k with
  | none => .next s
  | some b =>
    if b.status ≠ .stopping then .next s
    else
      let s1 := (s.groupsOf k).foldl (fun s x => s.settle x.1) s
      let s2 := s1.blockDrain k false
      let s3 := (s2.groupsOf k).foldl (fun s x => (s.fenceStart x.1 .acq .dev ⟨x.1, 0#64, x.2.running⟩).2) s2
      let s4 := (s3.copiesOf k).foldl (fun s x => if x.2.2.isMcld then s.withdrawMcast x.1 x.2.1 else s) s3
      let s5 := s4.withdrawWaited k
      match s5.block k with
      | none => .next s5
      | some b1 =>
        if b1.status ≠ .stopping || !s5.quiet k then .next s5
        else
          let v := s5.savedOf k b1
          let size := (v.record k).length
          let v1 := { v with at_ := s5.dugoutPlace k.ctx size, size := size }
          let used (e : GrantEntry) : Bool := match e.user with
            | some t => decide (t.g.key = k)
            | none => false
          let s6 := b1.cores.foldl (fun s c => s.returnGrants c k.ctx used) s5
          let s7 := (s6.freeBlock k).putSaved k v1
          .next (s7.countSaved k)

/-! ## Resumption (R181, R315, R434) -/

/-- The lines of an MCLD that have not landed are requested again, alone (R150). -/
def State.remcast (s : State) (core slot : Nat) (x : CopyCmd) : State :=
  if x.isMcld then
    s.sendMcld core slot { x with todo := ((List.range x.units).filter (fun j => !x.landed.contains j)).map (fun j => (j, none)) }
  else s

/-- Put the tiles of a saved block into an engine's file, each first fit; none where they do not fit. -/
def State.putTiles (cl : Nat) (k : BlockKey) : List (Nat × TileReg × List Byte) → State → Option State
  | [], s => some s
  | (n, x, bs) :: r, s =>
    match freeRun ((s.cluster cl).tiles.map Prod.snd) x.ng with
    | none => none
    | some base =>
      let y := { x with base := base }
      State.putTiles cl k r ((s.modCluster cl (fun c => { c with tiles := tblPut c.tiles (k, n) y })).fillTile cl y bs)

/-- Put a saved block's commands into free slots; none where there are not enough. -/
def State.putCommands (s : State) (b : Block) (gs : List (Nat × Group)) : List CopyCmd → Option State
  | [] => some s
  | x :: r =>
    let core := ((tblGet gs x.g.grp).bind (fun g => b.cores[g.slot]?)).getD 0
    match s.freeSlot core with
    | none => none
    | some slot =>
      let y := { x with state := .running }
      State.putCommands ((s.putSlot core slot y).remcast core slot y) b gs r

/-- Restore a saved block in a cluster. -/
def State.restoreIn (s : State) (k : BlockKey) (v : Saved) (cl : Nat) : Option State :=
  if Config.tableEntries < (s.table cl).length + v.requests.length then none
  else match s.seatIn v.block.lr cl with
    | none => none
    | some (cores, shares) =>
      let lr := v.block.lr
      let b := { v.block with cores := cores, shares := shares.map Share.base, status := .running, latch := none }
      let s1 := (cores.zip shares).foldl (fun (s : State) (x : Nat × Share) =>
        let s1 := s.zeroGranules x.1 x.2.base (granules b.share)
        x.2.groups.foldl (fun (s : State) g => s.zeroGranules x.1 g.pool lr.poolGranules) s1) s
      let s2 := v.shares.zipIdx.foldl (fun s x => s.spWrite b x.2 0 x.1) s1
      match State.putTiles cl k v.tiles s2 with
      | none => none
      | some s3 =>
        let seat (n : Nat) : Option GroupSeat := shares.findSome? (fun x => x.groups.find? (fun g => g.grp == n))
        let groups : List (GroupRef × Group) := v.groups.map (fun x =>
          let g := x.2
          let core := (cores[g.slot]?).getD 0
          ((⟨k, x.1⟩ : GroupRef), match seat x.1 with
            | some p => { g with core := core, lane := p.lane, poolBase := p.pool, resident := s.nextId
                                 parked := g.parked.map (fun p => { p with resolved := true }) }
            | none => { g with core := core }))
        let s4 := ({ s3 with
          groups := groups.foldl (fun t (x : GroupRef × Group) => tblPut t x.1 x.2) s3.groups
          blocks := tblPut s3.blocks k b
          saved := tblDel s3.saved k
          nextId := s3.nextId + 1 }).modCluster cl (fun c => { c with table := c.table ++ v.requests.map (fun r => (k, r)) })
        -- a colour granted to a saved thread: its core's copies of the colour's lines are used no more (R351)
        let s5 := v.events.foldl (fun s x =>
          let core := ((tblGet v.groups x.1).bind (fun g => cores[g.slot]?)).getD 0
          match x.2.2.1 with
          | .colour c | .mwait c _ _ _ => s.endColour core c
          | _ => s) s4
        (State.putCommands s5 b v.groups v.commands).map (fun s6 => cores.foldl State.trimL1 s6)

/-- Blocks that resume together: those that shared a cluster, and gang members. -/
def State.together (s : State) (keys : List BlockKey) : Nat → List BlockKey
  | 0 => keys
  | n + 1 =>
    let joins (k : BlockKey) (v : Saved) (j : BlockKey) (w : Saved) : Bool :=
      v.mates.contains j || w.mates.contains k ||
        (k.ctx == j.ctx && k.lnch == j.lnch && v.block.gang.isSome && (v.block.gang.map Prod.fst) == w.block.gang.map Prod.fst)
    let more := (s.saved.filter (fun x => x.2.resuming && keys.any (fun k => match tblGet s.saved k with
      | some v => joins k v x.1 x.2
      | none => false))).map Prod.fst
    State.together s (keys ++ more).dedup n

/-- Restore blocks, those of each old cluster in one new one, the lowest that takes them all. -/
def State.restoreClusters (die : Nat) : List (List (BlockKey × Saved)) → List Nat → State → Option State
  | [], _, s => some s
  | bs :: rest, used, s =>
    let tryIn (cl : Nat) : Option (Nat × State) :=
      if used.contains cl then none
      else (bs.foldl (fun (acc : Option State) x => acc.bind (fun s => s.restoreIn x.1 x.2 cl)) (some s)).map
        (fun s => (cl, s))
    match ((List.range 48).map (fun k => die * 48 + k)).findSome? tryIn with
    | none => none
    | some (cl, s1) => State.restoreClusters die rest (cl :: used) s1

/-- Restore the first blocks that a distributor has to resume, on cores of a die. -/
def State.restoreNext (s : State) (owner die : Nat) : Option State :=
  match s.saved.find? (fun x => x.2.resuming && x.2.die == owner) with
  | none => none
  | some (k, _) =>
    let keys := State.together s [k] s.saved.length
    let vs := s.saved.filter (fun x => keys.contains x.1)
    let cls := sortBy (fun (x y : Nat) => decide (x ≤ y)) ((vs.map (fun x => x.2.block.cluster)).eraseDups)
    State.restoreClusters die (cls.map (fun c => vs.filter (fun x => x.2.block.cluster == c))) [] s

def State.resumes (s : State) (die : Nat) : Bool := s.saved.any (fun x => x.2.resuming && x.2.die == die)

/-! ## Distributors (R397, R398, R408) -/

/-- The grids to be placed at once that are available and that a die owns the first block of, in launch order. -/
def State.gridsOf (s : State) (die : Nat) : List (Nat × Launch) :=
  s.launches.filter (fun x => x.2.lr.co && s.available x.2 && x.2.placed == 0 && x.2.owner 0 == die)

/-- A grid that is placed at once waits for room: an idle die of any number may be what it needs (R391, R398). -/
def State.gridWaits (s : State) : Bool := s.launches.any (fun x => x.2.lr.co && s.available x.2 && x.2.placed == 0)

/-- BLOCK_PLACEMENT: a die that is idle leaves that state; else resumed blocks come first, then the first grid placed at once
that fits, then the distributor's next unit. -/
def execBlockPlacement (die : Nat) (s0 : State) : Out :=
  let s := s0.tagAll
  if (s.die die).idle then
    if s.resumes die || s.gridWaits || (s.pick die false).isSome then
      .next (s.modDie die (fun d => { d with idle := false, coresOn := 0, enginesOn := 0, lastEnable := s.now
                                             lastEngine := s.now, emptySince := s.now }))
    else .next s
  else if s.resumes die then .next ((s.restoreNext die die).getD s)
  else
    match (s.gridsOf die).findSome? (fun x => State.putGrid x.1 x.2 x.2.units 0 s) with
    | some s1 => .next s1
    | none =>
      match s.pick die false with
      | none => .next s
      | some (id, l, u) =>
        match s.seats l.lr die with
        | none => .next s
        | some x => .next (s.putUnit id l u die x)

/-- Whether a distributor has a unit of its own that can be placed. -/
def State.placeable (s : State) (die : Nat) : Bool :=
  (s.resumes die && (s.restoreNext die die).isSome) ||
  (match s.pick die false with
   | none => false
   | some (_, l, _) => (s.seats l.lr die).isSome)

/-- STEAL: a distributor with nothing of its own to place takes the oldest unit of another that fits its cores. -/
def execSteal (die : Nat) (s0 : State) : Out :=
  let s := s0.tagAll
  if s.placeable die then .next s
  else
    .next (([1, 2, 3].findSome? (fun k =>
      let v := (die + k) % 4
      if s.resumes v then s.restoreNext v die
      else match s.pick v true with
        | none => none
        | some (id, l, u) => (s.seats l.lr die).map (s.putUnit id l u v))).getD s)

/-! ## Preamble (R118, R396) -/

/-- Bytes of a context's range of the weight stores, written by firmware: an address outside is not written. -/
def State.preambleByte (s : State) (c : Ctx) (ctx : Nat) (src : Word64) (dst i : Nat) : State :=
  let a := (dst + i) % 2 ^ 32
  let inside := c.ws.any (fun r => decide (r.1 ≤ a) && decide (a < r.1 + r.2))
  if !inside then s
  else
    let x := match s.firmFlat ctx (src + BitVec.ofNat 64 i) with
      | some f => s.firmByte f
      | none => Config.freeByte (s.fresh * 2 ^ 32 + i)
    let k := weightKey (a / 2 ^ 30) (a % 2 ^ 30)
    { s with mem := s.mem.write k x, poison := s.poison.filter (fun p => decide (p ≠ .byte k)) }

/-- PREAMBLE: with no block of the context resident or saved, the copy; every L1's weight-store copies end. -/
def execPreamble (ctx q seq : Nat) (s : State) : Out :=
  match s.launches.find? (fun x => x.2.ctx == ctx && x.2.q == some q && x.2.seq == seq), s.ctx ctx with
  | some (id, l), some c =>
    if l.preambled || !s.itsTurn l || s.blocks.any (fun b => b.1.ctx == ctx) || s.saved.any (fun b => b.1.ctx == ctx) then
      .next s
    else
      let s1 := (List.range l.lr.wlen).foldl (fun s i => s.preambleByte c ctx l.lr.wsrc l.lr.wdst i)
        { s with fresh := s.fresh + 1 }
      let s2 : State := { s1 with cores := s1.cores.map (fun (x : Nat × Core) => (x.1, { x.2 with weights := [] })) }
      .next (s2.modLaunch id (fun l => { l with preambled := true }))
  | _, _ => .next s

/-! ## Windows and start-up (R407, R408) -/

/-- SCORE_WINDOW: at the end of 4,096 cycles the score counts for the next. -/
def execScoreWindow (core : Nat) (s : State) : Out :=
  if s.scoreWindow ≤ (s.core core).window then .next s
  else .next (s.modCore core (fun c => c.rolled s.scoreWindow))

/-- CORE_ENABLE: the next eight cores. -/
def execCoreEnable (die : Nat) (s : State) : Out :=
  let d := s.die die
  if d.idle || decide (192 ≤ d.coresOn) || (d.coresOn != 0 && decide (s.now < d.lastEnable + 100)) then .next s
  else
    let s1 := (List.range 8).foldl (fun s k => s.modCore (die * 192 + d.coresOn + k) (fun c => { c with enabled := true })) s
    .next (s1.modDie die (fun d => { d with coresOn := d.coresOn + 8, lastEnable := s.now }))

/-- ENGINE_ENABLE: the next matrix engine. -/
def execEngineEnable (die : Nat) (s : State) : Out :=
  let d := s.die die
  if d.idle || decide (48 ≤ d.enginesOn) || (d.enginesOn != 0 && decide (s.now < d.lastEngine + 25)) then .next s
  else
    let s1 := s.modCluster (die * 48 + d.enginesOn) (fun c => { c with enabled := true })
    .next (s1.modDie die (fun d => { d with enginesOn := d.enginesOn + 1, lastEngine := s.now }))

/-- A die has no resident block. -/
def State.dieEmpty (s : State) (die : Nat) : Bool :=
  !s.blocks.any (fun b => b.2.cores.any (fun c => dieOfCore c == die))

/-- DIE_IDLE: after 100 µs with no resident block. -/
def execDieIdle (die : Nat) (s : State) : Out :=
  if (s.die die).idle || !s.dieEmpty die || decide (s.now < (s.die die).emptySince + 100000) then .next s
  else
    let s1 : State := { s with
      cores := s.cores.map (fun (c : Nat × Core) => if dieOfCore c.1 = die then (c.1, { c.2 with enabled := false }) else c)
      clusters := s.clusters.map (fun (c : Nat × Cluster) => if dieOfCluster c.1 = die then (c.1, { c.2 with enabled := false }) else c) }
    .next (s1.modDie die (fun d => { d with idle := true }))

end Sys2Proof.Machine
end

