-- ==== Sys2Proof/Machine/Complete.lean ====
section
/-! DEFINITION. What comes back to a core, a copy engine and a drain path: data, old values, completion times, and failures
(R65, R100, R111, R124, R131, R132, R335, R410, R442). -/

namespace Sys2Proof.Machine

/-! ## Updates that have been made -/

/-- The completion of a thread's update: the old value, the time, what it observed (R124, R131, R335). -/
def State.groupUpdated (s : State) (u : Update) (old : Word64) (w wl : Nat) (bad : Bool) : State :=
  match s.group u.g with
  | none => if u.g.key.lnch = 65536 && bad then s.signalFault u.ctx u.va u.g.key.blk .eccUncorrectable 0#8 else s
  | some g =>
    let s1 := s.setGroup u.g (g.arrival u.opId
      { who := u.who, va := u.va, dst := u.dst.getD .zero, ty := u.op.ty, x := old.setWidth 128
        bad := if bad then some (.eccUncorrectable, 0#8) else none })
    let s2 := s1.foldHz u.g ⟨w, w, w, w⟩
    let s3 := match u.holder with
      | some t => s2.foldHzc [⟨u.g, t⟩] u.colour w
      | none => s2
    let reads := match u.op with
      | .rmw _ _ _ | .cas _ _ _ => true
      | _ => false
    (if reads then s3.observe u.g u.opId (byteMask (u.addr % 128) u.op.bytes) (deviceObs wl) else s3).opPart u.g u.opId

/-- An update has been made and answered. -/
def State.updateBack (s : State) (u : Update) (old : Word64) (w wl : Nat) (bad : Bool) : State :=
  match u.tgt with
  | .group => s.groupUpdated u old w wl bad
  | .copy core slot cmd unit => s.unitWritten core slot cmd unit w
  | .drain cluster id => match s.request? cluster id with
    | some (k, r) => s.drained cluster k r w bad
    | none => s

/-! ## Responses and completion times -/

/-- LOAD_RESPONSE. -/
def execLoadResponse (m : Nat) (s : State) : Out :=
  match s.deliverable m with
  | some ⟨_, .loadResp core l data x wl obs bad tgt, _, _⟩ =>
    if (match respCtx s core l tgt with
        | some ctx => s.reportDue ctx l
        | none => false) then .next s
    else
      let s1 := s.take m
      match tgt with
      | .direct _ parts => .next (s1.serve data obs bad parts)
      | .l1 _ _ => .next (s1.fillLine core l data x wl obs bad)
      | .copy core slot cmd unit => .next (s1.copyRead core slot cmd unit l data bad)
      | _ => .next s1
  | some ⟨_, .scratch g op true parts, _, _⟩ => .next (performLdx (s.take m) g op parts)
  | some ⟨_, .weightResp core a alloc parts, _, _⟩ =>
    let s1 := s.take m
    if inRefresh a s.now then
      .next (s1.send ⟨.resp, 6000 + a / 2 ^ 30 * 16 + a / 256 % 16, portCore core⟩ (.refresh core a alloc parts))
    else .next (s1.weightArrive core a alloc parts)
  | some ⟨_, .updateDone u old w wl bad, _, _⟩ =>
    if u.dst.isSome then .next ((s.take m).updateBack u old w wl bad) else .next s
  | _ => .next s

/-- STORE_COMPLETION: the times of a store, the die-scope time that a gateway returns first (R100), the completion of an STX,
of a RED, of a write of a copy or a drain. -/
def execStoreCompletion (m : Nat) (s : State) : Out :=
  match s.deliverable m with
  | some ⟨_, .storeDone txn times, _, _⟩ => .next ((s.take m).finishTxn txn times)
  | some ⟨_, .storeDie txn wdie, _, _⟩ => .next ((s.take m).dieTime txn wdie)
  | some ⟨_, .scratch g op false parts, _, _⟩ => .next (performStx (s.take m) g op parts)
  | some ⟨_, .updateDone u old w wl bad, _, _⟩ =>
    if u.dst.isSome then .next s else .next ((s.take m).updateBack u old w wl bad)
  | _ => .next s

/-! ## Accesses that fail (R65, R442, R443, R445) -/

/-- A store's transaction ends with a fault of each instruction that stored (R410). -/
def State.failStore (s : State) (t : StoreReq) (code : FaultCode) (reason : Byte) : State :=
  match tblGet s.txns t.txn with
  | none => s
  | some x =>
    let faults := x.ops.map (fun (o : GroupRef × Nat) =>
      let op := (s.group o.1).bind (fun g => g.ops.find? (fun y => y.id == o.2))
      ((o.1, { code := code, reason := reason
               mask := maskOf (fun k => x.threads.contains ⟨o.1, k⟩ && (op.all (fun y => y.act.getLsbD k.val)))
               pc := (op.map Op.pc).getD 0#64 }) : GroupRef × FaultInfo))
    faults.foldl (fun s f => s.raiseLater f.1 f.2) (s.finishTxn t.txn {})

/-- A unit of a copy, or a line of an MCLD, that cannot be read or written. -/
def State.failUnit (s : State) (core slot cmd unit : Nat) (code : FaultCode) (reason : Byte) : State :=
  match s.copyAt core slot cmd with
  | none => s
  | some x =>
    if x.isMcld then s.copyFault x code 0#64 reason
    else (s.putSlot core slot { x with
      state := .failed, inFlight := tblDel x.inFlight unit, writing := tblDel x.writing unit }).copyFault x code 0#64 reason

/-- An update ends without having been made. -/
def State.failUpdate (s : State) (u : Update) (code : FaultCode) (reason : Byte) : State :=
  match u.tgt with
  | .copy core slot cmd unit => s.failUnit core slot cmd unit code reason
  | .drain cluster id => match s.request? cluster id with
    | some (k, r) => (s.drained cluster k r 0 false).raiseLater r.first
        { code := code, reason := reason, mask := r.act, addr := u.va, pc := r.pc }
    | none => s
  | .group =>
    match s.group u.g with
    | none => if u.g.key.lnch = 65536 then s.signalFault u.ctx u.va u.g.key.blk code reason else s
    | some g =>
      (s.setGroup u.g (g.arrival u.opId { who := u.who, va := u.va, dst := .zero, ty := u.op.ty, x := 0#128
                                          bad := some (code, reason) })).opPart u.g u.opId

/-- A read fails: for the loads that it was sent for; those that wait behind it make requests of their own. -/
def State.failRead (s : State) (r : ReadReq) (code : FaultCode) (reason : Byte) : State :=
  match r.tgt with
  | .direct _ ps => s.failParts code reason ps
  | .copy core slot cmd unit => s.failUnit core slot cmd unit code reason
  | .l1 core _ =>
    match tblGet (s.core core).reqs r.line with
    | none => s
    | some q =>
      (q.joined ++ q.next).foldl (fun s w => s.missLine core r.line w)
        ((s.modCore core (fun c => { c with reqs := tblDel c.reqs r.line })).failParts code reason q.parts)
  | _ => s

/-- An access to the host or to a peer fails: poisoned data, or reason 0x0C. -/
def State.failAccess (s : State) (b : Body) (ecc : Bool) : State :=
  let reason : Byte := if ecc then 0#8 else 0x0C#8
  let rd : FaultCode := if ecc then .eccUncorrectable else .pagePermRead
  let wr : FaultCode := if ecc then .eccUncorrectable else .pagePermWrite
  match b with
  | .host r | .read r _ => s.failRead r rd reason
  | .hostStore t | .store t _ => s.failStore t wr reason
  | .update u _ => s.failUpdate u wr reason
  | _ => s

/-- The line of host memory that a request needs from the host: under mtype 01 for every read, under mtype 10 where the agent
does not own it. A posted write needs no completion (R65, R108, R135). -/
def Body.hostLine (b : Body) : Option (LineNo × Bool) :=
  match b with
  | .host r => some (r.line, true)
  | .read r true => some (r.line, false)
  | .store t true => some (t.line, false)
  | .update u _ => if u.l0 then none else some (u.addr / 128, false)
  | _ => none

/-- COMPLETION_TIMEOUT: a host completion with an error status, or none within the port's timeout: the access fails as reason
0x0C. After the messages of the network come the instruction fetches that are outstanding: a fetch faults PAGE_PERM_EXEC
(R65, R77). -/
def execCompletionTimeout (m : Nat) (s : State) : Out :=
  if m < s.net.length then
    match s.deliverable m with
    | none => .next s
    | some x =>
      match x.body.hostLine with
      | none => .next s
      | some (l, past) =>
        if isHost l && !isPeer l && (past || (tblGet s.lines l).isNone) then .next ((s.take m).failAccess x.body false)
        else .next s
  else
    match s.fetchList[m - s.net.length]? with
    | none => .next s
    | some (core, key, f) =>
      if !isHost (f.at_ / 128) then .next s
      else
        let s1 := s.modCore core (fun c => { c with fetches := tblDel c.fetches key })
        match s1.entryAt f.g f.pc with
        | some e => .next (s1.raise f.g e { code := .pagePermExec, reason := 0x0C#8, mask := e.mask, addr := f.pc, pc := f.pc })
        | none => .next s1

end Sys2Proof.Machine
end

