-- ==== Sys2Proof/Machine/Cross.lean ====
section
/-! DEFINITION. The instructions that combine the values of the threads of ACTIVE (R247 to R249). -/

namespace Sys2Proof.Machine

/-- Write a value of a type to a vector destination. -/
def Group.writeVDst (g : Group) (ty : Ty) (d : VDst) (t : Tid) (x : Word64) : Group :=
  match d with
  | .v n => g.writeVw ty.bits t n x
  | .zero => g

/-- VOTE's result. -/
def voteValue (m : VoteMode) (act : Mask) (val : Tid → Bool) : Word64 :=
  match m with
  | .all => boolWord ((maskTids act).all val)
  | .any => boolWord ((maskTids act).any val)
  | .eq => boolWord ((maskTids act).all val || !(maskTids act).any val)
  | .ballot => (maskOf (fun t => act.getLsbD t.val && val t)).setWidth 64

def execVote (c : Ctl) (m : VoteMode) (d : DstP) (a : PReg) (s : State) : Out :=
  begin_ c s (fun e =>
    let x := voteValue m e.act (fun t => Operand.p e t a)
    .next (e.retire c (e.forThreads e.g (fun t g => g.writeDP .b32 d t x))))

/-- The thread that SHFL reads for thread t, if it is one of ACTIVE. -/
def shflSource (m : ShflMode) (act : Mask) (t : Tid) (n : Nat) : Option Tid :=
  let src : Option Nat := match m with
    | .idx => some n
    | .up => if n ≤ t.val then some (t.val - n) else none
    | .down => some (t.val + n)
    | .xor => if n < 32 then some (t.val ^^^ n) else none
  match src with
  | none => none
  | some u => if h : u < 32 then (if act.getLsbD u then some ⟨u, h⟩ else none) else none

def execShfl (c : Ctl) (ty : Ty) (m : ShflMode) (d : VDst) (a n : Src) (pv : Option PReg) (s : State) : Out :=
  begin_ c s (fun e =>
    .next (e.retire c (e.forThreads e.g (fun t g =>
      let src := shflSource m e.act t (Operand.src (e.nth 1) ty.bits t n).toNat
      let g1 := g.writeVDst ty d t (Operand.src e ty.bits (src.getD t) a)
      match pv with
      | none => g1
      | some q => g1.writeP t q src.isSome))))

/-- One step of GRED and GSCAN. -/
def redStep (ty : Ty) (op : RedOp) (x y : Word64) : Word64 :=
  match op with
  | .add => if ty = .f32 then floatAdd .f32 .rne x y else x + y
  | .min => if ty = .f32 then floatMinMax .f32 false x y else intMin ty x y
  | .max => if ty = .f32 then floatMinMax .f32 true x y else intMax ty x y
  | .and => x &&& y
  | .or => x ||| y
  | .xor => x ^^^ y

/-- A result of a type, with a NaN that only passed through as the canonical one (R196). -/
def passNan (ty : Ty) (x : Word64) : Word64 :=
  match ty, fp32.value (x.setWidth 32).toNat with
  | .f32, .nan => 0x7FC00000#64
  | _, _ => x

/-- The identity of an exclusive scan. -/
def redIdentity (ty : Ty) (op : RedOp) : Word64 :=
  match op with
  | .add | .or | .xor => 0#64
  | .and => BitVec.allOnes 64
  | .min => if ty = .f32 then 0x7F800000#64 else BitVec.ofInt 64 (typeMost ty)
  | .max => if ty = .f32 then 0xFF800000#64 else BitVec.ofInt 64 (typeLeast ty)

def execGred (c : Ctl) (ty : Ty) (op : RedOp) (d : VDst) (a : Src) (s : State) : Out :=
  begin_ c s (fun e =>
    match maskTids e.act with
    | [] => .next (e.retire c e.g)
    | t0 :: rest =>
      let x := rest.foldl (fun acc t => redStep ty op acc (Operand.src e ty.bits t a)) (Operand.src e ty.bits t0 a)
      .next (e.retire c (e.forThreads e.g (fun t g => g.writeVDst ty d t (passNan ty x)))))

/-- The scan's results by thread, lowest first; `run` is none before the first value of an inclusive scan. -/
def scanValues (op : Word64 → Word64 → Word64) (ex : Bool) (val : Tid → Word64) :
    List Tid → Option Word64 → List (Tid × Word64)
  | [], _ => []
  | t :: r, run =>
    let next := match run with
      | none => val t
      | some x => op x (val t)
    (t, if ex then run.getD 0#64 else next) :: scanValues op ex val r (some next)

def execGscan (c : Ctl) (ty : Ty) (op : RedOp) (ex : Bool) (d : VDst) (a : Src) (s : State) : Out :=
  begin_ c s (fun e =>
    let vals := scanValues (redStep ty op) ex (fun t => Operand.src e ty.bits t a) (maskTids e.act)
      (if ex then some (redIdentity ty op) else none)
    .next (e.retire c (vals.foldl (fun g x => g.writeVDst ty d x.1 (passNan ty x.2)) e.g)))

end Sys2Proof.Machine
end

