-- ==== Sys2Proof/Machine/Inventory.lean ====
section
/-! DEFINITION. The ports' table, the reserves that are left, and the inventory record with its page (R453, R457). -/

namespace Sys2Proof.Machine

/-! ## Ports -/

def State.port (s : State) (n : Nat) : Port := tblGetD s.ports n Port.reset
def State.putPort (s : State) (n : Nat) (p : Port) : State := { s with ports := tblPut s.ports n p }

/-- Reserve units that a die has brought in. -/
def Firmware.used (f : Firmware) (die : Nat) (r : Reserve) : Nat := tblGetD f.replaced (die, r) 0

/-- What is left of a reserve. -/
def Firmware.left (f : Firmware) (die : Nat) (r : Reserve) : Nat :=
  (match r with
   | .cluster | .slice => 4
   | .rows k => Config.spareRows die k
   | .gatewayLane k => Config.spareGatewayLanes die k
   | .serukLane _ => 1) - f.used die r

def laneCount (x : BitVec 9) : Nat := ((List.range 8).filter (fun i => x.getLsbD i)).length

def State.inventoryBody (s : State) : List Byte :=
  let f := s.fw
  (List.range 4).flatMap (fun d =>
    leBytes 2 48 ++ leBytes 2 (f.left d .cluster) ++ leBytes 2 48 ++ leBytes 2 (f.left d .slice) ++
    leBytes 4 (f.left d (.rows 0)) ++ leBytes 4 (f.left d (.rows 1)) ++
    leBytes 2 (Config.spareChannels d 0) ++ leBytes 2 (Config.spareChannels d 1) ++
    (List.range 3).flatMap (fun k => leBytes 2 (f.left d (.gatewayLane k))) ++ leBytes 6 0) ++
  leBytes 4 f.cxl0 ++ leBytes 4 f.cxl1 ++
  (List.range 16).flatMap (fun p => leBytes 1 (f.left 4 (.serukLane p))) ++
  (List.range 16).flatMap (fun p => leBytes 1 (laneCount (s.port p).lanes))

/-- A record's header (R449). -/
def State.recordHead (s : State) (schema len : Nat) : List Byte :=
  leBytes 16 (fieldsNat [(s.now, 64), (schema, 48), (1, 32), (len, 0)])

/-- Firmware sends a write of bytes of one line to the line's home, like any other agent. -/
def State.firmSend (s : State) (flat : Nat) (bs : List Byte) : State :=
  let l := flat / 128
  let off := flat % 128
  let u : Update :=
    { addr := l * 128, op := .put (BitVec.ofNat 1024 (leNat bs * 2 ^ (8 * off))) (byteMask off bs.length) false, core := 0, ctx := 0
      g := noGroup 0 0, opId := s.nextId, who := none, dst := none, colour := 0, holder := none, l0 := false, va := 0#64 }
  ({ s with nextId := s.nextId + 1 }).send ⟨.req, portFirmware, portHome l⟩ (.update u none)

/-- The inventory record goes to its read-only page, once firmware has started: the header, then the body (R453, R457). -/
def State.publish (s : State) : State :=
  if !s.fw.started then s
  else
    let body := s.inventoryBody
    let bs := s.recordHead 3 body.length ++ body
    let at_ := flatByte 0 (Config.inventoryPage.val * 65536)
    (s.firmSend at_ (bs.take 128)).firmSend (at_ + 128) (bs.drop 128)

end Sys2Proof.Machine
end

