-- ==== Sys2Proof/Machine/Peers.lean ====
section
/-! DEFINITION. Seruk: flits, the link, messages to and from peers (R442 to R445). -/

namespace Sys2Proof.Machine

/-! ## Flits (R444) -/

def crcStep32 : Nat → BitVec 32 → BitVec 32
  | 0, x => x
  | n + 1, x => crcStep32 n (if x.getLsbD 0 then (x >>> 1) ^^^ 0x82F63B78#32 else x >>> 1)

/-- CRC-32C, reflected. -/
def crc32c (bs : List Byte) : BitVec 32 :=
  ~~~(bs.foldl (fun x b => crcStep32 8 (x ^^^ b.setWidth 32)) 0xFFFFFFFF#32)

def flitBytes (f : BitVec 2048) : List Byte := leBytes 256 f.toNat

/-- The flit header. -/
structure FlitHead where
  ftype : Nat
  seq : BitVec 12
  ack : Option (BitVec 12)
  crq : Nat
  crs : Nat
  deriving DecidableEq, Repr

def flitHead (f : BitVec 2048) : FlitHead where
  ftype := (f.extractLsb' 56 8).toNat
  seq := f.extractLsb' 44 12
  ack := if f.getLsbD 31 then some (f.extractLsb' 32 12) else none
  crq := (f.extractLsb' 12 12).toNat
  crs := (f.extractLsb' 0 12).toNat

/-- The payload: 15 units. -/
def flitUnits (f : BitVec 2048) : List (BitVec 128) := (List.range 15).map (fun k => f.extractLsb' (64 + 128 * k) 128)

/-- The CRC is right and the type is one that is sent. -/
def flitOk (f : BitVec 2048) : Bool :=
  f.extractLsb' 1984 32 == crc32c ((flitBytes f).take 248) && decide ((flitHead f).ftype ≤ 3)

/-- A flit out of its parts. -/
def makeFlit (h : FlitHead) (units : List (BitVec 128)) : BitVec 2048 :=
  let head := fieldsNat [(h.ftype, 56), (h.seq.toNat, 44), (codeOr BitVec.toNat h.ack 0, 32), (h.ack.isSome.toNat, 31),
    (h.crq % 4096, 12), (h.crs % 4096, 0)]
  let body := leBytes 8 head ++ padTo 240 (units.flatMap (fun u => leBytes 16 u.toNat))
  leBits 2048 (body ++ leBytes 4 (crc32c body).toNat)

/-! ## Flits that leave -/

/-- Send a flit with what the header returns to the other end: the acknowledgement and the freed units. -/
def Port.emit (p : Port) (ftype : Nat) (seq : BitVec 12) (units : List (BitVec 128)) : BitVec 2048 × Port :=
  let f := makeFlit ⟨ftype, seq, p.acked, min p.freedRq 4095, min p.freedRs 4095⟩ units
  (f, { p with out := p.out ++ [f], freedRq := p.freedRq - 4095, freedRs := p.freedRs - 4095, ackDue := false })

/-- A data flit: numbered, and kept until it is acknowledged. -/
def Port.emitData (p : Port) (units : List (BitVec 128)) : Port :=
  let (f, q) := p.emit 1 p.txSeq units
  { q with txSeq := p.txSeq + 1#12, replay := p.replay ++ [(p.txSeq, f)], sent := p.sent + 1 }

/-- What every header that arrives says: flits up to `ack` are safe, and units are free again. -/
def Port.heed (p : Port) (h : FlitHead) : Port :=
  let q := { p with crq := p.crq + h.crq, crs := p.crs + h.crs }
  match h.ack with
  | none => q
  | some a =>
    if p.replay.any (fun x => x.1 == a) then
      { q with replay := (p.replay.dropWhile (fun x => x.1 != a)).drop 1, retries := 0 }
    else q

/-- A flit that fails its check: it and later data flits are discarded until the expected one comes. -/
def Port.reject (p : Port) : Port := { p with wantRetry := true, discarding := true }

/-! ## Messages (R445) -/

/-- Units that follow a message's header. -/
def unitsAfter (kind : Nat) : Nat :=
  match kind with
  | 0x02 => 9
  | 0x03 | 0x04 | 0x05 | 0x06 | 0x83 | 0x84 => 1
  | 0x81 => 8
  | _ => 0

def isRequest (kind : Nat) : Bool := decide (kind < 0x80)

/-- A message of one header unit and the units behind it. -/
def parseMessage (port : Nat) (h : BitVec 128) (us : List (BitVec 128)) : PeerReq :=
  let u (k : Nat) : BitVec 128 := (us[k]?).getD 0#128
  let kind := (h.extractLsb' 120 8).toNat
  let data (k : Nat) : LineBits := leBits 1024 ((us.drop k).flatMap (fun x => leBytes 16 x.toNat))
  { port := port, tag := (h.extractLsb' 96 16).toNat, addr := (h.extractLsb' 0 40).toNat, kind := kind
    ty := Ty.ofCode false (h.extractLsb' 92 4), op := (h.extractLsb' 89 3).toNat
    x := (u 0).setWidth 64, y := (u 0).extractLsb' 64 64, mask := u 0
    data := if kind = 0x02 then data 1 else data 0, status := (h.extractLsb' 64 8).toNat }

/-- The messages that are whole in a run of units, and the units of one that continues. A zero header unit ends a flit's
messages. -/
def splitUnits (port : Nat) : Nat → List (BitVec 128) → List PeerReq × List (BitVec 128)
  | 0, us => ([], us)
  | _ + 1, [] => ([], [])
  | n + 1, h :: us =>
    if h = 0#128 then ([], [])
    else
      let nu := (h.extractLsb' 115 5).toNat
      if us.length < nu then ([], h :: us)
      else
        let (ms, rest) := splitUnits port n (us.drop nu)
        (parseMessage port h (us.take nu) :: ms, rest)

/-- The units of a message to a peer. -/
def buildMessage (kind tag : Nat) (ty : Option Ty) (op status addr : Nat) (us : List (BitVec 128)) : List (BitVec 128) :=
  BitVec.ofNat 128 (fieldsNat [(kind, 120), (us.length, 115), (tag, 96), (codeOr (fun t => t.code.toNat) ty 0, 92), (op, 89),
    (status, 64), (addr, 0)]) :: us

def dataUnits (d : LineBits) : List (BitVec 128) := (List.range 8).map (fun k => d.extractLsb' (128 * k) 128)

/-- The bytes that a line's mask names, one bit each. -/
def byteBits (m : LineBits) : BitVec 128 :=
  BitVec.ofNat 128 (((List.range 128).filter (fun i => m.getLsbD (8 * i))).map (fun i => 2 ^ i)).sum
def lineMask (m : BitVec 128) : LineBits := leBits 1024 ((List.range 128).map (fun i => if m.getLsbD i then 0xFF#8 else 0#8))

/-- What one of our requests says: kind, etype, op, address, units. -/
def requestParts (b : Body) : Option (Nat × Option Ty × Nat × Nat × List (BitVec 128)) :=
  match b with
  | .host r => some (0x01, none, 0, peerAddr r.line, [])
  | .hostStore t => some (0x02, none, 0, peerAddr t.line, byteBits t.mask :: dataUnits t.data)
  | .update u _ =>
    let at_ := peerAddr (u.addr / 128) + u.addr % 128
    match u.op with
    | .rmw op ty x => some (if u.dst.isSome then 0x03 else 0x05, some ty, op.code.toNat, at_, [x.setWidth 128])
    | .cas ty new cmp => some (0x04, some ty, 0, at_, [cmp ++ new])
    | .signal op x => some (0x06, some .b64, op.code.toNat, at_, [x.setWidth 128])
    | .put d m _ => some (0x02, none, 0, peerAddr (u.addr / 128), byteBits m :: dataUnits d)
    -- a drain to a peer goes as writes (log 22)
    | .drain _ _ _ => none
  | _ => none

/-- The line that a request to a peer names. -/
def Body.peerLine (b : Body) : Option LineNo :=
  match b with
  | .host r => some r.line
  | .hostStore t => some t.line
  | .update u _ => some (u.addr / 128)
  | _ => none

/-! ## What leaves by a port (R443, R444) -/

/-- The port of a message to a peer, where it is up. -/
def State.peerPort (s : State) (m : Msg) : Option Nat :=
  (tblGet s.fw.peers (m.ch.dst - 7000)).filter (fun n => (s.port n).up)

/-- The lowest tag that no outstanding request of a port has. -/
def Port.freeTag (p : Port) : Option Nat := firstFrom (fun t => (tblGet p.outstanding t).isNone) 0 65536

/-- Send one of our requests: none where credits, the replay buffer or an earlier home-only access keep it back. -/
def State.sendRequest (s : State) (n : Nat) (m : Msg) : Option State :=
  let p := s.port n
  match requestParts m.body, p.freeTag with
  | some (kind, ty, op, addr, us), some tag =>
    let us := buildMessage kind tag ty op 0 addr us
    if p.crq < us.length || decide (2048 ≤ p.replay.length) ||
        s.net.any (fun y => m.ahead y && !(y.ch.toPeer && s.peerPort y == some n)) ||
        s.ports.any (fun x => x.1 != n && x.2.outstanding.any (fun y => m.ahead y.2)) then none
    else
      let q := { p with crq := p.crq - us.length, outstanding := tblPut p.outstanding tag m }
      some (s.putPort n (q.emitData us))
  | _, _ => none

/-- Send an answer. -/
def State.sendAnswer (s : State) (n : Nat) (us : List (BitVec 128)) : Option State :=
  let p := s.port n
  if p.crs < us.length || decide (2048 ≤ p.replay.length) then none
  else some (s.putPort n ({ p with crs := p.crs - us.length }.emitData us))

/-- The messages of the network that can leave: a request behind no earlier one that stays for the same peer, an answer
whose time has passed. A request whose port is not there or down fails. -/
def State.flushMsgs (s : State) : List Msg → List Nat → State
  | [], _ => s
  | m :: r, stuck =>
    let keep (s : State) : State := { s with net := s.net ++ [m] }
    if m.ch.toPeer then
      if stuck.contains m.ch.dst then State.flushMsgs (keep s) r stuck
      else match s.peerPort m with
        | none => State.flushMsgs (s.failAccess m.body false) r stuck
        | some n => match s.sendRequest n m with
          | some s1 => State.flushMsgs s1 r stuck
          | none => State.flushMsgs (keep s) r (m.ch.dst :: stuck)
    else match m.body with
      | .peerResp port tag kind status data old t =>
        if s.now < t then State.flushMsgs (keep s) r stuck
        else
          let us : List (BitVec 128) := if kind = 0x81 then dataUnits data
            else if kind = 0x83 ∨ kind = 0x84 then [old.setWidth 128] else []
          if !(s.port port).up then State.flushMsgs s r stuck
          else match s.sendAnswer port (buildMessage kind tag none 0 status 0 us) with
            | some s1 => State.flushMsgs s1 r stuck
            | none => State.flushMsgs (keep s) r stuck
      | _ => State.flushMsgs (keep s) r stuck

/-- A port's retry request, and an idle flit where there is something to return to the other end. -/
def Port.housekeep (p : Port) : Port :=
  let q := if p.wantRetry && p.up then { (p.emit 2 p.rxSeq []).2 with wantRetry := false } else p
  if q.up && (q.ackDue || q.freedRq != 0 || q.freedRs != 0) then (q.emit 0 0#12 []).2 else q

/-- Whether the network holds something for a port. -/
def Body.isAnswer (b : Body) : Bool :=
  match b with
  | .peerResp .. => true
  | _ => false

/-- What the ports send before a step. The messages that stay keep their order. -/
def State.flushPorts (s : State) : State :=
  let s1 := if s.net.any (fun m => m.ch.toPeer || m.body.isAnswer) then State.flushMsgs { s with net := [] } s.net []
    else s
  { s1 with ports := s1.ports.map (fun p => (p.1, p.2.housekeep)) }

/-! ## Flits that arrive (R444) -/

/-- A flit that reaches a port that is up: `f` for one that is right and of the type. -/
def State.receive (s : State) (port ftype : Nat) (flit : BitVec 2048) (f : Port → FlitHead → State) : Out :=
  let p := s.port port
  let h := flitHead flit
  if 16 ≤ port || !p.up then .next s
  else if !flitOk flit then .next (s.putPort port p.reject)
  else if h.ftype ≠ ftype then .next s
  else .next (f p h)

/-- Units of requests and of responses among messages. -/
def unitCount (req : Bool) (ms : List PeerReq) : Nat :=
  ((ms.filter (fun m => isRequest m.kind == req)).map (fun m => 1 + unitsAfter m.kind)).sum

/-- The channel of a message from a peer: responses never wait for requests. -/
def peerChan (m : PeerReq) : Chan :=
  if isRequest m.kind then ⟨.peer, 7100 + m.port, 7100 + m.port⟩ else ⟨.peer, 7200 + m.port, 7200 + m.port⟩

/-- DATA_FLIT. -/
def execDataFlit (port : Nat) (flit : BitVec 2048) (s : State) : Out :=
  s.receive port 1 flit (fun p h =>
    if h.seq ≠ p.rxSeq then s.putPort port { p with wantRetry := p.wantRetry || !p.discarding, discarding := true }
    else
      let us := p.partial_ ++ flitUnits flit
      let (ms, rest) := splitUnits port (us.length + 1) us
      let q := { p.heed h with
        rxSeq := p.rxSeq + 1#12
        acked := some h.seq
        ackDue := true
        discarding := false
        partial_ := rest
        freedRq := p.freedRq + unitCount true ms
        freedRs := p.freedRs + unitCount false ms }
      ms.foldl (fun s m => s.send (peerChan m) (.peerReq m)) (s.putPort port q))

/-- IDLE_FLIT. -/
def execIdleFlit (port : Nat) (flit : BitVec 2048) (s : State) : Out :=
  s.receive port 0 flit (fun p h => s.putPort port (p.heed h))

/-- RETRY_REQUEST: every flit from the named one on goes again, and each is a corrected soft error. -/
def execRetryRequest (port : Nat) (flit : BitVec 2048) (s : State) : Out :=
  s.receive port 2 flit (fun p h =>
    let q := p.heed h
    let again := q.replay.dropWhile (fun x => x.1 != h.seq)
    if again.isEmpty then s.putPort port q
    else (s.putPort port { q with
      out := q.out ++ again.map Prod.snd
      retries := q.retries + 1
      retried := q.retried + again.length }).corrected 0x000A port again.length)

/-- A link-control flit with its operation and unit. -/
def State.linkControl (s : State) (port op : Nat) (flit : BitVec 2048) (f : Port → BitVec 128 → State) : Out :=
  let u := flit.extractLsb' 64 128
  if 16 ≤ port || !flitOk flit || (flitHead flit).ftype != 3 || (u.setWidth 16).toNat != op then .next s
  else .next (f (s.port port) u)

/-- A link-control unit. -/
def controlUnit (op req rsp : Nat) (lanes : BitVec 9) : BitVec 128 :=
  BitVec.ofNat 128 (fieldsNat [(op, 0), (req, 32), (rsp, 64), (lanes.toNat, 96)])

/-- TRAINING: the lanes in use. A port that is not up begins its link anew, and trains its own side. -/
def execTraining (port : Nat) (flit : BitVec 2048) (s : State) : Out :=
  s.linkControl port 1 flit (fun p u =>
    let lanes : BitVec 9 := u.extractLsb' 96 9
    if p.up then (s.putPort port { p with lanes := lanes }).publish
    else
      let q : Port := { Port.reset with
        training := true, lanes := lanes, outstanding := p.outstanding, out := p.out, sent := p.sent, retried := p.retried
        downs := p.downs, lastW := p.lastW }
      let (rq, rs) := Config.portCredits
      (s.putPort port ((q.emit 3 0#12 [controlUnit 1 0 0 lanes]).2.emit 3 0#12 [controlUnit 2 rq rs lanes]).2).publish)

/-- CREDIT_GRANT: units that the other end grants; with them a port in training comes up. -/
def execCreditGrant (port : Nat) (flit : BitVec 2048) (s : State) : Out :=
  s.linkControl port 2 flit (fun p u =>
    if !p.up && !p.training then s
    else s.putPort port { p with
      up := true
      training := false
      crq := p.crq + (u.extractLsb' 32 32).toNat
      crs := p.crs + (u.extractLsb' 64 32).toNat })

/-- PORT_DOWN: after sixteen retries in succession the port is down, and what it had outstanding fails. -/
def execPortDown (port : Nat) (s : State) : Out :=
  let p := s.port port
  if !p.up || decide (p.retries < 16) then .next s
  else
    let s1 := s.putPort port { p with
      up := false, lanes := 0#9, replay := [], retries := 0, partial_ := [], outstanding := [], downs := p.downs + 1
      wantRetry := false, discarding := false, ackDue := false }
    .next (p.outstanding.foldl (fun s o => s.failAccess o.2.body false) s1).publish

/-! ## Requests of a peer (R136, R326, R339, R445) -/

/-- Answer a peer. -/
def State.answerPeer (s : State) (r : PeerReq) (kind status : Nat) (data : LineBits) (old : Word64) (t : Nat) : State :=
  s.send ⟨.peer, 7300 + r.port, 7300 + r.port⟩ (.peerResp r.port r.tag kind status data old t)

def State.refusePeer (s : State) (r : PeerReq) (status : Nat) : State := s.answerPeer r 0xC0 status 0#1024 0#64 0

/-- The byte that a peer's address names here. -/
def peerFlat (addr : Nat) : Nat := flatByte 0 addr

/-- A peer's request of a kind: refused where its address is beyond HBM4E or firmware has not started; it waits until the
line is at its home and no earlier request for it waits there (R92, R143). -/
def State.peerServe (s : State) (m kind : Nat) (f : State → PeerReq → Nat → Option State) : Out :=
  match s.deliverable m with
  | some ⟨_, .peerReq r, _, _⟩ =>
    let s1 := s.take m
    if r.kind ≠ kind then .next s
    else if 2 ^ 39 ≤ r.addr then .next (s1.refusePeer r 0x01)
    else if !s.fw.started then .next (s1.refusePeer r 0x03)
    else match s1.ready (peerFlat r.addr / 128) with
      | (false, _) => .next (s.ready (peerFlat r.addr / 128)).2
      | (true, s2) => .next ((f s2 r (peerFlat r.addr)).getD s)
  | _ => .next s

/-- A completion time of a peer's write on this device. -/
def State.peerWrote (s : State) (port w : Nat) : State :=
  let p := s.port port
  s.putPort port { p with lastW := max p.lastW w }

/-- READ_A_LINE. -/
def execReadALine (m : Nat) (s : State) : Out :=
  s.peerServe m 0x01 (fun s r a =>
    let l := a / 128
    let s1 := s.modLine l (fun x => { x with used := s.now })
    some (if s1.linePoisoned l then s1.refusePeer r 0x02 else s1.answerPeer r 0x81 0 (s1.lineData l) 0#64 0))

/-- WRITE_A_LINE. A write to a code frame is refused (R56). -/
def execWriteALine (m : Nat) (s : State) : Out :=
  s.peerServe m 0x02 (fun s r a =>
    if s.isCode a then some (s.refusePeer r 0x03)
    else
      let (w, s1) := s.applyStore (a / 128) r.data (lineMask r.mask) false false false
      some ((s1.peerWrote r.port w).answerPeer r 0x82 0 0#1024 0#64 w))

/-- An update of a peer at its port. An operation that no peer sends, or one to a code frame, is not accepted. -/
def State.peerUpdate (s : State) (r : PeerReq) (a kind : Nat) (op : Option UpdateOp) : State :=
  match op with
  | none => s.refusePeer r 0x03
  | some f =>
    if a % f.bytes ≠ 0 || s.isCode a then s.refusePeer r 0x03
    else
      let x := s.applyUpdate { addr := a, op := f, core := 0, ctx := 0, g := noGroup 0 0, opId := 0, who := none, dst := none
                               colour := 0, holder := none, l0 := false, va := 0#64 }
      if x.bad then x.s.refusePeer r 0x02
      else (x.s.peerWrote r.port x.w).answerPeer r kind 0 0#1024 x.old x.w

/-- The operation of an ATOM or RED message. -/
def PeerReq.rmw (r : PeerReq) : Option UpdateOp :=
  (AOp.ofCode (BitVec.ofNat 3 r.op)).bind (fun op => if op.allows r.ty then some (.rmw op r.ty r.x) else none)

/-- PEER_ATOM. -/
def execPeerAtom (m : Nat) (s : State) : Out :=
  s.peerServe m 0x03 (fun s r a => some (s.peerUpdate r a 0x83 r.rmw))

/-- PEER_ACAS. -/
def execPeerAcas (m : Nat) (s : State) : Out :=
  s.peerServe m 0x04 (fun s r a => some (s.peerUpdate r a 0x84 (if TSet.AC.has r.ty then some (.cas r.ty r.x r.y) else none)))

/-- PEER_RED. -/
def execPeerRed (m : Nat) (s : State) : Out :=
  s.peerServe m 0x05 (fun s r a => some (s.peerUpdate r a 0x85 r.rmw))

/-- PEER_SIGNAL: held until every earlier write of the peer is visible. -/
def execPeerSignal (m : Nat) (s : State) : Out :=
  s.peerServe m 0x06 (fun s r a =>
    if s.now < (s.port r.port).lastW then none
    else some (s.peerUpdate r a 0x86
      (if 4 ≤ r.op then none else (SignalOp.ofCode (BitVec.ofNat 2 r.op)).map (fun op => .signal op r.x))))

/-! ## Responses (R445) -/

/-- A response of some kinds, with the request that it answers. -/
def State.peerAnswer (s : State) (m : Nat) (kinds : List Nat) (f : State → PeerReq → Msg → State) : Out :=
  match s.deliverable m with
  | some ⟨_, .peerReq r, _, _⟩ =>
    if !kinds.contains r.kind then .next s
    else
      let s1 := s.take m
      let p := s1.port r.port
      match tblGet p.outstanding r.tag with
      | none => .next s1
      | some q => .next (f (s1.putPort r.port { p with outstanding := tblDel p.outstanding r.tag }) r q)
  | _ => .next s

/-- READ_DATA. -/
def execReadData (m : Nat) (s : State) : Out :=
  s.peerAnswer m [0x81] (fun s r q =>
    match q.body with
    | .host x => match x.tgt with
      | .direct _ ps => s.serve r.data noObs false ps
      | .copy core slot cmd unit => s.copyRead core slot cmd unit x.line r.data false
      | _ => s
    | _ => s)

/-- WRITE_DONE. -/
def execWriteDone (m : Nat) (s : State) : Out :=
  s.peerAnswer m [0x82] (fun s _ q =>
    match q.body with
    | .hostStore t => s.finishTxn t.txn ⟨0, s.now, s.now, s.now⟩
    | .update u _ => s.updateBack u 0#64 s.now 0 false
    | _ => s)

/-- ATOMIC_RESPONSE. -/
def execAtomicResponse (m : Nat) (s : State) : Out :=
  s.peerAnswer m [0x83, 0x84, 0x85, 0x86] (fun s r q =>
    match q.body with
    | .update u _ => s.updateBack u r.x s.now 0 false
    | _ => s)

/-- ERROR_MESSAGE. -/
def execErrorMessage (m : Nat) (s : State) : Out :=
  s.peerAnswer m [0xC0] (fun s r q => s.failAccess q.body (r.status == 0x02))

end Sys2Proof.Machine
end

