-- ==== Sys2Proof/Machine/Firmware.lean ====
section
/-! DEFINITION. Firmware as the outside sees it: telemetry records and MCTP, SPDM, the Umpire pair, workers, boot, the
Bullpen (R446, R447, R449 to R452, R454 to R457). -/

namespace Sys2Proof.Machine

/-! ## Records (R449, R451 to R455) -/

/-- Bodies of the records, by schema. -/
def State.errorBody (s : State) : List Byte :=
  let units := sortBy (fun (x y : Nat) => decide (x ≤ y)) ((s.fw.corrected ++ s.fw.uncorrected).map Prod.fst).dedup
  units.flatMap (fun k =>
    let c := tblGetD s.fw.corrected k 0
    let u := tblGetD s.fw.uncorrected k 0
    if c = 0 ∧ u = 0 then []
    else leBytes 2 (k / 65536) ++ leBytes 2 k ++ leBytes 4 0 ++ leBytes 8 c ++ leBytes 8 u)

/-- Power and temperatures: readings of the sensors, with the power of a module within its limit. -/
def State.sensorBody (s : State) : List Byte :=
  let x := padTo 232 ((Config.sensors s.fw.samples).take 232)
  leBytes 4 (min (leNat (x.take 4)) 2800000) ++ (x.drop 4).take 32 ++ leBytes 4 0 ++ x.drop 40

def State.portBody (s : State) : List Byte :=
  (List.range 16).flatMap (fun n =>
    let p := s.port n
    let peer := match s.fw.peers.find? (fun x => x.2 == n) with
      | some (k, _) => k
      | none => 0xFFFFFFFF
    leBytes 1 (if p.up then 2 else if p.training then 1 else 0) ++ leBytes 1 (laneCount p.lanes) ++
    leBytes 1 (p.lanes.getLsbD 8).toNat ++ leBytes 1 0 ++ leBytes 4 peer ++ leBytes 8 p.sent ++ leBytes 8 p.retried ++
    leBytes 8 p.downs)

def Firmware.bootBody (f : Firmware) : List Byte :=
  leBytes 4 f.bootCount ++ leBytes 2 (f.bootFailed.getD 0xFFFF) ++ leBytes 2 0 ++ leBytes 8 f.alternate.toNat ++
  leBytes 8 f.skipped.toNat ++ leBytes 8 f.bootTime

def State.recordBody (s : State) (schema : Nat) : Option (List Byte) :=
  match schema with
  | 1 => some s.sensorBody
  | 2 => some s.errorBody
  | 3 => some s.inventoryBody
  | 4 => some s.portBody
  | 5 => some s.fw.bootBody
  | _ => none

/-- A record: its header and body. -/
def State.telemetry (s : State) (schema : Nat) : Option (List Byte) :=
  (s.recordBody schema).map (fun b => s.recordHead schema b.length ++ b)

/-- A new sample of the sensors. -/
def State.senseAgain (s : State) : State := { s with fw := { s.fw with samples := s.fw.samples + 1 } }

/-! ## MCTP (R450) -/

/-- A response: message type, enterprise number, command, completion, content. -/
def mctpAnswer (cmd : Byte) (completion : Byte) (body : List Byte) : List Byte :=
  0x7F#8 :: leBytes 4 Config.enterpriseNumber.toNat ++ [cmd, completion] ++ body

def State.answerMctp (s : State) (x : List Byte) : State := { s with fw := { s.fw with mctp := x } }

/-- NEWEST_RECORD. -/
def execNewestRecord (schema : BitVec 16) (s : State) : Out :=
  let s1 := s.senseAgain
  .next (s1.answerMctp (match s1.telemetry schema.toNat with
    | some r => mctpAnswer 0x01#8 0x00#8 r
    | none => mctpAnswer 0x01#8 0x02#8 []))

/-- SCHEMA_LIST. -/
def execSchemaList (s : State) : Out :=
  .next (s.answerMctp (mctpAnswer 0x02#8 0x00#8 ([1, 2, 3, 4, 5].flatMap (fun k => leBytes 2 k ++ leBytes 2 1))))

/-- MCTP_UNKNOWN_COMMAND. -/
def execMctpUnknownCommand (cmd : Byte) (s : State) : Out :=
  if cmd = 0x01#8 ∨ cmd = 0x02#8 then .next s else .next (s.answerMctp (mctpAnswer cmd 0x01#8 []))

/-- SPDM_REQUEST (R447). -/
def execSpdmRequest (request : List Byte) (s : State) : Out :=
  if s.fw.started then .next { s with fw := { s.fw with spdm := Config.spdmAnswer s.fw.measurements request } } else .next s

/-! ## The Umpire pair and the workers (R446, R448) -/

/-- UMPIRE_RESET: a mismatch resets the pair; the next such step is the end of its reload, with its tables restored. -/
def execUmpireReset (s : State) : Out :=
  match s.fw.umpire with
  | .running => .next { s with fw := { s.fw with umpire := .resetting, umpireResets := s.fw.umpireResets + 1 } }
  | .resetting => .next { s with fw := { s.fw with umpire := .running } }
  | .switching _ => .next s

/-- WORKER_RESET: a worker's packet goes to another worker. -/
def execWorkerReset (worker : Nat) (s : State) : Out :=
  if 8 ≤ worker then .next s
  else .next { s with fw := { s.fw with workerResets := tblPut s.fw.workerResets worker (tblGetD s.fw.workerResets worker 0 + 1) } }

def Firmware.bank (f : Firmware) (b : Bool) : List Host.Cell := if b then f.bankB else f.bankA
/-- The bank that is not active. -/
def Firmware.idleBank (f : Firmware) : List Host.Cell := f.bank (!f.activeB)

/-- The ticks a new image has for its self-test: 10 ms. -/
def selfTestTicks : Nat := 10000000

/-- SELF_TEST_TIMEOUT: the pair returns to the old bank with the same tables, and the command fails. -/
def execSelfTestTimeout (s : State) : Out :=
  match s.fw.umpire with
  | .switching since =>
    if since + selfTestTicks ≤ s.now then
      .next { s with fw := { s.fw with umpire := .running }, mbx := { s.mbx with outcome := some ([], 0x05, 3) } }
    else .next s
  | _ => .next s

/-! ## Boot (R441, R442, R455, R456) -/

/-- A boot step fails: the next boot takes its alternate path, or skips it. -/
def Firmware.failedStep (f : Firmware) (n : Nat) : Firmware :=
  if Config.hasAlternate n && !f.alternate.getLsbD n then
    { f with bootFailed := some n, alternate := f.alternate ||| (1#64 <<< n) }
  else { f with bootFailed := some n, skipped := f.skipped ||| (1#64 <<< n) }

/-- BOOT: with the step that fails, or to its end. -/
def execBoot (failed : Option Nat) (s : State) : Out :=
  let f := { s.fw with bootCount := s.fw.bootCount + 1 }
  if s.fw.started then .next s
  else match failed with
    | some n => if 64 ≤ n || f.skipped.getLsbD n then .next s else .next { s with fw := f.failedStep n }
    | none =>
      .next (State.publish { s with fw := { f with
        started := true
        bootTime := s.now
        cxl0 := (Config.cxlSize 0).val
        cxl1 := (Config.cxlSize 1).val
        peers := (List.range 16).filterMap (fun p => (Config.peerPort p).map (fun n => (p, n.val)))
        carveOut := Config.carveOut } })

/-! ## The Bullpen (R457) -/

/-- The die of a unit, 4 for the I/O die, and the reserve that replaces it (DESIGN CHOICE, log 39). -/
def unitPlace (k : Nat) : Nat × Option Reserve :=
  let inst := k % 65536
  match k / 65536 with
  | 1 | 2 | 3 => (inst / 192, some .cluster)
  | 4 => (inst / 48, some .cluster)
  | 5 => (inst / 48, some .slice)
  | 6 => (inst / 3, some (.gatewayLane (inst % 3)))
  | 7 => (inst / 2, some (.rows (inst % 2)))
  | 8 => (inst, none)
  | 9 => (4, none)
  | 10 => (4, some (.serukLane inst))
  | _ => (4, none)

def hourTicks : Nat := 3600000000000

/-- BULLPEN_WINDOW: units over their threshold in two windows running are marked. -/
def execBullpenWindow (s : State) : Out :=
  let f := s.fw
  if s.now < f.windowStart + hourTicks then .next s
  else
    let high := (f.corrected.filter (fun x => decide (Config.bullpenThreshold x.1 < x.2 - tblGetD f.window x.1 0))).map Prod.fst
    .next { s with fw := { f with
      window := f.corrected
      overOnce := high
      marked := f.marked ++ high.filter (fun k => f.overOnce.contains k && !f.marked.contains k)
      windowStart := f.windowStart + hourTicks } }

/-- RESERVE_REPLACEMENT: with no block on the die, each of its marked units is replaced where a reserve is left. -/
def execReserveReplacement (die : Nat) (s : State) : Out :=
  if !s.dieEmpty die then .next s
  else
    let one (f : Firmware) (k : Nat) : Firmware :=
      match unitPlace k with
      | (d, some r) =>
        if d ≠ die || f.left d r = 0 then f
        else { f with marked := f.marked.filter (fun x => x != k), overOnce := f.overOnce.filter (fun x => x != k)
                      replaced := tblPut f.replaced (d, r) (f.used d r + 1) }
      | (_, none) => f
    .next (State.publish { s with fw := s.fw.marked.foldl one s.fw })

end Sys2Proof.Machine
end

