-- ==== Sys2Proof/Machine/Limb.lean ====
section
/-! DEFINITION. Bound limbs (R250 to R257). -/

namespace Sys2Proof.Machine

def limbCount : LimbSize → Nat
  | .k2 => 2
  | .k4 => 4
  | .k8 => 8
  | .k16 => 16
  | .k32 => 32

/-- The aligned set of size k that holds a thread. -/
def alignedSet (k : Nat) (t : Tid) : Mask := maskOf (fun u => u.val / k == t.val / k)

/-- LBIND (R251). -/
def execLbind (c : Ctl) (k : LimbSize) (s : State) : Out :=
  begin_ c s (fun e =>
    let k := limbCount k
    let bound := maskOf (fun t => e.act.getLsbD t.val && (e.g.thread t).lbk != 0)
    let split := maskOf (fun t => e.act.getLsbD t.val && (alignedSet k t &&& e.act) != alignedSet k t)
    if bound != 0#32 then e.fault .limbShape bound
    else if split != 0#32 then e.fault .limbShape split
    else .next (e.retire c (e.g.modThreads e.act (fun t th => { th with lbk := k, lix := t.val % k }))))

/-- LFREE (R251). -/
def execLfree (c : Ctl) (s : State) : Out :=
  begin_ c s (fun e => .next (e.retire c (e.g.modThreads e.act (fun _ th => { th with lbk := 0, lix := 0 }))))

/-- The threads of a set, limb 0 first, given its lowest thread and size. -/
def setTids (t0 : Tid) (k : Nat) : List Tid := (List.range k).map (fun i => Fin.ofNat 32 (t0.val + i))

/-- A number of k limbs, limb i worth 2^(32i). -/
def limbsToNat (val : Tid → Word32) : List Tid → Nat
  | [] => 0
  | t :: r => (val t).toNat + 2 ^ 32 * limbsToNat val r

/-- Write the limbs of a number to a vector destination. -/
def writeLimbs (d : VDst) (ts : List Tid) (z : Nat) (g : Group) : Group :=
  match d with
  | .zero => g
  | .v n => (ts.foldl (fun (acc : Group × Nat) t => (acc.1.writeV t n (BitVec.ofNat 32 acc.2), acc.2 / 2 ^ 32)) (g, z)).1

def writeAllP (p : Option PReg) (ts : List Tid) (x : Bool) (g : Group) : Group :=
  match p with
  | none => g
  | some q => ts.foldl (fun g t => g.writeP t q x) g

def writeAllV (d : VDst) (ts : List Tid) (x : Nat) (g : Group) : Group :=
  match d with
  | .zero => g
  | .v n => ts.foldl (fun g t => g.writeV t n (BitVec.ofNat 32 x)) g

/-- What the limb instructions share (R255): the shape check, then the effect on each set, lowest first. `sel` is the
limb a vector word is taken from. -/
def limbOp (c : Ctl) (sel : Option Nat) (f : Iss → Tid → Nat → Group → Group) (s : State) : Out :=
  begin_ c s (fun e =>
    let unbound := maskOf (fun t => e.act.getLsbD t.val && (e.g.thread t).lbk == 0)
    let short := maskOf (fun t => e.act.getLsbD t.val && (match sel with
      | none => false
      | some n => decide ((e.g.thread t).lbk ≤ n)))
    if unbound != 0#32 then e.fault .limbShape unbound
    else if short != 0#32 then e.fault .limbShape short
    else
      let heads := (maskTids e.act).filter (fun t => (e.g.thread t).lix == 0)
      .next (e.retire c (heads.foldl (fun g t => f e t (e.g.thread t).lbk g) e.g)))

/-- A carry or borrow into limb 0. -/
def chainIn (e : Iss) (t0 : Tid) : Option PReg → Nat
  | none => 0
  | some q => if Operand.p e t0 q then 1 else 0

def execLadc (c : Ctl) (d : VDst) (a : VReg) (b : Dst) (cin cout : Option PReg) (s : State) : Out :=
  limbOp c none (fun e t0 k g =>
    let ts := setTids t0 k
    let z := limbsToNat (fun t => Operand.v e t a) ts + limbsToNat (fun t => Operand.dst32 (e.nth 1) t b) ts + chainIn e t0 cin
    writeAllP cout ts (decide (2 ^ (32 * k) ≤ z)) (writeLimbs d ts z g)) s

def execLsbb (c : Ctl) (d : VDst) (a : VReg) (b : Dst) (bin bout : Option PReg) (s : State) : Out :=
  limbOp c none (fun e t0 k g =>
    let ts := setTids t0 k
    let x := limbsToNat (fun t => Operand.v e t a) ts
    let y := limbsToNat (fun t => Operand.dst32 (e.nth 1) t b) ts + chainIn e t0 bin
    writeAllP bout ts (decide (x < y)) (writeLimbs d ts (x + 2 ^ (32 * k) - y) g)) s

/-- X × 2^n; from 32k on nothing of X is left (R255). -/
def execLshl (c : Ctl) (d : VDst) (a : VReg) (cnt : Src) (out : Option PReg) (s : State) : Out :=
  limbOp c none (fun e t0 k g =>
    let ts := setTids t0 k
    let x := limbsToNat (fun t => Operand.v e t a) ts
    let n := (Operand.src32 (e.nth 1) t0 cnt).toNat
    let z := if 32 * k ≤ n then 0 else x * 2 ^ n
    let lost := if 32 * k ≤ n then decide (x ≠ 0) else decide (2 ^ (32 * k) ≤ z)
    writeAllP out ts lost (writeLimbs d ts z g)) s

def execLshr (c : Ctl) (d : VDst) (a : VReg) (cnt : Src) (out : Option PReg) (s : State) : Out :=
  limbOp c none (fun e t0 k g =>
    let ts := setTids t0 k
    let x := limbsToNat (fun t => Operand.v e t a) ts
    let n := (Operand.src32 (e.nth 1) t0 cnt).toNat
    let z := if 32 * k ≤ n then 0 else x / 2 ^ n
    let lost := if 32 * k ≤ n then decide (x ≠ 0) else decide (x % 2 ^ n ≠ 0)
    writeAllP out ts lost (writeLimbs d ts z g)) s

/-- The word w: of limb `sel`, or the uniform register's (R255). -/
def limbWord (e : Iss) (t0 : Tid) (wd : VS) (sel : BitVec 5) : Nat :=
  match wd with
  | .v n => (Operand.v e (Fin.ofNat 32 (t0.val + sel.toNat)) n).toNat
  | .s n => ((Operand.s e n).setWidth 32).toNat

def selLimb (wd : VS) (sel : BitVec 5) : Option Nat :=
  match wd with
  | .v _ => some sel.toNat
  | .s _ => none

def execLmulw (c : Ctl) (d : VDst) (a : VReg) (wd : VS) (hi : VDst) (sel : BitVec 5) (s : State) : Out :=
  limbOp c (selLimb wd sel) (fun e t0 k g =>
    let ts := setTids t0 k
    let z := limbsToNat (fun t => Operand.v e t a) ts * limbWord (e.nth 1) t0 wd sel
    writeAllV hi ts (z / 2 ^ (32 * k)) (writeLimbs d ts z g)) s

def execLmac (c : Ctl) (d : VDst) (a : VReg) (wd : VS) (acc : Dst) (hi : VDst) (sel : BitVec 5) (s : State) : Out :=
  limbOp c (selLimb wd sel) (fun e t0 k g =>
    let ts := setTids t0 k
    let z := limbsToNat (fun t => Operand.v e t a) ts * limbWord (e.nth 1) t0 wd sel
      + limbsToNat (fun t => Operand.dst32 (e.nth 2) t acc) ts
    writeAllV hi ts (z / 2 ^ (32 * k)) (writeLimbs d ts z g)) s

def execLcmp (c : Ctl) (cond : Cond) (d : PReg) (a : VReg) (b : Dst) (s : State) : Out :=
  limbOp c none (fun e t0 k g =>
    let ts := setTids t0 k
    writeAllP (some d) ts (cond.holds (limbsToNat (fun t => Operand.v e t a) ts)
      (limbsToNat (fun t => Operand.dst32 (e.nth 1) t b) ts)) g) s

end Sys2Proof.Machine
end

