-- ==== Sys2Proof/Machine/Mailbox.lean ====
section
/-! DEFINITION. BAR 0 and the mailbox commands (R56, R58, R82 to R85, R392, R393, R412, R413, R426, R434 to R440, R447,
R448). A command is taken by the step that rings the doorbell; a command that takes longer is the same step again. -/

namespace Sys2Proof.Machine

/-! ## Registers (R437, R438) -/

def Mailbox.code (cmd : Word64) : Nat := (cmd.setWidth 16).toNat

/-- What a read of a register gives. -/
def State.mbxRead (s : State) (off : Nat) : Word64 :=
  let m := s.mbx
  if !s.fw.started then 0#64
  else if off = 0x00 then 0x15158#64
  else if off = 0x08 then m.cmd
  else if off = 0x18 then m.stat
  else if off = 0x20 then BitVec.ofNat 64 (fieldsNat [(m.en.toNat, 0), (m.pend.toNat, 1)])
  else if 0x100 ≤ off ∧ off < 0x200 then (m.args[(off - 0x100) / 8]?).getD 0#64
  else if 0x200 ≤ off ∧ off < 0x300 then (m.res[(off - 0x200) / 8]?).getD 0#64
  else 0#64

/-- An aligned 64-bit access within the BAR. -/
def barAccess (off bytes : Nat) : Bool := off % 8 == 0 && bytes == 8 && decide (off + 8 ≤ 65536)

/-- UNSUPPORTED_ACCESS. -/
def execUnsupportedAccess (off bytes : Nat) (s : State) : Out :=
  if barAccess off bytes then .next s
  else .next { s with mbx := { s.mbx with unsupported := s.mbx.unsupported + 1 } }

/-- REGISTER_WRITE: fields named zero stay zero; a doorbell is a command's own step. -/
def execRegisterWrite (off : Nat) (val : Word64) (s : State) : Out :=
  let m := s.mbx
  if !barAccess off 8 || !s.fw.started then .next s
  else if off = 0x08 then .next { s with mbx := { m with cmd := val &&& 0xFFFF00000000FFFF#64 } }
  else if off = 0x20 then
    .next { s with mbx := { m with en := val.getLsbD 0, pend := m.pend && !val.getLsbD 1 } }
  else if 0x100 ≤ off ∧ off < 0x200 then .next { s with mbx := { m with args := m.args.set ((off - 0x100) / 8) val } }
  else .next s

/-- PEND_CLEAR. -/
def execPendClear (s : State) : Out :=
  if s.fw.started then .next { s with mbx := { s.mbx with pend := false } } else .next s

/-- DOORBELL_DISCARD. -/
def execDoorbellDiscard (s : State) : Out :=
  if s.fw.started && s.mbx.busy.isSome then .next { s with mbx := { s.mbx with lost := true } } else .next s

/-- Words up to 32 of them, the rest 0. -/
def resultWords (l : List Word64) : List Word64 := l.take 32 ++ List.replicate (32 - l.length) 0#64

/-- COMMAND_COMPLETION: results, status, then pend and the interrupt; busy stays 1 during an Umpire reset (R438). -/
def execCommandCompletion (s : State) : Out :=
  let m := s.mbx
  match m.busy, m.outcome, s.fw.umpire with
  | some (cmd, _), some (res, status, detail), .running =>
    .next { s with mbx := { m with
      res := resultWords res
      stat := BitVec.ofNat 64 (fieldsNat [((cmd.extractLsb' 48 16).toNat, 48), (Mailbox.code cmd, 32), (detail, 16),
        (m.lost.toNat, 9), (status, 0)])
      busy := none
      outcome := none
      lost := false
      pend := true
      interrupts := m.interrupts + m.en.toNat } }
  | _, _, _ => .next s

/-! ## How a command runs (R438, R446, R448) -/

/-- The outcome of a command: results, status, detail. -/
def State.outcome (s : State) (res : List Word64) (status detail : Nat) : State :=
  { s with mbx := { s.mbx with outcome := some (res, status, detail) } }
def State.done (s : State) (res : List Word64) : State := s.outcome res 0 0
def State.failed (s : State) (status detail : Nat) : State := s.outcome [] status detail

/-- The doorbell: busy, and a copy of the command and of its arguments. -/
def State.ring (s : State) : State :=
  let m := s.mbx
  { s with mbx := { m with
      busy := some (m.cmd, m.args), stat := m.stat ||| 0x100#64, outcome := none, begun := false, mark := s.nextId
      saved := 0 } }

/-- The command that a step may run: the one in MBX_CMD, which the step submits, or the one under way. -/
def State.current (s : State) : Option (Nat × List Word64 × State) :=
  match s.mbx.busy with
  | none => if s.fw.started then some (Mailbox.code s.mbx.cmd, s.mbx.args, s.ring) else none
  | some (cmd, args) => if s.mbx.outcome.isNone then some (Mailbox.code cmd, args, s) else none

/-- A step of a command of a code, if `p` holds of its arguments. While the Umpire pair resets, the command is only
taken. -/
def State.command (s : State) (code : Nat) (p : (Nat → Word64) → Bool) (f : (Nat → Word64) → State → State) : Out :=
  match s.current with
  | none => .next s
  | some (k, args, s1) =>
    let a (n : Nat) : Word64 := (args[n]?).getD 0#64
    if k ≠ code || !p a then .next s
    else match s1.fw.umpire with
      | .running => .next (f a s1)
      | _ => .next s1

def always : (Nat → Word64) → Bool := fun _ => true

/-- The context that an argument names. -/
def ctxArg (x : Word64) : Nat := (x.setWidth 16).toNat

/-- The first failing argument word, else the context, else its status. -/
def State.withCtx (s : State) (n : Nat) (bad : List (Nat × Bool)) (f : Ctx → State) : State :=
  match bad.find? (fun x => x.2) with
  | some (k, _) => s.failed 0x02 k
  | none => match s.ctx n with
    | none => s.failed 0x03 0
    | some c => f c

/-- The codes of R436. -/
def commandCodes : List Nat :=
  [0x01, 0x02, 0x03, 0x10, 0x11, 0x12, 0x20, 0x21, 0x22, 0x23, 0x30, 0x31, 0x40, 0x50, 0x51, 0x52, 0x60]

/-- UNKNOWN_COMMAND. -/
def execUnknownCommand (s : State) : Out :=
  match s.current with
  | none => .next s
  | some (k, _, s1) =>
    if commandCodes.contains k then .next s
    else match s1.fw.umpire with
      | .running => .next (s1.failed 0x01 0)
      | _ => .next s1

/-! ## Contexts (R345, R392, R439, R456) -/

/-- The argument words that are out of range; a zero field is ignored (R7). -/
def createBad (s : State) (a : Nat → Word64) : List (Nat × Bool) :=
  let x := a 0
  let frame (place pfn n : Nat) : Bool := decide (4 < place) || decide (poolEnd s.fw place < (pfn + n) * 65536)
  let ws (n : Nat) : Nat × Bool :=
    let lo := ((a n).extractLsb' 32 32).toNat
    let len := ((a n).setWidth 32).toNat
    (n, len % 128 != 0 || (len != 0 && (lo / 2 ^ 30 != n - 2 || decide (2 ^ 30 < lo % 2 ^ 30 + len))))
  [(0, frame (x.extractLsb' 13 3).toNat (x.extractLsb' 32 32).toNat 1),
   ws 2, ws 3, ws 4, ws 5,
   (8, (a 8).toNat % 32 != 0),
   (9, (a 9).setWidth 17 == 0#17 || decide (65536 < ((a 9).setWidth 17).toNat)),
   (11, frame ((a 11).extractLsb' 13 3).toNat ((a 11).extractLsb' 32 32).toNat ((a 12).setWidth 32).toNat)]

/-- The record of a new context. -/
def newCtx (now : Nat) (a : Nat → Word64) : Ctx where
  rootPlace := ((a 0).extractLsb' 13 3).toNat
  rootPfn := ((a 0).extractLsb' 32 32).toNat
  glob := (a 0).getLsbD 0
  bkpt := (a 0).getLsbD 1
  cmapBase := a 1
  ws := (List.range 4).map (fun k => (((a (2 + k)).extractLsb' 32 32).toNat, ((a (2 + k)).setWidth 32).toNat))
  recDepart := if (a 6).setWidth 32 = 0#32 then BitVec.ofNat 32 Config.recDepartDefault else (a 6).setWidth 32
  wdog := if a 7 = 0#64 then BitVec.ofNat 64 Config.wdogDefault else a 7
  qtab := a 8
  qcount := ((a 9).setWidth 17).toNat
  thr := ((a 10).setWidth 32).toNat
  areaPlace := ((a 11).extractLsb' 13 3).toNat
  areaPfn := ((a 11).extractLsb' 32 32).toNat
  areaSize := ((a 12).setWidth 32).toNat
  regions := []
  rejects := ⟨[], false⟩
  faults := ⟨[], false⟩
  fbuf := []
  wdogFrom := now

/-- CONTEXT_CREATE. -/
def execContextCreate (s : State) : Out :=
  s.command 0x01 always (fun a s =>
    match (createBad s a).find? (fun x => x.2) with
    | some (k, _) => s.failed 0x02 k
    | none =>
      match firstFrom (fun n => (s.ctx n).isNone) 0 65536 with
      | none => s.failed 0x04 1
      | some n =>
        let c := newCtx s.now a
        if c.areaSize * 65536 < 32 * c.thr + (Config.dugoutNeed c.thr).val then s.failed 0x04 2
        else ({ s with ctxs := tblPut s.ctxs n c }).done [BitVec.ofNat 64 n])

/-- Whether a context has a block resident or saved. -/
def State.hasBlocks (s : State) (ctx : Nat) : Bool :=
  s.blocks.any (fun b => b.1.ctx == ctx) || s.saved.any (fun v => v.1.ctx == ctx)

/-- End every block of a context: the saved ones at once, the resident ones by termination. -/
def State.endBlocks (s : State) (ctx : Nat) : State :=
  let s1 := ((s.saved.filter (fun v => v.1.ctx == ctx)).map Prod.fst).foldl (fun s k => s.endSaved k) s
  { s1 with blocks := s1.blocks.map (fun b =>
      if b.1.ctx = ctx then (b.1, { b.2 with status := .terminating }) else b) }

/-- A message of a context's monitors. -/
def Body.monitorOf (b : Body) (ctx : Nat) : Bool :=
  match b with
  | .acquire c _ _ | .recall c _ _ | .grantReturn c _ _ _ | .grant c _ _ _ _ | .monRelease c _ _ _ _ _ | .notify c _ _ => c == ctx
  | _ => false

/-- A context loses its launches, queues, monitors and regions. -/
def State.wipeCtx (s : State) (ctx : Nat) : State :=
  ({ s with
    launches := s.launches.filter (fun l => l.2.ctx != ctx)
    phases := s.phases.filter (fun p => p.2.ctx != ctx)
    queues := s.queues.filter (fun q => q.1.1 != ctx)
    monitors := s.monitors.filter (fun m => m.1.1 != ctx)
    net := s.net.filter (fun m => !m.body.monitorOf ctx)
    recorder := s.recorder.filter (fun e => e.ctx != ctx)
    gangs := s.gangs.filter (fun g => g.1.1 != ctx)
    cores := s.cores.map (fun (c : Nat × Core) => (c.1, { c.2 with grants := c.2.grants.filter (fun e => e.1.1 != ctx) })) }).modCtx
      ctx (fun c => { c with regions := [] })

/-- A destroyed context's translations and executable mappings go with it. -/
def State.dropCtx (s : State) (ctx : Nat) : State :=
  let keep (t : List TlbEntry) : List TlbEntry := t.filter (fun e => e.ctx != ctx)
  { s with
    ctxs := tblDel s.ctxs ctx
    cores := s.cores.map (fun (c : Nat × Core) => (c.1, { c.2 with
      tlb := keep c.2.tlb
      icache := c.2.icache.filter (fun l => l.1.1 != ctx)
      fetches := c.2.fetches.filter (fun l => l.1.1 != ctx) }))
    clusters := s.clusters.map (fun (c : Nat × Cluster) => (c.1, { c.2 with tlb := keep c.2.tlb }))
    dies := s.dies.map (fun (d : Nat × Die) => (d.1, { d.2 with
      walks := d.2.walks.filter (fun w => w.ctx != ctx), walkQueue := d.2.walkQueue.filter (fun w => w.ctx != ctx)
      walkCache := d.2.walkCache.filter (fun w => w.ctx != ctx) }))
    codeFrames := (s.codeFrames.map (fun f => (f.1, f.2.filter (fun (m : Nat × Word64) => m.1 != ctx)))).filter
      (fun f => !f.2.isEmpty) }

/-- CONTEXT_DESTROY: its blocks end first. -/
def execContextDestroy (s : State) : Out :=
  s.command 0x02 always (fun a s =>
    let n := ctxArg (a 0)
    s.withCtx n [] (fun _ =>
      if s.hasBlocks n then s.endBlocks n else ((s.wipeCtx n).dropCtx n).done []))

/-- CONTEXT_RESET. -/
def execContextReset (ctx : Nat) (s : State) : Out :=
  if (s.ctx ctx).isNone then .next s
  else if s.hasBlocks ctx then .next (s.endBlocks ctx) else .next (s.wipeCtx ctx)

/-- The items that a mask selects (R439). -/
def setItems (a : Nat → Word64) (c : Ctx) : Ctx :=
  let m := a 1
  { c with
    bkpt := if m.getLsbD 0 then (a 2).getLsbD 0 else c.bkpt
    recDepart := if m.getLsbD 1 then (if (a 3).setWidth 32 = 0#32 then BitVec.ofNat 32 Config.recDepartDefault
      else (a 3).setWidth 32) else c.recDepart
    wdog := if m.getLsbD 2 then (if a 4 = 0#64 then BitVec.ofNat 64 Config.wdogDefault else a 4) else c.wdog
    cmapBase := if m.getLsbD 3 then a 5 else c.cmapBase }

/-- A context set: every selected item at once. -/
def State.contextSet (s : State) (p : (Nat → Word64) → Bool) : Out :=
  s.command 0x03 p (fun a s =>
    let n := ctxArg (a 0)
    s.withCtx n [(1, decide (15 < (a 1).toNat))] (fun _ =>
      if (a 1).getLsbD 3 && s.hasBlocks n then s.failed 0x02 5
      else (s.modCtx n (setItems a)).done []))

/-- The four rows of context set: a command that selects several items is any of them. One that selects none is the
first. -/
def execContextSetBkpt (s : State) : Out := s.contextSet (fun a => (a 1).getLsbD 0 || (a 1).setWidth 4 == 0#4)
def execContextSetRecDepart (s : State) : Out := s.contextSet (fun a => (a 1).getLsbD 1)
def execContextSetWdogTicks (s : State) : Out := s.contextSet (fun a => (a 1).getLsbD 2)
def execContextSetCmapBase (s : State) : Out := s.contextSet (fun a => (a 1).getLsbD 3)

/-! ## Code pages (R56 to R58) -/

/-- Firmware writes bytes of one line at its home, then goes on with `f`; the command waits until the line is there (R76,
R92, R136). A write to a peer goes by its port. -/
def State.firmPut (s : State) (flat : Nat) (bs : List Byte) (f : State → State) : State :=
  let l := flat / 128
  let off := flat % 128
  if isPeer l then f (s.firmSend flat bs)
  else match s.ready l with
    | (false, s1) => s1
    | (true, s1) =>
      f (s1.applyStore l (BitVec.ofNat 1024 (leNat bs * 2 ^ (8 * off))) (byteMask off bs.length) false false false).2

/-- The place of the level-3 entry of an address: none where a table on the way is absent or no table. -/
def tableWalk (s : State) (va : Word64) : Nat → Nat → Nat → Option Nat
  | 0, place, pfn => some (flatByte place (pfn * 65536 + 8 * levelIndex va 3))
  | n + 1, place, pfn =>
    let level := 2 - n
    let x : Word64 := leBits 64 (s.homeBytes (flatByte place (pfn * 65536 + 8 * levelIndex va level)) 8)
    if !x.getLsbD 0 || x.getLsbD 4 || (firstReason (tableReasons level x)).isSome then none
    else tableWalk s va n (x.extractLsb' 10 3).toNat (x.extractLsb' 32 32).toNat

/-- Install a leaf and note the mapping of its frame. -/
def State.installLeaf (s : State) (ctx : Nat) (va leaf : Word64) (entry frame : Nat) : State :=
  s.firmPut entry (leBytes 8 leaf.toNat) (fun s =>
    let old := tblGetD s.codeFrames frame []
    ({ s with codeFrames := tblPut s.codeFrames frame (if old.contains (ctx, va) then old else old ++ [(ctx, va)]) } : State).done [])

/-- MAP_CODE_PAGE. -/
def execMapCodePage (s : State) : Out :=
  s.command 0x10 always (fun a s =>
    let n := ctxArg (a 0)
    let va := a 1
    let x := a 2
    s.withCtx n [(1, va.toNat % 65536 != 0 || !canonical va),
        (2, !x.getLsbD 0 || !x.getLsbD 4 || !x.getLsbD 3 || (firstReason (leafReasons s 3 x)).isSome)] (fun c =>
      match tableWalk s va 2 c.rootPlace c.rootPfn with
      | none => s.failed 0x02 1
      | some entry =>
        let place := (x.extractLsb' 10 3).toNat
        let pa := (x.extractLsb' 32 32).toNat * 65536
        let frame := frameOf place pa
        if (tblGet s.codeFrames frame).isSome then s.installLeaf n va x entry frame
        else match s.scanFrame place pa with
          | none => s.installLeaf n va x entry frame
          | some (line, slot, r) =>
            (s.modCtx n (fun c => { c with rejects := c.rejects.push ⟨va, n, line, slot, r.reason, r.detail⟩ })).failed 0x05
              r.reason.toNat))

/-! ## Shootdown (R83 to R86) -/

/-- A range of a shootdown: the context, or all of them, and the addresses. -/
structure Range84 where
  all : Bool
  ctx : Nat
  lo : Nat
  len : Nat

def Range84.has (r : Range84) (ctx : Nat) : Bool := r.all || ctx == r.ctx
/-- Whether some bytes of a context meet the range. -/
def Range84.meets (r : Range84) (ctx : Nat) (va n : Nat) : Bool :=
  r.has ctx && decide (va < r.lo + r.len) && decide (r.lo < va + n)
def Range84.leaf (r : Range84) (ctx : Nat) (l : Leaf) : Bool := r.meets ctx l.base.toNat (leafSize l.level)

/-- Step 1: the entries go, with the instruction lines filled through them; buffer entries drain under new translations. -/
def State.shoot (s : State) (r : Range84) : State :=
  let keep (t : List TlbEntry) : List TlbEntry := t.filter (fun e => !r.leaf e.ctx e.leaf)
  { s with
    cores := s.cores.map (fun (c : Nat × Core) => (c.1, { c.2 with
      tlb := keep c.2.tlb
      icache := c.2.icache.filter (fun l => !r.meets l.1.1 l.1.2.toNat 64)
      fetches := c.2.fetches.filter (fun l => !r.meets l.1.1 l.1.2.toNat 64)
      buffer := c.2.buffer.map (fun b => if r.meets b.ctx b.va.toNat 128 then { b with retrans := true } else b) }))
    clusters := s.clusters.map (fun (c : Nat × Cluster) => (c.1, { c.2 with tlb := keep c.2.tlb }))
    dies := s.dies.map (fun (d : Nat × Die) => (d.1, { d.2 with
      walkCache := d.2.walkCache.filter (fun e => !r.meets e.ctx e.base.toNat (leafSize e.level)) })) }

/-- Steps 2 and 3: accesses of the contexts that began before, copy units under leaves of the range, drains that have been
posted under them, MCLD lines, buffer entries. -/
def State.shotPending (s : State) (r : Range84) (mark : Nat) : Bool :=
  s.groups.any (fun g => r.has g.1.key.ctx && g.2.ops.any (fun o =>
    decide (o.id < mark) && (o.cls == .ld || o.cls == .st || o.cls == .none))) ||
  s.cores.any (fun c => c.2.buffer.any (fun b => b.retrans && r.meets b.ctx b.va.toNat 128) ||
    c.2.slots.any (fun x =>
      let ctx := x.2.g.key.ctx
      x.2.inFlight.any (fun u => u.2.any (r.leaf ctx)) ||
      (x.2.isMcld && decide (x.2.op < mark) && (List.range x.2.units).any (fun j =>
        !x.2.landed.contains j && !x.2.todo.contains (j, none) && r.meets ctx (x.2.src.toNat + 128 * j) 128)))) ||
  s.clusters.any (fun c => c.2.table.any (fun x => decide (x.2.id < mark) && x.2.leaves.any (r.leaf x.1.ctx)))

/-- A frame stays marked while one of its executable mappings is still there (R56). -/
def State.unmark (s : State) (r : Range84) : State :=
  let there (f : Nat) (m : Nat × Word64) : Bool :=
    match s.walk m.1 m.2 with
    | .leaf l => l.x && l.level == 3 && frameOf l.place l.pa == f
    | _ => false
  { s with codeFrames := (s.codeFrames.map (fun f =>
      (f.1, f.2.filter (fun (m : Nat × Word64) => !r.meets m.1 m.2.toNat 65536 || there f.1 m)))).filter (fun f => !f.2.isEmpty) }

/-- SHOOTDOWN. -/
def execShootdown (s : State) : Out :=
  s.command 0x11 always (fun a s =>
    let all := (a 0).setWidth 32 == 0xFFFFFFFF#32
    let n := ctxArg (a 0)
    let r : Range84 := ⟨all, n, (a 1).toNat, (a 2).toNat⟩
    let go (_ : Unit) : State :=
      if !s.mbx.begun then
        let s1 := s.shoot r
        { s1 with mbx := { s1.mbx with begun := true } }
      else if s.shotPending r s.mbx.mark then s
      else (s.unmark r).done []
    if (a 1).toNat % 65536 ≠ 0 then s.failed 0x02 1
    else if (a 2).toNat % 65536 ≠ 0 then s.failed 0x02 2
    else if all then go () else s.withCtx n [] (fun _ => go ()))

/-! ## Resolution of faults (R82) -/

/-- A parked group that a fault record names. -/
def isParkedAt (g : Group) (core time : Nat) : Bool :=
  g.core == core && (match g.parked with
    | some p => p.time == time && !p.resolved
    | none => false)

/-- FAULT_RESOLVE: the group's instruction, or the copy, goes again; a saved one goes again when it is resumed. -/
def execFaultResolve (s : State) : Out :=
  s.command 0x12 always (fun a s =>
    let n := ctxArg (a 0)
    let core := ((a 1).extractLsb' 16 10).toNat
    let grp := ((a 1).setWidth 6).toNat
    let time := (a 2).toNat
    s.withCtx n [] (fun _ =>
      let here (x : GroupRef × Group) : Bool := x.1.key.ctx == n && x.1.grp == grp && isParkedAt x.2 core time
      let copy (x : CopyCmd) : Bool := x.g.key.ctx == n && x.g.grp == grp && (match x.state with
        | .parked _ t => t == time
        | _ => false)
      let copies := (s.core core).slots.any (fun x => copy x.2)
      let away := s.saved.any (fun v => v.1.ctx == n &&
        (v.2.groups.any (fun g => g.1 == grp && isParkedAt g.2 core time) ||
          (v.2.block.cores.contains core && v.2.commands.any copy)))
      if !(s.groups.any here || copies || away) then s.failed 0x07 0
      else
        let s1 := { s with groups := s.groups.map (fun (x : GroupRef × Group) =>
          if here x then (x.1, { x.2 with parked := x.2.parked.map (fun (p : Parked) => { p with resolved := true }) }) else x) }
        let s2 := if copies then s1.modCore core (fun c => { c with slots := c.slots.map (fun (x : Nat × CopyCmd) =>
            if copy x.2 then (x.1, { x.2 with state := .running }) else x) }) else s1
        s2.done []))

/-! ## Launches and queues (R393 to R395, R402, R405) -/

/-- A queue argument that is in the table, of some kinds, and open if that is asked. -/
def State.queueBad (s : State) (ctx : Nat) (x : Word64) (kinds : List Nat) (open_ : Bool) : Bool :=
  match s.ctx ctx with
  | none => false
  | some c =>
    let q := s.queue ctx x.toNat
    decide (c.qcount ≤ x.toNat) || !kinds.contains q.kind || (open_ && q.cl)

/-- MBX_LAUNCH. -/
def execMbxLaunch (s : State) : Out :=
  s.command 0x20 always (fun a s =>
    let n := ctxArg (a 0)
    let q := (a 1).toNat
    s.withCtx n [(1, s.queueBad n (a 1) [3] true), (2, (a 2).toNat % 128 != 0)] (fun _ =>
      match s.firmBytes n (a 2) 128 with
      | none => s.failed 0x02 2
      | some bs =>
        match s.readLaunch n bs true with
        | .error k => s.failed 0x05 k
        | .ok (lr, runs) =>
          let x := s.queue n q
          match s.hostRoom n q x with
          | none => s.failed 0x04 4
          | some backing =>
            ((s.putQueue n q { x with seq := x.seq + 1 }).accept n (some q) x.seq lr (a 2) runs .host 0 none [] backing).done
              [BitVec.ofNat 64 x.seq]))

/-- The descriptor of a queue, as the table in memory holds it. -/
def Queue.descriptor (x : Queue) : List Byte :=
  leBytes 32 (fieldsNat [(x.tmpl.toNat, 192), (x.timer, 160), (x.bcap, 128), (x.bbase.toNat, 64), (x.ncoal, 32), (x.cl.toNat, 9),
    (x.ext.toNat, 8), (x.rsz, 4), (x.kind, 0)])

/-- Where a queue's entry lies. -/
def State.entryFlat (s : State) (ctx q : Nat) (c : Ctx) : Option Nat :=
  match s.walk ctx (c.qtab + BitVec.ofNat 64 (32 * q)) with
  | .leaf l =>
    let va := c.qtab + BitVec.ofNat 64 (32 * q)
    if s.peerDead (l.line va) || s.isCode (l.flat va) then none else some (l.flat va)
  | _ => none

/-- QUEUE_SET: records and sequence stay. A bin that waits for a new template may launch again. -/
def execQueueSet (s : State) : Out :=
  s.command 0x21 always (fun a s =>
    let n := ctxArg (a 0)
    let q := (a 1).toNat
    let d := a 2
    let kind := (d.setWidth 2).toNat
    let ncoal := (d >>> 32).toNat
    s.withCtx n [(1, (match s.ctx n with
          | none => false
          | some c => decide (c.qcount ≤ q))),
        (2, if kind = 2 then decide (ncoal < 1) || decide (4096 < ncoal) else ncoal != 0),
        (3, (a 3).toNat % 128 != 0)] (fun c =>
      match s.entryFlat n q c with
      | none => s.failed 0x04 3
      | some flat =>
        let x := { s.queue n q with
          tmpl := a 5
          timer := ((a 4).extractLsb' 32 32).toNat
          bcap := ((a 4).setWidth 32).toNat
          bbase := a 3
          ncoal := ncoal
          cl := d.getLsbD 9
          ext := d.getLsbD 8
          rsz := (d.extractLsb' 4 4).toNat
          kind := kind
          error := none }
        s.firmPut flat x.descriptor (fun s =>
          let s1 := s.putQueue n q x
          (if x.cl then s1.closeQueue n q else s1).done [])))

/-- The bytes of a record in a context's memory. -/
def State.firmRecord (s : State) (ctx : Nat) (va : Word64) : Nat → Option (List Byte)
  | 0 => some []
  | k + 1 => match s.firmFlat ctx va, State.firmRecord s ctx (va + 1#64) k with
    | some f, some r => some (s.firmByte f :: r)
    | _, _ => none

/-- QUEUE_PUSH: the record carries weight 0. -/
def execQueuePush (s : State) : Out :=
  s.command 0x22 always (fun a s =>
    let n := ctxArg (a 0)
    let q := (a 1).toNat
    s.withCtx n [(1, s.queueBad n (a 1) [1, 2] true)] (fun _ =>
      match s.firmRecord n (a 2) (s.queue n q).recBytes with
      | none => s.failed 0x02 2
      | some bs => match s.pushRec n q bs 0 none with
        | none => s.done [0#64]
        | some s1 => s1.done [1#64]))

/-- QUEUE_CLOSE. -/
def execQueueClose (s : State) : Out :=
  s.command 0x23 always (fun a s =>
    let n := ctxArg (a 0)
    let q := (a 1).toNat
    s.withCtx n [(1, s.queueBad n (a 1) [0, 1, 2, 3] false)] (fun c =>
      match s.entryFlat n q c with
      | none => (s.closeQueue n q).done []
      | some flat => s.firmPut flat { s.queue n q with cl := true }.descriptor (fun s => (s.closeQueue n q).done [])))

/-! ## Pre-emption and resumption (R426, R434) -/

/-- PRE_EMPT: the blocks named stop, and the command is over when none of them is still to be saved. -/
def execPreEmpt (s : State) : Out :=
  s.command 0x30 always (fun a s =>
    let n := ctxArg (a 0)
    let named (k : BlockKey) (b : Block) : Bool :=
      k.ctx == n && (a 1 == BitVec.allOnes 64 || (match tblGet s.launches b.launch with
        | some l => l.seq == (a 1).toNat
        | none => false)) && (a 2 == BitVec.allOnes 64 || k.blk == (a 2).toNat)
    s.withCtx n [] (fun _ =>
      if !s.mbx.begun then
        let s1 := s.stopBlocks named
        { s1 with mbx := { s1.mbx with begun := true } }
      else if s.blocks.any (fun b => named b.1 b.2 && b.2.status == .stopping) then s
      else s.done [BitVec.ofNat 64 s.mbx.saved]))

/-- RESUME. -/
def execResume (s : State) : Out :=
  s.command 0x31 always (fun a s =>
    let n := ctxArg (a 0)
    s.withCtx n [] (fun _ =>
      let mine (v : BlockKey × Saved) : Bool := v.1.ctx == n && !v.2.resuming
      ({ s with saved := s.saved.map (fun (v : BlockKey × Saved) => if mine v then (v.1, { v.2 with resuming := true }) else v) }).done
        [BitVec.ofNat 64 (s.saved.filter mine).length]))

/-! ## Logs (R58, R412, R413, R436) -/

def RejectRec.words (r : RejectRec) (ovf : Bool) : List Word64 :=
  [BitVec.ofNat 64 (fieldsNat [(r.ctx, 48), (r.line, 38), (r.slot, 35), (ovf.toNat, 34), (r.reason.toNat, 24),
    (r.detail.toNat, 16)]), r.page]

/-- The kind field of a fault record. -/
def FaultKind.code : FaultKind → Nat
  | .fatal => 0
  | .replayable => 1
  | .handled => 2
  | .discardedMember => 3

def FaultRec.words (r : FaultRec) (ovf : Bool) : List Word64 :=
  let i := r.info
  [0#64, 0#64, 0#64,
   BitVec.ofNat 64 (fieldsNat [(r.ctx, 48), (r.core, 38), (r.grp, 32), (i.code.byte.toNat, 24), (i.reason.toNat, 16),
     (r.kind.code, 14), (ovf.toNat, 13), (i.fb.getD 0xFF, 0)]),
   BitVec.ofNat 64 (fieldsNat [(i.mask.toNat, 32), (r.blk, 0)]), BitVec.ofNat 64 r.time, i.pc, i.addr]

/-- An entry's 160 bytes as words. -/
def FbEntry.words (e : FbEntry) : List Word64 :=
  [e.va, e.mask.setWidth 64, e.mask.extractLsb' 64 64, 0#64] ++ (List.range 16).map (fun k => e.data.extractLsb' (64 * k) 64)

/-- The oldest record of a log, and the log without it. -/
def Log.pop {α : Type} (l : Log α) : Option (α × Bool × Log α) :=
  match l.recs with
  | [] => none
  | x :: r => some (x, l.ovf, ⟨r, false⟩)

/-- LOG_READ_REJECT. A log number that there is none of fails here. -/
def execLogReadReject (s : State) : Out :=
  s.command 0x40 (fun a => a 1 == 0#64 || decide (2 < (a 1).toNat)) (fun a s =>
    let n := ctxArg (a 0)
    s.withCtx n [(1, a 1 != 0#64)] (fun c =>
      match c.rejects.pop with
      | none => s.failed 0x06 0
      | some (r, ovf, l) => (s.modCtx n (fun c => { c with rejects := l })).done (r.words ovf)))

/-- LOG_READ_FAULT. -/
def execLogReadFault (s : State) : Out :=
  s.command 0x40 (fun a => a 1 == 1#64) (fun a s =>
    let n := ctxArg (a 0)
    s.withCtx n [] (fun c =>
      match c.faults.pop with
      | none => s.failed 0x06 0
      | some (r, ovf, l) => (s.modCtx n (fun c => { c with faults := l })).done (r.words ovf)))

/-- LOG_READ_FAULT_BUFFER. -/
def execLogReadFaultBuffer (s : State) : Out :=
  s.command 0x40 (fun a => a 1 == 2#64) (fun a s =>
    let n := ctxArg (a 0)
    let k := (a 2).toNat
    s.withCtx n [(2, decide (64 ≤ k))] (fun c =>
      match tblGet c.fbuf k with
      | none => s.failed 0x06 0
      | some e => (s.modCtx n (fun c => { c with fbuf := tblDel c.fbuf k })).done e.words))

/-! ## Firmware update and records (R440, R447, R448) -/

/-- UPDATE_WRITE: bytes of host memory go into the bank that is not active. -/
def execUpdateWrite (s : State) : Out :=
  s.command 0x50 always (fun a s =>
    let off := (a 0).toNat
    let at_ := (a 1).toNat
    let len := (a 2).toNat
    if off % 4096 ≠ 0 then s.failed 0x02 0
    else if peerBase < at_ + len then s.failed 0x02 1
    else if len < 1 ∨ 2 ^ 20 < len then s.failed 0x02 2
    else
      let bank := Memory.writeL s.fw.idleBank off (s.homeBytes (hostKey at_) len)
      ({ s with fw := { s.fw with
          bankA := if s.fw.activeB then bank else s.fw.bankA
          bankB := if s.fw.activeB then s.fw.bankB else bank
          verified := false } }).done [])

/-- UPDATE_VERIFY. An accepted image is measured. -/
def execUpdateVerify (s : State) : Out :=
  s.command 0x51 always (fun _ s =>
    let x := s.fw.idleBank
    if !Config.signatureValid x then s.failed 0x05 1
    else if Config.securityVersion x < Config.fusedMinimum then s.failed 0x05 2
    else ({ s with fw := { s.fw with verified := true, measurements := s.fw.measurements ++ [Config.measurement x] } }).done [])

/-- UPDATE_ACTIVATE: the pair passes its tables to the new image; once that has passed its self-test it is the active one. -/
def execUpdateActivate (s : State) : Out :=
  match s.fw.umpire, s.mbx.busy, s.mbx.outcome with
  | .switching since, some _, none =>
    if Config.selfTest s.fw.idleBank && decide (s.now < since + selfTestTicks) then
      .next (({ s with fw := { s.fw with activeB := !s.fw.activeB, verified := false, umpire := .running } } : State).done [])
    else .next s
  | _, _, _ =>
    s.command 0x52 always (fun _ s =>
      if s.fw.verified then { s with fw := { s.fw with umpire := .switching s.now } } else s.failed 0x05 1)

/-- RECORD_READ. The sensors are sampled where a record is read from its beginning. -/
def execRecordRead (s : State) : Out :=
  s.command 0x60 always (fun a s =>
    let off := (a 1).toNat
    let s1 := if off = 0 then s.senseAgain else s
    match s1.telemetry ((a 0).setWidth 16).toNat with
    | none => s.failed 0x02 0
    | some r =>
      if off % 8 ≠ 0 ∨ r.length ≤ off then s.failed 0x02 1
      else
        let bs := (r.drop off).take 256
        s1.outcome ((List.range ((bs.length + 7) / 8)).map (fun k => leBits 64 ((bs.drop (8 * k)).take 8))) 0 bs.length)

end Sys2Proof.Machine
end

