-- ==== Sys2Proof/Machine/Reset.lean ====
section
/-! DEFINITION. The reset levels (R4, R170, R354, R408, R411, R456). -/

namespace Sys2Proof.Machine

/-! ## What stands before a reset -/

/-- The blocks of a unit are pre-empted; those of a unit that does not respond are terminated. -/
def State.clearUnit (s : State) (p : Block → Bool) (dead : Bool) : State :=
  if dead then
    { (s.blocks.foldl (fun (s : State) b =>
        if p b.2 && b.2.latch.isNone then s.record ⟨b.1, 0⟩ .fatal { code := .peerGone } else s) s) with
      blocks := s.blocks.map (fun b =>
        if p b.2 && b.2.latch.isNone then
          (b.1, { b.2 with latch := some (0, { code := .peerGone }), status := .terminating })
        else b) }
  else s.stopBlocks (fun _ b => p b)

/-- A reset of a unit: first its blocks leave it, then `f`. -/
def State.resetUnit (s : State) (p : Block → Bool) (dead : Bool) (f : State → State) : Out :=
  if s.blocks.any (fun b => p b.2) then .next (s.clearUnit p dead) else .next (f s)

/-! ## Cores and clusters -/

/-- A core loses its L1, buffers, barriers and grant cache. Pushed lines on their way in are discarded, and the grants go
home. -/
def State.resetCore (s : State) (core : Nat) : State :=
  let ctxs := ((s.core core).grants.map (fun e => e.1.1)).eraseDups
  let s1 := ctxs.foldl (fun s n => s.returnGrants core n (fun _ => true)) s
  let s2 := (s1.core core).landing.foldl (fun s p => s.ackPush p true) s1
  (s2.dropCopies core (fun _ _ => true)).modCore core (fun c => { c with
    copies := [], reqs := [], weights := [], buffer := [], landing := [], grants := [], slots := [], seq := 0, victims := [], score := 0
    lastScore := 0 })

/-- CORE_RESET. -/
def execCoreReset (core : Nat) (dead : Bool) (s : State) : Out :=
  s.resetUnit (fun b => b.cores.contains core) dead (fun s => s.resetCore core)

/-- A cluster loses its tile file, reservation table and TLB. -/
def State.resetCluster (s : State) (cl : Nat) : State :=
  s.modCluster cl (fun c => { c with tlb := [], tiles := [], table := [], busy := none })

/-- CLUSTER_RESET. -/
def execClusterReset (cluster : Nat) (dead : Bool) (s : State) : Out :=
  s.resetUnit (fun b => b.cluster == cluster) dead (fun s => s.resetCluster cluster)

/-! ## Recorders and weight stores -/

/-- A die's recorders lose their entries, which each slice counts as dropped: every open region with one there falls back
(R170). -/
def State.resetRecorder (s : State) (die : Nat) : State :=
  let lost := s.recorder.filter (fun e => homeDie e.line == die)
  let open_ (s : State) (e : RecEntry) : Bool := (s.region e.ctx e.region).state != 0
  let s1 := { s with recorder := s.recorder.filter (fun e => homeDie e.line != die) }
  let s2 := lost.foldl (fun s e =>
    if open_ s e then s.countRegion e.ctx e.region (sliceUnit e.line) (fun c => { c with drop := c.drop + 1 }) else s) s1
  ((lost.filter (open_ s)).map (fun e => (e.ctx, e.region))).eraseDups.foldl (fun s k =>
    ((s.modRegion k.1 k.2 (fun r => { r with state := 3 })).broadcast k.1 k.2 3 .plain).2) s2

/-- RECORDER_RESET. -/
def execRecorderReset (die : Nat) (s : State) : Out := .next (s.resetRecorder die)

/-- A die's weight store loses its contents: it reads zero, and no L1 holds a line of it. -/
def State.resetWeights (s : State) (die : Nat) : State :=
  let lo := weightKey die 0
  { s with
    mem := s.mem.clear lo (2 ^ 30)
    poison := s.poison.filter (fun p => match p with
      | .byte b => decide (b < lo ∨ lo + 2 ^ 30 ≤ b)
      | _ => true)
    cores := s.cores.map (fun (c : Nat × Core) => (c.1, { c.2 with weights := c.2.weights.filter (fun w => w.1 / 2 ^ 23 != die) })) }

/-- WEIGHT_STORE_RESET: only while no context with a range there has a block resident or saved. -/
def execWeightStoreReset (die : Nat) (s : State) : Out :=
  if s.ctxs.any (fun c => s.hasBlocks c.1 && (match c.2.ws[die]? with
      | some (_, len) => len != 0
      | none => false)) then .next s
  else .next (s.resetWeights die)

/-! ## A die -/

/-- Lines of a die's slices and gateway caches are lost; their eviction registers are 0 (R91, R101). -/
def State.resetCaches (s : State) (die : Nat) : State :=
  ({ s with
    lines := s.lines.filter (fun x => isHost x.1 || homeDie x.1 != die)
    gateways := s.gateways.filter (fun x => x.1.1 != die) }).modDie die (fun _ =>
      { Die.reset with lastEnable := s.now, lastEngine := s.now, emptySince := s.now })

/-- A die loses its caches, TLBs, counters, recorders and weight store; its cores and engines are enabled anew. -/
def State.resetDie (s : State) (die : Nat) : State :=
  let cores := (s.cores.map Prod.fst).filter (fun c => dieOfCore c == die)
  let clusters := (s.clusters.map Prod.fst).filter (fun c => dieOfCluster c == die)
  let s1 := cores.foldl (fun s c => (s.resetCore c).modCore c (fun x =>
    { x with icache := [], fetches := [], tlb := [], enabled := false })) s
  let s2 := clusters.foldl (fun s c => (s.resetCluster c).modCluster c (fun x => { x with enabled := false })) s1
  ((s2.resetCaches die).resetRecorder die).resetWeights die

/-- DIE_RESET. -/
def execDieReset (die : Nat) (dead : Bool) (s : State) : Out :=
  s.resetUnit (fun b => b.cores.any (fun c => dieOfCore c == die)) dead (fun s => s.resetDie die)

/-! ## The device -/

/-- The bytes outside the device: the CXL tier and host memory. -/
def outsideBytes (m : Memory) : Memory := m.filter (fun c => decide (cxlKey 0 ≤ c.1) && decide (c.1 < weightKey 0 0))

/-- DEVICE_RESET: everything but the fuses and the firmware banks, the boot record among them. What is outside the device
is as it was. -/
def execDeviceReset (s : State) : Out :=
  .next { State.reset with
    mem := outsideBytes s.mem
    poison := s.poison.filter (fun p => match p with
      | .byte b => decide (cxlKey 0 ≤ b) && decide (b < weightKey 0 0)
      | _ => false)
    agenda := s.agenda
    fresh := s.fresh
    nextId := s.nextId
    fw := { Firmware.reset with
      bankA := s.fw.bankA
      bankB := s.fw.bankB
      activeB := s.fw.activeB
      bootCount := s.fw.bootCount
      bootFailed := s.fw.bootFailed
      alternate := s.fw.alternate
      skipped := s.fw.skipped } }

end Sys2Proof.Machine
end

