-- ==== Sys2Proof/Machine/Dispatch.lean ====
section
/-! DEFINITION. One arm per row of the table of operations and events. -/

namespace Sys2Proof.Machine

def exec (i : Instr) (s : State) : Host.Outcome State Fault Refusal :=
  match i with
  | .nop a1 => Sys2Proof.Machine.execNop a1 s
  | .bra a1 a2 => Sys2Proof.Machine.execBra a1 a2 s
  | .brx a1 a2 => Sys2Proof.Machine.execBrx a1 a2 s
  | .call a1 a2 a3 => Sys2Proof.Machine.execCall a1 a2 a3 s
  | .callx a1 a2 a3 => Sys2Proof.Machine.execCallx a1 a2 a3 s
  | .ret a1 a2 => Sys2Proof.Machine.execRet a1 a2 s
  | .exit a1 => Sys2Proof.Machine.execExit a1 s
  | .yield a1 => Sys2Proof.Machine.execYield a1 s
  | .wait a1 a2 a3 a4 a5 => Sys2Proof.Machine.execWait a1 a2 a3 a4 a5 s
  | .sleep a1 a2 a3 => Sys2Proof.Machine.execSleep a1 a2 a3 s
  | .wake a1 a2 a3 => Sys2Proof.Machine.execWake a1 a2 a3 s
  | .trap a1 a2 => Sys2Proof.Machine.execTrap a1 a2 s
  | .tret a1 => Sys2Proof.Machine.execTret a1 s
  | .bkpt a1 a2 => Sys2Proof.Machine.execBkpt a1 a2 s
  | .sysrd a1 a2 a3 => Sys2Proof.Machine.execSysrd a1 a2 a3 s
  | .syswr a1 a2 a3 => Sys2Proof.Machine.execSyswr a1 a2 a3 s
  | .vote a1 a2 a3 a4 => Sys2Proof.Machine.execVote a1 a2 a3 a4 s
  | .shfl a1 a2 a3 a4 a5 a6 a7 => Sys2Proof.Machine.execShfl a1 a2 a3 a4 a5 a6 a7 s
  | .gred a1 a2 a3 a4 a5 => Sys2Proof.Machine.execGred a1 a2 a3 a4 a5 s
  | .gscan a1 a2 a3 a4 a5 a6 => Sys2Proof.Machine.execGscan a1 a2 a3 a4 a5 a6 s
  | .mov a1 a2 a3 a4 => Sys2Proof.Machine.execMov a1 a2 a3 a4 s
  | .movi a1 a2 a3 a4 => Sys2Proof.Machine.execMovi a1 a2 a3 a4 s
  | .iadd a1 a2 a3 a4 a5 => Sys2Proof.Machine.execIadd a1 a2 a3 a4 a5 s
  | .isub a1 a2 a3 a4 a5 => Sys2Proof.Machine.execIsub a1 a2 a3 a4 a5 s
  | .imul a1 a2 a3 a4 a5 => Sys2Proof.Machine.execImul a1 a2 a3 a4 a5 s
  | .imulh a1 a2 a3 a4 a5 => Sys2Proof.Machine.execImulh a1 a2 a3 a4 a5 s
  | .imad a1 a2 a3 a4 a5 a6 => Sys2Proof.Machine.execImad a1 a2 a3 a4 a5 a6 s
  | .imadw a1 a2 a3 a4 a5 a6 => Sys2Proof.Machine.execImadw a1 a2 a3 a4 a5 a6 s
  | .imin a1 a2 a3 a4 a5 => Sys2Proof.Machine.execImin a1 a2 a3 a4 a5 s
  | .imax a1 a2 a3 a4 a5 => Sys2Proof.Machine.execImax a1 a2 a3 a4 a5 s
  | .iabs a1 a2 a3 a4 => Sys2Proof.Machine.execIabs a1 a2 a3 a4 s
  | .and a1 a2 a3 a4 a5 => Sys2Proof.Machine.execAnd a1 a2 a3 a4 a5 s
  | .or a1 a2 a3 a4 a5 => Sys2Proof.Machine.execOr a1 a2 a3 a4 a5 s
  | .xor a1 a2 a3 a4 a5 => Sys2Proof.Machine.execXor a1 a2 a3 a4 a5 s
  | .not a1 a2 a3 a4 => Sys2Proof.Machine.execNot a1 a2 a3 a4 s
  | .shl a1 a2 a3 a4 a5 => Sys2Proof.Machine.execShl a1 a2 a3 a4 a5 s
  | .shr a1 a2 a3 a4 a5 => Sys2Proof.Machine.execShr a1 a2 a3 a4 a5 s
  | .sar a1 a2 a3 a4 a5 => Sys2Proof.Machine.execSar a1 a2 a3 a4 a5 s
  | .rot a1 a2 a3 a4 a5 => Sys2Proof.Machine.execRot a1 a2 a3 a4 a5 s
  | .bfx a1 a2 a3 a4 a5 a6 => Sys2Proof.Machine.execBfx a1 a2 a3 a4 a5 a6 s
  | .bfi a1 a2 a3 a4 a5 a6 a7 => Sys2Proof.Machine.execBfi a1 a2 a3 a4 a5 a6 a7 s
  | .popc a1 a2 a3 a4 => Sys2Proof.Machine.execPopc a1 a2 a3 a4 s
  | .clz a1 a2 a3 a4 => Sys2Proof.Machine.execClz a1 a2 a3 a4 s
  | .brev a1 a2 a3 a4 => Sys2Proof.Machine.execBrev a1 a2 a3 a4 s
  | .iset a1 a2 a3 a4 a5 a6 => Sys2Proof.Machine.execIset a1 a2 a3 a4 a5 a6 s
  | .sel a1 a2 a3 a4 a5 a6 => Sys2Proof.Machine.execSel a1 a2 a3 a4 a5 a6 s
  | .lea a1 a2 a3 a4 a5 a6 => Sys2Proof.Machine.execLea a1 a2 a3 a4 a5 a6 s
  | .idiv a1 a2 a3 a4 a5 a6 => Sys2Proof.Machine.execIdiv a1 a2 a3 a4 a5 a6 s
  | .pset a1 a2 a3 a4 a5 => Sys2Proof.Machine.execPset a1 a2 a3 a4 a5 s
  | .lbind a1 a2 => Sys2Proof.Machine.execLbind a1 a2 s
  | .lfree a1 => Sys2Proof.Machine.execLfree a1 s
  | .ladc a1 a2 a3 a4 a5 a6 => Sys2Proof.Machine.execLadc a1 a2 a3 a4 a5 a6 s
  | .lsbb a1 a2 a3 a4 a5 a6 => Sys2Proof.Machine.execLsbb a1 a2 a3 a4 a5 a6 s
  | .lshl a1 a2 a3 a4 a5 => Sys2Proof.Machine.execLshl a1 a2 a3 a4 a5 s
  | .lshr a1 a2 a3 a4 a5 => Sys2Proof.Machine.execLshr a1 a2 a3 a4 a5 s
  | .lmulw a1 a2 a3 a4 a5 a6 => Sys2Proof.Machine.execLmulw a1 a2 a3 a4 a5 a6 s
  | .lmac a1 a2 a3 a4 a5 a6 a7 => Sys2Proof.Machine.execLmac a1 a2 a3 a4 a5 a6 a7 s
  | .lcmp a1 a2 a3 a4 a5 => Sys2Proof.Machine.execLcmp a1 a2 a3 a4 a5 s
  | .fadd a1 a2 a3 a4 a5 a6 => Sys2Proof.Machine.execFadd a1 a2 a3 a4 a5 a6 s
  | .fsub a1 a2 a3 a4 a5 a6 => Sys2Proof.Machine.execFsub a1 a2 a3 a4 a5 a6 s
  | .fmul a1 a2 a3 a4 a5 a6 => Sys2Proof.Machine.execFmul a1 a2 a3 a4 a5 a6 s
  | .ffma a1 a2 a3 a4 a5 a6 a7 => Sys2Proof.Machine.execFfma a1 a2 a3 a4 a5 a6 a7 s
  | .fmin a1 a2 a3 a4 a5 => Sys2Proof.Machine.execFmin a1 a2 a3 a4 a5 s
  | .fmax a1 a2 a3 a4 a5 => Sys2Proof.Machine.execFmax a1 a2 a3 a4 a5 s
  | .fabs a1 a2 a3 a4 => Sys2Proof.Machine.execFabs a1 a2 a3 a4 s
  | .fneg a1 a2 a3 a4 => Sys2Proof.Machine.execFneg a1 a2 a3 a4 s
  | .fset a1 a2 a3 a4 a5 a6 a7 => Sys2Proof.Machine.execFset a1 a2 a3 a4 a5 a6 a7 s
  | .fclass a1 a2 a3 a4 a5 => Sys2Proof.Machine.execFclass a1 a2 a3 a4 a5 s
  | .frcp a1 a2 a3 a4 => Sys2Proof.Machine.execFrcp a1 a2 a3 a4 s
  | .frsq a1 a2 a3 => Sys2Proof.Machine.execFrsq a1 a2 a3 s
  | .fsqrt a1 a2 a3 a4 => Sys2Proof.Machine.execFsqrt a1 a2 a3 a4 s
  | .fexp2 a1 a2 a3 => Sys2Proof.Machine.execFexp2 a1 a2 a3 s
  | .flog2 a1 a2 a3 => Sys2Proof.Machine.execFlog2 a1 a2 a3 s
  | .fsin a1 a2 a3 => Sys2Proof.Machine.execFsin a1 a2 a3 s
  | .fcos a1 a2 a3 => Sys2Proof.Machine.execFcos a1 a2 a3 s
  | .fcvt a1 a2 a3 a4 a5 a6 a7 => Sys2Proof.Machine.execFcvt a1 a2 a3 a4 a5 a6 a7 s
  | .frnd a1 a2 a3 a4 a5 => Sys2Proof.Machine.execFrnd a1 a2 a3 a4 a5 s
  | .fscale a1 a2 a3 a4 a5 a6 => Sys2Proof.Machine.execFscale a1 a2 a3 a4 a5 a6 s
  | .fdot2 a1 a2 a3 a4 a5 a6 a7 => Sys2Proof.Machine.execFdot2 a1 a2 a3 a4 a5 a6 a7 s
  | .chld a1 a2 a3 a4 a5 => Sys2Proof.Machine.execChld a1 a2 a3 a4 a5 s
  | .chst a1 a2 a3 => Sys2Proof.Machine.execChst a1 a2 a3 s
  | .chdom a1 a2 a3 => Sys2Proof.Machine.execChdom a1 a2 a3 s
  | .chadd a1 a2 a3 a4 a5 => Sys2Proof.Machine.execChadd a1 a2 a3 a4 a5 s
  | .chmul a1 a2 a3 a4 => Sys2Proof.Machine.execChmul a1 a2 a3 a4 s
  | .chcomp a1 a2 a3 a4 => Sys2Proof.Machine.execChcomp a1 a2 a3 a4 s
  | .chint a1 a2 a3 => Sys2Proof.Machine.execChint a1 a2 a3 s
  | .chder a1 a2 a3 => Sys2Proof.Machine.execChder a1 a2 a3 s
  | .chroot a1 a2 a3 a4 => Sys2Proof.Machine.execChroot a1 a2 a3 a4 s
  | .cheval a1 a2 a3 a4 a5 => Sys2Proof.Machine.execCheval a1 a2 a3 a4 a5 s
  | .chtrunc a1 a2 a3 a4 => Sys2Proof.Machine.execChtrunc a1 a2 a3 a4 s
  | .chlen a1 a2 a3 => Sys2Proof.Machine.execChlen a1 a2 a3 s
  | .ldg a1 a2 a3 a4 a5 => Sys2Proof.Machine.execLdg a1 a2 a3 a4 a5 s
  | .stg a1 a2 a3 a4 a5 => Sys2Proof.Machine.execStg a1 a2 a3 a4 a5 s
  | .ldx a1 a2 a3 a4 a5 => Sys2Proof.Machine.execLdx a1 a2 a3 a4 a5 s
  | .stx a1 a2 a3 a4 a5 => Sys2Proof.Machine.execStx a1 a2 a3 a4 a5 s
  | .ldw a1 a2 a3 a4 a5 => Sys2Proof.Machine.execLdw a1 a2 a3 a4 a5 s
  | .pref a1 a2 a3 => Sys2Proof.Machine.execPref a1 a2 a3 s
  | .linv a1 a2 a3 => Sys2Proof.Machine.execLinv a1 a2 a3 s
  | .linvAll a1 a2 => Sys2Proof.Machine.execLinvAll a1 a2 s
  | .fence a1 a2 a3 a4 => Sys2Proof.Machine.execFence a1 a2 a3 a4 s
  | .cst a1 a2 a3 a4 a5 a6 => Sys2Proof.Machine.execCst a1 a2 a3 a4 a5 a6 s
  | .mcld a1 a2 a3 a4 a5 a6 a7 => Sys2Proof.Machine.execMcld a1 a2 a3 a4 a5 a6 a7 s
  | .atom a1 a2 a3 a4 a5 a6 a7 a8 a9 => Sys2Proof.Machine.execAtom a1 a2 a3 a4 a5 a6 a7 a8 a9 s
  | .acas a1 a2 a3 a4 a5 a6 a7 a8 a9 => Sys2Proof.Machine.execAcas a1 a2 a3 a4 a5 a6 a7 a8 a9 s
  | .red a1 a2 a3 a4 a5 a6 a7 a8 => Sys2Proof.Machine.execRed a1 a2 a3 a4 a5 a6 a7 a8 s
  | .signal a1 a2 a3 a4 => Sys2Proof.Machine.execSignal a1 a2 a3 a4 s
  | .cpy a1 a2 a3 a4 a5 a6 a7 => Sys2Proof.Machine.execCpy a1 a2 a3 a4 a5 a6 a7 s
  | .cpyt a1 a2 a3 a4 a5 a6 a7 => Sys2Proof.Machine.execCpyt a1 a2 a3 a4 a5 a6 a7 s
  | .cpyw a1 a2 a3 a4 a5 a6 a7 => Sys2Proof.Machine.execCpyw a1 a2 a3 a4 a5 a6 a7 s
  | .cpywPut a1 a2 a3 a4 a5 => Sys2Proof.Machine.execCpywPut a1 a2 a3 a4 a5 s
  | .cpys a1 a2 a3 a4 a5 a6 a7 a8 => Sys2Proof.Machine.execCpys a1 a2 a3 a4 a5 a6 a7 a8 s
  | .cpyq a1 a2 a3 => Sys2Proof.Machine.execCpyq a1 a2 a3 s
  | .cpyx a1 a2 => Sys2Proof.Machine.execCpyx a1 a2 s
  | .cpyxAll a1 => Sys2Proof.Machine.execCpyxAll a1 s
  | .bari a1 a2 a3 => Sys2Proof.Machine.execBari a1 a2 a3 s
  | .bara a1 a2 a3 => Sys2Proof.Machine.execBara a1 a2 a3 s
  | .barw a1 a2 a3 => Sys2Proof.Machine.execBarw a1 a2 a3 s
  | .baraw a1 a2 => Sys2Proof.Machine.execBaraw a1 a2 s
  | .barx a1 a2 a3 a4 => Sys2Proof.Machine.execBarx a1 a2 a3 a4 s
  | .bart a1 a2 a3 a4 => Sys2Proof.Machine.execBart a1 a2 a3 a4 s
  | .barl a1 a2 a3 => Sys2Proof.Machine.execBarl a1 a2 a3 s
  | .tshp a1 a2 a3 a4 a5 => Sys2Proof.Machine.execTshp a1 a2 a3 a4 a5 s
  | .tld a1 a2 a3 a4 => Sys2Proof.Machine.execTld a1 a2 a3 a4 s
  | .tst a1 a2 a3 a4 => Sys2Proof.Machine.execTst a1 a2 a3 a4 s
  | .tzero a1 a2 a3 => Sys2Proof.Machine.execTzero a1 a2 a3 s
  | .mma a1 a2 a3 a4 a5 => Sys2Proof.Machine.execMma a1 a2 a3 a4 a5 s
  | .mloop a1 a2 a3 a4 a5 a6 a7 => Sys2Proof.Machine.execMloop a1 a2 a3 a4 a5 a6 a7 s
  | .twait a1 a2 => Sys2Proof.Machine.execTwait a1 a2 s
  | .tfence a1 => Sys2Proof.Machine.execTfence a1 s
  | .tdrain a1 a2 a3 a4 a5 a6 a7 a8 a9 => Sys2Proof.Machine.execTdrain a1 a2 a3 a4 a5 a6 a7 a8 a9 s
  | .tcvt a1 a2 a3 a4 a5 a6 => Sys2Proof.Machine.execTcvt a1 a2 a3 a4 a5 a6 s
  | .tgangOn a1 a2 => Sys2Proof.Machine.execTgangOn a1 a2 s
  | .tgangOff a1 => Sys2Proof.Machine.execTgangOff a1 s
  | .mwait a1 a2 a3 a4 => Sys2Proof.Machine.execMwait a1 a2 a3 a4 s
  | .mnote a1 a2 => Sys2Proof.Machine.execMnote a1 a2 s
  | .mnotea a1 a2 => Sys2Proof.Machine.execMnotea a1 a2 s
  | .mheld a1 a2 a3 => Sys2Proof.Machine.execMheld a1 a2 a3 s
  | .clrd a1 a2 a3 => Sys2Proof.Machine.execClrd a1 a2 a3 s
  | .recon a1 a2 a3 a4 a5 => Sys2Proof.Machine.execRecon a1 a2 a3 a4 a5 s
  | .recoff a1 a2 => Sys2Proof.Machine.execRecoff a1 a2 s
  | .replay a1 a2 => Sys2Proof.Machine.execReplay a1 a2 s
  | .rerec a1 a2 => Sys2Proof.Machine.execRerec a1 a2 s
  | .recq a1 a2 a3 a4 => Sys2Proof.Machine.execRecq a1 a2 a3 a4 s
  | .qpush a1 a2 a3 a4 => Sys2Proof.Machine.execQpush a1 a2 a3 a4 s
  | .qpop a1 a2 a3 a4 a5 => Sys2Proof.Machine.execQpop a1 a2 a3 a4 a5 s
  | .qstat a1 a2 a3 a4 => Sys2Proof.Machine.execQstat a1 a2 a3 a4 s
  | .launch a1 a2 a3 a4 => Sys2Proof.Machine.execLaunch a1 a2 a3 a4 s
  | .instructionFetch a1 a2 => Sys2Proof.Machine.execInstructionFetch a1 a2 s
  | .instructionFill a1 a2 => Sys2Proof.Machine.execInstructionFill a1 a2 s
  | .pageWalk a1 a2 a3 => Sys2Proof.Machine.execPageWalk a1 a2 a3 s
  | .walkResult a1 a2 => Sys2Proof.Machine.execWalkResult a1 a2 s
  | .homeRead a1 => Sys2Proof.Machine.execHomeRead a1 s
  | .homeStore a1 => Sys2Proof.Machine.execHomeStore a1 s
  | .fillArrival a1 a2 => Sys2Proof.Machine.execFillArrival a1 a2 s
  | .gatewayRead a1 => Sys2Proof.Machine.execGatewayRead a1 s
  | .gatewayRenewal a1 => Sys2Proof.Machine.execGatewayRenewal a1 s
  | .gatewayStore a1 => Sys2Proof.Machine.execGatewayStore a1 s
  | .forwardReturn a1 => Sys2Proof.Machine.execForwardReturn a1 s
  | .gatewayWritePass a1 => Sys2Proof.Machine.execGatewayWritePass a1 s
  | .loadResponse a1 => Sys2Proof.Machine.execLoadResponse a1 s
  | .storeCompletion a1 => Sys2Proof.Machine.execStoreCompletion a1 s
  | .bufferTimerDrain a1 a2 => Sys2Proof.Machine.execBufferTimerDrain a1 a2 s
  | .leaseExpiry a1 a2 => Sys2Proof.Machine.execLeaseExpiry a1 a2 s
  | .hostSnoop a1 => Sys2Proof.Machine.execHostSnoop a1 s
  | .hostWrite a1 a2 a3 => Sys2Proof.Machine.execHostWrite a1 a2 a3 s
  | .hostRead a1 => Sys2Proof.Machine.execHostRead a1 s
  | .cxlCompletion a1 => Sys2Proof.Machine.execCxlCompletion a1 s
  | .completionTimeout a1 => Sys2Proof.Machine.execCompletionTimeout a1 s
  | .refreshWindowEnd a1 => Sys2Proof.Machine.execRefreshWindowEnd a1 s
  | .multicastRequest a1 => Sys2Proof.Machine.execMulticastRequest a1 s
  | .multicastDeadline a1 => Sys2Proof.Machine.execMulticastDeadline a1 s
  | .multicastLanding a1 => Sys2Proof.Machine.execMulticastLanding a1 s
  | .unitSend a1 a2 => Sys2Proof.Machine.execUnitSend a1 a2 s
  | .unitLanding a1 a2 a3 => Sys2Proof.Machine.execUnitLanding a1 a2 a3 s
  | .pushArrival a1 => Sys2Proof.Machine.execPushArrival a1 s
  | .pushInstall a1 => Sys2Proof.Machine.execPushInstall a1 s
  | .pushAtGateway a1 => Sys2Proof.Machine.execPushAtGateway a1 s
  | .pushAck a1 => Sys2Proof.Machine.execPushAck a1 s
  | .fallBack a1 a2 a3 => Sys2Proof.Machine.execFallBack a1 a2 a3 s
  | .regionChange a1 => Sys2Proof.Machine.execRegionChange a1 s
  | .passGrant a1 => Sys2Proof.Machine.execPassGrant a1 s
  | .passEnd a1 => Sys2Proof.Machine.execPassEnd a1 s
  | .drainUpdate a1 => Sys2Proof.Machine.execDrainUpdate a1 s
  | .atomicUpdate a1 => Sys2Proof.Machine.execAtomicUpdate a1 s
  | .signalApply a1 => Sys2Proof.Machine.execSignalApply a1 s
  | .acquireRequest a1 => Sys2Proof.Machine.execAcquireRequest a1 s
  | .recall a1 => Sys2Proof.Machine.execRecall a1 s
  | .grantReturn a1 => Sys2Proof.Machine.execGrantReturn a1 s
  | .grant a1 => Sys2Proof.Machine.execGrant a1 s
  | .colourRelease a1 => Sys2Proof.Machine.execColourRelease a1 s
  | .monitorRelease a1 => Sys2Proof.Machine.execMonitorRelease a1 s
  | .notification a1 => Sys2Proof.Machine.execNotification a1 s
  | .mwaitDeadline a1 a2 a3 => Sys2Proof.Machine.execMwaitDeadline a1 a2 a3 s
  | .sleepDeadline a1 => Sys2Proof.Machine.execSleepDeadline a1 s
  | .groupExitRelease a1 => Sys2Proof.Machine.execGroupExitRelease a1 s
  | .blockRetirement a1 => Sys2Proof.Machine.execBlockRetirement a1 s
  | .blockPlacement a1 => Sys2Proof.Machine.execBlockPlacement a1 s
  | .steal a1 => Sys2Proof.Machine.execSteal a1 s
  | .preamble a1 a2 a3 => Sys2Proof.Machine.execPreamble a1 a2 a3 s
  | .nodeBinTimer a1 a2 => Sys2Proof.Machine.execNodeBinTimer a1 a2 s
  | .recordMoveBack a1 a2 => Sys2Proof.Machine.execRecordMoveBack a1 a2 s
  | .scoreWindow a1 => Sys2Proof.Machine.execScoreWindow a1 s
  | .coreEnable a1 => Sys2Proof.Machine.execCoreEnable a1 s
  | .engineEnable a1 => Sys2Proof.Machine.execEngineEnable a1 s
  | .trapEntry a1 => Sys2Proof.Machine.execTrapEntry a1 s
  | .termination a1 => Sys2Proof.Machine.execTermination a1 s
  | .dyingTimeout a1 => Sys2Proof.Machine.execDyingTimeout a1 s
  | .watchdog a1 => Sys2Proof.Machine.execWatchdog a1 s
  | .dugoutWrite a1 => Sys2Proof.Machine.execDugoutWrite a1 s
  | .unsupportedAccess a1 a2 => Sys2Proof.Machine.execUnsupportedAccess a1 a2 s
  | .registerWrite a1 a2 => Sys2Proof.Machine.execRegisterWrite a1 a2 s
  | .newestRecord a1 => Sys2Proof.Machine.execNewestRecord a1 s
  | .mctpUnknownCommand a1 => Sys2Proof.Machine.execMctpUnknownCommand a1 s
  | .dataFlit a1 a2 => Sys2Proof.Machine.execDataFlit a1 a2 s
  | .idleFlit a1 a2 => Sys2Proof.Machine.execIdleFlit a1 a2 s
  | .retryRequest a1 a2 => Sys2Proof.Machine.execRetryRequest a1 a2 s
  | .training a1 a2 => Sys2Proof.Machine.execTraining a1 a2 s
  | .creditGrant a1 a2 => Sys2Proof.Machine.execCreditGrant a1 a2 s
  | .portDown a1 => Sys2Proof.Machine.execPortDown a1 s
  | .readALine a1 => Sys2Proof.Machine.execReadALine a1 s
  | .writeALine a1 => Sys2Proof.Machine.execWriteALine a1 s
  | .peerAtom a1 => Sys2Proof.Machine.execPeerAtom a1 s
  | .peerAcas a1 => Sys2Proof.Machine.execPeerAcas a1 s
  | .peerRed a1 => Sys2Proof.Machine.execPeerRed a1 s
  | .peerSignal a1 => Sys2Proof.Machine.execPeerSignal a1 s
  | .readData a1 => Sys2Proof.Machine.execReadData a1 s
  | .writeDone a1 => Sys2Proof.Machine.execWriteDone a1 s
  | .atomicResponse a1 => Sys2Proof.Machine.execAtomicResponse a1 s
  | .errorMessage a1 => Sys2Proof.Machine.execErrorMessage a1 s
  | .workerReset a1 => Sys2Proof.Machine.execWorkerReset a1 s
  | .dieReset a1 a2 => Sys2Proof.Machine.execDieReset a1 a2 s
  | .clusterReset a1 a2 => Sys2Proof.Machine.execClusterReset a1 a2 s
  | .coreReset a1 a2 => Sys2Proof.Machine.execCoreReset a1 a2 s
  | .recorderReset a1 => Sys2Proof.Machine.execRecorderReset a1 s
  | .weightStoreReset a1 => Sys2Proof.Machine.execWeightStoreReset a1 s
  | .contextReset a1 => Sys2Proof.Machine.execContextReset a1 s
  | .boot a1 => Sys2Proof.Machine.execBoot a1 s
  | .reserveReplacement a1 => Sys2Proof.Machine.execReserveReplacement a1 s
  | .spdmRequest a1 => Sys2Proof.Machine.execSpdmRequest a1 s
  | .dieIdle a1 => Sys2Proof.Machine.execDieIdle a1 s
  | .wlPasses a1 => Sys2Proof.Machine.execWlPasses a1 s
  | .contextCreate => Sys2Proof.Machine.execContextCreate s
  | .contextDestroy => Sys2Proof.Machine.execContextDestroy s
  | .contextSetBkpt => Sys2Proof.Machine.execContextSetBkpt s
  | .contextSetRecDepart => Sys2Proof.Machine.execContextSetRecDepart s
  | .contextSetWdogTicks => Sys2Proof.Machine.execContextSetWdogTicks s
  | .contextSetCmapBase => Sys2Proof.Machine.execContextSetCmapBase s
  | .mapCodePage => Sys2Proof.Machine.execMapCodePage s
  | .shootdown => Sys2Proof.Machine.execShootdown s
  | .faultResolve => Sys2Proof.Machine.execFaultResolve s
  | .mbxLaunch => Sys2Proof.Machine.execMbxLaunch s
  | .queueSet => Sys2Proof.Machine.execQueueSet s
  | .queuePush => Sys2Proof.Machine.execQueuePush s
  | .queueClose => Sys2Proof.Machine.execQueueClose s
  | .preEmpt => Sys2Proof.Machine.execPreEmpt s
  | .resume => Sys2Proof.Machine.execResume s
  | .logReadReject => Sys2Proof.Machine.execLogReadReject s
  | .logReadFault => Sys2Proof.Machine.execLogReadFault s
  | .logReadFaultBuffer => Sys2Proof.Machine.execLogReadFaultBuffer s
  | .updateWrite => Sys2Proof.Machine.execUpdateWrite s
  | .updateVerify => Sys2Proof.Machine.execUpdateVerify s
  | .updateActivate => Sys2Proof.Machine.execUpdateActivate s
  | .recordRead => Sys2Proof.Machine.execRecordRead s
  | .unknownCommand => Sys2Proof.Machine.execUnknownCommand s
  | .doorbellDiscard => Sys2Proof.Machine.execDoorbellDiscard s
  | .commandCompletion => Sys2Proof.Machine.execCommandCompletion s
  | .pendClear => Sys2Proof.Machine.execPendClear s
  | .schemaList => Sys2Proof.Machine.execSchemaList s
  | .umpireReset => Sys2Proof.Machine.execUmpireReset s
  | .selfTestTimeout => Sys2Proof.Machine.execSelfTestTimeout s
  | .deviceReset => Sys2Proof.Machine.execDeviceReset s
  | .bullpenWindow => Sys2Proof.Machine.execBullpenWindow s

end Sys2Proof.Machine
end

