-- ==== Sys2Proof/Machine/Schedule.lean ====
section
/-! DEFINITION. What the next step is: readiness and choice of an entry (R46, R368 to R374, R407), the order of steps
(log 3), and a group placed to issue one word (log 4). -/

namespace Sys2Proof

/-- The counter class of an instruction (R49). -/
def Instr.opClass : Instr → Machine.OpClass
  | .ldg .. | .ldx .. | .ldw .. | .atom .. | .acas .. => .ld
  | .stg .. | .stx .. | .cst .. | .red .. | .signal .. => .st
  | .cpy .. | .cpyt .. | .cpyw .. | .cpys .. | .mcld .. => .cp
  | .mma .. | .mloop .. | .tdrain .. => .tl
  | _ => .none

/-- The instructions that need a copy-engine slot (R151, R218). -/
def Instr.needsSlot : Instr → Bool
  | .cpy .. | .cpyt .. | .cpyw .. | .cpywPut .. | .cpys .. | .mcld .. => true
  | _ => false

/-- The request that an instruction posts, with its stream (R293, R327). -/
def Instr.posts : Instr → Option (Nat × Machine.ReqKind)
  | .tld _ st td _ => some (st.val, .tld td)
  | .tst _ st _ ta => some (st.val, .tst ta)
  | .tzero _ st td => some (st.val, .tzero td)
  | .tcvt _ _ st r td ta => some (st.val, .tcvt r td ta)
  | .mma _ rq tc ta tb => some (rq.st.val, .mma tc ta tb)
  | .mloop _ rq tc ta tb _ _ => some (rq.st.val, .mloop tc ta tb)
  | .tdrain _ op kind st _ _ ta _ _ => some (st.val, .tdrain op kind ta none)
  | _ => none

end Sys2Proof

namespace Sys2Proof.Machine

/-! ## Readiness (R371) -/

/-- The memory instructions of R407. -/
def isMemOp (opc : Nat) : Bool := (0x80 ≤ opc && opc ≤ 0x93) || (0x98 ≤ opc && opc ≤ 0x9B)

/-- How many of a core's groups have been resident longer than a group; those that came together count by number. -/
def State.olderGroups (s : State) (r : GroupRef) (g : Group) : Nat :=
  (s.groups.filter (fun x => x.2.core == g.core && (decide (x.2.resident < g.resident) ||
    (x.2.resident == g.resident && decide (x.1.grp < r.grp))))).length

/-- Whether the score of the core's last window lets a group issue memory instructions. -/
def State.throttled (s : State) (r : GroupRef) (g : Group) : Bool :=
  let n := s.scoreOf g.core
  if n < 64 then false
  else decide ((if n < 256 then 128 else if n < 1024 then 64 else 32) ≤ s.olderGroups r g)

/-- A group that may issue: its block runs, or it is the dying group in its handler; it waits for no page, no trap and no
stall, and for no instruction that completes before its next issue. -/
def State.mayIssue (s : State) (r : GroupRef) (g : Group) (b : Block) : Bool :=
  (match b.status with
   | .running => true
   | .dying _ => g.dying
   | _ => false) &&
  !g.onPage && (g.pendingTrap.isNone || g.midway) && decide (g.stallUntil ≤ s.now) && (s.core g.core).enabled &&
  g.holds.all (fun h => !h.stops || s.holdReady r g h)

/-- A hold on threads of an entry. -/
def Hold.on (h : Hold) (e : FEntry) : Bool := h.pc == e.pc && (h.mask &&& e.mask) != 0#32

/-- An entry that no hold keeps from issuing: an instruction of another that has to complete first keeps it, too. -/
def State.unheld (s : State) (r : GroupRef) (g : Group) (e : FEntry) : Bool :=
  g.holds.all (fun h => if h.on e then s.holdReady r g h else !h.stops)

/-- A post that finds the reservation table full does not issue (R293). -/
def State.tableFull (s : State) (r : GroupRef) (g : Group) (e : FEntry) (w : InstrWord) (i : Instr) : Bool :=
  match i.posts, (Raw.ofWord w).ctl with
  | some (st, kind), some c =>
    activeOf g c e.mask != 0#32 && !s.tableRoom (clusterOfCore g.core) r.key st kind
  | _, _ => false

/-- The cached line of an entry. -/
def State.cachedLine (s : State) (r : GroupRef) (g : Group) (pc : Word64) : Option (BitVec 512) :=
  tblGet (s.core g.core).icache (r.key.ctx, pcLine pc)

/-- What stands in an entry's way, or its word. -/
inductive Next where
  | notReady
  /-- The line has to be fetched. -/
  | fetch
  | run (w : InstrWord) (i : Instr)
  | bad (r : Reject)

def State.entryNext (s : State) (r : GroupRef) (g : Group) (e : FEntry) : Next :=
  if !s.unheld r g e then .notReady
  else match s.cachedLine r g e.pc with
    | none => if (tblGet (s.core g.core).fetches (r.key.ctx, pcLine e.pc)).isSome then .notReady else .fetch
    | some x =>
      let w := slotWord x (pcSlot e.pc)
      match decode w with
      | .error k => .bad k
      | .ok i =>
        if (i.opClass != .none && decide (63 ≤ g.counter i.opClass))
            || (i.needsSlot && (s.freeSlot g.core).isNone)
            || (isMemOp (Raw.ofWord w).opc.toNat && s.throttled r g) || s.tableFull r g e w i then .notReady
        else .run w i

/-- The first ready entry in frontier order; after YIELD, the entry it names only where no other is ready. -/
def State.readyEntry (s : State) (r : GroupRef) (g : Group) (es : List FEntry) : Option (FEntry × Next) :=
  let ready := es.filterMap (fun e => match s.entryNext r g e with
    | .notReady => none
    | x => some (e, x))
  match ready.find? (fun x => some x.1.pc != g.passOver) with
  | some x => some x
  | none => ready.head?

/-! ## Poisoned sources (R411) -/

/-- The registers that a field of a word names as a source, for a thread. -/
def fieldSources (f : Field) (x : BitVec 9) (t : Tid) : List RegRef :=
  match f with
  | .op _ w false =>
    match VReg.ofCode x, SReg.ofCode x, PReg.ofCode x with
    | some n, _, _ => (List.range (max 1 (w / 32))).map (fun k => .v t (VReg.up n k))
    | _, some n, _ => (List.range (max 1 (w / 64))).map (fun k => .s (SReg.up n k))
    | _, _, some n => [.p t n]
    | _, _, _ => []
  | _ => []

def wordSources (w : InstrWord) (c : Ctl) (t : Tid) : List RegRef :=
  [RegRef.p t c.p1] ++ (if c.gm = .one then [] else [RegRef.p t c.p2]) ++
    (Raw.ofWord w).fields.flatMap (fun f => fieldSources f.2.1 f.2.2 t)

/-- The fault of an issue that reads a register whose code has found an uncorrectable error. -/
def poisonedRead (g : Group) (e : FEntry) (w : InstrWord) : Option FaultInfo :=
  if g.regPoison.isEmpty then none
  else match (Raw.ofWord w).ctl with
    | none => none
    | some c =>
      let act := activeOf g c e.mask
      let bad (t : Tid) : List RegRef := (wordSources w c t).filter (fun r => g.regPoison.contains r)
      let m := maskOf (fun t => e.mask.getLsbD t.val && (bad t).any (fun r => match r with
        | .s _ => act.getLsbD t.val
        | .p _ n => act.getLsbD t.val || n == c.p1 || n == c.p2
        | .v _ _ => act.getLsbD t.val))
      let uni := (maskTids act).any (fun t => (bad t).any (fun r => match r with
        | .s _ => true
        | _ => false))
      if m = 0#32 then none
      else some { code := .eccUncorrectable, mask := if uni then act else m, pc := e.pc }

/-! ## The order of a core's groups (R46, R373, R374, R384, R390) -/

/-- What a group would do with its turn: its first ready entry. -/
def State.nextOf (s : State) (r : GroupRef) (g : Group) : Option (FEntry × Next) :=
  match s.block r.key with
  | none => none
  | some b => if s.mayIssue r g b then s.readyEntry r g (g.entries b) else none

/-- The form of an instruction (R42). -/
def wordVec (w : InstrWord) : Bool :=
  (Raw.ofWord w).opc == 0xC3#8 || (Raw.ofWord w).fields.any (fun x => match x.2.1 with
    | .op _ _ _ => (kindOf x.2.2).isVec
    | _ => false)

/-- A group with a ready instruction. -/
structure Ready where
  r : GroupRef
  g : Group
  e : FEntry
  w : InstrWord
  i : Instr

/-- Its place in the order in which the groups came to the core. -/
def Ready.place (x : Ready) : Nat × Nat := (x.g.resident, x.r.grp)

def placeBefore (a b : Nat × Nat) : Bool := decide (a.1 < b.1) || (a.1 == b.1 && decide (a.2 < b.2))

/-- The ready groups of a core, in residency order. -/
def State.readyOn (s : State) (core : Nat) : List Ready :=
  sortBy (fun (x y : Ready) => !placeBefore y.place x.place) ((s.groups.filter (fun x => x.2.core == core)).filterMap (fun x =>
    match s.nextOf x.1 x.2 with
    | some (e, .run w i) => some ⟨x.1, x.2, e, w, i⟩
    | _ => none))

/-- A group that has yielded passes its turn to another ready group of its lane (R46). -/
def Ready.passes (l : List Ready) (x : Ready) : Bool := x.g.mustPass && l.any (fun y => y.g.lane == x.g.lane && decide (y.r ≠ x.r))

/-- The group whose turn it is where `x` asks to issue: for a vector instruction the next of its lane, for a uniform one the
group of the core that has waited longest. -/
def State.turnOf (s : State) (x : Ready) : Ready :=
  let l := s.readyOn x.g.core
  let able := l.filter (fun y => !y.passes l)
  let mates := able.filter (fun y => y.g.lane == x.g.lane)
  let first : List Ready := if wordVec x.w then
      let vs := mates.filter (fun y => wordVec y.w)
      match tblGet (s.core x.g.core).lanes x.g.lane with
      | none => vs
      | some p => vs.filter (fun y => placeBefore p y.place) ++ vs
    else sortBy (fun (a b : Ready) => decide (a.g.waitFrom.getD s.now ≤ b.g.waitFrom.getD s.now))
      (able.filter (fun y => !wordVec y.w))
  ((first ++ mates).head?).getD x

/-- Whether an issue passes the group's next turn on: by the yield bit or by YIELD (R46, R384). -/
def Ready.yields (x : Ready) : Bool :=
  match (Raw.ofWord x.w).ctl with
  | none => false
  | some c => c.yld || (match x.i with
    | .yield _ => activeOf x.g c x.e.mask != 0#32
    | _ => false)

/-- An issue is noted with its group, with its lane, and with the lane's other groups. -/
def State.noteIssue (s : State) (x : Ready) : State :=
  let s1 : State := { s with groups := s.groups.map (fun (y : GroupRef × Group) =>
    if y.1 = x.r then (y.1, { y.2 with passOver := none, waitFrom := none, mustPass := x.yields })
    else if y.2.mustPass && y.2.core == x.g.core && y.2.lane == x.g.lane then (y.1, { y.2 with mustPass := false })
    else y) }
  if wordVec x.w then s1.modCore x.g.core (fun c => { c with lanes := tblPut c.lanes x.g.lane x.place }) else s1

/-- Note since when the groups with a uniform instruction have been ready. -/
def State.noteWaiting (s : State) : State :=
  match s.groups with
  | [] | [_] => s
  | _ => { s with groups := s.groups.map (fun (x : GroupRef × Group) =>
      let since : Option Nat := match s.nextOf x.1 x.2 with
        | some (_, .run w _) => if wordVec w then none else some (x.2.waitFrom.getD s.now)
        | _ => none
      (x.1, { x.2 with waitFrom := since })) }

/-! ## One step -/

/-- What a step does: run an arm of exec, nothing but the passing of time, or stop on a word that is no instruction. -/
inductive Chosen where
  | run (i : Instr) (s : State)
  | done (s : State)
  | bad (r : Reject)

/-- The issue of a ready group. -/
def State.issueReady (s : State) (x : Ready) : Chosen :=
  let s1 := s.noteIssue x
  match poisonedRead x.g x.e x.w with
  | some info => .done (s1.raise x.r x.e info)
  | none => .run x.i { s1 with cur := some ⟨x.r, x.e.pc, x.e.mask⟩ }

/-- The holds of a core's groups are looked at. -/
def State.settleCore (s : State) (core : Nat) : State :=
  (s.groups.filter (fun x => x.2.core == core && !x.2.holds.isEmpty)).foldl (fun s x => s.settle x.1) s

/-- The turn of a group: the line that its first ready entry needs is fetched, or the group whose turn it is issues. -/
def State.issueTurn (s0 : State) (r : GroupRef) : Chosen :=
  match s0.group r with
  | none => .done s0
  | some g0 =>
    let s := s0.settleCore g0.core
    match s.group r with
    | none => .done s
    | some g => match s.nextOf r g with
      | none => .done s
      | some (_, .notReady) => .done s
      | some (e, .fetch) => .run (.instructionFetch r e.pc) s
      | some (_, .bad k) => .bad k
      | some (e, .run w i) => s.issueReady (s.turnOf ⟨r, g, e, w, i⟩)

/-- The event that takes a message further. -/
def Body.event (b : Body) (m : Nat) : Option Instr :=
  match b with
  | .read _ true => some (.homeRead m)
  | .read _ false => some (.gatewayRead m)
  | .renewal .. => some (.gatewayRenewal m)
  | .loadResp .. | .weightResp .. | .scratch _ _ true _ => some (.loadResponse m)
  | .scratch _ _ false _ => some (.storeCompletion m)
  | .store _ true => some (.homeStore m)
  | .store _ false => some (.gatewayStore m)
  | .forwardReturn .. => some (.forwardReturn m)
  | .storeDone .. | .storeDie .. => some (.storeCompletion m)
  | .pass _ => some (.gatewayWritePass m)
  | .update u _ => some (match u.op with
    | .drain _ _ _ => .drainUpdate m
    | _ => .atomicUpdate m)
  | .scratchUpdate .. => some (.atomicUpdate m)
  | .updateDone u _ _ _ _ => some (if u.dst.isSome then .loadResponse m else .storeCompletion m)
  | .drain .. => some (.drainUpdate m)
  | .signal .. => some (.signalApply m)
  | .host _ | .hostStore _ => some (.cxlCompletion m)
  | .mcast _ => some (.multicastRequest m)
  | .mcastLand .. => some (.multicastLanding m)
  | .push _ true => some (.pushAtGateway m)
  | .push _ false => some (.pushArrival m)
  | .pushAck .. => some (.pushAck m)
  | .region .. => some (.regionChange m)
  | .acquire .. => some (.acquireRequest m)
  | .recall .. => some (.recall m)
  | .grantReturn .. => some (.grantReturn m)
  | .grant .. => some (.grant m)
  | .monRelease .. => some (.monitorRelease m)
  | .notify .. => some (.notification m)
  | .refresh .. => some (.refreshWindowEnd m)
  | .peerReq r => match r.kind with
    | 0x01 => some (.readALine m)
    | 0x02 => some (.writeALine m)
    | 0x03 => some (.peerAtom m)
    | 0x04 => some (.peerAcas m)
    | 0x05 => some (.peerRed m)
    | 0x06 => some (.peerSignal m)
    | 0x81 => some (.readData m)
    | 0x82 => some (.writeDone m)
    | 0x83 | 0x84 | 0x85 | 0x86 => some (.atomicResponse m)
    | 0xC0 => some (.errorMessage m)
    | _ => none
  | .peerResp .. => none

/-- Events of messages that nothing is ahead of. -/
def State.messageEvents (s : State) : List Instr :=
  (List.range s.net.length).filterMap (fun m => (s.deliverable m).bind (fun x => x.body.event m))

/-- Events of the memory system that wait for nothing but time. -/
def State.memoryEvents (s : State) : List Instr :=
  s.misses.map (fun m => if m.2.fill.isSome then .wlPasses m.1 else .fillArrival m.1 .none) ++
  (if s.fetchList.isEmpty then [] else [.instructionFill 0 0#512]) ++
  s.mcast.filterMap (fun e => if e.2.closed || decide (e.2.deadline ≤ s.now) then some (.multicastDeadline e.1) else none)

/-- Events of the cores' own units. -/
def State.coreEvents (s : State) : List Instr :=
  s.cores.flatMap (fun c =>
    (c.2.buffer.filter (fun b => b.retrans || decide (b.created + ticksOfCycles 64 ≤ s.nowAt c.1))).map
      (fun b => Instr.bufferTimerDrain c.1 b.id) ++
    (if c.2.landing.isEmpty then [] else [.pushInstall c.1]) ++
    c.2.slots.flatMap (fun x =>
      (if x.2.state = .running && (decide (x.2.next < x.2.units) || !x.2.todo.isEmpty) && s.copyMayRead x.2 then
        [Instr.unitSend c.1 x.1] else []) ++
      x.2.inFlight.map (fun u => Instr.unitLanding c.1 x.1 u.1)))

/-- Events of groups and threads. -/
def State.groupEvents (s : State) : List Instr :=
  s.groups.flatMap (fun x =>
    let g := x.2
    (if g.pendingTrap.isSome then [Instr.trapEntry x.1] else []) ++
    (g.holds.filterMap (fun h => match h.kind with
      | .release op _ left _ => ((maskTids left).find? (fun t => s.releaseReady x.1 g t (op.ofSet g t))).map
          (fun t => Instr.colourRelease ⟨x.1, t⟩)
      | _ => none))) ++
  s.monitors.flatMap (fun m => (m.2.wset.filter (fun w => w.dl != 0 && decide (w.dl ≤ s.now))).map
    (fun w => Instr.mwaitDeadline m.1.1 m.1.2 w.t))

/-- Events of the matrix engines. -/
def State.engineEvents (s : State) : List Instr :=
  s.clusters.filterMap (fun c =>
    if c.2.busy.isSome then some (.passEnd ⟨c.1, .none⟩) else if c.2.table.isEmpty then none else some (.passGrant c.1))

/-- Leases that have ended, and windows of the scores (R94, R407). -/
def State.timeEvents (s : State) : List Instr :=
  s.cores.flatMap (fun c =>
    ((c.2.copies.filter (fun x => decide (x.2.expiry ≤ s.nowAt c.1 + Config.epsilon))).map (fun x => Instr.leaseExpiry c.1 x.1)) ++
    (if c.2.window < s.scoreWindow then [.scoreWindow c.1] else []))

/-- Ends of groups and blocks, and the Dugout (R137, R324, R414, R426). -/
def State.blockEvents (s : State) : List Instr :=
  (s.groups.filter (fun x => x.2.alive == 0#32 && !x.2.leaving)).map (fun x => Instr.groupExitRelease x.1) ++
  s.blocks.flatMap (fun b => match b.2.status with
    | .running => if s.retirable b.1 b.2 then [.blockRetirement b.1] else []
    | .dying since => if since + Config.dyingTicks ≤ s.now then [.dyingTimeout b.1] else []
    | .terminating => [.termination b.1]
    | .stopping => (if s.retirable b.1 b.2 then [.blockRetirement b.1] else []) ++ [.dugoutWrite b.1])

/-- Work for the distributors and the queues (R396 to R402). -/
def State.launchEvents (s : State) : List Instr :=
  (List.range 4).flatMap (fun die =>
    (if s.resumes die || s.gridWaits || (s.pick die false).isSome then [Instr.blockPlacement die] else []) ++
    (if [1, 2, 3].any (fun k => s.resumes ((die + k) % 4) || (s.pick ((die + k) % 4) true).isSome) && !s.placeable die then
      [.steal die] else [])) ++
  s.launches.filterMap (fun l => match l.2.q with
    | some q => if !l.2.preambled && s.itsTurn l.2 then some (.preamble l.2.ctx q l.2.seq) else none
    | none => none) ++
  s.queues.flatMap (fun q =>
    (if s.binDue q.2 then [.nodeBinTimer q.1.1 q.1.2] else []) ++
    (if q.2.recs.any (fun r => r.backing) || s.launches.any (fun l => l.2.ctx == q.1.1 && l.2.q == some q.1.2 && l.2.backing) then
      [.recordMoveBack q.1.1 q.1.2] else []))

/-- Start-up, idleness, walkers, watchdogs, regions that fall back. -/
def State.unitEvents (s : State) : List Instr :=
  (List.range 4).flatMap (fun die =>
    let d := s.die die
    (if !d.idle && decide (d.coresOn < 192) && (d.coresOn == 0 || decide (d.lastEnable + 100 ≤ s.now)) then
      [Instr.coreEnable die] else []) ++
    (if !d.idle && decide (d.enginesOn < 48) && (d.enginesOn == 0 || decide (d.lastEngine + 25 ≤ s.now)) then
      [.engineEnable die] else []) ++
    (if !d.idle && s.dieEmpty die && decide (d.emptySince + 100000 ≤ s.now) then [.dieIdle die] else []) ++
    (List.range d.walks.length).map (fun k => Instr.walkResult die k)) ++
  s.ctxs.flatMap (fun c =>
    (if !s.wdogHeld c.1 && decide (c.2.wdogFrom + State.wdogLimit c.2 ≤ s.now) then [.watchdog c.1] else []) ++
    c.2.regions.flatMap (fun r => (List.range 4).filterMap (fun die =>
      if r.2.reports die then some (.fallBack c.1 r.1 die) else none)))

/-- The row of a mailbox command. -/
def commandEvent (code : Nat) (args : List Word64) : Instr :=
  match code with
  | 0x01 => .contextCreate
  | 0x02 => .contextDestroy
  | 0x03 =>
    let m := (args[1]?).getD 0#64
    if m.getLsbD 0 then .contextSetBkpt else if m.getLsbD 1 then .contextSetRecDepart
    else if m.getLsbD 2 then .contextSetWdogTicks else if m.getLsbD 3 then .contextSetCmapBase else .contextSetBkpt
  | 0x10 => .mapCodePage
  | 0x11 => .shootdown
  | 0x12 => .faultResolve
  | 0x20 => .mbxLaunch
  | 0x21 => .queueSet
  | 0x22 => .queuePush
  | 0x23 => .queueClose
  | 0x30 => .preEmpt
  | 0x31 => .resume
  | 0x40 => match ((args[1]?).getD 0#64).toNat with
    | 1 => .logReadFault
    | 2 => .logReadFaultBuffer
    | _ => .logReadReject
  | 0x50 => .updateWrite
  | 0x51 => .updateVerify
  | 0x52 => .updateActivate
  | 0x60 => .recordRead
  | _ => .unknownCommand

/-- A command under way or complete, firmware, ports. -/
def State.hostEvents (s : State) : List Instr :=
  (match s.mbx.busy with
   | none => []
   | some (cmd, args) => if s.mbx.outcome.isSome then [.commandCompletion] else [commandEvent (Mailbox.code cmd) args]) ++
  (match s.fw.umpire with
   | .running => []
   | .resetting => [.umpireReset]
   | .switching since => if since + selfTestTicks ≤ s.now then [.selfTestTimeout] else []) ++
  (if s.fw.windowStart + hourTicks ≤ s.now then [.bullpenWindow] else []) ++
  (s.fw.marked.map (fun k => (unitPlace k).1)).dedup.map (fun die => Instr.reserveReplacement die) ++
  s.ports.filterMap (fun p => if p.2.up && decide (16 ≤ p.2.retries) then some (.portDown p.1) else none)

/-- Everything that may happen now: the events that are due, and the groups. -/
def State.due (s : State) : List What :=
  (s.messageEvents ++ s.memoryEvents ++ s.coreEvents ++ s.groupEvents ++ s.engineEvents ++ s.timeEvents ++ s.blockEvents ++
    s.launchEvents ++ s.unitEvents ++ s.hostEvents).map What.event ++
    s.groups.map (fun g => What.issue g.1)

def State.take_ (s : State) (w : What) : Chosen :=
  match w with
  | .event i => .run i { s with cur := none, fresh := s.fresh + 1 }
  | .issue r => s.issueTurn r

/-- What happens as time passes: sleepers whose deadlines lie behind wake, multicast entries whose deadlines lie behind
send, eligible requests and ready groups count their waits. -/
def State.timePasses (s : State) : State := s.wakeSleepers.sendOverdue.tickEngines.noteWaiting

/-- The next step: the first turn of the agenda; with no agenda, the due ones in turn (log 3). Before it, watchdog counts
that are held stand at 0 and the ports send what can leave. -/
def State.choose (s0 : State) : Chosen :=
  let s := s0.tickWatchdogs.flushPorts
  match s.agenda with
  | t :: rest => (State.timePasses { s with agenda := rest, now := s.now + t.dt }).take_ t.what
  | [] =>
    let s1 := State.timePasses { s with now := s.now + 1 }
    match s1.due with
    | [] => .done s1
    | w :: ws => s1.take_ (((w :: ws)[s1.now % (ws.length + 1)]?).getD w)

/-! ## A group that issues one word (log 4) -/

/-- A launch record with nothing in it, for the block below. -/
def LaunchRec.plain : LaunchRec where
  cbase := 0#64
  wgt := 0
  wlen := 0
  wdst := 0
  wsrc := 0#64
  clen := 1
  bound := 0
  cval := 0#64
  csig := 0#64
  fsz := 0
  fsb := 0#64
  nrun := 0
  serial := false
  root := false
  wpre := false
  gang := false
  co := false
  ceil := 16
  floor := 1
  psize := 0
  chb16 := 0
  ntile := 32
  nbar := 96
  scr := 4096
  lay := [⟨1, 128⟩, ⟨0, 0⟩, ⟨0, 0⟩, ⟨0, 0⟩]
  bsz := 32
  nblk := 1
  param := 0#64
  prun := 0#64
  entry := 0#64
  zeros := true

def Ctx.plain : Ctx where
  rootPlace := 0
  rootPfn := 0
  glob := false
  bkpt := false
  cmapBase := 0#64
  ws := [(0, 0), (2 ^ 30, 0), (2 ^ 31, 0), (3 * 2 ^ 30, 0)]
  recDepart := BitVec.ofNat 32 Config.recDepartDefault
  wdog := BitVec.ofNat 64 Config.wdogDefault
  qtab := 0#64
  qcount := 1
  thr := 32
  areaPlace := 0
  areaPfn := 0
  areaSize := 0
  regions := []
  rejects := ⟨[], false⟩
  faults := ⟨[], false⟩
  fbuf := []
  wdogFrom := 0

def Block.plain : Block where
  launch := 0
  lr := LaunchRec.plain
  lrAddr := 0#64
  runs := []
  cores := [0]
  shares := [0]
  share := 4096
  weight := 0
  phase := none
  gang := none
  bars := []
  status := .running
  latch := none
  hz := {}
  ngroups := 1
  spill := [0]

def plainRef : GroupRef := ⟨⟨0, 0, 0⟩, 0⟩

/-- A resident block of one group on core 0, at address 0. -/
def State.seat (s : State) : State :=
  { s with
    groups := tblPut s.groups plainRef (Group.launched 0 0 0 0 128 0#64 0)
    blocks := tblPut s.blocks plainRef.key Block.plain
    ctxs := if (s.ctx 0).isSome then s.ctxs else tblPut s.ctxs 0 Ctx.plain
    cores := tblPut s.cores 0 { s.core 0 with enabled := true } }

/-- The line that holds a word in one slot, padding in the others, and its trailer. -/
def lineOf (pc : Word64) (w : InstrWord) : BitVec 512 :=
  let pad : InstrWord := 0x010F00F0783C1E0F00000000#96
  let bs := (List.range 5).flatMap (fun k => leBytes 12 (if k = pcSlot pc then w else pad).toNat)
  leBits 512 (bs ++ leBytes 4 (crc16 bs).toNat)

/-- The entry that issues next if any group can: the first group with an entry that nothing holds. -/
def State.nextIssue (s : State) : Option (GroupRef × Word64) :=
  s.groups.findSome? (fun x =>
    match s.block x.1.key with
    | none => none
    | some b =>
      if !s.mayIssue x.1 x.2 b then none
      else ((x.2.entries b).find? (fun e => s.unheld x.1 x.2 e)).map (fun e => (x.1, e.pc)))

/-- A place that no other group's stands between this one and. -/
def placeAhead (p : Nat × Nat) : Nat × Nat :=
  match p with
  | (a, g + 1) => (a, g)
  | (a + 1, 0) => (a, 64)
  | (0, 0) => (2 ^ 64, 0)

/-- Put a word where the next step fetches, and let that step be its issue: it is its group's turn. -/
def State.placeWord (s0 : State) (w : InstrWord) : State :=
  let (s, r, pc) := match s0.nextIssue with
    | some (r, pc) => (s0, r, pc)
    | none => (s0.seat, plainRef, 0#64)
  match s.group r with
  | none => s
  | some g =>
    { (s.modCore g.core (fun c => { c with
          icache := tblPut c.icache (r.key.ctx, pcLine pc) (lineOf pc w)
          lanes := tblPut c.lanes g.lane (placeAhead (g.resident, r.grp)) })).setGroup r
            { g with mustPass := false, waitFrom := some 0 } with
      agenda := ⟨0, .issue r⟩ :: s.agenda }

end Sys2Proof.Machine
end

