-- ==== Sys2Proof/Machine/Step.lean ====
section
/-! DEFINITION. One step of the part (log 3), and where it fetches (log 4). -/

namespace Sys2Proof.Machine

def step (s : State) : Host.Outcome State Fault Refusal :=
  match s.choose with
  | .run i t => exec i t
  | .done t => .next t
  | .bad r => .refused (.notAnInstruction r.reason r.detail)

def State.withFetchWord (s : State) (_nbits w : Nat) : State := s.placeWord (BitVec.ofNat 96 w)

end Sys2Proof.Machine
end

