-- ==== Sys2Proof/Safety.lean ====
section
/-! DEFINITION. The words that statements are written in: an issue, what one may change, the registers of a group, a state
in which a message is due, a safe step. -/

namespace Sys2Proof.Machine

/-- A step is safe if it answers a next state: the part stops at nothing (R59, R409). -/
def Safe (o : Out) : Prop := ∃ t, o = .next t

/-! ## Issues -/

/-- An entry of a group issues an instruction that carries `c`: the state names it, nothing that the group waits for holds a
thread of it, and the instruction splits no bound set (R252). `g` is the group with the entry taken. -/
structure Issues (s : State) (c : Ctl) (k : Cur) (g : Group) : Prop where
  cur : s.cur = some k
  group : ∃ g0, s.group k.g = some g0 ∧ g = g0.taken k
  free : ∀ h ∈ g.holds, h.mask &&& k.mask = 0#32
  whole : splitSets g k.mask (activeOf g c k.mask) = 0#32

/-- The issue itself, with its ACTIVE set (R43). -/
def issueOf (s : State) (c : Ctl) (k : Cur) (g : Group) : Iss := ⟨s.begun k g, k.g, g, k.pc, k.mask, activeOf g c k.mask, 0⟩

/-! ## What may change -/

/-- The state without its groups and without what every issue touches. -/
def State.rest (s : State) : State :=
  { s with groups := [], cur := none, fresh := 0, ctxs := s.ctxs.map (fun x => (x.1, { x.2 with wdogFrom := 0 })) }

/-- Nothing outside a group has changed: no byte of memory, no unit, no other group. -/
structure SameOutside (s t : State) (r : GroupRef) : Prop where
  rest : t.rest = s.rest
  groups : ∀ q, q ≠ r → t.group q = s.group q

/-- The value of a numbered register; p15 reads 1 (R43). -/
def Group.reg (g : Group) : RegRef → Word64
  | .v t n => ((g.thread t).v[n]).setWidth 64
  | .s n => g.s[n]
  | .p t n => boolWord ((g.thread t).pred n)

/-- A thread and a group without their numbered registers and PCs, and without the marks that a register write (R50, R411)
and an issue (R45) leave. -/
def Thread.bare (th : Thread) : Thread := { th with v := Vector.replicate 128 0#32, p := 0#16, pc := 0#64 }
def Group.bare (g : Group) : Group :=
  { g with
    threads := g.threads.map Thread.bare
    s := Vector.replicate 192 0#64
    ops := g.ops.map (fun o => { o with clobbered := [] })
    undef := []
    regPoison := []
    stallUntil := 0 }

/-- A group's registers are those of another with the ones of `val` written: these hold the values it gives and are marked
neither undefined nor in error (R50, R411); every other is as it was. -/
structure Group.Wrote (g' g : Group) (val : RegRef → Option Word64) : Prop where
  values : ∀ x, g'.reg x = (val x).getD (g.reg x)
  undef : ∀ x, x ∈ g'.undef ↔ x ∈ g.undef ∧ val x = none
  errors : ∀ x, x ∈ g'.regPoison ↔ x ∈ g.regPoison ∧ val x = none

/-- The PC of a thread after an instruction that goes on: a running thread of the entry is at the next slot (R33, R370). -/
def Iss.onward (e : Iss) (u : Tid) : Word64 :=
  if e.mask.getLsbD u.val && (e.g.thread u).isRunning then nextSlot e.pc else (e.g.thread u).pc

/-- The state `t` is `s1` but for the registers, PCs and marks of a group: those are as in `g1`, with the registers of
`val` at the values it gives, and each thread at `pcs`. -/
structure Wrote (s1 t : State) (r : GroupRef) (g1 : Group) (val : RegRef → Option Word64) (pcs : Tid → Word64) : Prop where
  outside : SameOutside s1 t r
  group : ∃ g', t.group r = some g' ∧ g'.Wrote g1 val ∧ (∀ u, (g'.thread u).pc = pcs u) ∧ g'.bare = g1.bare

/-- Whenever the instruction issues and `pre` holds, it answers a next state of which `post` holds. -/
def Runs (c : Ctl) (i : Instr) (pre : Iss → Prop) (post : Iss → State → Prop) : Prop :=
  i.wellFormed = true → ∀ (s : State) (k : Cur) (g : Group), Issues s c k g → pre (issueOf s c k g) →
    ∃ t, exec i s = .next t ∧ post (issueOf s c k g) t

/-- Whenever the instruction issues, it answers a next state in which the registers of `val` are written and its entry has
gone on; nothing else has changed. -/
def Does (c : Ctl) (i : Instr) (val : Iss → RegRef → Option Word64) : Prop :=
  Runs c i (fun _ => True) (fun e t => Wrote e.s t e.r e.g (val e) e.onward)

/-- The same where `pre` holds. -/
def DoesIf (c : Ctl) (i : Instr) (pre : Iss → Prop) (val : Iss → RegRef → Option Word64) : Prop :=
  Runs c i pre (fun e t => Wrote e.s t e.r e.g (val e) e.onward)

/-- No register is written. -/
def noReg : RegRef → Option Word64 := fun _ => none

/-! ## Results (R40, R41, R43, R44, R234) -/

/-- What a result of a type writes: for each thread of ACTIVE its vector register below the budget, or its pair; a uniform
register, once, where some thread is active; nothing where the destination is zero. -/
def Iss.result (e : Iss) (ty : Ty) (d : Dst) (f : Tid → Word64) : RegRef → Option Word64
  | .v u m =>
    match d with
    | .v n =>
      if e.act.getLsbD u.val && decide (m.val < e.g.budget) then
        if m = n then some (((f u).setWidth 32).setWidth 64)
        else if ty.bits = 64 ∧ m = VReg.up n 1 then some (((f u) >>> 32).setWidth 64)
        else none
      else none
    | _ => none
  | .s m =>
    match d with
    | .s n => if e.act ≠ 0#32 ∧ m = n then some (extendS ty (f 0)) else none
    | _ => none
  | .p _ _ => none

/-- The same for a destination that may be a predicate: a nonzero result sets it, and p15 takes none. -/
def Iss.resultP (e : Iss) (ty : Ty) (d : DstP) (f : Tid → Word64) : RegRef → Option Word64 :=
  match d with
  | .v n => e.result ty (.v n) f
  | .s n => e.result ty (.s n) f
  | .zero => fun _ => none
  | .p n => fun x => match x with
    | .p u m => if e.act.getLsbD u.val && decide (m = n ∧ n.val ≠ 15) then some (boolWord (f u != 0#64)) else none
    | _ => none

/-- The destination of an instruction whose destination has class v or zero. -/
def vdst : VDst → Dst
  | .v n => .v n
  | .zero => .zero

/-- A source of the type's width as a word, for a thread; it is the instruction's operand number `k` (R8). -/
def Iss.srcOf (e : Iss) (ty : Ty) (a : Src) (u : Tid) (k : Nat := 0) : Word64 := Operand.src (e.nth k) ty.bits u a

/-! ## Bound sets (R250 to R255) -/

/-- The lowest thread of a thread's bound set: it holds limb 0. -/
def Group.head (g : Group) (u : Tid) : Tid := (maskTids (g.boundSet u)).headD u

/-- A binding as LBIND makes it (R250): the thread is unbound, or one of an aligned set of 2, 4, 8, 16 or 32 threads with its
index there, and every thread of that set is bound in it or has exited. `k` is a thread's set size and `x` its index. -/
def Group.alike (g : Group) (k x : Tid → Nat) : Prop :=
  ∀ u, k u = 0 ∨ (k u ∈ [2, 4, 8, 16, 32] ∧ x u = u.val % k u ∧
    ∀ v : Tid, v.val / k u = u.val / k u → k v = k u ∨ ((g.thread v).isExited = true ∧ k v = 0))

/-- The same of every thread of a group, and of the bindings that its handler suspends (R257). -/
def Group.boundOk (g : Group) : Prop :=
  g.alike (fun u => (g.thread u).lbk) (fun u => (g.thread u).lix) ∧
    g.alike (fun u => (g.thread u).savedLbk) (fun u => (g.thread u).savedLix)

/-- The same of every group, resident or saved. -/
def State.Bound (s : State) : Prop :=
  (∀ x ∈ s.groups, x.2.boundOk) ∧ ∀ v ∈ s.saved, ∀ x ∈ v.2.groups, x.2.boundOk

/-- Every active thread is bound, and has limb `sel` in its set where a word is taken from it. -/
def Iss.limbs (e : Iss) (sel : Option Nat) : Prop :=
  e.g.boundOk ∧ ∀ u, e.act.getLsbD u.val = true → (e.g.thread u).lbk ≠ 0 ∧ ∀ n, sel = some n → n < (e.g.thread u).lbk

/-- The number that a thread's set holds: limb i worth 2^(32i). -/
def Iss.num (e : Iss) (f : Tid → Word32) (u : Tid) : Nat :=
  ((maskTids (e.g.boundSet u)).map (fun w => (f w).toNat * 2 ^ (32 * (w.val % (e.g.thread u).lbk)))).sum

/-- Bits of a thread's number: 32 for each limb. -/
def Iss.bits (e : Iss) (u : Tid) : Nat := 32 * (e.g.thread u).lbk

/-- A number written limb by limb. -/
def Iss.limbResult (e : Iss) (d : VDst) (z : Tid → Nat) : RegRef → Option Word64 :=
  e.result .b32 (vdst d) (fun u => BitVec.ofNat 64 (z u / 2 ^ (32 * (u.val % (e.g.thread u).lbk)) % 2 ^ 32))

/-- A predicate written for every active thread. -/
def Iss.predResult (e : Iss) (p : Option PReg) (f : Tid → Bool) : RegRef → Option Word64 :=
  match p with
  | none => noReg
  | some q => e.resultP .b32 (.p q) (fun u => boolWord (f u))

/-- Two results of one instruction; where both name a register, the first stands. -/
def both (x y : RegRef → Option Word64) : RegRef → Option Word64 := fun r => (x r).or (y r)

/-! ## Function registers (R273 to R288) -/

/-- A function-unit instruction that can go on: a thread is active, its sources are not empty and not poisoned. -/
def Iss.funcs (e : Iss) (srcs : List CReg) : Prop :=
  e.act ≠ 0#32 ∧ ∀ k ∈ srcs, e.g.f[k].n ≠ 0 ∧ funcPoisoned e k = false

/-- A result of a length has room: at most 256 coefficients, and a free run of granules (R275). -/
def Iss.room (e : Iss) (fd : CReg) (n : Nat) : Prop := n ≤ 256 ∧ (firstFit e.g fd (granulesOf n)).isSome = true

/-- A function register has taken a series: its domain, its coefficients; the others stand. Registers, PCs and all else are
as after any instruction that goes on. -/
def Placed (e : Iss) (t : State) (fd : CReg) (a b : Word32) (cs : List Word32) : Prop :=
  ∃ g1 : Group, Wrote { e.s with poison := t.poison } t e.r g1 noReg e.onward ∧ (∀ x, g1.reg x = e.g.reg x) ∧
    { g1.bare with pool := [], f := e.g.f } = { e.g.bare with pool := [] } ∧
    g1.f[fd].n = cs.length ∧ funcCoefs g1 fd = cs ∧ (cs ≠ [] → g1.f[fd].a = a ∧ g1.f[fd].b = b) ∧
    ∀ k : CReg, k ≠ fd → g1.f[k] = e.g.f[k] ∧ funcCoefs g1 k = funcCoefs e.g k

/-! ## Memory (R81, R110 to R116, R347) -/

/-- An instruction that addresses memory passes its checks: a thread is active, every address is aligned and mapped as `x`
says, with what the access needs, and each thread holds its line's colour; `s1` is the state after the translations. An
atomic or a drain translates by its cluster's TLB alone (R326). -/
structure Iss.Reaches (e : Iss) (vec : Bool) (align : Nat) (need : Need) (addr : Tid → Word64) (x : Tid → Xlat)
    (s1 : State) (drain : Bool := false) : Prop where
  act : e.act ≠ 0#32
  aligned : ∀ t ∈ accessTids vec e.act, (addr t).toNat % align = 0
  mapped : e.s.xlateAll e.g.core e.r.key.ctx need addr drain (accessTids vec e.act) =
    ((accessTids vec e.act).map (fun t => (t, XlatResult.ok (x t))), s1)
  held : ∀ t ∈ accessTids vec e.act, (x t).colour = 0 ∨ (e.g.thread t).holds (x t).colour = true

/-- A group without what an instruction that begins an operation may change: its registers, PCs and marks, its list of
operations, what it has observed. -/
def Group.still (g : Group) : Group := { g.bare with ops := [], ob := {}, pendObs := [] }

/-- The bytes of memory are in canonical form; a home holds a line once, and a group is resident once. -/
def State.Tidy (s : State) : Prop := s.mem.wf = true ∧ (s.lines.map Prod.fst).Nodup ∧ (s.groups.map Prod.fst).Nodup

/-- An instruction has begun the operations `ops` and gone on: no register, no other group and no byte at a home has
changed. -/
structure Iss.Began (e : Iss) (t : State) (ops : List Op) : Prop where
  others : ∀ q, q ≠ e.r → t.group q = e.s.group q
  bytes : e.s.Tidy → ∀ a, t.homeByte a = e.s.homeByte a
  group : ∃ g', t.group e.r = some g' ∧ (∀ x, g'.reg x = e.g.reg x) ∧ (∀ u, (g'.thread u).pc = e.onward u) ∧
    g'.still = e.g.still ∧ g'.ops = e.g.ops ++ ops

/-- Numbers of operations, of buffer entries and of those that made them are below the next number; the entries of a core
have numbers of their own. -/
def State.Numbered (s : State) : Prop :=
  (∀ x ∈ s.groups, ∀ o ∈ x.2.ops, o.id < s.nextId) ∧
    (∀ v ∈ s.saved, ∀ x ∈ v.2.groups, ∀ o ∈ x.2.ops, o.id < s.nextId) ∧
    ∀ c, (∀ b ∈ (s.core c).buffer, b.id < s.nextId ∧ ∀ o ∈ b.ops, o.2 < s.nextId) ∧
      ((s.core c).buffer.map BufEntry.id).Nodup

/-- An event answers a next state of which `post` holds. -/
def Happens (i : Instr) (s : State) (post : State → Prop) : Prop := ∃ t, exec i s = .next t ∧ post t

/-- No group has changed; no byte of main memory, as its home has it, has changed. -/
def SameGroups (s t : State) : Prop := ∀ r, t.group r = s.group r
def SameBytes (s t : State) : Prop := s.Tidy → ∀ a, t.homeByte a = s.homeByte a

/-- A group is as `g1`, with the registers of `val` at the values it gives. -/
def GroupIs (t : State) (r : GroupRef) (g1 : Group) (val : RegRef → Option Word64) : Prop :=
  ∃ g', t.group r = some g' ∧ g'.Wrote g1 val ∧ (∀ u, (g'.thread u).pc = (g1.thread u).pc) ∧ g'.bare = g1.bare

/-- What a loaded value writes (R40, R111): a vector register, pair or quad, or a uniform register or pair; a value of
fewer than 32 bits is extended by its type. -/
def loadResult (ty : Ty) (d : Dst) (tid : Tid) (budget : Nat) (x : BitVec 128) : RegRef → Option Word64 :=
  let y : BitVec 128 := if ty.bits = 128 then x else (loadedWord ty x).setWidth 128
  fun r => match d, r with
    | .v n, .v u m =>
      if u = tid ∧ m.val < budget then
        ((List.range (ty.bits / 32)).find? (fun i => decide (m = VReg.up n i))).map
          (fun i => (y.extractLsb' (32 * i) 32).setWidth 64)
      else none
    | .s n, .s m =>
      if m = n then some (y.setWidth 64)
      else if ty.bits = 128 ∧ m = SReg.up n 1 then some (y.extractLsb' 64 64)
      else none
    | _, _ => none

/-- What the parts of an operation that have arrived write: of two that write a register, the later one (R50, R111). -/
def arrivedResult (budget : Nat) (l : List Arrival) : RegRef → Option Word64 := fun x =>
  l.reverse.findSome? (fun a => loadResult a.ty a.dst (a.who.getD 0) budget a.x x)

/-- The operation `o` of a group ends with its next part; no part has failed so far, and no register that it writes has
been written meanwhile. -/
def LastPart (g : Group) (id : Nat) (o : Op) : Prop :=
  g.ops.find? (fun o => o.id == id) = some o ∧ o.parts ≤ 1 ∧ o.clobbered = [] ∧ ∀ a ∈ o.arrivals, a.bad = none

/-- A group without an operation. -/
def Group.without (g : Group) (id : Nat) : Group := { g with ops := g.ops.filter (fun o => o.id != id) }

/-- A byte of a line. -/
def lineGet (x : LineBits) (k : Nat) : Byte := (x >>> (8 * k)).setWidth 8

/-- The state `t` is `s` with messages sent. -/
def Sent (s t : State) (l : List Msg) : Prop := t.net = s.net ++ l

/-- The state `t` is `s` with a message at place `m` taken and others sent. -/
def Swapped (s t : State) (m : Nat) (l : List Msg) : Prop := t.net = s.net.eraseIdx m ++ l

/-- Firmware can write a byte now: its line is at its home, and no request for it waits there. -/
def State.AtHome (s : State) (a : Nat) : Prop :=
  tblGet s.misses (a / 128) = none ∧ (isHost (a / 128) = true ∨ (tblGet s.lines (a / 128)).isSome = true)

/-- Firmware has begun two writes that lay the inventory record in its page: the header and the body, and zeros are not written
(R449, R453, R457). -/
def Published (s t : State) : Prop :=
  let at_ := flatByte 0 (Config.inventoryPage.val * 65536)
  let bs := t.recordHead 3 168 ++ t.inventoryBody
  let write (u : Update) (a n : Nat) : Prop := u.addr = at_ + a ∧ u.colour = 0 ∧ u.l0 = false ∧ ∃ d m, u.op = .put d m false ∧
    ∀ i, i < 128 → lineGet m i = (if i < n then 0xFF#8 else 0#8) ∧ (i < n → bs[a + i]? = some (lineGet d i))
  ∃ u w, write u 0 128 ∧ write w 128 56 ∧
    Sent s t [{ ch := ⟨.req, portFirmware, portHome (u.addr / 128)⟩, body := .update u none },
      { ch := ⟨.req, portFirmware, portHome (w.addr / 128)⟩, body := .update w none }]

/-! ## Messages -/

/-- The message at place `m` is due, and is `b` on the channel `ch`. -/
def Due (s : State) (m : Nat) (ch : Chan) (b : Body) : Prop := ∃ own seq, s.deliverable m = some ⟨ch, b, own, seq⟩

end Sys2Proof.Machine
end

