-- ==== Sys2Proof/Certificates/Slice0/Obligations.lean ====
section
/-! DEFINITION. The statements for the provers. -/

section

open Sys2Proof Sys2Proof.Machine

/-- R239: IADD, ISUB, IMUL, IMULH, IMAD, IMIN, IMAX, IABS; R240: IMADW.

R239: AND, OR, XOR, NOT and the shifts, whose counts of the width or more leave no bit, or the sign.

R239, R241: BFX, BFI, POPC, CLZ, BREV. A field that begins at or beyond the width, or has length 0, is empty. -/
def Obligations.IntegerResults : Prop :=
  (∀ (c : Ctl) (ty : Ty) (d : Dst) (a b x : Src),
     let i := intOf ty.signed ty.bits
     Does c (.iadd c ty d a b) (fun e => e.result ty d (fun u => e.srcOf ty a u + e.srcOf ty b u 1)) ∧
     Does c (.isub c ty d a b) (fun e => e.result ty d (fun u => e.srcOf ty a u - e.srcOf ty b u 1)) ∧
     Does c (.imul c ty d a b) (fun e => e.result ty d (fun u => e.srcOf ty a u * e.srcOf ty b u 1)) ∧
     Does c (.imulh c ty d a b) (fun e => e.result ty d (fun u =>
       BitVec.ofInt 64 (i (e.srcOf ty a u) * i (e.srcOf ty b u 1) / 2 ^ ty.bits))) ∧
     Does c (.imad c ty d a b x) (fun e => e.result ty d (fun u => e.srcOf ty a u * e.srcOf ty b u 1 + e.srcOf ty x u 2)) ∧
     Does c (.imadw c ty d a b x) (fun e => e.result .b64 d (fun u => BitVec.ofInt 64
       (intOf ty.signed 32 (e.srcOf .b32 a u) * intOf ty.signed 32 (e.srcOf .b32 b u 1) +
         intOf ty.signed 64 (e.srcOf .b64 x u 2)))) ∧
     Does c (.imin c ty d a b) (fun e => e.result ty d (fun u =>
       if i (e.srcOf ty a u) ≤ i (e.srcOf ty b u 1) then e.srcOf ty a u else e.srcOf ty b u 1)) ∧
     Does c (.imax c ty d a b) (fun e => e.result ty d (fun u =>
       if i (e.srcOf ty a u) ≤ i (e.srcOf ty b u 1) then e.srcOf ty b u 1 else e.srcOf ty a u)) ∧
     Does c (.iabs c ty d a) (fun e => e.result ty d (fun u =>
       if i (e.srcOf ty a u) < 0 then 0#64 - e.srcOf ty a u else e.srcOf ty a u))) ∧
  (∀ (c : Ctl) (ty : Ty) (d : Dst) (a b : Src),
     let w := ty.bits
     let v (e : Iss) (x : Src) (k : Nat) (u : Tid) : BitVec w := (e.srcOf ty x u k).setWidth w
     Does c (.and c ty d a b) (fun e => e.result ty d (fun u => e.srcOf ty a u &&& e.srcOf ty b u 1)) ∧
     Does c (.or c ty d a b) (fun e => e.result ty d (fun u => e.srcOf ty a u ||| e.srcOf ty b u 1)) ∧
     Does c (.xor c ty d a b) (fun e => e.result ty d (fun u => e.srcOf ty a u ^^^ e.srcOf ty b u 1)) ∧
     Does c (.not c ty d a) (fun e => e.result ty d (fun u => ~~~(e.srcOf ty a u))) ∧
     Does c (.shl c ty d a b) (fun e => e.result ty d (fun u => (v e a 0 u <<< (v e b 1 u).toNat).setWidth 64)) ∧
     Does c (.shr c ty d a b) (fun e => e.result ty d (fun u => (v e a 0 u >>> (v e b 1 u).toNat).setWidth 64)) ∧
     Does c (.sar c ty d a b) (fun e => e.result ty d (fun u => ((v e a 0 u).sshiftRight (v e b 1 u).toNat).signExtend 64)) ∧
     Does c (.rot c ty d a b) (fun e => e.result ty d (fun u => ((v e a 0 u).rotateLeft ((v e b 1 u).toNat % w)).setWidth 64))) ∧
  (∀ (c : Ctl) (ty : Ty) (d : Dst) (a b x y : Src),
     let w := ty.bits
     let v (e : Iss) (x : Src) (k : Nat) (u : Tid) : BitVec w := (e.srcOf ty x u k).setWidth w
     let len (e : Iss) (p l : Src) (k : Nat) (u : Tid) : Nat := fieldLen w (e.srcOf ty p u k) (e.srcOf ty l u (k + 1))
     let pos (e : Iss) (p : Src) (k : Nat) (u : Tid) : Nat := (e.srcOf ty p u k).toNat % 256
     Does c (.bfx c ty d a b x) (fun e => e.result ty d (fun u =>
       let f := (v e a 0 u).extractLsb' (pos e b 1 u) (len e b x 1 u)
       if ty.signed then f.signExtend 64 else f.setWidth 64)) ∧
     Does c (.bfi c ty d a b x y) (fun e => e.result ty d (fun u =>
       BitVec.ofFnLE (fun i : Fin 64 =>
         if pos e x 2 u ≤ i.val ∧ i.val < pos e x 2 u + len e x y 2 u then (e.srcOf ty a u).getLsbD (i.val - pos e x 2 u)
         else (e.srcOf ty b u 1).getLsbD i.val))) ∧
     Does c (.popc c ty d a) (fun e => e.result ty d (fun u =>
       BitVec.ofNat 64 ((List.range w).countP (fun i => (e.srcOf ty a u).getLsbD i)))) ∧
     Does c (.clz c ty d a) (fun e => e.result ty d (fun u => BitVec.ofNat 64 (v e a 0 u).clz.toNat)) ∧
     Does c (.brev c ty d a) (fun e => e.result ty d (fun u => (v e a 0 u).reverse.setWidth 64)))

/-- R238, R242 to R246: MOV, MOVI, ISET, SEL, LEA, IDIV with its edge cases, PSET; NOP (R55) writes nothing. -/
def Obligations.MoveCompareDivideResults : Prop :=
  ∀ (c : Ctl) (ty : Ty) (d : Dst) (dp : DstP) (a b : Src) (imm : BitVec 34) (cond : Cond) (cnd : SelCond) (nx : Bool)
      (sh : BitVec 3) (base : VS) (op : PsetOp) (p q r : PReg),
    let i := intOf ty.signed ty.bits
    (ty ≠ .b128 → Does c (.mov c ty d a) (fun e => e.result ty d (fun u => e.srcOf ty a u))) ∧
    Does c (.mov c .b128 d a) (fun e x => match d, x with
      | .v n, .v u m => if e.act.getLsbD u.val ∧ m.val < e.g.budget ∧ n.val ≤ m.val ∧ m.val < n.val + 4 then
          some (((Operand.src128 e u a).extractLsb' (32 * (m.val - n.val)) 32).setWidth 64) else none
      | .s n, .s m => if e.act ≠ 0#32 ∧ n.val ≤ m.val ∧ m.val < n.val + 2 then
          some ((Operand.src128 e 0 a).extractLsb' (64 * (m.val - n.val)) 64) else none
      | _, _ => none) ∧
    Does c (.movi c ty d imm) (fun e => e.result ty d (fun _ => imm.signExtend 64)) ∧
    Does c (.iset c ty cond dp a b) (fun e => e.resultP ty dp (fun u =>
      boolWord (cond.holds (i (e.srcOf ty a u)) (i (e.srcOf ty b u 1))))) ∧
    Does c (.sel c ty d a b cnd) (fun e => e.result ty d (fun u =>
      if selCond (e.nth 2) u cnd then e.srcOf ty a u else e.srcOf ty b u 1)) ∧
    Does c (.lea c nx sh d base a) (fun e => e.result .b64 d (fun u =>
      Operand.vs e 64 u base + leaIndex (e.nth 1) nx u a * BitVec.ofNat 64 (2 ^ sh.toNat))) ∧
    Does c (.idiv c ty false d a b) (fun e => e.result ty d (fun u =>
      let x := i (e.srcOf ty a u)
      let y := i (e.srcOf ty b u 1)
      if y = 0 then
        BitVec.ofInt 64 (if !ty.signed then 2 ^ ty.bits - 1 else if 0 ≤ x then 2 ^ (ty.bits - 1) - 1 else -(2 ^ (ty.bits - 1)))
      else BitVec.ofInt 64 (x.tdiv y))) ∧
    Does c (.idiv c ty true d a b) (fun e => e.result ty d (fun u =>
      let y := i (e.srcOf ty b u 1)
      if y = 0 then e.srcOf ty a u else BitVec.ofInt 64 ((i (e.srcOf ty a u)).tmod y))) ∧
    Does c (.pset c op p q r) (fun e => e.resultP .b32 (.p p) (fun u =>
      boolWord (op.apply (Operand.p e u q) (Operand.p e u r)))) ∧
    Does c (.nop c) (fun _ _ => none)

/-- R248, R249: VOTE, SHFL, GRED and GSCAN over the threads of ACTIVE, in ascending order. -/
def Obligations.CrossThreadResults : Prop :=
  ∀ (c : Ctl) (ty : Ty) (dp : DstP) (d : VDst) (a n : Src) (p : PReg) (q : Option PReg) (m : ShflMode) (op : RedOp),
    let all (e : Iss) : Bool := (maskTids e.act).all (fun u => Operand.p e u p)
    let any (e : Iss) : Bool := (maskTids e.act).any (fun u => Operand.p e u p)
    let src (e : Iss) (u : Tid) : Option Tid :=
      let k := (e.srcOf ty n u 1).toNat
      let from_ : Option Nat := match m with
        | .idx => some k
        | .up => if k ≤ u.val then some (u.val - k) else none
        | .down => some (u.val + k)
        | .xor => if k < 32 then some (u.val ^^^ k) else none
      (List.finRange 32).find? (fun v => decide (from_ = some v.val) && e.act.getLsbD v.val)
    let upTo (e : Iss) (u : Tid) : List Word64 := ((maskTids e.act).filter (fun v => v ≤ u)).map (fun v => e.srcOf ty a v)
    let before (e : Iss) (u : Tid) : List Word64 := ((maskTids e.act).filter (fun v => v < u)).map (fun v => e.srcOf ty a v)
    let fold (l : List Word64) : Word64 := match l with
      | [] => 0#64
      | x :: r => r.foldl (redStep ty op) x
    Does c (.vote c .all dp p) (fun e => e.resultP .b32 dp (fun _ => boolWord (all e))) ∧
    Does c (.vote c .any dp p) (fun e => e.resultP .b32 dp (fun _ => boolWord (any e))) ∧
    Does c (.vote c .eq dp p) (fun e => e.resultP .b32 dp (fun _ => boolWord (all e || !any e))) ∧
    Does c (.vote c .ballot dp p) (fun e => e.resultP .b32 dp (fun _ =>
      (BitVec.ofFnLE (fun u : Tid => e.act.getLsbD u.val && Operand.p e u p)).setWidth 64)) ∧
    Does c (.shfl c ty m d a n q) (fun e x => match q, x with
      | some q, .p u z => if e.act.getLsbD u.val ∧ z = q ∧ q.val ≠ 15 then some (boolWord (src e u).isSome) else none
      | _, _ => e.result ty (vdst d) (fun u => e.srcOf ty a ((src e u).getD u)) x) ∧
    Does c (.gred c ty op d a) (fun e => e.result ty (vdst d) (fun _ => passNan ty (fold ((maskTids e.act).map (fun v => e.srcOf ty a v))))) ∧
    Does c (.gscan c ty op false d a) (fun e => e.result ty (vdst d) (fun u => passNan ty (fold (upTo e u)))) ∧
    Does c (.gscan c ty op true d a) (fun e => e.result ty (vdst d) (fun u =>
      passNan ty ((before e u).foldl (redStep ty op) (redIdentity ty op))))

/-- R258 to R272: floating point on the values of the types (R193 to R209), each result rounded once. -/
def Obligations.FloatingPointResults : Prop :=
  ∀ (c : Ctl) (ty dty sty : Ty) (r : Rnd) (d : Dst) (dp : DstP) (a b x : Src) (cond : Cond) (un : Bool) (mask : BitVec 9),
    let w (e : Iss) (y : Src) (u : Tid) (k : Nat) : Word64 := e.srcOf .b32 y u k
    let v (e : Iss) (y : Src) (u : Tid) (k : Nat) : Fp := fpOf ty (w e y u k)
    let hi (e : Iss) (y : Src) (u : Tid) (k : Nat) : Fp := fpOf ty (w e y u k >>> 16)
    Does c (.fadd c ty r d a b) (fun e => e.result ty d (fun u => fpTo ty r (sumFp r [v e a u 0, v e b u 1]))) ∧
    Does c (.fsub c ty r d a b) (fun e => e.result ty d (fun u => fpTo ty r (sumFp r [v e a u 0, (v e b u 1).negate]))) ∧
    Does c (.fmul c ty r d a b) (fun e => e.result ty d (fun u => fpTo ty r (mulFp (v e a u 0) (v e b u 1)))) ∧
    Does c (.ffma c ty r d a b x) (fun e => e.result ty d (fun u =>
      fpTo ty r (sumFp r [mulFp (v e a u 0) (v e b u 1), v e x u 2]))) ∧
    Does c (.fmin c ty d a b) (fun e => e.result ty d (fun u => floatMinMax ty false (w e a u 0) (w e b u 1))) ∧
    Does c (.fmax c ty d a b) (fun e => e.result ty d (fun u => floatMinMax ty true (w e a u 0) (w e b u 1))) ∧
    Does c (.fabs c ty d a) (fun e => e.result ty d (fun u => floatAbs ty (w e a u 0))) ∧
    Does c (.fneg c ty d a) (fun e => e.result ty d (fun u => floatNeg ty (w e a u 0))) ∧
    Does c (.fset c ty cond un dp a b) (fun e => e.resultP .n32 dp (fun u => boolWord
      (match cmpFp (v e a u 0) (v e b u 1) with
       | some i => cond.holds i 0
       | none => un || decide (cond = .ne)))) ∧
    Does c (.fclass c ty dp a mask) (fun e => e.resultP .n32 dp (fun u =>
      let k : Word64 := BitVec.ofNat 64 (2 ^ floatClass ty (w e a u 0))
      match dp with
      | .p _ => k &&& mask.setWidth 64
      | _ => k)) ∧
    Does c (.frcp c r d a) (fun e => e.result .f32 d (fun u => frcp r (w e a u 0))) ∧
    Does c (.frsq c d a) (fun e => e.result .f32 d (fun u => frsq (w e a u 0))) ∧
    Does c (.fsqrt c r d a) (fun e => e.result .f32 d (fun u => fsqrt r (w e a u 0))) ∧
    Does c (.fexp2 c d a) (fun e => e.result .f32 d (fun u => fexp2 (w e a u 0))) ∧
    Does c (.flog2 c d a) (fun e => e.result .f32 d (fun u => flog2 (w e a u 0))) ∧
    Does c (.fsin c d a) (fun e => e.result .f32 d (fun u => ftrig true (w e a u 0))) ∧
    Does c (.fcos c d a) (fun e => e.result .f32 d (fun u => ftrig false (w e a u 0))) ∧
    Does c (.fcvt c dty sty r d a x) (fun e => e.result dty d (fun u =>
      convertTo dty r (cvtScale (e.nth 1) u x) (valueOf sty (cvtScale (e.nth 1) u x) (e.srcOf sty a u)))) ∧
    Does c (.frnd c ty r d a) (fun e => e.result ty d (fun u => floatRound ty r (w e a u 0))) ∧
    Does c (.fscale c ty r d a b) (fun e => e.result ty d (fun u => floatScale ty r (w e a u 0) (w e b u 1))) ∧
    Does c (.fdot2 c ty r d a b x) (fun e => e.result .f32 d (fun u =>
      fpTo .f32 r (sumFp r [mulFp (v e a u 0) (v e b u 1), mulFp (hi e a u 0) (hi e b u 1), fpOf .f32 (w e x u 2)])))

/-- R264: FABS clears the sign bit of its source and FNEG inverts it; a NaN gives the canonical NaN of its type.

R263: FMIN and FMAX give one of their operands, unchanged: not a NaN where the other is none, −0 before +0, else by value. GRED and
GSCAN combine two values in the same way. -/
def Obligations.SignsMinimumAndMaximum : Prop :=
  (∀ (c : Ctl) (ty : Ty) (d : Dst) (a : Src),
     let n := ty.width
     let fb := if ty = .f32 then 23 else if ty = .f16 then 10 else 7
     let eb := n - 1 - fb
     let canonical := if ty = .f32 then 0x7FC00000 else if ty = .f16 then 0x7E00 else 0x7FC0
     let bits (e : Iss) (u : Tid) : Nat := (e.srcOf .b32 a u).toNat % 2 ^ n
     let nan (x : Nat) : Prop := x / 2 ^ fb % 2 ^ eb = 2 ^ eb - 1 ∧ x % 2 ^ fb ≠ 0
     Does c (.fabs c ty d a) (fun e => e.result ty d (fun u =>
       BitVec.ofNat 64 (if nan (bits e u) then canonical else bits e u % 2 ^ (n - 1)))) ∧
     Does c (.fneg c ty d a) (fun e => e.result ty d (fun u =>
       BitVec.ofNat 64 (if nan (bits e u) then canonical else (bits e u + 2 ^ (n - 1)) % 2 ^ n)))) ∧
  (∀ (c : Ctl) (ty : Ty) (d : Dst) (a b : Src) (x y : Word64),
     let fb (ty : Ty) : Nat := if ty = .f32 then 23 else if ty = .f16 then 10 else 7
     let canonical (ty : Ty) : Nat := if ty = .f32 then 0x7FC00000 else if ty = .f16 then 0x7E00 else 0x7FC0
     let low (ty : Ty) (x : Word64) : Nat := x.toNat % 2 ^ ty.width
     let nan (ty : Ty) (x : Nat) : Prop :=
       x / 2 ^ fb ty % 2 ^ (ty.width - 1 - fb ty) = 2 ^ (ty.width - 1 - fb ty) - 1 ∧ x % 2 ^ fb ty ≠ 0
     let zero (ty : Ty) (x : Nat) : Prop := x % 2 ^ (ty.width - 1) = 0
     let order (ty : Ty) (x y : Nat) : Option Int := cmpFp ((fmtOf ty).value x) ((fmtOf ty).value y)
     let pick (ty : Ty) (max : Bool) (x y z : Nat) : Prop :=
       (nan ty x ∧ nan ty y → z = canonical ty) ∧ (nan ty x ∧ ¬ nan ty y → z = y) ∧ (¬ nan ty x ∧ nan ty y → z = x) ∧
       (zero ty x ∧ zero ty y → z = if max then Nat.min x y else Nat.max x y) ∧
       (¬ nan ty x → ¬ nan ty y → ¬ (zero ty x ∧ zero ty y) → ∃ i, order ty x y = some i ∧
         (i < 0 → z = if max then y else x) ∧ (0 < i → z = if max then x else y) ∧ (i = 0 → z = x ∨ z = y))
     (∃ f : Nat → Nat → Nat, (∀ x y, x < 2 ^ ty.width → y < 2 ^ ty.width → ty = .f32 ∨ ty = .f16 ∨ ty = .bf16 → pick ty false x y (f x y)) ∧
       Does c (.fmin c ty d a b) (fun e => e.result ty d (fun u => BitVec.ofNat 64 (f (low ty (e.srcOf .b32 a u)) (low ty (e.srcOf .b32 b u 1)))))) ∧
     (∃ f : Nat → Nat → Nat, (∀ x y, x < 2 ^ ty.width → y < 2 ^ ty.width → ty = .f32 ∨ ty = .f16 ∨ ty = .bf16 → pick ty true x y (f x y)) ∧
       Does c (.fmax c ty d a b) (fun e => e.result ty d (fun u => BitVec.ofNat 64 (f (low ty (e.srcOf .b32 a u)) (low ty (e.srcOf .b32 b u 1)))))) ∧
     (∃ z, pick .f32 false (low .f32 x) (low .f32 y) z ∧ redStep .f32 .min x y = BitVec.ofNat 64 z) ∧
     (∃ z, pick .f32 true (low .f32 x) (low .f32 y) z ∧ redStep .f32 .max x y = BitVec.ofNat 64 z))

/-- R255: the numbers that bound sets hold, added, subtracted, shifted, multiplied by a word and compared, with carries.

R251: LBIND makes aligned sets of k threads; LFREE ends the binding of whole sets.

R255: a limb instruction with an active thread that is not bound changes no register: it raises LIMB_SHAPE for those
threads, with their sets.

R252: an instruction whose guard would split a bound set does nothing but raise DIVERGE_BOUND. -/
def Obligations.BoundLimbs : Prop :=
  (∀ (c : Ctl) (d hi : VDst) (a : VReg) (b acc : Dst) (cnt : Src) (p q : Option PReg) (pd : PReg) (w : VS) (sel : BitVec 5)
       (cond : Cond),
     let num (e : Iss) (x : VReg) (u : Tid) : Nat := e.num (fun t => Operand.v e t x) u
     let dnum (e : Iss) (x : Dst) (u : Tid) (k : Nat := 1) : Nat := e.num (fun t => Operand.dst32 (e.nth k) t x) u
     let inn (e : Iss) (u : Tid) : Nat := match p with
       | none => 0
       | some n => if Operand.p e (e.g.head u) n then 1 else 0
     let cap (e : Iss) (u : Tid) : Nat := 2 ^ e.bits u
     let by_ (e : Iss) (u : Tid) : Nat := (Operand.src32 (e.nth 1) (e.g.head u) cnt).toNat
     let word (e : Iss) (u : Tid) : Nat := match w with
       | .v n => (Operand.v (e.nth 1) (Fin.ofNat 32 ((e.g.head u).val + sel.toNat)) n).toNat
       | .s n => (Operand.s (e.nth 1) n).toNat % 2 ^ 32
     let limb : Option Nat := match w with
       | .v _ => some sel.toNat
       | .s _ => none
     let sum (e : Iss) (u : Tid) : Nat := num e a u + dnum e b u + inn e u
     let shl (e : Iss) (u : Tid) : Nat := if e.bits u ≤ by_ e u then 0 else num e a u * 2 ^ by_ e u
     let shr (e : Iss) (u : Tid) : Nat := if e.bits u ≤ by_ e u then 0 else num e a u / 2 ^ by_ e u
     let high (e : Iss) (z : Tid → Nat) : RegRef → Option Word64 :=
       e.result .b32 (vdst hi) (fun u => BitVec.ofNat 64 (z u / cap e u % 2 ^ 32))
     DoesIf c (.ladc c d a b p q) (fun e => e.limbs none)
       (fun e => both (e.predResult q (fun u => decide (cap e u ≤ sum e u))) (e.limbResult d (sum e))) ∧
     DoesIf c (.lsbb c d a b p q) (fun e => e.limbs none)
       (fun e => both (e.predResult q (fun u => decide (num e a u < dnum e b u + inn e u)))
         (e.limbResult d (fun u => num e a u + cap e u - (dnum e b u + inn e u)))) ∧
     DoesIf c (.lshl c d a cnt q) (fun e => e.limbs none)
       (fun e => both (e.predResult q (fun u =>
           decide (if e.bits u ≤ by_ e u then num e a u ≠ 0 else cap e u ≤ num e a u * 2 ^ by_ e u)))
         (e.limbResult d (shl e))) ∧
     DoesIf c (.lshr c d a cnt q) (fun e => e.limbs none)
       (fun e => both (e.predResult q (fun u =>
           decide (if e.bits u ≤ by_ e u then num e a u ≠ 0 else num e a u % 2 ^ by_ e u ≠ 0)))
         (e.limbResult d (shr e))) ∧
     DoesIf c (.lmulw c d a w hi sel) (fun e => e.limbs limb)
       (fun e => both (high e (fun u => num e a u * word e u)) (e.limbResult d (fun u => num e a u * word e u))) ∧
     DoesIf c (.lmac c d a w acc hi sel) (fun e => e.limbs limb)
       (fun e => both (high e (fun u => num e a u * word e u + dnum e acc u 2))
         (e.limbResult d (fun u => num e a u * word e u + dnum e acc u 2))) ∧
     DoesIf c (.lcmp c cond pd a b) (fun e => e.limbs none)
       (fun e => e.predResult (some pd) (fun u => cond.holds (num e a u) (dnum e b u)))) ∧
  (∀ (c : Ctl) (k : LimbSize),
     Runs c (.lbind c k)
       (fun e => ∀ u, e.act.getLsbD u.val = true → (e.g.thread u).lbk = 0 ∧
         ∀ v : Tid, v.val / limbCount k = u.val / limbCount k → e.act.getLsbD v.val = true)
       (fun e t => Wrote e.s t e.r
         (e.g.modThreads e.act (fun u th => { th with lbk := limbCount k, lix := u.val % limbCount k })) noReg e.onward) ∧
     Runs c (.lfree c) (fun _ => True)
       (fun e t => Wrote e.s t e.r (e.g.modThreads e.act (fun _ th => { th with lbk := 0, lix := 0 })) noReg e.onward)) ∧
  (∀ (c : Ctl) (d hi : VDst) (a : VReg) (b acc : Dst) (cnt : Src) (p q : Option PReg) (pd : PReg) (w : VS) (sel : BitVec 5)
       (cond : Cond) (s : State) (k : Cur) (g : Group),
     Issues s c k g →
     let on (u : Tid) : Bool := (activeOf g c k.mask).getLsbD u.val
     let free := maskOf (fun u => on u && (g.thread u).lbk == 0)
     let short := maskOf (fun u => on u && decide ((g.thread u).lbk ≤ sel.toNat))
     let raised (m : Mask) : Out :=
       .next ((s.begun k g).raise k.g ⟨k.pc, k.mask⟩ { code := .limbShape, mask := m, pc := k.pc })
     (free ≠ 0#32 → ∀ i ∈ [Instr.ladc c d a b p q, .lsbb c d a b p q, .lshl c d a cnt q, .lshr c d a cnt q,
       .lmulw c d a w hi sel, .lmac c d a w acc hi sel, .lcmp c cond pd a b], exec i s = raised free) ∧
     (∀ n, w = .v n → free = 0#32 → short ≠ 0#32 →
       ∀ i ∈ [Instr.lmulw c d a w hi sel, .lmac c d a w acc hi sel], exec i s = raised short)) ∧
  (∀ (c : Ctl) (ty : Ty) (d : Dst) (a b : Src) (h : Hint) (m : Addr) (off : BitVec 34) (bar : BReg) (fd fa fb : CReg) (st : Fin 8) (td : TReg)
       (s : State) (k : Cur) (g0 : Group), s.cur = some k → s.group k.g = some g0 →
     let g := g0.taken k
     let bad := splitSets g k.mask (activeOf g c k.mask)
     bad ≠ 0#32 →
     ∀ i ∈ [Instr.nop c, .iadd c ty d a b, .ldg c h ty d m, .stg c h ty m a, .ldx c h ty d m, .bra c off, .exit c, .tret c, .yield c,
         .baraw c bar, .chmul c fd fa fb, .tzero c st td, .linvAll c h], exec i s =
       .next ((s.begun k g).raise k.g ⟨k.pc, k.mask⟩ { code := .divergeBound, mask := bad, pc := k.pc }))

/-- R275, R276, R284 to R286: the instructions that make a series place it, rounded and trimmed, in their register. -/
def Obligations.FunctionResults : Prop :=
  ∀ (c : Ctl) (fd fa fb : CReg) (sub : Bool) (len : SImm 9),
    let qs (e : Iss) (k : CReg) : Option (List Rat) := ratsOf (funcCoefs e.g k)
    let make (i : Instr) (srcs : List CReg) (ok : Iss → Prop) (dom : CReg) (res : Iss → List Word32) : Prop :=
      Runs c i (fun e => e.funcs srcs ∧ ok e ∧ e.room fd (res e).length)
        (fun e t => Placed e t fd e.g.f[dom].a e.g.f[dom].b (res e))
    let trim (e : Iss) (l : List Rat) : List Word32 := trimCoefs e.g.chbTol (l.map ratTo)
    let same (e : Iss) : Prop := e.g.f[fa].a = e.g.f[fb].a ∧ e.g.f[fa].b = e.g.f[fb].b
    let sum (e : Iss) : List Rat := (List.range (max e.g.f[fa].n e.g.f[fb].n)).map (fun k =>
      if sub then ratAt ((qs e fa).getD []) k - ratAt ((qs e fb).getD []) k
      else ratAt ((qs e fa).getD []) k + ratAt ((qs e fb).getD []) k)
    let prod (e : Iss) : List Rat :=
      let x := (qs e fa).getD []
      let y := (qs e fb).getD []
      (List.range (x.length + y.length - 1)).map (prodCoef x y)
    let n (e : Iss) : Nat := (Operand.simm (e.nth 2) len).toNat
    let mid (e : Iss) : Rat := ((ratOf e.g.f[fa].a).getD 0 + (ratOf e.g.f[fa].b).getD 0) / 2
    let half (e : Iss) : Rat := domainWidth e.g.f[fa] / 2
    let inner (e : Iss) : List Rat := ((qs e fb).getD []).zipIdx.map (fun x => if x.2 = 0 then x.1 - mid e else x.1)
    let unit (e : Iss) : Option (List Rat) := ratsOf ((inner e).map (fun x => ratTo (x / half e)))
    make (.chadd c sub fd fa fb) [fa, fb] (fun e => same e ∧ (qs e fa).isSome ∧ (qs e fb).isSome) fa
      (fun e => trim e (sum e)) ∧
    make (.chmul c fd fa fb) [fa, fb] (fun e => same e ∧ (∃ x, qs e fa = some x ∧ x ≠ []) ∧ ∃ y, qs e fb = some y ∧ y ≠ []) fa
      (fun e => trim e (prod e)) ∧
    make (.chint c fd fa) [fa] (fun e => (qs e fa).isSome) fa
      (fun e => trim e (intSeries ((qs e fa).getD []) (domainWidth e.g.f[fa]))) ∧
    make (.chder c fd fa) [fa] (fun e => (qs e fa).isSome) fa
      (fun e => trim e (derSeries ((qs e fa).getD []) (domainWidth e.g.f[fa]))) ∧
    make (.chtrunc c fd fa len) [fa] (fun e => n e ≠ 0) fa (fun e => (funcCoefs e.g fa).take (n e)) ∧
    make (.chcomp c fd fa fb) [fa, fb]
      (fun e => (qs e fb).isSome ∧ ratSum ((inner e).map ratAbs) ≤ half e ∧
        (((qs e fa).bind (fun f => (unit e).bind (compSeries f))).isSome)) fb
      (fun e => trimCoefs e.g.chbTol (((qs e fa).bind (fun f => (unit e).bind (compSeries f))).getD [])) ∧
    make (.chadd c sub fd fa fb) [fa, fb] (fun e => same e ∧ (qs e fa = none ∨ qs e fb = none)) fa
      (fun e => List.replicate (max e.g.f[fa].n e.g.f[fb].n) 0x7FC00000#32) ∧
    make (.chmul c fd fa fb) [fa, fb] (fun e => same e ∧ (qs e fa = none ∨ qs e fb = none)) fa
      (fun e => List.replicate (e.g.f[fa].n + e.g.f[fb].n - 1) 0x7FC00000#32) ∧
    make (.chint c fd fa) [fa] (fun e => qs e fa = none) fa (fun e => List.replicate (min (e.g.f[fa].n + 1) 256) 0x7FC00000#32) ∧
    make (.chder c fd fa) [fa] (fun e => qs e fa = none) fa (fun e => List.replicate (max 1 (e.g.f[fa].n - 1)) 0x7FC00000#32) ∧
    make (.chcomp c fd fa fb) [fa, fb]
      (fun e => (qs e fb).isSome ∧ ratSum ((inner e).map ratAbs) ≤ half e ∧
        (qs e fa).bind (fun f => (unit e).bind (compSeries f)) = none) fb
      (fun e => List.replicate (min 256 ((e.g.f[fa].n - 1) * (e.g.f[fb].n - 1) + 1)) 0x7FC00000#32)

/-- R284 to R288: CHDOM, CHLEN, CHEVAL and CHROOT read a function register and write registers.

R283: CHLD reads len words of scratchpad into a function register, CHST writes them back, low word first.

R280, R285: CHADD of two functions of different domains raises DOMAIN_MISMATCH, and a result without room CHB_POOL. -/
def Obligations.FunctionQueriesAndLoads : Prop :=
  (∀ (c : Ctl) (sd : SDst) (d : Dst) (vd : VDst) (fa : CReg) (x : Src) (pd : Option PReg),
     let r (e : Iss) : FuncReg := e.g.f[fa]
     let cs (e : Iss) : List Word32 := funcCoefs e.g fa
     let at_ (e : Iss) (u : Tid) : Word32 × Bool := evalAt (r e) (cs e) (Operand.src32 e u x)
     let roots (e : Iss) : List Word32 := rootsOf (cs e)
     DoesIf c (.chdom c sd fa) (fun e => e.funcs [fa]) (fun e => e.result .b64 (sdst sd) (fun _ => (r e).b ++ (r e).a)) ∧
     DoesIf c (.chlen c sd fa) (fun e => e.funcs []) (fun e => e.result .b64 (sdst sd) (fun _ => BitVec.ofNat 64 (r e).n)) ∧
     DoesIf c (.cheval c d fa x pd) (fun e => e.funcs [fa])
       (fun e => both (e.predResult pd (fun u => (at_ e u).2)) (e.result .f32 d (fun u => (at_ e u).1.setWidth 64))) ∧
     DoesIf c (.chroot c vd sd fa) (fun e => e.funcs [fa])
       (fun e => both (e.result .b64 (sdst sd) (fun _ => BitVec.ofNat 64 (roots e).length))
         (e.result .f32 (vdst vd) (fun u => (match ((roots e).take 32)[u.val]? with
           | none => 0x7FC00000#32
           | some z => ratTo ((ratOf (r e).a).getD 0 + ((ratOf z).getD 0 + 1) * domainWidth (r e) / 2)).setWidth 64)))) ∧
  (∀ (c : Ctl) (fd fa : CReg) (sa dom : SReg) (len : SImm 9) (b blk : Block) (key : BlockKey) (slot off : Nat) (peer : Bool),
     let a (e : Iss) (k : Nat) : Word64 := Operand.s (e.nth k) sa
     let lo (e : Iss) : Word32 := (Operand.s e dom).extractLsb' 0 32
     let hi (e : Iss) : Word32 := (Operand.s e dom).extractLsb' 32 32
     let n (e : Iss) : Nat := (Operand.simm (e.nth 2) len).toNat
     let there (e : Iss) (k m : Nat) : Prop := e.g.banks = [] ∧ e.s.block e.r.key = some b ∧
       scratchFault e b false 4 (4 * m) e.act (fun _ => a e k) = none ∧
       scratchAt e.r e.g.slot (a e k) = .bytes key slot off peer ∧ e.s.block key = some blk
     let words (e : Iss) : List Word32 := (List.range (n e)).map (fun i =>
       leBits 32 ((List.range 4).map (fun j => e.s.mem.read (shareKey blk slot (off + 4 * i + j)))))
     let image (e : Iss) : List Byte := (funcCoefs e.g fa).flatMap (fun x => (List.range 4).map (fun j => x.extractLsb' (8 * j) 8))
     Runs c (.chld c fd sa dom len)
       (fun e => e.act ≠ 0#32 ∧ 1 ≤ n e ∧ n e ≤ 256 ∧ there e 1 (n e) ∧ e.s.spPoisoned blk slot off (4 * n e) = false ∧
         (∃ x y, ratOf (lo e) = some x ∧ ratOf (hi e) = some y ∧ x < y) ∧ e.room fd (n e))
       (fun e t => Placed e t fd (lo e) (hi e) (words e)) ∧
     Runs c (.chst c sa fa) (fun e => e.funcs [fa] ∧ there e 0 e.g.f[fa].n)
       (fun e t => Wrote (e.s.spWrite blk slot off (image e)) t e.r e.g noReg e.onward)) ∧
  (∀ (c : Ctl) (fd fa fb : CReg) (sub : Bool) (s : State) (k : Cur) (g : Group), Issues s c k g →
     let e := issueOf s c k g
     let x := ratsOf (funcCoefs g fa)
     let y := ratsOf (funcCoefs g fb)
     let fails (code : FaultCode) : Prop := exec (.chadd c sub fd fa fb) s =
       .next (e.s.raise k.g ⟨k.pc, k.mask⟩ { code := code, mask := e.act, pc := k.pc })
     e.funcs [fa, fb] →
     (¬(g.f[fa].a = g.f[fb].a ∧ g.f[fa].b = g.f[fb].b) → fails .domainMismatch) ∧
     ((g.f[fa].a = g.f[fb].a ∧ g.f[fa].b = g.f[fb].b) → (x = none ∨ y = none) →
       firstFit g fd (granulesOf (max g.f[fa].n g.f[fb].n)) = none → fails .chbPool))

/-- R280: a function-unit instruction that reads an empty source raises DOMAIN_MISMATCH, a fatal fault, and changes no register and no word
of the pool. -/
def Obligations.EmptyFunctionSources : Prop :=
  ∀ (c : Ctl) (fd fa fb : CReg) (sub : Bool) (sa : SReg) (sd : SDst) (vd : VDst) (d : Dst) (x : Src) (pd : Option PReg) (len : SImm 9),
    let faults (i : Instr) (srcs : List CReg) (more : Iss → Prop) : Prop :=
      Runs c i (fun e => e.act ≠ 0#32 ∧ (∃ k ∈ srcs, e.g.f[k].n = 0) ∧ more e)
        (fun e t => t = e.s.raise e.r ⟨e.pc, e.mask⟩ { code := .domainMismatch, mask := e.act, pc := e.pc } ∧
          ∃ g', t.group e.r = some g' ∧ (∀ r, g'.reg r = e.g.reg r) ∧ g'.f = e.g.f ∧ g'.pool = e.g.pool)
    let any : Iss → Prop := fun _ => True
    FaultCode.domainMismatch.kind = .fatal ∧
    faults (.chst c sa fa) [fa] any ∧ faults (.chdom c sd fa) [fa] any ∧ faults (.chadd c sub fd fa fb) [fa, fb] any ∧
    faults (.chmul c fd fa fb) [fa, fb] any ∧ faults (.chcomp c fd fa fb) [fa, fb] any ∧ faults (.chint c fd fa) [fa] any ∧
    faults (.chder c fd fa) [fa] any ∧ faults (.chroot c vd sd fa) [fa] any ∧ faults (.cheval c d fa x pd) [fa] any ∧
    faults (.chtrunc c fd fa len) [fa] (fun e => Operand.simm (e.nth 2) len ≠ 0)

/-- R375 to R380: BRA, BRX, CALL and CALLX send the active threads to their targets and the rest of the entry to the next
slot; a call pushes a frame that holds the next slot.

R379, R380: RET pops the newest frame and goes to its address, with the low half from the link register where one is
named; a thread without a frame exits, as EXIT makes every active thread do. With no colour to release.

R381, R382: a call at depth 64 or more spills the oldest frame to the frame area and still pushes its own. -/
def Obligations.ControlTransfers : Prop :=
  (∀ (c : Ctl) (off : BitVec 34) (link : VDst) (x : VS),
     let near (e : Iss) : Word64 := indexAddr (slotIndex e.pc + off.toInt)
     let goes (e : Iss) (tgt : Tid → Word64) (u : Tid) : Word64 := if e.act.getLsbD u.val then tgt u else e.onward u
     let legal (e : Iss) (tgt : Tid → Word64) : Prop := ∀ u, e.act.getLsbD u.val = true → isSlot (tgt u) = true ∧
       ∀ w, (e.g.boundSet u).getLsbD w.val = true → tgt w = tgt u
     let shallow (e : Iss) : Prop := ∃ b, e.s.block e.r.key = some b ∧ ∀ u, e.act.getLsbD u.val = true →
       (e.g.thread u).fdep < min 64 (frameLimit b)
     let pushed (e : Iss) : Group := e.g.modThreads e.act (fun _ th =>
       { th with frames := ⟨nextSlot e.pc, th.fdep + 1⟩ :: th.frames.take 63, fdep := th.fdep + 1 })
     let linked (e : Iss) : RegRef → Option Word64 := e.result .b32 (vdst link) (fun _ => nextSlot e.pc)
     Runs c (.bra c off) (fun _ => True) (fun e t => Wrote e.s t e.r e.g noReg (goes e (fun _ => near e))) ∧
     Runs c (.brx c x) (fun e => legal e (fun u => Operand.vs e 64 u x))
       (fun e t => Wrote e.s t e.r e.g noReg (goes e (fun u => Operand.vs e 64 u x))) ∧
     Runs c (.call c link off) shallow
       (fun e t => Wrote { e.s with nextId := t.nextId } t e.r (pushed e) (linked e) (goes e (fun _ => near e))) ∧
     Runs c (.callx c link x) (fun e => shallow e ∧ legal e (fun u => Operand.vs e 64 u x))
       (fun e t => Wrote { e.s with nextId := t.nextId } t e.r (pushed e) (linked e) (goes e (fun u => Operand.vs e 64 u x)))) ∧
  (∀ (c : Ctl) (link : Option VReg),
     let th (e : Iss) (u : Tid) : Thread := e.g.thread u
     let on (e : Iss) (u : Tid) : Prop := e.act.getLsbD u.val = true
     let tgt (e : Iss) (u : Tid) : Word64 := match (th e u).frames with
       | [] => 0#64
       | f :: _ => match link with
         | none => f.ret
         | some n => f.ret.extractLsb' 32 32 ++ Operand.v e u n
     let gone (x : Thread) : Thread := { x with
       status := .exited, deadline := none, frames := [], fdep := 0, lbk := 0, lix := 0, savedLbk := 0, savedLix := 0 }
     Runs c (.ret c link)
       (fun e => e.act ≠ 0#32 ∧ (∃ b, e.s.block e.r.key = some b) ∧
         ∀ u, on e u → ((th e u).fdep ≤ 64 ∨ (e.g.filled u).isSome = true) ∧ (∀ h ∈ (th e u).held, h.frame ≠ (th e u).fdep ∨ h.handler = true) ∧
           (e.g.inHandler = true → (th e u).tdep < (th e u).fdep ∧ (th e u).inTrap = true ∧ (th e u).isRunning = true) ∧
           ((th e u).fdep ≠ 0 → isSlot (tgt e u) = true ∧
             ∀ w, (e.g.boundSet u).getLsbD w.val = true → tgt e w = tgt e u))
       (fun e t => Wrote e.s t e.r
         { e.g.modThreads e.act (fun u x => if x.fdep = 0 then gone x else { x with
             frames := x.frames.drop 1 ++ (if x.fdep ≤ 64 then none else e.g.filled u).toList
             fdep := x.fdep - 1 }) with fills := e.g.fills.filter (fun f => !e.act.getLsbD f.1.val) } noReg (fun u => if e.act.getLsbD u.val then (if (th e u).fdep = 0 then (th e u).pc else tgt e u) else e.onward u)) ∧
     Runs c (.exit c)
       (fun e => (∀ u, on e u → (th e u).held = []) ∧
         (e.g.inHandler = true → ∃ u, ¬ on e u ∧ (th e u).inTrap = true ∧ (th e u).isRunning = true))
       (fun e t => Wrote e.s t e.r (e.g.modThreads e.act (fun _ x => gone x)) noReg
         (fun u => if e.act.getLsbD u.val then (th e u).pc else e.onward u))) ∧
  (∀ (c : Ctl) (link : VDst) (off : BitVec 34) (b : Block) (s1 : State),
     let deep (e : Iss) : List Tid := (maskTids e.act).filter (fun u => decide (64 ≤ (e.g.thread u).fdep))
     let addr (e : Iss) (u : Tid) : Word64 := b.lr.fsb + BitVec.ofNat 64
       ((e.r.key.blk * b.lr.bsz + 32 * e.r.grp + u.val) * b.lr.fsz + 16 * ((e.g.thread u).fdep - 64))
     Runs c (.call c link off)
       (fun e => e.s.block e.r.key = some b ∧
         (∀ u, e.act.getLsbD u.val = true → (e.g.thread u).fdep < 64 + b.lr.fsz / 16) ∧
         (∀ x ∈ (s1.core e.g.core).buffer, x.retrans = false ∧ x.poison = false) ∧
         ∃ xs : List (Tid × Xlat), e.s.xlateAll e.g.core e.r.key.ctx Need.write (addr e) false (deep e) =
           (xs.map (fun x => (x.1, XlatResult.ok x.2)), s1))
       (fun e t => ∃ g', t.group e.r = some g' ∧ ∀ u, e.act.getLsbD u.val = true →
         (g'.thread u).fdep = (e.g.thread u).fdep + 1 ∧
         (g'.thread u).frames = ⟨nextSlot e.pc, (e.g.thread u).fdep + 1⟩ :: (e.g.thread u).frames.take 63 ∧
         (g'.thread u).pc = indexAddr (slotIndex e.pc + off.toInt))) ∧
  (∀ (c : Ctl) (link : Option VReg) (b : Block) (s1 : State) (x0 : Tid × Xlat) (xs : List (Tid × Xlat)),
     let th (e : Iss) (u : Tid) : Thread := e.g.thread u
     let deep (e : Iss) : List Tid := (maskTids e.act).filter (fun u => decide (64 < (th e u).fdep))
     let addr (e : Iss) (u : Tid) : Word64 := b.lr.fsb + BitVec.ofNat 64
       ((e.r.key.blk * b.lr.bsz + 32 * e.r.grp + u.val) * b.lr.fsz + 16 * ((th e u).fdep - 65))
     let tgt (e : Iss) (u : Tid) : Word64 := match (th e u).frames, link with
       | [], _ => 0#64
       | f :: _, none => f.ret
       | f :: _, some n => f.ret.extractLsb' 32 32 ++ Operand.v e u n
     Runs c (.ret c link)
       (fun e => e.s.block e.r.key = some b ∧ e.g.fills = [] ∧ e.g.inHandler = false ∧
         (∀ u, e.act.getLsbD u.val = true → (th e u).fdep ≠ 0 → isSlot (tgt e u) = true ∧
             ∀ w, (e.g.boundSet u).getLsbD w.val = true → tgt e w = tgt e u) ∧
         e.s.xlateAll e.g.core e.r.key.ctx Need.read (addr e) false (deep e) =
           ((x0 :: xs).map (fun x => (x.1, XlatResult.ok x.2)), s1))
       (fun e t => ∃ g', t.group e.r = some g' ∧ (∀ x, g'.reg x = e.g.reg x) ∧ (∀ u, g'.thread u = th e u) ∧
         (∃ o ∈ g'.ops, o.id = s1.nextId ∧ o.cls = .none ∧ o.kind = .fill ∧ o.parts = xs.length + 1) ∧
         g'.holds = e.g.holds ++ [⟨e.mask, e.pc, .filled [s1.nextId]⟩]))

/-- R384, R385: YIELD names the next slot as the entry to pass over; WAIT goes on once its counters are within their limits
(15 is no limit), and otherwise stays at its PC.

R386 to R388: SLEEP parks a thread, with a deadline where its operand is not 0, unless a wake is pending, which it takes;
WAKE releases sleeping threads of a group of the block with 1, and is pending for threads that do not sleep; a deadline
that has passed releases with 0.

Where the spec leaves a choice to the model, this states the choice of logs 5 and 30. -/
def Obligations.YieldWaitSleepAndWake : Prop :=
  (∀ (c : Ctl) (ld st cp tl : BitVec 4),
     let within (e : Iss) (k : OpClass) (n : BitVec 4) : Prop := n = 15#4 ∨ (e.g.ops.filter (fun o => decide (o.cls = k))).length ≤ n.toNat
     let ok (e : Iss) : Prop := within e .ld ld ∧ within e .st st ∧ within e .cp cp ∧ within e .tl tl
     Runs c (.yield c) (fun _ => True) (fun e t => Wrote e.s t e.r
       (if e.act = 0#32 then e.g else { e.g with passOver := some (nextSlot e.pc) }) noReg e.onward) ∧
     DoesIf c (.wait c ld st cp tl) ok (fun _ => noReg) ∧
     Runs c (.wait c ld st cp tl) (fun e => e.act ≠ 0#32 ∧ ¬ ok e) (fun e t => Wrote e.s t e.r
       { e.g with holds := e.g.holds ++ [⟨e.mask, e.pc, .counters ld.toNat st.toNat cp.toNat tl.toNat⟩] } noReg
       (fun u => (e.g.thread u).pc))) ∧
  (∀ (c : Ctl) (wk : PDst) (n : SleepN) (gr : WakeG) (m : WakeM) (r : GroupRef) (h : Group) (p : Option PReg) (d : Nat)
       (u0 : Tid) (s : State),
     let th (e : Iss) (u : Tid) : Thread := e.g.thread u
     let free (g : Group) (u : Tid) : Prop := (g.thread u).lbk = 0 ∧ (g.inHandler = true → (g.thread u).inTrap = true)
     let ticks (e : Iss) (u : Tid) : Nat := match n with
       | .v x => (Operand.v e u x).toNat
       | .s x => (Operand.s e x).toNat
       | .imm x => x.toNat
     let slept (e : Iss) : Group := e.g.modThreads e.act (fun u x =>
       { x with
         status := if x.wakePending then .running else .parked (.sleep (wkOf wk))
         deadline := if x.wakePending ∨ ticks e u = 0 then none else some (e.s.nowAt e.g.core + ticks e u)
         since := e.s.now
         wakePending := false })
     let number (e : Iss) : Nat := match gr with
       | .s x => (Operand.s e x).toNat
       | .grp => e.r.grp
     let mask (e : Iss) : Mask := match m with
       | .s x => (Operand.s (e.nth 1) x).setWidth 32
       | .amask => e.mask
     let woken (w : Mask) (g : Group) : Group := g.modThreads w (fun _ x => match x.status with
       | .exited => x
       | .parked (.sleep _) => { x with status := .running, deadline := none }
       | _ => { x with wakePending := true })
     let result (w : Mask) (g : Group) (x : RegRef) : Option Word64 := match x with
       | .p u q => match (g.thread u).status with
         | .parked (.sleep (some z)) => if w.getLsbD u.val ∧ z = q ∧ q.val ≠ 15 then some 1#64 else none
         | _ => none
       | _ => none
     Runs c (.sleep c wk n) (fun e => ∀ u, e.act.getLsbD u.val = true → free e.g u)
       (fun e t => Wrote e.s t e.r (slept e)
         (fun x => match x with
           | .p u q => if e.act.getLsbD u.val ∧ (th e u).wakePending = true ∧ wkOf wk = some q ∧ q.val ≠ 15 then some 1#64 else none
           | _ => none)
         (fun u => if e.act.getLsbD u.val then nextSlot e.pc else e.onward u)) ∧
     Runs c (.wake c gr m)
       (fun e => e.act ≠ 0#32 ∧ r = ⟨e.r.key, number e⟩ ∧ r ≠ e.r ∧ e.s.group r = some h ∧
         ∀ u, (mask e).getLsbD u.val = true → free h u)
       (fun e t => (∃ g1, Wrote { e.s with groups := tblPut e.s.groups r g1 } t e.r e.g noReg e.onward) ∧
         ∃ h', t.group r = some h' ∧ (∀ x, h'.reg x = (result (mask e) h x).getD (h.reg x)) ∧
           (∀ u, (h'.thread u).pc = (h.thread u).pc) ∧ h'.bare = (woken (mask e) h).bare) ∧
     Runs c (.wake c gr m) (fun e => e.act ≠ 0#32 ∧ number e = e.r.grp ∧ ∀ u, (mask e).getLsbD u.val = true → free e.g u)
       (fun e t => Wrote e.s t e.r (woken (mask e) e.g) (result (mask e) e.g) e.onward) ∧
     Runs c (.wake c gr m) (fun e => e.act ≠ 0#32 ∧ e.s.group ⟨e.r.key, number e⟩ = none ∧ tblGet e.s.saved e.r.key = none)
       (fun e t => Wrote e.s t e.r e.g noReg e.onward) ∧
     (s.group r = some h → (h.thread u0).status = .parked (.sleep p) → (h.thread u0).deadline = some d → d < s.nowAt h.core →
       free h u0 → ∃ t, exec (.sleepDeadline ⟨r, u0⟩) s = .next t ∧ Wrote s t r
         (h.modThread u0 (fun x => { x with status := .running, deadline := none }))
         (fun x => match x with
           | .p u q => if u = u0 ∧ p = some q ∧ q.val ≠ 15 then some 0#64 else none
           | _ => none)
         (fun u => (h.thread u).pc)))

/-- The state of a group that has entered its handler (R416, R417): the four registers, the handler's entry, the depths, the
bindings; registers and wait counters stand.

R414: without a handler TRAP is fatal: the block's latch takes the fault, a record is written, and the block is to be
terminated; so is any fault in a handler, as TRAP_NESTED with the inner code as its reason (R418).

R410, R414, R417: a fatal fault found after issue, taken at the group's next boundary: the handler runs, the block is dying,
TRAP_PC is the attributed instruction and TRAP_CAUSE has the fatal bit.

Where the spec leaves a choice to the model, this states the choice of log 29. -/
def Obligations.TrapEntry : Prop :=
  (∀ (c : Ctl) (code : BitVec 8),
     let entered (e : Iss) (byte : Byte) (t : State) : Prop := ∃ g', t.group e.r = some g' ∧
       (∀ x, g'.reg x = e.g.reg x) ∧ g'.ops = e.g.ops ∧ g'.hz = e.g.hz ∧ g'.inHandler = true ∧ g'.dying = false ∧
       g'.trapBase = e.g.trapBase ∧
       g'.trapCause = (0#48 ++ code ++ byte : BitVec 64) ∧ g'.trapPc = nextSlot e.pc ∧
       g'.trapMask = (0#32 ++ e.g.wholeSets e.act : BitVec 64) ∧ g'.trapAddr = 0#64 ∧
       ∀ u, (g'.thread u).tdep = (e.g.thread u).fdep ∧ (g'.thread u).lbk = 0 ∧ (g'.thread u).savedLbk = (e.g.thread u).lbk ∧
         (g'.thread u).held = (e.g.thread u).held ∧ (g'.thread u).status = (e.g.thread u).status ∧
         ((e.g.thread u).isRunning = true → (g'.thread u).pc = e.g.trapBase ∧ (g'.thread u).inTrap = true ∧
           ∃ x ∈ g'.saved, x.mask.getLsbD u.val = true ∧
             x.pc = (if e.mask.getLsbD u.val && !e.act.getLsbD u.val then nextSlot e.pc else (e.g.thread u).pc))
     let may (e : Iss) : Prop := e.act ≠ 0#32 ∧ e.g.inHandler = false ∧ e.g.trapBase ≠ 0#64 ∧ isSlot e.g.trapBase = true
     let bkpt (e : Iss) (x : Bool) : Prop := ∃ y, e.s.ctx e.r.key.ctx = some y ∧ y.bkpt = x
     Runs c (.trap c code) may (fun e t => entered e 0x1A#8 t ∧ SameOutside e.s t e.r) ∧
     Runs c (.bkpt c code) (fun e => may e ∧ bkpt e true) (fun e t => entered e 0x1B#8 t ∧ SameOutside e.s t e.r) ∧
     DoesIf c (.bkpt c code) (fun e => bkpt e false) (fun _ => noReg)) ∧
  (∀ (c : Ctl) (code : BitVec 8) (b : Block),
     let fatal (f : FaultCode) (reason : Byte) (e : Iss) (t : State) : Prop := ∃ b', t.block e.r.key = some b' ∧
       b'.status = .terminating ∧ b'.latch = some (e.r.grp, { code := f, reason := reason, mask := e.g.wholeSets e.act, pc := e.pc }) ∧
       t.mem = e.s.mem ∧ ∀ x, e.s.ctx e.r.key.ctx = some x → ∃ y, t.ctx e.r.key.ctx = some y ∧ ∃ r,
         y.faults.recs.getLast? = some r ∧ r.info = { code := f, reason := reason, mask := e.g.wholeSets e.act, pc := e.pc } ∧
         r.kind = .fatal ∧ r.time = e.s.now ∧ r.core = e.g.core ∧ r.grp = e.r.grp ∧ r.blk = e.r.key.blk
     let here (e : Iss) : Prop := e.act ≠ 0#32 ∧ e.s.block e.r.key = some b ∧ b.latch = none
     Runs c (.trap c code) (fun e => here e ∧ e.g.inHandler = false ∧ (e.g.trapBase = 0#64 ∨ isSlot e.g.trapBase = false))
       (fatal .softwareTrap code) ∧
     Runs c (.trap c code) (fun e => here e ∧ e.g.inHandler = true) (fatal .trapNested 0x1A#8)) ∧
  (∀ (s : State) (r : GroupRef) (g : Group) (b : Block) (i : FaultInfo),
     s.group r = some g → s.block r.key = some b → b.latch = none → g.pendingTrap = some i → i.code.kind = .fatal →
     g.midway = false → i.code ≠ .watchdog → i.code ≠ .trapNested → g.inHandler = false → g.hasHandler = true → g.alive ≠ 0#32 →
     ∃ t, exec (.trapEntry r) s = .next t ∧ (∃ b', t.block r.key = some b' ∧ b'.status = .dying s.now ∧ b'.latch.isSome = true) ∧
       t.mem = s.mem ∧ ∃ g', t.group r = some g' ∧ (∀ x, g'.reg x = g.reg x) ∧ g'.inHandler = true ∧ g'.dying = true ∧
         g'.pendingTrap = none ∧ g'.trapPc = i.pc ∧ g'.trapAddr = i.addr ∧ g'.trapMask = (g.wholeSets i.mask).setWidth 64 ∧
         g'.trapCause = (0#47 ++ 1#1 ++ i.reason ++ i.code.byte : BitVec 64) ∧
         ∀ u, (g.thread u).isRunning = true → (g'.thread u).pc = g.trapBase)

/-- R421, R422: TRET parks its threads; with the last of the handler the group goes back: the TRAP_MASK threads of the saved
frontier at TRAP_PC, the others where they were; outside a handler it is TRAP_NESTED, in a dying one the end. -/
def Obligations.ReturnFromTrap : Prop :=
  ∀ (c : Ctl),
    let on (e : Iss) (u : Tid) : Prop := e.act.getLsbD u.val = true
    let th (e : Iss) (u : Tid) : Thread := e.g.thread u
    let legal (e : Iss) : Prop := e.act ≠ 0#32 ∧ e.g.inHandler = true ∧ e.g.dying = false ∧
      (∀ u, on e u → (th e u).fdep = (th e u).tdep ∧ (th e u).inTrap = true ∧ ∀ h ∈ (th e u).held, h.handler = false)
    let arrived (e : Iss) (u : Tid) : Prop := on e u ∨ (th e u).isExited = true ∨ (th e u).status = .parked .tretJoin
    let was (e : Iss) (u : Tid) : Option FEntry := e.g.saved.find? (fun x => x.mask.getLsbD u.val)
    Runs c (.tret c) (fun e => legal e ∧ ∃ u, (th e u).inTrap = true ∧ ¬ arrived e u)
      (fun e t => Wrote e.s t e.r (e.g.modThreads e.act (fun _ x =>
        { x with status := .parked .tretJoin, deadline := none, since := e.s.now })) noReg
        (fun u => if e.act.getLsbD u.val then e.pc else e.onward u)) ∧
    Runs c (.tret c) (fun e => legal e ∧ isSlot e.g.trapPc = true ∧ ∀ u, (th e u).inTrap = true → arrived e u)
      (fun e t => SameOutside e.s t e.r ∧ ∃ g', t.group e.r = some g' ∧ (∀ x, g'.reg x = e.g.reg x) ∧ g'.inHandler = false ∧
        g'.saved = [] ∧ g'.holds = e.g.savedHolds ∧ g'.trapCause = e.g.trapCause ∧ g'.trapPc = e.g.trapPc ∧
        ∀ u, (g'.thread u).lbk = (th e u).savedLbk ∧ (g'.thread u).lix = (th e u).savedLix ∧
          ∀ x, was e u = some x → (th e u).isExited = false →
            (g'.thread u).status = .running ∧
            (g'.thread u).pc = (if e.g.trapMask.getLsbD u.val then e.g.trapPc else x.pc)) ∧
    Runs c (.tret c) (fun e => e.act ≠ 0#32 ∧ e.g.inHandler = false)
      (fun e t => t = e.s.raise e.r ⟨e.pc, e.mask⟩ { code := .trapNested, mask := e.act, pc := e.pc }) ∧
    Runs c (.tret c)
      (fun e => e.act ≠ 0#32 ∧ e.g.inHandler = true ∧ e.g.dying = true ∧ (∃ b, e.s.block e.r.key = some b) ∧
        ∀ u, on e u → (th e u).fdep = (th e u).tdep)
      (fun e t => ∃ b, t.block e.r.key = some b ∧ b.status = .terminating)

/-- R423, R420: what SYSRD reads of each system register, and the three that SYSWR writes.

Where the spec leaves a choice to the model, this states the choice of log 9. -/
def Obligations.SystemRegisters : Prop :=
  ∀ (c : Ctl) (d : SDst) (ix : SysReg) (a : SDst),
    let ctx (e : Iss) (f : Ctx → Word64) : Word64 := ((e.s.ctx e.r.key.ctx).map f).getD 0#64
    let die (e : Iss) : Die := e.s.die (dieOfCore e.g.core)
    let now (e : Iss) : Nat := e.s.nowAt e.g.core
    -- the start of the window in progress, or of the next one
    let window (e : Iss) : Nat := (now e + 1000) / 2000 * 2000
    let read (e : Iss) : Word64 := match ix with
      | .leaseDef => 2048#64
      | .leaseShort => 256#64
      | .leaseLong => 16384#64
      | .hzCore => BitVec.ofNat 64 e.g.hz.core
      | .hzClus => BitVec.ofNat 64 e.g.hz.clus
      | .hzDie => BitVec.ofNat 64 e.g.hz.die
      | .hzDev => BitVec.ofNat 64 e.g.hz.dev
      | .chbTol => 0#32 ++ e.g.chbTol
      | .chbPoolFree => BitVec.ofNat 64 ((poolFree e.g).1 * 16 * 65536 + (poolFree e.g).2 * 16)
      | .wswin => BitVec.ofNat 64 (window e)
      | .wslen => BitVec.ofNat 64 (window e / 2000 % 16 * 65536 + 1000)
      | .trapBase => e.g.trapBase
      | .trapCause => e.g.trapCause
      | .trapPc => e.g.trapPc
      | .trapMask => e.g.trapMask
      | .trapAddr => e.g.trapAddr
      | .recDepart => ctx e (fun x => 0#32 ++ x.recDepart)
      | .cntLocal => (die e).cntLocal
      | .cntRemoteOut => (die e).cntRemoteOut
      | .cntRemoteIn => (die e).cntRemoteIn
      | .cntCxl => (die e).cntCxl
      | .cmapBase => ctx e Ctx.cmapBase
      | .wdogTicks => ctx e Ctx.wdog
    let x (e : Iss) : Word64 := match a with
      | .s n => Operand.s e n
      | .zero => 0#64
    Does c (.sysrd c d ix) (fun e => e.result .b64 (sdst d) (fun _ => read e)) ∧
    Runs c (.syswr c ix a) (fun _ => True) (fun e t => Wrote e.s t e.r
      (if e.act = 0#32 then e.g
       else match ix with
         | .chbTol => { e.g with chbTol := (x e).extractLsb' 0 32 }
         | .trapBase => { e.g with trapBase := x e }
         | .trapPc => if e.g.inHandler then { e.g with trapPc := x e } else e.g
         | _ => e.g) noReg e.onward)

/-- R93: the three lease lengths, as SYSRD reads them and as the hints select them; no word writes them. -/
def Obligations.LeaseLengths : Prop :=
  ∀ (c : Ctl) (sd : SDst) (a : SDst) (w : InstrWord),
    let reads (ix : SysReg) (index : BitVec 12) (n : Nat) : Prop :=
      ix.code = index ∧ DoesIf c (.sysrd c sd ix) (fun e => e.act ≠ 0#32) (fun e => e.result .b64 (sdst sd) (fun _ => BitVec.ofNat 64 n)) ∧
      decode w ≠ .ok (.syswr c ix a)
    reads .leaseDef 0x001#12 2048 ∧ reads .leaseShort 0x002#12 256 ∧ reads .leaseLong 0x003#12 16384 ∧
    leaseOf .default = some 2048 ∧ leaseOf .keep = some 2048 ∧ leaseOf .short = some 256 ∧ leaseOf .long = some 16384 ∧
    (Hint.default.code, Hint.keep.code, Hint.short.code, Hint.long.code) = (0#3, 2#3, 3#3, 4#3)

/-- R111, R112, R114: LDG begins a load whose destinations it will write; the bytes come from the coalescing buffer, from a
usable copy of the L1, else by a request for the line.

R117 to R119: LDW begins a load of its die's weight store; the core's copy of a line serves it, else the store is asked; an
address outside the context's range faults.

R115, R116: PREF writes no register, and asks for its line where no request for it is under way; LINV and LINV.all end the use
of the core's copies, LINV that of its lines.

Where the spec leaves a choice to the model, this states the choice of logs 16 and 18. -/
def Obligations.LoadsBegin : Prop :=
  (∀ (c : Ctl) (h : Hint) (ty : Ty) (d : Dst) (m : Addr) (x : Tid → Xlat) (s1 : State) (u : Tid),
     let vec : Bool := d.isVec || m.base.isVec || m.idx.isVec
     let n := ty.width / 8
     let addr (e : Iss) (t : Tid) : Word64 := Operand.addr e 64 t m
     let ts (e : Iss) : List Tid := accessTids vec e.act
     let line (e : Iss) (t : Tid) : LineNo := (x t).leaf.line (addr e t)
     let reach (e : Iss) : Prop := e.Reaches vec n Need.read (addr e) x s1
     let op (e : Iss) : Op :=
       { id := e.s.nextId, cls := .ld, kind := .global, pc := e.pc, act := e.act, parts := (ts e).length,
         dests := (ts e).flatMap (fun t => Dst.regs ty d t), clobbered := [],
         ext := (ts e).any (fun t => isHost (line e t)), cols := [] }
     let plain (e : Iss) : Prop := ∀ y, tblGet (e.s.core e.g.core).copies (line e u) = some y →
       y.push = none ∧ ∀ z, y.older = some z → z.push = none
     let one (e : Iss) : Prop := reach e ∧ ts e = [u] ∧ plain e
     let own (e : Iss) : LineBits × LineBits := if (x u).leaf.mtype = 1 then (0#1024, 0#1024) else e.s.buffered e.g.core (line e u)
     let part (e : Iss) : LoadPart :=
       { g := e.r, op := e.s.nextId, who := if vec then some u else none, va := addr e u, off := (addr e u).toNat % 128, n := n,
         dst := d, ty := ty, own := (own e).1, ownMask := (own e).2 }
     let here (e : Iss) (data : LineBits) : Msg :=
       { ch := ⟨.resp, 200000 + e.g.core, 200000 + e.g.core⟩
         body := .loadResp e.g.core (line e u) data none 0 noObs false (.direct e.g.core [part e]) }
     let req (e : Iss) (len : Option Nat) (bypass : Bool) (slot : Option BlockSlot) (tgt : ReadFor) : ReadReq :=
       { line := line e u, len := len, keep := h == .keep && !bypass, bypass := bypass, core := e.g.core, ctx := e.r.key.ctx,
         slot := slot, tgt := tgt }
     let copy (e : Iss) : Option (LineBits × Nat) :=
       (tblGet (e.s.core e.g.core).copies (line e u)).bind (fun y => y.inUse (e.s.nowAt e.g.core))
     Runs c (.ldg c h ty d m) reach (fun e t => e.Began t [op e]) ∧
     Runs c (.ldg c h ty d m) (fun e => one e ∧ (part e).covered = true) (fun e t => Sent e.s t [here e 0#1024]) ∧
     Runs c (.ldg c h ty d m) (fun e => one e ∧ (part e).covered = false ∧ (x u).leaf.mtype ≠ 1 ∧ h ≠ .home)
       (fun e t =>
         (∀ y, copy e = some y → Sent e.s t [here e y.1]) ∧
         (copy e = none → tblGet (e.s.core e.g.core).reqs (line e u) = none → e.s.storeOut e.g.core (line e u) = false →
           Sent e.s t [{ ch := chanOut e.g.core (line e u)
                         body := .read (req e (leaseOf h) false (if h = .stream then none else some ⟨e.r.key.blk, e.g.slot⟩)
                           (.l1 e.g.core (h != .stream))) (goesHome e.g.core (line e u)) }])) ∧
     Runs c (.ldg c h ty d m) (fun e => one e ∧ (part e).covered = false ∧ (x u).leaf.mtype ≠ 1 ∧ h = .home)
       (fun e t => Sent e.s t [{ ch := chanOut e.g.core (line e u)
                                 body := .read (req e none true none (.direct e.g.core [part e])) (goesHome e.g.core (line e u)) }]) ∧
     Runs c (.ldg c h ty d m) (fun e => one e ∧ (x u).leaf.mtype = 1 ∧ isHost (line e u) = false)
       (fun e t => Sent e.s t [{ ch := chanOut e.g.core (line e u)
                                 body := .read (req e none true none (.direct e.g.core [part e])) (goesHome e.g.core (line e u))
                                 own := [⟨e.r, u⟩], seq := e.s.nextId }]) ∧
     Runs c (.ldg c h ty d m) (fun e => one e ∧ (x u).leaf.mtype = 1 ∧ isHost (line e u) = true)
       (fun e t => Sent e.s t [{ ch := ⟨.req, portCore e.g.core, portHome (line e u)⟩
                                 body := .host (req e none true none (.direct e.g.core [part e]))
                                 own := [⟨e.r, u⟩], seq := e.s.nextId }])) ∧
  (∀ (c : Ctl) (h : Hint) (ty : Ty) (d : Dst) (m : Addr) (u : Tid) (data : LineBits),
     let vec : Bool := d.isVec || m.base.isVec || m.idx.isVec
     let n := ty.width / 8
     let addr (e : Iss) (t : Tid) : Word64 := Operand.addr e 64 t m
     let ts (e : Iss) : List Tid := accessTids vec e.act
     let bad (e : Iss) : Mask := maskOf (fun t => decide (t ∈ ts e) && decide ((addr e t).toNat % n ≠ 0))
     let out (e : Iss) : Mask := maskOf (fun t => decide (t ∈ ts e) && !e.s.weightOk e.r.key.ctx (addr e t) n)
     let ok (e : Iss) : Prop := e.act ≠ 0#32 ∧ bad e = 0#32 ∧ out e = 0#32
     let line (e : Iss) : Nat := (addr e u).toNat / 128
     let op (e : Iss) : Op :=
       { id := e.s.nextId, cls := .ld, kind := .global, pc := e.pc, act := e.act, parts := (ts e).length,
         dests := (ts e).flatMap (fun t => Dst.regs ty d t), clobbered := [], ext := false, cols := [] }
     let part (e : Iss) : LoadPart :=
       { g := e.r, op := e.s.nextId, who := if vec then some u else none, va := addr e u, off := (addr e u).toNat % 128, n := n,
         dst := d, ty := ty, own := 0#1024, ownMask := 0#1024 }
     let raised (e : Iss) (code : FaultCode) (reason : Byte) (k : Mask) (t : State) : Prop :=
       t = e.s.raise e.r ⟨e.pc, e.mask⟩
         { code := code, reason := reason, mask := if vec then k else e.act, addr := addr e ((maskTids k).headD 0), pc := e.pc }
     Runs c (.ldw c h ty d m) ok (fun e t => e.Began t [op e]) ∧
     Runs c (.ldw c h ty d m) (fun e => ok e ∧ ts e = [u] ∧ tblGet (e.s.core e.g.core).weights (line e) = some data)
       (fun e t => Sent e.s t
         [{ ch := ⟨.resp, 200000 + e.g.core, 200000 + e.g.core⟩
            body := .loadResp e.g.core (line e) data none 0 noObs false (.direct e.g.core [part e]) }]) ∧
     Runs c (.ldw c h ty d m) (fun e => ok e ∧ ts e = [u] ∧ tblGet (e.s.core e.g.core).weights (line e) = none)
       (fun e t => Sent e.s t
         [{ ch := ⟨.resp, 5000 + (addr e u).toNat / 128 * 128 / 2 ^ 30, portCore e.g.core⟩
            body := .weightResp e.g.core (line e * 128) (h != .stream && h != .home) [part e] }]) ∧
     Runs c (.ldw c h ty d m) (fun e => e.act ≠ 0#32 ∧ bad e ≠ 0#32) (fun e t => raised e .misaligned 0#8 (bad e) t) ∧
     Runs c (.ldw c h ty d m) (fun e => e.act ≠ 0#32 ∧ bad e = 0#32 ∧ out e ≠ 0#32)
       (fun e t => raised e .pagePermRead 0x0B#8 (out e) t)) ∧
  (∀ (c : Ctl) (h : Hint) (m : Addr) (lf : Leaf) (s1 : State) (u : Tid),
     let vec : Bool := m.base.isVec || m.idx.isVec
     let addr (e : Iss) (t : Tid) : Word64 := Operand.addr e 64 t m
     let line (e : Iss) : LineNo := lf.line (addr e u)
     let copies (s : State) (e : Iss) (l : LineNo) : Option L1Copy := tblGet (s.core e.g.core).copies l
     let req (e : Iss) (slot : Option BlockSlot) (tgt : ReadFor) : Msg :=
       { ch := chanOut e.g.core (line e)
         body := .read { line := line e, len := leaseOf h, keep := h == .keep, bypass := false, core := e.g.core, ctx := e.r.key.ctx,
                         slot := slot, tgt := tgt } (goesHome e.g.core (line e)) }
     let plain (e : Iss) (r : XlatResult) : Prop :=
       accessTids vec e.act = [u] ∧ e.s.xlate e.g.core e.r.key.ctx Need.read (addr e u) = (r, s1)
     Runs c (.pref c h m) (fun _ => True) (fun e t => e.Began t []) ∧
     Runs c (.pref c h m) (fun e => plain e (.ok ⟨lf, 0⟩) ∧ lf.mtype = 0 ∧ (h = .stream ∨ h = .home))
       (fun e t => Sent e.s t [req e none .bring]) ∧
     Runs c (.pref c h m)
       (fun e => plain e (.ok ⟨lf, 0⟩) ∧ lf.mtype = 0 ∧ h ≠ .stream ∧ h ≠ .home ∧
         tblGet (e.s.core e.g.core).reqs (line e) = none ∧ e.s.storeOut e.g.core (line e) = false)
       (fun e t => Sent e.s t [req e (some ⟨e.r.key.blk, e.g.slot⟩) (.l1 e.g.core true)]) ∧
     Runs c (.pref c h m)
       (fun e => ∃ r, plain e r ∧ ∀ y, r = .ok y → y.leaf.mtype ≠ 0 ∨ y.colour ≠ 0)
       (fun e t => Sent e.s t []) ∧
     Runs c (.linv c h m) (fun _ => True) (fun e t => e.Began t []) ∧
     Runs c (.linv c h m)
       (fun e => accessTids vec e.act = [u] ∧ e.s.translate e.g.core e.r.key.ctx (addr e u) = (.leaf lf, s1))
       (fun e t => copies t e (line e) = none ∧ ∀ l, l ≠ line e → copies t e l = copies e.s e l) ∧
     Runs c (.linvAll c h) (fun _ => True)
       (fun e t => e.Began t [] ∧ (e.act ≠ 0#32 → (t.core e.g.core).copies = []) ∧
         ∀ k, k ≠ e.g.core ∨ e.act = 0#32 → (t.core k).copies = (e.s.core k).copies))

/-- R103, R113, R114: STG begins a store; its bytes are merged into the coalescing buffer, thread by thread upward, or, on
a home-only line or with hint 101, go to the home at once.

Where the spec leaves a choice to the model, this states the choice of log 37. -/
def Obligations.StoresBegin : Prop :=
  ∀ (c : Ctl) (h : Hint) (ty : Ty) (m : Addr) (val : Src) (x : Tid → Xlat) (s1 : State) (u : Tid),
    let vec : Bool := val.isVec || m.base.isVec || m.idx.isVec
    let n := ty.width / 8
    let addr (e : Iss) (t : Tid) : Word64 := Operand.addr e 64 t m
    let off (e : Iss) (t : Tid) : Nat := (addr e t).toNat % 128
    let ts (e : Iss) : List Tid := accessTids vec e.act
    let line (e : Iss) (t : Tid) : LineNo := (x t).leaf.line (addr e t)
    let bytes (e : Iss) (t : Tid) : LineBits := placeBytes (off e t) (storeValue e ty t val)
    let room (e : Iss) : Prop := (e.s.core e.g.core).buffer.length + (ts e).length ≤ 32
    let reach (e : Iss) : Prop := e.Reaches vec n Need.write (addr e) x s1 ∧ e.s.Numbered
    Runs c (.stg c h ty m val) (fun e => reach e ∧ room e ∧ h ≠ .home ∧ h ≠ .stream ∧ ∀ t ∈ ts e, (x t).leaf.mtype ≠ 1)
      (fun e t =>
        (∃ o : Op, o.id = e.s.nextId ∧ o.cls = .st ∧ o.kind = .stg ∧ o.pc = e.pc ∧ o.act = e.act ∧ 0 < o.parts ∧ o.dests = [] ∧
          e.Began t [o]) ∧
        Sent e.s t [] ∧
        ∀ l, let was := e.s.buffered e.g.core l
          let mask := ((ts e).filter (fun v => decide (line e v = l))).foldl (fun w v => w ||| byteMask (off e v) n) was.2
          let data := ((ts e).filter (fun v => decide (line e v = l))).foldl
            (fun w v => mergeLine w (bytes e v) (byteMask (off e v) n)) was.1
          (t.buffered e.g.core l).2 = mask ∧ (t.buffered e.g.core l).1 &&& mask = data &&& mask) ∧
    Runs c (.stg c h ty m val)
      (fun e => reach e ∧ ts e = [u] ∧ (h = .home ∨ (x u).leaf.mtype = 1) ∧ e.s.bufEntry e.g.core (line e u) = none ∧
        ∀ y, tblGet (e.s.core e.g.core).copies (line e u) = some y → y.push = none ∧ ∀ z, y.older = some z → z.push = none)
      (fun e t =>
        (∃ o : Op, o.id = e.s.nextId ∧ o.cls = .st ∧ o.kind = .stg ∧ o.pc = e.pc ∧ o.act = e.act ∧ o.parts = 1 ∧ o.dests = [] ∧
          e.Began t [o]) ∧
        let q : StoreReq :=
          { line := line e u, data := bytes e u, mask := byteMask (off e u) n, txn := e.s.nextId + 1, core := e.g.core,
            ctx := e.r.key.ctx, keep := h == .keep && (x u).leaf.mtype != 1, slot := none, poison := false,
            l0 := (x u).leaf.mtype == 1, colour := (x u).colour, via := none }
        Sent e.s t
          [{ ch := chanOut e.g.core (line e u)
             body := if isHost (line e u) = true ∧ (x u).leaf.mtype = 1 then .hostStore q else .store q (goesHome e.g.core (line e u))
             own := if (x u).leaf.mtype = 1 then [⟨e.r, u⟩] else [], seq := e.s.nextId + 1 }]) ∧
    Runs c (.stg c h ty m val)
      (fun e => reach e ∧ ts e = [u] ∧ room e ∧ h = .stream ∧ (x u).leaf.mtype ≠ 1 ∧ e.s.bufEntry e.g.core (line e u) = none ∧
        ∀ y, tblGet (e.s.core e.g.core).copies (line e u) = some y → y.push = none ∧ ∀ z, y.older = some z → z.push = none)
      (fun e t =>
        tblGet (t.core e.g.core).copies (line e u) = none ∧ t.bufEntry e.g.core (line e u) = none ∧
        Sent e.s t
          [{ ch := chanOut e.g.core (line e u)
             body := .store
               { line := line e u, data := bytes e u, mask := byteMask (off e u) n, txn := e.s.nextId + 1, core := e.g.core,
                 ctx := e.r.key.ctx, keep := false, slot := some ⟨e.r.key.blk, e.g.slot⟩, poison := false, l0 := false,
                 colour := (x u).colour, via := none } (goesHome e.g.core (line e u))
             seq := e.s.nextId + 1 }])

/-- R81, R110, R347: the faults of an access, in their order: a misaligned address, then the translation's; and a colour that
a thread does not hold, which is below one that it holds, or is one too many.

Where the spec leaves a choice to the model, this states the choice of log 29. -/
def Obligations.AccessFaults : Prop :=
  ∀ (c : Ctl) (h : Hint) (ty : Ty) (d : Dst) (m : Addr) (val : Src) (x : Tid → Xlat) (s1 : State),
    let n := ty.width / 8
    let addr (e : Iss) (t : Tid) : Word64 := Operand.addr e 64 t m
    let lowest (k : Mask) : Tid := (maskTids k).headD 0
    let raised (e : Iss) (s : State) (code : FaultCode) (reason : Byte) (k : Mask) (vec : Bool) (t : State) : Prop :=
      t = s.raise e.r ⟨e.pc, e.mask⟩
        { code := code, reason := reason, mask := if vec then k else e.act, addr := addr e (lowest k), pc := e.pc }
    let faults (vec : Bool) (need : Need) (i : Instr) : Prop :=
      let ts (e : Iss) : List Tid := accessTids vec e.act
      let bad (e : Iss) : Mask := maskOf (fun t => decide (t ∈ ts e) && decide ((addr e t).toNat % n ≠ 0))
      let res (e : Iss) := e.s.xlateAll e.g.core e.r.key.ctx need (addr e) false (ts e)
      let needs (e : Iss) (t : Tid) : Bool :=
        decide (t ∈ ts e) && decide ((x t).colour ≠ 0) && !(e.g.thread t).holds (x t).colour
      let low (e : Iss) : Mask := maskOf (fun t => needs e t && decide ((x t).colour < (e.g.thread t).topColour))
      -- what the whole of a bound set is about to be given
      let more (e : Iss) (t : Tid) : List Nat :=
        ((((ts e).filter (fun v => needs e v && (e.g.boundSet t).getLsbD v.val)).map (fun v => (x v).colour)).dedup).filter
          (fun k => !(e.g.thread t).holds k)
      let full (e : Iss) : Mask := maskOf (fun t => needs e t && decide (8 < (e.g.thread t).held.length + (more e t).length))
      let colour (e : Iss) (code : FaultCode) (k : Mask) (t : State) : Prop :=
        t = s1.raise e.r ⟨e.pc, e.mask⟩ { code := code, mask := k, addr := addr e (lowest k), pc := e.pc }
      let mapped (e : Iss) : Prop := e.act ≠ 0#32 ∧ bad e = 0#32 ∧ res e = ((ts e).map (fun t => (t, XlatResult.ok (x t))), s1)
      Runs c i (fun e => e.act ≠ 0#32 ∧ bad e ≠ 0#32) (fun e t => raised e e.s .misaligned 0#8 (bad e) vec t) ∧
      (∀ code k reason, Runs c i (fun e => e.act ≠ 0#32 ∧ bad e = 0#32 ∧ xlatFault need (res e).1 = some (code, k, reason))
        (fun e t => raised e (res e).2 code reason k vec t)) ∧
      Runs c i (fun e => mapped e ∧ low e ≠ 0#32) (fun e t => colour e .colourOrder (low e) t) ∧
      Runs c i (fun e => mapped e ∧ low e = 0#32 ∧ full e ≠ 0#32) (fun e t => colour e .colourOverflow (full e) t)
    faults (d.isVec || m.base.isVec || m.idx.isVec) Need.read (.ldg c h ty d m) ∧
    faults (val.isVec || m.base.isVec || m.idx.isVec) Need.write (.stg c h ty m val)

/-- R92, R94, R108, R114, R143: a read at its home is answered with the line, its WL and the lease it asked for (256 ticks at the
host agent), which LX covers; the read of an absent line waits in a miss entry, and with 64 in use at the slice's input.

R91, R123, R143: a fill takes a free way, with LX at the slice's EVX, and its requests are served in the order of their
arrival; it waits while every way holds a line whose WL has not passed.

Where the spec leaves a choice to the model, this states the choice of logs 13 and 40. -/
def Obligations.HomesServeReads : Prop :=
  (∀ (s : State) (m : Nat) (ch : Chan) (r : ReadReq) (y : SliceLine),
     let l := r.line
     let loads : Bool := match r.tgt with
       | .l1 _ _ | .direct _ _ => true
       | _ => false
     let x : Option Nat := if isHost l then (if loads then some (s.now + 256) else none) else r.len.map (fun n => s.now + n)
     let answer : List Msg := match r.tgt with
       | .bring => []
       | .mcast k => ((tblGet s.mcast k).map (fun e => e.members.map (fun w =>
           ({ ch := ⟨.resp, e.req.port, portCore w.core⟩, body := .mcastLand w y.data y.poison } : Msg)))).getD []
       | .renew die => [{ ch := ⟨.resp, portHome l, portGateway die (homeDie l)⟩
                          body := .renewal die l y.data (x.getD 0) y.wl y.poison }]
       | .l1 core _ | .direct core _ | .copy core _ _ _ =>
         [{ ch := ⟨.resp, portHome l, portCore core⟩, body := .loadResp core l y.data x y.wl (deviceObs y.wl) y.poison r.tgt }]
     Due s m ch (.read r true) →
     (tblGet s.misses l = none → tblGet s.lines l = some y → (r.slot = none ∨ s.regionAt (sliceUnit l) r.ctx l = none) →
       Happens (.homeRead m) s (fun t => Swapped s t m answer ∧ SameGroups s t ∧ SameBytes s t ∧
         (∃ z, tblGet t.lines l = some z ∧ z.data = y.data ∧ z.wl = y.wl ∧ z.lx = max y.lx (x.getD 0) ∧ z.dirty = y.dirty) ∧
         ∀ k, k ≠ l → tblGet t.lines k = tblGet s.lines k)) ∧
     (tblGet s.misses l = none → tblGet s.lines l = none → isHost l = false →
       Happens (.homeRead m) s (fun t =>
         if s.missCount l < 64 then
           Swapped s t m [] ∧ SameGroups s t ∧ SameBytes s t ∧ t.lines = s.lines ∧ tblGet t.misses l = some ⟨[.read r], none⟩
         else t = s)) ∧
     (∀ q, tblGet s.misses l = some q →
       Happens (.homeRead m) s (fun t => Swapped s t m [] ∧ SameGroups s t ∧ SameBytes s t ∧ t.lines = s.lines ∧
         tblGet t.misses l = some { q with held := q.held ++ [.read r] }))) ∧
  (∀ (s : State) (l : Nat) (q : Miss) (r : ReadReq) (core : Nat) (alloc : Bool),
     let data : LineBits := leBits 1024 (s.mem.readN (128 * l) 128)
     let bad : Bool := s.poison.contains (.byte (128 * l))
     let served (f : Bool) (t : State) : Prop := tblGet t.misses l = none ∧ SameGroups s t ∧ SameBytes s t ∧
       Sent s t [{ ch := ⟨.resp, portHome l, portCore core⟩
                   body := .loadResp core l data (r.len.map (fun n => s.now + n)) 0 (deviceObs 0) (f || bad) (.l1 core alloc) }] ∧
       ∃ z, tblGet t.lines l = some z ∧ z.data = data ∧ z.wl = 0 ∧ z.dirty = false ∧
         z.lx = max (s.evx l) ((r.len.map (fun n => s.now + n)).getD 0)
     let room : Prop := (s.setOf l).length < 16
     let full : Prop := ¬ room ∧
       ∀ x ∈ s.setOf l, (x.2.keep = false ∨ ∀ y ∈ s.setOf l, y.2.keep = true) → s.now < x.2.wl
     isHost l = false → tblGet s.lines l = none → tblGet s.misses l = some q →
     (∀ f : Ecc, room → q = ⟨[.read r], none⟩ → r.line = l → r.slot = none → r.tgt = .l1 core alloc →
       Happens (.fillArrival l f) s (served (f == .uncorrectable))) ∧
     (∀ f : Ecc, full → q.fill = none → Happens (.fillArrival l f) s (fun t =>
       tblGet t.misses l = some { q with fill := some (f == .uncorrectable) } ∧ t.lines = s.lines ∧ Sent s t [] ∧ SameGroups s t)) ∧
     (∀ f, room → q = ⟨[.read r], some f⟩ → r.line = l → r.slot = none → r.tgt = .l1 core alloc →
       Happens (.wlPasses l) s (served f)) ∧
     (∀ v x, ¬ room → s.victim l = some (v, x) → q = ⟨[], none⟩ →
       Happens (.fillArrival l .none) s (fun t => tblGet t.lines v = none ∧ SameGroups s t ∧ SameBytes s t ∧
         t.evx l = max (s.evx l) x.lx ∧ ∃ z, tblGet t.lines l = some z ∧ z.lx = max (s.evx l) x.lx)) ∧
     (isHbm l = true → q.fill = none →
       let unit := unitKey 7 (homeDie l * 2 + (dramPlace l).stack)
       Happens (.fillArrival l .corrected) s (fun t => tblGetD t.fw.corrected unit 0 = tblGetD s.fw.corrected unit 0 + 1)))

/-- R95, R96, R100, R105, R106: a store at its home writes the bytes of its mask and no other byte; its W is past every lease, and
past every earlier W of the line; the time goes back, to the core or to the gateway cache that the store came by. -/
def Obligations.HomesApplyStores : Prop :=
  ∀ (s : State) (m : Nat) (ch : Chan) (q : StoreReq) (y : SliceLine),
    let l := q.line
    let w := max (max s.now (if q.l0 then 0 else y.lx) + 3) y.wl
    let time : Msg := match q.via with
      | none => { ch := ⟨.time, portHome l, portCore q.core⟩, body := .storeDone q.txn ⟨w, w, w, w⟩ }
      | some (die, fwd, wdie) =>
        { ch := ⟨.time, portHome l, portGateway die (homeDie l)⟩, body := .forwardReturn die l fwd w (some (q.txn, q.core, wdie)) }
    Due s m ch (.store q true) →
    (tblGet s.misses l = none → tblGet s.lines l = some y → (q.slot = none ∨ s.regionAt (sliceUnit l) q.ctx l = none) →
      Happens (.homeStore m) s (fun t => Swapped s t m [time] ∧ SameGroups s t ∧
        (∀ a, t.homeByte a = if a / 128 = l then lineGet (mergeLine y.data q.data q.mask) (a % 128) else s.homeByte a) ∧
        (∃ z, tblGet t.lines l = some z ∧ z.wl = w ∧ z.lx = y.lx ∧ z.dirty = true) ∧
        ∀ k, k ≠ l → tblGet t.lines k = tblGet s.lines k)) ∧
    (tblGet s.misses l = none → tblGet s.lines l = none → isHost l = false →
      Happens (.homeStore m) s (fun t =>
        if s.missCount l < 64 then
          Swapped s t m [] ∧ SameGroups s t ∧ SameBytes s t ∧ t.lines = s.lines ∧ tblGet t.misses l = some ⟨[.store q], none⟩
        else t = s))

/-- R98, R99: a gateway cache answers from a copy whose lease covers the sub-lease asked for; else it sends a renewal; a read at
the home passes.

R99, R100, R101: fresh data serves the waiting read with a sub-lease within the new lease; data that a write of the die has
passed serves none, and is asked for again.

R98, R100, R101, R124, R458: a store merges into the gateway's line and is forwarded under a number, with a die-scope time past
the sub-leases; a write of another unit ends the copy; a time that returns ends its forward, and resolves what was observed of it.

Where the spec leaves a choice to the model, this states the choice of log 13. -/
def Obligations.Gateways : Prop :=
  (∀ (s : State) (m : Nat) (ch : Chan) (r : ReadReq) (own : List ThreadRef) (seq : Nat) (x : GwLine) (core : Nat) (alloc : Bool),
     let l := r.line
     let die := dieOfCore r.core
     let home : Chan := ⟨.req, portGateway die (homeDie l), portHome l⟩
     let out (t : State) : Prop := (t.die die).cntRemoteOut = (s.die die).cntRemoteOut + 1#64 ∧ SameGroups s t ∧ SameBytes s t
     let fits : Prop := ∀ n, r.len = some n → s.now + n ≤ x.xg
     let lease : Option Nat := r.len.map (fun n => min (s.now + n) x.xg)
     s.deliverable m = some ⟨ch, .read r false, own, seq⟩ →
     (r.bypass = true →
       Happens (.gatewayRead m) s (fun t => out t ∧ Swapped s t m [{ ch := home, body := .read r true, own := own, seq := seq }] ∧
         (t.gw die l).copy = false)) ∧
     (r.bypass = false → tblGet s.gateways (die, l) = some x → x.usable s.now = true → fits → s.gwBypass r.ctx die l = false →
       r.tgt = .l1 core alloc → Happens (.gatewayRead m) s (fun t => out t ∧
         tblGet t.gateways (die, l) = some { x with lxg := max x.lxg (lease.getD 0), used := s.now } ∧
         Swapped s t m [{ ch := ⟨.resp, portGateway die (homeDie l), portCore core⟩
                          body := .loadResp core l x.data lease x.wdev (x.obs die l) false r.tgt }])) ∧
     (r.bypass = false → tblGet s.gateways (die, l) = some x → (x.usable s.now = false ∨ ¬ fits ∨ s.gwBypass r.ctx die l = true) →
       x.waiting = [] → x.renewing = false → x.fwds = [] → s.renewals die l < 64 →
       Happens (.gatewayRead m) s (fun t => out t ∧
         tblGet t.gateways (die, l) = some { x with waiting := [r], renewing := true, stale := false } ∧
         Swapped s t m [{ ch := home, body := .read { r with len := some (r.len.getD 2048), tgt := .renew die } true }])) ∧
     (r.bypass = false → tblGet s.gateways (die, l) = none → (s.gateways.filter (fun x => gwSameSet die l x.1)).length < 16 →
       s.renewals die l < 64 → Happens (.gatewayRead m) s (fun t => out t ∧
         tblGet t.gateways (die, l) = some { GwLine.empty with lxg := s.gwEvx die l, waiting := [r], renewing := true } ∧
         Swapped s t m [{ ch := home, body := .read { r with len := some (r.len.getD 2048), tgt := .renew die } true }]))) ∧
  (∀ (s : State) (m : Nat) (ch : Chan) (die l xg wl : Nat) (data : LineBits) (bad : Bool) (x : GwLine) (r : ReadReq) (core : Nat)
       (alloc : Bool),
     let lease : Option Nat := r.len.map (fun n => min (s.now + n) xg)
     let dev := max x.wdev wl
     Due s m ch (.renewal die l data xg wl bad) → tblGet s.gateways (die, l) = some x → x.fwds = [] → x.waiting = [r] → r.line = l →
     (x.stale = false → r.tgt = .l1 core alloc →
       Happens (.gatewayRenewal m) s (fun t => SameGroups s t ∧ SameBytes s t ∧
         tblGet t.gateways (die, l) = some { x with
           data := data, copy := !bad, xg := xg, wdev := dev, renewing := false, waiting := [], used := s.now,
           lxg := max x.lxg (lease.getD 0) } ∧
         Swapped s t m [{ ch := ⟨.resp, portGateway die (homeDie l), portCore core⟩
                          body := .loadResp core l data lease dev (deviceObs dev) bad r.tgt }])) ∧
     (x.stale = true →
       Happens (.gatewayRenewal m) s (fun t => SameGroups s t ∧ SameBytes s t ∧
         tblGet t.gateways (die, l) = some { x with renewing := true, stale := false } ∧
         Swapped s t m [{ ch := ⟨.req, portGateway die (homeDie l), portHome l⟩
                          body := .read { r with len := some (r.len.getD 2048), tgt := .renew die } true }]))) ∧
  (∀ (s : State) (m : Nat) (ch : Chan) (q : StoreReq) (u : Update) (own : List ThreadRef) (seq : Nat) (x : GwLine)
       (die l fwd w txn core wdie : Nat),
     let past := max s.now x.lxg + 3
     let toHome (die l : Nat) : Chan := ⟨.req, portGateway die (homeDie l), portHome l⟩
     let counted (die : Nat) (t : State) : Prop :=
       (t.die die).cntRemoteOut = (s.die die).cntRemoteOut + 1#64 ∧ SameGroups s t ∧ SameBytes s t
     (s.deliverable m = some ⟨ch, .store q false, own, seq⟩ → die = dieOfCore q.core → l = q.line →
       (q.l0 = true → Happens (.gatewayStore m) s (fun t => counted die t ∧ t.gateways = s.gateways ∧
         Swapped s t m [{ ch := toHome die l, body := .store q true, own := own, seq := seq }])) ∧
       (q.l0 = false → tblGet s.gateways (die, l) = some x → Happens (.gatewayStore m) s (fun t => counted die t ∧
         tblGet t.gateways (die, l) = some { x with
           data := mergeLine x.data q.data q.mask, fwds := x.fwds ++ [⟨s.nextId, past, q.mask⟩], used := s.now } ∧
         Swapped s t m [{ ch := ⟨.time, portGateway die (homeDie l), portCore q.core⟩, body := .storeDie q.txn past },
           { ch := toHome die l, body := .store { q with via := some (die, s.nextId, past) } true, own := own, seq := seq }]))) ∧
     (s.deliverable m = some ⟨ch, .pass u, own, seq⟩ → die = dieOfCore u.core → l = u.addr / 128 →
       (u.l0 = true → Happens (.gatewayWritePass m) s (fun t => counted die t ∧ t.gateways = s.gateways ∧
         Swapped s t m [{ ch := toHome die l, body := .update u none, own := own, seq := seq }])) ∧
       (u.l0 = false → tblGet s.gateways (die, l) = some x → Happens (.gatewayWritePass m) s (fun t => counted die t ∧
         tblGet t.gateways (die, l) = some { x with
           copy := false, stale := x.stale || x.renewing, fwds := x.fwds ++ [⟨s.nextId, 0, 0#1024⟩] } ∧
         Swapped s t m [{ ch := toHome die l, body := .update u (some (die, s.nextId)), own := own, seq := seq }]))) ∧
     (Due s m ch (.forwardReturn die l fwd w (some (txn, core, wdie))) → tblGet s.gateways (die, l) = some x → x.waiting = [] →
       Happens (.forwardReturn m) s (fun t => SameBytes s t ∧
         tblGet t.gateways (die, l) = some { x with
           fwds := x.fwds.filter (fun f => f.id != fwd), wdev := max x.wdev w, stale := x.stale || x.renewing } ∧
         -- what is under way says that the time is known
         t.net = (s.net.eraseIdx m).map (fun y => { y with body := y.body.returned (.gateway die l fwd) w }) ++
           [{ ch := ⟨.time, portGateway die (homeDie l), portCore core⟩, body := .storeDone txn ⟨wdie, wdie, wdie, w⟩ }] ∧
         ∀ r g, s.group r = some g →
           if ∃ q ∈ g.pendObs, q.1 = Pending.gateway die l fwd then
             t.group r = some { g with
               ob := g.ob.fold ⟨w, w, w, w⟩, pendObs := g.pendObs.filter (fun q => decide (q.1 ≠ .gateway die l fwd)) }
           else t.group r = some g)))

/-- R89, R111, R112, R119, R124, R184, R335: what arrives for an operation's last part is written to its registers and to no other,
the operation is over, and its times are observed: of a load, a weight-store read, an LDX, an atomic that returns the old value.

R103, R106, R107, R184, R335: a store is over when its times have returned: they are in the horizons of the groups that wrote,
at core scope the time it entered the buffer; an STX has written its bytes, and no other.

Where the spec leaves a choice to the model, this states the choice of logs 16 and 37. -/
def Obligations.AccessesComplete : Prop :=
  (∀ (s : State) (m : Nat) (ch : Chan) (g : Group) (o : Op) (p : LoadPart) (core l : Nat) (data : LineBits) (x : Option Nat) (wl : Nat)
       (obs : ObsInfo) (q : L1Req) (alloc : Bool) (a : Nat) (r : GroupRef) (op : Nat) (z : ScratchPart) (v : BitVec 128) (u : Update)
       (d : Dst) (ty : Ty) (f : AOp) (y old : Word64) (w : Nat),
     let field (data : LineBits) : BitVec 128 := fieldOf (mergeLine data p.own p.ownMask) p.off p.n
     let got (g1 : Group) (data : LineBits) : RegRef → Option Word64 :=
       arrivedResult g1.budget (o.arrivals ++ [⟨p.who, p.va, p.dst, p.ty, field data, none⟩])
     let seen (obs : ObsInfo) : Group := (g.without p.op).saw p.op p.beyond obs
     -- no pushed copy of the core can leave (R166)
     let unpushed : Prop := ∀ y ∈ (s.core core).copies, y.2.push = none ∧ ∀ z, y.2.older = some z → z.push = none
     let others (t : State) (r : GroupRef) : Prop := ∀ q, q ≠ r → t.group q = s.group q
     (s.group p.g = some g → LastPart g p.op o → o.kind ≠ .fill → unpushed →
       (Due s m ch (.loadResp core l data x wl obs false (.direct core [p])) → s.reportDue p.g.key.ctx l = false →
         Happens (.loadResponse m) s (fun t => Swapped s t m [] ∧ SameBytes s t ∧ others t p.g ∧ GroupIs t p.g (seen obs) (got g data))) ∧
       (Due s m ch (.loadResp core l data x wl obs false (.l1 core alloc)) → tblGet (s.core core).reqs l = some q → q.parts = [p] →
         q.joined = [] → q.next = [] → s.reportDue q.req.ctx l = false →
         Happens (.loadResponse m) s (fun t => Swapped s t m [] ∧ SameBytes s t ∧ others t p.g ∧ GroupIs t p.g (seen obs) (got g data) ∧
           tblGet (t.core core).reqs l = none ∧
           ∀ e, x = some e → q.alloc = true → s.l1Ways core ≠ 0 → (∀ c, tblGet (s.core core).copies l = some c → c.wl ≤ wl) →
             tblGet (t.core core).copies l = some
               { data := mergeLine data q.drained q.drainedMask, from_ := 0, expiry := e, wl := wl, push := none, colour := q.colour,
                 used := s.now })) ∧
       (Due s m ch (.weightResp core a alloc [p]) → (s.weightLine (a / 128)).2 = false →
         Happens (.loadResponse m) s (fun t =>
           if inRefresh a s.now then
             Swapped s t m [{ ch := ⟨.resp, 6000 + a / 2 ^ 30 * 16 + a / 256 % 16, portCore core⟩, body := .refresh core a alloc [p] }] ∧
               SameGroups s t
           else Swapped s t m [] ∧ SameBytes s t ∧ others t p.g ∧ GroupIs t p.g (seen noObs) (got g (s.weightLine (a / 128)).1))) ∧
       (Due s m ch (.refresh core a alloc [p]) → (s.weightLine (a / 128)).2 = false →
         Happens (.refreshWindowEnd m) s (fun t =>
           if inRefresh a s.now then t = s
           else Swapped s t m [] ∧ SameBytes s t ∧ others t p.g ∧ GroupIs t p.g (seen noObs) (got g (s.weightLine (a / 128)).1)))) ∧
     (s.group p.g = some g → g.ops.find? (fun o => o.id == p.op) = some o → Due s m ch (.loadResp core l data x wl obs false (.direct core [p])) →
       s.reportDue p.g.key.ctx l = false →
       -- a part that is not the last writes nothing yet (R253); registers written meanwhile are undefined at the end (R50)
       (1 < o.parts → o.kind ≠ .fill → Happens (.loadResponse m) s (fun t => ∃ g', t.group p.g = some g' ∧
         (∀ x, g'.reg x = g.reg x) ∧ g'.ops.find? (fun o => o.id == p.op) = some { o with
           parts := o.parts - 1, arrivals := o.arrivals ++ [⟨p.who, p.va, p.dst, p.ty, field data, none⟩] })) ∧
       (o.parts ≤ 1 → Happens (.loadResponse m) s (fun t => ∃ g', t.group p.g = some g' ∧
         g'.ops.find? (fun o => o.id == p.op) = none ∧ ∀ x ∈ o.clobbered, x ∈ g'.undef)) ∧
       (o.kind = .fill → Happens (.loadResponse m) s (fun t => ∃ g', t.group p.g = some g' ∧
         g'.fills = g.fills ++ [(p.who.getD 0, (g.thread (p.who.getD 0)).fdep, field data)]))) ∧
     (s.group r = some g → LastPart g op o → o.arrivals = [] → Due s m ch (.scratch r op true [z]) → s.scratchValue r.key z.at_ z.n = some (v, false) →
       Happens (.loadResponse m) s (fun t => Swapped s t m [] ∧ SameBytes s t ∧ t.mem = s.mem ∧ others t r ∧
         GroupIs t r (g.without op) (loadResult z.ty z.dst (z.who.getD 0) g.budget v))) ∧
     (s.group u.g = some g → LastPart g u.opId o → u.dst = some d → u.op = .rmw f ty y → u.holder = none → u.tgt = .group →
       Due s m ch (.updateDone u old w wl false) →
       Happens (.loadResponse m) s (fun t => Swapped s t m [] ∧ SameBytes s t ∧ others t u.g ∧
         GroupIs t u.g ({ g.without u.opId with hz := g.hz.fold ⟨w, w, w, w⟩ }.saw u.opId
             (byteMask (u.addr % 128) (ty.width / 8)) (deviceObs wl))
           (arrivedResult g.budget (o.arrivals ++ [⟨u.who, u.va, d, ty, old.setWidth 128, none⟩]))))) ∧
  (∀ (s : State) (m : Nat) (ch : Chan) (g : Group) (o : Op) (r : GroupRef) (op txn : Nat) (h : Horizons) (q : StoreTxn)
       (z : ScratchPart) (k : BlockKey) (b : Block) (slot off : Nat) (peer : Bool) (u : Update) (old : Word64) (w wl : Nat),
     let others (t : State) (r : GroupRef) : Prop := ∀ q, q ≠ r → t.group q = s.group q
     (s.group r = some g → LastPart g op o → o.arrivals = [] → Due s m ch (.storeDone txn h) → tblGet s.txns txn = some q → q.ops = [(r, op)] →
       q.writers = [r] → q.colour = 0 → (tblGet (s.core q.core).reqs q.line).isSome = false →
       (∀ a x, s.group a = some x → ∀ y ∈ x.pendObs, y.1 ≠ Pending.entry q.core txn) →
       Happens (.storeCompletion m) s (fun t => Swapped s t m [] ∧ SameBytes s t ∧ others t r ∧ tblGet t.txns txn = none ∧
         GroupIs t r { g.without op with hz := g.hz.fold { h with core := q.coreTime.getD h.clus } }
           (fun _ => none))) ∧
     (s.group r = some g → Due s m ch (.storeDie txn w) → tblGet s.txns txn = some q → q.writers = [r] →
       Happens (.storeCompletion m) s (fun t => Swapped s t m [] ∧ SameBytes s t ∧ others t r ∧ t.txns = s.txns ∧
         GroupIs t r { g with hz := g.hz.fold ⟨0, w, w, 0⟩ } (fun _ => none))) ∧
     (s.group r = some g → LastPart g op o → o.arrivals = [] → Due s m ch (.scratch r op false [z]) → z.at_ = .bytes k slot off peer →
       s.block k = some b → s.mem.wf = true →
       Happens (.storeCompletion m) s (fun t => Swapped s t m [] ∧ others t r ∧ GroupIs t r (g.without op) (fun _ => none) ∧
         (∀ i, i < z.n → t.mem.read (shareKey b slot (off + i)) =
           (leBytes z.n z.data.toNat).getD i 0#8 ∨ ∃ j, i < j ∧ j < z.n ∧ shareKey b slot (off + j) = shareKey b slot (off + i)) ∧
         ∀ a, (∀ i, i < z.n → shareKey b slot (off + i) ≠ a) → t.mem.read a = s.mem.read a)) ∧
     (s.group u.g = some g → LastPart g u.opId o → o.arrivals = [] → u.dst = none → u.holder = none → u.tgt = .group →
       let g1 : Group := { g.without u.opId with hz := g.hz.fold ⟨w, w, w, w⟩ }
       Due s m ch (.updateDone u old w wl false) →
       Happens (.storeCompletion m) s (fun t => Swapped s t m [] ∧ SameBytes s t ∧ others t u.g ∧
         GroupIs t u.g (match u.op with
           | .rmw _ ty _ | .cas ty _ _ => g1.saw u.opId (byteMask (u.addr % 128) (ty.width / 8)) (deviceObs wl)
           | _ => g1) (fun _ => none))))

/-- R85, R103, R104, R413: 64 cycles (20 ticks) after its creation a buffer entry drains: its bytes go out under its number, and into
the core's copy; an entry whose translation is gone is translated again, and where that fails its bytes go to the fault buffer.

Where the spec leaves a choice to the model, this states the choice of logs 18 and 37. -/
def Obligations.BufferEntriesDrain : Prop :=
  ∀ (s s1 : State) (core k : Nat) (b : BufEntry) (c : Ctx) (f : Nat) (g : Group),
    let out : StoreReq :=
      { line := b.line, data := b.data, mask := b.mask, txn := b.id, core := core, ctx := b.ctx, keep := b.keep,
        slot := s.blockSlot b.lastG, poison := false, l0 := false, colour := b.colour, via := none }
    let gone (s : State) : State := s.modCore core (fun c => { c with buffer := c.buffer.filter (fun x => x.id != b.id) })
    (s.core core).buffer.find? (fun x => x.id == k) = some b →
    (b.retrans = false → b.poison = false → Happens (.bufferTimerDrain core k) s (fun t =>
      if b.created + 20 ≤ s.nowAt core then
        Sent s t [{ ch := chanOut core b.line, body := .store out (goesHome core b.line), seq := b.id }] ∧ SameBytes s t ∧
          SameGroups s t ∧ (t.core core).buffer = ((gone s).core core).buffer ∧
          (∃ q, tblGet t.txns b.id = some q ∧ q.line = b.line ∧ q.core = core ∧ q.coreTime = some b.latest ∧ q.ops = b.ops ∧
            q.writers = b.writers ∧ q.threads = b.threads ∧ q.colour = b.colour) ∧
          ∀ x, tblGet (s.core core).copies b.line = some x →
            tblGet (t.core core).copies b.line = some { x with
              data := mergeLine x.data b.data b.mask
              older := x.older.map (fun y => { y with data := mergeLine y.data b.data b.mask }) }
      else t = s)) ∧
    (b.retrans = true → (gone s).translate core b.ctx b.va = (.absent, s1) → s.ctx b.ctx = some c →
      firstFrom (fun n => (tblGet c.fbuf n).isNone) 0 64 = some f → s.group b.lastG = some g → g.pendingTrap = none →
      Happens (.bufferTimerDrain core k) s (fun t => Sent s t [] ∧ SameBytes s t ∧
        (t.core core).buffer = ((gone s).core core).buffer ∧
        (∃ c' y, t.ctx b.ctx = some c' ∧ tblGet c'.fbuf f = some y ∧ y.va = b.va ∧ y.data = b.data ∧
          ∀ i, i < 128 → y.mask.getLsbD i = b.mask.getLsbD (8 * i)) ∧
        ∃ g', t.group b.lastG = some g' ∧ g'.pendingTrap =
          some { code := .deferredWrite, mask := b.lastAct, addr := b.va, pc := b.lastPc, fb := some f }))

/-- R94, R108: a copy ends 3 ticks before its lease; a line that the host snoops returns its bytes once its leases have passed.

R56, R65, R95, R108, R135, R136: the host writes device memory at its home, past the leases, but no code frame; it reads there;
its own memory it writes where the agent does not hold the line; home-only accesses of host memory complete there, or time out.

Where the spec leaves a choice to the model, this states the choice of logs 5 and 17. -/
def Obligations.LeasesEndAndHostAnswers : Prop :=
  (∀ (s : State) (core l : Nat) (x : L1Copy) (y : SliceLine),
     (tblGet (s.core core).copies l = some x → Happens (.leaseExpiry core l) s (fun t =>
       if x.expiry ≤ s.nowAt core + 3 ∨ ∃ z, x.older = some z ∧ z.expiry ≤ s.nowAt core + 3 then
         tblGet (t.core core).copies l = (if x.expiry ≤ s.nowAt core + 3 then none else some { x with older := none }) ∧ (∀ k, k ≠ l → tblGet (t.core core).copies k = tblGet (s.core core).copies k) ∧
           SameGroups s t ∧ SameBytes s t
       else t = s)) ∧
     (isHost l = true → tblGet s.lines l = some y → Happens (.hostSnoop l) s (fun t =>
       if y.lx + 3 < s.now then
         tblGet t.lines l = none ∧ (∀ k, k ≠ l → tblGet t.lines k = tblGet s.lines k) ∧ SameGroups s t ∧ SameBytes s t
       else t = s))) ∧
  (∀ (s : State) (l : Nat) (data mask : LineBits) (y : SliceLine) (m : Nat) (ch : Chan) (r : ReadReq) (core : Nat)
       (p : LoadPart) (q : StoreReq) (g : Group) (o : Op),
     let wrote (l : LineNo) (data mask : LineBits) (t : State) : Prop :=
       ∀ a, t.homeByte a = if a / 128 = l then lineGet (mergeLine (s.lineData l) data mask) (a % 128) else s.homeByte a
     let others (t : State) (r : GroupRef) : Prop := ∀ q, q ≠ r → t.group q = s.group q
     (isHost l = false → s.isCode (128 * l) = false → tblGet s.misses l = none → tblGet s.lines l = some y →
       Happens (.hostWrite l data mask) s (fun t => wrote l data mask t ∧ SameGroups s t ∧ Sent s t [] ∧
         ∃ z, tblGet t.lines l = some z ∧ z.wl = max (max s.now y.lx + 3) y.wl)) ∧
     (isHost l = false → s.isCode (128 * l) = false → tblGet s.misses l = none → tblGet s.lines l = none → s.missCount l < 64 →
       Happens (.hostWrite l data mask) s (fun t => t = { s with misses := tblPut s.misses l ⟨[], none⟩ })) ∧
     (isHost l = false → s.isCode (128 * l) = true → Happens (.hostWrite l data mask) s (fun t =>
       t = { s with hostDone := some (.abort l), fw := { s.fw with aborts := s.fw.aborts ++ [l] } })) ∧
     (isHost l = true → tblGet s.lines l = none → s.mem.wf = true →
       Happens (.hostWrite l data mask) s (fun t => wrote l data mask t ∧ SameGroups s t ∧ Sent s t [])) ∧
     (isHost l = false → tblGet s.misses l = none → tblGet s.lines l = some y →
       Happens (.hostRead l) s (fun t => t.hostDone = some (.data l y.data y.poison) ∧ SameBytes s t ∧ SameGroups s t ∧ Sent s t [])) ∧
     (Due s m ch (.host r) → r.tgt = .direct core [p] →
       Happens (.cxlCompletion m) s (fun t => SameBytes s t ∧ SameGroups s t ∧
         Swapped s t m [{ ch := ⟨.resp, portHome r.line, portCore core⟩
                          body := .loadResp core r.line (s.lineData r.line) none (s.wlOf r.line) (deviceObs (s.wlOf r.line))
                            (s.linePoisoned r.line) r.tgt }])) ∧
     (Due s m ch (.hostStore q) → isHost q.line = true → q.l0 = true → q.via = none → q.slot = none → tblGet s.lines q.line = none →
       s.mem.wf = true →
       Happens (.cxlCompletion m) s (fun t => wrote q.line q.data q.mask t ∧ SameGroups s t ∧
         Swapped s t m [{ ch := ⟨.time, portHome q.line, portCore q.core⟩
                          body := .storeDone q.txn ⟨s.now + 3, s.now + 3, s.now + 3, s.now + 3⟩ }])) ∧
     (Due s m ch (.host r) → r.tgt = .direct core [p] → isHost r.line = true → isPeer r.line = false → s.group p.g = some g →
       LastPart g p.op o → o.arrivals = [] → g.pendingTrap = none →
       Happens (.completionTimeout m) s (fun t => SameBytes s t ∧ others t p.g ∧ Swapped s t m [] ∧
         GroupIs t p.g { g.without p.op with
           pendingTrap := some { code := .pagePermRead, reason := 0x0C#8, mask := (p.who.map bitOf).getD o.act, addr := p.va, pc := o.pc } }
           (fun _ => none))))

/-- R79, R80: a walk joins one of its page that is under way, starts on one of 64 walkers, or is queued; it begins below the
deepest entry of the die's walk cache that serves it, and what it reads goes there; a leaf fills the two TLBs, an error or an entry not present
fills none, and the oldest request in the queue starts.

R34, R56, R67, R83: the fetch of a line in a marked code page is sent, any other faults; a fill with a good trailer enters the
instruction cache, a bad one is read again, and the third bad one is an uncorrectable error.

Where the spec leaves a choice to the model, this states the choice of logs 10, 18 and 28. -/
def Obligations.WalksAndFetches : Prop :=
  (∀ (s : State) (core ctx : Nat) (va : Word64) (die k : Nat) (w : Walk) (c : Ctx) (l : Leaf),
     let d := s.die (dieOfCore core)
     let mine : Walk := ⟨[core], ctx, va⟩
     let joins : Prop := d.walks.any (sameWalk mine) = true
     let same (t : State) : Prop := SameGroups s t ∧ SameBytes s t ∧ Sent s t []
     (joins → Happens (.pageWalk core ctx va) s (fun t => same t ∧ t.cores = s.cores ∧ t.clusters = s.clusters ∧
       (t.die (dieOfCore core)).walkQueue = d.walkQueue ∧ (t.die (dieOfCore core)).walks = d.walks.map (fun x =>
         if sameWalk mine x then { x with cores := insertNew x.cores core } else x))) ∧
     (¬ joins → d.walks.length < 64 → Happens (.pageWalk core ctx va) s (fun t => same t ∧
       (t.die (dieOfCore core)).walks = d.walks ++ [mine] ∧ t.cores = s.cores ∧ t.clusters = s.clusters)) ∧
     (¬ joins → 64 ≤ d.walks.length → d.walkQueue.length < 1024 → Happens (.pageWalk core ctx va) s (fun t => same t ∧
       (t.die (dieOfCore core)).walks = d.walks ∧ (t.die (dieOfCore core)).walkQueue = d.walkQueue ++ [mine] ∧
       t.cores = s.cores ∧ t.clusters = s.clusters)) ∧
     ((s.die die).walks[k]? = some w →
       let next (t : State) : Prop := same t ∧ (t.die die).walks = (s.die die).walks.eraseIdx k ++ (s.die die).walkQueue.take 1 ∧
         (t.die die).walkQueue = (s.die die).walkQueue.drop 1
       let old := (s.die die).walkCache
       let from_ := (s.die die).walkFirst w.ctx c w.va
       let found := walkFrom s c.glob w.va from_.1 from_.2.1 from_.2.2
       let read := tablesFrom s w.ctx w.va from_.1 from_.2.1 from_.2.2
       (s.ctx w.ctx = some c → canonical w.va = true →
         Happens (.walkResult die k) s (fun t => next t ∧
           (t.die die).walkCache = (if read = [] then old else (read ++ old).take 512) ∧
           (found = .leaf l → ∀ core ∈ w.cores,
             (t.core core).tlb.head? = some ⟨w.ctx, l⟩ ∧ (t.cluster (clusterOfCore core)).tlb.head? = some ⟨w.ctx, l⟩) ∧
           ((∀ l, found ≠ .leaf l) → t.cores = s.cores ∧ t.clusters = s.clusters)) ∧
         ((∀ e ∈ old, e.ctx ≠ w.ctx) → from_ = (3, c.rootPlace, c.rootPfn)) ∧
         ∀ e ∈ old, e.ctx = w.ctx → e.level = 2 → e.base = levelBase 2 w.va → from_.1 = 1) ∧
       (s.ctx w.ctx = none ∨ canonical w.va = false →
         Happens (.walkResult die k) s (fun t => next t ∧ (t.die die).walkCache = old ∧ t.cores = s.cores ∧ t.clusters = s.clusters)))) ∧
  (∀ (s s1 : State) (r : GroupRef) (pc : Word64) (g : Group) (e : FEntry) (l : Leaf) (reason : Byte) (k : Nat) (flip : BitVec 512)
       (core : Nat) (key : Nat × Word64) (f : Fetch),
     let line : Nat × Word64 := (r.key.ctx, pcLine pc)
     let c := s.core g.core
     let absent : Prop := s.group r = some g ∧ s.entryAt r pc = some e ∧ g.onPage = false ∧ tblGet c.icache line = none ∧ tblGet c.fetches line = none
     let x : BitVec 512 := s.codeLine f.at_ ^^^ flip
     let same (t : State) : Prop := SameGroups s t ∧ SameBytes s t ∧ Sent s t []
     let raised (code : FaultCode) (reason : Byte) (t : State) : Prop :=
       t = s1.raise r e { code := code, reason := reason, mask := e.mask, addr := pc, pc := pc }
     let runs (l : Leaf) : Bool := l.x && !l.w && decide (l.level = 3) && s1.isCode (l.flat pc)
     (absent → s.translate g.core r.key.ctx (pcLine pc) = (.leaf l, s1) → runs l = true →
       Happens (.instructionFetch r pc) s (fun t => same t ∧ (t.core g.core).fetches = c.fetches ++ [(line, ⟨r, pc, l.flat (pcLine pc), 0⟩)])) ∧
     (absent → s.translate g.core r.key.ctx (pcLine pc) = (.leaf l, s1) → runs l = false →
       Happens (.instructionFetch r pc) s (raised .pagePermExec 0#8)) ∧
     (absent → s.translate g.core r.key.ctx (pcLine pc) = (.error reason, s1) →
       Happens (.instructionFetch r pc) s (raised .pagePermExec reason)) ∧
     (absent → s.translate g.core r.key.ctx (pcLine pc) = (.absent, s1) →
       Happens (.instructionFetch r pc) s (raised .pageNotPresent 0#8)) ∧
     (s.fetchList[k]? = some (core, key, f) → s.linePoisoned (f.at_ / 128) = true → s.entryAt f.g f.pc = some e →
       Happens (.instructionFill k flip) s (fun t => ∃ s2 : State,
         t = s2.raise f.g e { code := .eccUncorrectable, mask := e.mask, pc := f.pc } ∧ SameGroups s s2 ∧ SameBytes s s2 ∧
           s2.blocks = s.blocks ∧ tblGet (s2.core core).fetches key = none)) ∧
     (s.fetchList[k]? = some (core, key, f) → s.linePoisoned (f.at_ / 128) = false →
       (trailerOk x = true → Happens (.instructionFill k flip) s (fun t => same t ∧
         tblGet (t.core core).icache key = some x ∧ tblGet (t.core core).fetches key = none ∧
         tblGetD t.fw.corrected (unitKey 1 core) 0 = tblGetD s.fw.corrected (unitKey 1 core) 0 + if f.failed = 0 then 0 else 1)) ∧
       (trailerOk x = false → f.failed < 2 → Happens (.instructionFill k flip) s (fun t => same t ∧
         (t.core core).icache = (s.core core).icache ∧ tblGet (t.core core).fetches key = some { f with failed := f.failed + 1 })) ∧
       (trailerOk x = false → 2 ≤ f.failed → s.entryAt f.g f.pc = some e → Happens (.instructionFill k flip) s (fun t =>
         ∃ s2 : State, t = s2.raise f.g e { code := .eccUncorrectable, mask := e.mask, pc := f.pc } ∧ SameGroups s s2 ∧ SameBytes s s2 ∧
           s2.blocks = s.blocks ∧ tblGet (s2.core core).fetches key = none ∧
           tblGetD s2.fw.uncorrected (unitKey 1 core) 0 = tblGetD s.fw.uncorrected (unitKey 1 core) 0 + 1))))

/-- R180 to R184: LDX and STX send their accesses to the banks, and fault on the first row of R181 that a thread fails.

R185 to R191: what each barrier instruction makes of its barrier; a phase ends when all that is expected has arrived and no byte
is pending, and releases who waits for it; who arrives or waits, where, and the faults. -/
def Obligations.ScratchpadAndBarriers : Prop :=
  (∀ (c : Ctl) (h : Hint) (ty : Ty) (d : Dst) (m : Addr) (val : Src) (b : Block),
     let n := ty.width / 8
     let addr (e : Iss) (t : Tid) : Word64 := Operand.addr e 32 t m
     let access (i : Instr) (load vec : Bool) (d : Dst) (data : Iss → Tid → BitVec 128) : Prop :=
       let ts (e : Iss) : List Tid := accessTids vec e.act
       let place (e : Iss) (t : Tid) : ScratchAt := scratchAt e.r e.g.slot (addr e t)
       let bad1 (e : Iss) : Mask := maskOf (fun t => decide (t ∈ ts e) && decide ((addr e t).toNat % n ≠ 0))
       let bad2 (e : Iss) : Mask := maskOf (fun t => decide (t ∈ ts e) && scratchBad b load n (addr e t) (place e t))
       let bad3 (e : Iss) : Mask := maskOf (fun t => decide (t ∈ ts e) && scratchGone e.s e.g.core (place e t))
       let here (e : Iss) : Prop := e.act ≠ 0#32 ∧ e.s.block e.r.key = some b
       let raised (e : Iss) (code : FaultCode) (k : Mask) (t : State) : Prop :=
         t = e.s.raise e.r ⟨e.pc, e.mask⟩
           { code := code, mask := if vec then k else e.act, addr := addr e ((maskTids k).headD 0), pc := e.pc }
       Runs c i (fun e => here e ∧ bad1 e = 0#32 ∧ bad2 e = 0#32 ∧ bad3 e = 0#32)
         (fun e t => e.Began t [{ id := e.s.nextId, cls := if load then .ld else .st, kind := .scratch, pc := e.pc, act := e.act,
                                  parts := 1, dests := if load then (ts e).flatMap (fun t => Dst.regs ty d t) else [],
                                  clobbered := [], ext := false, cols := [] }] ∧
           Sent e.s t [{ ch := ⟨.scratch, e.g.core, e.g.lane⟩
                         body := .scratch e.r e.s.nextId load ((ts e).map (fun t =>
                           { at_ := place e t, addr := addr e t, who := if vec then some t else none, n := n, dst := d, ty := ty,
                             data := data e t })) }]) ∧
       Runs c i (fun e => here e ∧ bad1 e ≠ 0#32) (fun e t => raised e .misaligned (bad1 e) t) ∧
       Runs c i (fun e => here e ∧ bad1 e = 0#32 ∧ bad2 e ≠ 0#32) (fun e t => raised e .scratchRange (bad2 e) t) ∧
       Runs c i (fun e => here e ∧ bad1 e = 0#32 ∧ bad2 e = 0#32 ∧ bad3 e ≠ 0#32) (fun e t => raised e .peerGone (bad3 e) t)
     access (.ldx c h ty d m) true (d.isVec || m.base.isVec || m.idx.isVec) d (fun _ _ => 0#128) ∧
     access (.stx c h ty m val) false (val.isVec || m.base.isVec || m.idx.isVec) .zero (fun e t => storeValue e ty t val)) ∧
  (∀ (c : Ctl) (k : BReg) (sl : Option (Fin 4)) (cnt : SImm 12) (bytes : SImm 16) (ph : SImm 1) (d : DstP) (b : Block),
     let slot (e : Iss) (own : Bool) : Nat := match own, sl with
       | false, some n => n.val
       | _, _ => e.g.slot
     let bar (e : Iss) (own : Bool) : Barrier := b.bar (slot e own) k.val
     let here (e : Iss) (own : Bool) : Prop := e.act ≠ 0#32 ∧ e.s.block e.r.key = some b ∧ slot e own < b.cores.length ∧
       k.val < b.lr.nbar ∧ PoisonKey.barrier e.r.key (slot e own) k.val ∉ e.s.poison
     let ends (x : Barrier) : Prop := 1 ≤ x.tgt ∧ x.arr = x.tgt ∧ x.pend = 0
     let went (e : Iss) (g1 : Group) (own : Bool) (x : Barrier) (t : State) : Prop :=
       t.block e.r.key = some { b with bars := tblPut b.bars (slot e own, k.val) x } ∧ t.mem = e.s.mem ∧ Sent e.s t [] ∧
         (∀ q, q ≠ e.r → t.group q = e.s.group q) ∧ GroupIs t e.r g1 (fun _ => none)
     let onward (e : Iss) : Group := e.g.advance e.mask e.pc
     -- a phase ends: the barrier as it is then; another group's threads that waited for it run again
     let ended (e : Iss) (own : Bool) (x : Barrier) (t : State) : Prop :=
       t.block e.r.key = some { b with bars := tblPut b.bars (slot e own, k.val) { x with ph := !x.ph, gen := x.gen + 1#16, arr := 0 } } ∧
         t.mem = e.s.mem ∧ Sent e.s t [] ∧ (∀ q, q.key ≠ e.r.key → t.group q = e.s.group q) ∧
         ∀ q h u, q.key = e.r.key → q ≠ e.r → e.s.group q = some h → h.inHandler = false → (h.thread u).lbk = 0 →
           (h.thread u).status = .parked (.barrier (slot e own) k.val x.ph) →
           ∃ h', t.group q = some h' ∧ (h'.thread u).status = .running ∧ (h'.thread u).pc = (h.thread u).pc
     let sets (i : Instr) (own : Bool) (pre : Iss → Prop) (x : Iss → Barrier) : Prop :=
       Runs c i (fun e => here e own ∧ pre e ∧ ¬ ends (x e)) (fun e t => went e (onward e) own (x e) t) ∧
       Runs c i (fun e => here e own ∧ pre e ∧ ends (x e)) (fun e t => ended e own (x e) t)
     let overflows (i : Instr) (own : Bool) (pre : Iss → Prop) : Prop :=
       Runs c i (fun e => here e own ∧ pre e)
         (fun e t => t = e.s.raise e.r ⟨e.pc, e.mask⟩ { code := .barrierOverflow, mask := e.act, pc := e.pc })
     let a (e : Iss) : Nat := maskCount e.act
     let free (e : Iss) : Prop := ∀ o ∈ e.g.ops, o.kind ≠ .scratch
     let waits (e : Iss) (ph : Bool) : Group := (e.g.advance e.mask e.pc).modThreads e.act (fun _ th =>
       { th with status := .parked (.barrier e.g.slot k.val ph), deadline := none, since := e.s.now, pc := nextSlot e.pc })
     let arrived (e : Iss) (own : Bool) : Barrier := { bar e own with arr := (bar e own).arr + a e }
     let fits (e : Iss) (own : Bool) : Prop := (bar e own).tgt ≠ 0 ∧ (bar e own).arr + a e ≤ (bar e own).tgt
     let v12 (e : Iss) : Nat := (Operand.simm e cnt).toNat
     let v16 (e : Iss) : Nat := (Operand.simm e bytes).toNat
     Runs c (.bari c k cnt) (fun e => here e true ∧ 1 ≤ v12 e ∧ v12 e ≤ 2048)
       (fun e t => went e (onward e) true { bar e true with tgt := v12 e, arr := 0, pend := 0 } t) ∧
     overflows (.bari c k cnt) true (fun e => v12 e < 1 ∨ 2048 < v12 e) ∧
     sets (.bara c sl k) false (fun e => free e ∧ fits e false) (fun e => arrived e false) ∧
     Runs c (.baraw c k) (fun e => here e true ∧ free e ∧ fits e true ∧ ¬ ends (arrived e true))
       (fun e t => went e (waits e (bar e true).ph) true (arrived e true) t) ∧
     Runs c (.baraw c k) (fun e => here e true ∧ free e ∧ fits e true ∧ ends (arrived e true))
       (fun e t => ended e true (arrived e true) t ∧ ∃ g', t.group e.r = some g' ∧ ∀ u, e.act.getLsbD u.val = true →
         e.g.inHandler = false → (e.g.thread u).lbk = 0 → (g'.thread u).status = .running ∧ (g'.thread u).pc = nextSlot e.pc) ∧
     Runs c (.baraw c k) (fun e => here e true ∧ ¬ free e)
       (fun e t => ∃ g' ids, t.group e.r = some g' ∧ (∀ x, g'.reg x = e.g.reg x) ∧ (∀ u, g'.thread u = e.g.thread u) ∧
         (∀ i, i ∈ ids ↔ ∃ o ∈ e.g.ops, o.kind = .scratch ∧ o.id = i) ∧
         g'.holds = e.g.holds ++ [⟨e.mask, e.pc, .arrive ids e.g.slot k true e.act⟩] ∧ t.block e.r.key = some b) ∧
     DoesIf c (.barw c k ph) (fun e => here e true ∧ (bar e true).ph ≠ phaseOf e ph) (fun _ => noReg) ∧
     Runs c (.barw c k ph) (fun e => here e true ∧ (bar e true).ph = phaseOf e ph)
       (fun e t => t.block e.r.key = some b ∧ t.mem = e.s.mem ∧ (∀ q, q ≠ e.r → t.group q = e.s.group q) ∧
         GroupIs t e.r (waits e (bar e true).ph) (fun _ => none)) ∧
     sets (.barx c sl k bytes) false (fun e => (bar e false).pend + v16 e < 2 ^ 31)
       (fun e => { bar e false with pend := (bar e false).pend + v16 e }) ∧
     overflows (.barx c sl k bytes) false (fun e => 2 ^ 31 ≤ (bar e false).pend + v16 e) ∧
     DoesIf c (.bart c d k ph) (fun e => here e true)
       (fun e => e.resultP .b64 d (fun _ => boolWord ((bar e true).ph != phaseOf e ph))) ∧
     sets (.barl c sl k) false (fun e => (bar e false).arr + a e ≤ (bar e false).tgt)
       (fun e => { bar e false with tgt := (bar e false).tgt - a e }) ∧
     overflows (.barl c sl k) false (fun e => (bar e false).tgt < (bar e false).arr + a e) ∧
     Runs c (.bara c sl k)
       (fun e => e.act ≠ 0#32 ∧ e.s.block e.r.key = some b ∧ (b.cores.length ≤ slot e false ∨ b.lr.nbar ≤ k.val))
       (fun e t => t = e.s.raise e.r ⟨e.pc, e.mask⟩ { code := .scratchRange, mask := e.act, pc := e.pc }))

/-- R126 to R129: a fence goes on at once where nothing that it orders is outstanding and its time has passed: an acquire has then
ended the copies of its scope, and observed nothing; else its entry waits, for the operations it orders.

Where the spec leaves a choice to the model, this states the choice of logs 19 and 42. -/
def Obligations.Fences : Prop :=
  ∀ (c : Ctl) (h : Hint) (k : FenceKind) (sc : Scope),
    let rel : Bool := k != .acq
    let acq : Bool := k != .rel
    let orders (o : Op) : Prop := o.cls = .ld ∨ (rel = true ∧ o.cls = .st ∧ (sc ≠ .core ∨ o.kind ≠ .stg))
    let at_ (x : Horizons) : Nat := match sc with
      | .core => x.core
      | .clus => x.clus
      | .die => x.die
      | .dev | .sys => x.dev
    let time (e : Iss) : Nat := max (at_ e.g.ob) (if rel then at_ e.g.hz else 0)
    let clean (e : Iss) : Prop := ∀ x ∈ (e.s.core e.g.core).buffer, x.retrans = false ∧ x.poison = false
    let quiet (e : Iss) : Prop := (∀ o ∈ e.g.ops, ¬ orders o) ∧ (acq = true → sc ≠ .core → ∀ p ∈ e.g.pendObs, e.s.nextId ≤ p.2)
    let dropped (e : Iss) (l : LineNo) : Prop := match sc with
      | .core => False
      | .clus | .die => homeDie l ≠ dieOfCore e.g.core
      | .dev => isHost l = true
      | .sys => True
    let drained (e : Iss) (t : State) : Prop := ∀ x ∈ (t.core e.g.core).buffer, e.r ∉ x.writers
    Runs c (.fence c h k sc) (fun e => e.act ≠ 0#32 ∧ clean e ∧ quiet e ∧ time e ≤ e.s.nowAt e.g.core)
      (fun e t => e.Began t [] ∧ drained e t ∧
        (acq = true → ∀ l, dropped e l → tblGet (t.core e.g.core).copies l = none) ∧
        (acq = true → sc = .sys → ∀ l, (t.gw (dieOfCore e.g.core) l).copy = false) ∧
        ∀ l x, (acq = false ∨ ¬ dropped e l) → tblGet (e.s.core e.g.core).copies l = some x →
          ∃ y, tblGet (t.core e.g.core).copies l = some y ∧ y.expiry = x.expiry) ∧
    Runs c (.fence c h k sc)
      (fun e => e.act ≠ 0#32 ∧ clean e ∧ (¬ quiet e ∨ e.s.nowAt e.g.core < time e))
      (fun e t => drained e t ∧ (∀ q, q ≠ e.r → t.group q = e.s.group q) ∧ SameBytes e.s t ∧
        ∃ g' f, t.group e.r = some g' ∧ (∀ x, g'.reg x = e.g.reg x) ∧ (∀ u, g'.thread u = e.g.thread u) ∧ g'.ops = e.g.ops ∧
          g'.holds = e.g.holds ++ [⟨e.mask, e.pc, .fence f⟩] ∧ f.kind = k ∧ f.scope = sc ∧ f.act = e.act ∧
          ∀ i, i ∈ f.ops ↔ ∃ o ∈ e.g.ops, orders o ∧ o.id = i) ∧
    DoesIf c (.fence c h k sc) (fun e => e.act = 0#32) (fun _ => noReg)

/-- R131, R333 to R336: ATOM, ACAS and RED send an update for each thread; an address that is not aligned, lacks a permission, or
is host memory under mtype 01 faults; with .rel the entry waits for the release, with .acq it waits after.

R337, R338: CST appends: the header's count rises, to the limit at most; each thread below the limit gets its place and stores its
value there, the others get all ones. Here the header's line is at home on the core's own die and nothing waits in the buffer.

Where the spec leaves a choice to the model, this states the choice of logs 19 and 27. -/
def Obligations.AtomicsBegin : Prop :=
  (∀ (c : Ctl) (ty : Ty) (f : AOp) (x : Bool) (o : Ord) (d : Dst) (base : VS) (idx : Idx) (val new cmp : Src) (xl : Tid → Xlat)
       (s1 : State) (u : Tid) (b : Block),
     let m : Addr := ⟨base, idx, 0#25⟩
     let n := ty.width / 8
     let addr (e : Iss) (t : Tid) : Word64 := Operand.addr e 64 t m
     let begins (i : Instr) (vec : Bool) (dst : Option Dst) (op : Iss → Tid → UpdateOp) : Prop :=
       let ts (e : Iss) : List Tid := accessTids vec e.act
       let line (e : Iss) (t : Tid) : LineNo := (xl t).leaf.line (addr e t)
       let hostOnly (e : Iss) (t : Tid) : Prop := isHost (line e t) = true ∧ isPeer (line e t) = false ∧ (xl t).leaf.mtype = 1
       let cls : OpClass := if dst.isSome then .ld else .st
       let dests (e : Iss) : List RegRef := match dst with
         | some d => (ts e).flatMap (fun t => Dst.regs ty d t)
         | none => []
       let clean (e : Iss) : Prop := ∀ x ∈ (e.s.core e.g.core).buffer, x.retrans = false ∧ x.poison = false
       let reach (e : Iss) : Prop := x = false ∧ e.Reaches vec n Need.both (addr e) xl s1 true ∧ clean e
       let memory (e : Iss) : Prop := reach e ∧ ∀ t ∈ ts e, ¬ hostOnly e t
       let place (e : Iss) (t : Tid) : ScratchAt := scratchAt e.r e.g.slot (addr e t)
       let scratch (e : Iss) : Prop := x = true ∧ e.act ≠ 0#32 ∧ e.s.block e.r.key = some b ∧
         ∀ t ∈ ts e, (addr e t).toNat % n = 0 ∧ scratchBad b false n (addr e t) (place e t) = false ∧
           scratchGone e.s e.g.core (place e t) = false
       let opM (e : Iss) : Op :=
         { id := e.s.nextId, cls := cls, kind := .other, pc := e.pc, act := e.act, parts := (ts e).length, dests := dests e,
           clobbered := [], ext := (ts e).any (fun t => isHost (line e t)),
           cols := ((ts e).filter (fun t => decide ((xl t).colour ≠ 0))).map (fun t => (t, (xl t).colour)) }
       -- the threads of a bound set are updated together (R252)
       let units (e : Iss) : List (List Tid) := if vec then e.g.units (ts e) else [ts e]
       let opS (e : Iss) : Op :=
         { id := e.s.nextId, cls := cls, kind := .scratch, pc := e.pc, act := e.act, parts := (units e).length, dests := dests e,
           clobbered := [], ext := false, cols := [] }
       let upd (e : Iss) : Update :=
         { addr := (xl u).leaf.flat (addr e u), op := op e u, core := e.g.core, ctx := e.r.key.ctx, g := e.r, opId := e.s.nextId,
           who := if vec then some u else none, dst := dst, colour := (xl u).colour,
           holder := if (xl u).colour = 0 then none else some u, l0 := (xl u).leaf.mtype == 1, va := addr e u }
       -- the core holds no pushed copy of the line (R166)
       let unpushed (e : Iss) (l : LineNo) : Prop := ∀ y, tblGet (e.s.core e.g.core).copies l = some y →
         y.push = none ∧ ∀ z, y.older = some z → z.push = none
       let nothing (e : Iss) (sc : Scope) : Prop := ∀ o ∈ e.g.ops, ¬ (o.cls = .ld ∨ (o.cls = .st ∧ (sc ≠ .core ∨ o.kind ≠ .stg)))
       let passed (e : Iss) (sc : Scope) : Prop := max (e.g.hz.at sc) (e.g.ob.at sc) ≤ e.s.nowAt e.g.core
       let held (e : Iss) (t : State) (ops : List Op) (p : HoldKind → Prop) : Prop :=
         (∀ q, q ≠ e.r → t.group q = e.s.group q) ∧ SameBytes e.s t ∧
         ∃ g' k, t.group e.r = some g' ∧ (∀ x, g'.reg x = e.g.reg x) ∧ (∀ u, g'.thread u = e.g.thread u) ∧
           g'.ops = e.g.ops ++ ops ∧ g'.holds = e.g.holds ++ [⟨e.mask, e.pc, k⟩] ∧ p k
       Runs c i (fun e => memory e ∧ o = .relaxed) (fun e t => e.Began t [opM e]) ∧
       Runs c i (fun e => memory e ∧ o = .relaxed ∧ ts e = [u] ∧ unpushed e (line e u) ∧ e.s.bufEntry e.g.core (line e u) = none)
         (fun e t => Sent e.s t
           [{ ch := if goesHome e.g.core (line e u) then ⟨.req, portCore e.g.core, portHome (line e u)⟩ else chanOut e.g.core (line e u)
              body := if goesHome e.g.core (line e u) then .update (upd e) none else .pass (upd e)
              own := if (xl u).leaf.mtype = 1 then [⟨e.r, u⟩] else [], seq := e.s.nextId }]) ∧
       Runs c i (fun e => scratch e ∧ o = .relaxed)
         (fun e t => e.Began t [opS e] ∧ Sent e.s t ((units e).map (fun us =>
           { ch := ⟨.scratch, e.g.core, e.g.lane⟩
             body := .scratchUpdate e.r e.s.nextId (us.map (fun t =>
               ({ at_ := place e t, addr := addr e t, who := if vec then some t else none, n := n, dst := dst.getD .zero, ty := ty,
                  data := 0#128 }, op e t))) }))) ∧
       (∀ sc, Runs c i (fun e => memory e ∧ o = .acq sc)
         (fun e t => held e t [opM e] (fun k => ∃ f, k = .after f ∧ f.kind = .acq ∧ f.scope = sc ∧ (dst ≠ none → e.s.nextId ∈ f.ops)))) ∧
       (∀ sc, Runs c i (fun e => memory e ∧ o = .rel sc ∧ nothing e sc ∧ passed e sc) (fun e t => e.Began t [opM e])) ∧
       (∀ sc, Runs c i (fun e => memory e ∧ o = .rel sc ∧ ¬ (nothing e sc ∧ passed e sc))
         (fun e t => held e t [] (fun k => ∃ f, k = .before f ∧ f.kind = .rel ∧ f.scope = sc))) ∧
       Runs c i (fun e => reach e ∧ o = .relaxed ∧ ∃ t ∈ ts e, hostOnly e t)
         (fun e t => let m : Mask := maskOf (fun v => decide (v ∈ ts e) && isHost (line e v) && !isPeer (line e v) && (xl v).leaf.mtype == 1)
           t = s1.raise e.r ⟨e.pc, e.mask⟩
             { code := .hostAtomicRefused, mask := if vec then m else e.act, addr := addr e ((maskTids m).headD 0), pc := e.pc })
     begins (.atom c ty f x o d base idx val) (d.isVec || base.isVec || idx.isVec || val.isVec) (some d)
       (fun e t => .rmw f ty (e.srcOf ty val t 2)) ∧
     begins (.acas c ty x o d base idx new cmp) (d.isVec || base.isVec || idx.isVec || new.isVec || cmp.isVec) (some d)
       (fun e t => .cas ty (e.srcOf ty new t 2) (e.srcOf ty cmp t 3)) ∧
     begins (.red c ty f x o base idx val) (base.isVec || idx.isVec || val.isVec) none
       (fun e t => .rmw f ty (e.srcOf ty val t 2))) ∧
  (∀ (c : Ctl) (h : Hint) (ty : Ty) (d : Dst) (hdr : SReg) (val : Src) (hx : Xlat) (xe : Tid → Xlat) (s1 s2 : State) (y : SliceLine)
       (u : Tid),
     let n := ty.width / 8
     let hd (e : Iss) : Word64 := Operand.s e hdr
     let at_ (e : Iss) : Nat := hx.leaf.flat (hd e)
     let l (e : Iss) : LineNo := hx.leaf.line (hd e)
     let word (e : Iss) (k : Nat) : Nat := (y.data.toNat / 2 ^ (8 * (at_ e % 128 + 8 * k))) % 2 ^ 64
     let qbase (e : Iss) : Word64 := BitVec.ofNat 64 (word e 0)
     let count (e : Iss) : Nat := word e 1
     let limit (e : Iss) : Nat := word e 2
     let ts (e : Iss) : List Tid := maskTids e.act
     let place (e : Iss) (t : Tid) : Nat := count e + ((ts e).filter (fun v => decide (v.val < t.val))).length
     let stores (e : Iss) : List Tid := (ts e).filter (fun t => decide (place e t < limit e))
     let addr (e : Iss) (t : Tid) : Word64 := if t ∈ stores e then qbase e + BitVec.ofNat 64 (place e t * n) else 0#64
     let dty : Ty := match d with
       | .s _ => .b64
       | _ => if ty.bits = 64 then .b64 else .b32
     let got (e : Iss) (t : Tid) : BitVec 128 := if place e t < limit e then BitVec.ofNat 128 (place e t) else BitVec.allOnes 128
     let w (e : Iss) : Nat := max (max e.s.now (if hx.leaf.mtype = 1 then 0 else y.lx) + 3) y.wl
     let total (e : Iss) : Word64 := BitVec.ofNat 64 (min (limit e) (count e + (ts e).length))
     let opens (e : Iss) : Prop := e.act ≠ 0#32 ∧ e.s.Numbered ∧ (hd e).toNat % 32 = 0 ∧
       e.s.xlateAll e.g.core e.r.key.ctx Need.both (fun _ => hd e) false ((ts e).take 1) = (((ts e).take 1).map (fun t => (t, XlatResult.ok hx)), s1) ∧
       hx.colour = 0 ∧ at_ e % 32 = 0 ∧ (e.s.core e.g.core).buffer = [] ∧ e.s.lineQuiet e.g.core (l e) = true ∧
       isHost (l e) = false ∧ homeDie (l e) = dieOfCore e.g.core ∧ tblGet e.s.misses (l e) = none ∧ tblGet e.s.lines (l e) = some y ∧ y.poison = false
     let ready (e : Iss) : Prop := opens e ∧ (∀ t ∈ stores e, (addr e t).toNat % n = 0 ∧ (xe t).colour = 0) ∧
       s1.xlateAll e.g.core e.r.key.ctx Need.write (addr e) false (stores e) = ((stores e).map (fun t => (t, XlatResult.ok (xe t))), s2)
     Runs c (.cst c h ty d hdr val) ready (fun e t =>
       (∀ a, t.homeByte a = if a / 128 = l e then
           lineGet (mergeLine y.data (placeBytes (at_ e % 128 + 8) ((total e).setWidth 128)) (byteMask (at_ e % 128 + 8) 8)) (a % 128)
         else e.s.homeByte a) ∧
       (∀ q, q ≠ e.r → t.group q = e.s.group q) ∧
       ∃ ops : List Op, (ops = [] ↔ stores e = []) ∧ ops.length ≤ 1 ∧ (∀ o ∈ ops, o.cls = .st ∧ o.pc = e.pc ∧ o.act = e.act ∧ 0 < o.parts) ∧
         GroupIs t e.r { e.g.advance e.mask e.pc with ops := e.g.ops ++ ops, hz := e.g.hz.fold ⟨w e, w e, w e, w e⟩ }
           (fun x => match x with
             | .v v _ => if e.act.getLsbD v.val then loadResult dty d v e.g.budget (got e v) x else none
             | .s _ => ((ts e).getLast?).bind (fun v => loadResult dty d v e.g.budget (got e v) x)
             | .p _ _ => none)) ∧
     Runs c (.cst c h ty d hdr val) (fun e => ready e ∧ stores e = [u] ∧ (e.s.core e.g.core).copies = []) (fun e t =>
       let k : LineNo := (xe u).leaf.line (addr e u)
       let off := (addr e u).toNat % 128
       ∃ q : Update, q.op = .put (placeBytes off (storeValue e ty u val)) (byteMask off n) (h == .keep) ∧ q.addr = 128 * k ∧ q.g = e.r ∧
         q.opId = e.s.nextId ∧ q.l0 = ((xe u).leaf.mtype == 1) ∧ q.dst = none ∧
         Sent e.s t [if goesHome e.g.core k then { ch := ⟨.req, portCore e.g.core, portHome k⟩, body := .update q none, seq := e.s.nextId }
                     else { ch := chanOut e.g.core k, body := .pass q, seq := e.s.nextId }]) ∧
     Runs c (.cst c h ty d hdr val) (fun e => e.act ≠ 0#32 ∧ (hd e).toNat % 32 ≠ 0)
       (fun e t => t = e.s.raise e.r ⟨e.pc, e.mask⟩ { code := .misaligned, mask := e.act, addr := hd e, pc := e.pc }))

/-- R92, R95, R131, R335: an update takes one place in its line's order: it reads the old value, writes the new one (an ACAS only
where old and cmp agree), with a W past every lease, and answers the old value.

R334, R339: SIGNAL is one operation of the group; its update is held until the writes before it are done and their time has
passed at system scope; then it is applied, and its time is in the group's horizons. -/
def Obligations.UpdatesAreMade : Prop :=
  (∀ (s : State) (m : Nat) (ch : Chan) (u : Update) (y : SliceLine) (f : AOp) (ty : Ty) (x new cmp : Word64) (r : GroupRef) (op : Nat)
       (p : ScratchPart) (k : BlockKey) (slot off : Nat) (peer : Bool) (b : Block) (g : Group) (o : Op),
     let l := u.addr / 128
     let at_ := u.addr % 128
     let n := ty.width / 8
     let old : Word64 := (fieldOf y.data at_ n).setWidth 64
     let w := max (max s.now (if u.l0 then 0 else y.lx) + 3) y.wl
     let put (v : Word64) : LineBits := mergeLine y.data (placeBytes at_ (v.setWidth 128)) (byteMask at_ n)
     let done (w : Nat) : Msg := { ch := ⟨.resp, portHome l, portCore u.core⟩, body := .updateDone u old w y.wl y.poison }
     let writes (v : Word64) (t : State) : Prop :=
       (∀ a, t.homeByte a = if a / 128 = l then lineGet (put v) (a % 128) else s.homeByte a) ∧
         Swapped s t m [done w] ∧ SameGroups s t ∧ ∃ z, tblGet t.lines l = some z ∧ z.wl = w ∧ z.lx = y.lx
     (Due s m ch (.update u none) → tblGet s.misses l = none → tblGet s.lines l = some y →
       (u.op = .rmw f ty x → Happens (.atomicUpdate m) s (writes (atomicValue f ty old x))) ∧
       (u.op = .cas ty new cmp → old.setWidth ty.width = cmp.setWidth ty.width → Happens (.atomicUpdate m) s (writes new)) ∧
       (u.op = .cas ty new cmp → old.setWidth ty.width ≠ cmp.setWidth ty.width → Happens (.atomicUpdate m) s (fun t =>
         SameBytes s t ∧ Swapped s t m [done 0] ∧ SameGroups s t))) ∧
     (Due s m ch (.update u none) → tblGet s.misses l = none → tblGet s.lines l = none → isHost l = false → s.missCount l < 64 →
       Happens (.atomicUpdate m) s (fun t => Swapped s t m [] ∧ SameGroups s t ∧ SameBytes s t ∧
         tblGet t.misses l = some ⟨[.update u none], none⟩)) ∧
     (Due s m ch (.scratchUpdate r op [(p, .rmw f ty x)]) → s.portBusy p.at_ = false → p.at_ = .bytes k slot off peer → p.ty = ty → p.n = n → s.block k = some b →
       s.spPoisoned b slot off n = false → s.group r = some g → LastPart g op o → o.arrivals = [] → s.mem.wf = true →
       (∀ i j, i < n → j < n → shareKey b slot (off + i) = shareKey b slot (off + j) → i = j) →
       Happens (.atomicUpdate m) s (fun t =>
         let was : Word64 := leBits 64 (s.spRead b slot off n)
         Swapped s t m [] ∧ (∀ q, q ≠ r → t.group q = s.group q) ∧
         (∀ i, i < n → t.mem.read (shareKey b slot (off + i)) = lineGet ((atomicValue f ty was x).setWidth 1024) i) ∧
         (∀ a, (∀ i, i < n → shareKey b slot (off + i) ≠ a) → t.mem.read a = s.mem.read a) ∧
         GroupIs t r (g.without op) (loadResult ty p.dst (p.who.getD 0) g.budget (was.setWidth 128))))) ∧
  (∀ (c : Ctl) (f : SignalOp) (base : SReg) (val : SDst) (xl : Tid → Xlat) (s1 s : State) (u : Tid) (m : Nat) (ch : Chan) (q : Update)
       (ops : List Nat) (g : Group) (o : Op) (v : Word64) (y : SliceLine),
     let addr (e : Iss) : Word64 := Operand.s e base
     let line (e : Iss) : LineNo := (xl u).leaf.line (addr e)
     let clean (e : Iss) : Prop := ∀ x ∈ (e.s.core e.g.core).buffer, x.retrans = false ∧ x.poison = false
     let value (e : Iss) : Word64 := match val with
       | .s n => Operand.s (e.nth 2) n
       | .zero => 0#64
     let sig (e : Iss) : Update :=
       { addr := (xl u).leaf.flat (addr e), op := .signal f (value e), core := e.g.core, ctx := e.r.key.ctx, g := e.r,
         opId := e.s.nextId, who := none, dst := none, colour := (xl u).colour,
         holder := if (xl u).colour = 0 then none else some u, l0 := (xl u).leaf.mtype == 1, va := addr e }
     let done : Prop := ∀ i ∈ ops, ∀ o ∈ g.ops, o.id ≠ i
     let l := q.addr / 128
     let at_ := q.addr % 128
     let w := max (max s.now (if q.l0 then 0 else y.lx) + 3) y.wl
     let new : Word64 := match f with
       | .set => v
       | .add => (fieldOf y.data at_ 8).setWidth 64 + v
     Runs c (.signal c f base val)
       (fun e => e.Reaches false 8 Need.both (fun _ => addr e) xl s1 ∧ accessTids false e.act = [u] ∧ clean e ∧
         e.s.bufEntry e.g.core (line e) = none ∧ ¬ (isHost (line e) = true ∧ isPeer (line e) = false ∧ (xl u).leaf.mtype = 1))
       (fun e t => e.Began t
           [{ id := e.s.nextId, cls := .st, kind := .global, pc := e.pc, act := e.act, parts := 1, dests := [], clobbered := [],
              ext := isHost (line e), cols := if (xl u).colour = 0 then [] else [(u, (xl u).colour)] }] ∧
         Sent e.s t [{ ch := ⟨.control, 8000 + e.g.core, e.s.nextId⟩
                       body := .signal (sig e) ((e.g.ops.filter (fun o => decide (o.kind = .stg ∨ o.kind = .other))).map Op.id) none }]) ∧
     (Due s m ch (.signal q ops none) → s.group q.g = some g →
       (¬ done → Happens (.signalApply m) s (fun t => t = s)) ∧
       (done → s.nowAt q.core < g.hz.dev → Happens (.signalApply m) s (fun t => SameGroups s t ∧ SameBytes s t ∧
         t.net[m]?.map Msg.body = some (.signal q [] (some g.hz.dev)))) ∧
       (done → g.hz.dev ≤ s.nowAt q.core → isPeer l = false → isHost l = false → homeDie l = dieOfCore q.core → tblGet s.misses l = none → tblGet s.lines l = some y →
         q.op = .signal f v → q.holder = none → LastPart g q.opId o → o.arrivals = [] →
         Happens (.signalApply m) s (fun t => Swapped s t m [] ∧
           (∀ a, t.homeByte a = if a / 128 = l then
               lineGet (mergeLine y.data (placeBytes at_ (new.setWidth 128)) (byteMask at_ 8)) (a % 128) else s.homeByte a) ∧
           (∀ r, r ≠ q.g → t.group r = s.group r) ∧
           GroupIs t q.g { g.without q.opId with hz := g.hz.fold ⟨w, w, w, w⟩ } (fun _ => none)))))

/-- R218 to R222, R228, R229: a copy takes the lowest free slot of its engine and writes its handle; the first check that fails faults;
CPYW.s8.put always does; CPYQ reads a command's state, CPYX cancels it: bytes never written are credited.

R189, R218, R223, R226, R230: an engine sends its units in order, and parks a command at a page that is not present; a unit that
lands has its bytes at its destination and is counted; with the last one the command is over.

Where the spec leaves a choice to the model, this states the choice of log 27. -/
def Obligations.Copies : Prop :=
  (∀ (c : Ctl) (dir : CpyDir) (ty sty : Ty) (rnd : Rnd) (hdl : SDst) (dst src pair d : SReg) (bk : Option BReg) (slot : Nat) (b : Block)
       (x : Tid → Xlat) (s1 : State) (q : CopyCmd) (o : Op) (n : Nat),
     let low (e : Iss) : Tid := (maskTids e.act).headD 0
     let a0 (e : Iss) : Word64 := Operand.s e dst
     let a1 (e : Iss) : Word64 := Operand.s (e.nth 1) src
     let w0 (e : Iss) : Word64 := Operand.s (e.nth 2) pair
     let w1 (e : Iss) : Word64 := Operand.s (e.nth 2) (SReg.up pair 1)
     let same (e : Iss) (t : State) : Prop := (∀ q, q ≠ e.r → t.group q = e.s.group q) ∧ SameBytes e.s t ∧ Sent e.s t []
     let begins (i : Instr) (k : CopyKind) (mem : Option (Need × (Iss → Word64))) (w1 : Iss → Word64) (bk : Option BReg) : Prop :=
       let bn : Option Nat := bk.map (fun x => x.val)
       let seq (e : Iss) : Nat := (e.s.core e.g.core).seq
       let colour (e : Iss) : Nat := if mem = none then 0 else (x (low e)).colour
       let open_ (e : Iss) : Prop := e.act ≠ 0#32 ∧ e.s.freeSlot e.g.core = some slot ∧ e.s.block e.r.key = some b
       Runs c i
         (fun e => open_ e ∧ copyFaults e b k (a0 e) (a1 e) (w0 e) (w1 e) bn = none ∧
           ∀ need va, mem = some (need, va) → e.Reaches false 1 need (fun _ => va e) x s1)
         (fun e t => same e t ∧
           GroupIs t e.r { e.g.advance e.mask e.pc with ops := e.g.ops ++
               [{ id := e.s.nextId, cls := .cp, kind := if k.toMem then .other else .global, pc := e.pc, act := e.act, parts := 1,
                  dests := [], clobbered := [], ext := false, cols := if colour e = 0 then [] else [(low e, colour e)] }] }
             (e.result .b64 (sdst hdl) (fun _ => BitVec.ofNat 64 (seq e * 2 ^ 32 + slot))) ∧
           (t.core e.g.core).seq = (seq e + 1) % 2 ^ 32 ∧
           (∀ j, j ≠ slot → tblGet (t.core e.g.core).slots j = tblGet (e.s.core e.g.core).slots j) ∧
           tblGet (t.core e.g.core).slots slot = some
             { seq := seq e, g := e.r, op := e.s.nextId, kind := k, dst := a0 e, src := a1 e, w0 := w0 e, w1 := w1 e, bk := bn,
               pc := e.pc, act := e.act, state := .running, units := k.unitCount (w0 e), next := 0, inFlight := [], landed := [],
               todo := [], got := [], writing := [], done := 0, hz := {}, colour := colour e, holder := if colour e = 0 then none else some (low e) }) ∧
       ∀ code va reason, Runs c i
         (fun e => open_ e ∧ copyFaults e b k (a0 e) (a1 e) (w0 e) (w1 e) bn = some (code, va, reason))
         (fun e t => t = e.s.raise e.r ⟨e.pc, e.mask⟩ { code := code, reason := reason, mask := e.act, addr := va, pc := e.pc })
     let mine (e : Iss) (h : SDst) : Option (Nat × CopyCmd) := e.s.liveCopy e.r e.g.core (Operand.sdst e h)
     let left (q : CopyCmd) : Nat := q.kind.total q.w0 - q.done
     let code (q : CopyCmd) : Nat := match q.state with
       | .running | .failed => 1
       | .parked _ _ => 2
       | .cancelling => 4
     let ended (e : Iss) : Group := { (e.g.advance e.mask e.pc).without q.op with hz := e.g.hz.fold q.hz }
     let cancel (e : Iss) : Prop := e.act ≠ 0#32 ∧ mine e hdl = some (slot, q) ∧ tblGet (e.s.core e.g.core).slots slot = some q ∧
       q.g = e.r ∧ e.s.block e.r.key = some b
     let idle (q : CopyCmd) : Prop := q.inFlight = [] ∧ q.writing = []
     let last (e : Iss) : Prop := cancel e ∧ idle q ∧ q.holder = none ∧ LastPart e.g q.op o ∧ o.arrivals = []
     begins (.cpy c .inn hdl dst src pair bk) (.cpy .inn) (some (Need.read, a1)) (fun _ => 0#64) bk ∧
     begins (.cpy c .out hdl dst src pair none) (.cpy .out) (some (Need.write, a0)) (fun _ => 0#64) none ∧
     begins (.cpy c .ss hdl dst src pair bk) (.cpy .ss) none (fun _ => 0#64) bk ∧
     begins (.cpyt c ty hdl dst src pair bk) (.cpyt ty) (some (Need.read, a1)) w1 bk ∧
     begins (.cpyw c ty hdl dst src pair bk) (.cpyw ty) none w1 bk ∧
     begins (.cpys c ty sty rnd hdl dst src pair) (.cpys ty sty rnd) (some (Need.write, a0)) w1 none ∧
     Runs c (.cpywPut c hdl dst src pair) (fun e => e.act ≠ 0#32 ∧ e.s.freeSlot e.g.core = some slot)
       (fun e t => t = e.s.raise e.r ⟨e.pc, e.mask⟩ { code := .weightStoreWrite, mask := e.act, pc := e.pc }) ∧
     Runs c (.cpy c dir hdl dst src pair bk)
       (fun e => e.act ≠ 0#32 ∧ e.s.freeSlot e.g.core = some slot ∧ e.s.block e.r.key = some b ∧ ((a0 e).toNat % 16 ≠ 0 ∨ (a1 e).toNat % 16 ≠ 0))
       (fun e t => t = e.s.raise e.r ⟨e.pc, e.mask⟩
         { code := .misaligned, mask := e.act, addr := if (a0 e).toNat % 16 ≠ 0 then a0 e else a1 e, pc := e.pc }) ∧
     Runs c (.cpyt c .l6 hdl dst src pair bk)
       (fun e => e.act ≠ 0#32 ∧ e.s.freeSlot e.g.core = some slot ∧ e.s.block e.r.key = some b ∧
         (((w0 e).toNat / 2 ^ 16 % 512 + 1) % 32 ≠ 0 ∨ (w0 e).toNat / 2 ^ 32 % 24 ≠ 0 ∨ (w0 e).toNat / 2 ^ 31 % 2 = 1))
       (fun e t => t = e.s.raise e.r ⟨e.pc, e.mask⟩ { code := .tileShape, mask := e.act, pc := e.pc }) ∧
     DoesIf c (.cpyq c d hdl) (fun e => mine e hdl = some (slot, q))
       (fun e => e.result .b64 (.s d) (fun _ => BitVec.ofNat 64 (left q * 2 ^ 32 + code q))) ∧
     DoesIf c (.cpyq c d hdl) (fun e => mine e hdl = none) (fun e => e.result .b64 (.s d) (fun _ => 0#64)) ∧
     DoesIf c (.cpyx c hdl) (fun e => mine e hdl = none) (fun _ => noReg) ∧
     Runs c (.cpyx c hdl) (fun e => cancel e ∧ ¬ idle q)
       (fun e t => same e t ∧ GroupIs t e.r (e.g.advance e.mask e.pc) (fun _ => none) ∧
         tblGet (t.core e.g.core).slots slot = some { q with state := .cancelling }) ∧
     Runs c (.cpyx c hdl) (fun e => last e ∧ q.bk = none)
       (fun e t => same e t ∧ GroupIs t e.r (ended e) (fun _ => none) ∧ tblGet (t.core e.g.core).slots slot = none ∧
         t.block e.r.key = some { b with hz := b.hz.fold q.hz }) ∧
     Runs c (.cpyx c hdl)
       (fun e => last e ∧ q.bk = some n ∧ q.dst.toNat < 0x7FFFF000 ∧ 0 ≤ (b.bar e.g.slot n).pend - left q ∧
         (b.bar e.g.slot n).arr ≠ (b.bar e.g.slot n).tgt)
       (fun e t => same e t ∧ GroupIs t e.r (ended e) (fun _ => none) ∧ tblGet (t.core e.g.core).slots slot = none ∧
         t.block e.r.key = some { b with
           hz := b.hz.fold q.hz
           bars := tblPut b.bars (e.g.slot, n) { b.bar e.g.slot n with pend := (b.bar e.g.slot n).pend - left q } }) ∧
     Runs c (.cpyxAll c) (fun e => e.act ≠ 0#32 ∧ ((e.s.core e.g.core).slots.map Prod.fst).Nodup)
       (fun e t => SameBytes e.s t ∧ Sent e.s t [] ∧ ∀ j q, tblGet (e.s.core e.g.core).slots j = some q →
         let acts : Prop := q.g = e.r ∧ ∀ off h, q.kind ≠ .mcld off h
         (¬ acts → tblGet (t.core e.g.core).slots j = some q) ∧
         (acts → idle q → tblGet (t.core e.g.core).slots j = none) ∧
         (acts → ¬ idle q → tblGet (t.core e.g.core).slots j = some { q with state := .cancelling })) ∧
     DoesIf c (.cpyxAll c) (fun e => e.act = 0#32) (fun _ => noReg)) ∧
  (∀ (s s1 : State) (core slot u : Nat) (x : CopyCmd) (ls : List Leaf) (va : Word64) (code : FaultCode) (reason : Byte) (g : Group) (o : Op)
       (b : Block) (k : BlockKey) (sl off : Nat) (peer : Bool) (lf : Leaf) (data : LineBits) (n i w wl : Nat) (c : Ctx) (m : Nat) (ch : Chan)
       (q : Update) (old : Word64) (l : LineNo) (lease : Option Nat) (obs : ObsInfo) (bad : Bool)
       (ws : List (LineNo × Bool × LineBits × LineBits)),
     let memory : List Word64 := (x.memRanges x.next).flatMap Range.lines
     let need : Need := if x.kind.toMem then Need.write else Need.read
     let here : Prop := tblGet (s.core core).slots slot = some x ∧ ∀ z h, x.kind ≠ .mcld z h
     -- no fence that the group began before the command has yet to end (R132)
     let sends : Prop := here ∧ x.state = .running ∧ x.next < x.units ∧ s.unitsOut core < 64 ∧ s.copiesRun x.g.key = true ∧
       ∀ g, s.group x.g = some g → g.fencedBefore x.op = false
     let same (t : State) : Prop := SameGroups s t ∧ SameBytes s t
     let cmd (t : State) : Option CopyCmd := tblGet (t.core core).slots slot
     let read (y : LineNo × Bool) : Msg :=
       let r : ReadReq := { line := y.1, len := none, keep := false, bypass := y.2, core := core, ctx := x.g.key.ctx, slot := none,
                            tgt := .copy core slot x.op x.next }
       if isHost y.1 = true ∧ y.2 = true then { ch := ⟨.req, portCore core, portHome y.1⟩, body := .host r }
       else { ch := chanOut core y.1, body := .read r (goesHome core y.1) }
     let lands : Prop := here ∧ tblGet x.inFlight u = some ls ∧ s.group x.g = some g
     let landed : CopyCmd := { x with inFlight := tblDel x.inFlight u, got := x.got.filter (fun p => p.1.1 != u) }
     let write (y : LineNo × Bool × LineBits × LineBits) : Msg :=
       let z : Update := { addr := 128 * y.1, op := .put y.2.2.1 y.2.2.2 false, core := core, ctx := x.g.key.ctx, g := x.g, opId := x.op,
                           who := none, dst := none, colour := x.colour, holder := x.holder, l0 := y.2.1, va := 0#64,
                           tgt := .copy core slot x.op u }
       if goesHome core y.1 then { ch := ⟨.req, portCore core, portHome y.1⟩, body := .update z none, seq := x.op }
       else { ch := chanOut core y.1, body := .pass z, seq := x.op }
     -- the command is over: its times are the group's, its counter falls (R132)
     let ends (t : State) (h : Horizons) : Prop := cmd t = none ∧ (∀ q, q ≠ x.g → t.group q = s.group q) ∧
       GroupIs t x.g { g.without x.op with hz := g.hz.fold h } (fun _ => none)
     let ending : Prop := x.holder = none ∧ LastPart g x.op o ∧ o.arrivals = []
     let bytes : Nat := min 128 (16 * ((x.w0.setWidth 20).toNat + 1) - 128 * u)
     let at_ (y : Word64) : Word64 := y + BitVec.ofNat 64 (128 * u)
     let whole (y : Word64) : Prop := y.toNat % 128 = 0 ∧ ls = [lf] ∧ lf.flat (at_ y) % 128 = 0 ∧
       ∀ i, i < 128 → lf.covers (at_ y + BitVec.ofNat 64 i) = true ∧ lf.flat (at_ y + BitVec.ofNat 64 i) = lf.flat (at_ y) + i
     let back : Prop := Due s m ch (.updateDone q old w wl bad) ∧ q.dst = none ∧ q.tgt = .copy core slot x.op u ∧ here ∧
       s.group x.g = some g ∧ x.bk = none ∧ x.state = .running
     let timed : CopyCmd := { x with hz := x.hz.fold ⟨w, w, w, w⟩ }
     -- units are sent in order: a unit that reads memory asks for its lines
     (sends → s.unitPages core x.g.key.ctx x.colour need memory = (.ok ls, s1) →
       Happens (.unitSend core slot) s (fun t => same t ∧
         Sent s t (if x.kind.toMem then [] else (unitLines ls memory).map read) ∧
         cmd t = some { x with
           next := x.next + 1, inFlight := x.inFlight ++ [(x.next, ls)], outside := x.outside || ls.any (fun l => decide (l.place = 6)) })) ∧
     (sends → s.unitPages core x.g.key.ctx x.colour need memory = (.absent va, s1) → s.ctx x.g.key.ctx = some c → c.faults.recs.length < 4096 →
       Happens (.unitSend core slot) s (fun t => same t ∧ Sent s t [] ∧ cmd t = some { x with state := .parked va s.now } ∧
         ∃ c' r, t.ctx x.g.key.ctx = some c' ∧ c'.faults.recs = c.faults.recs ++ [r] ∧ r.kind = .replayable ∧
           r.info = { code := .pageNotPresent, mask := x.act, addr := va, pc := x.pc })) ∧
     (sends → s.unitPages core x.g.key.ctx x.colour need memory = (.fault code va reason, s1) → s.group x.g = some g → g.pendingTrap = none →
       Happens (.unitSend core slot) s (fun t => SameBytes s t ∧ cmd t = some { x with state := .failed } ∧
         t.group x.g = some { g with
           pendingTrap := some { code := code, reason := reason, mask := x.act, addr := va, pc := x.pc } })) ∧
     -- a command whose group has an earlier fence under way starts nothing
     (here → s.group x.g = some g → g.fencedBefore x.op = true → Happens (.unitSend core slot) s (fun t => t = s)) ∧
     -- a line that a unit asked for
     (Due s m ch (.loadResp core l data lease wl obs bad (.copy core slot x.op u)) → here →
       Happens (.loadResponse m) s (fun t => same t ∧ Swapped s t m [] ∧
         cmd t = some { x with got := tblPut x.got (u, l) (data, bad) })) ∧
     -- a unit lands once all its lines are there
     (lands → s.landUnit g.slot x u ls = .wait → Happens (.unitLanding core slot u) s (fun t => t = s)) ∧
     (lands → s.landUnit g.slot x u ls = .fault code → g.pendingTrap = none →
       Happens (.unitLanding core slot u) s (fun t => cmd t = some { landed with state := .failed } ∧
         t.group x.g = some { g with pendingTrap := some { code := code, mask := x.act, pc := x.pc } })) ∧
     (lands → x.kind = .cpy .inn → u < x.units → x.units = x.kind.unitCount x.w0 → whole x.src →
       tblGet x.got (u, lf.line (at_ x.src)) = some (data, false) →
       scratchAt x.g g.slot x.dst = .bytes k sl off peer → s.block k = some b → s.mem.wf = true → x.bk = none →
       (∀ i j, i < bytes → j < bytes → shareKey b sl (off + 128 * u + i) = shareKey b sl (off + 128 * u + j) → i = j) →
       x.state = .running →
       Happens (.unitLanding core slot u) s (fun t => Sent s t [] ∧
         (∀ i, i < bytes → t.mem.read (shareKey b sl (off + 128 * u + i)) = lineGet data i) ∧
         (∀ a, (∀ i, i < bytes → shareKey b sl (off + 128 * u + i) ≠ a) → t.mem.read a = s.mem.read a) ∧
         (x.next ≠ x.units ∨ landed.inFlight ≠ [] ∨ x.writing ≠ [] →
           SameGroups s t ∧ cmd t = some { landed with done := x.done + bytes }) ∧
         (x.next = x.units → landed.inFlight = [] → x.writing = [] → ending → ends t x.hz))) ∧
     -- the bytes of a unit that writes memory leave as writes of their lines, and the unit waits for the answers (R137, R218)
     (lands → s.landUnit g.slot x u ls = .writes n ws → ws ≠ [] → (s.core core).copies = [] →
       Happens (.unitLanding core slot u) s (fun t => same t ∧ Sent s t (ws.map write) ∧
         cmd t = some { landed with writing := tblPut x.writing u (ws.length, n) })) ∧
     (lands → x.kind = .cpy .out → u < x.units → x.units = x.kind.unitCount x.w0 → whole x.dst →
       scratchAt x.g g.slot x.src = .bytes k sl off peer → s.block k = some b →
       s.spPoisoned b sl (off + 128 * u) bytes = false →
       ∃ d, s.landUnit g.slot x u ls = .writes bytes [(lf.line (at_ x.dst), lf.mtype == 1, d, byteMask 0 bytes)] ∧
         ∀ i, i < bytes → lineGet d i = s.mem.read (shareKey b sl (off + 128 * u + i))) ∧
     (back → tblGet x.writing u = some (i, n) → 1 < i →
       Happens (.storeCompletion m) s (fun t => same t ∧ Swapped s t m [] ∧
         cmd t = some { timed with writing := tblPut x.writing u (i - 1, n) })) ∧
     (back → tblGet x.writing u = some (i, n) → i ≤ 1 → x.next ≠ x.units ∨ x.inFlight ≠ [] ∨ tblDel x.writing u ≠ [] →
       Happens (.storeCompletion m) s (fun t => same t ∧ Swapped s t m [] ∧
         cmd t = some { timed with writing := tblDel x.writing u, done := x.done + n })) ∧
     (back → tblGet x.writing u = some (i, n) → i ≤ 1 → x.next = x.units → x.inFlight = [] → tblDel x.writing u = [] → ending →
       Happens (.storeCompletion m) s (fun t => SameBytes s t ∧ Swapped s t m [] ∧ ends t (x.hz.fold ⟨w, w, w, w⟩))) ∧
     -- with the last unit under way a cancelled command ends (R229)
     (lands → s.landUnit g.slot x u ls = .done n s1 → SameGroups s s1 → tblGet (s1.core core).slots slot = some x → x.bk = none →
       x.state = .cancelling → landed.inFlight = [] → x.writing = [] → ending →
       Happens (.unitLanding core slot u) s (fun t => ends t x.hz)))

/-- R144, R151 to R153: MCLD takes a command slot and sends one request for each line of its range, to the line's join point; its checks
come first, in their order.

R145 to R148, R151: a request opens an entry or joins the one of its key; with its last member, or at its deadline, the line is read
once and one copy goes to each member; a copy that lands is written and counted, and with the last one the command is over.

Where the spec leaves a choice to the model, this states the choice of log 43. -/
def Obligations.Multicast : Prop :=
  (∀ (c : Ctl) (h : Hint) (dst base desc : SReg) (off : BitVec 25) (bk : Option BReg) (slot kc : Nat) (b : Block) (xl : Word64 → Xlat)
       (s1 : State),
     let d (e : Iss) : Nat := (Operand.s e dst).toNat % 2 ^ 32
     let a (e : Iss) : Word64 := Operand.s (e.nth 1) base + off.signExtend 64
     let field (e : Iss) (p n : Nat) : Nat := (Operand.s (e.nth 2) desc).toNat / 2 ^ p % 2 ^ n
     let lines (e : Iss) : Nat := field e 22 9 + 1
     let vas (e : Iss) : List Word64 := (List.range (lines e)).map (fun j => a e + BitVec.ofNat 64 (128 * j))
     let open_ (e : Iss) : Prop := e.act ≠ 0#32 ∧ e.s.freeSlot e.g.core = some slot ∧ e.s.block e.r.key = some b
     let align (e : Iss) : Prop := (a e).toNat % 128 = 0 ∧ d e % 128 = 0
     let range (e : Iss) : Prop := d e + 128 * lines e ≤ b.share ∧ ∀ n, bk = some n → n.val < b.lr.nbar
     let mapped (e : Iss) : Prop := open_ e ∧ align e ∧ range e ∧
       e.s.xlateLines e.g.core e.r.key.ctx (vas e) = ((vas e).map (fun v => (v, XlatResult.ok (xl v))), s1)
     let raised (e : Iss) (s : State) (code : FaultCode) (addr : Word64) (t : State) : Prop :=
       t = s.raise e.r ⟨e.pc, e.mask⟩ { code := code, mask := e.act, addr := addr, pc := e.pc }
     let line (v : Word64) : LineNo := (xl v).leaf.line v
     let clash (v w : Word64) : Prop := (xl v).colour ≠ 0 ∧ (xl w).colour ≠ 0 ∧ (xl v).colour ≠ (xl w).colour
     let req (e : Iss) (v : Word64) (j : Nat) : McastReq :=
       { at_ := if homeDie (line v) = dieOfCore e.g.core then .home else .gateway (dieOfCore e.g.core),
         line := line v, ctx := e.r.key.ctx, tag := field e 0 16, nm := field e 16 6, hold := field e 32 12, hint := h,
         l0 := (xl v).leaf.mtype == 1, member := ⟨e.g.core, slot, e.s.nextId, j⟩ }
     -- a line of host memory or of a peer has no join point: it is read alone (R144)
     let alone (e : Iss) (v : Word64) (j : Nat) : Msg :=
       let r : ReadReq := { line := line v, len := none, keep := false, bypass := (xl v).leaf.mtype == 1, core := e.g.core,
                            ctx := e.r.key.ctx, slot := none, tgt := .copy e.g.core slot e.s.nextId j }
       { ch := ⟨.req, portCore e.g.core, portHome (line v)⟩, body := if (xl v).leaf.mtype = 1 then .host r else .read r true }
     let asks (e : Iss) (v : Word64) (j : Nat) : Msg :=
       if isHost (line v) then alone e v j
       else { ch := ⟨.req, portCore e.g.core, (req e v j).port⟩, body := .mcast (req e v j) }
     let low (e : Iss) : Tid := (maskTids e.act).headD 0
     -- the lines have one colour, or none, beside those without one; the lowest thread holds it (R153, R341)
     let coloured (e : Iss) : Prop := (∀ v ∈ vas e, (xl v).colour = 0 ∨ (xl v).colour = kc) ∧
       (kc ≠ 0 → (∃ v ∈ vas e, (xl v).colour = kc) ∧ (e.g.thread (low e)).holds kc = true)
     let fenced (e : Iss) : Bool := e.g.fencedBefore e.s.nextId
     Runs c (.mcld c h dst base desc off bk) (fun e => mapped e ∧ coloured e)
       (fun e t => (∀ q, q ≠ e.r → t.group q = e.s.group q) ∧ SameBytes e.s t ∧
         GroupIs t e.r { e.g.advance e.mask e.pc with ops := e.g.ops ++
             [{ id := e.s.nextId, cls := .cp, kind := .global, pc := e.pc, act := e.act, parts := 1, dests := [], clobbered := [],
                ext := !fenced e && (vas e).any (fun v => isHost (line v)), cols := if kc = 0 then [] else [(low e, kc)] }] } (fun _ => none) ∧
         -- its requests leave at once, or when the group's earlier fences are over (R132)
         Sent e.s t (if fenced e then [] else (vas e).zipIdx.map (fun v => asks e v.1 v.2)) ∧
         ∃ q, tblGet (t.core e.g.core).slots slot = some q ∧ q.g = e.r ∧ q.op = e.s.nextId ∧ q.kind = .mcld 0#25 h ∧
           q.dst = BitVec.ofNat 64 (d e) ∧ q.units = lines e ∧ q.landed = [] ∧ q.bk = bk.map (fun n => n.val) ∧ q.pc = e.pc ∧ q.act = e.act ∧
           q.todo = if fenced e then (vas e).zipIdx.map (fun v => (v.2, some (line v.1, (xl v.1).leaf.mtype == 1))) else []) ∧
     Runs c (.mcld c h dst base desc off bk) (fun e => open_ e ∧ ¬ align e)
       (fun e t => raised e e.s .misaligned (if (a e).toNat % 128 ≠ 0 then a e else BitVec.ofNat 64 (d e)) t) ∧
     Runs c (.mcld c h dst base desc off bk) (fun e => open_ e ∧ align e ∧ ¬ range e)
       (fun e t => raised e e.s .scratchRange (if b.share < d e + 128 * lines e then BitVec.ofNat 64 (d e) else 0#64) t) ∧
     Runs c (.mcld c h dst base desc off bk) (fun e => mapped e ∧ ∃ v ∈ vas e, ∃ w ∈ vas e, clash v w)
       (fun e t => ∃ v ∈ vas e, ∃ w ∈ vas e, clash v w ∧ raised e s1 .colourSpan v t)) ∧
  (∀ (s : State) (m k die : Nat) (ch : Chan) (r : McastReq) (e : McastEntry) (y : SliceLine) (w : Member) (data : LineBits) (x : CopyCmd)
       (g : Group) (b : Block) (bk : BlockKey) (sl off : Nat) (peer : Bool) (o : Op),
     let lands (r : McastReq) (ms : List Member) : List Msg := ms.map (fun w =>
       { ch := ⟨.resp, portHome r.line, portCore w.core⟩, body := .mcastLand w (s.lineData r.line) (s.linePoisoned r.line) })
     let same (t : State) : Prop := SameGroups s t ∧ SameBytes s t
     let present : Prop := tblGet s.misses r.line = none ∧ tblGet s.lines r.line = some y
     let joined : McastEntry := { e with members := e.members ++ [r.member], count := e.count + 1 }
     let joins : Prop := Due s m ch (.mcast r) ∧ r.at_ = .home ∧ s.mcastWait = [] ∧ s.mcast = [(k, e)] ∧ e.req.at_ = .home ∧
       e.req.line = r.line ∧ e.req.ctx = r.ctx ∧ e.req.tag = r.tag ∧ e.closed = false ∧ e.asked = false ∧ s.now ≤ e.deadline ∧ e.members.length < 64 ∧
       r.hint ≠ .keep ∧ e.req.hint ≠ .keep
     (Due s m ch (.mcast r) → r.at_ = .home → s.mcastWait = [] → s.mcast = [] → r.nm ≠ 0 →
       Happens (.multicastRequest m) s (fun t => same t ∧ Swapped s t m [] ∧ t.mcast =
         [(s.nextId, { req := r, closed := false, asked := false, expect := r.nm + 1, deadline := s.now + 16 * r.hold, members := [r.member], count := 1 })])) ∧
     (joins → e.count + 1 ≠ e.expect → Happens (.multicastRequest m) s (fun t => same t ∧ Swapped s t m [] ∧ t.mcast = [(k, joined)])) ∧
     (joins → e.count + 1 = e.expect → present → Happens (.multicastRequest m) s (fun t => same t ∧ t.mcast = [] ∧
       Swapped s t m (lands r (e.members ++ [r.member])))) ∧
     -- where the line is missing, the closed entry waits in the line's miss entry (R143, R146)
     (joins → e.count + 1 = e.expect → tblGet s.misses r.line = none → tblGet s.lines r.line = none → s.missCount r.line < 64 →
       isHost r.line = false → Happens (.multicastRequest m) s (fun t => same t ∧ Swapped s t m [] ∧
         t.mcast = [(k, { joined with closed := true, asked := true })] ∧
         tblGet t.misses r.line = some ⟨[.mcast k], none⟩)) ∧
     -- at a gateway cache hint 101 and mtype 01 read past it, at the home (R98, R146)
     (Due s m ch (.mcast r) → r.at_ = .gateway die → r.hint = .home ∨ r.l0 = true → s.mcastWait = [] → s.mcast = [] → r.nm = 0 →
       Happens (.multicastRequest m) s (fun t => same t ∧
         t.mcast = [(s.nextId, { req := r, closed := true, asked := true, expect := 1, deadline := s.now + 16 * r.hold,
                                 members := [r.member], count := 1 })] ∧
         Swapped s t m [{ ch := ⟨.req, portGateway die (homeDie r.line), portHome r.line⟩
                          body := .read { line := r.line, len := none, keep := false, bypass := true, core := r.member.core,
                                          ctx := r.ctx, slot := none, tgt := .mcast s.nextId } true }])) ∧
     (s.mcast = [(k, e)] → e.req = r → r.at_ = .home → r.hint ≠ .keep → s.mcastWait = [] → present → e.closed = false → e.asked = false →
       Happens (.multicastDeadline k) s (fun t =>
         if e.deadline ≤ s.now then same t ∧ t.mcast = [] ∧ Sent s t (lands r e.members) else t = s)) ∧
     (Due s m ch (.mcastLand w data false) → tblGet (s.core w.core).slots w.slot = some x → x.op = w.cmd → x.isMcld = true → x.state = .running →
       x.inFlight = [] → x.writing = [] → s.group x.g = some g → x.bk = none →
       scratchAt x.g g.slot x.dst = .bytes bk sl off peer → s.block bk = some b → s.mem.wf = true →
       (∀ i j, i < 128 → j < 128 → shareKey b sl (off + 128 * w.j + i) = shareKey b sl (off + 128 * w.j + j) → i = j) →
       Happens (.multicastLanding m) s (fun t => Swapped s t m [] ∧
         (∀ i, i < 128 → t.mem.read (shareKey b sl (off + 128 * w.j + i)) = lineGet data i) ∧
         (∀ a, (∀ i, i < 128 → shareKey b sl (off + 128 * w.j + i) ≠ a) → t.mem.read a = s.mem.read a) ∧
         ((insertNew x.landed w.j).length ≠ x.units → SameGroups s t ∧
           tblGet (t.core w.core).slots w.slot = some { x with landed := insertNew x.landed w.j, done := x.done + 128 }) ∧
         ((insertNew x.landed w.j).length = x.units → x.holder = none → LastPart g x.op o → o.arrivals = [] →
           tblGet (t.core w.core).slots w.slot = none ∧ (∀ q, q ≠ x.g → t.group q = s.group q) ∧
           GroupIs t x.g { g.without x.op with hz := g.hz.fold x.hz } (fun _ => none)))))

/-- R169, R171 to R175: RECON checks its base, its lease, its pages and its region in order, and its result says which failed; a region
instruction that changes its region tells every slice, gateway cache and die and waits for their acknowledgements; RECQ reads a region's
counts as each of them answers.

R160, R168, R169: a unit that acknowledges a change knows the region's new state, and frees the entries that go with it; past its
threshold a die's count makes the region fall back.

Where the spec leaves a choice to the model, this states the choice of log 14. -/
def Obligations.Regions : Prop :=
  (∀ (c : Ctl) (d : SDst) (n : BitVec 4) (base desc : SReg) (sel : BitVec 3) (lf : Nat → Leaf) (s1 : State) (x : Ctx),
     let k := n.toNat
     let a (e : Iss) : Word64 := Operand.s e base
     let field (e : Iss) (p w : Nat) : Nat := (Operand.s (e.nth 1) desc).toNat / 2 ^ p % 2 ^ w
     let region (e : Iss) : Region := e.s.region e.r.key.ctx k
     let pages (e : Iss) : Nat := field e 0 13 + 1
     let va (e : Iss) (j : Nat) : Word64 := a e + BitVec.ofNat 64 (65536 * j)
     let frames (e : Iss) : List Nat := (List.range (pages e)).map (fun j => frameOf (lf j).place ((lf j).pByte (va e j)))
     let turn (e : Iss) : Prop := e.s.changing e.r.key.ctx = false
     let asks (e : Iss) : Prop := e.act ≠ 0#32 ∧ turn e ∧ e.s.ctx e.r.key.ctx = some x ∧ (a e).toNat % 65536 = 0 ∧ field e 16 2 ≠ 3
     let mapped (e : Iss) : Prop := asks e ∧
       e.s.pageChecks e.g.core e.r.key.ctx (a e) (pages e) = ((List.range (pages e)).map (fun j => (va e j, PageCheck.ok (lf j))), s1)
     let result (e : Iss) (v : Nat) : RegRef → Option Word64 := e.result .b64 (sdst d) (fun _ => BitVec.ofNat 64 v)
     let answers (v : Nat) (e : Iss) (t : State) : Prop := (∀ q, q ≠ e.r → t.group q = e.s.group q) ∧ SameBytes e.s t ∧ Sent e.s t [] ∧
       t.ctxs = e.s.ctxs ∧ t.recorder = e.s.recorder ∧ GroupIs t e.r (e.g.advance e.mask e.pc) (result e v)
     let no2 (e : Iss) : Prop := ∀ j, j < pages e → (lf j).rec_ = true
     let no5 (e : Iss) : Prop := ∀ f ∈ frames e, e.s.frameTaken f = false
     -- the 192 slices, the 12 gateway caches and the 4 dies are told, and the entry waits for them
     let tells (e : Iss) (state : Nat) (r : Region) (q : Change) (h : HoldKind) (val : RegRef → Option Word64) (t : State) : Prop :=
       t.region e.r.key.ctx k = r ∧ t.recorder = e.s.recorder ∧
       tblGet t.changes e.s.nextId = some { q with ctx := e.r.key.ctx, region := k, left := 208 } ∧
       (∀ q, q ≠ e.r → t.group q = e.s.group q) ∧ SameBytes e.s t ∧
       Sent e.s t ((List.range 208).map (fun unit =>
         { ch := ⟨.control, 100000 + e.r.key.ctx, 3000 + unit⟩, body := .region e.r.key.ctx k state e.s.nextId })) ∧
       ∃ g', t.group e.r = some g' ∧ (∀ y, g'.reg y = (val y).getD (e.g.reg y)) ∧ (∀ u, (g'.thread u).pc = (e.g.thread u).pc) ∧
         g'.holds = e.g.holds ++ [⟨e.mask, e.pc, h⟩]
     let changes (e : Iss) (state : Nat) (r : Region) (val : RegRef → Option Word64) (t : State) : Prop :=
       tells e state r { ctx := 0, region := 0, left := 0 } (.region e.s.nextId) val t
     let waits (i : Instr) : Prop := Runs c i (fun e => e.act ≠ 0#32 ∧ ¬ turn e)
       (fun e t => t.rest = e.s.rest ∧ (∀ q, q ≠ e.r → t.group q = e.s.group q) ∧
         ∃ g', t.group e.r = some g' ∧ (∀ y, g'.reg y = e.g.reg y) ∧ (∀ u, g'.thread u = e.g.thread u) ∧
           g'.holds = e.g.holds ++ [⟨e.mask, e.pc, .turn⟩])
     let command (i : Instr) (state : Nat) (acts : Nat → Prop) (f : Region → Region) : Prop :=
       waits i ∧ DoesIf c i (fun e => e.act = 0#32 ∨ (turn e ∧ ¬ acts (region e).state)) (fun _ => noReg) ∧
       Runs c i (fun e => e.act ≠ 0#32 ∧ turn e ∧ e.s.ctx e.r.key.ctx = some x ∧ acts (region e).state)
         (fun e t => changes e state (f (region e)) noReg t)
     let word (r : Region) : Word64 := BitVec.ofNat 64
       ((r.np + 1) * 2 ^ 32 + r.gen.toNat * 2 ^ 16 + r.dmask.toNat * 2 ^ 12 + r.lease % 4 * 2 ^ 4 + r.state % 16)
     waits (.recon c d n base desc) ∧
     DoesIf c (.recon c d n base desc) (fun e => turn e ∧ (a e).toNat % 65536 ≠ 0) (fun e => result e 3) ∧
     DoesIf c (.recon c d n base desc) (fun e => turn e ∧ (a e).toNat % 65536 = 0 ∧ field e 16 2 = 3) (fun e => result e 4) ∧
     Runs c (.recon c d n base desc) (fun e => mapped e ∧ (region e).state ≠ 0) (answers 1) ∧
     Runs c (.recon c d n base desc) (fun e => mapped e ∧ (region e).state = 0 ∧ ¬ no2 e) (answers 2) ∧
     Runs c (.recon c d n base desc) (fun e => mapped e ∧ (region e).state = 0 ∧ no2 e ∧ ¬ no5 e) (answers 5) ∧
     Runs c (.recon c d n base desc) (fun e => mapped e ∧ (region e).state = 0 ∧ no2 e ∧ no5 e)
       (fun e t => changes e 1
         { Region.closed with
           state := 1, views := (region e).views, frames := frames e, lease := field e 16 2, np := field e 0 13,
           dep := if field e 48 16 = 0 then x.recDepart.toNat else field e 48 16 } (result e 0) t) ∧
     (∀ ps code v reason, Runs c (.recon c d n base desc)
       (fun e => asks e ∧ e.s.pageChecks e.g.core e.r.key.ctx (a e) (pages e) = (ps, s1) ∧ pagesFault ps = some (code, v, reason))
       (fun e t => t = s1.raise e.r ⟨e.pc, e.mask⟩ { code := code, reason := reason, mask := e.act, addr := v, pc := e.pc })) ∧
     command (.recoff c n) 0 (fun z => z ≠ 0) (fun r => { r with state := 0 }) ∧
     command (.replay c n) 2 (fun z => z = 1 ∨ z = 3) (fun r => { r with state := 2, dmask := 0#4 }) ∧
     command (.rerec c n) 1 (fun z => z ≠ 0) (fun r => { r with state := 1, gen := r.gen + 1#16, dmask := 0#4 }) ∧
     -- RECQ of a closed region reads 0; of an open one every unit is sampled
     waits (.recq c d n sel) ∧
     DoesIf c (.recq c d n sel) (fun e => e.act = 0#32 ∨ (turn e ∧ (region e).state = 0)) (fun e => result e 0) ∧
     Runs c (.recq c d n sel) (fun e => e.act ≠ 0#32 ∧ turn e ∧ e.s.ctx e.r.key.ctx = some x ∧ (region e).state ≠ 0)
       (fun e t => tells e 4 (region e) { ctx := 0, region := 0, left := 0, sel := some sel.toNat, word := word (region e) }
         (.query e.s.nextId (sdst d)) noReg t)) ∧
  (∀ (s : State) (m ctx n state id unit die : Nat) (x : Ctx) (ch : Chan) (q : Change) (r0 : GroupRef) (g : Group) (h : Hold) (d : SReg),
     let r := s.region ctx n
     let view (r : Region) (u : Nat) : Nat := ((r.views.find? (fun y => y.1 == u)).map Prod.snd).getD 0
     let count (s : State) : RegionCount := (((s.region ctx n).counts.find? (fun y => y.1 == unit)).map Prod.snd).getD {}
     let mine (e : RecEntry) : Bool := e.ctx == ctx && e.region == n && sliceUnit e.line == unit
     let same (t : State) : Prop := SameGroups s t ∧ SameBytes s t
     let acks : Prop := Due s m ch (.region ctx n state id) ∧ ch.dst = 3000 + unit ∧ tblGet s.changes id = some q ∧ 1 ≤ q.left
     -- the unit's own part of a sampling: entries, pushes sent or discarded, departures of a die, else entries dropped
     let part (sel : Nat) : Nat := match sel with
       | 1 => s.recorder.countP mine
       | 3 => (count s).pushed
       | 4 => (count s).discarded
       | 5 => if unit % 52 = 51 then (r.departures[unit / 52]?).getD 0 else 0
       | _ => (count s).drop
     let dropped (q : Change) : Bool := q.sum != 0
     s.ctx ctx = some x →
     (acks → state ≤ 3 → q.sel = none → (state ≠ 0 ∨ q.left ≠ 1) →
       Happens (.regionChange m) s (fun t => same t ∧ Swapped s t m [] ∧
         view (t.region ctx n) unit = state ∧ (∀ u, u ≠ unit → view (t.region ctx n) u = view r u) ∧
         (t.region ctx n).state = r.state ∧ (t.region ctx n).frames = r.frames ∧
         (tblGet t.changes id).map Change.left = (if q.left = 1 then none else some (q.left - 1)) ∧
         t.recorder = s.recorder.filter (fun e => !(mine e &&
           (decide (state = 0 ∨ state = 1) || (decide (view r unit = 1) && (e.conf || e.cons.isEmpty))))) ∧
         (state = 0 ∨ state = 1 → count t = {}) ∧
         (2 ≤ state → (count t).drop = (count s).drop +
           (if view r unit = 1 then s.recorder.countP (fun e => mine e && e.conf) else 0)) ∧
         (t.region ctx n).departures = r.departures.zipIdx.map (fun z =>
           if unit = z.2 * 52 + 51 ∧ (state = 1 ∨ state = 2) then 0 else z.1))) ∧
     (acks → state = 0 → q.sel = none → q.left = 1 → Happens (.regionChange m) s (fun t => same t ∧ Swapped s t m [] ∧
       t.region ctx n = Region.closed ∧ tblGet t.changes id = none ∧ t.recorder = s.recorder.filter (fun e => !mine e))) ∧
     (acks → state = 4 → ∀ sel, q.sel = some sel → Happens (.regionChange m) s (fun t => same t ∧ Swapped s t m [] ∧
       t.ctxs = s.ctxs ∧ t.recorder = s.recorder ∧
       tblGet t.changes id = some { q with left := q.left - 1, sum := q.sum + part sel, conf := q.conf || (count s).conf })) ∧
     -- once every unit has answered the result is written, and the entry goes on
     (s.group r0 = some g → h ∈ g.holds → h.kind = .query id (.s d) → tblGet s.changes id = some q →
       (q.left ≠ 0 → s.settleHold r0 h = s) ∧
       (q.left = 0 → GroupIs (s.settleHold r0 h) r0 ({ g with holds := g.holds.filter (fun y => decide (y ≠ h)) }.advance h.mask h.pc)
         (fun y => if y = .s d then some (match q.sel with
           | some 0 => if q.word = 0#64 then 0#64 else q.word ||| BitVec.ofNat 64 ((if q.conf then 2 ^ 9 else 0) + (if dropped q then 2 ^ 8 else 0))
           | _ => BitVec.ofNat 64 q.sum) else none))) ∧
     Happens (.fallBack ctx n die) s (fun t =>
       if r.state = 2 ∧ r.dep < (r.departures[die]?).getD 0 then
         same t ∧ t.recorder = s.recorder ∧ t.region ctx n = { r with state := 3, dmask := r.dmask ||| (1#4 <<< die) } ∧
           Sent s t ((List.range 208).map (fun u =>
             { ch := ⟨.control, 100000 + ctx, 3000 + u⟩, body := .region ctx n 3 s.nextId })) ∧
           tblGet t.changes s.nextId = some { ctx := ctx, region := n, left := 208 }
       else t = s))

/-- R159, R160, R162, R165, R166: while a region records, a store makes the entry of its line and reads join it; while it replays, the
producer's store pushes the line to each consumer, under a lease from W on, and its time waits for them; other reads are departures.

R163 to R166: a push that its core cannot take is discarded, else it is installed as a copy that is usable from W on; a gateway passes
it on under a lease, or discards it; the store's time leaves with the last acknowledgement.

Where the spec leaves a choice to the model, this states the choice of logs 14 and 41. -/
def Obligations.RecordAndReplay : Prop :=
  (∀ (s : State) (m core n : Nat) (ch : Chan) (q : StoreReq) (rd : ReadReq) (y : SliceLine) (who cons : BlockSlot) (r : Region)
       (e : RecEntry) (x : Ctx),
     let unit := sliceUnit q.line
     let count (r : Region) (u : Nat) : RegionCount := ((r.counts.find? (fun y => y.1 == u)).map Prod.snd).getD {}
     let storing : Prop := Due s m ch (.store q true) ∧ tblGet s.misses q.line = none ∧ tblGet s.lines q.line = some y ∧
       q.slot = some who ∧ s.regionAt unit q.ctx q.line = some (n, r) ∧ s.ctx q.ctx = some x ∧ tblGet x.regions n = some r
     let reading : Prop := Due s m ch (.read rd true) ∧ tblGet s.misses rd.line = none ∧ tblGet s.lines rd.line = some y ∧
       rd.slot = some who ∧ s.regionAt (sliceUnit rd.line) rd.ctx rd.line = some (n, r) ∧ s.ctx rd.ctx = some x ∧ tblGet x.regions n = some r
     let w := max (max s.now (if q.l0 then 0 else y.lx) + 3) y.wl
     let len : Nat := if r.lease = 1 then 256 else if r.lease = 2 then 16384 else 2048
     let port : Nat := if dieOfCore core = homeDie q.line then portCore core else portGateway (dieOfCore core) (homeDie q.line)
     (storing → r.view unit = 1 → s.entryOf q.ctx q.line = none →
       Happens (.homeStore m) s (fun t => SameGroups s t ∧
         if (s.recorder.filter (fun e => sameSlice e.line q.line)).length < 16384 then
           t.recorder = s.recorder ++ [⟨false, n, q.ctx, q.line, who, []⟩]
         else t.recorder = s.recorder ∧ (count (t.region q.ctx n) unit).drop = (count r unit).drop + 1)) ∧
     (reading → r.view (sliceUnit rd.line) = 1 → s.entryOf rd.ctx rd.line = some e → e.prod ≠ who → who ∉ e.cons →
       Happens (.homeRead m) s (fun t => SameGroups s t ∧ SameBytes s t ∧
         if e.cons.length < 4 then
           t.recorder = s.recorder.map (fun z => if z.ctx = rd.ctx ∧ z.line = rd.line then { e with cons := e.cons ++ [who] } else z)
         else t.recorder = s.recorder ∧ (count (t.region rd.ctx n) (sliceUnit rd.line)).drop = (count r (sliceUnit rd.line)).drop + 1)) ∧
     (storing → r.view unit = 2 → s.entryOf q.ctx q.line = some e → e.prod = who → e.cons = [cons] →
       s.pushesFrom q.line = 0 → s.coreOf q.ctx cons = some core → q.via = none → q.keep = false →
       Happens (.homeStore m) s (fun t => SameGroups s t ∧
         Swapped s t m [{ ch := ⟨.resp, portHome q.line, port⟩
                          body := .push ⟨q.line, q.colour, mergeLine y.data q.data q.mask, w, len, q.ctx, n, cons, core, q.txn⟩
                            (dieOfCore core != homeDie q.line) }] ∧
         tblGet t.pushWait q.txn = some (1, { ch := ⟨.time, portHome q.line, portCore q.core⟩, body := .storeDone q.txn ⟨w, w, w, w⟩ }) ∧
         (count (t.region q.ctx n) unit).pushed = (count r unit).pushed + 1 ∧
         ∃ z, tblGet t.lines q.line = some z ∧ z.wl = w ∧ z.lx = max y.lx (w + len))) ∧
     (reading → r.view (sliceUnit rd.line) = 2 → s.entryOf rd.ctx rd.line = none →
       Happens (.homeRead m) s (fun t => SameGroups s t ∧ SameBytes s t ∧
         (t.region rd.ctx n).departures = r.departures.zipIdx.map (fun z => if z.2 = homeDie rd.line then z.1 + 1 else z.1)))) ∧
  (∀ (s : State) (m core k : Nat) (ch : Chan) (p : PushMsg) (rest : List PushMsg) (g : GwLine) (msg : Msg) (x : Ctx) (gone : Bool),
     let c := s.core p.core
     let ack (q : PushMsg) (gone : Bool) : Msg := { ch := ⟨.control, portCore q.core, portHome q.line⟩, body := .pushAck q gone }
     let takes : Prop := c.landing.length < 16 ∧ s.coreOf p.ctx p.consumer = some p.core ∧ (∀ b ∈ c.buffer, b.line ≠ p.line) ∧
       s.storeOut p.core p.line = false ∧ ∀ y, tblGet c.copies p.line = some y → y.wl < p.w
     let die := dieOfCore p.core
     let discarded (s : State) : Nat :=
       ((((s.region p.ctx p.region).counts.find? (fun y => y.1 == sliceUnit p.line)).map Prod.snd).getD {}).discarded
     let same (t : State) : Prop := SameGroups s t ∧ SameBytes s t
     -- no copy of the core is a pushed one that no load has asked for (R166)
     let unpushed : Prop := ∀ y ∈ c.copies, y.2.push = none ∧ ∀ z, y.2.older = some z → z.push = none
     let used (from_ expiry : Nat) : Prop := from_ ≤ s.nowAt core ∧ s.nowAt core + 3 < expiry
     let kept : Option OlderCopy := match tblGet c.copies p.line with
       | none => none
       | some y => if used y.from_ y.expiry then some ⟨y.data, y.expiry, y.wl, y.push⟩ else y.older.filter (fun z => decide (used 0 z.expiry))
     (Due s m ch (.push p false) →
       (takes → Happens (.pushArrival m) s (fun t => same t ∧ Swapped s t m [] ∧ (t.core p.core).landing = c.landing ++ [p])) ∧
       (¬ takes → Happens (.pushArrival m) s (fun t => same t ∧ Swapped s t m [ack p true] ∧ (t.core p.core).landing = c.landing))) ∧
     -- an older copy that is in use stays beside the new one until its lease ends (R163)
     ((s.core core).landing = p :: rest → p.core = core → unpushed → s.l1Ways core ≠ 0 →
       (∀ y, tblGet c.copies p.line = some y → y.wl < p.w) →
       Happens (.pushInstall core) s (fun t => same t ∧ Sent s t [ack p false] ∧ (t.core core).landing = rest ∧
         tblGet (t.core core).copies p.line = some
           { data := p.data, from_ := p.w, expiry := p.w + p.len, wl := p.w, push := some (p.ctx, p.region), colour := p.colour,
             used := s.now, older := kept })) ∧
     ((s.core core).landing = p :: rest → p.core = core → (∃ y, tblGet c.copies p.line = some y ∧ p.w ≤ y.wl) →
       Happens (.pushInstall core) s (fun t => same t ∧ Sent s t [ack p true] ∧ (t.core core).landing = rest ∧
         (t.core core).copies = c.copies)) ∧
     (Due s m ch (.push p true) → tblGet s.gateways (die, p.line) = some g → Happens (.pushAtGateway m) s (fun t => same t ∧
       if g.fwds = [] then
         Swapped s t m [{ ch := ⟨.resp, portGateway die (homeDie p.line), portCore p.core⟩, body := .push p false }] ∧
           tblGet t.gateways (die, p.line) = some { g with lxg := max g.lxg (p.w + p.len) }
       else Swapped s t m [ack p true])) ∧
     (Due s m ch (.pushAck p gone) → tblGet s.pushWait p.txn = some (k, msg) → s.ctx p.ctx = some x →
       Happens (.pushAck m) s (fun t => same t ∧
         discarded t = discarded s + (if gone then 1 else 0) ∧
         if k ≤ 1 then Swapped s t m [msg] ∧ tblGet t.pushWait p.txn = none
         else Swapped s t m [] ∧ tblGet t.pushWait p.txn = some (k - 1, msg))))

/-- R347, R349, R357 to R360: MNOTE and MNOTEA notify the monitors of the colours named, 0 apart; MHELD and CLRD read held entries and a
page's colour; MWAIT faults unless a thread holds exactly its colour, and waits for its release; an access to a line whose colour its
thread does not hold asks for the colour and parks, or faults where the order or the held set forbids it.

Where the spec leaves a choice to the model, this states the choice of logs 29 and 34. -/
def Obligations.ColourInstructions : Prop :=
  ∀ (c : Ctl) (col : Col) (d : VDst) (k : BitVec 3) (dd : Dst) (a : Addr) (pd : PDst) (dl : Option SReg) (h : Hint) (ty : Ty)
      (x : Tid → Xlat) (s1 : State) (u : Tid) (n : Nat),
    let notes (e : Iss) (all : Bool) : List Msg :=
      ((if col.isVec then maskTids e.act else if e.act = 0#32 then [] else [0]).filter (fun t => Operand.col e t col != 0)).map (fun t =>
        { ch := ⟨.monitor, portCore e.g.core, monPort e.r.key.ctx (Operand.col e t col)⟩
          body := .notify e.r.key.ctx (Operand.col e t col) all })
    let vec := dd.isVec || a.base.isVec || a.idx.isVec
    let low (e : Iss) : Tid := (maskTids e.act).headD 0
    let who (e : Iss) (t : Tid) : Tid := if vec then t else low e
    let addr (e : Iss) (t : Tid) : Word64 := Operand.addr e 64 t a
    let seen (e : Iss) : Prop := e.s.xlateAll e.g.core e.r.key.ctx Need.read (addr e) false (accessTids vec e.act) =
      ((accessTids vec e.act).map (fun t => (t, XlatResult.ok (x t))), s1)
    let word (e : Iss) (t : Tid) : Word64 := BitVec.ofNat 64
      ((x t).colour + (if (e.g.thread t).holds (x t).colour then 2 ^ 16 else 0) + (if (x t).leaf.cmode = 2 then 2 ^ 17 else 0))
    let name (e : Iss) (t : Tid) : Nat := Operand.col e t col
    let good (e : Iss) (t : Tid) : Prop := name e t ≠ 0 ∧ (e.g.thread t).held.map Held.colour = [name e t] ∧
      ∀ v : Tid, (e.g.boundSet t).getLsbD v.val = true → name e v = name e t
    let when_ (e : Iss) : Nat := match dl with
      | none => 0
      | some r => (Operand.s (e.nth 1) r).toNat
    let named : Option PReg := match pd with
      | .p r => some r
      | .zero => none
    -- the one thread that accesses; for a uniform access it is the lowest
    let alone (e : Iss) : Prop := (if vec then e.act = bitOf u else e.act ≠ 0#32 ∧ low e = u) ∧ (addr e u).toNat % (ty.width / 8) = 0 ∧ seen e ∧ (x u).colour = n ∧
      n ≠ 0 ∧ (e.g.thread u).holds n = false ∧ (e.g.thread u).lbk = 0
    let raised (code : FaultCode) (e : Iss) (t : State) : Prop :=
      t = s1.raise e.r ⟨e.pc, e.mask⟩ { code := code, mask := bitOf u, addr := addr e u, pc := e.pc }
    (∀ all, Runs c (if all then .mnotea c col else .mnote c col) (fun _ => True)
      (fun e t => e.Began t [] ∧ Sent e.s t (notes e all))) ∧
    Does c (.mheld c d k) (fun e => e.result .b32 (vdst d) (fun t => match (e.g.thread t).held[k.toNat]? with
      | none => 0#64
      | some y => BitVec.ofNat 64 (y.colour % 2 ^ 16 + min y.frame 0x7FFF * 2 ^ 16 + (if y.handler then 2 ^ 31 else 0)))) ∧
    Runs c (.clrd c dd a) seen (fun e t => SameBytes e.s t ∧ (∀ q, q ≠ e.r → t.group q = e.s.group q) ∧
      GroupIs t e.r (e.g.advance e.mask e.pc) (e.result .n32 dd (fun t => word e (who e t)))) ∧
    Runs c (.mwait c pd col dl) (fun e => e.act ≠ 0#32 ∧ (∀ t : Tid, e.act.getLsbD t.val = true → good e t) ∧
        ∀ b ∈ (e.s.core e.g.core).buffer, b.retrans = false ∧ b.poison = false)
      (fun e t => SameBytes e.s t ∧ (∀ q, q ≠ e.r → t.group q = e.s.group q) ∧
        ∃ g', t.group e.r = some g' ∧ (∀ y, g'.reg y = e.g.reg y) ∧ (∀ v, g'.thread v = e.g.thread v) ∧
          g'.holds = e.g.holds ++ [⟨e.mask, e.pc, .release (.mwait named (when_ e)) e.act e.act []⟩]) ∧
    Runs c (.mwait c pd col dl) (fun e => e.act.getLsbD u.val = true ∧ ¬ good e u)
      (fun e t => ∃ m : Mask, m.getLsbD u.val = true ∧ (∀ v : Tid, m.getLsbD v.val = true ↔ e.act.getLsbD v.val = true ∧ ¬ good e v) ∧
        t = e.s.raise e.r ⟨e.pc, e.mask⟩ { code := .mwaitHeld, mask := m, pc := e.pc }) ∧
    Runs c (.ldg c h ty dd a) (fun e => alone e ∧ vec = true ∧ (∀ y ∈ (e.g.thread u).held, y.colour ≤ n) ∧ (e.g.thread u).held.length < 8 ∧
        s1.grantEntry e.g.core e.r.key.ctx n = none)
      (fun e t => SameBytes s1 t ∧ (∀ q, q ≠ e.r → t.group q = s1.group q) ∧
        Sent s1 t [{ ch := ⟨.monitor, portCore e.g.core, monPort e.r.key.ctx n⟩
                     body := .acquire e.r.key.ctx n { t := ⟨e.r, u⟩, unit := bitOf u, lset := 0, index := s1.spillIndex e.r u } }] ∧
        ∃ g', t.group e.r = some g' ∧ (∀ y, g'.reg y = e.g.reg y) ∧ (g'.thread u).status = .parked (.colour n) ∧
          (g'.thread u).pc = e.pc ∧ (g'.thread u).held = (e.g.thread u).held ∧ ∀ v, v ≠ u → (g'.thread v).pc = e.onward v) ∧
    Runs c (.ldg c h ty dd a) (fun e => alone e ∧ ∃ y ∈ (e.g.thread u).held, n < y.colour) (raised .colourOrder) ∧
    Runs c (.ldg c h ty dd a) (fun e => alone e ∧ (∀ y ∈ (e.g.thread u).held, y.colour ≤ n) ∧ 8 ≤ (e.g.thread u).held.length)
      (raised .colourOverflow)

/-- R350, R351, R354, R357, R358: at its home a monitor queues a request, grants the head when it is free, and recalls a grant that is
cached; a core gives back an idle grant and marks one in use; a release keeps the largest time, hands on the colour or leaves it cached; a
notification and a deadline move waiters to the queue.

R351, R352, R353, R357, R364: a grant takes effect once its core's time has reached it: the thread holds the colour, runs, and the
copies of the colour's lines are of no more use; an MWAIT's predicate says whether a notification ended it; a grant whose thread has gone
goes back. A thread whose writes are done sends its releases, highest colour first, and then exits or waits in the monitor.

Where the spec leaves a choice to the model, this states the choice of log 34. -/
def Obligations.MonitorsGrantAndRelease : Prop :=
  (∀ (s : State) (m ctx n core gt : Nat) (ch : Chan) (w w2 o : Waiter) (r : List Waiter) (th : ThreadRef) (e : GrantEntry)
       (all : Bool) (c : Ctx),
     let x := s.monitor ctx n
     let same (t : State) : Prop := SameGroups s t ∧ SameBytes s t
     -- the monitor is `y`, whose waiters all stand in its eight hardware slots (R344)
     let becomes (t : State) (y : Monitor) : Prop := y.acq.length + y.wset.length ≤ 8 → SameBytes s t ∧
       t.monitor ctx n = { y with acq := y.acq.map (fun w => { w with hw := true }), wset := y.wset.map (fun w => { w with hw := true }) }
     let spill (i : Nat) : Nat := flatByte c.areaPlace (c.areaPfn * 65536 + 32 * w.index + i)
     let grant (w : Waiter) (gt : Nat) : Msg :=
       { ch := ⟨.monitor, monPort ctx n, portCore (s.coreOfGroup w.t.g)⟩, body := .grant ctx n w gt false }
     let moved := (x.wset.take (if all then x.wset.length else 1)).map (fun w => { w with ntf := true })
     let released : Prop := Due s m ch (.monRelease ctx n core o.t gt none) ∧ x.own = .thread o
     let stays : Prop := (s.core core).grants.length < 64 ∧ ∃ b ∈ s.blocks, b.1.ctx = ctx ∧ core ∈ b.2.cores
     (Due s m ch (.acquire ctx n w) →
       (x.own = .free → x.acq = [] → Happens (.acquireRequest m) s (fun t => SameGroups s t ∧ Swapped s t m [grant w x.g] ∧
         becomes t { x with own := .thread w })) ∧
       (x.own = .thread o → Happens (.acquireRequest m) s (fun t => SameGroups s t ∧ Swapped s t m [] ∧
         becomes t { x with acq := x.acq ++ [w] })) ∧
       -- a waiter that finds all slots taken goes to the spill area, as its record (R345)
       (x.own = .thread o → (∀ y ∈ x.acq ++ x.wset, y.hw = true) → x.acq.length + x.wset.length = 8 → w.hw = false →
         s.ctx ctx = some c → (∀ i j, i < 32 → j < 32 → spill i = spill j → i = j) → s.Tidy →
         Happens (.acquireRequest m) s (fun t => SameGroups s t ∧ Swapped s t m [] ∧ t.monitor ctx n = { x with acq := x.acq ++ [w] } ∧
           (∀ i, i < 32 → some (t.homeByte (spill i)) = (w.record 0xFFFFFFFF)[i]?) ∧
           ∀ a, (∀ i, i < 32 → spill i ≠ a) → t.homeByte a = s.homeByte a)) ∧
       (x.own = .cached core → Happens (.acquireRequest m) s (fun t => SameGroups s t ∧
         Swapped s t m [{ ch := ⟨.monitor, monPort ctx n, portCore core⟩, body := .recall ctx n core }] ∧
         becomes t { x with own := .recalled core, acq := x.acq ++ [w] }))) ∧
     (Due s m ch (.recall ctx n core) → s.grantEntry core ctx n = some e →
       Happens (.recall m) s (fun t => same t ∧
         if e.user = none then
           Swapped s t m [{ ch := ⟨.monitor, portCore core, monPort ctx n⟩, body := .grantReturn ctx n core e.g }] ∧
             t.grantEntry core ctx n = none
         else Swapped s t m [] ∧ t.grantEntry core ctx n = some { e with recalled := true })) ∧
     (Due s m ch (.grantReturn ctx n core gt) →
       Happens (.grantReturn m) s (fun t => SameGroups s t ∧
         match x.acq with
         | [] => Swapped s t m [] ∧ becomes t { x with own := .free, g := max x.g gt }
         | w :: r => Swapped s t m [grant w (max x.g gt)] ∧ becomes t { x with own := .thread w, acq := r, g := max x.g gt })) ∧
     -- a release hands the colour on; with nobody waiting it stays cached at the releasing core, where there is room (R354)
     (released → x.acq = w :: r → Happens (.monitorRelease m) s (fun t => SameGroups s t ∧ Swapped s t m [grant w (max x.g gt)] ∧
       becomes t { x with own := .thread w, acq := r, g := max x.g gt })) ∧
     (released → x.acq = [] → stays → Happens (.monitorRelease m) s (fun t => SameGroups s t ∧ Swapped s t m [] ∧
       becomes t { x with own := .cached core, g := max x.g gt } ∧
       t.grantEntry core ctx n = some { user := none, lset := 0, recalled := false, g := max x.g gt, stamp := s.now })) ∧
     (released → x.acq = [] → (s.core core).grants.length < 64 → ¬ stays →
       Happens (.monitorRelease m) s (fun t => SameGroups s t ∧ Swapped s t m [] ∧
         becomes t { x with own := .free, g := max x.g gt } ∧ ∀ k, t.core k = s.core k)) ∧
     (Due s m ch (.monRelease ctx n core o.t gt none) → (∀ o', x.own = .thread o' → o'.t ≠ o.t) →
       Happens (.monitorRelease m) s (fun t => same t ∧ Swapped s t m [] ∧ t.monitors = s.monitors)) ∧
     -- the release of an MWAIT, with its entry into the wait set, in one step (R357)
     (Due s m ch (.monRelease ctx n core o.t gt (some w2)) → x.own = .thread o → x.acq = w :: r → (w2.dl = 0 ∨ s.now < w2.dl) →
       Happens (.monitorRelease m) s (fun t => SameGroups s t ∧ Swapped s t m [grant w (max x.g gt)] ∧
         becomes t { own := .thread w, acq := r, wset := x.wset ++ [w2], g := max x.g gt })) ∧
     (Due s m ch (.monRelease ctx n core o.t gt (some w2)) → x.own = .thread o → x.acq = [] → (w2.dl = 0 ∨ s.now < w2.dl) → stays →
       Happens (.monitorRelease m) s (fun t => SameGroups s t ∧ Swapped s t m [] ∧
         becomes t { own := .cached core, acq := [], wset := x.wset ++ [w2], g := max x.g gt })) ∧
     (Due s m ch (.notify ctx n all) → x.own = .thread o →
       (x.wset ≠ [] → Happens (.notification m) s (fun t => SameGroups s t ∧ Swapped s t m [] ∧
         becomes t { x with acq := x.acq ++ moved, wset := x.wset.drop (if all then x.wset.length else 1) })) ∧
       (x.wset = [] → Happens (.notification m) s (fun t => same t ∧ Swapped s t m [] ∧ t.monitors = s.monitors))) ∧
     (x.own = .thread o → x.wset.find? (fun y => y.t == th) = some w → w.dl ≠ 0 →
       Happens (.mwaitDeadline ctx n th) s (fun t =>
         if w.dl ≤ s.now then SameGroups s t ∧ Sent s t [] ∧
           becomes t { x with acq := x.acq ++ [w], wset := x.wset.filter (fun y => decide (y ≠ w)) }
         else t = s))) ∧
  (∀ (s : State) (m ctx n gt fr dl : Nat) (ch : Chan) (w : Waiter) (g : Group) (pd : Option PReg) (hd loc : Bool) (pc : Word64)
       (hs : List Held) (y : Held),
     let th := g.thread w.t.tid
     let u := w.t.tid
     let copies (s : State) (l : LineNo) : Option L1Copy := tblGet (s.core g.core).copies l
     let simple : Prop := s.group w.t.g = some g ∧ th.lbk = 0 ∧ g.inHandler = false ∧ w.unit = bitOf u ∧
       ∀ y ∈ (s.core g.core).copies, y.2.colour = n → y.2.push = none ∧ ∀ z, y.2.older = some z → z.push = none
     let others (t : State) : Prop := SameBytes s t ∧ (∀ q, q ≠ w.t.g → t.group q = s.group q)
     let gets (val : RegRef → Option Word64) (f : Nat) (handler : Bool) (t : State) : Prop :=
       others t ∧ Swapped s t m [] ∧
       (∀ l z, copies t l = some z → z.colour ≠ n) ∧
       (((s.core g.core).copies.map Prod.fst).Nodup → ∀ l z, copies s l = some z → z.colour ≠ n → copies t l = some z) ∧
       ∃ g', t.group w.t.g = some g' ∧ (∀ r, g'.reg r = (val r).getD (g.reg r)) ∧ (∀ v, v ≠ u → (g'.thread v).pc = (g.thread v).pc ∧
           (g'.thread v).status = (g.thread v).status) ∧
         (g'.thread u).status = .running ∧ (g'.thread u).pc = th.pc ∧ g'.ob = g.ob.fold ⟨gt, gt, gt, gt⟩ ∧
         (∀ z, z ∈ (g'.thread u).held ↔ z = ⟨n, f, handler, 0, u⟩ ∨ (z ∈ th.held ∧ z.colour ≠ n))
     let release (z : Held) (wait : Option Waiter) : Msg :=
       { ch := ⟨.monitor, portCore g.core, monPort w.t.g.key.ctx z.colour⟩
         body := .monRelease w.t.g.key.ctx z.colour g.core w.t z.hzc wait }
     let done : Prop := simple ∧ (∀ z ∈ th.held, z.hzc ≤ s.nowAt g.core) ∧ s.txns = [] ∧ (s.core g.core).buffer = [] ∧ g.ops = [] ∧
       (s.core g.core).grants = [] ∧
       (th.held.map Held.colour).Pairwise (fun x y => x < y) ∧ (∀ z ∈ th.held, z.owner = u) ∧
       ∀ v, v ≠ u → ∀ z ∈ (g.thread v).held, z.owner ≠ u
     let mine (op : RelOp) : Prop := g.holds = [⟨bitOf u, pc, .release op (bitOf u) (bitOf u) []⟩]
     (Due s m ch (.grant ctx n w gt loc) →
       (simple → th.status = .parked (.colour n) → gt ≤ s.nowAt g.core →
         Happens (.grant m) s (gets noReg th.fdep false)) ∧
       (simple → th.status = .parked (.mwait n pd fr hd) → gt ≤ s.nowAt g.core →
         Happens (.grant m) s (gets (fun r => match r with
           | .p v k => if v = u ∧ pd = some k ∧ k.val ≠ 15 then some (boolWord w.ntf) else none
           | _ => none) fr hd)) ∧
       (s.group w.t.g = some g → th.isExited = false → s.nowAt g.core < gt → Happens (.grant m) s (fun t => t = s)) ∧
       (s.hasThread w.t = false → Happens (.grant m) s (fun t => SameGroups s t ∧ SameBytes s t ∧
         Swapped s t m (if loc then [] else
           [{ ch := ⟨.monitor, portCore (s.coreOfGroup w.t.g), monPort ctx n⟩, body := .monRelease ctx n (s.coreOfGroup w.t.g) w.t gt none }])))) ∧
     (done → mine .exit → th.held = hs →
       Happens (.colourRelease w.t) s (fun t => others t ∧ Sent s t (hs.reverse.map (fun z => release z none)) ∧
         ∃ g', t.group w.t.g = some g' ∧ (∀ r, g'.reg r = g.reg r) ∧ (∀ v, v ≠ u → g'.thread v = g.thread v) ∧
           (g'.thread u).status = .exited ∧ (g'.thread u).held = [] ∧ (g'.thread u).fdep = 0 ∧ g'.holds = [])) ∧
     (done → mine (.mwait pd dl) → th.held = [y] →
       Happens (.colourRelease w.t) s (fun t => others t ∧
         Sent s t [release y (some { t := w.t, unit := bitOf u, lset := 0, dl := dl, mwait := true, index := s.spillIndex w.t.g u })] ∧
         ∃ g', t.group w.t.g = some g' ∧ (∀ r, g'.reg r = g.reg r) ∧ (∀ v, v ≠ u → g'.thread v = g.thread v) ∧
           (g'.thread u).status = .parked (.mwait y.colour pd y.frame y.handler) ∧ (g'.thread u).held = [] ∧
           (g'.thread u).pc = nextSlot pc ∧ g'.holds = [])))

/-- R290 to R292, R304, R310 to R313: TSHP gives a tile register its shape and the lowest free run of granules, cleared, or faults; TWAIT
waits for the group's requests of the streams named, TFENCE for its scratchpad stores; TGANG.on joins the block's gang, TGANG.off ends it. -/
def Obligations.TileRegisters : Prop :=
  ∀ (c : Ctl) (ty : Ty) (td tc : TReg) (rows cols : SReg) (mask : BitVec 8) (b : Block) (num q : Nat),
    let cl := b.cluster
    let table (e : Iss) := (e.s.cluster cl).table
    let ready (e : Iss) : Prop := e.act ≠ 0#32 ∧ e.s.block e.r.key = some b
    let r (e : Iss) : Nat := (Operand.s e rows).toNat
    let n (e : Iss) : Nat := (Operand.s (e.nth 1) cols).toNat
    let quiet (e : Iss) : Prop := ∀ x ∈ table e, x.1 = e.r.key → td ∉ x.2.kind.writes ++ x.2.kind.reads
    let legal (e : Iss) : Prop := 1 ≤ r e ∧ r e ≤ 512 ∧ 1 ≤ n e ∧ n e ≤ 512 ∧ (ty = .l6 → n e % 32 = 0)
    let geo (e : Iss) : TileGeo := ⟨ty, r e, n e⟩
    let ng (e : Iss) : Nat := ((geo e).size + 4095) / 4096
    let free (e : Iss) (k : Nat) : Prop := k + ng e ≤ 1024 ∧ ∀ y ∈ (e.s.cluster cl).tiles, y.1 ≠ (e.r.key, td.val) →
      y.2.ng = 0 ∨ k + ng e ≤ y.2.base ∨ y.2.base + y.2.ng ≤ k
    let goes (e : Iss) (t : State) : Prop := (∀ q, q ≠ e.r → t.group q = e.s.group q) ∧ Sent e.s t [] ∧
      ∃ g', t.group e.r = some g' ∧ (∀ x, g'.reg x = e.g.reg x) ∧ (∀ u, (g'.thread u).pc = e.onward u) ∧ g'.bare = e.g.bare
    let tiles (e : Iss) (t : State) : Prop := ∀ k m, (k, m) ≠ (e.r.key, td) → t.tile cl k m = e.s.tile cl k m
    let raised (code : FaultCode) (e : Iss) (t : State) : Prop :=
      t = e.s.raise e.r ⟨e.pc, e.mask⟩ { code := code, mask := e.act, pc := e.pc }
    let waits (h : List Nat → HoldKind) (ids : Iss → Nat → Prop) (e : Iss) (t : State) : Prop := (∀ q, q ≠ e.r → t.group q = e.s.group q) ∧
      ∃ g' l, t.group e.r = some g' ∧ (∀ x, g'.reg x = e.g.reg x) ∧ (∀ u, g'.thread u = e.g.thread u) ∧
        g'.holds = e.g.holds ++ [⟨e.mask, e.pc, h l⟩] ∧ ∀ i, i ∈ l ↔ ids e i
    let streams (e : Iss) (i : Nat) : Prop := (∃ o ∈ e.g.ops, o.id = i) ∧
      ∃ x ∈ table e, mask.getLsbD x.2.stream = true ∧ (e.r, i) ∈ x.2.posters
    let scratch (e : Iss) (i : Nat) : Prop := ∃ o ∈ e.g.ops, o.id = i ∧ o.kind = .scratch ∧ o.cls = .st
    let naming (e : Iss) (i : Nat) : Prop := ∃ x ∈ table e, x.1 = e.r.key ∧ td ∈ x.2.kind.writes ++ x.2.kind.reads ∧ x.2.id = i
    let loops (e : Iss) (i : Nat) : Prop := ∃ x ∈ table e, x.1 = e.r.key ∧ x.2.gang ≠ none ∧ x.2.id = i
    let gang (e : Iss) : Option Gang := tblGet e.s.gangs (gangKey e.r.key num)
    let x (e : Iss) : TileReg := e.s.tile cl e.r.key tc
    -- an entry that has waited for the requests it met goes on, whatever has been posted since
    let runs (i : Instr) (pre : Bool → Iss → Prop) (post : Iss → State → Prop) : Prop :=
      i.wellFormed = true → ∀ (s : State) (k : Cur) (g : Group), Issues s c k g → pre (s.marked HoldKind.isTable) (issueOf s c k g) →
        ∃ t, exec i s = .next t ∧ post (issueOf s c k g) t
    runs (.tshp c ty td rows cols)
      (fun waited e => ready e ∧ td.val < b.lr.ntile ∧ (waited = true ∨ quiet e) ∧ legal e ∧ e.s.mem.wf = true ∧ ∃ k, free e k)
      (fun e t => goes e t ∧ tiles e t ∧ ∃ k, free e k ∧ (∀ j, j < k → ¬ free e j) ∧
        t.tile cl e.r.key td = ⟨ty, r e, n e, k, ng e, false⟩ ∧
        (∀ i, i < (geo e).size → t.mem.read (tileKey cl (4096 * k + i)) = if ty = .l6 ∧ 2048 ≤ i % 2112 then 0x7F#8 else 0#8) ∧
        ∀ a, (a < tileKey cl (4096 * k) ∨ tileKey cl (4096 * k) + (geo e).size ≤ a) → t.mem.read a = e.s.mem.read a) ∧
    runs (.tshp c ty td rows cols)
      (fun waited e => ready e ∧ td.val < b.lr.ntile ∧ (waited = true ∨ quiet e) ∧ r e = 0 ∧ n e = 0)
      (fun e t => goes e t ∧ tiles e t ∧ t.mem = e.s.mem ∧ (t.tile cl e.r.key td).rows = 0 ∧ (t.tile cl e.r.key td).ng = 0) ∧
    Runs c (.tshp c ty td rows cols) (fun e => ready e ∧ b.lr.ntile ≤ td.val) (raised .tileAlloc) ∧
    runs (.tshp c ty td rows cols)
      (fun waited e => ready e ∧ td.val < b.lr.ntile ∧ (waited = true ∨ quiet e) ∧ ¬ legal e ∧ (r e ≠ 0 ∨ n e ≠ 0))
      (raised .tileShape) ∧
    runs (.tshp c ty td rows cols)
      (fun waited e => ready e ∧ td.val < b.lr.ntile ∧ (waited = true ∨ quiet e) ∧ legal e ∧ ∀ k, ¬ free e k) (raised .tileAlloc) ∧
    -- a register that a request of the block names waits for the request (R304)
    runs (.tshp c ty td rows cols) (fun waited e => ready e ∧ td.val < b.lr.ntile ∧ waited = false ∧ ¬ quiet e) (waits .table naming) ∧
    DoesIf c (.twait c mask) (fun e => ready e ∧ ∀ i, ¬ streams e i) (fun _ => noReg) ∧
    Runs c (.twait c mask) (fun e => ready e ∧ ∃ i, streams e i) (waits .ops streams) ∧
    DoesIf c (.tfence c) (fun e => ready e ∧ ∀ i, ¬ scratch e i) (fun _ => noReg) ∧
    Runs c (.tfence c) (fun e => ready e ∧ ∃ i, scratch e i) (waits .ops scratch) ∧
    Runs c (.tgangOn c tc) (fun e => ready e ∧ tc.val < b.lr.ntile ∧ b.gang = some (num, q) ∧
        ∀ g, gang e = some g → tblGet g.members q = none ∧ ∀ m ∈ g.members, m.2.reg.ty = (x e).ty ∧ m.2.reg.rows = (x e).rows ∧
          m.2.reg.cols = (x e).cols)
      (fun e t => goes e t ∧ t.mem = e.s.mem ∧ tblGet t.gangs (gangKey e.r.key num) = some (match gang e with
        | none => ⟨e.s.nextId, [(q, ⟨tc, x e, 0, []⟩)]⟩
        | some g => { g with members := tblPut g.members q ⟨tc, x e, 0, []⟩ })) ∧
    Runs c (.tgangOn c tc) (fun e => ready e ∧ b.lr.ntile ≤ tc.val) (raised .tileAlloc) ∧
    Runs c (.tgangOn c tc) (fun e => ready e ∧ tc.val < b.lr.ntile ∧ (b.gang = none ∨ (b.gang = some (num, q) ∧
        ∃ g, gang e = some g ∧ (tblGet g.members q ≠ none ∨ ∃ m ∈ g.members, m.2.reg.ty ≠ (x e).ty ∨ m.2.reg.rows ≠ (x e).rows ∨
          m.2.reg.cols ≠ (x e).cols)))) (raised .tileShape) ∧
    runs (.tgangOff c) (fun waited e => ready e ∧ waited = false ∧ ∃ i, loops e i) (waits .table loops) ∧
    runs (.tgangOff c)
      (fun waited e => ready e ∧ b.gang = some (num, q) ∧ (waited = true ∨ ∀ y ∈ table e, y.1 = e.r.key → y.2.gang = none))
      (fun e t => goes e t ∧ t.mem = e.s.mem ∧ tblGet t.gangs (gangKey e.r.key num) = none) ∧
    runs (.tgangOff c) (fun waited e => ready e ∧ b.gang = none ∧ (waited = true ∨ ∀ y ∈ table e, y.1 = e.r.key → y.2.gang = none))
      (fun e t => Wrote e.s t e.r e.g noReg e.onward)

/-- R293, R296, R299, R302, R303, R305 to R309, R326 to R328: a request that passes its checks takes an entry of the engine's table with
its stream, priority and number of posts, and becomes an operation of its group, which waits for it (TLD, TST, TZERO, TCVT) or goes on
(MMA, MLOOP, TDRAIN); the checks fault in their order. -/
def Obligations.MatrixRequests : Prop :=
  ∀ (c : Ctl) (ty : Ty) (st : Fin 8) (pri : Fin 4) (rd : Rnd) (td ta tb : TReg) (sa dst desc : SReg) (rq : Rq) (op : DrainOp)
      (bk : Option BReg) (b : Block) (xl : Word64 → Xlat) (s1 : State),
    let cl := b.cluster
    let tile (e : Iss) (n : TReg) : TileReg := e.s.tile cl e.r.key n
    let ready (e : Iss) : Prop := e.act ≠ 0#32 ∧ e.s.block e.r.key = some b
    let named (e : Iss) (l : List TReg) : Prop := ∀ n ∈ l, n.val < b.lr.ntile ∧ (tile e n).rows ≠ 0
    let room (e : Iss) (stream : Nat) : Prop := (e.s.cluster cl).table.length < 32 ∧
      ∀ x ∈ (e.s.cluster cl).table, x.1 = e.r.key → x.2.stream = stream ∧ x.2.need ≤ x.2.posts
    let span (e : Iss) (a : Word64) (lo hi : Int) : Prop := a.toNat % 64 = 0 ∧ spanBad b e.r e.g.slot a lo hi = false ∧
      scratchGone e.s e.g.core (scratchAt e.r e.g.slot a) = false
    let whole (e : Iss) (n : TReg) (a : Word64) : Prop := span e a 0 (tile e n).size
    let posted (i : Instr) (k : ReqKind) (waits : Bool) (stream p need : Nat) (val : Iss → List Word64) (g0 : Iss → BitVec 16)
        (leaves : Iss → List Leaf) (cls : OpClass) (ok : OpKind) (pre : Iss → Prop) : Prop :=
      Runs c i (fun e => ready e ∧ named e (k.writes ++ k.reads) ∧ room e stream ∧ pre e) (fun e t =>
        (∀ q, q ≠ e.r → t.group q = e.s.group q) ∧ t.mem = e.s.mem ∧ Sent e.s t [] ∧
        (t.cluster cl).table = (e.s.cluster cl).table ++ [(e.r.key,
          { id := e.s.nextId + 1, kind := k, word := i, stream := stream, pri := p, need := need, posts := 1,
            posters := [(e.r, e.s.nextId)], first := e.r, pc := e.pc, act := e.act, val := val e, step := 0, g0 := g0 e,
            phase := .queued, since := none, raced := [], clash := [], gang := none, leaves := leaves e, colour := 0,
            holder := none })] ∧
        ∃ g', t.group e.r = some g' ∧ (∀ x, g'.reg x = e.g.reg x) ∧
          g'.ops = e.g.ops ++ [{ id := e.s.nextId, cls := cls, kind := ok, pc := e.pc, act := e.act, parts := 1, dests := [],
                                 clobbered := [], ext := false, cols := [] }] ∧
          (∀ u, (g'.thread u).pc = if waits then (e.g.thread u).pc else e.onward u) ∧
          g'.holds = e.g.holds ++ if waits then [⟨e.mask, e.pc, .ops [e.s.nextId]⟩] else [])
    let raised (code : FaultCode) (a : Iss → Word64) (e : Iss) (t : State) : Prop :=
      t = e.s.raise e.r ⟨e.pc, e.mask⟩ { code := code, mask := e.act, addr := a e, pc := e.pc }
    let product (e : Iss) : Prop := (tile e ta).ty = (tile e tb).ty ∧ accTy (tile e ta).ty = some (tile e td).ty ∧
      (tile e ta).cols = (tile e tb).cols ∧ (tile e td).rows = (tile e ta).rows ∧ (tile e td).cols = (tile e tb).rows ∧ td ≠ ta ∧ td ≠ tb
    let unit (e : Iss) : Nat := match (tile e ta).ty with
      | .l6 | .s8 => 32
      | .f16 | .bf16 => 16
      | _ => 1
    let w0 (e : Iss) : Word64 := Operand.s (e.nth 1) desc
    let w1 (e : Iss) : Word64 := Operand.s (e.nth 1) (SReg.up desc 1)
    let inc (e : Iss) (p : Nat) : BitVec 32 := (w0 e).extractLsb' p 32
    let steps (e : Iss) : Nat := (w1 e).toNat / 2 ^ 48 + 1
    let bar (e : Iss) (p : Nat) : Nat := (w1 e).toNat / 2 ^ p % 128
    let barOk (e : Iss) (p : Nat) : Prop := bar e p = 127 ∨ bar e p < b.lr.nbar
    let run (e : Iss) (a : Word64) (i : BitVec 32) (n : TReg) : Prop := i.toNat % 64 = 0 ∧
      span e a (min 0 ((steps e - 1 : Nat) * i.toInt)) (max 0 ((steps e - 1 : Nat) * i.toInt) + (tile e n).size)
    let none16 (_ : Iss) : BitVec 16 := 0#16
    let noLeaf (_ : Iss) : List Leaf := []
    let bars : Prop := ∀ k, bk = some k → k.val < b.lr.nbar
    let va (e : Iss) : Word64 := Operand.s e dst
    let ds (e : Iss) : Word64 := Operand.s (e.nth 1) desc
    let w (e : Iss) : Nat := (tile e ta).geo.w
    let touched (e : Iss) : List Word64 :=
      let q := drainShape (tile e ta) (ds e)
      if q.2 = 0 then [] else drainTouched (va e) (ds e) (w e) q.1 q.2
    posted (.tld c st td sa) (.tld td) true st.val 0 1 (fun e => [Operand.s e sa]) none16 noLeaf .none .global
      (fun e => whole e td (Operand.s e sa)) ∧
    posted (.tst c st sa ta) (.tst ta) true st.val 0 1 (fun e => [Operand.s e sa]) none16 noLeaf .none .global
      (fun e => whole e ta (Operand.s e sa)) ∧
    posted (.tzero c st td) (.tzero td) true st.val 0 1 (fun _ => []) none16 noLeaf .none .global (fun _ => True) ∧
    posted (.tcvt c ty st rd td ta) (.tcvt rd td ta) true st.val 0 1 (fun _ => []) none16 noLeaf .none .global
      (fun e => td ≠ ta ∧ (tile e td).rows = (tile e ta).rows ∧ (tile e td).cols = (tile e ta).cols ∧ (tile e td).ty = ty) ∧
    posted (.mma c rq td ta tb) (.mma td ta tb) false rq.st.val rq.pri.val (rq.j1.toNat + 1) (fun _ => []) none16 noLeaf .tl .global
      product ∧
    posted (.mloop c rq td ta tb sa desc) (.mloop td ta tb) false rq.st.val rq.pri.val (rq.j1.toNat + 1)
      (fun e => [Operand.s e sa, Operand.s e (SReg.up sa 1), w0 e, w1 e])
      (fun e => if bar e 41 = 127 then 0#16 else (b.bar e.g.slot (bar e 41)).gen) noLeaf .tl .global
      (fun e => b.gang = none ∧ product e ∧ ta ≠ tb ∧ (tile e ta).cols % unit e = 0 ∧ run e (Operand.s e sa) (inc e 32) ta ∧
        run e (Operand.s e (SReg.up sa 1)) (inc e 0) tb ∧ barOk e 41 ∧ barOk e 34) ∧
    posted (.tdrain c op .spad st pri dst ta desc bk) (.tdrain op .spad ta (bk.map (fun k => k.val))) false st.val pri.val 1
      (fun e => [va e, ds e]) none16 noLeaf .tl .global
      (fun e => whole e ta (va e) ∧ bars ∧ ((tile e ta).ty = .l6 → op = .wr)) ∧
    posted (.tdrain c op .mem st pri dst ta desc bk) (.tdrain op .mem ta (bk.map (fun k => k.val))) false st.val pri.val 1
      (fun e => [va e, ds e]) none16 (fun e => ((touched e).map (fun a => (xl a).leaf)).dedup) .tl .other
      (fun e => bars ∧ (tile e ta).ty ≠ .l6 ∧ (va e).toNat % w e = 0 ∧ (ds e).toNat / 2 ^ 32 % w e = 0 ∧
        e.s.xlateWrites e.g.core e.r.key.ctx (touched e) = ((touched e).map (fun a => (a, XlatResult.ok (xl a))), s1) ∧
        (∀ a ∈ touched e, (xl a).colour = 0) ∧ (e.s.core e.g.core).buffer = []) ∧
    Runs c (.tld c st td sa) (fun e => ready e ∧ b.lr.ntile ≤ td.val) (raised .tileAlloc (fun _ => 0#64)) ∧
    Runs c (.tld c st td sa) (fun e => ready e ∧ td.val < b.lr.ntile ∧ (tile e td).rows = 0) (raised .tileShape (fun _ => 0#64)) ∧
    Runs c (.tld c st td sa) (fun e => ready e ∧ named e [td] ∧ (Operand.s e sa).toNat % 64 ≠ 0)
      (raised .misaligned (fun e => Operand.s e sa)) ∧
    Runs c (.mma c rq td ta tb) (fun e => ready e ∧ named e [td, ta, tb] ∧ ¬ product e) (raised .tileShape (fun _ => 0#64))

/-- R295, R297, R299, R304 to R309, R326: a pass is granted to the entry of highest priority that is eligible, the oldest among equals; a
TLD reads its bytes as its pass begins; at its end a pass has cleared, stored, converted or accumulated, the request leaves the table and its
operation ends, an MLOOP with steps to make goes back to the queue, and a drain has sent its updates.

R101, R326, R328 to R331: a drain's update writes, adds to or replaces by the larger each element at its line's place in the order of its
home, or in the share; its time is in the horizons of the posting groups and of the block, and with the last update the operation ends.

Where the spec leaves a choice to the model, this states the choice of logs 6 and 22. -/
def Obligations.MatrixPassesAndDrains : Prop :=
  (∀ (s : State) (cl since : Nat) (k k2 key : BlockKey) (r r2 : Request) (b b2 : Block) (gr : GroupRef) (op : Nat) (g : Group) (o : Op)
       (td ta tb : TReg) (a dst w0 w1 : Word64) (rd : Rnd) (slot off : Nat) (peer : Bool) (dop : DrainOp) (bk : Option Nat) (i j : Nat),
     let tile (n : TReg) : TileReg := s.tile cl k n
     let idle : Prop := (s.cluster cl).busy = none ∧ (s.cluster cl).enabled = true
     let waits (k : BlockKey) (r : Request) (b : Block) : Prop := s.block k = some b ∧ b.status = .running ∧ r.phase = .queued ∧
       r.need ≤ r.posts ∧ r.gang = none ∧ (∀ x y z, r.kind ≠ .mloop x y z)
     -- the posted priority rises by one for each 4,096 engine cycles since the entry became eligible (R295)
     let eff (r : Request) : Nat := match r.since with
       | none => min 3 r.pri
       | some x => min 3 (r.pri + (s.now - x) * 33 / 10 / 4096)
     let granted (t : State) (r : Request) : Prop := (t.cluster cl).busy = some (r.id, s.now)
     let inShare : Prop := scratchAt r.first g.slot a = .bytes key slot off peer ∧ s.group r.first = some g
     let busy : Prop := (s.cluster cl).busy = some (r.id, since) ∧ s.request? cl r.id = some (k, r) ∧ r.raced = [] ∧ r.clash = [] ∧
       r.posters = [(gr, op)] ∧ s.group gr = some g ∧ LastPart g op o ∧ o.arrivals = [] ∧ r.gang = none ∧ s.mem.wf = true ∧
       s.poison = [] ∧ ∀ n ∈ r.kind.reads, (tile n).undef = false
     let ended (t : State) : Prop := t.request? cl r.id = none ∧ (t.cluster cl).busy = none ∧ Sent s t [] ∧
       (∀ q, q ≠ gr → t.group q = s.group q) ∧ GroupIs t gr (g.without op) noReg
     let inTile (x : TileReg) : Prop := i < x.rows ∧ j < x.cols
     let value (x : TileReg) : Word64 := (s.tileElem cl x i j).x
     let pair (m : Nat) : Elem × Elem := (s.tileElem cl (tile ta) i m, s.tileElem cl (tile tb) j m)
     let summed (rows cols : Nat) (t : State) : Prop := inTile (tile td) →
       (t.tileElem cl (tile td) i j).x = if i < rows ∧ j < cols then
           ((reduce (tile ta).ty (value (tile td)) ((List.range (tile ta).cols).map pair)).setWidth 32).setWidth 64
         else value (tile td)
     let acc : Prop := accTy (tile ta).ty = some (tile td).ty ∧ (tile td).rows ≤ 512 ∧ (tile td).cols ≤ 512
     (idle → (s.cluster cl).table = [(k, r)] → waits k r b →
       (r.kind = .tzero td ∨ r.kind = .tst ta ∨ r.kind = .tcvt rd td ta ∨ r.kind = .mma td ta tb →
         Happens (.passGrant cl) s (fun t => granted t r ∧ (t.cluster cl).table = [(k, { r with phase := .granted, since := none })] ∧
           SameGroups s t ∧ t.mem = s.mem ∧ Sent s t [])) ∧
       (r.kind = .tld td → r.val = [a] → inShare → s.spPoisoned b slot off (tile td).size = false → s.mem.wf = true →
         Happens (.passGrant cl) s (fun t => granted t r ∧ SameGroups s t ∧ Sent s t [] ∧
           t.tileBytes cl (tile td) = s.spRead b slot off (tile td).size))) ∧
     (idle → (s.cluster cl).table = [(k, r), (k2, r2)] → (k, r.stream) ≠ (k2, r2.stream) → waits k r b → waits k2 r2 b2 → r.id ≠ r2.id →
       Happens (.passGrant cl) s (fun t => granted t (if eff r < eff r2 then r2 else r))) ∧
     (idle → (s.cluster cl).table = [] → Happens (.passGrant cl) s (fun t => t = s)) ∧
     (busy →
       (r.kind = .tld td → Happens (.passEnd ⟨cl, .none⟩) s (fun t => ended t ∧ t.mem = s.mem)) ∧
       (r.kind = .tzero td → Happens (.passEnd ⟨cl, .none⟩) s (fun t => ended t ∧ t.tileBytes cl (tile td) = (tile td).clear)) ∧
       (r.kind = .tst ta → r.val = [a] → s.block k = some b → inShare →
         (∀ x y, x < (tile ta).size → y < (tile ta).size → shareKey b slot (off + x) = shareKey b slot (off + y) → x = y) →
         Happens (.passEnd ⟨cl, .none⟩) s (fun t => ended t ∧ t.spRead b slot off (tile ta).size = s.tileBytes cl (tile ta))) ∧
       (r.kind = .tcvt rd td ta → (tile td).ty ≠ .l6 → (tile td).rows = (tile ta).rows → (tile td).cols = (tile ta).cols →
         inTile (tile td) → Happens (.passEnd ⟨cl, .none⟩) s (fun t => ended t ∧
           (t.tileElem cl (tile td) i j).x.setWidth (tile td).ty.width =
             (convertTo (tile td).ty rd 127 (valueOf (tile ta).ty (s.tileElem cl (tile ta) i j).scale (value (tile ta)))).setWidth
               (tile td).ty.width)) ∧
       (r.kind = .mma td ta tb → acc → Happens (.passEnd ⟨cl, .none⟩) s (fun t => ended t ∧ summed 512 512 t)) ∧
       (r.kind = .mloop td ta tb → r.val = [a, dst, w0, w1] → acc → Happens (.passEnd ⟨cl, .none⟩) s (fun t =>
         summed (w1.toNat / 2 ^ 16 % 1024) (w1.toNat % 1024) t ∧
         if w1.toNat / 2 ^ 48 ≤ r.step then ended t
         else (t.cluster cl).busy = none ∧ SameGroups s t ∧
           t.request? cl r.id = some (k, { r with step := r.step + 1, phase := .queued }))) ∧
       (r.kind = .tdrain dop .spad ta bk → r.val = [a, w0] → inShare → (tile ta).ty ≠ .l6 → Happens (.passEnd ⟨cl, .none⟩) s (fun t =>
         t.mem = s.mem ∧ SameGroups s t ∧ (t.cluster cl).busy = none ∧ t.request? cl r.id = some (k, { r with phase := .draining 1 }) ∧
         Sent s t [{ ch := ⟨.scratch, 9000 + cl, slot⟩
                     body := .drain key cl r.id slot off dop (tile ta).ty
                       ((s.drainElems cl (tile ta) w0).map (fun y => ((tile ta).geo.at_ y.1 y.2.1, y.2.2))) false }])) ∧
       -- a drain to memory leaves as one update for each line (R326)
       (r.kind = .tdrain dop .mem ta bk → r.val = [a, w0] → s.group r.first = some g → (s.core g.core).copies = [] →
         let lines := drainLines r.leaves ((s.drainElems cl (tile ta) w0).map (fun y => (drainAddr a w0 (tile ta).geo.w y.1 y.2.1, y.2.2)))
         let upd (y : LineNo × Bool × List (Nat × Word64)) : Update :=
           { addr := 128 * y.1, op := .drain dop (tile ta).ty y.2.2, core := g.core, ctx := k.ctx, g := r.first, opId := 0, who := none,
             dst := none, colour := r.colour, holder := r.holder, l0 := y.2.1, va := 0#64, tgt := .drain cl r.id }
         lines ≠ [] → (∀ y ∈ lines, isPeer y.1 = false) → Happens (.passEnd ⟨cl, .none⟩) s (fun t =>
           t.mem = s.mem ∧ SameGroups s t ∧ (t.cluster cl).busy = none ∧
           t.request? cl r.id = some (k, { r with phase := .draining lines.length }) ∧
           Sent s t (lines.map (fun y => if goesHome g.core y.1 then { ch := ⟨.req, portCore g.core, portHome y.1⟩, body := .update (upd y) none }
             else { ch := chanOut g.core y.1, body := .pass (upd y) })))) ∧
       -- an error in tile data that a pass reads is its poster's (R316)
       (r.kind = .mma td ta tb → r.first = gr → g.pendingTrap = none → Happens (.passEnd ⟨cl, .uncorrectable⟩) s (fun t =>
         ∃ g', t.group gr = some g' ∧ g'.pendingTrap = some { code := .eccUncorrectable, mask := r.act, pc := r.pc })))) ∧
  (∀ (s : State) (m cl id : Nat) (ch : Chan) (u : Update) (op : DrainOp) (ty : Ty) (els : List (Nat × Word64)) (k key : BlockKey)
       (r : Request) (b : Block) (y : SliceLine) (gr : GroupRef) (o : Op) (g : Group) (n opId slot off x x2 wt wl : Nat) (v v2 old : Word64)
       (ta : TReg) (begun : Bool),
     let w := ty.width / 8
     let l := u.addr / 128
     let done (t : State) (g1 : Group) : Prop := (∀ q, q ≠ gr → t.group q = s.group q) ∧
       if n ≤ 1 then t.request? cl id = none ∧ GroupIs t gr { g1 with ops := g1.ops.filter (fun o => o.id != opId) } noReg
       else t.request? cl id = some (k, { r with phase := .draining (n - 1) }) ∧ GroupIs t gr g1 noReg
     let mine : Prop := s.request? cl id = some (k, r) ∧ r.id = id ∧ r.phase = .draining n ∧ r.posters = [(gr, opId)] ∧ r.holder = none ∧
       r.clash = [] ∧ s.group gr = some g ∧ LastPart g opId o ∧ o.arrivals = []
     let w1 := max (max s.now (if u.l0 then 0 else y.lx) + 3) y.wl
     let new : LineBits := els.foldl (fun z e =>
       mergeLine z (placeBytes e.1 ((drainValue op ty ((fieldOf z e.1 w).setWidth 64) e.2).setWidth 128)) (byteMask e.1 w)) y.data
     let word (x : Nat) : Word64 := leBits 64 (s.spRead b slot (off + x) w)
     let scratch (els : List (Nat × Word64)) : Prop := Due s m ch (.drain key cl id slot off op ty els begun) ∧
       (begun = true ∨ s.portBusy (.bytes key slot 0 true) = false) ∧ s.block key = some b ∧ s.spPoisoned b slot (off + x) w = false ∧
       s.mem.wf = true ∧ ∀ i j, i < w → j < w → shareKey b slot (off + x + i) = shareKey b slot (off + x + j) → i = j
     (Due s m ch (.update u none) → u.op = .drain op ty els → tblGet s.misses l = none → tblGet s.lines l = some y →
       Happens (.drainUpdate m) s (fun t => SameGroups s t ∧
         (∃ old, Swapped s t m [{ ch := ⟨.resp, portHome l, portCore u.core⟩, body := .updateDone u old w1 y.wl (op != .wr && y.poison) }]) ∧
         (∀ a, t.homeByte a = if a / 128 = l then lineGet (mergeLine y.data new (elemBytes w els).2) (a % 128) else s.homeByte a) ∧
         ∃ z, tblGet t.lines l = some z ∧ z.wl = w1)) ∧
     (Due s m ch (.updateDone u old wt wl false) → u.dst = none → u.tgt = .drain cl id → mine →
       Happens (.storeCompletion m) s (fun t => Swapped s t m [] ∧ SameBytes s t ∧ done t { g with hz := g.hz.fold ⟨wt, wt, wt, wt⟩ } ∧
         ∀ b, s.block k = some b → t.block k = some { b with hz := b.hz.fold ⟨wt, wt, wt, wt⟩ })) ∧
     -- a drain to scratchpad goes word by word; nothing else is done at its port meanwhile
     (scratch [(x, v)] → mine → r.kind = .tdrain op .spad ta none →
       Happens (.drainUpdate m) s (fun t => Swapped s t m [] ∧ done t g ∧
         t.spRead b slot (off + x) w = leBytes w (drainValue op ty (word x) v).toNat)) ∧
     (scratch [(x, v), (x2, v2)] → (off + x) / 4 ≠ (off + x2) / 4 → s.request? cl id = some (k, r) →
       Happens (.drainUpdate m) s (fun t => SameGroups s t ∧
         t.net[m]?.map Msg.body = some (.drain key cl id slot off op ty [(x2, v2)] true) ∧
         t.spRead b slot (off + x) w = leBytes w (drainValue op ty (word x) v).toNat ∧
         t.portBusy (.bytes key slot 0 true) = true)))

/-- R393, R402 to R404, R406: QPUSH adds a record where there is room, QPOP takes the oldest and then acquires, or waits, or answers 0, and
faults on a closed empty queue where it names no predicate; QSTAT reads a queue or the block's weight; LAUNCH makes a launch of a record that
passes the checks. The forms here act for one thread, whose release is over.

R401, R402: a node bin launches its template for the records it has once they are enough, or its timer has run out; a template that the
checks refuse leaves them waiting; a record in the backing moves into the store as there is room.

Where the spec leaves a choice to the model, this states the choice of logs 23, 31 and 32. -/
def Obligations.QueuesAndBins : Prop :=
  (∀ (c : Ctl) (ok : PDst) (q : SReg) (a : VS) (d : Dst) (sel try_ : Bool) (u : Tid) (b b2 : Block) (key : BlockKey) (slot off : Nat)
       (peer : Bool) (r : QRec) (rs : List QRec) (x : Xlat) (s1 : State) (lr : LaunchRec) (runs : List (Nat × Nat)) (back : Bool) (k : Nat),
     let n (e : Iss) : Nat := (Operand.s e q).toNat % 2 ^ 16
     let queue (e : Iss) : Queue := e.s.queue e.r.key.ctx (n e)
     let open_ (e : Iss) (kinds : List Nat) : Prop := (∃ y, e.s.ctx e.r.key.ctx = some y ∧ n e < y.qcount) ∧ (queue e).kind ∈ kinds
     let one (e : Iss) : Prop := e.act = bitOf u ∧ (e.g.thread u).lbk = 0 ∧ e.s.block e.r.key = some b
     let bytes (e : Iss) : Nat := 16 * ((queue e).rsz + 1)
     let sa (e : Iss) : Word64 := Operand.vs (e.nth 1) 32 u a
     let place (e : Iss) : Prop := (sa e).toNat % 16 = 0 ∧ scratchAt e.r e.g.slot (sa e) = .bytes key slot off peer ∧
       scratchBad b false (bytes e) (sa e) (.bytes key slot off peer) = false ∧ scratchGone e.s e.g.core (.bytes key slot off peer) = false ∧
       e.s.block key = some b2
     let released (e : Iss) : Prop := e.g.ops = [] ∧ max e.g.hz.dev e.g.ob.dev ≤ e.s.nowAt e.g.core ∧ (e.s.core e.g.core).buffer = []
     let oks (v : Bool) : RegRef → Option Word64 := fun y => match ok, y with
       | .p i, .p w j => if w = u ∧ i = j ∧ i.val ≠ 15 then some (boolWord v) else none
       | _, _ => none
     let others (e : Iss) (t : State) : Prop := (∀ z, z ≠ e.r → t.group z = e.s.group z) ∧ Sent e.s t []
     let goes (e : Iss) (v : Bool) (t : State) : Prop := others e t ∧ GroupIs t e.r (e.g.advance e.mask e.pc) (oks v)
     let push (e : Iss) : Prop := one e ∧ open_ e [1] ∧ (queue e).cl = false ∧ place e ∧ released e ∧ b.phase = none ∧
       e.s.spPoisoned b2 slot off (bytes e) = false
     let pop (e : Iss) : Prop := one e ∧ open_ e [1] ∧ place e
     let va (e : Iss) : Word64 := Operand.vs (e.nth 1) 64 u a
     let launches (e : Iss) : Prop := one e ∧ open_ e [3] ∧ (queue e).cl = false ∧ (va e).toNat % 128 = 0 ∧ released e ∧ b.phase = none ∧
       e.s.xlateAll e.g.core e.r.key.ctx Need.read (fun _ => va e) false [u] = ([(u, XlatResult.ok x)], s1)
     let read (e : Iss) := s1.readLaunch e.r.key.ctx ((List.range 128).map (fun i => s1.firmByte (x.leaf.flat (va e) + i))) false
     let sound (e : Iss) : Prop := s1.linePoisoned (x.leaf.flat (va e) / 128) = false
     Runs c (.qpush c ok q a) (fun e => push e ∧ (∀ y ∈ (queue e).recs, y.backing = false) ∧ e.s.storeUsed (n e % 4) < 4096 ∧
         (queue e).poppers = [])
       (fun e t => goes e true t ∧ t.mem = e.s.mem ∧ t.queue e.r.key.ctx (n e) =
         { queue e with
           recs := (queue e).recs ++ [⟨e.s.spRead b2 slot off (bytes e), 0, none, false, e.s.now⟩] }) ∧
     Runs c (.qpush c ok q a) (fun e => push e ∧ 4096 ≤ e.s.storeUsed (n e % 4) ∧
         (queue e).bcap ≤ ((queue e).recs.filter (fun y => y.backing)).length)
       (fun e t => goes e false t ∧ t.mem = e.s.mem ∧ t.queues = e.s.queues) ∧
     Runs c (.qpush c ok q a) (fun e => one e ∧ open_ e [1, 2] ∧ (queue e).cl = true)
       (fun e t => t = e.s.raise e.r ⟨e.pc, e.mask⟩ { code := .queueClosed, mask := e.act, pc := e.pc }) ∧
     Runs c (.qpop c try_ ok q a) (fun e => pop e ∧ (queue e).recs = r :: rs ∧ (e.s.core e.g.core).buffer = [] ∧ e.s.mem.wf = true ∧
         ∀ i j, i < r.bytes.length → j < r.bytes.length → shareKey b2 slot (off + i) = shareKey b2 slot (off + j) → i = j)
       (fun e t => others e t ∧ t.queue e.r.key.ctx (n e) = { queue e with recs := rs } ∧ t.spRead b2 slot off r.bytes.length = r.bytes ∧
         ∃ g' f, t.group e.r = some g' ∧ (∀ y, g'.reg y = (oks true y).getD (e.g.reg y)) ∧ (∀ v, (g'.thread v).pc = (e.g.thread v).pc) ∧
           g'.holds = e.g.holds ++ [⟨e.mask, e.pc, .after f⟩] ∧ f.kind = .acq ∧ f.scope = .dev) ∧
     Runs c (.qpop c try_ ok q a) (fun e => pop e ∧ (queue e).recs = [] ∧
         ((queue e).cl = false ∧ try_ = true ∨ (queue e).cl = true ∧ ok ≠ .zero))
       (fun e t => goes e false t ∧ t.mem = e.s.mem ∧ t.queues = e.s.queues) ∧
     Runs c (.qpop c try_ ok q a) (fun e => pop e ∧ (queue e).recs = [] ∧ (queue e).cl = true ∧ ok = .zero)
       (fun e t => t = e.s.raise e.r ⟨e.pc, e.mask⟩ { code := .queueClosed, mask := e.act, pc := e.pc }) ∧
     Runs c (.qpop c false ok q a) (fun e => pop e ∧ (queue e).recs = [] ∧ (queue e).cl = false)
       (fun e t => others e t ∧
         t.queue e.r.key.ctx (n e) = { queue e with poppers := (queue e).poppers ++ [(⟨e.r, u⟩, bitOf u)] } ∧
         ∃ g', t.group e.r = some g' ∧ (∀ y, g'.reg y = e.g.reg y) ∧ (g'.thread u).pc = nextSlot e.pc ∧
           (g'.thread u).status = .parked (.qpop (n e) (sa e) (match ok with
             | .p i => some i
             | .zero => none)) ∧
           ∀ v, v ≠ u → (g'.thread v).pc = e.onward v ∧ (g'.thread v).status = (e.g.thread v).status) ∧
     DoesIf c (.qstat c d q sel) (fun e => e.act ≠ 0#32 ∧ e.s.block e.r.key = some b ∧ open_ e [0, 1, 2, 3])
       (fun e => e.result (if d.isVec then .b32 else .b64) d (fun _ => BitVec.ofNat 64
         (if sel then b.weight
          else e.s.queuePend e.r.key.ctx (n e) * 2 ^ 32 + (if (queue e).cl then 8 else 0) + (queue e).kind))) ∧
     Runs c (.qstat c d q sel) (fun e => e.act ≠ 0#32 ∧ ∃ y, e.s.ctx e.r.key.ctx = some y ∧ y.qcount ≤ n e)
       (fun e t => t = e.s.raise e.r ⟨e.pc, e.mask⟩ { code := .queueClosed, mask := e.act, pc := e.pc }) ∧
     Runs c (.launch c ok q a) (fun e => launches e ∧ sound e ∧ read e = .ok (lr, runs) ∧
         s1.launchRoom e.r.key.ctx (n e) (dieOfCore e.g.core) (queue e) = some back)
       (fun e t => goes e true t ∧ t.mem = e.s.mem ∧ t.queue e.r.key.ctx (n e) = { queue e with seq := (queue e).seq + 1 } ∧
         (lr.root = true → tblGet t.phases e.s.nextId = some ⟨2 ^ 62, e.r.key.ctx, lr.csig, lr.cval, 0, false⟩) ∧
         tblGet t.launches e.s.nextId = some
           { ctx := e.r.key.ctx, q := some (n e), seq := (queue e).seq, tag := e.s.freeTag e.r.key.ctx,
             lr := { lr with wgt := if lr.root then 2 ^ 62 else 0 }, lrAddr := va e, runs := runs, origin := .device (dieOfCore e.g.core),
             weight := if lr.root then 2 ^ 62 else 0, next := [0, 0, 0, 0], placed := 0, retired := 0, lastBlk := 0,
             preambled := !lr.wpre, records := [], phase := if lr.root then some e.s.nextId else none, stamp := e.s.nextId,
             backing := back }) ∧
     Runs c (.launch c ok q a) (fun e => launches e ∧ sound e ∧ read e = .error k)
       (fun e t => goes e false t ∧ t.mem = e.s.mem ∧ t.launches = e.s.launches) ∧
     -- a poisoned record faults, of a launch (R67) and of a push (R411)
     Runs c (.launch c ok q a) (fun e => launches e ∧ ¬ sound e)
       (fun e t => t = s1.raise e.r ⟨e.pc, e.mask⟩ { code := .eccUncorrectable, mask := e.act, addr := va e, pc := e.pc }) ∧
     Runs c (.qpush c ok q a) (fun e => one e ∧ open_ e [1] ∧ (queue e).cl = false ∧ place e ∧ e.s.spPoisoned b2 slot off (bytes e) = true)
       (fun e t => t = e.s.raise e.r ⟨e.pc, e.mask⟩ { code := .eccUncorrectable, mask := e.act, pc := e.pc })) ∧
  (∀ (s : State) (ctx q k : Nat) (bs : List Byte) (lr : LaunchRec) (runs : List (Nat × Nat)) (on rest : List QRec) (r : QRec),
     let x := s.queue ctx q
     let due : Prop := x.kind = 2 ∧ x.recs ≠ [] ∧ x.error = none ∧
       (x.ncoal ≤ x.recs.length ∨ (x.timer ≠ 0 ∧ ∃ y, x.recs.head? = some y ∧ y.since + x.timer ≤ s.now))
     let same (t : State) : Prop := SameGroups s t ∧ SameBytes s t ∧ Sent s t []
     let n := min x.ncoal x.recs.length
     (¬ due → Happens (.nodeBinTimer ctx q) s (fun t => t = s)) ∧
     (due → s.launchesUsed (q % 4) < 64 → s.firmBytes ctx x.tmpl 128 = some bs →
       (s.readLaunch ctx bs false = .ok (lr, runs) → lr.nblk = 1 → x.ncoal * (16 * (x.rsz + 1)) ≤ lr.scr → lr.root = false →
         Happens (.nodeBinTimer ctx q) s (fun t => same t ∧
           t.queue ctx q = { x with recs := x.recs.drop n } ∧
           ∃ l, tblGet t.launches s.nextId = some l ∧ l.ctx = ctx ∧ l.q = none ∧ l.lr = { lr with wgt := l.weight } ∧
             l.records = (x.recs.take n).map QRec.bytes ∧ l.weight = ((x.recs.take n).map QRec.weight).sum ∧
             l.origin = .device (q % 4) ∧ l.placed = 0)) ∧
       (s.readLaunch ctx bs false = .error k →
         Happens (.nodeBinTimer ctx q) s (fun t => same t ∧ t.launches = s.launches ∧ t.queue ctx q = { x with error := some k }))) ∧
     (x.kind ≠ 3 → x.recs = on ++ r :: rest → (∀ y ∈ on, y.backing = false) → r.backing = true →
       Happens (.recordMoveBack ctx q) s (fun t =>
         if s.storeUsed (q % 4) < 4096 then same t ∧ t.queue ctx q = { x with recs := on ++ { r with backing := false } :: rest }
         else t = s)))

/-- R118, R177 to R179, R396 to R399, R407, R408: a distributor places the next unit of its launches where cores admit it: the block's share
reads zero, and its groups start as R399 says; a distributor with nothing of its own to place takes another's oldest unit; a preamble copies
its bytes to the weight store and ends the copies there; cores and engines are enabled in turn, scores count by windows, and a die without a
block becomes idle, and leaves that state for work.

Where the spec leaves a choice to the model, this states the choice of logs 23 and 45. -/
def Obligations.Distribution : Prop :=
  ∀ (s : State) (die core id u ctx q seq : Nat) (l : Launch) (base : Nat) (gs : List GroupSeat) (c : Ctx) (f : Nat → Nat),
    let d := s.die die
    let key : BlockKey := ⟨l.ctx, l.tag, u⟩
    let tags : Prop := ∀ x ∈ s.launches, x.2.tag < 65536
    let n := s.now * 33 / 10 / 4096
    let k := s.core core
    let own : Prop := tags ∧ d.idle = false ∧ s.resumes die = false ∧ s.gridsOf die = [] ∧ s.pick die false = some (id, l, u) ∧
      s.seats l.lr die = some [([core], [⟨base, gs⟩])]
    let stolen : Prop := tags ∧ s.placeable die = false ∧ s.resumes ((die + 1) % 4) = false ∧ s.pick ((die + 1) % 4) true = some (id, l, u) ∧
      s.seats l.lr die = some [([core], [⟨base, gs⟩])]
    let sound : Prop := l.lr.gang = false ∧ l.records = [] ∧ (gs.map GroupSeat.grp).Nodup ∧ tblGet s.launches id = some l ∧ s.mem.wf = true
    let placed (t : State) : Prop :=
      (∃ b, t.block key = some b ∧ b.launch = id ∧ b.lr = l.lr ∧ b.cores = [core] ∧ b.status = .running ∧ b.bars = [] ∧
        b.share = l.lr.spread.2 ∧ b.weight = blockWeight l.weight l.lr.nblk u ∧ b.phase = l.phase ∧
        ∀ i, i < b.share → t.mem.read (shareKey b 0 i) = 0#8) ∧
      (∀ x ∈ gs, ∃ g, t.group ⟨key, x.grp⟩ = some g ∧ g.core = core ∧ g.lane = x.lane ∧ g.role = x.role ∧ g.budget = x.budget ∧
        g.inHandler = false ∧ g.trapBase = 0#64 ∧ g.ops = [] ∧ g.hz = {} ∧ g.ob = {} ∧
        (∀ r, g.reg r = match r with
          | .v _ _ => 0#64
          | .s m => if m.val = 0 then l.lr.param else 0#64
          | .p _ m => if m.val = 15 then 1#64 else 0#64) ∧
        ∀ v, g.thread v = Thread.launched l.lr.entry) ∧
      (∀ r, r.key ≠ key → t.group r = s.group r) ∧ ∃ y, tblGet t.launches id = some y ∧ y.placed = l.placed + 1
    (own → sound → Happens (.blockPlacement die) s placed) ∧
    (tags → d.idle = true → s.resumes die = true ∨ s.gridWaits = true ∨ (s.pick die false).isSome = true →
      Happens (.blockPlacement die) s (fun t => SameGroups s t ∧ t.blocks = s.blocks ∧ (t.die die).idle = false ∧
        (t.die die).coresOn = 0 ∧ (t.die die).enginesOn = 0)) ∧
    (stolen → sound → Happens (.steal die) s placed) ∧
    (tags → s.placeable die = true → Happens (.steal die) s (fun t => t = s)) ∧
    (s.launches.find? (fun x => x.2.ctx == ctx && x.2.q == some q && x.2.seq == seq) = some (id, l) → tblGet s.launches id = some l →
      s.ctx ctx = some c → l.preambled = false → s.itsTurn l = true → (∀ b ∈ s.blocks, b.1.ctx ≠ ctx) → (∀ b ∈ s.saved, b.1.ctx ≠ ctx) →
      l.lr.wdst + l.lr.wlen ≤ 2 ^ 32 → s.mem.wf = true →
      (∀ i, i < l.lr.wlen → (∃ r ∈ c.ws, r.1 ≤ l.lr.wdst + i ∧ l.lr.wdst + i < r.1 + r.2) ∧ f i < 2 ^ 58 ∧ isPeer (f i / 128) = false ∧
        ∀ m p n, (∀ a, a < 2 ^ 58 → m.read a = s.mem.read a) →
          ({ s with mem := m, poison := p, fresh := n } : State).firmFlat ctx (l.lr.wsrc + BitVec.ofNat 64 i) = some (f i)) →
      Happens (.preamble ctx q seq) s (fun t => SameGroups s t ∧ (∀ k, (t.core k).weights = []) ∧
        (∀ i, i < l.lr.wlen → t.mem.read (weightKey ((l.lr.wdst + i) / 2 ^ 30) ((l.lr.wdst + i) % 2 ^ 30)) = s.homeByte (f i)) ∧
        ∃ y, tblGet t.launches id = some y ∧ y.preambled = true)) ∧
    Happens (.scoreWindow core) s (fun t =>
      if n ≤ k.window then t = s
      else SameGroups s t ∧ t.core core = { k with lastScore := if n = k.window + 1 then k.score else 0, score := 0, window := n }) ∧
    Happens (.coreEnable die) s (fun t =>
      if d.idle = true ∨ 192 ≤ d.coresOn ∨ (d.coresOn ≠ 0 ∧ s.now < d.lastEnable + 100) then t = s
      else SameGroups s t ∧ (t.die die).coresOn = d.coresOn + 8 ∧ (t.die die).lastEnable = s.now ∧
        (∀ j, j < 8 → (t.core (die * 192 + d.coresOn + j)).enabled = true) ∧
        ∀ j, j < die * 192 + d.coresOn ∨ die * 192 + d.coresOn + 8 ≤ j → t.core j = s.core j) ∧
    Happens (.engineEnable die) s (fun t =>
      if d.idle = true ∨ 48 ≤ d.enginesOn ∨ (d.enginesOn ≠ 0 ∧ s.now < d.lastEngine + 25) then t = s
      else SameGroups s t ∧ (t.die die).enginesOn = d.enginesOn + 1 ∧ (t.die die).lastEngine = s.now ∧
        (t.cluster (die * 48 + d.enginesOn)).enabled = true) ∧
    Happens (.dieIdle die) s (fun t =>
      if d.idle = true ∨ s.dieEmpty die = false ∨ s.now < d.emptySince + 100000 then t = s
      else SameGroups s t ∧ (t.die die).idle = true ∧ (∀ j, dieOfCore j = die → (t.core j).enabled = false) ∧
        ∀ j, dieOfCluster j = die → (t.cluster j).enabled = false)

/-- R137, R313, R324, R364, R400, R414, R415, R424, R425: a group whose threads have all exited leaves once its operations are over and its
times have passed; a block retires with its last group, or terminates, and its launch counts it; a dying block has 2^20 ticks; the watchdog
faults the thread that waits inside the machine once its context's count has reached the limit.

Where the spec leaves a choice to the model, this states the choice of log 34. -/
def Obligations.GroupsAndBlocksEnd : Prop :=
  ∀ (s : State) (r : GroupRef) (k : BlockKey) (g : Group) (b : Block) (since ctx : Nat) (l : Launch) (c : Ctx) (u : Tid) (w : Wait),
    let left : Prop := s.group r = some g ∧ s.block r.key = some b ∧ g.alive = 0#32 ∧ g.leaving = false ∧ g.pendingTrap = none ∧
      (s.core g.core).buffer = []
    let passed : Prop := g.ops = [] ∧ max g.hz.dev g.ob.dev ≤ s.nowAt g.core
    let gone (t : State) : Prop := t.block k = none ∧ (∀ q, q.key = k → t.group q = none) ∧ (∀ q, q.key ≠ k → t.group q = s.group q) ∧
      ∃ y, tblGet t.launches b.launch = some y ∧ y.retired = l.retired + 1 ∧ y.lastBlk = k.blk
    let idle : Prop := (∀ j ∈ b.cores, ∀ x ∈ (s.core j).slots, x.2.g.key ≠ k) ∧ (∀ x ∈ (s.cluster b.cluster).table, x.1 ≠ k)
    let counted : Prop := s.block k = some b ∧ b.gang = none ∧ b.phase = none ∧ tblGet s.launches b.launch = some l ∧
      l.retired + 1 < l.lr.nblk
    let bare (x : Group) : Prop := x.ops = [] ∧ x.pendingTrap = none ∧ (∀ v, (x.thread v).held = []) ∧ (s.core x.core).buffer = []
    let internal : Prop := w = .sleep none ∨ w = .barrier 0 0 false
    (left → passed → (∃ x ∈ s.groups, x.1.key = r.key ∧ x.1 ≠ r ∧ x.2.leaving = false) → Happens (.groupExitRelease r) s (fun t =>
      (∀ q, q ≠ r → t.group q = s.group q) ∧ t.blocks = s.blocks ∧
        t.group r = some { g with leaving := true, pool := [], holds := [], savedHolds := [] })) ∧
    (left → passed → s.Tidy → (∀ x ∈ s.groups, x.1.key = r.key → x.1 ≠ r → x.2.leaving = true) → (∀ x ∈ (s.cluster b.cluster).table, x.1 ≠ r.key) →
      s.copiesOf r.key = [] → b.phase = none → Happens (.groupExitRelease r) s (fun t => (∀ q, q ≠ r → t.group q = s.group q) ∧
        t.block r.key = some { b with weight := 0 } ∧
        t.group r = some { g with leaving := true, pool := [], holds := [], savedHolds := [] })) ∧
    (left → (g.ops.any (fun o => o.cls == .ld || o.cls == .st) = true ∨ s.nowAt g.core < max g.hz.dev g.ob.dev) →
      Happens (.groupExitRelease r) s (fun t => t = s)) ∧
    (left → (∀ x ∈ s.groups, x.1.key = r.key → x.1 ≠ r → x.2.leaving = true) → s.copiesOf r.key ≠ [] →
      Happens (.groupExitRelease r) s (fun t => t = s)) ∧
    (counted → b.status = .running → (∀ x ∈ s.groups, x.1.key = k → x.2.leaving = true) → idle → b.hz.dev ≤ s.now →
      Happens (.blockRetirement k) s gone) ∧
    (s.block k = some b → s.now < b.hz.dev → Happens (.blockRetirement k) s (fun t => t = s)) ∧
    (counted → b.status = .terminating → idle → (∀ x ∈ s.groups, x.1.key = k → bare x.2) →
      Happens (.termination k) s (fun t => gone t ∧
        (∀ i n, ∀ x ∈ (t.monitor i n).acq ++ (t.monitor i n).wset, x.t.g.key ≠ k) ∧
        ∀ i n, ∀ x ∈ (t.queue i n).poppers, x.1.g.key ≠ k)) ∧
    (s.block k = some b → b.status = .dying since → Happens (.dyingTimeout k) s (fun t =>
      if since + 2 ^ 20 ≤ s.now then SameGroups s t ∧ t.block k = some { b with status := .terminating } else t = s)) ∧
    (s.ctx ctx = some c → s.now < c.wdogFrom + (if c.wdog = 0#64 then 2 ^ 30 else c.wdog.toNat) →
      Happens (.watchdog ctx) s (fun t => t = s)) ∧
    (s.ctx r.key.ctx = some c → c.wdogFrom + (if c.wdog = 0#64 then 2 ^ 30 else c.wdog.toNat) ≤ s.now → s.wdogHeld r.key.ctx = false →
      s.groups = [(r, g)] → s.blocks = [(r.key, b)] → (∀ x ∈ (s.cluster b.cluster).table, x.1 ≠ r.key) →
      (g.thread u).status = .parked w → (g.thread u).deadline = none → internal → (∀ v, v ≠ u → (g.thread v).isExited = true) →
      Happens (.watchdog r.key.ctx) s (fun t => t = (s.modCtx r.key.ctx (fun c => { c with wdogFrom := s.now })).fatal r
        { code := .watchdog, mask := bitOf u, pc := prevSlot (g.thread u).pc }))

/-- R426 to R433: a stopping block that is quiet is written to the Dugout as it stands, its groups, its bytes and its registers, and its
resources are free; a block that is not stopping stays.

Where the spec leaves a choice to the model, this states the choice of logs 26 and 33. -/
def Obligations.BlocksAreSaved : Prop :=
  ∀ (s : State) (k : BlockKey) (b : Block),
    let quiet (x : Group) : Prop := x.ops = [] ∧ x.holds = [] ∧ x.savedHolds = [] ∧ x.pendObs = [] ∧ x.pendingTrap = none ∧
      x.leaving = false ∧ x.alive ≠ 0#32 ∧ (s.core x.core).buffer = []
    s.block k = some b →
    (b.status ≠ .stopping → Happens (.dugoutWrite k) s (fun t => t = s)) ∧
    (b.status = .stopping → (∃ x ∈ s.groups, x.1.key = k) → (∀ x ∈ s.groups, x.1.key = k → quiet x.2) →
      (∀ j ∈ b.cores, ∀ x ∈ (s.core j).slots, x.2.g.key ≠ k) → (∀ x ∈ (s.cluster b.cluster).table, x.1 ≠ k) →
      Happens (.dugoutWrite k) s (fun t => t.block k = none ∧ (∀ q, q.key = k → t.group q = none) ∧
        (∀ q, q.key ≠ k → t.group q = s.group q) ∧ t.launches = s.launches ∧
        ∃ v, tblGet t.saved k = some v ∧ v.block = b ∧ v.resuming = false ∧ v.commands = [] ∧ v.requests = [] ∧ v.events = [] ∧
          v.shares = (List.range b.cores.length).map (fun slot => s.spRead b slot 0 b.share) ∧
          ∀ n g, s.group ⟨k, n⟩ = some g → tblGet v.groups n = some { g with
            holds := [], savedHolds := [], fills := [], stallUntil := 0, passOver := none, mustPass := false, waitFrom := none }))

/-- R345, R392, R436, R439, R456: a context is created at the lowest free number with what its arguments give, or refused at the first
argument that is out of range; it is destroyed, or reset, once its blocks have ended; its settings change item by item.

R56 to R58, R82 to R86: a code page whose words all pass is mapped and its frame marked, one that fails is refused and recorded; a
shootdown first takes the entries of its range out of every TLB and instruction cache and then waits for what is under way; a resolved fault
lets its group go on.

Where the spec leaves a choice to the model, this states the choice of logs 20 and 25. -/
def Obligations.ContextAndCodeCommands : Prop :=
  (∀ (s : State) (n k : Nat) (c : Ctx) (b : BlockKey × Block) (i : Instr),
     let a (j : Nat) : Word64 := (s.mbx.args[j]?).getD 0#64
     let taken (code : Nat) : Prop := s.fw.started = true ∧ s.fw.umpire = .running ∧ s.mbx.busy = none ∧ s.mbx.cmd.toNat % 2 ^ 16 = code
     let answers (res : List Word64) (status detail : Nat) (t : State) : Prop :=
       t.mbx.outcome = some (res, status, detail) ∧ t.mbx.busy = some (s.mbx.cmd, s.mbx.args) ∧ SameGroups s t ∧ t.blocks = s.blocks
     let named : Prop := (a 0).toNat % 2 ^ 16 = n
     let idle : Prop := (∀ x ∈ s.blocks, x.1.ctx ≠ n) ∧ ∀ x ∈ s.saved, x.1.ctx ≠ n
     let ends (t : State) : Prop := t.blocks = s.blocks.map (fun x => if x.1.ctx = n then (x.1, { x.2 with status := .terminating }) else x)
     let wiped (t : State) : Prop := (∀ q, t.queue n q = Queue.none) ∧ (∀ j, t.monitor n j = Monitor.fresh) ∧
       (∀ x ∈ t.launches, x.2.ctx ≠ n) ∧ (∀ x ∈ t.recorder, x.ctx ≠ n) ∧ (∀ j, j ≠ n → t.ctx j = s.ctx j) ∧
       ∀ j m q, j ≠ n → t.monitor j m = s.monitor j m ∧ t.queue j q = s.queue j q
     let row (bit : Nat) : Prop := (a 1).getLsbD bit = true
     let items : Ctx := { c with
       bkpt := if (a 1).getLsbD 0 then (a 2).getLsbD 0 else c.bkpt
       recDepart := if (a 1).getLsbD 1 then (if (a 3).toNat % 2 ^ 32 = 0 then 1024#32 else (a 3).setWidth 32) else c.recDepart
       wdog := if (a 1).getLsbD 2 then (if a 4 = 0#64 then BitVec.ofNat 64 (2 ^ 30) else a 4) else c.wdog
       cmapBase := if (a 1).getLsbD 3 then a 5 else c.cmapBase }
     (taken 0x01 → (∀ x ∈ createBad s a, x.2 = false) →
       (n < 65536 → s.ctx n = none → (∀ j, j < n → s.ctx j ≠ none) →
           32 * ((a 10).toNat % 2 ^ 32) + (Config.dugoutNeed ((a 10).toNat % 2 ^ 32)).val ≤ (a 12).toNat % 2 ^ 32 * 65536 →
         Happens .contextCreate s (fun t => answers [BitVec.ofNat 64 n] 0 0 t ∧ (∀ j, j ≠ n → t.ctx j = s.ctx j) ∧
           t.ctx n = some (newCtx s.now a))) ∧
       ((∀ j, j < 65536 → s.ctx j ≠ none) → Happens .contextCreate s (fun t => answers [] 0x04 1 t ∧ t.ctxs = s.ctxs))) ∧
     (taken 0x01 → (createBad s a).find? (fun x => x.2) = some (k, true) →
       Happens .contextCreate s (fun t => answers [] 0x02 k t ∧ t.ctxs = s.ctxs)) ∧
     (taken 0x02 → named → s.ctx n = none → Happens .contextDestroy s (answers [] 0x03 0)) ∧
     (taken 0x02 → named → s.ctx n = some c → b ∈ s.blocks → b.1.ctx = n → (∀ x ∈ s.saved, x.1.ctx ≠ n) →
       Happens .contextDestroy s (fun t => ends t ∧ t.mbx.outcome = none ∧ t.mbx.busy = some (s.mbx.cmd, s.mbx.args) ∧ SameGroups s t)) ∧
     (taken 0x02 → named → s.ctx n = some c → idle → Happens .contextDestroy s (fun t => answers [] 0 0 t ∧ wiped t ∧ t.ctx n = none)) ∧
     (s.ctx n = some c → idle → Happens (.contextReset n) s (fun t => SameGroups s t ∧ wiped t ∧ t.ctx n = some { c with regions := [] })) ∧
     (s.ctx n = some c → b ∈ s.blocks → b.1.ctx = n → (∀ x ∈ s.saved, x.1.ctx ≠ n) →
       Happens (.contextReset n) s (fun t => ends t ∧ SameGroups s t)) ∧
     (taken 0x03 → named → s.ctx n = some c → (a 1).toNat ≤ 15 → (row 3 → idle) →
       (i = .contextSetBkpt ∧ row 0) ∨ (i = .contextSetRecDepart ∧ row 1) ∨ (i = .contextSetWdogTicks ∧ row 2) ∨
         (i = .contextSetCmapBase ∧ row 3) →
       Happens i s (fun t => answers [] 0 0 t ∧ t.ctx n = some items ∧ ∀ j, j ≠ n → t.ctx j = s.ctx j)) ∧
     (taken 0x03 → named → s.ctx n = some c → row 3 → (a 1).toNat ≤ 15 → b ∈ s.blocks → b.1.ctx = n →
       Happens .contextSetCmapBase s (fun t => answers [] 0x02 5 t ∧ t.ctxs = s.ctxs))) ∧
  (∀ (s : State) (n line slot entry : Nat) (rj : Reject) (c : Ctx) (r : GroupRef) (g : Group) (p : Parked),
     let a (j : Nat) : Word64 := (s.mbx.args[j]?).getD 0#64
     let running : Prop := s.fw.started = true ∧ s.fw.umpire = .running
     let taken (code : Nat) : Prop := running ∧ s.mbx.busy = none ∧ s.mbx.cmd.toNat % 2 ^ 16 = code
     let answers (res : List Word64) (status detail : Nat) (t : State) : Prop :=
       t.mbx.outcome = some (res, status, detail) ∧ t.mbx.busy = some (s.mbx.cmd, s.mbx.args)
     let waits (t : State) : Prop := t.mbx.outcome = none ∧ t.mbx.busy = some (s.mbx.cmd, s.mbx.args)
     let named : Prop := (a 0).toNat % 2 ^ 16 = n ∧ s.ctx n = some c
     let va := a 1
     let leaf := a 2
     let place := leaf.toNat / 2 ^ 10 % 8
     let pa := leaf.toNat / 2 ^ 32 * 65536
     let frame := frameOf place pa
     let legal : Prop := va.toNat % 65536 = 0 ∧ canonical va = true ∧ leaf.getLsbD 0 = true ∧ leaf.getLsbD 4 = true ∧ leaf.getLsbD 3 = true ∧
       firstReason (leafReasons s 3 leaf) = none ∧ tableWalk s va 2 c.rootPlace c.rootPfn = some entry ∧ tblGet s.codeFrames frame = none
     let all : Prop := (a 0).toNat % 2 ^ 32 = 2 ^ 32 - 1
     let hit (ctx : Nat) (base size : Nat) : Prop := (all ∨ ctx = n) ∧ base < (a 1).toNat + (a 2).toNat ∧ (a 1).toNat < base + size
     let aligned : Prop := (a 1).toNat % 65536 = 0 ∧ (a 2).toNat % 65536 = 0
     (taken 0x10 → named → legal → s.scanFrame place pa = none → s.Tidy → entry % 8 = 0 → isPeer (entry / 128) = false →
       (s.AtHome entry →
         Happens .mapCodePage s (fun t => answers [] 0 0 t ∧ SameGroups s t ∧ tblGet t.codeFrames frame = some [(n, va)] ∧
           ∀ i, i < 8 → t.homeByte (entry + i) = (leaf >>> (8 * i)).setWidth 8)) ∧
       -- the command waits until the entry's line is at its home (R92)
       (¬ s.AtHome entry → Happens .mapCodePage s (fun t =>
         waits t ∧ SameGroups s t ∧ SameBytes s t ∧ t.codeFrames = s.codeFrames))) ∧
     (taken 0x10 → named → legal → s.scanFrame place pa = some (line, slot, rj) →
       Happens .mapCodePage s (fun t => answers [] 0x05 rj.reason.toNat t ∧ SameGroups s t ∧ SameBytes s t ∧ t.codeFrames = s.codeFrames ∧
         ∃ y, t.ctx n = some y ∧ y.rejects = c.rejects.push ⟨va, n, line, slot, rj.reason, rj.detail⟩)) ∧
     (taken 0x10 → named → va.toNat % 65536 ≠ 0 → Happens .mapCodePage s (fun t => answers [] 0x02 1 t ∧ t.codeFrames = s.codeFrames)) ∧
     (taken 0x11 → named → aligned → Happens .shootdown s (fun t =>
       t.mbx.outcome = none ∧ t.mbx.begun = true ∧ t.mbx.mark = s.nextId ∧ SameGroups s t ∧ SameBytes s t ∧
       (∀ j, ∀ e, e ∈ (t.core j).tlb ↔ e ∈ (s.core j).tlb ∧ ¬ hit e.ctx e.leaf.base.toNat (leafSize e.leaf.level)) ∧
       (∀ j, ∀ e, e ∈ (t.cluster j).tlb ↔ e ∈ (s.cluster j).tlb ∧ ¬ hit e.ctx e.leaf.base.toNat (leafSize e.leaf.level)) ∧
       (∀ j, ∀ e, e ∈ (t.die j).walkCache ↔ e ∈ (s.die j).walkCache ∧ ¬ hit e.ctx e.base.toNat (leafSize e.level)) ∧
       (∀ j, ∀ e ∈ (t.core j).icache, ¬ hit e.1.1 e.1.2.toNat 64) ∧
       ∀ j, ∀ e ∈ (t.core j).buffer, hit e.ctx e.va.toNat 128 → e.retrans = true)) ∧
     (running → s.mbx.busy = some (s.mbx.cmd, s.mbx.args) → s.mbx.outcome = none → s.mbx.begun = true → s.mbx.cmd.toNat % 2 ^ 16 = 0x11 →
       named → aligned → ¬ all → Happens .shootdown s (fun t =>
         if s.shotPending ⟨false, n, (a 1).toNat, (a 2).toNat⟩ s.mbx.mark then t = s
         else answers [] 0 0 t ∧ SameGroups s t ∧ SameBytes s t)) ∧
     (taken 0x12 → named → s.group r = some g → g.parked = some p → p.resolved = false → r.key.ctx = n → r.grp = (a 1).toNat % 2 ^ 6 →
       g.core = (a 1).toNat / 2 ^ 16 % 2 ^ 10 → p.time = (a 2).toNat →
       Happens .faultResolve s (fun t => answers [] 0 0 t ∧ SameBytes s t ∧ t.group r = some { g with parked := some { p with resolved := true } })) ∧
     (taken 0x12 → named → s.groups = [] → s.saved = [] → (s.core ((a 1).toNat / 2 ^ 16 % 2 ^ 10)).slots = [] →
       Happens .faultResolve s (answers [] 0x07 0)))

/-- R393 to R395, R402, R405, R426, R434, R440: a launch record that passes is accepted in the queue's order, one that fails is refused with
the number of its check; a queue takes its descriptor, a record, its end; the blocks named by a pre-emption stop, and saved blocks are marked
to be resumed.

Where the spec leaves a choice to the model, this states the choice of logs 25 and 32. -/
def Obligations.LaunchCommands : Prop :=
  ∀ (s : State) (n k q f : Nat) (c : Ctx) (bs : List Byte) (lr : LaunchRec) (runs : List (Nat × Nat)) (back : Bool),
    let a (j : Nat) : Word64 := (s.mbx.args[j]?).getD 0#64
    let taken (code : Nat) : Prop := s.fw.started = true ∧ s.fw.umpire = .running ∧ s.mbx.busy = none ∧
      s.mbx.cmd.toNat % 2 ^ 16 = code ∧ (a 0).toNat % 2 ^ 16 = n ∧ s.ctx n = some c
    let answers (res : List Word64) (status detail : Nat) (t : State) : Prop :=
      t.mbx.outcome = some (res, status, detail) ∧ t.mbx.busy = some (s.mbx.cmd, s.mbx.args) ∧ SameGroups s t
    let waits (t : State) : Prop := t.mbx.outcome = none ∧ t.mbx.busy = some (s.mbx.cmd, s.mbx.args) ∧ t.queues = s.queues ∧
      SameGroups s t ∧ SameBytes s t
    let x := s.queue n q
    let open_ (kinds : List Nat) : Prop := (a 1).toNat = q ∧ q < c.qcount ∧ x.kind ∈ kinds ∧ x.cl = false
    let d := a 2
    let kind := d.toNat % 4
    let count := d.toNat / 2 ^ 32
    let legal : Prop := (a 1).toNat = q ∧ q < c.qcount ∧
      (if kind = 2 then 1 ≤ count ∧ count ≤ 4096 else count = 0) ∧ (a 3).toNat % 128 = 0 ∧ s.entryFlat n q c = some f
    let fields (y : Queue) : Prop := y.kind = kind ∧ y.rsz = d.toNat / 16 % 16 ∧ y.ext = d.getLsbD 8 ∧ y.ncoal = count ∧ y.bbase = a 3 ∧
      y.bcap = (a 4).toNat % 2 ^ 32 ∧ y.timer = (a 4).toNat / 2 ^ 32 ∧ y.tmpl = a 5 ∧ y.error = none ∧ y.seq = x.seq ∧ y.recs = x.recs
    let named (b : BlockKey × Block) : Prop := b.1.ctx = n ∧
      (a 1 = BitVec.allOnes 64 ∨ ∃ l, tblGet s.launches b.2.launch = some l ∧ l.seq = (a 1).toNat) ∧
      (a 2 = BitVec.allOnes 64 ∨ b.1.blk = (a 2).toNat)
    (taken 0x20 → open_ [3] → (a 2).toNat % 128 = 0 → s.firmBytes n (a 2) 128 = some bs →
      (s.readLaunch n bs true = .ok (lr, runs) → s.hostRoom n q x = some back →
        Happens .mbxLaunch s (fun t => answers [BitVec.ofNat 64 x.seq] 0 0 t ∧ t.queue n q = { x with seq := x.seq + 1 } ∧
          ∃ l, tblGet t.launches s.nextId = some l ∧ l.ctx = n ∧ l.q = some q ∧ l.seq = x.seq ∧ l.lr = { lr with wgt := l.weight } ∧
            l.lrAddr = a 2 ∧ l.origin = .host ∧ l.placed = 0 ∧ l.retired = 0 ∧ l.weight = (if lr.root then 2 ^ 62 else 0))) ∧
      (s.readLaunch n bs true = .error k → Happens .mbxLaunch s (fun t => answers [] 0x05 k t ∧ t.launches = s.launches))) ∧
    (taken 0x21 → legal → d.getLsbD 9 = false → isPeer (f / 128) = true ∨ s.AtHome f →
      Happens .queueSet s (fun t => answers [] 0 0 t ∧ fields (t.queue n q) ∧
        (t.queue n q).cl = false ∧ (t.queue n q).poppers = x.poppers ∧ ∀ j, j ≠ q → t.queue n j = s.queue n j)) ∧
    -- a command that writes the table waits until the entry's line is at its home (R92)
    (taken 0x21 → legal → isPeer (f / 128) = false → ¬ s.AtHome f → Happens .queueSet s waits) ∧
    (taken 0x22 → open_ [1] → x.poppers = [] → s.firmRecord n (a 2) (16 * (x.rsz + 1)) = some bs →
      (s.recRoom q x = none → Happens .queuePush s (fun t => answers [0#64] 0 0 t ∧ t.queues = s.queues)) ∧
      (s.recRoom q x = some back → Happens .queuePush s (fun t => answers [1#64] 0 0 t ∧
        (t.queue n q).recs = x.recs ++ [⟨bs, 0, none, back, s.now⟩]))) ∧
    (taken 0x23 → (a 1).toNat = q → q < c.qcount → x.kind ≤ 3 → x.poppers = [] →
      s.entryFlat n q c = none ∨ (s.entryFlat n q c = some f ∧ (isPeer (f / 128) = true ∨ s.AtHome f)) →
      Happens .queueClose s (fun t => answers [] 0 0 t ∧ t.queue n q = { x with cl := true })) ∧
    (taken 0x23 → (a 1).toNat = q → q < c.qcount → x.kind ≤ 3 → s.entryFlat n q c = some f → isPeer (f / 128) = false → ¬ s.AtHome f →
      Happens .queueClose s waits) ∧
    (taken 0x23 → (a 1).toNat = q → c.qcount ≤ q → Happens .queueClose s (fun t => answers [] 0x02 1 t ∧ t.queues = s.queues)) ∧
    (taken 0x30 → (∀ b ∈ s.blocks, b.2.gang = none) → Happens .preEmpt s (fun t => SameGroups s t ∧ t.mbx.outcome = none ∧ t.mbx.begun = true ∧
      (∀ y, t.block y = none ↔ s.block y = none) ∧
      ∀ y b, s.block y = some b → (s.blocks.map Prod.fst).Nodup →
        ∃ b', t.block y = some b' ∧ (named (y, b) → b.status = .running → b'.status = .stopping) ∧ (¬ named (y, b) → b' = b))) ∧
    (taken 0x31 → Happens .resume s (fun t =>
      answers [BitVec.ofNat 64 (s.saved.filter (fun v => v.1.ctx == n && !v.2.resuming)).length] 0 0 t ∧
      t.saved = s.saved.map (fun v => if v.1.ctx = n then (v.1, { v.2 with resuming := true }) else v)))

/-- R437, R438: an access that is no aligned 64-bit one completes as unsupported; MBX_CMD, the arguments and MBX_IRQ take what is written;
a doorbell while a command is under way only marks that it is lost; at its end, which no reset of the Umpire pair sees, a command's results, status and detail stand, and the
interrupt is raised if it is enabled; a code that there is none of has status 1.

R58, R412, R413, R436, R440, R447 to R449: a log gives its oldest record and whether one was lost, and then no more holds it; an update
goes into the bank that is not active, is accepted with a valid signature and a version that is not below the fused one, and becomes active
once its self-test has passed; a telemetry record is read piece by piece.

Where the spec leaves a choice to the model, this states the choice of logs 20 and 25. -/
def Obligations.MailboxLogsAndUpdates : Prop :=
  (∀ (s : State) (off bytes : Nat) (val cmd : Word64) (args res : List Word64) (status detail : Nat),
     let m := s.mbx
     let fits : Prop := off % 8 = 0 ∧ off + 8 ≤ 65536
     Happens (.unsupportedAccess off bytes) s (fun t =>
       t = if fits ∧ bytes = 8 then s else { s with mbx := { m with unsupported := m.unsupported + 1 } }) ∧
     (s.fw.started = false ∨ ¬ fits → Happens (.registerWrite off val) s (fun t => t = s)) ∧
     (s.fw.started = true →
       Happens (.registerWrite 0x08 val) s (fun t => t = { s with mbx := { m with cmd := val &&& 0xFFFF00000000FFFF#64 } }) ∧
       Happens (.registerWrite 0x20 val) s (fun t =>
         t = { s with mbx := { m with en := val.getLsbD 0, pend := m.pend && !val.getLsbD 1 } }) ∧
       (off < 32 → Happens (.registerWrite (0x100 + 8 * off) val) s (fun t => t = { s with mbx := { m with args := m.args.set off val } })) ∧
       Happens .pendClear s (fun t => t = { s with mbx := { m with pend := false } }) ∧
       (m.busy = some (cmd, args) → Happens .doorbellDiscard s (fun t => t = { s with mbx := { m with lost := true } })) ∧
       (m.busy = none → Happens .doorbellDiscard s (fun t => t = s)) ∧
       (m.busy = none → m.cmd.toNat % 2 ^ 16 ∉ [0x01, 0x02, 0x03, 0x10, 0x11, 0x12, 0x20, 0x21, 0x22, 0x23, 0x30, 0x31, 0x40, 0x50, 0x51, 0x52,
           0x60] → s.fw.umpire = .running →
         Happens .unknownCommand s (fun t => t.mbx.outcome = some ([], 1, 0) ∧ t.mbx.busy = some (m.cmd, m.args) ∧ SameGroups s t ∧
           t.ctxs = s.ctxs))) ∧
     (m.busy = some (cmd, args) → m.outcome = some (res, status, detail) → res.length ≤ 32 → status < 2 ^ 8 → detail < 2 ^ 16 →
       Happens .commandCompletion s (fun t => t = if s.fw.umpire ≠ .running then s else { s with mbx := { m with
         res := res ++ List.replicate (32 - res.length) 0#64
         stat := BitVec.ofNat 64 (cmd.toNat / 2 ^ 48 * 2 ^ 48 + cmd.toNat % 2 ^ 16 * 2 ^ 32 + detail * 2 ^ 16 + (if m.lost then 2 ^ 9 else 0) +
           status)
         busy := none, outcome := none, lost := false, pend := true, interrupts := m.interrupts + (if m.en then 1 else 0) } }))) ∧
  (∀ (s : State) (n since : Nat) (c : Ctx) (rj : RejectRec) (rjs : List RejectRec) (fr : FaultRec) (frs : List FaultRec) (e : FbEntry)
       (r : List Byte),
     let a (j : Nat) : Word64 := (s.mbx.args[j]?).getD 0#64
     let taken (code : Nat) : Prop := s.fw.started = true ∧ s.fw.umpire = .running ∧ s.mbx.busy = none ∧ s.mbx.cmd.toNat % 2 ^ 16 = code
     let answers (res : List Word64) (status detail : Nat) (t : State) : Prop :=
       t.mbx.outcome = some (res, status, detail) ∧ t.mbx.busy = some (s.mbx.cmd, s.mbx.args) ∧ SameGroups s t
     let named : Prop := (a 0).toNat % 2 ^ 16 = n ∧ s.ctx n = some c
     let i := fr.info
     let bit (x : Bool) (k : Nat) : Nat := if x then 2 ^ k else 0
     let bank := s.fw.idleBank
     (taken 0x40 → named → a 1 = 0#64 → c.rejects.recs = rj :: rjs → Happens .logReadReject s (fun t =>
       answers [BitVec.ofNat 64 (rj.ctx * 2 ^ 48 + rj.line * 2 ^ 38 + rj.slot * 2 ^ 35 + bit c.rejects.ovf 34 + rj.reason.toNat * 2 ^ 24 +
         rj.detail.toNat * 2 ^ 16), rj.page] 0 0 t ∧ t.ctx n = some { c with rejects := ⟨rjs, false⟩ })) ∧
     (taken 0x40 → named → a 1 = 0#64 → c.rejects.recs = [] → Happens .logReadReject s (fun t => answers [] 0x06 0 t ∧ t.ctxs = s.ctxs)) ∧
     (taken 0x40 → named → a 1 = 1#64 → c.faults.recs = fr :: frs → Happens .logReadFault s (fun t =>
       answers [0#64, 0#64, 0#64,
         BitVec.ofNat 64 (fr.ctx * 2 ^ 48 + fr.core * 2 ^ 38 + fr.grp * 2 ^ 32 + i.code.byte.toNat * 2 ^ 24 + i.reason.toNat * 2 ^ 16 +
           fr.kind.code * 2 ^ 14 + bit c.faults.ovf 13 + i.fb.getD 0xFF),
         BitVec.ofNat 64 (i.mask.toNat * 2 ^ 32 + fr.blk), BitVec.ofNat 64 fr.time, i.pc, i.addr] 0 0 t ∧
         t.ctx n = some { c with faults := ⟨frs, false⟩ })) ∧
     (taken 0x40 → named → a 1 = 1#64 → c.faults.recs = [] → Happens .logReadFault s (fun t => answers [] 0x06 0 t ∧ t.ctxs = s.ctxs)) ∧
     (taken 0x40 → named → a 1 = 2#64 → (a 2).toNat < 64 → tblGet c.fbuf (a 2).toNat = some e → Happens .logReadFaultBuffer s (fun t =>
       answers ([e.va, e.mask.setWidth 64, e.mask.extractLsb' 64 64, 0#64] ++ (List.range 16).map (fun k => e.data.extractLsb' (64 * k) 64))
         0 0 t ∧ ∃ y, t.ctx n = some y ∧ tblGet y.fbuf (a 2).toNat = none)) ∧
     (taken 0x40 → named → a 1 = 2#64 → 64 ≤ (a 2).toNat → Happens .logReadFaultBuffer s (fun t => answers [] 0x02 2 t ∧ t.ctxs = s.ctxs)) ∧
     (taken 0x50 → (a 0).toNat % 4096 = 0 → (a 1).toNat + (a 2).toNat ≤ 0xF00000000000 → 1 ≤ (a 2).toNat → (a 2).toNat ≤ 2 ^ 20 →
       Happens .updateWrite s (fun t => answers [] 0 0 t ∧ t.fw.verified = false ∧ t.fw.activeB = s.fw.activeB ∧
         t.fw.bank t.fw.activeB = s.fw.bank s.fw.activeB ∧
         t.fw.idleBank = Memory.writeL bank (a 0).toNat (s.homeBytes (2 ^ 54 + (a 1).toNat) (a 2).toNat))) ∧
     (taken 0x50 → (a 0).toNat % 4096 ≠ 0 → Happens .updateWrite s (fun t => answers [] 0x02 0 t ∧ t.fw = s.fw)) ∧
     (taken 0x51 → Happens .updateVerify s (fun t =>
       if Config.signatureValid bank = false then answers [] 0x05 1 t ∧ t.fw = s.fw
       else if Config.securityVersion bank < Config.fusedMinimum then answers [] 0x05 2 t ∧ t.fw = s.fw
       else answers [] 0 0 t ∧ t.fw = { s.fw with verified := true, measurements := s.fw.measurements ++ [Config.measurement bank] })) ∧
     (taken 0x52 → Happens .updateActivate s (fun t =>
       if s.fw.verified then t.mbx.outcome = none ∧ t.fw = { s.fw with umpire := .switching s.now }
       else answers [] 0x05 1 t ∧ t.fw = s.fw)) ∧
     (s.fw.umpire = .switching since → s.mbx.busy = some (s.mbx.cmd, s.mbx.args) → s.mbx.outcome = none →
       Happens .updateActivate s (fun t =>
         if Config.selfTest bank = true ∧ s.now < since + 10000000 then
           answers [] 0 0 t ∧ t.fw = { s.fw with activeB := !s.fw.activeB, verified := false, umpire := .running }
         else t = s)) ∧
     (taken 0x60 → (a 1).toNat ≠ 0 → s.telemetry ((a 0).toNat % 2 ^ 16) = some r → (a 1).toNat % 8 = 0 → (a 1).toNat < r.length →
       Happens .recordRead s (fun t => ∃ ws, answers ws 0 (min 256 (r.length - (a 1).toNat)) t ∧
         ∀ k, 8 * k + 8 ≤ min 256 (r.length - (a 1).toNat) → ws[k]? = some (leBits 64 ((r.drop ((a 1).toNat + 8 * k)).take 8)))) ∧
     (taken 0x60 → 5 < (a 0).toNat % 2 ^ 16 → Happens .recordRead s (answers [] 0x02 0)))

/-- R446 to R450, R455 to R457: a telemetry request is answered from a new sample with the bytes of R450, or with the completion that fits; a
measurement report is what Config makes of the measurements (log 20); a mismatch resets the Umpire pair and its reload ends that; a faulting
worker is reset; an image that has not passed its self-test in 10 ms loses the switch; a boot ends or leaves the number of the step that failed,
which the next boot passes by; corrected errors above a threshold in two windows mark a unit, and a marked unit is replaced where no block is on
its die and a reserve is left.

Where the spec leaves a choice to the model, this states the choice of logs 20, 39 and 46. -/
def Obligations.FirmwareEvents : Prop :=
  ∀ (s : State) (schema : BitVec 16) (cmd : Byte) (request r : List Byte) (worker since die n k : Nat) (x : Reserve),
    let f := s.fw
    let becomes (i : Instr) (f' : Firmware) : Prop := exec i s = .next { s with fw := f' }
    let posts (i : Instr) (f' : Firmware) : Prop := Happens i s (fun t => Published s t ∧
      t = { s with fw := f', net := t.net, nextId := s.nextId + 2 })
    let answer (cmd completion : Byte) (body : List Byte) : List Byte :=
      [0x7F#8] ++ leBytes 4 Config.enterpriseNumber.toNat ++ [cmd, completion] ++ body
    let sampled : Firmware := { f with samples := f.samples + 1 }
    let high (f : Firmware) (k : Nat) : Prop := ∃ c, (k, c) ∈ f.corrected ∧ Config.bullpenThreshold k + tblGetD f.window k 0 < c
    (({ s with fw := sampled }).telemetry schema.toNat = some r →
      becomes (.newestRecord schema) { sampled with mctp := answer 0x01#8 0x00#8 r }) ∧
    (schema = 0#16 ∨ 5 < schema.toNat → becomes (.newestRecord schema) { sampled with mctp := answer 0x01#8 0x02#8 [] }) ∧
    becomes .schemaList { f with
      mctp := answer 0x02#8 0x00#8 [1#8, 0#8, 1#8, 0#8, 2#8, 0#8, 1#8, 0#8, 3#8, 0#8, 1#8, 0#8, 4#8, 0#8, 1#8, 0#8, 5#8, 0#8, 1#8, 0#8] } ∧
    (cmd ≠ 0x01#8 → cmd ≠ 0x02#8 → becomes (.mctpUnknownCommand cmd) { f with mctp := answer cmd 0x01#8 [] }) ∧
    (f.started = true → becomes (.spdmRequest request) { f with spdm := Config.spdmAnswer f.measurements request }) ∧
    (f.umpire = .running → becomes .umpireReset { f with umpire := .resetting, umpireResets := f.umpireResets + 1 }) ∧
    (f.umpire = .resetting → becomes .umpireReset { f with umpire := .running }) ∧
    (worker < 8 → ∃ l, becomes (.workerReset worker) { f with workerResets := l } ∧
      tblGetD l worker 0 = tblGetD f.workerResets worker 0 + 1 ∧ ∀ j, j ≠ worker → tblGet l j = tblGet f.workerResets j) ∧
    (f.umpire = .switching since → since + 10000000 ≤ s.now →
      exec .selfTestTimeout s = .next { s with fw := { f with umpire := .running }, mbx := { s.mbx with outcome := some ([], 0x05, 3) } }) ∧
    (f.started = false → ∃ peers, posts (.boot none) { f with
      started := true, bootCount := f.bootCount + 1, bootTime := s.now, cxl0 := (Config.cxlSize 0).val, cxl1 := (Config.cxlSize 1).val
      peers := peers, carveOut := Config.carveOut } ∧
      ∀ p, tblGet peers p = if p < 16 then (Config.peerPort p).map (fun n => n.val) else none) ∧
    (f.started = false → n < 64 → f.skipped.getLsbD n = false → ∃ alt skip, becomes (.boot (some n)) { f with
      bootCount := f.bootCount + 1, bootFailed := some n, alternate := alt, skipped := skip } ∧
      (if Config.hasAlternate n = true ∧ f.alternate.getLsbD n = false then alt.getLsbD n = true ∧ skip = f.skipped
       else skip.getLsbD n = true ∧ alt = f.alternate) ∧
      ∀ j, j ≠ n → alt.getLsbD j = f.alternate.getLsbD j ∧ skip.getLsbD j = f.skipped.getLsbD j) ∧
    (f.windowStart + 3600000000000 ≤ s.now → ∃ highs marked, becomes .bullpenWindow { f with
      window := f.corrected, overOnce := highs, marked := marked, windowStart := f.windowStart + 3600000000000 } ∧
      (∀ k, k ∈ highs ↔ high f k) ∧ ∀ k, k ∈ marked ↔ k ∈ f.marked ∨ (high f k ∧ k ∈ f.overOnce)) ∧
    (s.dieEmpty die = true → ∃ f', (f.started = true → posts (.reserveReplacement die) f') ∧ (f.started = false → becomes (.reserveReplacement die) f') ∧
      (∀ k ∈ f.marked, (unitPlace k).1 ≠ die → k ∈ f'.marked) ∧
      (f.marked = [k] → unitPlace k = (die, some x) → 0 < f.left die x →
        f' = { f with marked := [], overOnce := f.overOnce.filter (fun j => j != k)
                      replaced := tblPut f.replaced (die, x) (f.used die x + 1) })) ∧
    (s.dieEmpty die = false → exec (.reserveReplacement die) s = .next s)

/-- R455: the 32 bytes of the boot record. -/
def Obligations.BootRecord : Prop :=
  ∀ s : State, ∃ b, s.recordBody 5 = some b ∧ b.length = 32 ∧
    leNat (b.take 4) = s.fw.bootCount % 2 ^ 32 ∧ leNat ((b.drop 4).take 2) = (s.fw.bootFailed.getD 0xFFFF) % 2 ^ 16 ∧
    leNat ((b.drop 6).take 2) = 0 ∧ leNat ((b.drop 8).take 8) = s.fw.alternate.toNat ∧ leNat ((b.drop 16).take 8) = s.fw.skipped.toNat ∧
    leNat ((b.drop 24).take 8) = s.fw.bootTime % 2 ^ 64

/-- R4, R170, R354, R456 (with log 21): blocks on a unit are pre-empted before it is reset, or terminated with PEER_GONE where the unit does not
respond; the reset then loses what R456 names and keeps the rest. -/
def Obligations.Resets : Prop :=
  ∀ (s : State) (die cl core a : Nat) (l : LineNo),
    let on (i : Bool → Instr) (p : Block → Prop) : Prop :=
      (∃ x ∈ s.blocks, p x.2) → (s.blocks.map Prod.fst).Nodup →
        ((∀ x ∈ s.blocks, x.2.gang = none) → Happens (i false) s (fun t => SameGroups s t ∧ t.mem = s.mem ∧ t.lines = s.lines ∧
          ∀ y b, s.block y = some b →
            (p b → b.status = .running → t.block y = some { b with status := .stopping }) ∧
            (¬ p b ∨ b.status ≠ .running → t.block y = some b))) ∧
        Happens (i true) s (fun t => SameGroups s t ∧ t.mem = s.mem ∧ t.lines = s.lines ∧
          ∀ y b, s.block y = some b →
            (p b → b.latch = none → t.block y = some { b with status := .terminating, latch := some (0, { code := .peerGone }) }) ∧
            (¬ p b ∨ b.latch ≠ none → t.block y = some b))
    let alone (p : Block → Prop) : Prop := ∀ x ∈ s.blocks, ¬ p x.2
    let onCore (b : Block) : Prop := core ∈ b.cores
    let onCluster (b : Block) : Prop := b.cluster = cl
    let onDie (b : Block) : Prop := ∃ c ∈ b.cores, c / 192 = die
    let mine : Prop := isHost l = false ∧ homeDie l = die
    on (fun x => .coreReset core x) onCore ∧ on (fun x => .clusterReset cl x) onCluster ∧ on (fun x => .dieReset die x) onDie ∧
    (alone onCore → Happens (.coreReset core false) s (fun t => SameGroups s t ∧ t.mem = s.mem ∧ t.lines = s.lines ∧
      (t.core core).copies = [] ∧ (t.core core).buffer = [] ∧ (t.core core).landing = [] ∧ (t.core core).grants = [] ∧
      (t.core core).slots = [] ∧ (t.core core).seq = 0 ∧ (t.core core).icache = (s.core core).icache ∧
      ∀ j, j ≠ core → t.core j = s.core j)) ∧
    (alone onCluster → Happens (.clusterReset cl false) s (fun t => SameGroups s t ∧ t.mem = s.mem ∧ t.lines = s.lines ∧
      t.cluster cl = { s.cluster cl with tlb := [], tiles := [], table := [], busy := none } ∧ ∀ j, j ≠ cl → t.cluster j = s.cluster j)) ∧
    Happens (.recorderReset die) s (fun t => SameGroups s t ∧ SameBytes s t ∧
      t.recorder = s.recorder.filter (fun e => homeDie e.line != die) ∧
      ∀ ctx n c, s.ctx ctx = some c → (c.regions.map Prod.fst).Nodup →
        let lost := s.recorder.filter (fun e => homeDie e.line == die && e.ctx == ctx && e.region == n)
        if (s.region ctx n).state = 0 ∨ lost = [] then t.region ctx n = s.region ctx n
        else (t.region ctx n).state = 3 ∧ ∀ u,
          tblGetD (t.region ctx n).counts u {} = { tblGetD (s.region ctx n).counts u {} with
            drop := (tblGetD (s.region ctx n).counts u {}).drop + (lost.filter (fun e => sliceUnit e.line == u)).length }) ∧
    ((∀ c ∈ s.ctxs, s.hasBlocks c.1 = false) → s.mem.wf = true → Happens (.weightStoreReset die) s (fun t => SameGroups s t ∧
      (∀ j, t.mem.read j = if 2 ^ 58 + die * 2 ^ 30 ≤ j ∧ j < 2 ^ 58 + die * 2 ^ 30 + 2 ^ 30 then 0#8 else s.mem.read j) ∧
      t.lines = s.lines)) ∧
    (alone onDie → s.mem.wf = true → Happens (.dieReset die false) s (fun t => SameGroups s t ∧ t.fw = s.fw ∧ t.now = s.now ∧
      (mine → tblGet t.lines l = none) ∧ (¬ mine → tblGet t.lines l = tblGet s.lines l) ∧
      (t.die die).evx = [] ∧
      (a < 2 ^ 58 → t.mem.read a = s.mem.read a))) ∧
    (s.mem.wf = true → Happens .deviceReset s (fun t => t.now = 0 ∧ t.groups = [] ∧ t.blocks = [] ∧ t.saved = [] ∧ t.ctxs = [] ∧
      t.lines = [] ∧ t.cores = [] ∧ t.clusters = [] ∧ t.dies = [] ∧ t.monitors = [] ∧ t.queues = [] ∧ t.ports = [] ∧ t.net = [] ∧
      t.fw.started = false ∧ t.fw.bankA = s.fw.bankA ∧ t.fw.bankB = s.fw.bankB ∧ t.fw.activeB = s.fw.activeB ∧
      t.fw.bootCount = s.fw.bootCount ∧ t.fw.bootFailed = s.fw.bootFailed ∧
      (∀ j, 2 ^ 44 ≤ j → j < 2 ^ 58 → t.mem.read j = s.mem.read j) ∧ ∀ j, j < 2 ^ 44 ∨ 2 ^ 58 ≤ j → t.mem.read j = 0#8))

/-- R443, R444: a flit that fails its check, or comes out of its order, is discarded and asked for again; a data flit in order is
acknowledged, its units are free, and its messages are under way; a retry request sends every flit again from the one it names; training sets
the lanes, and a credit grant brings the port up; after sixteen retries the port is down. A training flit on a port that is not up starts the
link anew (log 24).

R445: a data flit whose first unit is a header of a read, and whose other units are zero, carries that one message. -/
def Obligations.FlitsArrive : Prop :=
  (∀ (s : State) (port : Nat) (flit : BitVec 2048),
     let p := s.port port
     let h := flitHead flit
     let right : Prop := flit.extractLsb' 1984 32 = crc32c ((flitBytes flit).take 248)
     let arrives (k : Nat) : Prop := port < 16 ∧ p.up = true ∧ right ∧ h.ftype = k
     let becomes (i : Instr) (q : Port) : Prop := exec i s = .next (s.putPort port q)
     let posts (i : Instr) (q : Port) : Prop := Happens i s (fun t =>
       if s.fw.started then Published s t ∧ t = { s.putPort port q with net := t.net, nextId := s.nextId + 2 } else t = s.putPort port q)
     let us := p.partial_ ++ flitUnits flit
     let ms := splitUnits port (us.length + 1) us
     let again := p.replay.dropWhile (fun x => x.1 != h.seq)
     let unit : BitVec 128 := flit.extractLsb' 64 128
     let controls (op : Nat) : Prop := port < 16 ∧ right ∧ h.ftype = 3 ∧ (unit.setWidth 16).toNat = op
     let lanes : BitVec 9 := unit.extractLsb' 96 9
     let freed (req : Bool) : Nat := ((ms.1.filter (fun m => decide (m.kind < 0x80) == req)).map (fun m => 1 + unitsAfter m.kind)).sum
     (port < 16 → p.up = true → ¬ right ∨ 3 < h.ftype →
       ∀ i ∈ [Instr.dataFlit port flit, .idleFlit port flit, .retryRequest port flit],
         becomes i { p with wantRetry := true, discarding := true }) ∧
     (arrives 0 → h.ack = none → becomes (.idleFlit port flit) { p with crq := p.crq + h.crq, crs := p.crs + h.crs }) ∧
     (∀ a f rest old, arrives 0 → h.ack = some a → p.replay = old ++ (a, f) :: rest → (∀ x ∈ old, x.1 ≠ a) →
       becomes (.idleFlit port flit) { p with crq := p.crq + h.crq, crs := p.crs + h.crs, replay := rest, retries := 0 }) ∧
     (arrives 1 → h.seq ≠ p.rxSeq →
       becomes (.dataFlit port flit) { p with wantRetry := p.wantRetry || !p.discarding, discarding := true }) ∧
     (arrives 1 → h.seq = p.rxSeq → h.ack = none →
       exec (.dataFlit port flit) s = .next { s.putPort port { p with
         crq := p.crq + h.crq, crs := p.crs + h.crs, rxSeq := p.rxSeq + 1#12, acked := some h.seq, ackDue := true, discarding := false
         partial_ := ms.2, freedRq := p.freedRq + freed true, freedRs := p.freedRs + freed false } with
           net := s.net ++ ms.1.map (fun m => { ch := peerChan m, body := .peerReq m }) }) ∧
     (arrives 2 → h.ack = none → again ≠ [] → Happens (.retryRequest port flit) s (fun t =>
       t.port port = { p with
         crq := p.crq + h.crq, crs := p.crs + h.crs, out := p.out ++ again.map Prod.snd, retries := p.retries + 1
         retried := p.retried + again.length } ∧
       tblGetD t.fw.corrected (0x000A * 65536 + port) 0 = tblGetD s.fw.corrected (0x000A * 65536 + port) 0 + again.length ∧
       SameGroups s t ∧ Sent s t [])) ∧
     (controls 1 → p.up = true → posts (.training port flit) { p with lanes := lanes }) ∧
     (controls 1 → p.up = false → posts (.training port flit) { Port.reset with
       training := true, lanes := lanes, outstanding := p.outstanding, sent := p.sent, retried := p.retried, downs := p.downs
       lastW := p.lastW
       out := p.out ++ [makeFlit ⟨3, 0#12, none, 0, 0⟩ [controlUnit 1 0 0 lanes],
         makeFlit ⟨3, 0#12, none, 0, 0⟩ [controlUnit 2 Config.portCredits.1 Config.portCredits.2 lanes]] }) ∧
     (controls 2 → p.up = true ∨ p.training = true → becomes (.creditGrant port flit) { p with
       up := true, training := false, crq := p.crq + (unit.extractLsb' 32 32).toNat, crs := p.crs + (unit.extractLsb' 64 32).toNat }) ∧
     (p.up = true → 16 ≤ p.retries → p.outstanding = [] → Happens (.portDown port) s (fun t =>
       (t.port port).up = false ∧ (t.port port).replay = [] ∧ (t.port port).downs = p.downs + 1 ∧ SameGroups s t ∧ SameBytes s t))) ∧
  (∀ (s : State) (port : Nat) (flit : BitVec 2048) (u : BitVec 128) (zs : List (BitVec 128)),
     port < 16 → (s.port port).up = true → (flitHead flit).ftype = 1 → (flitHead flit).seq = (s.port port).rxSeq → (s.port port).partial_ = [] →
     flit.extractLsb' 1984 32 = crc32c ((flitBytes flit).take 248) →
     flitUnits flit = u :: zs → (∀ z ∈ zs, z = 0#128) → u.extractLsb' 120 8 = 0x01#8 → u.extractLsb' 115 5 = 0#5 →
     Happens (.dataFlit port flit) s (fun t => ∃ r : PeerReq,
       Sent s t [{ ch := ⟨.peer, 7100 + port, 7100 + port⟩, body := .peerReq r }] ∧
       r.port = port ∧ r.kind = 0x01 ∧ r.tag = (u.extractLsb' 96 16).toNat ∧ r.addr = (u.extractLsb' 0 40).toNat ∧
       (t.port port).rxSeq = (s.port port).rxSeq + 1#12 ∧ (t.port port).freedRq = (s.port port).freedRq + 1 ∧ SameGroups s t ∧ SameBytes s t))

/-- R136, R326, R339, R442, R445: a peer's request is answered from the line at its home; its update is made there, and its answer waits for
the update's time; an address beyond HBM4E, a poisoned line and a write to code (log 24) are refused with their status; a signal is held until
the peer's earlier writes are visible.

R135, R442, R445: a response ends the request that has its tag: the bytes read and an old value are in their registers, a write and an
update are in the horizons; an error is a late fault, ECC_UNCORRECTABLE for poisoned data and else reason 0x0C. -/
def Obligations.PeerRequestsAndResponses : Prop :=
  (∀ (s : State) (m : Nat) (ch : Chan) (r : PeerReq) (y : SliceLine) (f : AOp) (o : SignalOp),
     let a := flatByte 0 r.addr
     let l := a / 128
     let at_ := a % 128
     let n := r.ty.width / 8
     let answer (kind status : Nat) (data : LineBits) (old : Word64) (t : Nat) : List Msg :=
       [{ ch := ⟨.peer, 7300 + r.port, 7300 + r.port⟩, body := .peerResp r.port r.tag kind status data old t }]
     let refuses (i : Instr) (status : Nat) : Prop :=
       Happens i s (fun t => Swapped s t m (answer 0xC0 status 0#1024 0#64 0) ∧ SameGroups s t ∧ SameBytes s t)
     let events : List (Nat × Instr) := [(0x01, .readALine m), (0x02, .writeALine m), (0x03, .peerAtom m), (0x04, .peerAcas m),
       (0x05, .peerRed m), (0x06, .peerSignal m)]
     let old (n : Nat) : Word64 := (fieldOf y.data at_ n).setWidth 64
     let w := max (max s.now y.lx + 3) y.wl
     let writes (i : Instr) (kind : Nat) (old : Word64) (line : LineBits) : Prop :=
       Happens i s (fun t => Swapped s t m (answer kind 0 0#1024 old w) ∧ SameGroups s t ∧
         (∀ b, t.homeByte b = if b / 128 = l then lineGet line (b % 128) else s.homeByte b) ∧
         (t.port r.port).lastW = max (s.port r.port).lastW w)
     let put (n : Nat) (v : Word64) : LineBits := mergeLine y.data (placeBytes at_ (v.setWidth 128)) (byteMask at_ n)
     let updates : Prop := s.isCode a = false ∧ y.poison = false ∧ a % n = 0
     Due s m ch (.peerReq r) →
     (∀ e ∈ events, r.kind = e.1 →
       (2 ^ 39 ≤ r.addr → refuses e.2 0x01) ∧ (r.addr < 2 ^ 39 → s.fw.started = false → refuses e.2 0x03) ∧
       (r.addr < 2 ^ 39 → s.fw.started = true → (tblGet s.misses l).isSome = true → exec e.2 s = .next s) ∧
       (r.addr < 2 ^ 39 → s.fw.started = true → tblGet s.misses l = none → tblGet s.lines l = some y → s.isCode a = true →
         0x02 ≤ r.kind → r.kind ≤ 0x05 → refuses e.2 0x03) ∧
       (r.addr < 2 ^ 39 → s.fw.started = true → tblGet s.misses l = none → tblGet s.lines l = none → s.missCount l < 64 →
         Happens e.2 s (fun t => t = { s with misses := tblPut s.misses l ⟨[], none⟩ }))) ∧
     (r.addr < 2 ^ 39 → s.fw.started = true → tblGet s.misses l = none → tblGet s.lines l = some y →
       (r.kind = 0x01 → y.poison = true → refuses (.readALine m) 0x02) ∧
       (r.kind = 0x01 → y.poison = false → Happens (.readALine m) s (fun t =>
         Swapped s t m (answer 0x81 0 y.data 0#64 0) ∧ SameGroups s t ∧ SameBytes s t)) ∧
       (r.kind = 0x02 → s.isCode a = false → writes (.writeALine m) 0x82 0#64 (mergeLine y.data r.data (lineMask r.mask))) ∧
       (r.kind = 0x03 → AOp.ofCode (BitVec.ofNat 3 r.op) = some f → f.allows r.ty = true → updates →
         writes (.peerAtom m) 0x83 (old n) (put n (atomicValue f r.ty (old n) r.x))) ∧
       (r.kind = 0x05 → AOp.ofCode (BitVec.ofNat 3 r.op) = some f → f.allows r.ty = true → updates →
         writes (.peerRed m) 0x85 (old n) (put n (atomicValue f r.ty (old n) r.x))) ∧
       (r.kind = 0x04 → TSet.AC.has r.ty = true → updates →
         ((old n).setWidth r.ty.width = r.y.setWidth r.ty.width → writes (.peerAcas m) 0x84 (old n) (put n r.x)) ∧
         ((old n).setWidth r.ty.width ≠ r.y.setWidth r.ty.width → Happens (.peerAcas m) s (fun t =>
           Swapped s t m (answer 0x84 0 0#1024 (old n) 0) ∧ SameGroups s t ∧ SameBytes s t))) ∧
       (r.kind = 0x06 → s.now < (s.port r.port).lastW → exec (.peerSignal m) s = .next s) ∧
       (r.kind = 0x06 → (s.port r.port).lastW ≤ s.now → r.op = o.code.toNat → s.isCode a = false → y.poison = false → a % 8 = 0 →
         writes (.peerSignal m) 0x86 (old 8) (put 8 (match o with
           | .set => r.x
           | .add => old 8 + r.x))))) ∧
  (∀ (s : State) (m : Nat) (ch : Chan) (r : PeerReq) (q : Msg) (x : ReadReq) (core : Nat) (p : LoadPart) (g : Group) (o : Op) (u : Update)
       (b : Option (Nat × Nat)) (d : Dst) (ty : Ty) (f : AOp) (z : Word64),
     let others (t : State) (r : GroupRef) : Prop := ∀ q, q ≠ r → t.group q = s.group q
     let ends (t : State) : Prop := Swapped s t m [] ∧ SameBytes s t ∧ tblGet (t.port r.port).outstanding r.tag = none
     let nows : Horizons := ⟨s.now, s.now, s.now, s.now⟩
     let code (rd : Bool) : FaultCode := if r.status = 0x02 then .eccUncorrectable else if rd then .pagePermRead else .pagePermWrite
     let reason : Byte := if r.status = 0x02 then 0x00#8 else 0x0C#8
     let late (g1 : Group) (i : FaultInfo) : Group := if g.pendingTrap.isSome then g1 else { g1 with pendingTrap := some i }
     Due s m ch (.peerReq r) → ((s.port r.port).outstanding.map Prod.fst).Nodup →
     (∀ e ∈ [(0x81, Instr.readData m), (0x82, .writeDone m), (0x83, .atomicResponse m), (0x84, .atomicResponse m), (0x85, .atomicResponse m),
         (0x86, .atomicResponse m), (0xC0, .errorMessage m)], r.kind = e.1 → tblGet (s.port r.port).outstanding r.tag = none →
       Happens e.2 s (fun t => Swapped s t m [] ∧ SameGroups s t ∧ SameBytes s t)) ∧
     (tblGet (s.port r.port).outstanding r.tag = some q →
       (q.body = .host x → x.tgt = .direct core [p] → s.group p.g = some g → LastPart g p.op o → o.arrivals = [] →
         (r.kind = 0x81 → o.kind ≠ .fill → Happens (.readData m) s (fun t => ends t ∧ others t p.g ∧
           GroupIs t p.g (g.without p.op)
             (loadResult p.ty p.dst (p.who.getD 0) g.budget (fieldOf (mergeLine r.data p.own p.ownMask) p.off p.n)))) ∧
         (r.kind = 0xC0 → Happens (.errorMessage m) s (fun t => ends t ∧ others t p.g ∧ GroupIs t p.g
           (late (g.without p.op) { code := code true, reason := reason, mask := (p.who.map bitOf).getD o.act, addr := p.va, pc := o.pc })
           noReg))) ∧
       (q.body = .update u b → u.tgt = .group → s.group u.g = some g → LastPart g u.opId o → o.arrivals = [] → u.holder = none →
         (r.kind = 0x82 → u.dst = none → (∃ l m k, u.op = .put l m k) → Happens (.writeDone m) s (fun t => ends t ∧ others t u.g ∧
           GroupIs t u.g { g.without u.opId with hz := g.hz.fold nows } noReg)) ∧
         (r.kind = 0x85 ∨ r.kind = 0x86 → u.dst = none → Happens (.atomicResponse m) s (fun t => ends t ∧ others t u.g ∧
           GroupIs t u.g { g.without u.opId with hz := g.hz.fold nows } noReg)) ∧
         (r.kind = 0x83 ∨ r.kind = 0x84 → u.dst = some d → u.op = .rmw f ty z → Happens (.atomicResponse m) s (fun t => ends t ∧ others t u.g ∧
           GroupIs t u.g ({ g.without u.opId with hz := g.hz.fold nows }.saw u.opId (byteMask (u.addr % 128) (ty.width / 8)) (deviceObs 0))
             (loadResult ty d (u.who.getD 0) g.budget (r.x.setWidth 128)))) ∧
         (r.kind = 0xC0 → Happens (.errorMessage m) s (fun t => ends t ∧ others t u.g ∧ GroupIs t u.g
           (late (g.without u.opId) { code := code false, reason := reason, mask := (u.who.map bitOf).getD o.act, addr := u.va, pc := o.pc })
           noReg)))))

/-- R35 to R48 with R233, R273, R110, R126, R333, R358 and R379: words that the spec writes out decode to their instructions. -/
def Obligations.DecodeWords : Prop :=
  let k : Ctl := ⟨15, false, 0, false, .one, 0#4, false, 0#3⟩
  decode 0x010F00F0783C1E0F00000000#96 = .ok (.nop k) ∧
  decode 0x220200018050BE0F00140000#96 = .ok (.iadd { k with p1 := 2, stall := 1#4, reuse := 4#3 } .s32 (.v 3) (.v 1) (.s 5)) ∧
  decode 0x50DF000100801E0F00000000#96 = .ok (.fadd k .f32 .rne (.v 2) (.v 2) (.v 0)) ∧
  decode 0x790F0002DC809E0A08000000#96 = .ok (.cheval k (.v 5) 2 (.v 4) (some 1)) ∧
  decode 0x808F000021003E0000000000#96 = .ok (.ldg k .default .b32 (.v 0) ⟨.s 4, .v 1, 0#25⟩) ∧
  decode 0x871F00F0783C1E0F00000003#96 = .ok (.fence k .default .rel .dev) ∧
  decode 0x901F00012100203F00000000#96 = .ok (.atom k .n32 .add false .relaxed (.v 2) (.s 4) (.v 1) (.v 3)) ∧
  decode 0x040F0004F83C000000000008#96 = .ok (.call k (.v 9) 8#34)

/-- R35, R48, R57: the word of every well-formed instruction decodes to that instruction, with every operand it has. -/
def Obligations.DecodeOfEncode : Prop :=
  ∀ (i : Instr) (w : InstrWord), i.wellFormed = true → encode i = some w → decode w = .ok i

/-- R35, R48, R57: a word that decodes is the word of its instruction, which is well formed: no word has two readings and no bit is dropped. -/
def Obligations.EncodeOfDecode : Prop :=
  ∀ (i : Instr) (w : InstrWord), decode w = .ok i → i.wellFormed = true ∧ encode i = some w

/-- R371, R373, R374 (with log 3): at the turn of a group whose first ready entry's word, in the core's instruction cache, decodes to `i`,
a step is exec of the instruction of the group whose turn it is, with its entry's PC and threads; where no other group of the core is ready,
that is `i` itself; a turn of an event is exec of the event. -/
def Obligations.StepRunsDecoded : Prop :=
  ∀ (s : State) (r : GroupRef) (g0 g : Group) (b : Block) (e : FEntry) (es : List FEntry) (x : BitVec 512) (i : Instr) (dt : Nat)
      (rest : List Turn),
    let s0 := s.tickWatchdogs.flushPorts
    let at_ : State := State.timePasses { s0 with agenda := rest, now := s0.now + dt }
    let s1 := at_.settleCore g0.core
    let w := slotWord x (pcSlot e.pc)
    let room : Prop := (i.opClass = .none ∨ g.counter i.opClass < 63) ∧ (i.needsSlot = true → (s1.freeSlot g.core).isSome = true) ∧
      s1.throttled r g = false ∧ s1.tableFull r g e w i = false
    let issue : Prop := s0.agenda = ⟨dt, .issue r⟩ :: rest ∧ at_.group r = some g0 ∧ s1.group r = some g ∧ s1.block r.key = some b ∧
      s1.mayIssue r g b = true ∧ g.parked = none ∧ g.frontier b = e :: es ∧ s1.unheld r g e = true ∧ g.passOver ≠ some e.pc ∧
      s1.cachedLine r g e.pc = some x ∧ decode w = .ok i ∧ room
    let y := s1.turnOf ⟨r, g, e, w, i⟩
    (s0.agenda = ⟨dt, .event i⟩ :: rest →
      step s = exec i { at_ with cur := none, fresh := at_.fresh + 1 }) ∧
    (issue → poisonedRead y.g y.e y.w = none → step s = exec y.i { s1.noteIssue y with cur := some ⟨y.r, y.e.pc, y.e.mask⟩ }) ∧
    (issue → (∀ z ∈ s1.groups, z.1 ≠ r → z.2.core ≠ g.core) → (s1.groups.map Prod.fst).Nodup → y = ⟨r, g, e, w, i⟩)

/-- R46, R373, R374, R384, R390: where a group of a core has a ready instruction, the group whose turn it is is a ready one, and none that has
to pass its turn on while another of its lane can issue; of the vector instructions of a lane it is the next in residency order behind the last
that issued, of the uniform ones of the core the one that has waited longest; an issue is noted with its lane, ends its group's wait, and with
its yield bit, or a YIELD, it passes the group's next turn on until another group of the lane has issued.

Residency order among groups that came together is that of their numbers (log 3). -/
def Obligations.LaneOrder : Prop :=
  ∀ (s : State) (core : Nat) (x : Ready),
    let l := s.readyOn core
    let vector (z : Ready) : Prop := wordVec z.w = true
    let must (z : Ready) : Prop := z.g.mustPass = true ∧ ∃ y ∈ l, y.g.lane = z.g.lane ∧ y.r ≠ z.r
    let before (y z : Ready) : Prop := y.g.resident < z.g.resident ∨ (y.g.resident = z.g.resident ∧ y.r.grp < z.r.grp)
    let behind (p : Nat × Nat) (z : Ready) : Prop := p.1 < z.g.resident ∨ (p.1 = z.g.resident ∧ p.2 < z.r.grp)
    let since (z : Ready) : Nat := z.g.waitFrom.getD s.now
    let y := s.turnOf x
    let t := s.noteIssue x
    let yields : Prop := ∃ c, (Raw.ofWord x.w).ctl = some c ∧ (c.yld = true ∨ ((∃ k, x.i = .yield k) ∧ activeOf x.g c x.e.mask ≠ 0#32))
    (x ∈ l → y ∈ l) ∧
    (x ∈ l → (∃ z ∈ l, z.g.lane = x.g.lane ∧ ¬ must z) → ¬ must y) ∧
    (x ∈ l → vector x → ¬ must x → vector y ∧ y.g.lane = x.g.lane ∧
      ∀ z ∈ l, vector z → z.g.lane = x.g.lane → ¬ must z →
        match tblGet (s.core core).lanes x.g.lane with
        | none => ¬ before z y
        | some p => (behind p y → behind p z → ¬ before z y) ∧ (¬ behind p y → ¬ behind p z ∧ ¬ before z y)) ∧
    (x ∈ l → ¬ vector x → ¬ must x → ¬ vector y ∧ ∀ z ∈ l, ¬ vector z → ¬ must z → since y ≤ since z) ∧
    (s.group x.r = some x.g →
      (∃ g', t.group x.r = some g' ∧ g'.waitFrom = none ∧ g'.passOver = none ∧ (g'.mustPass = true ↔ yields)) ∧
      (∀ q g', q ≠ x.r → s.group q = some g' → ∃ h, t.group q = some h ∧
        (h.mustPass = true ↔ g'.mustPass = true ∧ ¬ (g'.core = x.g.core ∧ g'.lane = x.g.lane))) ∧
      (vector x → tblGet (t.core x.g.core).lanes x.g.lane = some (x.g.resident, x.r.grp)) ∧
      (¬ vector x → ∀ j, t.core j = s.core j))

/-- R59, R409: no instruction and no event stops the part: every fault is a next state. -/
def Obligations.NothingStops : Prop := ∀ (i : Instr) (s : State), ∃ t, exec i s = .next t

/-- R4, R437, R456: after device reset time is 0, no context exists, no block is resident or saved, the caches, queues, monitors and recorders
are empty, firmware has not started; every byte reads zero (log 1).

The state after reset has what the steps keep. -/
def Obligations.ResetState : Prop :=
  (let s := State.reset
   s.now = 0 ∧ s.ctxs = [] ∧ s.blocks = [] ∧ s.saved = [] ∧ s.groups = [] ∧ s.lines = [] ∧ s.gateways = [] ∧ s.cores = [] ∧ s.clusters = [] ∧
   s.queues = [] ∧ s.launches = [] ∧ s.monitors = [] ∧ s.recorder = [] ∧ s.net = [] ∧ s.fw.started = false ∧ s.mbx.busy = none ∧
   (∀ c, (s.core c).buffer = [] ∧ (s.core c).copies = [] ∧ (s.core c).slots = [] ∧ (s.core c).enabled = false) ∧
   (∀ d, (s.die d).coresOn = 0 ∧ (s.die d).cntLocal = 0#64 ∧ (s.die d).cntCxl = 0#64) ∧ ∀ a, s.mem.read a = 0#8) ∧
  (State.reset.Tidy ∧ State.reset.Numbered ∧ State.reset.Bound)

/-- Every step keeps the bytes of memory in canonical form, and leaves no line twice at its home and no group resident twice.

Where the spec leaves a choice to the model, this states the choice of log 1. -/
def Obligations.TidyKept : Prop := ∀ s t : State, s.Tidy → step s = .next t → t.Tidy

/-- R103: every step keeps the numbers of operations and buffer entries below the next number, and those of a core's entries apart. -/
def Obligations.NumberedKept : Prop := ∀ s t : State, s.Numbered → step s = .next t → t.Numbered

/-- R250 to R252, R257: every step leaves each bound thread in an aligned set of its size, with its index there, all of whose threads are bound
in it or have exited; so too the bindings that a handler suspends. -/
def Obligations.BoundKept : Prop := ∀ s t : State, s.Bound → step s = .next t → t.Bound

end
end

