-- ==== Sys2Proof/Laws/Memory.lean ====
section
/-! SUPPORT. Memory: its operations keep the canonical form, a read sees the last write, a write changes no other byte. -/

namespace Sys2Proof.Machine

theorem wfFrom_mono {lo hi : Nat} (h : lo ≤ hi) : ∀ {m : Memory}, wfFrom hi m = true → wfFrom lo m = true
  | [], _ => rfl
  | (_, _) :: _, w => by
    simp only [wfFrom, Bool.and_eq_true, decide_eq_true_eq] at w ⊢
    exact ⟨⟨by omega, w.1.2⟩, w.2⟩

theorem wfFrom_filter (p : Host.Cell → Bool) : ∀ {lo : Nat} {m : Memory}, wfFrom lo m = true → wfFrom lo (m.filter p) = true
  | _, [], _ => rfl
  | lo, (a, b) :: r, w => by
    simp only [wfFrom, Bool.and_eq_true, decide_eq_true_eq] at w
    have ih := wfFrom_filter p w.2
    by_cases hp : p (a, b) = true
    · simp only [List.filter_cons, hp, if_true, wfFrom, Bool.and_eq_true, decide_eq_true_eq]
      exact ⟨w.1, ih⟩
    · simp only [List.filter_cons, hp]
      exact wfFrom_mono (by omega) ih

theorem Memory.wf_filter (p : Host.Cell → Bool) {m : Memory} (w : m.wf = true) : Memory.wf (m.filter p) = true :=
  wfFrom_filter p w

theorem Memory.wf_clear {m : Memory} (w : m.wf = true) (a n : Nat) : (m.clear a n).wf = true := Memory.wf_filter _ w

theorem Memory.wf_outsideBytes {m : Memory} (w : m.wf = true) : (outsideBytes m).wf = true := Memory.wf_filter _ w

theorem wfFrom_write {a : Nat} {b : Byte} : ∀ {lo : Nat} {m : Memory}, wfFrom lo m = true → lo ≤ a →
    wfFrom lo (m.write a b) = true
  | lo, [], _, h => by
    by_cases hb : b = blank <;> simp [Memory.write, hb, wfFrom, h]
  | lo, (c, d) :: r, w, h => by
    simp only [wfFrom, Bool.and_eq_true, decide_eq_true_eq] at w
    obtain ⟨⟨h1, h2⟩, h3⟩ := w
    by_cases hac : a < c
    · by_cases hb : b = blank
      · simp [Memory.write, hac, hb, wfFrom, h1, h2, h3]
      · simp [Memory.write, hac, hb, wfFrom, h, h2, h3, show a + 1 ≤ c by omega]
    · by_cases hc : a = c
      · by_cases hb : b = blank
        · simp only [Memory.write, hc, hb, if_true]
          simpa [hc] using wfFrom_mono (m := r) (by omega) h3
        · simp only [Memory.write, hb, if_true, if_false, hc, lt_irrefl, wfFrom, Bool.and_eq_true,
            decide_eq_true_eq]
          exact ⟨⟨h1, by simpa using hb⟩, h3⟩
      · simp only [Memory.write, hac, hc, if_false, wfFrom, Bool.and_eq_true, decide_eq_true_eq]
        exact ⟨⟨h1, h2⟩, wfFrom_write h3 (by omega)⟩

theorem Memory.wf_write {m : Memory} (w : m.wf = true) (a : Nat) (b : Byte) : (m.write a b).wf = true :=
  wfFrom_write w (Nat.zero_le a)

theorem Memory.wf_writeL : ∀ {m : Memory} (bs : List Byte) (a : Nat), m.wf = true → (m.writeL a bs).wf = true
  | _, [], _, w => w
  | _, b :: r, a, w => Memory.wf_writeL r (a + 1) (Memory.wf_write w a b)

/-- No cell below the bound of the canonical form. -/
theorem read_below {a : Nat} : ∀ {lo : Nat} {m : Memory}, wfFrom lo m = true → a < lo → m.read a = blank
  | _, [], _, _ => rfl
  | lo, (c, d) :: r, w, h => by
    simp only [wfFrom, Bool.and_eq_true, decide_eq_true_eq] at w
    have h1 : a ≠ c := by omega
    have h2 : a < c := by omega
    simp [Memory.read, h1, h2]

theorem read_write_self {a : Nat} {b : Byte} : ∀ {lo : Nat} {m : Memory}, wfFrom lo m = true → (m.write a b).read a = b
  | _, [], _ => by
    by_cases hb : b = blank <;> simp [Memory.write, Memory.read, hb]
  | lo, (c, d) :: r, w => by
    simp only [wfFrom, Bool.and_eq_true, decide_eq_true_eq] at w
    by_cases hac : a < c
    · by_cases hb : b = blank <;> simp [Memory.write, Memory.read, hac, hb, show a ≠ c by omega]
    · by_cases hc : a = c
      · subst hc
        by_cases hb : b = blank
        · subst hb
          simp only [Memory.write, lt_irrefl, if_false, if_true]
          exact read_below w.2 (by omega)
        · simp [Memory.write, Memory.read, hb]
      · simp only [Memory.write, hac, hc, if_false, Memory.read]
        exact read_write_self w.2

theorem read_write_other {a x : Nat} {b : Byte} (hx : x ≠ a) : ∀ {lo : Nat} {m : Memory}, wfFrom lo m = true →
    (m.write a b).read x = m.read x
  | _, [], _ => by
    by_cases hb : b = blank
    · simp [Memory.write, hb]
    · by_cases h : x < a <;> simp [Memory.write, Memory.read, hb, hx]
  | lo, (c, d) :: r, w => by
    simp only [wfFrom, Bool.and_eq_true, decide_eq_true_eq] at w
    by_cases hac : a < c
    · by_cases hb : b = blank
      · simp [Memory.write, hac, hb]
      · simp only [Memory.write, hac, hb, if_true, if_false, Memory.read, hx]
        by_cases h : x < a
        · simp [h, show x ≠ c by omega, show x < c by omega]
        · simp [h]
    · by_cases hc : a = c
      · subst hc
        by_cases hb : b = blank
        · simp only [Memory.write, lt_irrefl, if_false, if_true, hb, Memory.read, hx]
          by_cases h : x < a
          · simp only [h, if_true]
            exact read_below w.2 (by omega)
          · simp [h]
        · simp [Memory.write, Memory.read, hb, hx]
      · simp only [Memory.write, hac, hc, if_false, Memory.read]
        rw [read_write_other hx w.2]

theorem Memory.read_write_self {m : Memory} (w : m.wf = true) (a : Nat) (b : Byte) : (m.write a b).read a = b :=
  Sys2Proof.Machine.read_write_self w

theorem Memory.read_write_other {m : Memory} (w : m.wf = true) {a x : Nat} (h : x ≠ a) (b : Byte) :
    (m.write a b).read x = m.read x :=
  Sys2Proof.Machine.read_write_other h w

/-- A run of bytes changes nothing outside it. -/
theorem Memory.read_writeL_outside : ∀ (bs : List Byte) {m : Memory} (a x : Nat), m.wf = true →
    (x < a ∨ a + bs.length ≤ x) → (m.writeL a bs).read x = m.read x
  | [], _, _, _, _, _ => rfl
  | b :: r, m, a, x, w, h => by
    have hl : (b :: r).length = r.length + 1 := rfl
    rw [Memory.writeL, Memory.read_writeL_outside r (a + 1) x (Memory.wf_write w a b) (by omega),
      Memory.read_write_other w (by omega)]

/-- A run of bytes reads back. -/
theorem Memory.readN_writeL : ∀ (bs : List Byte) {m : Memory} (a : Nat), m.wf = true →
    (m.writeL a bs).readN a bs.length = bs
  | [], _, _, _ => rfl
  | b :: r, m, a, w => by
    have h0 : (Memory.writeL m a (b :: r)).read a = b := by
      rw [Memory.writeL, Memory.read_writeL_outside r (a + 1) a (Memory.wf_write w a b) (by omega),
        Memory.read_write_self w]
    simp only [List.length_cons, Memory.readN, h0]
    rw [Memory.writeL, Memory.readN_writeL r (a + 1) (Memory.wf_write w a b)]

theorem leBytes_length : ∀ (n x : Nat), (leBytes n x).length = n
  | 0, _ => rfl
  | n + 1, x => by simp [leBytes, leBytes_length n]

theorem leNat_leBytes : ∀ (n x : Nat), leNat (leBytes n x) = x % 256 ^ n
  | 0, x => by simp [leBytes, leNat, Nat.mod_one]
  | n + 1, x => by
    have h := Nat.mod_mul (a := 256) (b := 256 ^ n) (x := x)
    simp only [leBytes, leNat, leNat_leBytes n, BitVec.toNat_ofNat, pow_succ']
    omega

end Sys2Proof.Machine
end

