-- ==== Sys2Proof/Laws/State.lean ====
section
/-! SUPPORT. What each update of the state leaves alone: one lemma a field. -/

namespace Sys2Proof.Machine

@[simp] theorem State.setGroup_now (s : State) (r : GroupRef) (g : Group) : (s.setGroup r g).now = s.now := rfl
@[simp] theorem State.setGroup_skew (s : State) (r : GroupRef) (g : Group) : (s.setGroup r g).skew = s.skew := rfl
@[simp] theorem State.setGroup_fresh (s : State) (r : GroupRef) (g : Group) : (s.setGroup r g).fresh = s.fresh := rfl
@[simp] theorem State.setGroup_agenda (s : State) (r : GroupRef) (g : Group) : (s.setGroup r g).agenda = s.agenda := rfl
@[simp] theorem State.setGroup_cur (s : State) (r : GroupRef) (g : Group) : (s.setGroup r g).cur = s.cur := rfl
@[simp] theorem State.setGroup_nextId (s : State) (r : GroupRef) (g : Group) : (s.setGroup r g).nextId = s.nextId := rfl
@[simp] theorem State.setGroup_blocks (s : State) (r : GroupRef) (g : Group) : (s.setGroup r g).blocks = s.blocks := rfl
@[simp] theorem State.setGroup_saved (s : State) (r : GroupRef) (g : Group) : (s.setGroup r g).saved = s.saved := rfl
@[simp] theorem State.setGroup_launches (s : State) (r : GroupRef) (g : Group) : (s.setGroup r g).launches = s.launches := rfl
@[simp] theorem State.setGroup_phases (s : State) (r : GroupRef) (g : Group) : (s.setGroup r g).phases = s.phases := rfl
@[simp] theorem State.setGroup_queues (s : State) (r : GroupRef) (g : Group) : (s.setGroup r g).queues = s.queues := rfl
@[simp] theorem State.setGroup_ctxs (s : State) (r : GroupRef) (g : Group) : (s.setGroup r g).ctxs = s.ctxs := rfl
@[simp] theorem State.setGroup_mem (s : State) (r : GroupRef) (g : Group) : (s.setGroup r g).mem = s.mem := rfl
@[simp] theorem State.setGroup_poison (s : State) (r : GroupRef) (g : Group) : (s.setGroup r g).poison = s.poison := rfl
@[simp] theorem State.setGroup_cores (s : State) (r : GroupRef) (g : Group) : (s.setGroup r g).cores = s.cores := rfl
@[simp] theorem State.setGroup_clusters (s : State) (r : GroupRef) (g : Group) : (s.setGroup r g).clusters = s.clusters := rfl
@[simp] theorem State.setGroup_dies (s : State) (r : GroupRef) (g : Group) : (s.setGroup r g).dies = s.dies := rfl
@[simp] theorem State.setGroup_lines (s : State) (r : GroupRef) (g : Group) : (s.setGroup r g).lines = s.lines := rfl
@[simp] theorem State.setGroup_misses (s : State) (r : GroupRef) (g : Group) : (s.setGroup r g).misses = s.misses := rfl
@[simp] theorem State.setGroup_gateways (s : State) (r : GroupRef) (g : Group) : (s.setGroup r g).gateways = s.gateways := rfl
@[simp] theorem State.setGroup_txns (s : State) (r : GroupRef) (g : Group) : (s.setGroup r g).txns = s.txns := rfl
@[simp] theorem State.setGroup_net (s : State) (r : GroupRef) (g : Group) : (s.setGroup r g).net = s.net := rfl
@[simp] theorem State.setGroup_mcast (s : State) (r : GroupRef) (g : Group) : (s.setGroup r g).mcast = s.mcast := rfl
@[simp] theorem State.setGroup_mcastWait (s : State) (r : GroupRef) (g : Group) : (s.setGroup r g).mcastWait = s.mcastWait := rfl
@[simp] theorem State.setGroup_monitors (s : State) (r : GroupRef) (g : Group) : (s.setGroup r g).monitors = s.monitors := rfl
@[simp] theorem State.setGroup_recorder (s : State) (r : GroupRef) (g : Group) : (s.setGroup r g).recorder = s.recorder := rfl
@[simp] theorem State.setGroup_changes (s : State) (r : GroupRef) (g : Group) : (s.setGroup r g).changes = s.changes := rfl
@[simp] theorem State.setGroup_pushWait (s : State) (r : GroupRef) (g : Group) : (s.setGroup r g).pushWait = s.pushWait := rfl
@[simp] theorem State.setGroup_codeFrames (s : State) (r : GroupRef) (g : Group) : (s.setGroup r g).codeFrames = s.codeFrames := rfl
@[simp] theorem State.setGroup_gangs (s : State) (r : GroupRef) (g : Group) : (s.setGroup r g).gangs = s.gangs := rfl
@[simp] theorem State.setGroup_mbx (s : State) (r : GroupRef) (g : Group) : (s.setGroup r g).mbx = s.mbx := rfl
@[simp] theorem State.setGroup_fw (s : State) (r : GroupRef) (g : Group) : (s.setGroup r g).fw = s.fw := rfl
@[simp] theorem State.setGroup_ports (s : State) (r : GroupRef) (g : Group) : (s.setGroup r g).ports = s.ports := rfl
@[simp] theorem State.setGroup_hostDone (s : State) (r : GroupRef) (g : Group) : (s.setGroup r g).hostDone = s.hostDone := rfl

@[simp] theorem State.modGroup_now (s : State) (r : GroupRef) (f : Group → Group) : (s.modGroup r f).now = s.now := rfl
@[simp] theorem State.modGroup_skew (s : State) (r : GroupRef) (f : Group → Group) : (s.modGroup r f).skew = s.skew := rfl
@[simp] theorem State.modGroup_fresh (s : State) (r : GroupRef) (f : Group → Group) : (s.modGroup r f).fresh = s.fresh := rfl
@[simp] theorem State.modGroup_agenda (s : State) (r : GroupRef) (f : Group → Group) : (s.modGroup r f).agenda = s.agenda := rfl
@[simp] theorem State.modGroup_cur (s : State) (r : GroupRef) (f : Group → Group) : (s.modGroup r f).cur = s.cur := rfl
@[simp] theorem State.modGroup_nextId (s : State) (r : GroupRef) (f : Group → Group) : (s.modGroup r f).nextId = s.nextId := rfl
@[simp] theorem State.modGroup_blocks (s : State) (r : GroupRef) (f : Group → Group) : (s.modGroup r f).blocks = s.blocks := rfl
@[simp] theorem State.modGroup_saved (s : State) (r : GroupRef) (f : Group → Group) : (s.modGroup r f).saved = s.saved := rfl
@[simp] theorem State.modGroup_launches (s : State) (r : GroupRef) (f : Group → Group) : (s.modGroup r f).launches = s.launches := rfl
@[simp] theorem State.modGroup_phases (s : State) (r : GroupRef) (f : Group → Group) : (s.modGroup r f).phases = s.phases := rfl
@[simp] theorem State.modGroup_queues (s : State) (r : GroupRef) (f : Group → Group) : (s.modGroup r f).queues = s.queues := rfl
@[simp] theorem State.modGroup_ctxs (s : State) (r : GroupRef) (f : Group → Group) : (s.modGroup r f).ctxs = s.ctxs := rfl
@[simp] theorem State.modGroup_mem (s : State) (r : GroupRef) (f : Group → Group) : (s.modGroup r f).mem = s.mem := rfl
@[simp] theorem State.modGroup_poison (s : State) (r : GroupRef) (f : Group → Group) : (s.modGroup r f).poison = s.poison := rfl
@[simp] theorem State.modGroup_cores (s : State) (r : GroupRef) (f : Group → Group) : (s.modGroup r f).cores = s.cores := rfl
@[simp] theorem State.modGroup_clusters (s : State) (r : GroupRef) (f : Group → Group) : (s.modGroup r f).clusters = s.clusters := rfl
@[simp] theorem State.modGroup_dies (s : State) (r : GroupRef) (f : Group → Group) : (s.modGroup r f).dies = s.dies := rfl
@[simp] theorem State.modGroup_lines (s : State) (r : GroupRef) (f : Group → Group) : (s.modGroup r f).lines = s.lines := rfl
@[simp] theorem State.modGroup_misses (s : State) (r : GroupRef) (f : Group → Group) : (s.modGroup r f).misses = s.misses := rfl
@[simp] theorem State.modGroup_gateways (s : State) (r : GroupRef) (f : Group → Group) : (s.modGroup r f).gateways = s.gateways := rfl
@[simp] theorem State.modGroup_txns (s : State) (r : GroupRef) (f : Group → Group) : (s.modGroup r f).txns = s.txns := rfl
@[simp] theorem State.modGroup_net (s : State) (r : GroupRef) (f : Group → Group) : (s.modGroup r f).net = s.net := rfl
@[simp] theorem State.modGroup_mcast (s : State) (r : GroupRef) (f : Group → Group) : (s.modGroup r f).mcast = s.mcast := rfl
@[simp] theorem State.modGroup_mcastWait (s : State) (r : GroupRef) (f : Group → Group) : (s.modGroup r f).mcastWait = s.mcastWait := rfl
@[simp] theorem State.modGroup_monitors (s : State) (r : GroupRef) (f : Group → Group) : (s.modGroup r f).monitors = s.monitors := rfl
@[simp] theorem State.modGroup_recorder (s : State) (r : GroupRef) (f : Group → Group) : (s.modGroup r f).recorder = s.recorder := rfl
@[simp] theorem State.modGroup_changes (s : State) (r : GroupRef) (f : Group → Group) : (s.modGroup r f).changes = s.changes := rfl
@[simp] theorem State.modGroup_pushWait (s : State) (r : GroupRef) (f : Group → Group) : (s.modGroup r f).pushWait = s.pushWait := rfl
@[simp] theorem State.modGroup_codeFrames (s : State) (r : GroupRef) (f : Group → Group) : (s.modGroup r f).codeFrames = s.codeFrames := rfl
@[simp] theorem State.modGroup_gangs (s : State) (r : GroupRef) (f : Group → Group) : (s.modGroup r f).gangs = s.gangs := rfl
@[simp] theorem State.modGroup_mbx (s : State) (r : GroupRef) (f : Group → Group) : (s.modGroup r f).mbx = s.mbx := rfl
@[simp] theorem State.modGroup_fw (s : State) (r : GroupRef) (f : Group → Group) : (s.modGroup r f).fw = s.fw := rfl
@[simp] theorem State.modGroup_ports (s : State) (r : GroupRef) (f : Group → Group) : (s.modGroup r f).ports = s.ports := rfl
@[simp] theorem State.modGroup_hostDone (s : State) (r : GroupRef) (f : Group → Group) : (s.modGroup r f).hostDone = s.hostDone := rfl

@[simp] theorem State.modBlock_now (s : State) (k : BlockKey) (f : Block → Block) : (s.modBlock k f).now = s.now := rfl
@[simp] theorem State.modBlock_skew (s : State) (k : BlockKey) (f : Block → Block) : (s.modBlock k f).skew = s.skew := rfl
@[simp] theorem State.modBlock_fresh (s : State) (k : BlockKey) (f : Block → Block) : (s.modBlock k f).fresh = s.fresh := rfl
@[simp] theorem State.modBlock_agenda (s : State) (k : BlockKey) (f : Block → Block) : (s.modBlock k f).agenda = s.agenda := rfl
@[simp] theorem State.modBlock_cur (s : State) (k : BlockKey) (f : Block → Block) : (s.modBlock k f).cur = s.cur := rfl
@[simp] theorem State.modBlock_nextId (s : State) (k : BlockKey) (f : Block → Block) : (s.modBlock k f).nextId = s.nextId := rfl
@[simp] theorem State.modBlock_groups (s : State) (k : BlockKey) (f : Block → Block) : (s.modBlock k f).groups = s.groups := rfl
@[simp] theorem State.modBlock_saved (s : State) (k : BlockKey) (f : Block → Block) : (s.modBlock k f).saved = s.saved := rfl
@[simp] theorem State.modBlock_launches (s : State) (k : BlockKey) (f : Block → Block) : (s.modBlock k f).launches = s.launches := rfl
@[simp] theorem State.modBlock_phases (s : State) (k : BlockKey) (f : Block → Block) : (s.modBlock k f).phases = s.phases := rfl
@[simp] theorem State.modBlock_queues (s : State) (k : BlockKey) (f : Block → Block) : (s.modBlock k f).queues = s.queues := rfl
@[simp] theorem State.modBlock_ctxs (s : State) (k : BlockKey) (f : Block → Block) : (s.modBlock k f).ctxs = s.ctxs := rfl
@[simp] theorem State.modBlock_mem (s : State) (k : BlockKey) (f : Block → Block) : (s.modBlock k f).mem = s.mem := rfl
@[simp] theorem State.modBlock_poison (s : State) (k : BlockKey) (f : Block → Block) : (s.modBlock k f).poison = s.poison := rfl
@[simp] theorem State.modBlock_cores (s : State) (k : BlockKey) (f : Block → Block) : (s.modBlock k f).cores = s.cores := rfl
@[simp] theorem State.modBlock_clusters (s : State) (k : BlockKey) (f : Block → Block) : (s.modBlock k f).clusters = s.clusters := rfl
@[simp] theorem State.modBlock_dies (s : State) (k : BlockKey) (f : Block → Block) : (s.modBlock k f).dies = s.dies := rfl
@[simp] theorem State.modBlock_lines (s : State) (k : BlockKey) (f : Block → Block) : (s.modBlock k f).lines = s.lines := rfl
@[simp] theorem State.modBlock_misses (s : State) (k : BlockKey) (f : Block → Block) : (s.modBlock k f).misses = s.misses := rfl
@[simp] theorem State.modBlock_gateways (s : State) (k : BlockKey) (f : Block → Block) : (s.modBlock k f).gateways = s.gateways := rfl
@[simp] theorem State.modBlock_txns (s : State) (k : BlockKey) (f : Block → Block) : (s.modBlock k f).txns = s.txns := rfl
@[simp] theorem State.modBlock_net (s : State) (k : BlockKey) (f : Block → Block) : (s.modBlock k f).net = s.net := rfl
@[simp] theorem State.modBlock_mcast (s : State) (k : BlockKey) (f : Block → Block) : (s.modBlock k f).mcast = s.mcast := rfl
@[simp] theorem State.modBlock_mcastWait (s : State) (k : BlockKey) (f : Block → Block) : (s.modBlock k f).mcastWait = s.mcastWait := rfl
@[simp] theorem State.modBlock_monitors (s : State) (k : BlockKey) (f : Block → Block) : (s.modBlock k f).monitors = s.monitors := rfl
@[simp] theorem State.modBlock_recorder (s : State) (k : BlockKey) (f : Block → Block) : (s.modBlock k f).recorder = s.recorder := rfl
@[simp] theorem State.modBlock_changes (s : State) (k : BlockKey) (f : Block → Block) : (s.modBlock k f).changes = s.changes := rfl
@[simp] theorem State.modBlock_pushWait (s : State) (k : BlockKey) (f : Block → Block) : (s.modBlock k f).pushWait = s.pushWait := rfl
@[simp] theorem State.modBlock_codeFrames (s : State) (k : BlockKey) (f : Block → Block) : (s.modBlock k f).codeFrames = s.codeFrames := rfl
@[simp] theorem State.modBlock_gangs (s : State) (k : BlockKey) (f : Block → Block) : (s.modBlock k f).gangs = s.gangs := rfl
@[simp] theorem State.modBlock_mbx (s : State) (k : BlockKey) (f : Block → Block) : (s.modBlock k f).mbx = s.mbx := rfl
@[simp] theorem State.modBlock_fw (s : State) (k : BlockKey) (f : Block → Block) : (s.modBlock k f).fw = s.fw := rfl
@[simp] theorem State.modBlock_ports (s : State) (k : BlockKey) (f : Block → Block) : (s.modBlock k f).ports = s.ports := rfl
@[simp] theorem State.modBlock_hostDone (s : State) (k : BlockKey) (f : Block → Block) : (s.modBlock k f).hostDone = s.hostDone := rfl

@[simp] theorem State.modCore_now (s : State) (n : Nat) (f : Core → Core) : (s.modCore n f).now = s.now := rfl
@[simp] theorem State.modCore_skew (s : State) (n : Nat) (f : Core → Core) : (s.modCore n f).skew = s.skew := rfl
@[simp] theorem State.modCore_fresh (s : State) (n : Nat) (f : Core → Core) : (s.modCore n f).fresh = s.fresh := rfl
@[simp] theorem State.modCore_agenda (s : State) (n : Nat) (f : Core → Core) : (s.modCore n f).agenda = s.agenda := rfl
@[simp] theorem State.modCore_cur (s : State) (n : Nat) (f : Core → Core) : (s.modCore n f).cur = s.cur := rfl
@[simp] theorem State.modCore_nextId (s : State) (n : Nat) (f : Core → Core) : (s.modCore n f).nextId = s.nextId := rfl
@[simp] theorem State.modCore_groups (s : State) (n : Nat) (f : Core → Core) : (s.modCore n f).groups = s.groups := rfl
@[simp] theorem State.modCore_blocks (s : State) (n : Nat) (f : Core → Core) : (s.modCore n f).blocks = s.blocks := rfl
@[simp] theorem State.modCore_saved (s : State) (n : Nat) (f : Core → Core) : (s.modCore n f).saved = s.saved := rfl
@[simp] theorem State.modCore_launches (s : State) (n : Nat) (f : Core → Core) : (s.modCore n f).launches = s.launches := rfl
@[simp] theorem State.modCore_phases (s : State) (n : Nat) (f : Core → Core) : (s.modCore n f).phases = s.phases := rfl
@[simp] theorem State.modCore_queues (s : State) (n : Nat) (f : Core → Core) : (s.modCore n f).queues = s.queues := rfl
@[simp] theorem State.modCore_ctxs (s : State) (n : Nat) (f : Core → Core) : (s.modCore n f).ctxs = s.ctxs := rfl
@[simp] theorem State.modCore_mem (s : State) (n : Nat) (f : Core → Core) : (s.modCore n f).mem = s.mem := rfl
@[simp] theorem State.modCore_poison (s : State) (n : Nat) (f : Core → Core) : (s.modCore n f).poison = s.poison := rfl
@[simp] theorem State.modCore_clusters (s : State) (n : Nat) (f : Core → Core) : (s.modCore n f).clusters = s.clusters := rfl
@[simp] theorem State.modCore_dies (s : State) (n : Nat) (f : Core → Core) : (s.modCore n f).dies = s.dies := rfl
@[simp] theorem State.modCore_lines (s : State) (n : Nat) (f : Core → Core) : (s.modCore n f).lines = s.lines := rfl
@[simp] theorem State.modCore_misses (s : State) (n : Nat) (f : Core → Core) : (s.modCore n f).misses = s.misses := rfl
@[simp] theorem State.modCore_gateways (s : State) (n : Nat) (f : Core → Core) : (s.modCore n f).gateways = s.gateways := rfl
@[simp] theorem State.modCore_txns (s : State) (n : Nat) (f : Core → Core) : (s.modCore n f).txns = s.txns := rfl
@[simp] theorem State.modCore_net (s : State) (n : Nat) (f : Core → Core) : (s.modCore n f).net = s.net := rfl
@[simp] theorem State.modCore_mcast (s : State) (n : Nat) (f : Core → Core) : (s.modCore n f).mcast = s.mcast := rfl
@[simp] theorem State.modCore_mcastWait (s : State) (n : Nat) (f : Core → Core) : (s.modCore n f).mcastWait = s.mcastWait := rfl
@[simp] theorem State.modCore_monitors (s : State) (n : Nat) (f : Core → Core) : (s.modCore n f).monitors = s.monitors := rfl
@[simp] theorem State.modCore_recorder (s : State) (n : Nat) (f : Core → Core) : (s.modCore n f).recorder = s.recorder := rfl
@[simp] theorem State.modCore_changes (s : State) (n : Nat) (f : Core → Core) : (s.modCore n f).changes = s.changes := rfl
@[simp] theorem State.modCore_pushWait (s : State) (n : Nat) (f : Core → Core) : (s.modCore n f).pushWait = s.pushWait := rfl
@[simp] theorem State.modCore_codeFrames (s : State) (n : Nat) (f : Core → Core) : (s.modCore n f).codeFrames = s.codeFrames := rfl
@[simp] theorem State.modCore_gangs (s : State) (n : Nat) (f : Core → Core) : (s.modCore n f).gangs = s.gangs := rfl
@[simp] theorem State.modCore_mbx (s : State) (n : Nat) (f : Core → Core) : (s.modCore n f).mbx = s.mbx := rfl
@[simp] theorem State.modCore_fw (s : State) (n : Nat) (f : Core → Core) : (s.modCore n f).fw = s.fw := rfl
@[simp] theorem State.modCore_ports (s : State) (n : Nat) (f : Core → Core) : (s.modCore n f).ports = s.ports := rfl
@[simp] theorem State.modCore_hostDone (s : State) (n : Nat) (f : Core → Core) : (s.modCore n f).hostDone = s.hostDone := rfl

@[simp] theorem State.modCluster_now (s : State) (n : Nat) (f : Cluster → Cluster) : (s.modCluster n f).now = s.now := rfl
@[simp] theorem State.modCluster_skew (s : State) (n : Nat) (f : Cluster → Cluster) : (s.modCluster n f).skew = s.skew := rfl
@[simp] theorem State.modCluster_fresh (s : State) (n : Nat) (f : Cluster → Cluster) : (s.modCluster n f).fresh = s.fresh := rfl
@[simp] theorem State.modCluster_agenda (s : State) (n : Nat) (f : Cluster → Cluster) : (s.modCluster n f).agenda = s.agenda := rfl
@[simp] theorem State.modCluster_cur (s : State) (n : Nat) (f : Cluster → Cluster) : (s.modCluster n f).cur = s.cur := rfl
@[simp] theorem State.modCluster_nextId (s : State) (n : Nat) (f : Cluster → Cluster) : (s.modCluster n f).nextId = s.nextId := rfl
@[simp] theorem State.modCluster_groups (s : State) (n : Nat) (f : Cluster → Cluster) : (s.modCluster n f).groups = s.groups := rfl
@[simp] theorem State.modCluster_blocks (s : State) (n : Nat) (f : Cluster → Cluster) : (s.modCluster n f).blocks = s.blocks := rfl
@[simp] theorem State.modCluster_saved (s : State) (n : Nat) (f : Cluster → Cluster) : (s.modCluster n f).saved = s.saved := rfl
@[simp] theorem State.modCluster_launches (s : State) (n : Nat) (f : Cluster → Cluster) : (s.modCluster n f).launches = s.launches := rfl
@[simp] theorem State.modCluster_phases (s : State) (n : Nat) (f : Cluster → Cluster) : (s.modCluster n f).phases = s.phases := rfl
@[simp] theorem State.modCluster_queues (s : State) (n : Nat) (f : Cluster → Cluster) : (s.modCluster n f).queues = s.queues := rfl
@[simp] theorem State.modCluster_ctxs (s : State) (n : Nat) (f : Cluster → Cluster) : (s.modCluster n f).ctxs = s.ctxs := rfl
@[simp] theorem State.modCluster_mem (s : State) (n : Nat) (f : Cluster → Cluster) : (s.modCluster n f).mem = s.mem := rfl
@[simp] theorem State.modCluster_poison (s : State) (n : Nat) (f : Cluster → Cluster) : (s.modCluster n f).poison = s.poison := rfl
@[simp] theorem State.modCluster_cores (s : State) (n : Nat) (f : Cluster → Cluster) : (s.modCluster n f).cores = s.cores := rfl
@[simp] theorem State.modCluster_dies (s : State) (n : Nat) (f : Cluster → Cluster) : (s.modCluster n f).dies = s.dies := rfl
@[simp] theorem State.modCluster_lines (s : State) (n : Nat) (f : Cluster → Cluster) : (s.modCluster n f).lines = s.lines := rfl
@[simp] theorem State.modCluster_misses (s : State) (n : Nat) (f : Cluster → Cluster) : (s.modCluster n f).misses = s.misses := rfl
@[simp] theorem State.modCluster_gateways (s : State) (n : Nat) (f : Cluster → Cluster) : (s.modCluster n f).gateways = s.gateways := rfl
@[simp] theorem State.modCluster_txns (s : State) (n : Nat) (f : Cluster → Cluster) : (s.modCluster n f).txns = s.txns := rfl
@[simp] theorem State.modCluster_net (s : State) (n : Nat) (f : Cluster → Cluster) : (s.modCluster n f).net = s.net := rfl
@[simp] theorem State.modCluster_mcast (s : State) (n : Nat) (f : Cluster → Cluster) : (s.modCluster n f).mcast = s.mcast := rfl
@[simp] theorem State.modCluster_mcastWait (s : State) (n : Nat) (f : Cluster → Cluster) : (s.modCluster n f).mcastWait = s.mcastWait := rfl
@[simp] theorem State.modCluster_monitors (s : State) (n : Nat) (f : Cluster → Cluster) : (s.modCluster n f).monitors = s.monitors := rfl
@[simp] theorem State.modCluster_recorder (s : State) (n : Nat) (f : Cluster → Cluster) : (s.modCluster n f).recorder = s.recorder := rfl
@[simp] theorem State.modCluster_changes (s : State) (n : Nat) (f : Cluster → Cluster) : (s.modCluster n f).changes = s.changes := rfl
@[simp] theorem State.modCluster_pushWait (s : State) (n : Nat) (f : Cluster → Cluster) : (s.modCluster n f).pushWait = s.pushWait := rfl
@[simp] theorem State.modCluster_codeFrames (s : State) (n : Nat) (f : Cluster → Cluster) : (s.modCluster n f).codeFrames = s.codeFrames := rfl
@[simp] theorem State.modCluster_gangs (s : State) (n : Nat) (f : Cluster → Cluster) : (s.modCluster n f).gangs = s.gangs := rfl
@[simp] theorem State.modCluster_mbx (s : State) (n : Nat) (f : Cluster → Cluster) : (s.modCluster n f).mbx = s.mbx := rfl
@[simp] theorem State.modCluster_fw (s : State) (n : Nat) (f : Cluster → Cluster) : (s.modCluster n f).fw = s.fw := rfl
@[simp] theorem State.modCluster_ports (s : State) (n : Nat) (f : Cluster → Cluster) : (s.modCluster n f).ports = s.ports := rfl
@[simp] theorem State.modCluster_hostDone (s : State) (n : Nat) (f : Cluster → Cluster) : (s.modCluster n f).hostDone = s.hostDone := rfl

@[simp] theorem State.modDie_now (s : State) (n : Nat) (f : Die → Die) : (s.modDie n f).now = s.now := rfl
@[simp] theorem State.modDie_skew (s : State) (n : Nat) (f : Die → Die) : (s.modDie n f).skew = s.skew := rfl
@[simp] theorem State.modDie_fresh (s : State) (n : Nat) (f : Die → Die) : (s.modDie n f).fresh = s.fresh := rfl
@[simp] theorem State.modDie_agenda (s : State) (n : Nat) (f : Die → Die) : (s.modDie n f).agenda = s.agenda := rfl
@[simp] theorem State.modDie_cur (s : State) (n : Nat) (f : Die → Die) : (s.modDie n f).cur = s.cur := rfl
@[simp] theorem State.modDie_nextId (s : State) (n : Nat) (f : Die → Die) : (s.modDie n f).nextId = s.nextId := rfl
@[simp] theorem State.modDie_groups (s : State) (n : Nat) (f : Die → Die) : (s.modDie n f).groups = s.groups := rfl
@[simp] theorem State.modDie_blocks (s : State) (n : Nat) (f : Die → Die) : (s.modDie n f).blocks = s.blocks := rfl
@[simp] theorem State.modDie_saved (s : State) (n : Nat) (f : Die → Die) : (s.modDie n f).saved = s.saved := rfl
@[simp] theorem State.modDie_launches (s : State) (n : Nat) (f : Die → Die) : (s.modDie n f).launches = s.launches := rfl
@[simp] theorem State.modDie_phases (s : State) (n : Nat) (f : Die → Die) : (s.modDie n f).phases = s.phases := rfl
@[simp] theorem State.modDie_queues (s : State) (n : Nat) (f : Die → Die) : (s.modDie n f).queues = s.queues := rfl
@[simp] theorem State.modDie_ctxs (s : State) (n : Nat) (f : Die → Die) : (s.modDie n f).ctxs = s.ctxs := rfl
@[simp] theorem State.modDie_mem (s : State) (n : Nat) (f : Die → Die) : (s.modDie n f).mem = s.mem := rfl
@[simp] theorem State.modDie_poison (s : State) (n : Nat) (f : Die → Die) : (s.modDie n f).poison = s.poison := rfl
@[simp] theorem State.modDie_cores (s : State) (n : Nat) (f : Die → Die) : (s.modDie n f).cores = s.cores := rfl
@[simp] theorem State.modDie_clusters (s : State) (n : Nat) (f : Die → Die) : (s.modDie n f).clusters = s.clusters := rfl
@[simp] theorem State.modDie_lines (s : State) (n : Nat) (f : Die → Die) : (s.modDie n f).lines = s.lines := rfl
@[simp] theorem State.modDie_misses (s : State) (n : Nat) (f : Die → Die) : (s.modDie n f).misses = s.misses := rfl
@[simp] theorem State.modDie_gateways (s : State) (n : Nat) (f : Die → Die) : (s.modDie n f).gateways = s.gateways := rfl
@[simp] theorem State.modDie_txns (s : State) (n : Nat) (f : Die → Die) : (s.modDie n f).txns = s.txns := rfl
@[simp] theorem State.modDie_net (s : State) (n : Nat) (f : Die → Die) : (s.modDie n f).net = s.net := rfl
@[simp] theorem State.modDie_mcast (s : State) (n : Nat) (f : Die → Die) : (s.modDie n f).mcast = s.mcast := rfl
@[simp] theorem State.modDie_mcastWait (s : State) (n : Nat) (f : Die → Die) : (s.modDie n f).mcastWait = s.mcastWait := rfl
@[simp] theorem State.modDie_monitors (s : State) (n : Nat) (f : Die → Die) : (s.modDie n f).monitors = s.monitors := rfl
@[simp] theorem State.modDie_recorder (s : State) (n : Nat) (f : Die → Die) : (s.modDie n f).recorder = s.recorder := rfl
@[simp] theorem State.modDie_changes (s : State) (n : Nat) (f : Die → Die) : (s.modDie n f).changes = s.changes := rfl
@[simp] theorem State.modDie_pushWait (s : State) (n : Nat) (f : Die → Die) : (s.modDie n f).pushWait = s.pushWait := rfl
@[simp] theorem State.modDie_codeFrames (s : State) (n : Nat) (f : Die → Die) : (s.modDie n f).codeFrames = s.codeFrames := rfl
@[simp] theorem State.modDie_gangs (s : State) (n : Nat) (f : Die → Die) : (s.modDie n f).gangs = s.gangs := rfl
@[simp] theorem State.modDie_mbx (s : State) (n : Nat) (f : Die → Die) : (s.modDie n f).mbx = s.mbx := rfl
@[simp] theorem State.modDie_fw (s : State) (n : Nat) (f : Die → Die) : (s.modDie n f).fw = s.fw := rfl
@[simp] theorem State.modDie_ports (s : State) (n : Nat) (f : Die → Die) : (s.modDie n f).ports = s.ports := rfl
@[simp] theorem State.modDie_hostDone (s : State) (n : Nat) (f : Die → Die) : (s.modDie n f).hostDone = s.hostDone := rfl

@[simp] theorem State.modCtx_now (s : State) (n : Nat) (f : Ctx → Ctx) : (s.modCtx n f).now = s.now := rfl
@[simp] theorem State.modCtx_skew (s : State) (n : Nat) (f : Ctx → Ctx) : (s.modCtx n f).skew = s.skew := rfl
@[simp] theorem State.modCtx_fresh (s : State) (n : Nat) (f : Ctx → Ctx) : (s.modCtx n f).fresh = s.fresh := rfl
@[simp] theorem State.modCtx_agenda (s : State) (n : Nat) (f : Ctx → Ctx) : (s.modCtx n f).agenda = s.agenda := rfl
@[simp] theorem State.modCtx_cur (s : State) (n : Nat) (f : Ctx → Ctx) : (s.modCtx n f).cur = s.cur := rfl
@[simp] theorem State.modCtx_nextId (s : State) (n : Nat) (f : Ctx → Ctx) : (s.modCtx n f).nextId = s.nextId := rfl
@[simp] theorem State.modCtx_groups (s : State) (n : Nat) (f : Ctx → Ctx) : (s.modCtx n f).groups = s.groups := rfl
@[simp] theorem State.modCtx_blocks (s : State) (n : Nat) (f : Ctx → Ctx) : (s.modCtx n f).blocks = s.blocks := rfl
@[simp] theorem State.modCtx_saved (s : State) (n : Nat) (f : Ctx → Ctx) : (s.modCtx n f).saved = s.saved := rfl
@[simp] theorem State.modCtx_launches (s : State) (n : Nat) (f : Ctx → Ctx) : (s.modCtx n f).launches = s.launches := rfl
@[simp] theorem State.modCtx_phases (s : State) (n : Nat) (f : Ctx → Ctx) : (s.modCtx n f).phases = s.phases := rfl
@[simp] theorem State.modCtx_queues (s : State) (n : Nat) (f : Ctx → Ctx) : (s.modCtx n f).queues = s.queues := rfl
@[simp] theorem State.modCtx_mem (s : State) (n : Nat) (f : Ctx → Ctx) : (s.modCtx n f).mem = s.mem := rfl
@[simp] theorem State.modCtx_poison (s : State) (n : Nat) (f : Ctx → Ctx) : (s.modCtx n f).poison = s.poison := rfl
@[simp] theorem State.modCtx_cores (s : State) (n : Nat) (f : Ctx → Ctx) : (s.modCtx n f).cores = s.cores := rfl
@[simp] theorem State.modCtx_clusters (s : State) (n : Nat) (f : Ctx → Ctx) : (s.modCtx n f).clusters = s.clusters := rfl
@[simp] theorem State.modCtx_dies (s : State) (n : Nat) (f : Ctx → Ctx) : (s.modCtx n f).dies = s.dies := rfl
@[simp] theorem State.modCtx_lines (s : State) (n : Nat) (f : Ctx → Ctx) : (s.modCtx n f).lines = s.lines := rfl
@[simp] theorem State.modCtx_misses (s : State) (n : Nat) (f : Ctx → Ctx) : (s.modCtx n f).misses = s.misses := rfl
@[simp] theorem State.modCtx_gateways (s : State) (n : Nat) (f : Ctx → Ctx) : (s.modCtx n f).gateways = s.gateways := rfl
@[simp] theorem State.modCtx_txns (s : State) (n : Nat) (f : Ctx → Ctx) : (s.modCtx n f).txns = s.txns := rfl
@[simp] theorem State.modCtx_net (s : State) (n : Nat) (f : Ctx → Ctx) : (s.modCtx n f).net = s.net := rfl
@[simp] theorem State.modCtx_mcast (s : State) (n : Nat) (f : Ctx → Ctx) : (s.modCtx n f).mcast = s.mcast := rfl
@[simp] theorem State.modCtx_mcastWait (s : State) (n : Nat) (f : Ctx → Ctx) : (s.modCtx n f).mcastWait = s.mcastWait := rfl
@[simp] theorem State.modCtx_monitors (s : State) (n : Nat) (f : Ctx → Ctx) : (s.modCtx n f).monitors = s.monitors := rfl
@[simp] theorem State.modCtx_recorder (s : State) (n : Nat) (f : Ctx → Ctx) : (s.modCtx n f).recorder = s.recorder := rfl
@[simp] theorem State.modCtx_changes (s : State) (n : Nat) (f : Ctx → Ctx) : (s.modCtx n f).changes = s.changes := rfl
@[simp] theorem State.modCtx_pushWait (s : State) (n : Nat) (f : Ctx → Ctx) : (s.modCtx n f).pushWait = s.pushWait := rfl
@[simp] theorem State.modCtx_codeFrames (s : State) (n : Nat) (f : Ctx → Ctx) : (s.modCtx n f).codeFrames = s.codeFrames := rfl
@[simp] theorem State.modCtx_gangs (s : State) (n : Nat) (f : Ctx → Ctx) : (s.modCtx n f).gangs = s.gangs := rfl
@[simp] theorem State.modCtx_mbx (s : State) (n : Nat) (f : Ctx → Ctx) : (s.modCtx n f).mbx = s.mbx := rfl
@[simp] theorem State.modCtx_fw (s : State) (n : Nat) (f : Ctx → Ctx) : (s.modCtx n f).fw = s.fw := rfl
@[simp] theorem State.modCtx_ports (s : State) (n : Nat) (f : Ctx → Ctx) : (s.modCtx n f).ports = s.ports := rfl
@[simp] theorem State.modCtx_hostDone (s : State) (n : Nat) (f : Ctx → Ctx) : (s.modCtx n f).hostDone = s.hostDone := rfl

@[simp] theorem State.modLaunch_now (s : State) (n : Nat) (f : Launch → Launch) : (s.modLaunch n f).now = s.now := rfl
@[simp] theorem State.modLaunch_skew (s : State) (n : Nat) (f : Launch → Launch) : (s.modLaunch n f).skew = s.skew := rfl
@[simp] theorem State.modLaunch_fresh (s : State) (n : Nat) (f : Launch → Launch) : (s.modLaunch n f).fresh = s.fresh := rfl
@[simp] theorem State.modLaunch_agenda (s : State) (n : Nat) (f : Launch → Launch) : (s.modLaunch n f).agenda = s.agenda := rfl
@[simp] theorem State.modLaunch_cur (s : State) (n : Nat) (f : Launch → Launch) : (s.modLaunch n f).cur = s.cur := rfl
@[simp] theorem State.modLaunch_nextId (s : State) (n : Nat) (f : Launch → Launch) : (s.modLaunch n f).nextId = s.nextId := rfl
@[simp] theorem State.modLaunch_groups (s : State) (n : Nat) (f : Launch → Launch) : (s.modLaunch n f).groups = s.groups := rfl
@[simp] theorem State.modLaunch_blocks (s : State) (n : Nat) (f : Launch → Launch) : (s.modLaunch n f).blocks = s.blocks := rfl
@[simp] theorem State.modLaunch_saved (s : State) (n : Nat) (f : Launch → Launch) : (s.modLaunch n f).saved = s.saved := rfl
@[simp] theorem State.modLaunch_phases (s : State) (n : Nat) (f : Launch → Launch) : (s.modLaunch n f).phases = s.phases := rfl
@[simp] theorem State.modLaunch_queues (s : State) (n : Nat) (f : Launch → Launch) : (s.modLaunch n f).queues = s.queues := rfl
@[simp] theorem State.modLaunch_ctxs (s : State) (n : Nat) (f : Launch → Launch) : (s.modLaunch n f).ctxs = s.ctxs := rfl
@[simp] theorem State.modLaunch_mem (s : State) (n : Nat) (f : Launch → Launch) : (s.modLaunch n f).mem = s.mem := rfl
@[simp] theorem State.modLaunch_poison (s : State) (n : Nat) (f : Launch → Launch) : (s.modLaunch n f).poison = s.poison := rfl
@[simp] theorem State.modLaunch_cores (s : State) (n : Nat) (f : Launch → Launch) : (s.modLaunch n f).cores = s.cores := rfl
@[simp] theorem State.modLaunch_clusters (s : State) (n : Nat) (f : Launch → Launch) : (s.modLaunch n f).clusters = s.clusters := rfl
@[simp] theorem State.modLaunch_dies (s : State) (n : Nat) (f : Launch → Launch) : (s.modLaunch n f).dies = s.dies := rfl
@[simp] theorem State.modLaunch_lines (s : State) (n : Nat) (f : Launch → Launch) : (s.modLaunch n f).lines = s.lines := rfl
@[simp] theorem State.modLaunch_misses (s : State) (n : Nat) (f : Launch → Launch) : (s.modLaunch n f).misses = s.misses := rfl
@[simp] theorem State.modLaunch_gateways (s : State) (n : Nat) (f : Launch → Launch) : (s.modLaunch n f).gateways = s.gateways := rfl
@[simp] theorem State.modLaunch_txns (s : State) (n : Nat) (f : Launch → Launch) : (s.modLaunch n f).txns = s.txns := rfl
@[simp] theorem State.modLaunch_net (s : State) (n : Nat) (f : Launch → Launch) : (s.modLaunch n f).net = s.net := rfl
@[simp] theorem State.modLaunch_mcast (s : State) (n : Nat) (f : Launch → Launch) : (s.modLaunch n f).mcast = s.mcast := rfl
@[simp] theorem State.modLaunch_mcastWait (s : State) (n : Nat) (f : Launch → Launch) : (s.modLaunch n f).mcastWait = s.mcastWait := rfl
@[simp] theorem State.modLaunch_monitors (s : State) (n : Nat) (f : Launch → Launch) : (s.modLaunch n f).monitors = s.monitors := rfl
@[simp] theorem State.modLaunch_recorder (s : State) (n : Nat) (f : Launch → Launch) : (s.modLaunch n f).recorder = s.recorder := rfl
@[simp] theorem State.modLaunch_changes (s : State) (n : Nat) (f : Launch → Launch) : (s.modLaunch n f).changes = s.changes := rfl
@[simp] theorem State.modLaunch_pushWait (s : State) (n : Nat) (f : Launch → Launch) : (s.modLaunch n f).pushWait = s.pushWait := rfl
@[simp] theorem State.modLaunch_codeFrames (s : State) (n : Nat) (f : Launch → Launch) : (s.modLaunch n f).codeFrames = s.codeFrames := rfl
@[simp] theorem State.modLaunch_gangs (s : State) (n : Nat) (f : Launch → Launch) : (s.modLaunch n f).gangs = s.gangs := rfl
@[simp] theorem State.modLaunch_mbx (s : State) (n : Nat) (f : Launch → Launch) : (s.modLaunch n f).mbx = s.mbx := rfl
@[simp] theorem State.modLaunch_fw (s : State) (n : Nat) (f : Launch → Launch) : (s.modLaunch n f).fw = s.fw := rfl
@[simp] theorem State.modLaunch_ports (s : State) (n : Nat) (f : Launch → Launch) : (s.modLaunch n f).ports = s.ports := rfl
@[simp] theorem State.modLaunch_hostDone (s : State) (n : Nat) (f : Launch → Launch) : (s.modLaunch n f).hostDone = s.hostDone := rfl

@[simp] theorem State.freshId_now (s : State) : (s.freshId.2).now = s.now := rfl
@[simp] theorem State.freshId_skew (s : State) : (s.freshId.2).skew = s.skew := rfl
@[simp] theorem State.freshId_fresh (s : State) : (s.freshId.2).fresh = s.fresh := rfl
@[simp] theorem State.freshId_agenda (s : State) : (s.freshId.2).agenda = s.agenda := rfl
@[simp] theorem State.freshId_cur (s : State) : (s.freshId.2).cur = s.cur := rfl
@[simp] theorem State.freshId_groups (s : State) : (s.freshId.2).groups = s.groups := rfl
@[simp] theorem State.freshId_blocks (s : State) : (s.freshId.2).blocks = s.blocks := rfl
@[simp] theorem State.freshId_saved (s : State) : (s.freshId.2).saved = s.saved := rfl
@[simp] theorem State.freshId_launches (s : State) : (s.freshId.2).launches = s.launches := rfl
@[simp] theorem State.freshId_phases (s : State) : (s.freshId.2).phases = s.phases := rfl
@[simp] theorem State.freshId_queues (s : State) : (s.freshId.2).queues = s.queues := rfl
@[simp] theorem State.freshId_ctxs (s : State) : (s.freshId.2).ctxs = s.ctxs := rfl
@[simp] theorem State.freshId_mem (s : State) : (s.freshId.2).mem = s.mem := rfl
@[simp] theorem State.freshId_poison (s : State) : (s.freshId.2).poison = s.poison := rfl
@[simp] theorem State.freshId_cores (s : State) : (s.freshId.2).cores = s.cores := rfl
@[simp] theorem State.freshId_clusters (s : State) : (s.freshId.2).clusters = s.clusters := rfl
@[simp] theorem State.freshId_dies (s : State) : (s.freshId.2).dies = s.dies := rfl
@[simp] theorem State.freshId_lines (s : State) : (s.freshId.2).lines = s.lines := rfl
@[simp] theorem State.freshId_misses (s : State) : (s.freshId.2).misses = s.misses := rfl
@[simp] theorem State.freshId_gateways (s : State) : (s.freshId.2).gateways = s.gateways := rfl
@[simp] theorem State.freshId_txns (s : State) : (s.freshId.2).txns = s.txns := rfl
@[simp] theorem State.freshId_net (s : State) : (s.freshId.2).net = s.net := rfl
@[simp] theorem State.freshId_mcast (s : State) : (s.freshId.2).mcast = s.mcast := rfl
@[simp] theorem State.freshId_mcastWait (s : State) : (s.freshId.2).mcastWait = s.mcastWait := rfl
@[simp] theorem State.freshId_monitors (s : State) : (s.freshId.2).monitors = s.monitors := rfl
@[simp] theorem State.freshId_recorder (s : State) : (s.freshId.2).recorder = s.recorder := rfl
@[simp] theorem State.freshId_changes (s : State) : (s.freshId.2).changes = s.changes := rfl
@[simp] theorem State.freshId_pushWait (s : State) : (s.freshId.2).pushWait = s.pushWait := rfl
@[simp] theorem State.freshId_codeFrames (s : State) : (s.freshId.2).codeFrames = s.codeFrames := rfl
@[simp] theorem State.freshId_gangs (s : State) : (s.freshId.2).gangs = s.gangs := rfl
@[simp] theorem State.freshId_mbx (s : State) : (s.freshId.2).mbx = s.mbx := rfl
@[simp] theorem State.freshId_fw (s : State) : (s.freshId.2).fw = s.fw := rfl
@[simp] theorem State.freshId_ports (s : State) : (s.freshId.2).ports = s.ports := rfl
@[simp] theorem State.freshId_hostDone (s : State) : (s.freshId.2).hostDone = s.hostDone := rfl

@[simp] theorem State.send_now (s : State) (ch : Chan) (b : Body) : (s.send ch b).now = s.now := rfl
@[simp] theorem State.send_skew (s : State) (ch : Chan) (b : Body) : (s.send ch b).skew = s.skew := rfl
@[simp] theorem State.send_fresh (s : State) (ch : Chan) (b : Body) : (s.send ch b).fresh = s.fresh := rfl
@[simp] theorem State.send_agenda (s : State) (ch : Chan) (b : Body) : (s.send ch b).agenda = s.agenda := rfl
@[simp] theorem State.send_cur (s : State) (ch : Chan) (b : Body) : (s.send ch b).cur = s.cur := rfl
@[simp] theorem State.send_nextId (s : State) (ch : Chan) (b : Body) : (s.send ch b).nextId = s.nextId := rfl
@[simp] theorem State.send_groups (s : State) (ch : Chan) (b : Body) : (s.send ch b).groups = s.groups := rfl
@[simp] theorem State.send_blocks (s : State) (ch : Chan) (b : Body) : (s.send ch b).blocks = s.blocks := rfl
@[simp] theorem State.send_saved (s : State) (ch : Chan) (b : Body) : (s.send ch b).saved = s.saved := rfl
@[simp] theorem State.send_launches (s : State) (ch : Chan) (b : Body) : (s.send ch b).launches = s.launches := rfl
@[simp] theorem State.send_phases (s : State) (ch : Chan) (b : Body) : (s.send ch b).phases = s.phases := rfl
@[simp] theorem State.send_queues (s : State) (ch : Chan) (b : Body) : (s.send ch b).queues = s.queues := rfl
@[simp] theorem State.send_ctxs (s : State) (ch : Chan) (b : Body) : (s.send ch b).ctxs = s.ctxs := rfl
@[simp] theorem State.send_mem (s : State) (ch : Chan) (b : Body) : (s.send ch b).mem = s.mem := rfl
@[simp] theorem State.send_poison (s : State) (ch : Chan) (b : Body) : (s.send ch b).poison = s.poison := rfl
@[simp] theorem State.send_cores (s : State) (ch : Chan) (b : Body) : (s.send ch b).cores = s.cores := rfl
@[simp] theorem State.send_clusters (s : State) (ch : Chan) (b : Body) : (s.send ch b).clusters = s.clusters := rfl
@[simp] theorem State.send_dies (s : State) (ch : Chan) (b : Body) : (s.send ch b).dies = s.dies := rfl
@[simp] theorem State.send_lines (s : State) (ch : Chan) (b : Body) : (s.send ch b).lines = s.lines := rfl
@[simp] theorem State.send_misses (s : State) (ch : Chan) (b : Body) : (s.send ch b).misses = s.misses := rfl
@[simp] theorem State.send_gateways (s : State) (ch : Chan) (b : Body) : (s.send ch b).gateways = s.gateways := rfl
@[simp] theorem State.send_txns (s : State) (ch : Chan) (b : Body) : (s.send ch b).txns = s.txns := rfl
@[simp] theorem State.send_mcast (s : State) (ch : Chan) (b : Body) : (s.send ch b).mcast = s.mcast := rfl
@[simp] theorem State.send_mcastWait (s : State) (ch : Chan) (b : Body) : (s.send ch b).mcastWait = s.mcastWait := rfl
@[simp] theorem State.send_monitors (s : State) (ch : Chan) (b : Body) : (s.send ch b).monitors = s.monitors := rfl
@[simp] theorem State.send_recorder (s : State) (ch : Chan) (b : Body) : (s.send ch b).recorder = s.recorder := rfl
@[simp] theorem State.send_changes (s : State) (ch : Chan) (b : Body) : (s.send ch b).changes = s.changes := rfl
@[simp] theorem State.send_pushWait (s : State) (ch : Chan) (b : Body) : (s.send ch b).pushWait = s.pushWait := rfl
@[simp] theorem State.send_codeFrames (s : State) (ch : Chan) (b : Body) : (s.send ch b).codeFrames = s.codeFrames := rfl
@[simp] theorem State.send_gangs (s : State) (ch : Chan) (b : Body) : (s.send ch b).gangs = s.gangs := rfl
@[simp] theorem State.send_mbx (s : State) (ch : Chan) (b : Body) : (s.send ch b).mbx = s.mbx := rfl
@[simp] theorem State.send_fw (s : State) (ch : Chan) (b : Body) : (s.send ch b).fw = s.fw := rfl
@[simp] theorem State.send_ports (s : State) (ch : Chan) (b : Body) : (s.send ch b).ports = s.ports := rfl
@[simp] theorem State.send_hostDone (s : State) (ch : Chan) (b : Body) : (s.send ch b).hostDone = s.hostDone := rfl

@[simp] theorem State.sendOwn_now (s : State) (ch : Chan) (b : Body) (own : List ThreadRef) (n : Nat) : (s.sendOwn ch b own n).now = s.now := rfl
@[simp] theorem State.sendOwn_skew (s : State) (ch : Chan) (b : Body) (own : List ThreadRef) (n : Nat) : (s.sendOwn ch b own n).skew = s.skew := rfl
@[simp] theorem State.sendOwn_fresh (s : State) (ch : Chan) (b : Body) (own : List ThreadRef) (n : Nat) : (s.sendOwn ch b own n).fresh = s.fresh := rfl
@[simp] theorem State.sendOwn_agenda (s : State) (ch : Chan) (b : Body) (own : List ThreadRef) (n : Nat) : (s.sendOwn ch b own n).agenda = s.agenda := rfl
@[simp] theorem State.sendOwn_cur (s : State) (ch : Chan) (b : Body) (own : List ThreadRef) (n : Nat) : (s.sendOwn ch b own n).cur = s.cur := rfl
@[simp] theorem State.sendOwn_nextId (s : State) (ch : Chan) (b : Body) (own : List ThreadRef) (n : Nat) : (s.sendOwn ch b own n).nextId = s.nextId := rfl
@[simp] theorem State.sendOwn_groups (s : State) (ch : Chan) (b : Body) (own : List ThreadRef) (n : Nat) : (s.sendOwn ch b own n).groups = s.groups := rfl
@[simp] theorem State.sendOwn_blocks (s : State) (ch : Chan) (b : Body) (own : List ThreadRef) (n : Nat) : (s.sendOwn ch b own n).blocks = s.blocks := rfl
@[simp] theorem State.sendOwn_saved (s : State) (ch : Chan) (b : Body) (own : List ThreadRef) (n : Nat) : (s.sendOwn ch b own n).saved = s.saved := rfl
@[simp] theorem State.sendOwn_launches (s : State) (ch : Chan) (b : Body) (own : List ThreadRef) (n : Nat) : (s.sendOwn ch b own n).launches = s.launches := rfl
@[simp] theorem State.sendOwn_phases (s : State) (ch : Chan) (b : Body) (own : List ThreadRef) (n : Nat) : (s.sendOwn ch b own n).phases = s.phases := rfl
@[simp] theorem State.sendOwn_queues (s : State) (ch : Chan) (b : Body) (own : List ThreadRef) (n : Nat) : (s.sendOwn ch b own n).queues = s.queues := rfl
@[simp] theorem State.sendOwn_ctxs (s : State) (ch : Chan) (b : Body) (own : List ThreadRef) (n : Nat) : (s.sendOwn ch b own n).ctxs = s.ctxs := rfl
@[simp] theorem State.sendOwn_mem (s : State) (ch : Chan) (b : Body) (own : List ThreadRef) (n : Nat) : (s.sendOwn ch b own n).mem = s.mem := rfl
@[simp] theorem State.sendOwn_poison (s : State) (ch : Chan) (b : Body) (own : List ThreadRef) (n : Nat) : (s.sendOwn ch b own n).poison = s.poison := rfl
@[simp] theorem State.sendOwn_cores (s : State) (ch : Chan) (b : Body) (own : List ThreadRef) (n : Nat) : (s.sendOwn ch b own n).cores = s.cores := rfl
@[simp] theorem State.sendOwn_clusters (s : State) (ch : Chan) (b : Body) (own : List ThreadRef) (n : Nat) : (s.sendOwn ch b own n).clusters = s.clusters := rfl
@[simp] theorem State.sendOwn_dies (s : State) (ch : Chan) (b : Body) (own : List ThreadRef) (n : Nat) : (s.sendOwn ch b own n).dies = s.dies := rfl
@[simp] theorem State.sendOwn_lines (s : State) (ch : Chan) (b : Body) (own : List ThreadRef) (n : Nat) : (s.sendOwn ch b own n).lines = s.lines := rfl
@[simp] theorem State.sendOwn_misses (s : State) (ch : Chan) (b : Body) (own : List ThreadRef) (n : Nat) : (s.sendOwn ch b own n).misses = s.misses := rfl
@[simp] theorem State.sendOwn_gateways (s : State) (ch : Chan) (b : Body) (own : List ThreadRef) (n : Nat) : (s.sendOwn ch b own n).gateways = s.gateways := rfl
@[simp] theorem State.sendOwn_txns (s : State) (ch : Chan) (b : Body) (own : List ThreadRef) (n : Nat) : (s.sendOwn ch b own n).txns = s.txns := rfl
@[simp] theorem State.sendOwn_mcast (s : State) (ch : Chan) (b : Body) (own : List ThreadRef) (n : Nat) : (s.sendOwn ch b own n).mcast = s.mcast := rfl
@[simp] theorem State.sendOwn_mcastWait (s : State) (ch : Chan) (b : Body) (own : List ThreadRef) (n : Nat) : (s.sendOwn ch b own n).mcastWait = s.mcastWait := rfl
@[simp] theorem State.sendOwn_monitors (s : State) (ch : Chan) (b : Body) (own : List ThreadRef) (n : Nat) : (s.sendOwn ch b own n).monitors = s.monitors := rfl
@[simp] theorem State.sendOwn_recorder (s : State) (ch : Chan) (b : Body) (own : List ThreadRef) (n : Nat) : (s.sendOwn ch b own n).recorder = s.recorder := rfl
@[simp] theorem State.sendOwn_changes (s : State) (ch : Chan) (b : Body) (own : List ThreadRef) (n : Nat) : (s.sendOwn ch b own n).changes = s.changes := rfl
@[simp] theorem State.sendOwn_pushWait (s : State) (ch : Chan) (b : Body) (own : List ThreadRef) (n : Nat) : (s.sendOwn ch b own n).pushWait = s.pushWait := rfl
@[simp] theorem State.sendOwn_codeFrames (s : State) (ch : Chan) (b : Body) (own : List ThreadRef) (n : Nat) : (s.sendOwn ch b own n).codeFrames = s.codeFrames := rfl
@[simp] theorem State.sendOwn_gangs (s : State) (ch : Chan) (b : Body) (own : List ThreadRef) (n : Nat) : (s.sendOwn ch b own n).gangs = s.gangs := rfl
@[simp] theorem State.sendOwn_mbx (s : State) (ch : Chan) (b : Body) (own : List ThreadRef) (n : Nat) : (s.sendOwn ch b own n).mbx = s.mbx := rfl
@[simp] theorem State.sendOwn_fw (s : State) (ch : Chan) (b : Body) (own : List ThreadRef) (n : Nat) : (s.sendOwn ch b own n).fw = s.fw := rfl
@[simp] theorem State.sendOwn_ports (s : State) (ch : Chan) (b : Body) (own : List ThreadRef) (n : Nat) : (s.sendOwn ch b own n).ports = s.ports := rfl
@[simp] theorem State.sendOwn_hostDone (s : State) (ch : Chan) (b : Body) (own : List ThreadRef) (n : Nat) : (s.sendOwn ch b own n).hostDone = s.hostDone := rfl

@[simp] theorem State.take_now (s : State) (m : Nat) : (s.take m).now = s.now := rfl
@[simp] theorem State.take_skew (s : State) (m : Nat) : (s.take m).skew = s.skew := rfl
@[simp] theorem State.take_fresh (s : State) (m : Nat) : (s.take m).fresh = s.fresh := rfl
@[simp] theorem State.take_agenda (s : State) (m : Nat) : (s.take m).agenda = s.agenda := rfl
@[simp] theorem State.take_cur (s : State) (m : Nat) : (s.take m).cur = s.cur := rfl
@[simp] theorem State.take_nextId (s : State) (m : Nat) : (s.take m).nextId = s.nextId := rfl
@[simp] theorem State.take_groups (s : State) (m : Nat) : (s.take m).groups = s.groups := rfl
@[simp] theorem State.take_blocks (s : State) (m : Nat) : (s.take m).blocks = s.blocks := rfl
@[simp] theorem State.take_saved (s : State) (m : Nat) : (s.take m).saved = s.saved := rfl
@[simp] theorem State.take_launches (s : State) (m : Nat) : (s.take m).launches = s.launches := rfl
@[simp] theorem State.take_phases (s : State) (m : Nat) : (s.take m).phases = s.phases := rfl
@[simp] theorem State.take_queues (s : State) (m : Nat) : (s.take m).queues = s.queues := rfl
@[simp] theorem State.take_ctxs (s : State) (m : Nat) : (s.take m).ctxs = s.ctxs := rfl
@[simp] theorem State.take_mem (s : State) (m : Nat) : (s.take m).mem = s.mem := rfl
@[simp] theorem State.take_poison (s : State) (m : Nat) : (s.take m).poison = s.poison := rfl
@[simp] theorem State.take_cores (s : State) (m : Nat) : (s.take m).cores = s.cores := rfl
@[simp] theorem State.take_clusters (s : State) (m : Nat) : (s.take m).clusters = s.clusters := rfl
@[simp] theorem State.take_dies (s : State) (m : Nat) : (s.take m).dies = s.dies := rfl
@[simp] theorem State.take_lines (s : State) (m : Nat) : (s.take m).lines = s.lines := rfl
@[simp] theorem State.take_misses (s : State) (m : Nat) : (s.take m).misses = s.misses := rfl
@[simp] theorem State.take_gateways (s : State) (m : Nat) : (s.take m).gateways = s.gateways := rfl
@[simp] theorem State.take_txns (s : State) (m : Nat) : (s.take m).txns = s.txns := rfl
@[simp] theorem State.take_mcast (s : State) (m : Nat) : (s.take m).mcast = s.mcast := rfl
@[simp] theorem State.take_mcastWait (s : State) (m : Nat) : (s.take m).mcastWait = s.mcastWait := rfl
@[simp] theorem State.take_monitors (s : State) (m : Nat) : (s.take m).monitors = s.monitors := rfl
@[simp] theorem State.take_recorder (s : State) (m : Nat) : (s.take m).recorder = s.recorder := rfl
@[simp] theorem State.take_changes (s : State) (m : Nat) : (s.take m).changes = s.changes := rfl
@[simp] theorem State.take_pushWait (s : State) (m : Nat) : (s.take m).pushWait = s.pushWait := rfl
@[simp] theorem State.take_codeFrames (s : State) (m : Nat) : (s.take m).codeFrames = s.codeFrames := rfl
@[simp] theorem State.take_gangs (s : State) (m : Nat) : (s.take m).gangs = s.gangs := rfl
@[simp] theorem State.take_mbx (s : State) (m : Nat) : (s.take m).mbx = s.mbx := rfl
@[simp] theorem State.take_fw (s : State) (m : Nat) : (s.take m).fw = s.fw := rfl
@[simp] theorem State.take_ports (s : State) (m : Nat) : (s.take m).ports = s.ports := rfl
@[simp] theorem State.take_hostDone (s : State) (m : Nat) : (s.take m).hostDone = s.hostDone := rfl

@[simp] theorem State.setBody_now (s : State) (m : Nat) (b : Body) : (s.setBody m b).now = s.now := rfl
@[simp] theorem State.setBody_skew (s : State) (m : Nat) (b : Body) : (s.setBody m b).skew = s.skew := rfl
@[simp] theorem State.setBody_fresh (s : State) (m : Nat) (b : Body) : (s.setBody m b).fresh = s.fresh := rfl
@[simp] theorem State.setBody_agenda (s : State) (m : Nat) (b : Body) : (s.setBody m b).agenda = s.agenda := rfl
@[simp] theorem State.setBody_cur (s : State) (m : Nat) (b : Body) : (s.setBody m b).cur = s.cur := rfl
@[simp] theorem State.setBody_nextId (s : State) (m : Nat) (b : Body) : (s.setBody m b).nextId = s.nextId := rfl
@[simp] theorem State.setBody_groups (s : State) (m : Nat) (b : Body) : (s.setBody m b).groups = s.groups := rfl
@[simp] theorem State.setBody_blocks (s : State) (m : Nat) (b : Body) : (s.setBody m b).blocks = s.blocks := rfl
@[simp] theorem State.setBody_saved (s : State) (m : Nat) (b : Body) : (s.setBody m b).saved = s.saved := rfl
@[simp] theorem State.setBody_launches (s : State) (m : Nat) (b : Body) : (s.setBody m b).launches = s.launches := rfl
@[simp] theorem State.setBody_phases (s : State) (m : Nat) (b : Body) : (s.setBody m b).phases = s.phases := rfl
@[simp] theorem State.setBody_queues (s : State) (m : Nat) (b : Body) : (s.setBody m b).queues = s.queues := rfl
@[simp] theorem State.setBody_ctxs (s : State) (m : Nat) (b : Body) : (s.setBody m b).ctxs = s.ctxs := rfl
@[simp] theorem State.setBody_mem (s : State) (m : Nat) (b : Body) : (s.setBody m b).mem = s.mem := rfl
@[simp] theorem State.setBody_poison (s : State) (m : Nat) (b : Body) : (s.setBody m b).poison = s.poison := rfl
@[simp] theorem State.setBody_cores (s : State) (m : Nat) (b : Body) : (s.setBody m b).cores = s.cores := rfl
@[simp] theorem State.setBody_clusters (s : State) (m : Nat) (b : Body) : (s.setBody m b).clusters = s.clusters := rfl
@[simp] theorem State.setBody_dies (s : State) (m : Nat) (b : Body) : (s.setBody m b).dies = s.dies := rfl
@[simp] theorem State.setBody_lines (s : State) (m : Nat) (b : Body) : (s.setBody m b).lines = s.lines := rfl
@[simp] theorem State.setBody_misses (s : State) (m : Nat) (b : Body) : (s.setBody m b).misses = s.misses := rfl
@[simp] theorem State.setBody_gateways (s : State) (m : Nat) (b : Body) : (s.setBody m b).gateways = s.gateways := rfl
@[simp] theorem State.setBody_txns (s : State) (m : Nat) (b : Body) : (s.setBody m b).txns = s.txns := rfl
@[simp] theorem State.setBody_mcast (s : State) (m : Nat) (b : Body) : (s.setBody m b).mcast = s.mcast := rfl
@[simp] theorem State.setBody_mcastWait (s : State) (m : Nat) (b : Body) : (s.setBody m b).mcastWait = s.mcastWait := rfl
@[simp] theorem State.setBody_monitors (s : State) (m : Nat) (b : Body) : (s.setBody m b).monitors = s.monitors := rfl
@[simp] theorem State.setBody_recorder (s : State) (m : Nat) (b : Body) : (s.setBody m b).recorder = s.recorder := rfl
@[simp] theorem State.setBody_changes (s : State) (m : Nat) (b : Body) : (s.setBody m b).changes = s.changes := rfl
@[simp] theorem State.setBody_pushWait (s : State) (m : Nat) (b : Body) : (s.setBody m b).pushWait = s.pushWait := rfl
@[simp] theorem State.setBody_codeFrames (s : State) (m : Nat) (b : Body) : (s.setBody m b).codeFrames = s.codeFrames := rfl
@[simp] theorem State.setBody_gangs (s : State) (m : Nat) (b : Body) : (s.setBody m b).gangs = s.gangs := rfl
@[simp] theorem State.setBody_mbx (s : State) (m : Nat) (b : Body) : (s.setBody m b).mbx = s.mbx := rfl
@[simp] theorem State.setBody_fw (s : State) (m : Nat) (b : Body) : (s.setBody m b).fw = s.fw := rfl
@[simp] theorem State.setBody_ports (s : State) (m : Nat) (b : Body) : (s.setBody m b).ports = s.ports := rfl
@[simp] theorem State.setBody_hostDone (s : State) (m : Nat) (b : Body) : (s.setBody m b).hostDone = s.hostDone := rfl

@[simp] theorem State.foldHz_now (s : State) (r : GroupRef) (h : Horizons) : (s.foldHz r h).now = s.now := rfl
@[simp] theorem State.foldHz_skew (s : State) (r : GroupRef) (h : Horizons) : (s.foldHz r h).skew = s.skew := rfl
@[simp] theorem State.foldHz_fresh (s : State) (r : GroupRef) (h : Horizons) : (s.foldHz r h).fresh = s.fresh := rfl
@[simp] theorem State.foldHz_agenda (s : State) (r : GroupRef) (h : Horizons) : (s.foldHz r h).agenda = s.agenda := rfl
@[simp] theorem State.foldHz_cur (s : State) (r : GroupRef) (h : Horizons) : (s.foldHz r h).cur = s.cur := rfl
@[simp] theorem State.foldHz_nextId (s : State) (r : GroupRef) (h : Horizons) : (s.foldHz r h).nextId = s.nextId := rfl
@[simp] theorem State.foldHz_blocks (s : State) (r : GroupRef) (h : Horizons) : (s.foldHz r h).blocks = s.blocks := rfl
@[simp] theorem State.foldHz_saved (s : State) (r : GroupRef) (h : Horizons) : (s.foldHz r h).saved = s.saved := rfl
@[simp] theorem State.foldHz_launches (s : State) (r : GroupRef) (h : Horizons) : (s.foldHz r h).launches = s.launches := rfl
@[simp] theorem State.foldHz_phases (s : State) (r : GroupRef) (h : Horizons) : (s.foldHz r h).phases = s.phases := rfl
@[simp] theorem State.foldHz_queues (s : State) (r : GroupRef) (h : Horizons) : (s.foldHz r h).queues = s.queues := rfl
@[simp] theorem State.foldHz_ctxs (s : State) (r : GroupRef) (h : Horizons) : (s.foldHz r h).ctxs = s.ctxs := rfl
@[simp] theorem State.foldHz_mem (s : State) (r : GroupRef) (h : Horizons) : (s.foldHz r h).mem = s.mem := rfl
@[simp] theorem State.foldHz_poison (s : State) (r : GroupRef) (h : Horizons) : (s.foldHz r h).poison = s.poison := rfl
@[simp] theorem State.foldHz_cores (s : State) (r : GroupRef) (h : Horizons) : (s.foldHz r h).cores = s.cores := rfl
@[simp] theorem State.foldHz_clusters (s : State) (r : GroupRef) (h : Horizons) : (s.foldHz r h).clusters = s.clusters := rfl
@[simp] theorem State.foldHz_dies (s : State) (r : GroupRef) (h : Horizons) : (s.foldHz r h).dies = s.dies := rfl
@[simp] theorem State.foldHz_lines (s : State) (r : GroupRef) (h : Horizons) : (s.foldHz r h).lines = s.lines := rfl
@[simp] theorem State.foldHz_misses (s : State) (r : GroupRef) (h : Horizons) : (s.foldHz r h).misses = s.misses := rfl
@[simp] theorem State.foldHz_gateways (s : State) (r : GroupRef) (h : Horizons) : (s.foldHz r h).gateways = s.gateways := rfl
@[simp] theorem State.foldHz_txns (s : State) (r : GroupRef) (h : Horizons) : (s.foldHz r h).txns = s.txns := rfl
@[simp] theorem State.foldHz_net (s : State) (r : GroupRef) (h : Horizons) : (s.foldHz r h).net = s.net := rfl
@[simp] theorem State.foldHz_mcast (s : State) (r : GroupRef) (h : Horizons) : (s.foldHz r h).mcast = s.mcast := rfl
@[simp] theorem State.foldHz_mcastWait (s : State) (r : GroupRef) (h : Horizons) : (s.foldHz r h).mcastWait = s.mcastWait := rfl
@[simp] theorem State.foldHz_monitors (s : State) (r : GroupRef) (h : Horizons) : (s.foldHz r h).monitors = s.monitors := rfl
@[simp] theorem State.foldHz_recorder (s : State) (r : GroupRef) (h : Horizons) : (s.foldHz r h).recorder = s.recorder := rfl
@[simp] theorem State.foldHz_changes (s : State) (r : GroupRef) (h : Horizons) : (s.foldHz r h).changes = s.changes := rfl
@[simp] theorem State.foldHz_pushWait (s : State) (r : GroupRef) (h : Horizons) : (s.foldHz r h).pushWait = s.pushWait := rfl
@[simp] theorem State.foldHz_codeFrames (s : State) (r : GroupRef) (h : Horizons) : (s.foldHz r h).codeFrames = s.codeFrames := rfl
@[simp] theorem State.foldHz_gangs (s : State) (r : GroupRef) (h : Horizons) : (s.foldHz r h).gangs = s.gangs := rfl
@[simp] theorem State.foldHz_mbx (s : State) (r : GroupRef) (h : Horizons) : (s.foldHz r h).mbx = s.mbx := rfl
@[simp] theorem State.foldHz_fw (s : State) (r : GroupRef) (h : Horizons) : (s.foldHz r h).fw = s.fw := rfl
@[simp] theorem State.foldHz_ports (s : State) (r : GroupRef) (h : Horizons) : (s.foldHz r h).ports = s.ports := rfl
@[simp] theorem State.foldHz_hostDone (s : State) (r : GroupRef) (h : Horizons) : (s.foldHz r h).hostDone = s.hostDone := rfl

@[simp] theorem State.observe_now (s : State) (r : GroupRef) (n : Nat) (b : LineBits) (o : ObsInfo) : (s.observe r n b o).now = s.now := rfl
@[simp] theorem State.observe_skew (s : State) (r : GroupRef) (n : Nat) (b : LineBits) (o : ObsInfo) : (s.observe r n b o).skew = s.skew := rfl
@[simp] theorem State.observe_fresh (s : State) (r : GroupRef) (n : Nat) (b : LineBits) (o : ObsInfo) : (s.observe r n b o).fresh = s.fresh := rfl
@[simp] theorem State.observe_agenda (s : State) (r : GroupRef) (n : Nat) (b : LineBits) (o : ObsInfo) : (s.observe r n b o).agenda = s.agenda := rfl
@[simp] theorem State.observe_cur (s : State) (r : GroupRef) (n : Nat) (b : LineBits) (o : ObsInfo) : (s.observe r n b o).cur = s.cur := rfl
@[simp] theorem State.observe_nextId (s : State) (r : GroupRef) (n : Nat) (b : LineBits) (o : ObsInfo) : (s.observe r n b o).nextId = s.nextId := rfl
@[simp] theorem State.observe_blocks (s : State) (r : GroupRef) (n : Nat) (b : LineBits) (o : ObsInfo) : (s.observe r n b o).blocks = s.blocks := rfl
@[simp] theorem State.observe_saved (s : State) (r : GroupRef) (n : Nat) (b : LineBits) (o : ObsInfo) : (s.observe r n b o).saved = s.saved := rfl
@[simp] theorem State.observe_launches (s : State) (r : GroupRef) (n : Nat) (b : LineBits) (o : ObsInfo) : (s.observe r n b o).launches = s.launches := rfl
@[simp] theorem State.observe_phases (s : State) (r : GroupRef) (n : Nat) (b : LineBits) (o : ObsInfo) : (s.observe r n b o).phases = s.phases := rfl
@[simp] theorem State.observe_queues (s : State) (r : GroupRef) (n : Nat) (b : LineBits) (o : ObsInfo) : (s.observe r n b o).queues = s.queues := rfl
@[simp] theorem State.observe_ctxs (s : State) (r : GroupRef) (n : Nat) (b : LineBits) (o : ObsInfo) : (s.observe r n b o).ctxs = s.ctxs := rfl
@[simp] theorem State.observe_mem (s : State) (r : GroupRef) (n : Nat) (b : LineBits) (o : ObsInfo) : (s.observe r n b o).mem = s.mem := rfl
@[simp] theorem State.observe_poison (s : State) (r : GroupRef) (n : Nat) (b : LineBits) (o : ObsInfo) : (s.observe r n b o).poison = s.poison := rfl
@[simp] theorem State.observe_cores (s : State) (r : GroupRef) (n : Nat) (b : LineBits) (o : ObsInfo) : (s.observe r n b o).cores = s.cores := rfl
@[simp] theorem State.observe_clusters (s : State) (r : GroupRef) (n : Nat) (b : LineBits) (o : ObsInfo) : (s.observe r n b o).clusters = s.clusters := rfl
@[simp] theorem State.observe_dies (s : State) (r : GroupRef) (n : Nat) (b : LineBits) (o : ObsInfo) : (s.observe r n b o).dies = s.dies := rfl
@[simp] theorem State.observe_lines (s : State) (r : GroupRef) (n : Nat) (b : LineBits) (o : ObsInfo) : (s.observe r n b o).lines = s.lines := rfl
@[simp] theorem State.observe_misses (s : State) (r : GroupRef) (n : Nat) (b : LineBits) (o : ObsInfo) : (s.observe r n b o).misses = s.misses := rfl
@[simp] theorem State.observe_gateways (s : State) (r : GroupRef) (n : Nat) (b : LineBits) (o : ObsInfo) : (s.observe r n b o).gateways = s.gateways := rfl
@[simp] theorem State.observe_txns (s : State) (r : GroupRef) (n : Nat) (b : LineBits) (o : ObsInfo) : (s.observe r n b o).txns = s.txns := rfl
@[simp] theorem State.observe_net (s : State) (r : GroupRef) (n : Nat) (b : LineBits) (o : ObsInfo) : (s.observe r n b o).net = s.net := rfl
@[simp] theorem State.observe_mcast (s : State) (r : GroupRef) (n : Nat) (b : LineBits) (o : ObsInfo) : (s.observe r n b o).mcast = s.mcast := rfl
@[simp] theorem State.observe_mcastWait (s : State) (r : GroupRef) (n : Nat) (b : LineBits) (o : ObsInfo) : (s.observe r n b o).mcastWait = s.mcastWait := rfl
@[simp] theorem State.observe_monitors (s : State) (r : GroupRef) (n : Nat) (b : LineBits) (o : ObsInfo) : (s.observe r n b o).monitors = s.monitors := rfl
@[simp] theorem State.observe_recorder (s : State) (r : GroupRef) (n : Nat) (b : LineBits) (o : ObsInfo) : (s.observe r n b o).recorder = s.recorder := rfl
@[simp] theorem State.observe_changes (s : State) (r : GroupRef) (n : Nat) (b : LineBits) (o : ObsInfo) : (s.observe r n b o).changes = s.changes := rfl
@[simp] theorem State.observe_pushWait (s : State) (r : GroupRef) (n : Nat) (b : LineBits) (o : ObsInfo) : (s.observe r n b o).pushWait = s.pushWait := rfl
@[simp] theorem State.observe_codeFrames (s : State) (r : GroupRef) (n : Nat) (b : LineBits) (o : ObsInfo) : (s.observe r n b o).codeFrames = s.codeFrames := rfl
@[simp] theorem State.observe_gangs (s : State) (r : GroupRef) (n : Nat) (b : LineBits) (o : ObsInfo) : (s.observe r n b o).gangs = s.gangs := rfl
@[simp] theorem State.observe_mbx (s : State) (r : GroupRef) (n : Nat) (b : LineBits) (o : ObsInfo) : (s.observe r n b o).mbx = s.mbx := rfl
@[simp] theorem State.observe_fw (s : State) (r : GroupRef) (n : Nat) (b : LineBits) (o : ObsInfo) : (s.observe r n b o).fw = s.fw := rfl
@[simp] theorem State.observe_ports (s : State) (r : GroupRef) (n : Nat) (b : LineBits) (o : ObsInfo) : (s.observe r n b o).ports = s.ports := rfl
@[simp] theorem State.observe_hostDone (s : State) (r : GroupRef) (n : Nat) (b : LineBits) (o : ObsInfo) : (s.observe r n b o).hostDone = s.hostDone := rfl

@[simp] theorem State.raiseLater_now (s : State) (r : GroupRef) (i : FaultInfo) : (s.raiseLater r i).now = s.now := rfl
@[simp] theorem State.raiseLater_skew (s : State) (r : GroupRef) (i : FaultInfo) : (s.raiseLater r i).skew = s.skew := rfl
@[simp] theorem State.raiseLater_fresh (s : State) (r : GroupRef) (i : FaultInfo) : (s.raiseLater r i).fresh = s.fresh := rfl
@[simp] theorem State.raiseLater_agenda (s : State) (r : GroupRef) (i : FaultInfo) : (s.raiseLater r i).agenda = s.agenda := rfl
@[simp] theorem State.raiseLater_cur (s : State) (r : GroupRef) (i : FaultInfo) : (s.raiseLater r i).cur = s.cur := rfl
@[simp] theorem State.raiseLater_nextId (s : State) (r : GroupRef) (i : FaultInfo) : (s.raiseLater r i).nextId = s.nextId := rfl
@[simp] theorem State.raiseLater_blocks (s : State) (r : GroupRef) (i : FaultInfo) : (s.raiseLater r i).blocks = s.blocks := rfl
@[simp] theorem State.raiseLater_saved (s : State) (r : GroupRef) (i : FaultInfo) : (s.raiseLater r i).saved = s.saved := rfl
@[simp] theorem State.raiseLater_launches (s : State) (r : GroupRef) (i : FaultInfo) : (s.raiseLater r i).launches = s.launches := rfl
@[simp] theorem State.raiseLater_phases (s : State) (r : GroupRef) (i : FaultInfo) : (s.raiseLater r i).phases = s.phases := rfl
@[simp] theorem State.raiseLater_queues (s : State) (r : GroupRef) (i : FaultInfo) : (s.raiseLater r i).queues = s.queues := rfl
@[simp] theorem State.raiseLater_ctxs (s : State) (r : GroupRef) (i : FaultInfo) : (s.raiseLater r i).ctxs = s.ctxs := rfl
@[simp] theorem State.raiseLater_mem (s : State) (r : GroupRef) (i : FaultInfo) : (s.raiseLater r i).mem = s.mem := rfl
@[simp] theorem State.raiseLater_poison (s : State) (r : GroupRef) (i : FaultInfo) : (s.raiseLater r i).poison = s.poison := rfl
@[simp] theorem State.raiseLater_cores (s : State) (r : GroupRef) (i : FaultInfo) : (s.raiseLater r i).cores = s.cores := rfl
@[simp] theorem State.raiseLater_clusters (s : State) (r : GroupRef) (i : FaultInfo) : (s.raiseLater r i).clusters = s.clusters := rfl
@[simp] theorem State.raiseLater_dies (s : State) (r : GroupRef) (i : FaultInfo) : (s.raiseLater r i).dies = s.dies := rfl
@[simp] theorem State.raiseLater_lines (s : State) (r : GroupRef) (i : FaultInfo) : (s.raiseLater r i).lines = s.lines := rfl
@[simp] theorem State.raiseLater_misses (s : State) (r : GroupRef) (i : FaultInfo) : (s.raiseLater r i).misses = s.misses := rfl
@[simp] theorem State.raiseLater_gateways (s : State) (r : GroupRef) (i : FaultInfo) : (s.raiseLater r i).gateways = s.gateways := rfl
@[simp] theorem State.raiseLater_txns (s : State) (r : GroupRef) (i : FaultInfo) : (s.raiseLater r i).txns = s.txns := rfl
@[simp] theorem State.raiseLater_net (s : State) (r : GroupRef) (i : FaultInfo) : (s.raiseLater r i).net = s.net := rfl
@[simp] theorem State.raiseLater_mcast (s : State) (r : GroupRef) (i : FaultInfo) : (s.raiseLater r i).mcast = s.mcast := rfl
@[simp] theorem State.raiseLater_mcastWait (s : State) (r : GroupRef) (i : FaultInfo) : (s.raiseLater r i).mcastWait = s.mcastWait := rfl
@[simp] theorem State.raiseLater_monitors (s : State) (r : GroupRef) (i : FaultInfo) : (s.raiseLater r i).monitors = s.monitors := rfl
@[simp] theorem State.raiseLater_recorder (s : State) (r : GroupRef) (i : FaultInfo) : (s.raiseLater r i).recorder = s.recorder := rfl
@[simp] theorem State.raiseLater_changes (s : State) (r : GroupRef) (i : FaultInfo) : (s.raiseLater r i).changes = s.changes := rfl
@[simp] theorem State.raiseLater_pushWait (s : State) (r : GroupRef) (i : FaultInfo) : (s.raiseLater r i).pushWait = s.pushWait := rfl
@[simp] theorem State.raiseLater_codeFrames (s : State) (r : GroupRef) (i : FaultInfo) : (s.raiseLater r i).codeFrames = s.codeFrames := rfl
@[simp] theorem State.raiseLater_gangs (s : State) (r : GroupRef) (i : FaultInfo) : (s.raiseLater r i).gangs = s.gangs := rfl
@[simp] theorem State.raiseLater_mbx (s : State) (r : GroupRef) (i : FaultInfo) : (s.raiseLater r i).mbx = s.mbx := rfl
@[simp] theorem State.raiseLater_fw (s : State) (r : GroupRef) (i : FaultInfo) : (s.raiseLater r i).fw = s.fw := rfl
@[simp] theorem State.raiseLater_ports (s : State) (r : GroupRef) (i : FaultInfo) : (s.raiseLater r i).ports = s.ports := rfl
@[simp] theorem State.raiseLater_hostDone (s : State) (r : GroupRef) (i : FaultInfo) : (s.raiseLater r i).hostDone = s.hostDone := rfl

@[simp] theorem State.modLine_now (s : State) (l : LineNo) (f : SliceLine → SliceLine) : (s.modLine l f).now = s.now := rfl
@[simp] theorem State.modLine_skew (s : State) (l : LineNo) (f : SliceLine → SliceLine) : (s.modLine l f).skew = s.skew := rfl
@[simp] theorem State.modLine_fresh (s : State) (l : LineNo) (f : SliceLine → SliceLine) : (s.modLine l f).fresh = s.fresh := rfl
@[simp] theorem State.modLine_agenda (s : State) (l : LineNo) (f : SliceLine → SliceLine) : (s.modLine l f).agenda = s.agenda := rfl
@[simp] theorem State.modLine_cur (s : State) (l : LineNo) (f : SliceLine → SliceLine) : (s.modLine l f).cur = s.cur := rfl
@[simp] theorem State.modLine_nextId (s : State) (l : LineNo) (f : SliceLine → SliceLine) : (s.modLine l f).nextId = s.nextId := rfl
@[simp] theorem State.modLine_groups (s : State) (l : LineNo) (f : SliceLine → SliceLine) : (s.modLine l f).groups = s.groups := rfl
@[simp] theorem State.modLine_blocks (s : State) (l : LineNo) (f : SliceLine → SliceLine) : (s.modLine l f).blocks = s.blocks := rfl
@[simp] theorem State.modLine_saved (s : State) (l : LineNo) (f : SliceLine → SliceLine) : (s.modLine l f).saved = s.saved := rfl
@[simp] theorem State.modLine_launches (s : State) (l : LineNo) (f : SliceLine → SliceLine) : (s.modLine l f).launches = s.launches := rfl
@[simp] theorem State.modLine_phases (s : State) (l : LineNo) (f : SliceLine → SliceLine) : (s.modLine l f).phases = s.phases := rfl
@[simp] theorem State.modLine_queues (s : State) (l : LineNo) (f : SliceLine → SliceLine) : (s.modLine l f).queues = s.queues := rfl
@[simp] theorem State.modLine_ctxs (s : State) (l : LineNo) (f : SliceLine → SliceLine) : (s.modLine l f).ctxs = s.ctxs := rfl
@[simp] theorem State.modLine_mem (s : State) (l : LineNo) (f : SliceLine → SliceLine) : (s.modLine l f).mem = s.mem := rfl
@[simp] theorem State.modLine_poison (s : State) (l : LineNo) (f : SliceLine → SliceLine) : (s.modLine l f).poison = s.poison := rfl
@[simp] theorem State.modLine_cores (s : State) (l : LineNo) (f : SliceLine → SliceLine) : (s.modLine l f).cores = s.cores := rfl
@[simp] theorem State.modLine_clusters (s : State) (l : LineNo) (f : SliceLine → SliceLine) : (s.modLine l f).clusters = s.clusters := rfl
@[simp] theorem State.modLine_dies (s : State) (l : LineNo) (f : SliceLine → SliceLine) : (s.modLine l f).dies = s.dies := rfl
@[simp] theorem State.modLine_misses (s : State) (l : LineNo) (f : SliceLine → SliceLine) : (s.modLine l f).misses = s.misses := rfl
@[simp] theorem State.modLine_gateways (s : State) (l : LineNo) (f : SliceLine → SliceLine) : (s.modLine l f).gateways = s.gateways := rfl
@[simp] theorem State.modLine_txns (s : State) (l : LineNo) (f : SliceLine → SliceLine) : (s.modLine l f).txns = s.txns := rfl
@[simp] theorem State.modLine_net (s : State) (l : LineNo) (f : SliceLine → SliceLine) : (s.modLine l f).net = s.net := rfl
@[simp] theorem State.modLine_mcast (s : State) (l : LineNo) (f : SliceLine → SliceLine) : (s.modLine l f).mcast = s.mcast := rfl
@[simp] theorem State.modLine_mcastWait (s : State) (l : LineNo) (f : SliceLine → SliceLine) : (s.modLine l f).mcastWait = s.mcastWait := rfl
@[simp] theorem State.modLine_monitors (s : State) (l : LineNo) (f : SliceLine → SliceLine) : (s.modLine l f).monitors = s.monitors := rfl
@[simp] theorem State.modLine_recorder (s : State) (l : LineNo) (f : SliceLine → SliceLine) : (s.modLine l f).recorder = s.recorder := rfl
@[simp] theorem State.modLine_changes (s : State) (l : LineNo) (f : SliceLine → SliceLine) : (s.modLine l f).changes = s.changes := rfl
@[simp] theorem State.modLine_pushWait (s : State) (l : LineNo) (f : SliceLine → SliceLine) : (s.modLine l f).pushWait = s.pushWait := rfl
@[simp] theorem State.modLine_codeFrames (s : State) (l : LineNo) (f : SliceLine → SliceLine) : (s.modLine l f).codeFrames = s.codeFrames := rfl
@[simp] theorem State.modLine_gangs (s : State) (l : LineNo) (f : SliceLine → SliceLine) : (s.modLine l f).gangs = s.gangs := rfl
@[simp] theorem State.modLine_mbx (s : State) (l : LineNo) (f : SliceLine → SliceLine) : (s.modLine l f).mbx = s.mbx := rfl
@[simp] theorem State.modLine_fw (s : State) (l : LineNo) (f : SliceLine → SliceLine) : (s.modLine l f).fw = s.fw := rfl
@[simp] theorem State.modLine_ports (s : State) (l : LineNo) (f : SliceLine → SliceLine) : (s.modLine l f).ports = s.ports := rfl
@[simp] theorem State.modLine_hostDone (s : State) (l : LineNo) (f : SliceLine → SliceLine) : (s.modLine l f).hostDone = s.hostDone := rfl

@[simp] theorem State.putGw_now (s : State) (d : Nat) (l : LineNo) (x : GwLine) : (s.putGw d l x).now = s.now := rfl
@[simp] theorem State.putGw_skew (s : State) (d : Nat) (l : LineNo) (x : GwLine) : (s.putGw d l x).skew = s.skew := rfl
@[simp] theorem State.putGw_fresh (s : State) (d : Nat) (l : LineNo) (x : GwLine) : (s.putGw d l x).fresh = s.fresh := rfl
@[simp] theorem State.putGw_agenda (s : State) (d : Nat) (l : LineNo) (x : GwLine) : (s.putGw d l x).agenda = s.agenda := rfl
@[simp] theorem State.putGw_cur (s : State) (d : Nat) (l : LineNo) (x : GwLine) : (s.putGw d l x).cur = s.cur := rfl
@[simp] theorem State.putGw_nextId (s : State) (d : Nat) (l : LineNo) (x : GwLine) : (s.putGw d l x).nextId = s.nextId := rfl
@[simp] theorem State.putGw_groups (s : State) (d : Nat) (l : LineNo) (x : GwLine) : (s.putGw d l x).groups = s.groups := rfl
@[simp] theorem State.putGw_blocks (s : State) (d : Nat) (l : LineNo) (x : GwLine) : (s.putGw d l x).blocks = s.blocks := rfl
@[simp] theorem State.putGw_saved (s : State) (d : Nat) (l : LineNo) (x : GwLine) : (s.putGw d l x).saved = s.saved := rfl
@[simp] theorem State.putGw_launches (s : State) (d : Nat) (l : LineNo) (x : GwLine) : (s.putGw d l x).launches = s.launches := rfl
@[simp] theorem State.putGw_phases (s : State) (d : Nat) (l : LineNo) (x : GwLine) : (s.putGw d l x).phases = s.phases := rfl
@[simp] theorem State.putGw_queues (s : State) (d : Nat) (l : LineNo) (x : GwLine) : (s.putGw d l x).queues = s.queues := rfl
@[simp] theorem State.putGw_ctxs (s : State) (d : Nat) (l : LineNo) (x : GwLine) : (s.putGw d l x).ctxs = s.ctxs := rfl
@[simp] theorem State.putGw_mem (s : State) (d : Nat) (l : LineNo) (x : GwLine) : (s.putGw d l x).mem = s.mem := rfl
@[simp] theorem State.putGw_poison (s : State) (d : Nat) (l : LineNo) (x : GwLine) : (s.putGw d l x).poison = s.poison := rfl
@[simp] theorem State.putGw_cores (s : State) (d : Nat) (l : LineNo) (x : GwLine) : (s.putGw d l x).cores = s.cores := rfl
@[simp] theorem State.putGw_clusters (s : State) (d : Nat) (l : LineNo) (x : GwLine) : (s.putGw d l x).clusters = s.clusters := rfl
@[simp] theorem State.putGw_dies (s : State) (d : Nat) (l : LineNo) (x : GwLine) : (s.putGw d l x).dies = s.dies := rfl
@[simp] theorem State.putGw_lines (s : State) (d : Nat) (l : LineNo) (x : GwLine) : (s.putGw d l x).lines = s.lines := rfl
@[simp] theorem State.putGw_misses (s : State) (d : Nat) (l : LineNo) (x : GwLine) : (s.putGw d l x).misses = s.misses := rfl
@[simp] theorem State.putGw_txns (s : State) (d : Nat) (l : LineNo) (x : GwLine) : (s.putGw d l x).txns = s.txns := rfl
@[simp] theorem State.putGw_net (s : State) (d : Nat) (l : LineNo) (x : GwLine) : (s.putGw d l x).net = s.net := rfl
@[simp] theorem State.putGw_mcast (s : State) (d : Nat) (l : LineNo) (x : GwLine) : (s.putGw d l x).mcast = s.mcast := rfl
@[simp] theorem State.putGw_mcastWait (s : State) (d : Nat) (l : LineNo) (x : GwLine) : (s.putGw d l x).mcastWait = s.mcastWait := rfl
@[simp] theorem State.putGw_monitors (s : State) (d : Nat) (l : LineNo) (x : GwLine) : (s.putGw d l x).monitors = s.monitors := rfl
@[simp] theorem State.putGw_recorder (s : State) (d : Nat) (l : LineNo) (x : GwLine) : (s.putGw d l x).recorder = s.recorder := rfl
@[simp] theorem State.putGw_changes (s : State) (d : Nat) (l : LineNo) (x : GwLine) : (s.putGw d l x).changes = s.changes := rfl
@[simp] theorem State.putGw_pushWait (s : State) (d : Nat) (l : LineNo) (x : GwLine) : (s.putGw d l x).pushWait = s.pushWait := rfl
@[simp] theorem State.putGw_codeFrames (s : State) (d : Nat) (l : LineNo) (x : GwLine) : (s.putGw d l x).codeFrames = s.codeFrames := rfl
@[simp] theorem State.putGw_gangs (s : State) (d : Nat) (l : LineNo) (x : GwLine) : (s.putGw d l x).gangs = s.gangs := rfl
@[simp] theorem State.putGw_mbx (s : State) (d : Nat) (l : LineNo) (x : GwLine) : (s.putGw d l x).mbx = s.mbx := rfl
@[simp] theorem State.putGw_fw (s : State) (d : Nat) (l : LineNo) (x : GwLine) : (s.putGw d l x).fw = s.fw := rfl
@[simp] theorem State.putGw_ports (s : State) (d : Nat) (l : LineNo) (x : GwLine) : (s.putGw d l x).ports = s.ports := rfl
@[simp] theorem State.putGw_hostDone (s : State) (d : Nat) (l : LineNo) (x : GwLine) : (s.putGw d l x).hostDone = s.hostDone := rfl

/-- Bytes that firmware writes change memory and the lines at the homes, nothing else. -/
theorem State.putFlat_frame (place : Nat) (bs : List Byte) : ∀ (pa : Nat) (s : State), ∃ m l,
    State.putFlat place pa bs s = { s with mem := m, lines := l } := by
  induction bs with
  | nil => exact fun _ s => ⟨s.mem, s.lines, rfl⟩
  | cons x r ih =>
    intro pa s
    obtain ⟨m, l, h⟩ := ih (pa + 1) (s.homePut (flatByte place pa) x)
    exact ⟨m, l, h⟩

/-- Updates of memory and lines, one after the other, are one. -/
theorem State.foldl_frame {α : Type} (f : State → α → State)
    (hf : ∀ s x, ∃ m l, f s x = { s with mem := m, lines := l }) (xs : List α) :
    ∀ s : State, ∃ m l, xs.foldl f s = { s with mem := m, lines := l } := by
  induction xs with
  | nil => exact fun s => ⟨s.mem, s.lines, rfl⟩
  | cons x r ih =>
    intro s
    obtain ⟨m, l, h⟩ := hf s x
    obtain ⟨m', l', h'⟩ := ih (f s x)
    exact ⟨m', l', by rw [List.foldl_cons, h', h]⟩

/-- The records of a monitor's spilled waiters are in memory (R345). -/
theorem State.writeSpill_frame (s : State) (c : Nat) (x : Monitor) : ∃ m l,
    s.writeSpill c x = { s with mem := m, lines := l } := by
  unfold State.writeSpill
  cases s.ctx c with
  | none => exact ⟨s.mem, s.lines, rfl⟩
  | some d =>
    exact State.foldl_frame (fun s (w : Waiter × Nat) =>
        State.putFlat d.areaPlace (d.areaPfn * 65536 + 32 * w.1.index) (w.1.record w.2) s)
      (fun s w => State.putFlat_frame d.areaPlace (w.1.record w.2) (d.areaPfn * 65536 + 32 * w.1.index) s)
      (spilled x.acq ++ spilled x.wset) s

/-- A monitor's update: its entry, and the records of its spilled waiters in memory (R345). -/
theorem State.putMonitor_frame (s : State) (c n : Nat) (x : Monitor) : ∃ m l,
    s.putMonitor c n x = { s with
      monitors := if x.fit = Monitor.fresh then tblDel s.monitors (c, n) else tblPut s.monitors (c, n) x.fit
      mem := m, lines := l } := by
  obtain ⟨m, l, h⟩ := State.writeSpill_frame { s with
    monitors := if x.fit = Monitor.fresh then tblDel s.monitors (c, n) else tblPut s.monitors (c, n) x.fit } c x.fit
  exact ⟨m, l, h⟩


@[simp] theorem State.putMonitor_now (s : State) (c n : Nat) (m : Monitor) : (s.putMonitor c n m).now = s.now := by
  obtain ⟨_, _, h⟩ := s.putMonitor_frame c n m; rw [h]
@[simp] theorem State.putMonitor_skew (s : State) (c n : Nat) (m : Monitor) : (s.putMonitor c n m).skew = s.skew := by
  obtain ⟨_, _, h⟩ := s.putMonitor_frame c n m; rw [h]
@[simp] theorem State.putMonitor_fresh (s : State) (c n : Nat) (m : Monitor) : (s.putMonitor c n m).fresh = s.fresh := by
  obtain ⟨_, _, h⟩ := s.putMonitor_frame c n m; rw [h]
@[simp] theorem State.putMonitor_agenda (s : State) (c n : Nat) (m : Monitor) : (s.putMonitor c n m).agenda = s.agenda := by
  obtain ⟨_, _, h⟩ := s.putMonitor_frame c n m; rw [h]
@[simp] theorem State.putMonitor_cur (s : State) (c n : Nat) (m : Monitor) : (s.putMonitor c n m).cur = s.cur := by
  obtain ⟨_, _, h⟩ := s.putMonitor_frame c n m; rw [h]
@[simp] theorem State.putMonitor_nextId (s : State) (c n : Nat) (m : Monitor) : (s.putMonitor c n m).nextId = s.nextId := by
  obtain ⟨_, _, h⟩ := s.putMonitor_frame c n m; rw [h]
@[simp] theorem State.putMonitor_groups (s : State) (c n : Nat) (m : Monitor) : (s.putMonitor c n m).groups = s.groups := by
  obtain ⟨_, _, h⟩ := s.putMonitor_frame c n m; rw [h]
@[simp] theorem State.putMonitor_blocks (s : State) (c n : Nat) (m : Monitor) : (s.putMonitor c n m).blocks = s.blocks := by
  obtain ⟨_, _, h⟩ := s.putMonitor_frame c n m; rw [h]
@[simp] theorem State.putMonitor_saved (s : State) (c n : Nat) (m : Monitor) : (s.putMonitor c n m).saved = s.saved := by
  obtain ⟨_, _, h⟩ := s.putMonitor_frame c n m; rw [h]
@[simp] theorem State.putMonitor_launches (s : State) (c n : Nat) (m : Monitor) : (s.putMonitor c n m).launches = s.launches := by
  obtain ⟨_, _, h⟩ := s.putMonitor_frame c n m; rw [h]
@[simp] theorem State.putMonitor_phases (s : State) (c n : Nat) (m : Monitor) : (s.putMonitor c n m).phases = s.phases := by
  obtain ⟨_, _, h⟩ := s.putMonitor_frame c n m; rw [h]
@[simp] theorem State.putMonitor_queues (s : State) (c n : Nat) (m : Monitor) : (s.putMonitor c n m).queues = s.queues := by
  obtain ⟨_, _, h⟩ := s.putMonitor_frame c n m; rw [h]
@[simp] theorem State.putMonitor_ctxs (s : State) (c n : Nat) (m : Monitor) : (s.putMonitor c n m).ctxs = s.ctxs := by
  obtain ⟨_, _, h⟩ := s.putMonitor_frame c n m; rw [h]
@[simp] theorem State.putMonitor_poison (s : State) (c n : Nat) (m : Monitor) : (s.putMonitor c n m).poison = s.poison := by
  obtain ⟨_, _, h⟩ := s.putMonitor_frame c n m; rw [h]
@[simp] theorem State.putMonitor_cores (s : State) (c n : Nat) (m : Monitor) : (s.putMonitor c n m).cores = s.cores := by
  obtain ⟨_, _, h⟩ := s.putMonitor_frame c n m; rw [h]
@[simp] theorem State.putMonitor_clusters (s : State) (c n : Nat) (m : Monitor) : (s.putMonitor c n m).clusters = s.clusters := by
  obtain ⟨_, _, h⟩ := s.putMonitor_frame c n m; rw [h]
@[simp] theorem State.putMonitor_dies (s : State) (c n : Nat) (m : Monitor) : (s.putMonitor c n m).dies = s.dies := by
  obtain ⟨_, _, h⟩ := s.putMonitor_frame c n m; rw [h]
@[simp] theorem State.putMonitor_misses (s : State) (c n : Nat) (m : Monitor) : (s.putMonitor c n m).misses = s.misses := by
  obtain ⟨_, _, h⟩ := s.putMonitor_frame c n m; rw [h]
@[simp] theorem State.putMonitor_gateways (s : State) (c n : Nat) (m : Monitor) : (s.putMonitor c n m).gateways = s.gateways := by
  obtain ⟨_, _, h⟩ := s.putMonitor_frame c n m; rw [h]
@[simp] theorem State.putMonitor_txns (s : State) (c n : Nat) (m : Monitor) : (s.putMonitor c n m).txns = s.txns := by
  obtain ⟨_, _, h⟩ := s.putMonitor_frame c n m; rw [h]
@[simp] theorem State.putMonitor_net (s : State) (c n : Nat) (m : Monitor) : (s.putMonitor c n m).net = s.net := by
  obtain ⟨_, _, h⟩ := s.putMonitor_frame c n m; rw [h]
@[simp] theorem State.putMonitor_mcast (s : State) (c n : Nat) (m : Monitor) : (s.putMonitor c n m).mcast = s.mcast := by
  obtain ⟨_, _, h⟩ := s.putMonitor_frame c n m; rw [h]
@[simp] theorem State.putMonitor_mcastWait (s : State) (c n : Nat) (m : Monitor) : (s.putMonitor c n m).mcastWait = s.mcastWait := by
  obtain ⟨_, _, h⟩ := s.putMonitor_frame c n m; rw [h]
@[simp] theorem State.putMonitor_recorder (s : State) (c n : Nat) (m : Monitor) : (s.putMonitor c n m).recorder = s.recorder := by
  obtain ⟨_, _, h⟩ := s.putMonitor_frame c n m; rw [h]
@[simp] theorem State.putMonitor_changes (s : State) (c n : Nat) (m : Monitor) : (s.putMonitor c n m).changes = s.changes := by
  obtain ⟨_, _, h⟩ := s.putMonitor_frame c n m; rw [h]
@[simp] theorem State.putMonitor_pushWait (s : State) (c n : Nat) (m : Monitor) : (s.putMonitor c n m).pushWait = s.pushWait := by
  obtain ⟨_, _, h⟩ := s.putMonitor_frame c n m; rw [h]
@[simp] theorem State.putMonitor_codeFrames (s : State) (c n : Nat) (m : Monitor) : (s.putMonitor c n m).codeFrames = s.codeFrames := by
  obtain ⟨_, _, h⟩ := s.putMonitor_frame c n m; rw [h]
@[simp] theorem State.putMonitor_gangs (s : State) (c n : Nat) (m : Monitor) : (s.putMonitor c n m).gangs = s.gangs := by
  obtain ⟨_, _, h⟩ := s.putMonitor_frame c n m; rw [h]
@[simp] theorem State.putMonitor_mbx (s : State) (c n : Nat) (m : Monitor) : (s.putMonitor c n m).mbx = s.mbx := by
  obtain ⟨_, _, h⟩ := s.putMonitor_frame c n m; rw [h]
@[simp] theorem State.putMonitor_fw (s : State) (c n : Nat) (m : Monitor) : (s.putMonitor c n m).fw = s.fw := by
  obtain ⟨_, _, h⟩ := s.putMonitor_frame c n m; rw [h]
@[simp] theorem State.putMonitor_ports (s : State) (c n : Nat) (m : Monitor) : (s.putMonitor c n m).ports = s.ports := by
  obtain ⟨_, _, h⟩ := s.putMonitor_frame c n m; rw [h]
@[simp] theorem State.putMonitor_hostDone (s : State) (c n : Nat) (m : Monitor) : (s.putMonitor c n m).hostDone = s.hostDone := by
  obtain ⟨_, _, h⟩ := s.putMonitor_frame c n m; rw [h]

@[simp] theorem State.putEntry_now (s : State) (x : RecEntry) : (s.putEntry x).now = s.now := rfl
@[simp] theorem State.putEntry_skew (s : State) (x : RecEntry) : (s.putEntry x).skew = s.skew := rfl
@[simp] theorem State.putEntry_fresh (s : State) (x : RecEntry) : (s.putEntry x).fresh = s.fresh := rfl
@[simp] theorem State.putEntry_agenda (s : State) (x : RecEntry) : (s.putEntry x).agenda = s.agenda := rfl
@[simp] theorem State.putEntry_cur (s : State) (x : RecEntry) : (s.putEntry x).cur = s.cur := rfl
@[simp] theorem State.putEntry_nextId (s : State) (x : RecEntry) : (s.putEntry x).nextId = s.nextId := rfl
@[simp] theorem State.putEntry_groups (s : State) (x : RecEntry) : (s.putEntry x).groups = s.groups := rfl
@[simp] theorem State.putEntry_blocks (s : State) (x : RecEntry) : (s.putEntry x).blocks = s.blocks := rfl
@[simp] theorem State.putEntry_saved (s : State) (x : RecEntry) : (s.putEntry x).saved = s.saved := rfl
@[simp] theorem State.putEntry_launches (s : State) (x : RecEntry) : (s.putEntry x).launches = s.launches := rfl
@[simp] theorem State.putEntry_phases (s : State) (x : RecEntry) : (s.putEntry x).phases = s.phases := rfl
@[simp] theorem State.putEntry_queues (s : State) (x : RecEntry) : (s.putEntry x).queues = s.queues := rfl
@[simp] theorem State.putEntry_ctxs (s : State) (x : RecEntry) : (s.putEntry x).ctxs = s.ctxs := rfl
@[simp] theorem State.putEntry_mem (s : State) (x : RecEntry) : (s.putEntry x).mem = s.mem := rfl
@[simp] theorem State.putEntry_poison (s : State) (x : RecEntry) : (s.putEntry x).poison = s.poison := rfl
@[simp] theorem State.putEntry_cores (s : State) (x : RecEntry) : (s.putEntry x).cores = s.cores := rfl
@[simp] theorem State.putEntry_clusters (s : State) (x : RecEntry) : (s.putEntry x).clusters = s.clusters := rfl
@[simp] theorem State.putEntry_dies (s : State) (x : RecEntry) : (s.putEntry x).dies = s.dies := rfl
@[simp] theorem State.putEntry_lines (s : State) (x : RecEntry) : (s.putEntry x).lines = s.lines := rfl
@[simp] theorem State.putEntry_misses (s : State) (x : RecEntry) : (s.putEntry x).misses = s.misses := rfl
@[simp] theorem State.putEntry_gateways (s : State) (x : RecEntry) : (s.putEntry x).gateways = s.gateways := rfl
@[simp] theorem State.putEntry_txns (s : State) (x : RecEntry) : (s.putEntry x).txns = s.txns := rfl
@[simp] theorem State.putEntry_net (s : State) (x : RecEntry) : (s.putEntry x).net = s.net := rfl
@[simp] theorem State.putEntry_mcast (s : State) (x : RecEntry) : (s.putEntry x).mcast = s.mcast := rfl
@[simp] theorem State.putEntry_mcastWait (s : State) (x : RecEntry) : (s.putEntry x).mcastWait = s.mcastWait := rfl
@[simp] theorem State.putEntry_monitors (s : State) (x : RecEntry) : (s.putEntry x).monitors = s.monitors := rfl
@[simp] theorem State.putEntry_changes (s : State) (x : RecEntry) : (s.putEntry x).changes = s.changes := rfl
@[simp] theorem State.putEntry_pushWait (s : State) (x : RecEntry) : (s.putEntry x).pushWait = s.pushWait := rfl
@[simp] theorem State.putEntry_codeFrames (s : State) (x : RecEntry) : (s.putEntry x).codeFrames = s.codeFrames := rfl
@[simp] theorem State.putEntry_gangs (s : State) (x : RecEntry) : (s.putEntry x).gangs = s.gangs := rfl
@[simp] theorem State.putEntry_mbx (s : State) (x : RecEntry) : (s.putEntry x).mbx = s.mbx := rfl
@[simp] theorem State.putEntry_fw (s : State) (x : RecEntry) : (s.putEntry x).fw = s.fw := rfl
@[simp] theorem State.putEntry_ports (s : State) (x : RecEntry) : (s.putEntry x).ports = s.ports := rfl
@[simp] theorem State.putEntry_hostDone (s : State) (x : RecEntry) : (s.putEntry x).hostDone = s.hostDone := rfl

@[simp] theorem State.putQueue_now (s : State) (c q : Nat) (x : Queue) : (s.putQueue c q x).now = s.now := rfl
@[simp] theorem State.putQueue_skew (s : State) (c q : Nat) (x : Queue) : (s.putQueue c q x).skew = s.skew := rfl
@[simp] theorem State.putQueue_fresh (s : State) (c q : Nat) (x : Queue) : (s.putQueue c q x).fresh = s.fresh := rfl
@[simp] theorem State.putQueue_agenda (s : State) (c q : Nat) (x : Queue) : (s.putQueue c q x).agenda = s.agenda := rfl
@[simp] theorem State.putQueue_cur (s : State) (c q : Nat) (x : Queue) : (s.putQueue c q x).cur = s.cur := rfl
@[simp] theorem State.putQueue_nextId (s : State) (c q : Nat) (x : Queue) : (s.putQueue c q x).nextId = s.nextId := rfl
@[simp] theorem State.putQueue_groups (s : State) (c q : Nat) (x : Queue) : (s.putQueue c q x).groups = s.groups := rfl
@[simp] theorem State.putQueue_blocks (s : State) (c q : Nat) (x : Queue) : (s.putQueue c q x).blocks = s.blocks := rfl
@[simp] theorem State.putQueue_saved (s : State) (c q : Nat) (x : Queue) : (s.putQueue c q x).saved = s.saved := rfl
@[simp] theorem State.putQueue_launches (s : State) (c q : Nat) (x : Queue) : (s.putQueue c q x).launches = s.launches := rfl
@[simp] theorem State.putQueue_phases (s : State) (c q : Nat) (x : Queue) : (s.putQueue c q x).phases = s.phases := rfl
@[simp] theorem State.putQueue_ctxs (s : State) (c q : Nat) (x : Queue) : (s.putQueue c q x).ctxs = s.ctxs := rfl
@[simp] theorem State.putQueue_mem (s : State) (c q : Nat) (x : Queue) : (s.putQueue c q x).mem = s.mem := rfl
@[simp] theorem State.putQueue_poison (s : State) (c q : Nat) (x : Queue) : (s.putQueue c q x).poison = s.poison := rfl
@[simp] theorem State.putQueue_cores (s : State) (c q : Nat) (x : Queue) : (s.putQueue c q x).cores = s.cores := rfl
@[simp] theorem State.putQueue_clusters (s : State) (c q : Nat) (x : Queue) : (s.putQueue c q x).clusters = s.clusters := rfl
@[simp] theorem State.putQueue_dies (s : State) (c q : Nat) (x : Queue) : (s.putQueue c q x).dies = s.dies := rfl
@[simp] theorem State.putQueue_lines (s : State) (c q : Nat) (x : Queue) : (s.putQueue c q x).lines = s.lines := rfl
@[simp] theorem State.putQueue_misses (s : State) (c q : Nat) (x : Queue) : (s.putQueue c q x).misses = s.misses := rfl
@[simp] theorem State.putQueue_gateways (s : State) (c q : Nat) (x : Queue) : (s.putQueue c q x).gateways = s.gateways := rfl
@[simp] theorem State.putQueue_txns (s : State) (c q : Nat) (x : Queue) : (s.putQueue c q x).txns = s.txns := rfl
@[simp] theorem State.putQueue_net (s : State) (c q : Nat) (x : Queue) : (s.putQueue c q x).net = s.net := rfl
@[simp] theorem State.putQueue_mcast (s : State) (c q : Nat) (x : Queue) : (s.putQueue c q x).mcast = s.mcast := rfl
@[simp] theorem State.putQueue_mcastWait (s : State) (c q : Nat) (x : Queue) : (s.putQueue c q x).mcastWait = s.mcastWait := rfl
@[simp] theorem State.putQueue_monitors (s : State) (c q : Nat) (x : Queue) : (s.putQueue c q x).monitors = s.monitors := rfl
@[simp] theorem State.putQueue_recorder (s : State) (c q : Nat) (x : Queue) : (s.putQueue c q x).recorder = s.recorder := rfl
@[simp] theorem State.putQueue_changes (s : State) (c q : Nat) (x : Queue) : (s.putQueue c q x).changes = s.changes := rfl
@[simp] theorem State.putQueue_pushWait (s : State) (c q : Nat) (x : Queue) : (s.putQueue c q x).pushWait = s.pushWait := rfl
@[simp] theorem State.putQueue_codeFrames (s : State) (c q : Nat) (x : Queue) : (s.putQueue c q x).codeFrames = s.codeFrames := rfl
@[simp] theorem State.putQueue_gangs (s : State) (c q : Nat) (x : Queue) : (s.putQueue c q x).gangs = s.gangs := rfl
@[simp] theorem State.putQueue_mbx (s : State) (c q : Nat) (x : Queue) : (s.putQueue c q x).mbx = s.mbx := rfl
@[simp] theorem State.putQueue_fw (s : State) (c q : Nat) (x : Queue) : (s.putQueue c q x).fw = s.fw := rfl
@[simp] theorem State.putQueue_ports (s : State) (c q : Nat) (x : Queue) : (s.putQueue c q x).ports = s.ports := rfl
@[simp] theorem State.putQueue_hostDone (s : State) (c q : Nat) (x : Queue) : (s.putQueue c q x).hostDone = s.hostDone := rfl

@[simp] theorem State.putSlot_now (s : State) (c n : Nat) (x : CopyCmd) : (s.putSlot c n x).now = s.now := rfl
@[simp] theorem State.putSlot_skew (s : State) (c n : Nat) (x : CopyCmd) : (s.putSlot c n x).skew = s.skew := rfl
@[simp] theorem State.putSlot_fresh (s : State) (c n : Nat) (x : CopyCmd) : (s.putSlot c n x).fresh = s.fresh := rfl
@[simp] theorem State.putSlot_agenda (s : State) (c n : Nat) (x : CopyCmd) : (s.putSlot c n x).agenda = s.agenda := rfl
@[simp] theorem State.putSlot_cur (s : State) (c n : Nat) (x : CopyCmd) : (s.putSlot c n x).cur = s.cur := rfl
@[simp] theorem State.putSlot_nextId (s : State) (c n : Nat) (x : CopyCmd) : (s.putSlot c n x).nextId = s.nextId := rfl
@[simp] theorem State.putSlot_groups (s : State) (c n : Nat) (x : CopyCmd) : (s.putSlot c n x).groups = s.groups := rfl
@[simp] theorem State.putSlot_blocks (s : State) (c n : Nat) (x : CopyCmd) : (s.putSlot c n x).blocks = s.blocks := rfl
@[simp] theorem State.putSlot_saved (s : State) (c n : Nat) (x : CopyCmd) : (s.putSlot c n x).saved = s.saved := rfl
@[simp] theorem State.putSlot_launches (s : State) (c n : Nat) (x : CopyCmd) : (s.putSlot c n x).launches = s.launches := rfl
@[simp] theorem State.putSlot_phases (s : State) (c n : Nat) (x : CopyCmd) : (s.putSlot c n x).phases = s.phases := rfl
@[simp] theorem State.putSlot_queues (s : State) (c n : Nat) (x : CopyCmd) : (s.putSlot c n x).queues = s.queues := rfl
@[simp] theorem State.putSlot_ctxs (s : State) (c n : Nat) (x : CopyCmd) : (s.putSlot c n x).ctxs = s.ctxs := rfl
@[simp] theorem State.putSlot_mem (s : State) (c n : Nat) (x : CopyCmd) : (s.putSlot c n x).mem = s.mem := rfl
@[simp] theorem State.putSlot_poison (s : State) (c n : Nat) (x : CopyCmd) : (s.putSlot c n x).poison = s.poison := rfl
@[simp] theorem State.putSlot_clusters (s : State) (c n : Nat) (x : CopyCmd) : (s.putSlot c n x).clusters = s.clusters := rfl
@[simp] theorem State.putSlot_dies (s : State) (c n : Nat) (x : CopyCmd) : (s.putSlot c n x).dies = s.dies := rfl
@[simp] theorem State.putSlot_lines (s : State) (c n : Nat) (x : CopyCmd) : (s.putSlot c n x).lines = s.lines := rfl
@[simp] theorem State.putSlot_misses (s : State) (c n : Nat) (x : CopyCmd) : (s.putSlot c n x).misses = s.misses := rfl
@[simp] theorem State.putSlot_gateways (s : State) (c n : Nat) (x : CopyCmd) : (s.putSlot c n x).gateways = s.gateways := rfl
@[simp] theorem State.putSlot_txns (s : State) (c n : Nat) (x : CopyCmd) : (s.putSlot c n x).txns = s.txns := rfl
@[simp] theorem State.putSlot_net (s : State) (c n : Nat) (x : CopyCmd) : (s.putSlot c n x).net = s.net := rfl
@[simp] theorem State.putSlot_mcast (s : State) (c n : Nat) (x : CopyCmd) : (s.putSlot c n x).mcast = s.mcast := rfl
@[simp] theorem State.putSlot_mcastWait (s : State) (c n : Nat) (x : CopyCmd) : (s.putSlot c n x).mcastWait = s.mcastWait := rfl
@[simp] theorem State.putSlot_monitors (s : State) (c n : Nat) (x : CopyCmd) : (s.putSlot c n x).monitors = s.monitors := rfl
@[simp] theorem State.putSlot_recorder (s : State) (c n : Nat) (x : CopyCmd) : (s.putSlot c n x).recorder = s.recorder := rfl
@[simp] theorem State.putSlot_changes (s : State) (c n : Nat) (x : CopyCmd) : (s.putSlot c n x).changes = s.changes := rfl
@[simp] theorem State.putSlot_pushWait (s : State) (c n : Nat) (x : CopyCmd) : (s.putSlot c n x).pushWait = s.pushWait := rfl
@[simp] theorem State.putSlot_codeFrames (s : State) (c n : Nat) (x : CopyCmd) : (s.putSlot c n x).codeFrames = s.codeFrames := rfl
@[simp] theorem State.putSlot_gangs (s : State) (c n : Nat) (x : CopyCmd) : (s.putSlot c n x).gangs = s.gangs := rfl
@[simp] theorem State.putSlot_mbx (s : State) (c n : Nat) (x : CopyCmd) : (s.putSlot c n x).mbx = s.mbx := rfl
@[simp] theorem State.putSlot_fw (s : State) (c n : Nat) (x : CopyCmd) : (s.putSlot c n x).fw = s.fw := rfl
@[simp] theorem State.putSlot_ports (s : State) (c n : Nat) (x : CopyCmd) : (s.putSlot c n x).ports = s.ports := rfl
@[simp] theorem State.putSlot_hostDone (s : State) (c n : Nat) (x : CopyCmd) : (s.putSlot c n x).hostDone = s.hostDone := rfl

@[simp] theorem State.putGrant_now (s : State) (a b c : Nat) (x : GrantEntry) : (s.putGrant a b c x).now = s.now := rfl
@[simp] theorem State.putGrant_skew (s : State) (a b c : Nat) (x : GrantEntry) : (s.putGrant a b c x).skew = s.skew := rfl
@[simp] theorem State.putGrant_fresh (s : State) (a b c : Nat) (x : GrantEntry) : (s.putGrant a b c x).fresh = s.fresh := rfl
@[simp] theorem State.putGrant_agenda (s : State) (a b c : Nat) (x : GrantEntry) : (s.putGrant a b c x).agenda = s.agenda := rfl
@[simp] theorem State.putGrant_cur (s : State) (a b c : Nat) (x : GrantEntry) : (s.putGrant a b c x).cur = s.cur := rfl
@[simp] theorem State.putGrant_nextId (s : State) (a b c : Nat) (x : GrantEntry) : (s.putGrant a b c x).nextId = s.nextId := rfl
@[simp] theorem State.putGrant_groups (s : State) (a b c : Nat) (x : GrantEntry) : (s.putGrant a b c x).groups = s.groups := rfl
@[simp] theorem State.putGrant_blocks (s : State) (a b c : Nat) (x : GrantEntry) : (s.putGrant a b c x).blocks = s.blocks := rfl
@[simp] theorem State.putGrant_saved (s : State) (a b c : Nat) (x : GrantEntry) : (s.putGrant a b c x).saved = s.saved := rfl
@[simp] theorem State.putGrant_launches (s : State) (a b c : Nat) (x : GrantEntry) : (s.putGrant a b c x).launches = s.launches := rfl
@[simp] theorem State.putGrant_phases (s : State) (a b c : Nat) (x : GrantEntry) : (s.putGrant a b c x).phases = s.phases := rfl
@[simp] theorem State.putGrant_queues (s : State) (a b c : Nat) (x : GrantEntry) : (s.putGrant a b c x).queues = s.queues := rfl
@[simp] theorem State.putGrant_ctxs (s : State) (a b c : Nat) (x : GrantEntry) : (s.putGrant a b c x).ctxs = s.ctxs := rfl
@[simp] theorem State.putGrant_mem (s : State) (a b c : Nat) (x : GrantEntry) : (s.putGrant a b c x).mem = s.mem := rfl
@[simp] theorem State.putGrant_poison (s : State) (a b c : Nat) (x : GrantEntry) : (s.putGrant a b c x).poison = s.poison := rfl
@[simp] theorem State.putGrant_clusters (s : State) (a b c : Nat) (x : GrantEntry) : (s.putGrant a b c x).clusters = s.clusters := rfl
@[simp] theorem State.putGrant_dies (s : State) (a b c : Nat) (x : GrantEntry) : (s.putGrant a b c x).dies = s.dies := rfl
@[simp] theorem State.putGrant_lines (s : State) (a b c : Nat) (x : GrantEntry) : (s.putGrant a b c x).lines = s.lines := rfl
@[simp] theorem State.putGrant_misses (s : State) (a b c : Nat) (x : GrantEntry) : (s.putGrant a b c x).misses = s.misses := rfl
@[simp] theorem State.putGrant_gateways (s : State) (a b c : Nat) (x : GrantEntry) : (s.putGrant a b c x).gateways = s.gateways := rfl
@[simp] theorem State.putGrant_txns (s : State) (a b c : Nat) (x : GrantEntry) : (s.putGrant a b c x).txns = s.txns := rfl
@[simp] theorem State.putGrant_net (s : State) (a b c : Nat) (x : GrantEntry) : (s.putGrant a b c x).net = s.net := rfl
@[simp] theorem State.putGrant_mcast (s : State) (a b c : Nat) (x : GrantEntry) : (s.putGrant a b c x).mcast = s.mcast := rfl
@[simp] theorem State.putGrant_mcastWait (s : State) (a b c : Nat) (x : GrantEntry) : (s.putGrant a b c x).mcastWait = s.mcastWait := rfl
@[simp] theorem State.putGrant_monitors (s : State) (a b c : Nat) (x : GrantEntry) : (s.putGrant a b c x).monitors = s.monitors := rfl
@[simp] theorem State.putGrant_recorder (s : State) (a b c : Nat) (x : GrantEntry) : (s.putGrant a b c x).recorder = s.recorder := rfl
@[simp] theorem State.putGrant_changes (s : State) (a b c : Nat) (x : GrantEntry) : (s.putGrant a b c x).changes = s.changes := rfl
@[simp] theorem State.putGrant_pushWait (s : State) (a b c : Nat) (x : GrantEntry) : (s.putGrant a b c x).pushWait = s.pushWait := rfl
@[simp] theorem State.putGrant_codeFrames (s : State) (a b c : Nat) (x : GrantEntry) : (s.putGrant a b c x).codeFrames = s.codeFrames := rfl
@[simp] theorem State.putGrant_gangs (s : State) (a b c : Nat) (x : GrantEntry) : (s.putGrant a b c x).gangs = s.gangs := rfl
@[simp] theorem State.putGrant_mbx (s : State) (a b c : Nat) (x : GrantEntry) : (s.putGrant a b c x).mbx = s.mbx := rfl
@[simp] theorem State.putGrant_fw (s : State) (a b c : Nat) (x : GrantEntry) : (s.putGrant a b c x).fw = s.fw := rfl
@[simp] theorem State.putGrant_ports (s : State) (a b c : Nat) (x : GrantEntry) : (s.putGrant a b c x).ports = s.ports := rfl
@[simp] theorem State.putGrant_hostDone (s : State) (a b c : Nat) (x : GrantEntry) : (s.putGrant a b c x).hostDone = s.hostDone := rfl

@[simp] theorem State.delGrant_now (s : State) (a b c : Nat) : (s.delGrant a b c).now = s.now := rfl
@[simp] theorem State.delGrant_skew (s : State) (a b c : Nat) : (s.delGrant a b c).skew = s.skew := rfl
@[simp] theorem State.delGrant_fresh (s : State) (a b c : Nat) : (s.delGrant a b c).fresh = s.fresh := rfl
@[simp] theorem State.delGrant_agenda (s : State) (a b c : Nat) : (s.delGrant a b c).agenda = s.agenda := rfl
@[simp] theorem State.delGrant_cur (s : State) (a b c : Nat) : (s.delGrant a b c).cur = s.cur := rfl
@[simp] theorem State.delGrant_nextId (s : State) (a b c : Nat) : (s.delGrant a b c).nextId = s.nextId := rfl
@[simp] theorem State.delGrant_groups (s : State) (a b c : Nat) : (s.delGrant a b c).groups = s.groups := rfl
@[simp] theorem State.delGrant_blocks (s : State) (a b c : Nat) : (s.delGrant a b c).blocks = s.blocks := rfl
@[simp] theorem State.delGrant_saved (s : State) (a b c : Nat) : (s.delGrant a b c).saved = s.saved := rfl
@[simp] theorem State.delGrant_launches (s : State) (a b c : Nat) : (s.delGrant a b c).launches = s.launches := rfl
@[simp] theorem State.delGrant_phases (s : State) (a b c : Nat) : (s.delGrant a b c).phases = s.phases := rfl
@[simp] theorem State.delGrant_queues (s : State) (a b c : Nat) : (s.delGrant a b c).queues = s.queues := rfl
@[simp] theorem State.delGrant_ctxs (s : State) (a b c : Nat) : (s.delGrant a b c).ctxs = s.ctxs := rfl
@[simp] theorem State.delGrant_mem (s : State) (a b c : Nat) : (s.delGrant a b c).mem = s.mem := rfl
@[simp] theorem State.delGrant_poison (s : State) (a b c : Nat) : (s.delGrant a b c).poison = s.poison := rfl
@[simp] theorem State.delGrant_clusters (s : State) (a b c : Nat) : (s.delGrant a b c).clusters = s.clusters := rfl
@[simp] theorem State.delGrant_dies (s : State) (a b c : Nat) : (s.delGrant a b c).dies = s.dies := rfl
@[simp] theorem State.delGrant_lines (s : State) (a b c : Nat) : (s.delGrant a b c).lines = s.lines := rfl
@[simp] theorem State.delGrant_misses (s : State) (a b c : Nat) : (s.delGrant a b c).misses = s.misses := rfl
@[simp] theorem State.delGrant_gateways (s : State) (a b c : Nat) : (s.delGrant a b c).gateways = s.gateways := rfl
@[simp] theorem State.delGrant_txns (s : State) (a b c : Nat) : (s.delGrant a b c).txns = s.txns := rfl
@[simp] theorem State.delGrant_net (s : State) (a b c : Nat) : (s.delGrant a b c).net = s.net := rfl
@[simp] theorem State.delGrant_mcast (s : State) (a b c : Nat) : (s.delGrant a b c).mcast = s.mcast := rfl
@[simp] theorem State.delGrant_mcastWait (s : State) (a b c : Nat) : (s.delGrant a b c).mcastWait = s.mcastWait := rfl
@[simp] theorem State.delGrant_monitors (s : State) (a b c : Nat) : (s.delGrant a b c).monitors = s.monitors := rfl
@[simp] theorem State.delGrant_recorder (s : State) (a b c : Nat) : (s.delGrant a b c).recorder = s.recorder := rfl
@[simp] theorem State.delGrant_changes (s : State) (a b c : Nat) : (s.delGrant a b c).changes = s.changes := rfl
@[simp] theorem State.delGrant_pushWait (s : State) (a b c : Nat) : (s.delGrant a b c).pushWait = s.pushWait := rfl
@[simp] theorem State.delGrant_codeFrames (s : State) (a b c : Nat) : (s.delGrant a b c).codeFrames = s.codeFrames := rfl
@[simp] theorem State.delGrant_gangs (s : State) (a b c : Nat) : (s.delGrant a b c).gangs = s.gangs := rfl
@[simp] theorem State.delGrant_mbx (s : State) (a b c : Nat) : (s.delGrant a b c).mbx = s.mbx := rfl
@[simp] theorem State.delGrant_fw (s : State) (a b c : Nat) : (s.delGrant a b c).fw = s.fw := rfl
@[simp] theorem State.delGrant_ports (s : State) (a b c : Nat) : (s.delGrant a b c).ports = s.ports := rfl
@[simp] theorem State.delGrant_hostDone (s : State) (a b c : Nat) : (s.delGrant a b c).hostDone = s.hostDone := rfl

@[simp] theorem State.putHold_now (s : State) (r : GroupRef) (h : Hold) (o : Option Hold) : (s.putHold r h o).now = s.now := rfl
@[simp] theorem State.putHold_skew (s : State) (r : GroupRef) (h : Hold) (o : Option Hold) : (s.putHold r h o).skew = s.skew := rfl
@[simp] theorem State.putHold_fresh (s : State) (r : GroupRef) (h : Hold) (o : Option Hold) : (s.putHold r h o).fresh = s.fresh := rfl
@[simp] theorem State.putHold_agenda (s : State) (r : GroupRef) (h : Hold) (o : Option Hold) : (s.putHold r h o).agenda = s.agenda := rfl
@[simp] theorem State.putHold_cur (s : State) (r : GroupRef) (h : Hold) (o : Option Hold) : (s.putHold r h o).cur = s.cur := rfl
@[simp] theorem State.putHold_nextId (s : State) (r : GroupRef) (h : Hold) (o : Option Hold) : (s.putHold r h o).nextId = s.nextId := rfl
@[simp] theorem State.putHold_blocks (s : State) (r : GroupRef) (h : Hold) (o : Option Hold) : (s.putHold r h o).blocks = s.blocks := rfl
@[simp] theorem State.putHold_saved (s : State) (r : GroupRef) (h : Hold) (o : Option Hold) : (s.putHold r h o).saved = s.saved := rfl
@[simp] theorem State.putHold_launches (s : State) (r : GroupRef) (h : Hold) (o : Option Hold) : (s.putHold r h o).launches = s.launches := rfl
@[simp] theorem State.putHold_phases (s : State) (r : GroupRef) (h : Hold) (o : Option Hold) : (s.putHold r h o).phases = s.phases := rfl
@[simp] theorem State.putHold_queues (s : State) (r : GroupRef) (h : Hold) (o : Option Hold) : (s.putHold r h o).queues = s.queues := rfl
@[simp] theorem State.putHold_ctxs (s : State) (r : GroupRef) (h : Hold) (o : Option Hold) : (s.putHold r h o).ctxs = s.ctxs := rfl
@[simp] theorem State.putHold_mem (s : State) (r : GroupRef) (h : Hold) (o : Option Hold) : (s.putHold r h o).mem = s.mem := rfl
@[simp] theorem State.putHold_poison (s : State) (r : GroupRef) (h : Hold) (o : Option Hold) : (s.putHold r h o).poison = s.poison := rfl
@[simp] theorem State.putHold_cores (s : State) (r : GroupRef) (h : Hold) (o : Option Hold) : (s.putHold r h o).cores = s.cores := rfl
@[simp] theorem State.putHold_clusters (s : State) (r : GroupRef) (h : Hold) (o : Option Hold) : (s.putHold r h o).clusters = s.clusters := rfl
@[simp] theorem State.putHold_dies (s : State) (r : GroupRef) (h : Hold) (o : Option Hold) : (s.putHold r h o).dies = s.dies := rfl
@[simp] theorem State.putHold_lines (s : State) (r : GroupRef) (h : Hold) (o : Option Hold) : (s.putHold r h o).lines = s.lines := rfl
@[simp] theorem State.putHold_misses (s : State) (r : GroupRef) (h : Hold) (o : Option Hold) : (s.putHold r h o).misses = s.misses := rfl
@[simp] theorem State.putHold_gateways (s : State) (r : GroupRef) (h : Hold) (o : Option Hold) : (s.putHold r h o).gateways = s.gateways := rfl
@[simp] theorem State.putHold_txns (s : State) (r : GroupRef) (h : Hold) (o : Option Hold) : (s.putHold r h o).txns = s.txns := rfl
@[simp] theorem State.putHold_net (s : State) (r : GroupRef) (h : Hold) (o : Option Hold) : (s.putHold r h o).net = s.net := rfl
@[simp] theorem State.putHold_mcast (s : State) (r : GroupRef) (h : Hold) (o : Option Hold) : (s.putHold r h o).mcast = s.mcast := rfl
@[simp] theorem State.putHold_mcastWait (s : State) (r : GroupRef) (h : Hold) (o : Option Hold) : (s.putHold r h o).mcastWait = s.mcastWait := rfl
@[simp] theorem State.putHold_monitors (s : State) (r : GroupRef) (h : Hold) (o : Option Hold) : (s.putHold r h o).monitors = s.monitors := rfl
@[simp] theorem State.putHold_recorder (s : State) (r : GroupRef) (h : Hold) (o : Option Hold) : (s.putHold r h o).recorder = s.recorder := rfl
@[simp] theorem State.putHold_changes (s : State) (r : GroupRef) (h : Hold) (o : Option Hold) : (s.putHold r h o).changes = s.changes := rfl
@[simp] theorem State.putHold_pushWait (s : State) (r : GroupRef) (h : Hold) (o : Option Hold) : (s.putHold r h o).pushWait = s.pushWait := rfl
@[simp] theorem State.putHold_codeFrames (s : State) (r : GroupRef) (h : Hold) (o : Option Hold) : (s.putHold r h o).codeFrames = s.codeFrames := rfl
@[simp] theorem State.putHold_gangs (s : State) (r : GroupRef) (h : Hold) (o : Option Hold) : (s.putHold r h o).gangs = s.gangs := rfl
@[simp] theorem State.putHold_mbx (s : State) (r : GroupRef) (h : Hold) (o : Option Hold) : (s.putHold r h o).mbx = s.mbx := rfl
@[simp] theorem State.putHold_fw (s : State) (r : GroupRef) (h : Hold) (o : Option Hold) : (s.putHold r h o).fw = s.fw := rfl
@[simp] theorem State.putHold_ports (s : State) (r : GroupRef) (h : Hold) (o : Option Hold) : (s.putHold r h o).ports = s.ports := rfl
@[simp] theorem State.putHold_hostDone (s : State) (r : GroupRef) (h : Hold) (o : Option Hold) : (s.putHold r h o).hostDone = s.hostDone := rfl

@[simp] theorem State.putTile_now (s : State) (c : Nat) (k : BlockKey) (n : TReg) (x : TileReg) : (s.putTile c k n x).now = s.now := rfl
@[simp] theorem State.putTile_skew (s : State) (c : Nat) (k : BlockKey) (n : TReg) (x : TileReg) : (s.putTile c k n x).skew = s.skew := rfl
@[simp] theorem State.putTile_fresh (s : State) (c : Nat) (k : BlockKey) (n : TReg) (x : TileReg) : (s.putTile c k n x).fresh = s.fresh := rfl
@[simp] theorem State.putTile_agenda (s : State) (c : Nat) (k : BlockKey) (n : TReg) (x : TileReg) : (s.putTile c k n x).agenda = s.agenda := rfl
@[simp] theorem State.putTile_cur (s : State) (c : Nat) (k : BlockKey) (n : TReg) (x : TileReg) : (s.putTile c k n x).cur = s.cur := rfl
@[simp] theorem State.putTile_nextId (s : State) (c : Nat) (k : BlockKey) (n : TReg) (x : TileReg) : (s.putTile c k n x).nextId = s.nextId := rfl
@[simp] theorem State.putTile_groups (s : State) (c : Nat) (k : BlockKey) (n : TReg) (x : TileReg) : (s.putTile c k n x).groups = s.groups := rfl
@[simp] theorem State.putTile_blocks (s : State) (c : Nat) (k : BlockKey) (n : TReg) (x : TileReg) : (s.putTile c k n x).blocks = s.blocks := rfl
@[simp] theorem State.putTile_saved (s : State) (c : Nat) (k : BlockKey) (n : TReg) (x : TileReg) : (s.putTile c k n x).saved = s.saved := rfl
@[simp] theorem State.putTile_launches (s : State) (c : Nat) (k : BlockKey) (n : TReg) (x : TileReg) : (s.putTile c k n x).launches = s.launches := rfl
@[simp] theorem State.putTile_phases (s : State) (c : Nat) (k : BlockKey) (n : TReg) (x : TileReg) : (s.putTile c k n x).phases = s.phases := rfl
@[simp] theorem State.putTile_queues (s : State) (c : Nat) (k : BlockKey) (n : TReg) (x : TileReg) : (s.putTile c k n x).queues = s.queues := rfl
@[simp] theorem State.putTile_ctxs (s : State) (c : Nat) (k : BlockKey) (n : TReg) (x : TileReg) : (s.putTile c k n x).ctxs = s.ctxs := rfl
@[simp] theorem State.putTile_mem (s : State) (c : Nat) (k : BlockKey) (n : TReg) (x : TileReg) : (s.putTile c k n x).mem = s.mem := rfl
@[simp] theorem State.putTile_poison (s : State) (c : Nat) (k : BlockKey) (n : TReg) (x : TileReg) : (s.putTile c k n x).poison = s.poison := rfl
@[simp] theorem State.putTile_cores (s : State) (c : Nat) (k : BlockKey) (n : TReg) (x : TileReg) : (s.putTile c k n x).cores = s.cores := rfl
@[simp] theorem State.putTile_dies (s : State) (c : Nat) (k : BlockKey) (n : TReg) (x : TileReg) : (s.putTile c k n x).dies = s.dies := rfl
@[simp] theorem State.putTile_lines (s : State) (c : Nat) (k : BlockKey) (n : TReg) (x : TileReg) : (s.putTile c k n x).lines = s.lines := rfl
@[simp] theorem State.putTile_misses (s : State) (c : Nat) (k : BlockKey) (n : TReg) (x : TileReg) : (s.putTile c k n x).misses = s.misses := rfl
@[simp] theorem State.putTile_gateways (s : State) (c : Nat) (k : BlockKey) (n : TReg) (x : TileReg) : (s.putTile c k n x).gateways = s.gateways := rfl
@[simp] theorem State.putTile_txns (s : State) (c : Nat) (k : BlockKey) (n : TReg) (x : TileReg) : (s.putTile c k n x).txns = s.txns := rfl
@[simp] theorem State.putTile_net (s : State) (c : Nat) (k : BlockKey) (n : TReg) (x : TileReg) : (s.putTile c k n x).net = s.net := rfl
@[simp] theorem State.putTile_mcast (s : State) (c : Nat) (k : BlockKey) (n : TReg) (x : TileReg) : (s.putTile c k n x).mcast = s.mcast := rfl
@[simp] theorem State.putTile_mcastWait (s : State) (c : Nat) (k : BlockKey) (n : TReg) (x : TileReg) : (s.putTile c k n x).mcastWait = s.mcastWait := rfl
@[simp] theorem State.putTile_monitors (s : State) (c : Nat) (k : BlockKey) (n : TReg) (x : TileReg) : (s.putTile c k n x).monitors = s.monitors := rfl
@[simp] theorem State.putTile_recorder (s : State) (c : Nat) (k : BlockKey) (n : TReg) (x : TileReg) : (s.putTile c k n x).recorder = s.recorder := rfl
@[simp] theorem State.putTile_changes (s : State) (c : Nat) (k : BlockKey) (n : TReg) (x : TileReg) : (s.putTile c k n x).changes = s.changes := rfl
@[simp] theorem State.putTile_pushWait (s : State) (c : Nat) (k : BlockKey) (n : TReg) (x : TileReg) : (s.putTile c k n x).pushWait = s.pushWait := rfl
@[simp] theorem State.putTile_codeFrames (s : State) (c : Nat) (k : BlockKey) (n : TReg) (x : TileReg) : (s.putTile c k n x).codeFrames = s.codeFrames := rfl
@[simp] theorem State.putTile_gangs (s : State) (c : Nat) (k : BlockKey) (n : TReg) (x : TileReg) : (s.putTile c k n x).gangs = s.gangs := rfl
@[simp] theorem State.putTile_mbx (s : State) (c : Nat) (k : BlockKey) (n : TReg) (x : TileReg) : (s.putTile c k n x).mbx = s.mbx := rfl
@[simp] theorem State.putTile_fw (s : State) (c : Nat) (k : BlockKey) (n : TReg) (x : TileReg) : (s.putTile c k n x).fw = s.fw := rfl
@[simp] theorem State.putTile_ports (s : State) (c : Nat) (k : BlockKey) (n : TReg) (x : TileReg) : (s.putTile c k n x).ports = s.ports := rfl
@[simp] theorem State.putTile_hostDone (s : State) (c : Nat) (k : BlockKey) (n : TReg) (x : TileReg) : (s.putTile c k n x).hostDone = s.hostDone := rfl

@[simp] theorem State.modRequest_now (s : State) (c n : Nat) (f : Request → Request) : (s.modRequest c n f).now = s.now := rfl
@[simp] theorem State.modRequest_skew (s : State) (c n : Nat) (f : Request → Request) : (s.modRequest c n f).skew = s.skew := rfl
@[simp] theorem State.modRequest_fresh (s : State) (c n : Nat) (f : Request → Request) : (s.modRequest c n f).fresh = s.fresh := rfl
@[simp] theorem State.modRequest_agenda (s : State) (c n : Nat) (f : Request → Request) : (s.modRequest c n f).agenda = s.agenda := rfl
@[simp] theorem State.modRequest_cur (s : State) (c n : Nat) (f : Request → Request) : (s.modRequest c n f).cur = s.cur := rfl
@[simp] theorem State.modRequest_nextId (s : State) (c n : Nat) (f : Request → Request) : (s.modRequest c n f).nextId = s.nextId := rfl
@[simp] theorem State.modRequest_groups (s : State) (c n : Nat) (f : Request → Request) : (s.modRequest c n f).groups = s.groups := rfl
@[simp] theorem State.modRequest_blocks (s : State) (c n : Nat) (f : Request → Request) : (s.modRequest c n f).blocks = s.blocks := rfl
@[simp] theorem State.modRequest_saved (s : State) (c n : Nat) (f : Request → Request) : (s.modRequest c n f).saved = s.saved := rfl
@[simp] theorem State.modRequest_launches (s : State) (c n : Nat) (f : Request → Request) : (s.modRequest c n f).launches = s.launches := rfl
@[simp] theorem State.modRequest_phases (s : State) (c n : Nat) (f : Request → Request) : (s.modRequest c n f).phases = s.phases := rfl
@[simp] theorem State.modRequest_queues (s : State) (c n : Nat) (f : Request → Request) : (s.modRequest c n f).queues = s.queues := rfl
@[simp] theorem State.modRequest_ctxs (s : State) (c n : Nat) (f : Request → Request) : (s.modRequest c n f).ctxs = s.ctxs := rfl
@[simp] theorem State.modRequest_mem (s : State) (c n : Nat) (f : Request → Request) : (s.modRequest c n f).mem = s.mem := rfl
@[simp] theorem State.modRequest_poison (s : State) (c n : Nat) (f : Request → Request) : (s.modRequest c n f).poison = s.poison := rfl
@[simp] theorem State.modRequest_cores (s : State) (c n : Nat) (f : Request → Request) : (s.modRequest c n f).cores = s.cores := rfl
@[simp] theorem State.modRequest_dies (s : State) (c n : Nat) (f : Request → Request) : (s.modRequest c n f).dies = s.dies := rfl
@[simp] theorem State.modRequest_lines (s : State) (c n : Nat) (f : Request → Request) : (s.modRequest c n f).lines = s.lines := rfl
@[simp] theorem State.modRequest_misses (s : State) (c n : Nat) (f : Request → Request) : (s.modRequest c n f).misses = s.misses := rfl
@[simp] theorem State.modRequest_gateways (s : State) (c n : Nat) (f : Request → Request) : (s.modRequest c n f).gateways = s.gateways := rfl
@[simp] theorem State.modRequest_txns (s : State) (c n : Nat) (f : Request → Request) : (s.modRequest c n f).txns = s.txns := rfl
@[simp] theorem State.modRequest_net (s : State) (c n : Nat) (f : Request → Request) : (s.modRequest c n f).net = s.net := rfl
@[simp] theorem State.modRequest_mcast (s : State) (c n : Nat) (f : Request → Request) : (s.modRequest c n f).mcast = s.mcast := rfl
@[simp] theorem State.modRequest_mcastWait (s : State) (c n : Nat) (f : Request → Request) : (s.modRequest c n f).mcastWait = s.mcastWait := rfl
@[simp] theorem State.modRequest_monitors (s : State) (c n : Nat) (f : Request → Request) : (s.modRequest c n f).monitors = s.monitors := rfl
@[simp] theorem State.modRequest_recorder (s : State) (c n : Nat) (f : Request → Request) : (s.modRequest c n f).recorder = s.recorder := rfl
@[simp] theorem State.modRequest_changes (s : State) (c n : Nat) (f : Request → Request) : (s.modRequest c n f).changes = s.changes := rfl
@[simp] theorem State.modRequest_pushWait (s : State) (c n : Nat) (f : Request → Request) : (s.modRequest c n f).pushWait = s.pushWait := rfl
@[simp] theorem State.modRequest_codeFrames (s : State) (c n : Nat) (f : Request → Request) : (s.modRequest c n f).codeFrames = s.codeFrames := rfl
@[simp] theorem State.modRequest_gangs (s : State) (c n : Nat) (f : Request → Request) : (s.modRequest c n f).gangs = s.gangs := rfl
@[simp] theorem State.modRequest_mbx (s : State) (c n : Nat) (f : Request → Request) : (s.modRequest c n f).mbx = s.mbx := rfl
@[simp] theorem State.modRequest_fw (s : State) (c n : Nat) (f : Request → Request) : (s.modRequest c n f).fw = s.fw := rfl
@[simp] theorem State.modRequest_ports (s : State) (c n : Nat) (f : Request → Request) : (s.modRequest c n f).ports = s.ports := rfl
@[simp] theorem State.modRequest_hostDone (s : State) (c n : Nat) (f : Request → Request) : (s.modRequest c n f).hostDone = s.hostDone := rfl

@[simp] theorem State.putPort_now (s : State) (n : Nat) (p : Port) : (s.putPort n p).now = s.now := rfl
@[simp] theorem State.putPort_skew (s : State) (n : Nat) (p : Port) : (s.putPort n p).skew = s.skew := rfl
@[simp] theorem State.putPort_fresh (s : State) (n : Nat) (p : Port) : (s.putPort n p).fresh = s.fresh := rfl
@[simp] theorem State.putPort_agenda (s : State) (n : Nat) (p : Port) : (s.putPort n p).agenda = s.agenda := rfl
@[simp] theorem State.putPort_cur (s : State) (n : Nat) (p : Port) : (s.putPort n p).cur = s.cur := rfl
@[simp] theorem State.putPort_nextId (s : State) (n : Nat) (p : Port) : (s.putPort n p).nextId = s.nextId := rfl
@[simp] theorem State.putPort_groups (s : State) (n : Nat) (p : Port) : (s.putPort n p).groups = s.groups := rfl
@[simp] theorem State.putPort_blocks (s : State) (n : Nat) (p : Port) : (s.putPort n p).blocks = s.blocks := rfl
@[simp] theorem State.putPort_saved (s : State) (n : Nat) (p : Port) : (s.putPort n p).saved = s.saved := rfl
@[simp] theorem State.putPort_launches (s : State) (n : Nat) (p : Port) : (s.putPort n p).launches = s.launches := rfl
@[simp] theorem State.putPort_phases (s : State) (n : Nat) (p : Port) : (s.putPort n p).phases = s.phases := rfl
@[simp] theorem State.putPort_queues (s : State) (n : Nat) (p : Port) : (s.putPort n p).queues = s.queues := rfl
@[simp] theorem State.putPort_ctxs (s : State) (n : Nat) (p : Port) : (s.putPort n p).ctxs = s.ctxs := rfl
@[simp] theorem State.putPort_mem (s : State) (n : Nat) (p : Port) : (s.putPort n p).mem = s.mem := rfl
@[simp] theorem State.putPort_poison (s : State) (n : Nat) (p : Port) : (s.putPort n p).poison = s.poison := rfl
@[simp] theorem State.putPort_cores (s : State) (n : Nat) (p : Port) : (s.putPort n p).cores = s.cores := rfl
@[simp] theorem State.putPort_clusters (s : State) (n : Nat) (p : Port) : (s.putPort n p).clusters = s.clusters := rfl
@[simp] theorem State.putPort_dies (s : State) (n : Nat) (p : Port) : (s.putPort n p).dies = s.dies := rfl
@[simp] theorem State.putPort_lines (s : State) (n : Nat) (p : Port) : (s.putPort n p).lines = s.lines := rfl
@[simp] theorem State.putPort_misses (s : State) (n : Nat) (p : Port) : (s.putPort n p).misses = s.misses := rfl
@[simp] theorem State.putPort_gateways (s : State) (n : Nat) (p : Port) : (s.putPort n p).gateways = s.gateways := rfl
@[simp] theorem State.putPort_txns (s : State) (n : Nat) (p : Port) : (s.putPort n p).txns = s.txns := rfl
@[simp] theorem State.putPort_net (s : State) (n : Nat) (p : Port) : (s.putPort n p).net = s.net := rfl
@[simp] theorem State.putPort_mcast (s : State) (n : Nat) (p : Port) : (s.putPort n p).mcast = s.mcast := rfl
@[simp] theorem State.putPort_mcastWait (s : State) (n : Nat) (p : Port) : (s.putPort n p).mcastWait = s.mcastWait := rfl
@[simp] theorem State.putPort_monitors (s : State) (n : Nat) (p : Port) : (s.putPort n p).monitors = s.monitors := rfl
@[simp] theorem State.putPort_recorder (s : State) (n : Nat) (p : Port) : (s.putPort n p).recorder = s.recorder := rfl
@[simp] theorem State.putPort_changes (s : State) (n : Nat) (p : Port) : (s.putPort n p).changes = s.changes := rfl
@[simp] theorem State.putPort_pushWait (s : State) (n : Nat) (p : Port) : (s.putPort n p).pushWait = s.pushWait := rfl
@[simp] theorem State.putPort_codeFrames (s : State) (n : Nat) (p : Port) : (s.putPort n p).codeFrames = s.codeFrames := rfl
@[simp] theorem State.putPort_gangs (s : State) (n : Nat) (p : Port) : (s.putPort n p).gangs = s.gangs := rfl
@[simp] theorem State.putPort_mbx (s : State) (n : Nat) (p : Port) : (s.putPort n p).mbx = s.mbx := rfl
@[simp] theorem State.putPort_fw (s : State) (n : Nat) (p : Port) : (s.putPort n p).fw = s.fw := rfl
@[simp] theorem State.putPort_hostDone (s : State) (n : Nat) (p : Port) : (s.putPort n p).hostDone = s.hostDone := rfl

@[simp] theorem State.corrected_now (s : State) (a b c : Nat) : (s.corrected a b c).now = s.now := rfl
@[simp] theorem State.corrected_skew (s : State) (a b c : Nat) : (s.corrected a b c).skew = s.skew := rfl
@[simp] theorem State.corrected_fresh (s : State) (a b c : Nat) : (s.corrected a b c).fresh = s.fresh := rfl
@[simp] theorem State.corrected_agenda (s : State) (a b c : Nat) : (s.corrected a b c).agenda = s.agenda := rfl
@[simp] theorem State.corrected_cur (s : State) (a b c : Nat) : (s.corrected a b c).cur = s.cur := rfl
@[simp] theorem State.corrected_nextId (s : State) (a b c : Nat) : (s.corrected a b c).nextId = s.nextId := rfl
@[simp] theorem State.corrected_groups (s : State) (a b c : Nat) : (s.corrected a b c).groups = s.groups := rfl
@[simp] theorem State.corrected_blocks (s : State) (a b c : Nat) : (s.corrected a b c).blocks = s.blocks := rfl
@[simp] theorem State.corrected_saved (s : State) (a b c : Nat) : (s.corrected a b c).saved = s.saved := rfl
@[simp] theorem State.corrected_launches (s : State) (a b c : Nat) : (s.corrected a b c).launches = s.launches := rfl
@[simp] theorem State.corrected_phases (s : State) (a b c : Nat) : (s.corrected a b c).phases = s.phases := rfl
@[simp] theorem State.corrected_queues (s : State) (a b c : Nat) : (s.corrected a b c).queues = s.queues := rfl
@[simp] theorem State.corrected_ctxs (s : State) (a b c : Nat) : (s.corrected a b c).ctxs = s.ctxs := rfl
@[simp] theorem State.corrected_mem (s : State) (a b c : Nat) : (s.corrected a b c).mem = s.mem := rfl
@[simp] theorem State.corrected_poison (s : State) (a b c : Nat) : (s.corrected a b c).poison = s.poison := rfl
@[simp] theorem State.corrected_cores (s : State) (a b c : Nat) : (s.corrected a b c).cores = s.cores := rfl
@[simp] theorem State.corrected_clusters (s : State) (a b c : Nat) : (s.corrected a b c).clusters = s.clusters := rfl
@[simp] theorem State.corrected_dies (s : State) (a b c : Nat) : (s.corrected a b c).dies = s.dies := rfl
@[simp] theorem State.corrected_lines (s : State) (a b c : Nat) : (s.corrected a b c).lines = s.lines := rfl
@[simp] theorem State.corrected_misses (s : State) (a b c : Nat) : (s.corrected a b c).misses = s.misses := rfl
@[simp] theorem State.corrected_gateways (s : State) (a b c : Nat) : (s.corrected a b c).gateways = s.gateways := rfl
@[simp] theorem State.corrected_txns (s : State) (a b c : Nat) : (s.corrected a b c).txns = s.txns := rfl
@[simp] theorem State.corrected_net (s : State) (a b c : Nat) : (s.corrected a b c).net = s.net := rfl
@[simp] theorem State.corrected_mcast (s : State) (a b c : Nat) : (s.corrected a b c).mcast = s.mcast := rfl
@[simp] theorem State.corrected_mcastWait (s : State) (a b c : Nat) : (s.corrected a b c).mcastWait = s.mcastWait := rfl
@[simp] theorem State.corrected_monitors (s : State) (a b c : Nat) : (s.corrected a b c).monitors = s.monitors := rfl
@[simp] theorem State.corrected_recorder (s : State) (a b c : Nat) : (s.corrected a b c).recorder = s.recorder := rfl
@[simp] theorem State.corrected_changes (s : State) (a b c : Nat) : (s.corrected a b c).changes = s.changes := rfl
@[simp] theorem State.corrected_pushWait (s : State) (a b c : Nat) : (s.corrected a b c).pushWait = s.pushWait := rfl
@[simp] theorem State.corrected_codeFrames (s : State) (a b c : Nat) : (s.corrected a b c).codeFrames = s.codeFrames := rfl
@[simp] theorem State.corrected_gangs (s : State) (a b c : Nat) : (s.corrected a b c).gangs = s.gangs := rfl
@[simp] theorem State.corrected_mbx (s : State) (a b c : Nat) : (s.corrected a b c).mbx = s.mbx := rfl
@[simp] theorem State.corrected_ports (s : State) (a b c : Nat) : (s.corrected a b c).ports = s.ports := rfl
@[simp] theorem State.corrected_hostDone (s : State) (a b c : Nat) : (s.corrected a b c).hostDone = s.hostDone := rfl

@[simp] theorem State.uncorrected_now (s : State) (a b : Nat) : (s.uncorrected a b).now = s.now := rfl
@[simp] theorem State.uncorrected_skew (s : State) (a b : Nat) : (s.uncorrected a b).skew = s.skew := rfl
@[simp] theorem State.uncorrected_fresh (s : State) (a b : Nat) : (s.uncorrected a b).fresh = s.fresh := rfl
@[simp] theorem State.uncorrected_agenda (s : State) (a b : Nat) : (s.uncorrected a b).agenda = s.agenda := rfl
@[simp] theorem State.uncorrected_cur (s : State) (a b : Nat) : (s.uncorrected a b).cur = s.cur := rfl
@[simp] theorem State.uncorrected_nextId (s : State) (a b : Nat) : (s.uncorrected a b).nextId = s.nextId := rfl
@[simp] theorem State.uncorrected_groups (s : State) (a b : Nat) : (s.uncorrected a b).groups = s.groups := rfl
@[simp] theorem State.uncorrected_blocks (s : State) (a b : Nat) : (s.uncorrected a b).blocks = s.blocks := rfl
@[simp] theorem State.uncorrected_saved (s : State) (a b : Nat) : (s.uncorrected a b).saved = s.saved := rfl
@[simp] theorem State.uncorrected_launches (s : State) (a b : Nat) : (s.uncorrected a b).launches = s.launches := rfl
@[simp] theorem State.uncorrected_phases (s : State) (a b : Nat) : (s.uncorrected a b).phases = s.phases := rfl
@[simp] theorem State.uncorrected_queues (s : State) (a b : Nat) : (s.uncorrected a b).queues = s.queues := rfl
@[simp] theorem State.uncorrected_ctxs (s : State) (a b : Nat) : (s.uncorrected a b).ctxs = s.ctxs := rfl
@[simp] theorem State.uncorrected_mem (s : State) (a b : Nat) : (s.uncorrected a b).mem = s.mem := rfl
@[simp] theorem State.uncorrected_poison (s : State) (a b : Nat) : (s.uncorrected a b).poison = s.poison := rfl
@[simp] theorem State.uncorrected_cores (s : State) (a b : Nat) : (s.uncorrected a b).cores = s.cores := rfl
@[simp] theorem State.uncorrected_clusters (s : State) (a b : Nat) : (s.uncorrected a b).clusters = s.clusters := rfl
@[simp] theorem State.uncorrected_dies (s : State) (a b : Nat) : (s.uncorrected a b).dies = s.dies := rfl
@[simp] theorem State.uncorrected_lines (s : State) (a b : Nat) : (s.uncorrected a b).lines = s.lines := rfl
@[simp] theorem State.uncorrected_misses (s : State) (a b : Nat) : (s.uncorrected a b).misses = s.misses := rfl
@[simp] theorem State.uncorrected_gateways (s : State) (a b : Nat) : (s.uncorrected a b).gateways = s.gateways := rfl
@[simp] theorem State.uncorrected_txns (s : State) (a b : Nat) : (s.uncorrected a b).txns = s.txns := rfl
@[simp] theorem State.uncorrected_net (s : State) (a b : Nat) : (s.uncorrected a b).net = s.net := rfl
@[simp] theorem State.uncorrected_mcast (s : State) (a b : Nat) : (s.uncorrected a b).mcast = s.mcast := rfl
@[simp] theorem State.uncorrected_mcastWait (s : State) (a b : Nat) : (s.uncorrected a b).mcastWait = s.mcastWait := rfl
@[simp] theorem State.uncorrected_monitors (s : State) (a b : Nat) : (s.uncorrected a b).monitors = s.monitors := rfl
@[simp] theorem State.uncorrected_recorder (s : State) (a b : Nat) : (s.uncorrected a b).recorder = s.recorder := rfl
@[simp] theorem State.uncorrected_changes (s : State) (a b : Nat) : (s.uncorrected a b).changes = s.changes := rfl
@[simp] theorem State.uncorrected_pushWait (s : State) (a b : Nat) : (s.uncorrected a b).pushWait = s.pushWait := rfl
@[simp] theorem State.uncorrected_codeFrames (s : State) (a b : Nat) : (s.uncorrected a b).codeFrames = s.codeFrames := rfl
@[simp] theorem State.uncorrected_gangs (s : State) (a b : Nat) : (s.uncorrected a b).gangs = s.gangs := rfl
@[simp] theorem State.uncorrected_mbx (s : State) (a b : Nat) : (s.uncorrected a b).mbx = s.mbx := rfl
@[simp] theorem State.uncorrected_ports (s : State) (a b : Nat) : (s.uncorrected a b).ports = s.ports := rfl
@[simp] theorem State.uncorrected_hostDone (s : State) (a b : Nat) : (s.uncorrected a b).hostDone = s.hostDone := rfl

@[simp] theorem State.answerMctp_now (s : State) (x : List Byte) : (s.answerMctp x).now = s.now := rfl
@[simp] theorem State.answerMctp_skew (s : State) (x : List Byte) : (s.answerMctp x).skew = s.skew := rfl
@[simp] theorem State.answerMctp_fresh (s : State) (x : List Byte) : (s.answerMctp x).fresh = s.fresh := rfl
@[simp] theorem State.answerMctp_agenda (s : State) (x : List Byte) : (s.answerMctp x).agenda = s.agenda := rfl
@[simp] theorem State.answerMctp_cur (s : State) (x : List Byte) : (s.answerMctp x).cur = s.cur := rfl
@[simp] theorem State.answerMctp_nextId (s : State) (x : List Byte) : (s.answerMctp x).nextId = s.nextId := rfl
@[simp] theorem State.answerMctp_groups (s : State) (x : List Byte) : (s.answerMctp x).groups = s.groups := rfl
@[simp] theorem State.answerMctp_blocks (s : State) (x : List Byte) : (s.answerMctp x).blocks = s.blocks := rfl
@[simp] theorem State.answerMctp_saved (s : State) (x : List Byte) : (s.answerMctp x).saved = s.saved := rfl
@[simp] theorem State.answerMctp_launches (s : State) (x : List Byte) : (s.answerMctp x).launches = s.launches := rfl
@[simp] theorem State.answerMctp_phases (s : State) (x : List Byte) : (s.answerMctp x).phases = s.phases := rfl
@[simp] theorem State.answerMctp_queues (s : State) (x : List Byte) : (s.answerMctp x).queues = s.queues := rfl
@[simp] theorem State.answerMctp_ctxs (s : State) (x : List Byte) : (s.answerMctp x).ctxs = s.ctxs := rfl
@[simp] theorem State.answerMctp_mem (s : State) (x : List Byte) : (s.answerMctp x).mem = s.mem := rfl
@[simp] theorem State.answerMctp_poison (s : State) (x : List Byte) : (s.answerMctp x).poison = s.poison := rfl
@[simp] theorem State.answerMctp_cores (s : State) (x : List Byte) : (s.answerMctp x).cores = s.cores := rfl
@[simp] theorem State.answerMctp_clusters (s : State) (x : List Byte) : (s.answerMctp x).clusters = s.clusters := rfl
@[simp] theorem State.answerMctp_dies (s : State) (x : List Byte) : (s.answerMctp x).dies = s.dies := rfl
@[simp] theorem State.answerMctp_lines (s : State) (x : List Byte) : (s.answerMctp x).lines = s.lines := rfl
@[simp] theorem State.answerMctp_misses (s : State) (x : List Byte) : (s.answerMctp x).misses = s.misses := rfl
@[simp] theorem State.answerMctp_gateways (s : State) (x : List Byte) : (s.answerMctp x).gateways = s.gateways := rfl
@[simp] theorem State.answerMctp_txns (s : State) (x : List Byte) : (s.answerMctp x).txns = s.txns := rfl
@[simp] theorem State.answerMctp_net (s : State) (x : List Byte) : (s.answerMctp x).net = s.net := rfl
@[simp] theorem State.answerMctp_mcast (s : State) (x : List Byte) : (s.answerMctp x).mcast = s.mcast := rfl
@[simp] theorem State.answerMctp_mcastWait (s : State) (x : List Byte) : (s.answerMctp x).mcastWait = s.mcastWait := rfl
@[simp] theorem State.answerMctp_monitors (s : State) (x : List Byte) : (s.answerMctp x).monitors = s.monitors := rfl
@[simp] theorem State.answerMctp_recorder (s : State) (x : List Byte) : (s.answerMctp x).recorder = s.recorder := rfl
@[simp] theorem State.answerMctp_changes (s : State) (x : List Byte) : (s.answerMctp x).changes = s.changes := rfl
@[simp] theorem State.answerMctp_pushWait (s : State) (x : List Byte) : (s.answerMctp x).pushWait = s.pushWait := rfl
@[simp] theorem State.answerMctp_codeFrames (s : State) (x : List Byte) : (s.answerMctp x).codeFrames = s.codeFrames := rfl
@[simp] theorem State.answerMctp_gangs (s : State) (x : List Byte) : (s.answerMctp x).gangs = s.gangs := rfl
@[simp] theorem State.answerMctp_mbx (s : State) (x : List Byte) : (s.answerMctp x).mbx = s.mbx := rfl
@[simp] theorem State.answerMctp_ports (s : State) (x : List Byte) : (s.answerMctp x).ports = s.ports := rfl
@[simp] theorem State.answerMctp_hostDone (s : State) (x : List Byte) : (s.answerMctp x).hostDone = s.hostDone := rfl

@[simp] theorem State.fillTile_now (s : State) (c : Nat) (x : TileReg) (bs : List Byte) : (s.fillTile c x bs).now = s.now := rfl
@[simp] theorem State.fillTile_skew (s : State) (c : Nat) (x : TileReg) (bs : List Byte) : (s.fillTile c x bs).skew = s.skew := rfl
@[simp] theorem State.fillTile_fresh (s : State) (c : Nat) (x : TileReg) (bs : List Byte) : (s.fillTile c x bs).fresh = s.fresh := rfl
@[simp] theorem State.fillTile_agenda (s : State) (c : Nat) (x : TileReg) (bs : List Byte) : (s.fillTile c x bs).agenda = s.agenda := rfl
@[simp] theorem State.fillTile_cur (s : State) (c : Nat) (x : TileReg) (bs : List Byte) : (s.fillTile c x bs).cur = s.cur := rfl
@[simp] theorem State.fillTile_nextId (s : State) (c : Nat) (x : TileReg) (bs : List Byte) : (s.fillTile c x bs).nextId = s.nextId := rfl
@[simp] theorem State.fillTile_groups (s : State) (c : Nat) (x : TileReg) (bs : List Byte) : (s.fillTile c x bs).groups = s.groups := rfl
@[simp] theorem State.fillTile_blocks (s : State) (c : Nat) (x : TileReg) (bs : List Byte) : (s.fillTile c x bs).blocks = s.blocks := rfl
@[simp] theorem State.fillTile_saved (s : State) (c : Nat) (x : TileReg) (bs : List Byte) : (s.fillTile c x bs).saved = s.saved := rfl
@[simp] theorem State.fillTile_launches (s : State) (c : Nat) (x : TileReg) (bs : List Byte) : (s.fillTile c x bs).launches = s.launches := rfl
@[simp] theorem State.fillTile_phases (s : State) (c : Nat) (x : TileReg) (bs : List Byte) : (s.fillTile c x bs).phases = s.phases := rfl
@[simp] theorem State.fillTile_queues (s : State) (c : Nat) (x : TileReg) (bs : List Byte) : (s.fillTile c x bs).queues = s.queues := rfl
@[simp] theorem State.fillTile_ctxs (s : State) (c : Nat) (x : TileReg) (bs : List Byte) : (s.fillTile c x bs).ctxs = s.ctxs := rfl
@[simp] theorem State.fillTile_poison (s : State) (c : Nat) (x : TileReg) (bs : List Byte) : (s.fillTile c x bs).poison = s.poison := rfl
@[simp] theorem State.fillTile_cores (s : State) (c : Nat) (x : TileReg) (bs : List Byte) : (s.fillTile c x bs).cores = s.cores := rfl
@[simp] theorem State.fillTile_clusters (s : State) (c : Nat) (x : TileReg) (bs : List Byte) : (s.fillTile c x bs).clusters = s.clusters := rfl
@[simp] theorem State.fillTile_dies (s : State) (c : Nat) (x : TileReg) (bs : List Byte) : (s.fillTile c x bs).dies = s.dies := rfl
@[simp] theorem State.fillTile_lines (s : State) (c : Nat) (x : TileReg) (bs : List Byte) : (s.fillTile c x bs).lines = s.lines := rfl
@[simp] theorem State.fillTile_misses (s : State) (c : Nat) (x : TileReg) (bs : List Byte) : (s.fillTile c x bs).misses = s.misses := rfl
@[simp] theorem State.fillTile_gateways (s : State) (c : Nat) (x : TileReg) (bs : List Byte) : (s.fillTile c x bs).gateways = s.gateways := rfl
@[simp] theorem State.fillTile_txns (s : State) (c : Nat) (x : TileReg) (bs : List Byte) : (s.fillTile c x bs).txns = s.txns := rfl
@[simp] theorem State.fillTile_net (s : State) (c : Nat) (x : TileReg) (bs : List Byte) : (s.fillTile c x bs).net = s.net := rfl
@[simp] theorem State.fillTile_mcast (s : State) (c : Nat) (x : TileReg) (bs : List Byte) : (s.fillTile c x bs).mcast = s.mcast := rfl
@[simp] theorem State.fillTile_mcastWait (s : State) (c : Nat) (x : TileReg) (bs : List Byte) : (s.fillTile c x bs).mcastWait = s.mcastWait := rfl
@[simp] theorem State.fillTile_monitors (s : State) (c : Nat) (x : TileReg) (bs : List Byte) : (s.fillTile c x bs).monitors = s.monitors := rfl
@[simp] theorem State.fillTile_recorder (s : State) (c : Nat) (x : TileReg) (bs : List Byte) : (s.fillTile c x bs).recorder = s.recorder := rfl
@[simp] theorem State.fillTile_changes (s : State) (c : Nat) (x : TileReg) (bs : List Byte) : (s.fillTile c x bs).changes = s.changes := rfl
@[simp] theorem State.fillTile_pushWait (s : State) (c : Nat) (x : TileReg) (bs : List Byte) : (s.fillTile c x bs).pushWait = s.pushWait := rfl
@[simp] theorem State.fillTile_codeFrames (s : State) (c : Nat) (x : TileReg) (bs : List Byte) : (s.fillTile c x bs).codeFrames = s.codeFrames := rfl
@[simp] theorem State.fillTile_gangs (s : State) (c : Nat) (x : TileReg) (bs : List Byte) : (s.fillTile c x bs).gangs = s.gangs := rfl
@[simp] theorem State.fillTile_mbx (s : State) (c : Nat) (x : TileReg) (bs : List Byte) : (s.fillTile c x bs).mbx = s.mbx := rfl
@[simp] theorem State.fillTile_fw (s : State) (c : Nat) (x : TileReg) (bs : List Byte) : (s.fillTile c x bs).fw = s.fw := rfl
@[simp] theorem State.fillTile_ports (s : State) (c : Nat) (x : TileReg) (bs : List Byte) : (s.fillTile c x bs).ports = s.ports := rfl
@[simp] theorem State.fillTile_hostDone (s : State) (c : Nat) (x : TileReg) (bs : List Byte) : (s.fillTile c x bs).hostDone = s.hostDone := rfl

@[simp] theorem State.putElem_now (s : State) (c : Nat) (x : TileReg) (i j : Nat) (w : Word64) : (s.putElem c x i j w).now = s.now := rfl
@[simp] theorem State.putElem_skew (s : State) (c : Nat) (x : TileReg) (i j : Nat) (w : Word64) : (s.putElem c x i j w).skew = s.skew := rfl
@[simp] theorem State.putElem_fresh (s : State) (c : Nat) (x : TileReg) (i j : Nat) (w : Word64) : (s.putElem c x i j w).fresh = s.fresh := rfl
@[simp] theorem State.putElem_agenda (s : State) (c : Nat) (x : TileReg) (i j : Nat) (w : Word64) : (s.putElem c x i j w).agenda = s.agenda := rfl
@[simp] theorem State.putElem_cur (s : State) (c : Nat) (x : TileReg) (i j : Nat) (w : Word64) : (s.putElem c x i j w).cur = s.cur := rfl
@[simp] theorem State.putElem_nextId (s : State) (c : Nat) (x : TileReg) (i j : Nat) (w : Word64) : (s.putElem c x i j w).nextId = s.nextId := rfl
@[simp] theorem State.putElem_groups (s : State) (c : Nat) (x : TileReg) (i j : Nat) (w : Word64) : (s.putElem c x i j w).groups = s.groups := rfl
@[simp] theorem State.putElem_blocks (s : State) (c : Nat) (x : TileReg) (i j : Nat) (w : Word64) : (s.putElem c x i j w).blocks = s.blocks := rfl
@[simp] theorem State.putElem_saved (s : State) (c : Nat) (x : TileReg) (i j : Nat) (w : Word64) : (s.putElem c x i j w).saved = s.saved := rfl
@[simp] theorem State.putElem_launches (s : State) (c : Nat) (x : TileReg) (i j : Nat) (w : Word64) : (s.putElem c x i j w).launches = s.launches := rfl
@[simp] theorem State.putElem_phases (s : State) (c : Nat) (x : TileReg) (i j : Nat) (w : Word64) : (s.putElem c x i j w).phases = s.phases := rfl
@[simp] theorem State.putElem_queues (s : State) (c : Nat) (x : TileReg) (i j : Nat) (w : Word64) : (s.putElem c x i j w).queues = s.queues := rfl
@[simp] theorem State.putElem_ctxs (s : State) (c : Nat) (x : TileReg) (i j : Nat) (w : Word64) : (s.putElem c x i j w).ctxs = s.ctxs := rfl
@[simp] theorem State.putElem_poison (s : State) (c : Nat) (x : TileReg) (i j : Nat) (w : Word64) : (s.putElem c x i j w).poison = s.poison := rfl
@[simp] theorem State.putElem_cores (s : State) (c : Nat) (x : TileReg) (i j : Nat) (w : Word64) : (s.putElem c x i j w).cores = s.cores := rfl
@[simp] theorem State.putElem_clusters (s : State) (c : Nat) (x : TileReg) (i j : Nat) (w : Word64) : (s.putElem c x i j w).clusters = s.clusters := rfl
@[simp] theorem State.putElem_dies (s : State) (c : Nat) (x : TileReg) (i j : Nat) (w : Word64) : (s.putElem c x i j w).dies = s.dies := rfl
@[simp] theorem State.putElem_lines (s : State) (c : Nat) (x : TileReg) (i j : Nat) (w : Word64) : (s.putElem c x i j w).lines = s.lines := rfl
@[simp] theorem State.putElem_misses (s : State) (c : Nat) (x : TileReg) (i j : Nat) (w : Word64) : (s.putElem c x i j w).misses = s.misses := rfl
@[simp] theorem State.putElem_gateways (s : State) (c : Nat) (x : TileReg) (i j : Nat) (w : Word64) : (s.putElem c x i j w).gateways = s.gateways := rfl
@[simp] theorem State.putElem_txns (s : State) (c : Nat) (x : TileReg) (i j : Nat) (w : Word64) : (s.putElem c x i j w).txns = s.txns := rfl
@[simp] theorem State.putElem_net (s : State) (c : Nat) (x : TileReg) (i j : Nat) (w : Word64) : (s.putElem c x i j w).net = s.net := rfl
@[simp] theorem State.putElem_mcast (s : State) (c : Nat) (x : TileReg) (i j : Nat) (w : Word64) : (s.putElem c x i j w).mcast = s.mcast := rfl
@[simp] theorem State.putElem_mcastWait (s : State) (c : Nat) (x : TileReg) (i j : Nat) (w : Word64) : (s.putElem c x i j w).mcastWait = s.mcastWait := rfl
@[simp] theorem State.putElem_monitors (s : State) (c : Nat) (x : TileReg) (i j : Nat) (w : Word64) : (s.putElem c x i j w).monitors = s.monitors := rfl
@[simp] theorem State.putElem_recorder (s : State) (c : Nat) (x : TileReg) (i j : Nat) (w : Word64) : (s.putElem c x i j w).recorder = s.recorder := rfl
@[simp] theorem State.putElem_changes (s : State) (c : Nat) (x : TileReg) (i j : Nat) (w : Word64) : (s.putElem c x i j w).changes = s.changes := rfl
@[simp] theorem State.putElem_pushWait (s : State) (c : Nat) (x : TileReg) (i j : Nat) (w : Word64) : (s.putElem c x i j w).pushWait = s.pushWait := rfl
@[simp] theorem State.putElem_codeFrames (s : State) (c : Nat) (x : TileReg) (i j : Nat) (w : Word64) : (s.putElem c x i j w).codeFrames = s.codeFrames := rfl
@[simp] theorem State.putElem_gangs (s : State) (c : Nat) (x : TileReg) (i j : Nat) (w : Word64) : (s.putElem c x i j w).gangs = s.gangs := rfl
@[simp] theorem State.putElem_mbx (s : State) (c : Nat) (x : TileReg) (i j : Nat) (w : Word64) : (s.putElem c x i j w).mbx = s.mbx := rfl
@[simp] theorem State.putElem_fw (s : State) (c : Nat) (x : TileReg) (i j : Nat) (w : Word64) : (s.putElem c x i j w).fw = s.fw := rfl
@[simp] theorem State.putElem_ports (s : State) (c : Nat) (x : TileReg) (i j : Nat) (w : Word64) : (s.putElem c x i j w).ports = s.ports := rfl
@[simp] theorem State.putElem_hostDone (s : State) (c : Nat) (x : TileReg) (i j : Nat) (w : Word64) : (s.putElem c x i j w).hostDone = s.hostDone := rfl

@[simp] theorem State.begun_now (s : State) (k : Cur) (g : Group) : (s.begun k g).now = s.now := rfl
@[simp] theorem State.begun_skew (s : State) (k : Cur) (g : Group) : (s.begun k g).skew = s.skew := rfl
@[simp] theorem State.begun_agenda (s : State) (k : Cur) (g : Group) : (s.begun k g).agenda = s.agenda := rfl
@[simp] theorem State.begun_nextId (s : State) (k : Cur) (g : Group) : (s.begun k g).nextId = s.nextId := rfl
@[simp] theorem State.begun_blocks (s : State) (k : Cur) (g : Group) : (s.begun k g).blocks = s.blocks := rfl
@[simp] theorem State.begun_saved (s : State) (k : Cur) (g : Group) : (s.begun k g).saved = s.saved := rfl
@[simp] theorem State.begun_launches (s : State) (k : Cur) (g : Group) : (s.begun k g).launches = s.launches := rfl
@[simp] theorem State.begun_phases (s : State) (k : Cur) (g : Group) : (s.begun k g).phases = s.phases := rfl
@[simp] theorem State.begun_queues (s : State) (k : Cur) (g : Group) : (s.begun k g).queues = s.queues := rfl
@[simp] theorem State.begun_mem (s : State) (k : Cur) (g : Group) : (s.begun k g).mem = s.mem := rfl
@[simp] theorem State.begun_poison (s : State) (k : Cur) (g : Group) : (s.begun k g).poison = s.poison := rfl
@[simp] theorem State.begun_cores (s : State) (k : Cur) (g : Group) : (s.begun k g).cores = s.cores := rfl
@[simp] theorem State.begun_clusters (s : State) (k : Cur) (g : Group) : (s.begun k g).clusters = s.clusters := rfl
@[simp] theorem State.begun_dies (s : State) (k : Cur) (g : Group) : (s.begun k g).dies = s.dies := rfl
@[simp] theorem State.begun_lines (s : State) (k : Cur) (g : Group) : (s.begun k g).lines = s.lines := rfl
@[simp] theorem State.begun_misses (s : State) (k : Cur) (g : Group) : (s.begun k g).misses = s.misses := rfl
@[simp] theorem State.begun_gateways (s : State) (k : Cur) (g : Group) : (s.begun k g).gateways = s.gateways := rfl
@[simp] theorem State.begun_txns (s : State) (k : Cur) (g : Group) : (s.begun k g).txns = s.txns := rfl
@[simp] theorem State.begun_net (s : State) (k : Cur) (g : Group) : (s.begun k g).net = s.net := rfl
@[simp] theorem State.begun_mcast (s : State) (k : Cur) (g : Group) : (s.begun k g).mcast = s.mcast := rfl
@[simp] theorem State.begun_mcastWait (s : State) (k : Cur) (g : Group) : (s.begun k g).mcastWait = s.mcastWait := rfl
@[simp] theorem State.begun_monitors (s : State) (k : Cur) (g : Group) : (s.begun k g).monitors = s.monitors := rfl
@[simp] theorem State.begun_recorder (s : State) (k : Cur) (g : Group) : (s.begun k g).recorder = s.recorder := rfl
@[simp] theorem State.begun_changes (s : State) (k : Cur) (g : Group) : (s.begun k g).changes = s.changes := rfl
@[simp] theorem State.begun_pushWait (s : State) (k : Cur) (g : Group) : (s.begun k g).pushWait = s.pushWait := rfl
@[simp] theorem State.begun_codeFrames (s : State) (k : Cur) (g : Group) : (s.begun k g).codeFrames = s.codeFrames := rfl
@[simp] theorem State.begun_gangs (s : State) (k : Cur) (g : Group) : (s.begun k g).gangs = s.gangs := rfl
@[simp] theorem State.begun_mbx (s : State) (k : Cur) (g : Group) : (s.begun k g).mbx = s.mbx := rfl
@[simp] theorem State.begun_fw (s : State) (k : Cur) (g : Group) : (s.begun k g).fw = s.fw := rfl
@[simp] theorem State.begun_ports (s : State) (k : Cur) (g : Group) : (s.begun k g).ports = s.ports := rfl
@[simp] theorem State.begun_hostDone (s : State) (k : Cur) (g : Group) : (s.begun k g).hostDone = s.hostDone := rfl

@[simp] theorem State.tickWatchdogs_now (s : State) : (s.tickWatchdogs).now = s.now := rfl
@[simp] theorem State.tickWatchdogs_skew (s : State) : (s.tickWatchdogs).skew = s.skew := rfl
@[simp] theorem State.tickWatchdogs_fresh (s : State) : (s.tickWatchdogs).fresh = s.fresh := rfl
@[simp] theorem State.tickWatchdogs_agenda (s : State) : (s.tickWatchdogs).agenda = s.agenda := rfl
@[simp] theorem State.tickWatchdogs_cur (s : State) : (s.tickWatchdogs).cur = s.cur := rfl
@[simp] theorem State.tickWatchdogs_nextId (s : State) : (s.tickWatchdogs).nextId = s.nextId := rfl
@[simp] theorem State.tickWatchdogs_groups (s : State) : (s.tickWatchdogs).groups = s.groups := rfl
@[simp] theorem State.tickWatchdogs_blocks (s : State) : (s.tickWatchdogs).blocks = s.blocks := rfl
@[simp] theorem State.tickWatchdogs_saved (s : State) : (s.tickWatchdogs).saved = s.saved := rfl
@[simp] theorem State.tickWatchdogs_launches (s : State) : (s.tickWatchdogs).launches = s.launches := rfl
@[simp] theorem State.tickWatchdogs_phases (s : State) : (s.tickWatchdogs).phases = s.phases := rfl
@[simp] theorem State.tickWatchdogs_queues (s : State) : (s.tickWatchdogs).queues = s.queues := rfl
@[simp] theorem State.tickWatchdogs_mem (s : State) : (s.tickWatchdogs).mem = s.mem := rfl
@[simp] theorem State.tickWatchdogs_poison (s : State) : (s.tickWatchdogs).poison = s.poison := rfl
@[simp] theorem State.tickWatchdogs_cores (s : State) : (s.tickWatchdogs).cores = s.cores := rfl
@[simp] theorem State.tickWatchdogs_clusters (s : State) : (s.tickWatchdogs).clusters = s.clusters := rfl
@[simp] theorem State.tickWatchdogs_dies (s : State) : (s.tickWatchdogs).dies = s.dies := rfl
@[simp] theorem State.tickWatchdogs_lines (s : State) : (s.tickWatchdogs).lines = s.lines := rfl
@[simp] theorem State.tickWatchdogs_misses (s : State) : (s.tickWatchdogs).misses = s.misses := rfl
@[simp] theorem State.tickWatchdogs_gateways (s : State) : (s.tickWatchdogs).gateways = s.gateways := rfl
@[simp] theorem State.tickWatchdogs_txns (s : State) : (s.tickWatchdogs).txns = s.txns := rfl
@[simp] theorem State.tickWatchdogs_net (s : State) : (s.tickWatchdogs).net = s.net := rfl
@[simp] theorem State.tickWatchdogs_mcast (s : State) : (s.tickWatchdogs).mcast = s.mcast := rfl
@[simp] theorem State.tickWatchdogs_mcastWait (s : State) : (s.tickWatchdogs).mcastWait = s.mcastWait := rfl
@[simp] theorem State.tickWatchdogs_monitors (s : State) : (s.tickWatchdogs).monitors = s.monitors := rfl
@[simp] theorem State.tickWatchdogs_recorder (s : State) : (s.tickWatchdogs).recorder = s.recorder := rfl
@[simp] theorem State.tickWatchdogs_changes (s : State) : (s.tickWatchdogs).changes = s.changes := rfl
@[simp] theorem State.tickWatchdogs_pushWait (s : State) : (s.tickWatchdogs).pushWait = s.pushWait := rfl
@[simp] theorem State.tickWatchdogs_codeFrames (s : State) : (s.tickWatchdogs).codeFrames = s.codeFrames := rfl
@[simp] theorem State.tickWatchdogs_gangs (s : State) : (s.tickWatchdogs).gangs = s.gangs := rfl
@[simp] theorem State.tickWatchdogs_mbx (s : State) : (s.tickWatchdogs).mbx = s.mbx := rfl
@[simp] theorem State.tickWatchdogs_fw (s : State) : (s.tickWatchdogs).fw = s.fw := rfl
@[simp] theorem State.tickWatchdogs_ports (s : State) : (s.tickWatchdogs).ports = s.ports := rfl
@[simp] theorem State.tickWatchdogs_hostDone (s : State) : (s.tickWatchdogs).hostDone = s.hostDone := rfl

end Sys2Proof.Machine
end

