-- ==== Sys2Proof/Tests/Slice0.lean ====
section
/-! SUPPORT. The model's own tests: ill-formed terms are refused, words of the spec decode, results of the spec's examples, and
for every statement states that meet its hypotheses. Expected values are the spec's or worked out by hand from its rules. -/

namespace Sys2Proof.Tests

set_option maxRecDepth 100000
set_option Elab.async false

open Sys2Proof Sys2Proof.Machine

/-! ## Small states -/

/-- No guard, default scheduling. -/
def c0 : Ctl := ⟨15, false, 0, false, .one, 0#4, false, 0#3⟩
/-- Thread 0 of the group issues at address 0. -/
def kk : Cur := ⟨plainRef, 0#64, 1#32⟩
def g0 : Group := Group.launched 0 0 0 0 128 0#64 0
/-- The seated block with its group as `g`, and whatever `f` sets. -/
def at_ (g : Group) (f : State → State) : State :=
  { f State.reset.seat with groups := [(plainRef, g)], cur := some kk }
def iss (g : Group) (f : State → State) : Iss := issueOf (at_ g f) c0 kk g

/-- A group without holds and without a page is taken as it is. -/
theorem taken_plain (g : Group) (k : Cur) (hh : g.holds.isEmpty = true) (hp : g.parked = none) : g = g.taken k := by
  cases g
  simp_all [Group.taken]

/-- A state in which such a group issues. -/
theorem issues_plain (s : State) (k : Cur) (g : Group) (hc : s.cur = some k) (hg : s.group k.g = some g) (hh : g.holds.isEmpty = true)
    (hs : splitSets g k.mask (activeOf g c0 k.mask) = 0#32) (hp : g.parked = none := by rfl) : Issues s c0 k g :=
  have h0 : g.holds = [] := by simpa using hh
  ⟨hc, ⟨g, hg, taken_plain g k hh hp⟩, by simp [h0], hs⟩

theorem at_issues (g : Group) (f : State → State) (hh : g.holds.isEmpty = true)
    (hs : splitSets g kk.mask (activeOf g c0 kk.mask) = 0#32) (hp : g.parked = none := by rfl) : Issues (at_ g f) c0 kk g :=
  issues_plain _ kk g rfl (by simp [at_, State.group, tblGet, kk]) hh hs hp

/-- The hypotheses of a statement of the shape Runs, met at a state. -/
def Meets (i : Instr) (g : Group) (f : State → State) (pre : Iss → Prop) : Prop :=
  i.wellFormed = true ∧ Issues (at_ g f) c0 kk g ∧ pre (iss g f)

theorem meets (i : Instr) (g : Group) (f : State → State) (pre : Iss → Prop) [Decidable (pre (iss g f))]
    (h : (i.wellFormed && g.holds.isEmpty && g.parked.isNone && (splitSets g kk.mask (activeOf g c0 kk.mask) == 0#32) &&
      decide (pre (iss g f))) = true) :
    Meets i g f pre := by
  simp only [Bool.and_eq_true, beq_iff_eq, decide_eq_true_eq, Option.isNone_iff_eq_none] at h
  exact ⟨h.1.1.1.1, at_issues g f h.1.1.1.2 h.1.2 h.1.1.2, h.2⟩

/-- Thread 0 changed; a vector register and a uniform register set. -/
def th0 (f : Thread → Thread) (g : Group) : Group := g.modThread 0 f
def vr (n : VReg) (x : Word32) (g : Group) : Group := th0 (fun t => { t with v := t.v.set n x }) g
def sr (n : SReg) (x : Word64) (g : Group) : Group := { g with s := g.s.set n x }

/-- What an instruction leaves, seen by `look`; none where it does not go on. -/
def after {α : Type} (i : Instr) (s : State) (look : State → α) : Option α :=
  match exec i s with
  | .next t => some (look t)
  | _ => none
/-- A register of the group, afterwards. -/
def regAfter (i : Instr) (g : Group) (r : RegRef) : Option Word64 :=
  (after i (at_ g id) (fun t => (t.group plainRef).map (fun g => g.reg r))).join

/-! ## Terms that are no instruction: one for each check -/

def c4 : Ctl := { c0 with reuse := 4#3 }
def c1 : Ctl := { c0 with reuse := 1#3 }

theorem test_refuses_control :
    [Instr.nop c4, .nop { c0 with p2 := 3 }, .brx c1 (.s 0), .brx c0 (.v 3), .callx c0 .zero (.v 1), .ret c4 none, .sleep c4 .zero (.imm 5#16),
      .wake c4 .grp .amask, .syswr c0 .leaseDef (.s 0), .syswr c0 .trapCause (.s 0), .syswr c4 .trapBase .zero, .vote c0 .all (.v 0) 0,
      .vote c0 .ballot (.p 0) 0, .vote c0 .ballot (.s 0) 0, .shfl c0 .s32 .idx (.v 0) (.v 1) (.v 2) none,
      .gred c0 .b32 .add (.v 0) (.v 1), .gred c0 .f32 .and (.v 0) (.v 1), .gscan c0 .s64 .add false (.v 1) (.v 2)].all
      (fun i => !i.wellFormed) = true := by decide

theorem test_refuses_arithmetic :
    [Instr.mov c0 .s32 (.v 0) (.v 1), .mov c0 .b128 (.v 4) (.v 2), .mov c0 .b128 (.s 1) (.s 2), .movi c0 .b128 (.v 0) 1#34,
      .iadd c0 .s8 (.v 3) (.v 1) (.s 5), .iadd c0 .s64 (.v 3) (.v 2) (.s 5), .iadd c0 .s32 (.s 3) (.v 1) (.s 5),
      .iadd c0 .s32 (.s 3) (.sp .tid) (.s 5), .iadd { c0 with reuse := 2#3 } .s32 (.v 3) (.v 1) (.sp .zero), .imad c0 .b32 (.v 0) (.v 1) (.v 2) (.v 3),
      .imadw c0 .s64 (.v 0) (.v 1) (.v 2) (.v 4), .imadw c0 .s32 (.v 1) (.v 1) (.v 2) (.v 4), .iabs c0 .n32 (.v 0) (.v 1),
      .not c0 .s32 (.v 0) (.v 1), .and c0 .n32 (.v 0) (.v 1) (.v 2), .sar c0 .b32 (.v 0) (.v 1) (.v 2),
      .bfi c0 .s32 (.v 0) (.v 1) (.v 2) (.v 3) (.v 4), .iset c0 .b32 .lt (.p 0) (.v 1) (.v 2), .iset c0 .s32 .lt (.s 0) (.v 1) (.s 2),
      .sel c0 .s32 (.v 0) (.v 1) (.v 2) (.p 0), .sel c0 .b32 (.s 0) (.s 1) (.s 2) (.p 0), .lea c0 false 0#3 (.v 1) (.s 0) (.s 1),
      .idiv c0 .b32 false (.v 0) (.v 1) (.v 2), .pset c4 .and 0 1 2].all (fun i => !i.wellFormed) = true := by decide

theorem test_refuses_limb_and_float :
    [Instr.lbind c4 .k2, .ladc { c0 with reuse := 2#3 } .zero 0 .zero none none, .lshl c1 .zero 0 (.v 1) none,
      .lmulw c0 .zero 0 (.s 1) .zero 1#5, .lmac c0 .zero 0 (.s 1) .zero .zero 1#5, .lcmp c1 .lt 0 0 .zero,
      .fadd c0 .s32 .rne (.v 2) (.v 2) (.v 0), .ffma c0 .l6 .rne (.v 2) (.v 2) (.v 0) (.v 1), .fdot2 c0 .f32 .rne (.v 0) (.v 1) (.v 2) (.v 3),
      .fabs c0 .l6 (.v 0) (.v 1), .fset c0 .n32 .lt false (.p 0) (.v 1) (.v 2), .fclass c0 .f32 (.p 0) (.v 1) 0#9,
      .fclass c0 .f32 (.v 0) (.v 1) 1#9, .frcp c0 .rne (.s 0) (.v 1), .fcvt c0 .l6 .l6 .rne (.v 0) (.v 1) (.sp .zero),
      .fcvt c0 .f32 .s32 .rne (.v 0) (.v 1) (.v 2), .fcvt c0 .b32 .f32 .rne (.v 0) (.v 1) (.sp .zero),
      .chld c0 0 1 2 (.imm 0#9), .chld c0 0 1 2 (.imm 257#9), .chst c1 0 0, .cheval c0 (.s 5) 2 (.s 4) (some 1),
      .cheval c0 (.s 5) 2 (.v 4) none, .chtrunc c0 0 1 (.imm 257#9), .chtrunc c4 0 1 (.imm 4#9)].all
      (fun i => !i.wellFormed) = true := by decide

theorem test_refuses_memory :
    let m : Addr := ⟨.s 4, .none, 0#25⟩
    [Instr.ldg c0 .default .f32 (.v 0) m, .ldg c0 .default .b64 (.v 1) m, .ldg c0 .default .b32 (.v 0) ⟨.v 1, .none, 0#25⟩,
      .ldg c0 .default .b32 (.s 0) ⟨.s 4, .v 1, 0#25⟩, .ldx c0 .default .b16 (.v 0) m, .ldw c1 .default .b32 (.v 0) m,
      .stg c0 .default .s8 m (.v 0), .stg c0 .default .b128 m (.sp .zero), .stx { c0 with reuse := 2#3 } .default .b32 m (.v 0),
      .pref c0 .default ⟨.v 1, .none, 0#25⟩, .linv c0 .default ⟨.v 1, .none, 0#25⟩, .cst c0 .default .b128 (.v 0) 2 (.v 4),
      .cst c0 .default .b32 (.s 0) 2 (.v 4), .mcld c1 .default 0 1 2 0#25 none,
      .atom c0 .f32 .and false .relaxed (.v 2) (.s 4) (.v 1) (.v 3), .atom c0 .b32 .add false .relaxed (.v 2) (.s 4) (.v 1) (.v 3),
      .acas c0 .s32 false .relaxed (.v 2) (.s 4) .none (.v 3) (.v 4), .red c0 .b32 .exch false .relaxed (.s 4) .none (.v 3),
      .signal { c0 with reuse := 2#3 } .set 0 (.s 1), .cpy c0 .out .zero 0 1 2 (some 0), .cpyt c0 .b32 .zero 0 1 2 none, .cpyt c0 .f32 .zero 0 1 3 none,
      .cpyw c0 .f32 .zero 0 1 3 none, .cpywPut c0 .zero 0 1 3, .cpys c0 .f32 .n32 .rne .zero 0 1 2, .cpyq c4 0 .zero, .cpyx c4 .zero].all
      (fun i => !i.wellFormed) = true := by decide

theorem test_refuses_the_rest :
    [Instr.bari c0 0 (.imm 0#12), .bari c0 0 (.imm 2049#12), .bart c0 (.v 0) 0 (.imm 0#1), .tshp c0 .b64 0 1 2, .mloop c0 ⟨0, 0, 0#6⟩ 0 1 2 3 4,
      .mloop c0 ⟨0, 0, 0#6⟩ 0 1 2 2 5, .twait c0 0#8, .tdrain c0 .wr .mem 0 0 0 0 1 (some 0), .tcvt c0 .b32 0 .rne 0 1, .mwait c0 .zero (.imm 0#16) none,
      .mnote c0 (.imm 0#16), .mnotea c4 (.imm 1#16), .clrd c0 (.s 0) ⟨.v 0, .none, 0#25⟩, .clrd c0 (.v 0) ⟨.v 1, .none, 0#25⟩,
      .recon c1 .zero 0#4 1 2, .recq c0 .zero 0#4 6#3, .qpush c1 .zero 0 (.s 1), .qpop c1 false .zero 0 (.s 1), .qstat c1 (.v 0) 0 true,
      .launch c0 .zero 0 (.v 1)].all (fun i => !i.wellFormed) = true := by decide

/-! ## Words of the spec -/

theorem test_decode_control :
    decode 0x0C0F00F0783C1E0F00000005#96 = .ok (.trap c0 5#8) ∧
    decode 0x0D0F00F0783C1E0F00000000#96 = .ok (.tret c0) ∧
    decode 0x060F00F0027C1E0F00000000#96 = .ok (.ret c0 (some 9)) ∧
    decode 0x040F0004F83C000000000008#96 = .ok (.call c0 (.v 9) 8#34) ∧
    decode 0x0F0F0045783C1E0F00000060#96 = .ok (.sysrd c0 (.s 10) .cntLocal) ∧
    decode 0x010F00F0783C1E0F00000000#96 = .ok (.nop c0) := by decide +kernel

theorem test_decode_arithmetic :
    decode 0x220200018050BE0F00140000#96 = .ok (.iadd { c4 with p1 := 2, stall := 1#4 } .s32 (.v 3) (.v 1) (.s 5)) ∧
    decode 0x383F00A02110FE0F00000002#96 = .ok (.iset c0 .n64 .lt (.p 0) (.s 4) (.s 7)) ∧
    decode 0x50DF000100801E0F00000000#96 = .ok (.fadd c0 .f32 .rne (.v 2) (.v 2) (.v 0)) ∧
    decode 0x790F0002DC809E0A08000000#96 = .ok (.cheval c0 (.v 5) 2 (.v 4) (some 1)) := by decide +kernel

theorem test_decode_memory :
    decode 0x808F000021003E0000000000#96 = .ok (.ldg c0 .default .b32 (.v 0) ⟨.s 4, .v 1, 0#25⟩) ∧
    decode 0x828F004425FC1E0000000000#96 = .ok (.ldx c0 .default .b32 (.s 8) ⟨.s 23, .none, 0#25⟩) ∧
    decode 0x871F00F0783C1E0F00000003#96 = .ok (.fence c0 .default .rel .dev) ∧
    decode 0x890F004420505E0000000000#96 = .ok (.mcld c0 .default 8 1 2 0#25 none) ∧
    decode 0x901F00012100203F00000000#96 = .ok (.atom c0 .n32 .add false .relaxed (.v 2) (.s 4) (.v 1) (.v 3)) ∧
    decode 0x99CF0043A09088AC10000000#96 = .ok (.cpyt c0 .l6 (.s 7) 2 4 10 (some 2)) := by decide +kernel

theorem test_decode_units :
    decode 0xA20F00F0603C1E0F00000000#96 = .ok (.barw c0 0 (.imm 0#1)) ∧
    decode 0xA30F00F060FC1E0F00000000#96 = .ok (.baraw c0 3) ∧
    decode 0xB50F00A9542A284430000000#96 = .ok (.mloop c0 ⟨0, 0, 0#6⟩ 2 0 1 4 6) ∧
    decode 0xC00F00A178119E0F00000001#96 = .ok (.mwait c0 (.p 2) (.imm 1#16) (some 12)) ∧
    decode 0xC80F0044A0509E0F00000000#96 = .ok (.recon c0 (.s 9) 0#4 1 4) ∧
    decode 0xD00F00A0A100DE0F00000000#96 = .ok (.qpush c0 (.p 1) 4 (.v 6)) := by decide +kernel

/-! ## Arithmetic: the hypotheses of IntegerResults to MinimumAndMaximum are that a well-formed instruction issues -/

/-- v1 = 7, v2 = −3, v4:v5 a pair, s1, s2. -/
def ga : Group := (sr 1 0x10#64 (sr 2 3#64 (vr 5 0x80000000#32 (vr 4 1#32 (vr 2 0xFFFFFFFD#32 (vr 1 7#32 g0))))))

theorem test_issue_meets : Issues (at_ ga id) c0 kk ga := at_issues ga id rfl (by decide +kernel)

theorem test_integer_terms_meet :
    [Instr.iadd c0 .s32 (.v 3) (.v 1) (.v 2), .isub c0 .n64 (.v 6) (.v 4) (.sp .zero), .imul c0 .s32 (.v 3) (.v 1) (.v 2),
      .imulh c0 .n32 (.v 3) (.v 1) (.v 2), .imad c0 .s32 (.v 3) (.v 1) (.v 2) (.s 1), .imadw c0 .s32 (.v 6) (.v 1) (.v 2) (.v 4),
      .imin c0 .s32 (.v 3) (.v 1) (.v 2), .imax c0 .n32 (.v 3) (.v 1) (.v 2), .iabs c0 .s32 (.v 3) (.v 2), .and c0 .b32 (.v 3) (.v 1) (.v 2),
      .or c0 .b64 (.s 3) (.s 1) (.s 2), .xor c0 .b32 (.v 3) (.v 1) (.v 2), .not c0 .b32 (.v 3) (.v 1), .shl c0 .b32 (.v 3) (.v 1) (.s 2),
      .shr c0 .b64 (.v 6) (.v 4) (.s 2), .sar c0 .s32 (.v 3) (.v 2) (.s 2), .rot c0 .b32 (.v 3) (.v 1) (.s 2), .bfx c0 .s32 (.v 3) (.v 1) (.s 2) (.s 1),
      .bfi c0 .b32 (.v 3) (.v 1) (.v 2) (.s 2) (.s 1), .popc c0 .b64 (.v 6) (.v 4), .clz c0 .b32 (.v 3) (.v 1), .brev c0 .b32 (.v 3) (.v 1),
      .mov c0 .b32 (.v 3) (.v 1), .mov c0 .b128 (.v 8) (.v 4), .movi c0 .b32 (.v 3) 5#34, .iset c0 .s32 .lt (.p 1) (.v 1) (.v 2),
      .sel c0 .b32 (.v 3) (.v 1) (.v 2) (.p 1), .lea c0 false 2#3 (.v 6) (.s 1) (.v 1), .idiv c0 .s32 false (.v 3) (.v 1) (.v 2),
      .idiv c0 .n32 true (.v 3) (.v 1) (.v 2), .pset c0 .and 1 2 3, .nop c0].all Instr.wellFormed = true := by decide

theorem test_cross_and_float_terms_meet :
    [Instr.vote c0 .all (.p 1) 2, .vote c0 .any (.p 1) 2, .vote c0 .eq (.p 1) 2, .vote c0 .ballot (.v 3) 2, .shfl c0 .b32 .up (.v 3) (.v 1) (.s 2) (some 1),
      .gred c0 .s32 .add (.v 3) (.v 1), .gscan c0 .f32 .max false (.v 3) (.v 1), .gscan c0 .s32 .add true (.v 3) (.v 1),
      .fadd c0 .f32 .rne (.v 3) (.v 1) (.v 2), .fsub c0 .f16 .rz (.v 3) (.v 1) (.v 2), .fmul c0 .bf16 .rup (.v 3) (.v 1) (.v 2),
      .ffma c0 .f32 .rne (.v 3) (.v 1) (.v 2) (.s 1), .fmin c0 .f16 (.v 3) (.v 1) (.v 2), .fmax c0 .f32 (.v 3) (.v 1) (.v 2), .fabs c0 .f32 (.v 3) (.v 1),
      .fneg c0 .bf16 (.s 3) (.s 1), .fset c0 .f32 .lt true (.p 1) (.v 1) (.v 2), .fclass c0 .f32 (.p 1) (.v 1) 3#9, .frcp c0 .rne (.v 3) (.v 1),
      .frsq c0 (.v 3) (.v 1), .fsqrt c0 .rne (.v 3) (.v 1), .fexp2 c0 (.v 3) (.v 1), .flog2 c0 (.v 3) (.v 1), .fsin c0 (.v 3) (.v 1), .fcos c0 (.v 3) (.v 1),
      .fcvt c0 .n16 .f32 .rz (.v 3) (.v 1) (.sp .zero), .frnd c0 .f32 .rup (.v 3) (.v 1), .fscale c0 .f32 .rne (.v 3) (.v 1) (.s 2),
      .fdot2 c0 .f16 .rne (.v 3) (.v 1) (.v 2) (.s 1)].all Instr.wellFormed = true := by decide

/-- By hand from R239: a wrap, a sign, the high half, the count at the width. -/
theorem test_integer_results :
    regAfter (.iadd c0 .s32 (.v 3) (.v 1) (.v 2)) ga (.v 0 3) = some 4#64 ∧
    regAfter (.isub c0 .n32 (.v 3) (.sp .zero) (.v 1)) ga (.v 0 3) = some 0xFFFFFFF9#64 ∧
    regAfter (.imul c0 .s32 (.v 3) (.v 1) (.v 2)) ga (.v 0 3) = some 0xFFFFFFEB#64 ∧
    regAfter (.imulh c0 .n32 (.v 3) (.v 1) (.v 2)) ga (.v 0 3) = some 6#64 ∧
    regAfter (.imad c0 .s32 (.v 2) (.v 1) (.v 2) (.s 1)) ga (.v 0 2) = some 0xFFFFFFFB#64 ∧
    regAfter (.imadw c0 .s32 (.v 6) (.v 1) (.v 2) (.v 4)) ga (.v 0 7) = some 0x7FFFFFFF#64 ∧
    regAfter (.imin c0 .s32 (.v 3) (.v 1) (.v 2)) ga (.v 0 3) = some 0xFFFFFFFD#64 ∧
    regAfter (.imax c0 .n32 (.v 3) (.v 1) (.v 2)) ga (.v 0 3) = some 0xFFFFFFFD#64 ∧
    regAfter (.iabs c0 .s32 (.v 3) (.v 2)) ga (.v 0 3) = some 3#64 ∧
    regAfter (.idiv c0 .s32 false (.v 3) (.v 2) (.sp .zero)) ga (.v 0 3) = some 0x80000000#64 ∧
    regAfter (.idiv c0 .s32 true (.v 3) (.v 2) (.s 2)) ga (.v 0 3) = some 0#64 ∧
    regAfter (.lea c0 false 2#3 (.v 6) (.s 1) (.v 2)) ga (.v 0 6) = some 4#64 := by decide +kernel

theorem test_bit_results :
    regAfter (.shl c0 .b32 (.v 3) (.v 1) (.s 1)) ga (.v 0 3) = some 0x70000#64 ∧
    regAfter (.shr c0 .b64 (.v 6) (.v 4) (.s 2)) ga (.v 0 7) = some 0x10000000#64 ∧
    regAfter (.sar c0 .s32 (.v 3) (.v 2) (.v 2)) ga (.v 0 3) = some 0xFFFFFFFF#64 ∧
    regAfter (.rot c0 .b32 (.v 3) (.v 5) (.s 2)) ga (.v 0 3) = some 4#64 ∧
    regAfter (.bfx c0 .s32 (.v 3) (.v 1) (.sp .zero) (.s 2)) ga (.v 0 3) = some 0xFFFFFFFF#64 ∧
    regAfter (.bfi c0 .b32 (.v 3) (.v 1) (.sp .zero) (.s 1) (.s 2)) ga (.v 0 3) = some 0x70000#64 ∧
    regAfter (.popc c0 .b64 (.v 6) (.v 4)) ga (.v 0 6) = some 2#64 ∧
    regAfter (.clz c0 .b32 (.v 3) (.v 1)) ga (.v 0 3) = some 29#64 ∧
    regAfter (.brev c0 .b32 (.v 3) (.v 1)) ga (.v 0 3) = some 0xE0000000#64 ∧
    regAfter (.iset c0 .s32 .lt (.p 1) (.v 2) (.v 1)) ga (.p 0 1) = some 1#64 ∧
    regAfter (.iset c0 .n32 .lt (.p 1) (.v 2) (.v 1)) ga (.p 0 1) = some 0#64 ∧
    regAfter (.movi c0 .b64 (.s 3) 0x3FFFFFFFF#34) ga (.s 3) = some 0xFFFFFFFFFFFFFFFF#64 ∧
    regAfter (.mov c0 .b32 (.v 3) (.v 1)) ga (.v 1 3) = some 0#64 := by decide +kernel

/-- FRND.f32 of −0.25 gives −0 (R265); 2^64 − 1 to FP16 gives infinity, and 65,504 with .rz (R201); FNEG of a NaN is the canonical NaN (R264). -/
theorem test_float_results :
    regAfter (.frnd c0 .f32 .rne (.v 3) (.v 1)) (vr 1 0xBE800000#32 g0) (.v 0 3) = some 0x80000000#64 ∧
    regAfter (.fcvt c0 .f16 .n64 .rne (.v 3) (.v 4) (.sp .zero)) (vr 4 0xFFFFFFFF#32 (vr 5 0xFFFFFFFF#32 g0)) (.v 0 3) = some 0x7C00#64 ∧
    regAfter (.fcvt c0 .f16 .n64 .rz (.v 3) (.v 4) (.sp .zero)) (vr 4 0xFFFFFFFF#32 (vr 5 0xFFFFFFFF#32 g0)) (.v 0 3) = some 0x7BFF#64 ∧
    regAfter (.fneg c0 .f32 (.v 3) (.v 1)) (vr 1 0x7F800001#32 g0) (.v 0 3) = some 0x7FC00000#64 ∧
    regAfter (.fmin c0 .f32 (.v 3) (.v 1) (.v 2)) (vr 2 0x80000000#32 g0) (.v 0 3) = some 0x80000000#64 ∧
    regAfter (.fmax c0 .f32 (.v 3) (.v 1) (.v 2)) (vr 1 0x7FC00000#32 (vr 2 0xBF800000#32 g0)) (.v 0 3) = some 0xBF800000#64 ∧
    regAfter (.fadd c0 .f32 .rne (.v 3) (.v 1) (.v 1)) (vr 1 0x3F800000#32 g0) (.v 0 3) = some 0x40000000#64 ∧
    regAfter (.frcp c0 .rne (.v 3) (.v 1)) (vr 1 0x40000000#32 g0) (.v 0 3) = some 0x3F000000#64 ∧
    regAfter (.fsqrt c0 .rne (.v 3) (.v 1)) (vr 1 0x40800000#32 g0) (.v 0 3) = some 0x40000000#64 := by decide +kernel

theorem test_cross_results :
    regAfter (.vote c0 .ballot (.v 3) 15) { g0 with core := 0 } (.v 0 3) = some 1#64 ∧
    regAfter (.vote c0 .all (.p 1) 2) g0 (.p 0 1) = some 0#64 ∧
    regAfter (.shfl c0 .b32 .idx (.v 3) (.v 1) (.s 2) (some 1)) ga (.p 0 1) = some 0#64 ∧
    regAfter (.gred c0 .s32 .add (.v 3) (.v 1)) ga (.v 0 3) = some 7#64 ∧
    regAfter (.gscan c0 .s32 .add true (.v 3) (.v 1)) ga (.v 0 3) = some 0#64 := by decide +kernel

/-! ## Bound limbs -/

/-- Threads 0 and 1 bound, a(t0) = 0xFFFFFFFF, a(t1) = 0: both issue. -/
def gl : Group := { vr 1 0xFFFFFFFF#32 g0 with
  threads := ((vr 1 0xFFFFFFFF#32 g0).threads.mapIdx (fun i t => if i < 2 then { t with lbk := 2, lix := i } else t)) }
def kl : Cur := ⟨plainRef, 0#64, 3#32⟩
def sl (g : Group) (k : Cur) : State := { at_ g id with cur := some k }

theorem test_limbs_meet :
    Issues (sl gl kl) c0 kl gl ∧ (issueOf (sl gl kl) c0 kl gl).limbs none ∧ (issueOf (sl gl kl) c0 kl gl).limbs (some 1) ∧
    [Instr.ladc c0 (.v 2) 1 (.v 1) none (some 1), .lsbb c0 (.v 2) 1 .zero (some 2) none, .lshl c0 (.v 2) 1 (.s 0) none, .lshr c0 (.v 2) 1 (.s 0) none,
      .lmulw c0 (.v 2) 1 (.v 1) .zero 1#5, .lmulw c0 (.v 2) 1 (.s 1) .zero 0#5, .lmac c0 (.v 2) 1 (.v 1) (.s 0) (.v 3) 1#5,
      .lcmp c0 .lt 1 1 .zero, .lfree c0, .lbind c0 .k2].all Instr.wellFormed = true := by
  refine ⟨issues_plain _ _ _ rfl rfl rfl (by decide +kernel), ⟨?_, ?_⟩, ⟨?_, ?_⟩, by decide⟩ <;>
    first
      | (unfold Group.boundOk Group.alike; decide +kernel)
      | (intro u hu
         refine ⟨?_, ?_⟩
         · revert u; decide +kernel
         · intro n hn
           first
             | (cases hn; revert u; decide +kernel)
             | cases hn)

/-- 0xFFFFFFFF + 0xFFFFFFFF over two limbs: 0x1_FFFFFFFE, no carry out of the set (R255). -/
theorem test_limb_results :
    (after (.ladc c0 (.v 2) 1 (.v 1) none (some 1)) (sl gl kl) (fun t => (t.group plainRef).map (fun g =>
      (g.reg (.v 0 2), g.reg (.v 1 2), g.reg (.p 0 1), g.reg (.p 1 1))))).join = some (0xFFFFFFFE#64, 1#64, 0#64, 0#64) ∧
    (after (.lbind c0 .k2) (sl g0 kl) (fun t => (t.group plainRef).map (fun g => ((g.thread 1).lbk, (g.thread 1).lix, (g.thread 2).lbk)))).join =
      some (2, 1, 0) := by decide +kernel

/-- The hypotheses of LBIND, of the unbound fault and of a set that a guard splits. -/
theorem test_binding_meets :
    (Issues (sl g0 kl) c0 kl g0 ∧ ∀ u, (activeOf g0 c0 kl.mask).getLsbD u.val = true → (g0.thread u).lbk = 0 ∧
      ∀ v : Tid, v.val / limbCount .k2 = u.val / limbCount .k2 → (activeOf g0 c0 kl.mask).getLsbD v.val = true) ∧
    (Issues (sl g0 kl) c0 kl g0 ∧ maskOf (fun u => (activeOf g0 c0 kl.mask).getLsbD u.val && (g0.thread u).lbk == 0) ≠ 0#32) ∧
    ((sl gl kk).cur = some kk ∧ (sl gl kk).group kk.g = some gl ∧ gl.holds = [] ∧ splitSets gl kk.mask (activeOf gl c0 kk.mask) ≠ 0#32) := by
  refine ⟨⟨issues_plain _ _ _ rfl rfl rfl (by decide +kernel), by decide +kernel⟩, ⟨issues_plain _ _ _ rfl rfl rfl (by decide +kernel), by decide +kernel⟩, rfl, rfl, rfl, by decide +kernel⟩

/-! ## Function registers -/

/-- f0 = 1 + T1, f1 = 2 on [−1, 1], f2 empty; f3 = T0 on [0, 1]; s1 the domain [−1, 1], s2 a scratchpad address. -/
def gf : Group := sr 1 0x3F800000BF800000#64 { g0 with
  f := ((g0.f.set 0 ⟨0xBF800000#32, 0x3F800000#32, 0, 2⟩).set 1 ⟨0xBF800000#32, 0x3F800000#32, 1, 1⟩).set 3 ⟨0#32, 0x3F800000#32, 2, 1⟩
  pool := (List.range 64).map (fun i => if i = 0 ∨ i = 1 ∨ i = 32 then 0x3F800000#32 else if i = 16 then 0x40000000#32 else 0#32) }
/-- A constant 0 on [−1, 1] to compose with. -/
def gz : Group := { gf with pool := (List.range 64).map (fun i => if i = 0 ∨ i = 1 then 0x3F800000#32 else 0#32) }

theorem test_function_results_meet :
    let same (e : Iss) : Prop := e.g.f[(0 : CReg)].a = e.g.f[(1 : CReg)].a ∧ e.g.f[(0 : CReg)].b = e.g.f[(1 : CReg)].b
    let qs (e : Iss) (k : CReg) : Option (List Rat) := ratsOf (funcCoefs e.g k)
    Meets (.chadd c0 false 4 0 1) gf id (fun e => e.funcs [0, 1] ∧ (same e ∧ (qs e 0).isSome ∧ (qs e 1).isSome) ∧ e.room 4 2) ∧
    Meets (.chmul c0 4 0 1) gf id (fun e => e.funcs [0, 1] ∧
      (same e ∧ (∃ x, qs e 0 = some x ∧ x ≠ []) ∧ ∃ y, qs e 1 = some y ∧ y ≠ []) ∧ e.room 4 2) ∧
    Meets (.chint c0 4 0) gf id (fun e => e.funcs [0] ∧ (qs e 0).isSome ∧ e.room 4 3) ∧
    Meets (.chder c0 4 0) gf id (fun e => e.funcs [0] ∧ (qs e 0).isSome ∧ e.room 4 1) ∧
    Meets (.chtrunc c0 4 0 (.imm 1#9)) gf id (fun e => e.funcs [0] ∧ (Operand.simm e (SImm.imm 1#9)).toNat ≠ 0 ∧ e.room 4 1) ∧
    Meets (.chcomp c0 4 0 1) gz id (fun e => e.funcs [0, 1] ∧ (qs e 1).isSome ∧ e.room 4 1) := by
  refine ⟨⟨by decide, at_issues _ _ rfl (by decide +kernel), ?_⟩, ⟨by decide, at_issues _ _ rfl (by decide +kernel), ?_⟩,
    ⟨by decide, at_issues _ _ rfl (by decide +kernel), ?_⟩, ⟨by decide, at_issues _ _ rfl (by decide +kernel), ?_⟩,
    ⟨by decide, at_issues _ _ rfl (by decide +kernel), ?_⟩, ⟨by decide, at_issues _ _ rfl (by decide +kernel), ?_⟩⟩
  · unfold Iss.funcs Iss.room; decide +kernel
  · unfold Iss.funcs Iss.room
    exact ⟨by decide +kernel, ⟨by decide +kernel, ⟨[1, 1], by decide +kernel, by decide⟩, ⟨[2], by decide +kernel, by decide⟩⟩, by decide +kernel⟩
  all_goals (unfold Iss.funcs Iss.room; decide +kernel)

/-- The remaining premises of CHCOMP: the inner series stays within the domain of the outer one, and the composition has a series. -/
theorem test_composition_meets :
    let e := iss gz id
    let inner : List Rat := ((ratsOf (funcCoefs e.g 1)).getD []).zipIdx.map (fun x =>
      if x.2 = 0 then x.1 - ((ratOf e.g.f[(0 : CReg)].a).getD 0 + (ratOf e.g.f[(0 : CReg)].b).getD 0) / 2 else x.1)
    ratSum (inner.map ratAbs) ≤ domainWidth e.g.f[(0 : CReg)] / 2 ∧
    ((ratsOf (funcCoefs e.g 0)).bind (fun f => (ratsOf (inner.map (fun x => ratTo (x / (domainWidth e.g.f[(0 : CReg)] / 2))))).bind
      (compSeries f))).isSome = true := by decide +kernel

theorem test_function_queries_meet :
    Meets (.chdom c0 (.s 4) 0) gf id (fun e => e.funcs [0]) ∧ Meets (.chlen c0 (.s 4) 2) gf id (fun e => e.funcs []) ∧
    Meets (.cheval c0 (.v 3) 0 (.v 1) (some 1)) gf id (fun e => e.funcs [0]) ∧ Meets (.chroot c0 (.v 3) (.s 4) 0) gf id (fun e => e.funcs [0]) := by
  refine ⟨⟨by decide, at_issues _ _ rfl (by decide +kernel), ?_⟩, ⟨by decide, at_issues _ _ rfl (by decide +kernel), ?_⟩,
    ⟨by decide, at_issues _ _ rfl (by decide +kernel), ?_⟩, ⟨by decide, at_issues _ _ rfl (by decide +kernel), ?_⟩⟩ <;>
    (unfold Iss.funcs; decide +kernel)

theorem test_function_scratch_meets :
    let there (e : Iss) (n : Nat) : Prop := e.g.banks = [] ∧ e.s.block e.r.key = some Block.plain ∧
      scratchFault e Block.plain false 4 (4 * n) e.act (fun _ => Operand.s e 2) = none ∧
      scratchAt e.r e.g.slot (Operand.s e 2) = .bytes plainRef.key 0 0 false
    Meets (.chld c0 4 2 1 (.imm 256#9)) { gf with pool := List.replicate 320 0#32 } id (fun e => e.act ≠ 0#32 ∧
      (Operand.simm e (SImm.imm 256#9)).toNat ≤ 256 ∧ there e 256 ∧ e.s.spPoisoned Block.plain 0 0 1024 = false ∧ e.room 4 256) ∧
    Meets (.chld c0 4 2 1 (.imm 1#9)) gf id (fun e => e.act ≠ 0#32 ∧ 1 ≤ (Operand.simm e (SImm.imm 1#9)).toNat ∧ there e 1 ∧ e.room 4 1 ∧
      ∃ x y, ratOf ((Operand.s e 1).extractLsb' 0 32) = some x ∧ ratOf ((Operand.s e 1).extractLsb' 32 32) = some y ∧ x < y) ∧
    Meets (.chst c0 2 0) gf id (fun e => e.funcs [0] ∧ there e e.g.f[(0 : CReg)].n) := by
  refine ⟨⟨by decide, at_issues _ _ rfl (by decide +kernel), ?_⟩, ⟨by decide, at_issues _ _ rfl (by decide +kernel), ?_⟩,
    ⟨by decide, at_issues _ _ rfl (by decide +kernel), ?_⟩⟩
  · unfold Iss.room; decide +kernel
  · unfold Iss.room
    exact ⟨by decide +kernel, by decide +kernel, by decide +kernel, by decide +kernel, -1, 1, by decide +kernel, by decide +kernel, by decide⟩
  · unfold Iss.funcs; decide +kernel

/-- CHADD of different domains, and a result for which no granules are free; an empty source. -/
theorem test_function_faults_meet :
    (∀ e, e = iss gf id → e.funcs [0, 3] ∧ ¬(gf.f[(0 : CReg)].a = gf.f[(3 : CReg)].a ∧ gf.f[(0 : CReg)].b = gf.f[(3 : CReg)].b)) ∧
    (∀ g, g = { gf with pool := (gf.pool.take 32).set 0 0x7F800000#32 } → (iss g id).funcs [0, 1] ∧ ratsOf (funcCoefs g 0) = none ∧
      firstFit g 4 (granulesOf (max g.f[(0 : CReg)].n g.f[(1 : CReg)].n)) = none) ∧
    Meets (.chst c0 2 2) gf id (fun e => e.act ≠ 0#32 ∧ e.g.f[(2 : CReg)].n = 0) ∧
    Meets (.chtrunc c0 4 2 (.imm 1#9)) gf id (fun e => e.act ≠ 0#32 ∧ e.g.f[(2 : CReg)].n = 0 ∧ Operand.simm e (SImm.imm 1#9) ≠ 0) ∧
    [Instr.chdom c0 .zero 2, .chadd c0 true 4 0 2, .chmul c0 4 2 0, .chcomp c0 4 0 2, .chint c0 4 2, .chder c0 4 2, .chroot c0 .zero .zero 2,
      .cheval c0 .zero 2 (.v 1) none].all Instr.wellFormed = true := by
  refine ⟨?_, ?_, meets _ _ _ _ (by decide +kernel), meets _ _ _ _ (by decide +kernel), by decide⟩
  · rintro e rfl; unfold Iss.funcs; decide +kernel
  · rintro g rfl; unfold Iss.funcs; decide +kernel

/-- (1 + x) at 1 is 2 (R287), its one root is −1 (R288), its integral has 3 coefficients (R285). -/
theorem test_function_values :
    regAfter (.cheval c0 (.v 3) 0 (.v 1) (some 1)) (vr 1 0x3F800000#32 gf) (.v 0 3) = some 0x40000000#64 ∧
    regAfter (.chroot c0 (.v 3) (.s 4) 0) gf (.v 0 3) = some 0xBF800000#64 ∧ regAfter (.chroot c0 (.v 3) (.s 4) 0) gf (.s 4) = some 1#64 ∧
    regAfter (.chdom c0 (.s 4) 0) gf (.s 4) = some 0x3F800000BF800000#64 ∧
    (after (.chint c0 4 0) (at_ gf id) (fun t => (t.group plainRef).map (fun g => g.f[(4 : CReg)].n))).join = some 3 := by decide +kernel

/-! ## Control flow -/

/-- A thread with one frame, to address 48. -/
def g1f : Group := th0 (fun t => { t with frames := [⟨48#64, 1⟩], fdep := 1 }) (sr 3 12#64 (sr 2 0x40#64 g0))
/-- A thread that has 64 frames. -/
def g64 : Group := th0 (fun t => { t with frames := List.replicate 64 ⟨48#64, 64⟩, fdep := 64 }) g0
/-- A leaf that maps 64 KiB at 0 to HBM4E, and the state in which core 0 has it. -/
def leaf0 : Leaf := ⟨0#64, 3, 0, 0, 0, 0, 0, false, false, false, true, true⟩
def mapped (s : State) : State := s.modCore 0 (fun c => { c with tlb := [⟨0, leaf0⟩] })
def x0 : Xlat := ⟨leaf0, 0⟩
/-- The seated block with 256 bytes of frames for each thread. -/
def bf : Block := { Block.plain with lr := { Block.plain.lr with fsz := 256 } }
def framed (s : State) : State := mapped { s with blocks := [(plainRef.key, bf)] }

theorem test_transfers_meet :
    Meets (.bra c0 8#34) g0 id (fun _ => True) ∧
    Meets (.brx c0 (.s 2)) g1f id (fun e => ∀ u, e.act.getLsbD u.val = true → isSlot (Operand.vs e 64 u (.s 2)) = true ∧
      ∀ w, (e.g.boundSet u).getLsbD w.val = true → Operand.vs e 64 w (.s 2) = Operand.vs e 64 u (.s 2)) ∧
    Meets (.call c0 (.v 9) 8#34) (th0 (fun t => { t with fdep := 63 }) g0) id (fun e => e.s.block e.r.key = some Block.plain ∧
      ∀ u, e.act.getLsbD u.val = true → (e.g.thread u).fdep < min 64 (frameLimit Block.plain)) ∧
    Meets (.callx c0 .zero (.s 2)) g1f id (fun e => e.s.block e.r.key = some Block.plain ∧
      (∀ u, e.act.getLsbD u.val = true → (e.g.thread u).fdep < min 64 (frameLimit Block.plain)) ∧
      ∀ u, e.act.getLsbD u.val = true → isSlot (Operand.vs e 64 u (.s 2)) = true ∧
        ∀ w, (e.g.boundSet u).getLsbD w.val = true → Operand.vs e 64 w (.s 2) = Operand.vs e 64 u (.s 2)) :=
  ⟨meets _ _ _ _ (by decide +kernel), meets _ _ _ _ (by decide +kernel), meets _ _ _ _ (by decide +kernel), meets _ _ _ _ (by decide +kernel)⟩

theorem test_returns_meet :
    let ok (e : Iss) (tgt : Tid → Word64) : Prop := e.act ≠ 0#32 ∧ e.s.block e.r.key = some Block.plain ∧
      ∀ u, e.act.getLsbD u.val = true → (e.g.thread u).fdep ≤ 64 ∧ (∀ h ∈ (e.g.thread u).held, h.frame ≠ (e.g.thread u).fdep ∨ h.handler = true) ∧
        (e.g.inHandler = true → (e.g.thread u).tdep < (e.g.thread u).fdep ∧ (e.g.thread u).inTrap = true ∧ (e.g.thread u).isRunning = true) ∧
        ((e.g.thread u).fdep ≠ 0 → isSlot (tgt u) = true ∧ ∀ w, (e.g.boundSet u).getLsbD w.val = true → tgt w = tgt u)
    Meets (.ret c0 none) g0 id (fun e => ok e (fun _ => 0#64)) ∧ Meets (.ret c0 none) g1f id (fun e => ok e (fun _ => 48#64)) ∧
    Meets (.ret c0 none) g64 id (fun e => ok e (fun _ => 48#64)) ∧
    Meets (.ret c0 (some 9)) { th0 (fun t => { t with inTrap := true }) g1f with inHandler := true } id (fun e => ok e (fun _ => 0#64)) ∧
    Meets (.exit c0) g0 id (fun e => (∀ u, e.act.getLsbD u.val = true → (e.g.thread u).held = []) ∧ e.g.inHandler = false) ∧
    Meets (.exit c0) { g0.modThread 1 (fun t => { t with inTrap := true }) with inHandler := true } id (fun e =>
      (∀ u, e.act.getLsbD u.val = true → (e.g.thread u).held = []) ∧
      ∃ u, ¬ e.act.getLsbD u.val = true ∧ (e.g.thread u).inTrap = true ∧ (e.g.thread u).isRunning = true) :=
  ⟨meets _ _ _ _ (by decide +kernel), meets _ _ _ _ (by decide +kernel), meets _ _ _ _ (by decide +kernel), meets _ _ _ _ (by decide +kernel),
    meets _ _ _ _ (by decide +kernel), meets _ _ _ _ (by decide +kernel)⟩

theorem test_deep_call_meets :
    Meets (.call c0 .zero 8#34) g64 framed (fun e => e.s.block e.r.key = some bf ∧
      (∀ u, e.act.getLsbD u.val = true → (e.g.thread u).fdep < 64 + bf.lr.fsz / 16) ∧
      (∀ x ∈ (e.s.core e.g.core).buffer, x.retrans = false ∧ x.poison = false) ∧
      e.s.xlateAll e.g.core e.r.key.ctx Need.write (fun _ => 0#64) false [0] = ([(0, XlatResult.ok x0)], e.s)) := by
  refine ⟨by decide, at_issues _ _ rfl (by decide +kernel), by decide +kernel, by decide +kernel, by decide +kernel, rfl⟩

/-- A thread of 65 frames: its deepest is filled from memory. -/
def g65 : Group := th0 (fun t => { t with frames := List.replicate 64 ⟨48#64, 65⟩, fdep := 65 }) g0

theorem test_deep_return_meets :
    Meets (.ret c0 none) g65 framed (fun e => e.s.block e.r.key = some bf ∧ e.g.fills = [] ∧ e.g.inHandler = false ∧
      (∀ u, e.act.getLsbD u.val = true → isSlot 48#64 = true ∧ 64 < (e.g.thread u).fdep) ∧
      e.s.xlateAll e.g.core e.r.key.ctx Need.read (fun _ => 0#64) false [0] = ([(0, XlatResult.ok x0)], e.s)) ∧
    Meets (.ret c0 none) { g65 with fills := [(0, 65, 0#128)] } framed (fun e => e.act ≠ 0#32 ∧ ∀ u, e.act.getLsbD u.val = true →
      (e.g.filled u).isSome = true) := by
  refine ⟨⟨by decide, at_issues _ _ rfl (by decide +kernel), by decide +kernel, rfl, rfl, by decide +kernel, rfl⟩, meets _ _ _ _ (by decide +kernel)⟩

/-- A call pushes the next slot and links it; a return pops it; an 8-slot branch from slot 0 is to slot 3 of the next line (R377, R378). -/
theorem test_control_results :
    (after (.call c0 (.v 9) 8#34) (at_ g0 id) (fun t => (t.group plainRef).map (fun g =>
      ((g.thread 0).pc, (g.thread 0).fdep, (g.thread 0).frames, g.reg (.v 0 9), (g.thread 1).pc)))).join =
      some (0x64#64, 1, [⟨12#64, 1⟩], 12#64, 0#64) ∧
    (after (.ret c0 none) (at_ g1f id) (fun t => (t.group plainRef).map (fun g => ((g.thread 0).pc, (g.thread 0).fdep)))).join = some (48#64, 0) ∧
    (after (.ret c0 none) (at_ g0 id) (fun t => (t.group plainRef).map (fun g => (g.thread 0).isExited))).join = some true ∧
    (after (.brx c0 (.s 2)) (at_ g1f id) (fun t => (t.group plainRef).map (fun g => (g.thread 0).pc))).join = some 0x40#64 ∧
    (after (.exit c0) (at_ g0 id) (fun t => (t.group plainRef).map (fun g => g.alive))).join = some 0xFFFFFFFE#32 := by decide +kernel

/-! ## Waits -/

/-- One load outstanding. -/
def op1 (cls : OpClass) : Op := ⟨0, cls, .global, 0#64, 1#32, 1, [], [], false, [], []⟩
def gw : Group := { g0 with ops := [op1 .ld] }

theorem test_waits_meet :
    let within (e : Iss) (k : OpClass) (n : BitVec 4) : Prop := n = 15#4 ∨ (e.g.ops.filter (fun o => decide (o.cls = k))).length ≤ n.toNat
    let ok (e : Iss) (ld st cp tl : BitVec 4) : Prop := within e .ld ld ∧ within e .st st ∧ within e .cp cp ∧ within e .tl tl
    Meets (.yield c0) g0 id (fun _ => True) ∧ Meets (.wait c0 1#4 0#4 0#4 0#4) gw id (fun e => ok e 1#4 0#4 0#4 0#4) ∧
    Meets (.wait c0 15#4 15#4 15#4 15#4) gw id (fun e => ok e 15#4 15#4 15#4 15#4) ∧
    Meets (.wait c0 0#4 15#4 15#4 15#4) gw id (fun e => e.act ≠ 0#32 ∧ ¬ ok e 0#4 15#4 15#4 15#4) :=
  ⟨meets _ _ _ _ (by decide +kernel), meets _ _ _ _ (by decide +kernel), meets _ _ _ _ (by decide +kernel), meets _ _ _ _ (by decide +kernel)⟩

/-- A second group of the block, its thread 3 asleep with a deadline of 5. -/
def ref1 : GroupRef := ⟨plainRef.key, 1⟩
def gs : Group := g0.modThread 3 (fun t => { t with status := .parked (.sleep (some 2)), deadline := some 5 })
def two (g h : Group) (now : Nat) : State := { at_ g id with groups := [(plainRef, g), (ref1, h)], now := now }

theorem test_sleep_and_wake_meet :
    let free (g : Group) (u : Tid) : Prop := (g.thread u).lbk = 0 ∧ (g.inHandler = true → (g.thread u).inTrap = true)
    Meets (.sleep c0 (.p 2) (.imm 0#16)) g0 id (fun e => ∀ u, e.act.getLsbD u.val = true → free e.g u) ∧
    ((Instr.wake c0 (.s 2) (.s 3)).wellFormed = true ∧ Issues (two (sr 3 8#64 (sr 2 1#64 g0)) gs 0) c0 kk (sr 3 8#64 (sr 2 1#64 g0)) ∧
      ∀ e, e = issueOf (two (sr 3 8#64 (sr 2 1#64 g0)) gs 0) c0 kk (sr 3 8#64 (sr 2 1#64 g0)) → e.act ≠ 0#32 ∧
        ref1 = ⟨e.r.key, (Operand.s e 2).toNat⟩ ∧ ref1 ≠ e.r ∧ e.s.group ref1 = some gs ∧
        ∀ u : Tid, ((Operand.s e 3).setWidth 32).getLsbD u.val = true → free gs u) ∧
    Meets (.wake c0 .grp .amask) g0 id (fun e => e.act ≠ 0#32 ∧ ∀ u : Tid, e.mask.getLsbD u.val = true → free e.g u) ∧
    ((two g0 gs 6).group ref1 = some gs ∧ (gs.thread 3).status = .parked (.sleep (some 2)) ∧ (gs.thread 3).deadline = some 5 ∧
      5 < (two g0 gs 6).nowAt gs.core ∧ free gs 3) := by
  refine ⟨meets _ _ _ _ (by decide +kernel), ⟨by decide, issues_plain _ _ _ rfl rfl rfl (by decide +kernel), ?_⟩, meets _ _ _ _ (by decide +kernel),
    rfl, by decide +kernel, by decide +kernel, by decide +kernel, by decide +kernel⟩
  rintro e rfl
  exact ⟨by decide +kernel, by decide +kernel, by decide +kernel, rfl, by decide +kernel⟩

theorem test_wait_results :
    (after (.wake c0 (.s 2) (.s 3)) (two (sr 3 8#64 (sr 2 1#64 g0)) gs 0) (fun t => (t.group ref1).map (fun g =>
      ((g.thread 3).isRunning, g.reg (.p 3 2), (g.thread 0).wakePending)))).join = some (true, 1#64, false) ∧
    (after (.sleepDeadline ⟨ref1, 3⟩) (two g0 gs 6) (fun t => (t.group ref1).map (fun g => ((g.thread 3).isRunning, g.reg (.p 3 2))))).join =
      some (true, 0#64) ∧
    (after (.sleep c0 .zero (.imm 9#16)) (at_ g0 id) (fun t => (t.group plainRef).map (fun g => ((g.thread 0).deadline, (g.thread 1).isRunning)))).join =
      some (some 9, true) ∧
    (after (.wait c0 0#4 15#4 15#4 15#4) (at_ gw id) (fun t => (t.group plainRef).map (fun g => ((g.thread 0).pc, g.holds.length)))).join =
      some (0#64, 1) ∧
    (after (.wait c0 1#4 0#4 0#4 0#4) (at_ gw id) (fun t => (t.group plainRef).map (fun g => (g.thread 0).pc))).join = some 12#64 ∧
    (after (.yield c0) (at_ g0 id) (fun t => (t.group plainRef).map (fun g => g.passOver))).join = some (some 12#64) := by decide +kernel

/-! ## Traps -/

def gt : Group := { g0 with trapBase := 0x40#64 }
/-- In the handler: threads 0 and 1 in it, thread 0 at fault. -/
def gh : Group := { (g0.modThread 0 (fun t => { t with inTrap := true })).modThread 1 (fun t => { t with inTrap := true }) with
  inHandler := true, trapBase := 0x40#64, trapPc := 12#64, trapMask := 1#64, saved := [⟨0#64, 3#32⟩] }
def gh1 : Group := gh.modThread 1 (fun t => { t with status := .parked .tretJoin })

theorem test_traps_meet :
    let may (e : Iss) : Prop := e.act ≠ 0#32 ∧ e.g.inHandler = false ∧ e.g.trapBase ≠ 0#64 ∧ isSlot e.g.trapBase = true
    let here (e : Iss) (b : Block) : Prop := e.act ≠ 0#32 ∧ e.s.block e.r.key = some b ∧ b.latch = none
    let bp (x : Bool) (s : State) : State := { s with ctxs := [(0, { Ctx.plain with bkpt := x })] }
    Meets (.trap c0 5#8) gt id may ∧ Meets (.bkpt c0 1#8) gt (bp true) (fun e => may e ∧ (e.s.ctx 0).map Ctx.bkpt = some true) ∧
    Meets (.bkpt c0 1#8) gt (bp false) (fun e => (e.s.ctx 0).map Ctx.bkpt = some false) ∧
    Meets (.trap c0 5#8) g0 id (fun e => here e Block.plain ∧ e.g.inHandler = false ∧ e.g.trapBase = 0#64) ∧
    Meets (.trap c0 5#8) { g0 with trapBase := 0x1004#64 } id (fun e => here e Block.plain ∧ e.g.inHandler = false ∧ isSlot e.g.trapBase = false) ∧
    Meets (.trap c0 5#8) gh id (fun e => here e Block.plain ∧ e.g.inHandler = true) :=
  ⟨meets _ _ _ _ (by decide +kernel), meets _ _ _ _ (by decide +kernel), meets _ _ _ _ (by decide +kernel), meets _ _ _ _ (by decide +kernel),
    meets _ _ _ _ (by decide +kernel), meets _ _ _ _ (by decide +kernel)⟩

theorem test_trap_returns_meet :
    let legal (e : Iss) : Prop := e.act ≠ 0#32 ∧ e.g.inHandler = true ∧ e.g.dying = false ∧
      (∀ u, e.act.getLsbD u.val = true → (e.g.thread u).fdep = (e.g.thread u).tdep ∧ (e.g.thread u).inTrap = true ∧
        ∀ h ∈ (e.g.thread u).held, h.handler = false)
    let arrived (e : Iss) (u : Tid) : Prop := e.act.getLsbD u.val = true ∨ (e.g.thread u).isExited = true ∨ (e.g.thread u).status = .parked .tretJoin
    Meets (.tret c0) gh id (fun e => legal e ∧ ∃ u, (e.g.thread u).inTrap = true ∧ ¬ arrived e u) ∧
    Meets (.tret c0) gh1 id (fun e => legal e ∧ isSlot e.g.trapPc = true ∧ ∀ u, (e.g.thread u).inTrap = true → arrived e u) ∧
    Meets (.tret c0) g0 id (fun e => e.act ≠ 0#32 ∧ e.g.inHandler = false) ∧
    Meets (.tret c0) { gh with dying := true } id (fun e => e.act ≠ 0#32 ∧ e.g.inHandler = true ∧ e.g.dying = true ∧
      e.s.block e.r.key = some Block.plain ∧ ∀ u, e.act.getLsbD u.val = true → (e.g.thread u).fdep = (e.g.thread u).tdep) :=
  ⟨meets _ _ _ _ (by decide +kernel), meets _ _ _ _ (by decide +kernel), meets _ _ _ _ (by decide +kernel), meets _ _ _ _ (by decide +kernel)⟩

/-- A fault found after issue waits at a group with a handler. -/
theorem test_late_fault_meets :
    let g : Group := { gt with pendingTrap := some { code := .pagePermRead, mask := 1#32, pc := 24#64 } }
    (at_ g id).group plainRef = some g ∧ (at_ g id).block plainRef.key = some Block.plain ∧ Block.plain.latch = none ∧
    FaultCode.pagePermRead.kind = .fatal ∧ g.inHandler = false ∧ g.hasHandler = true ∧ g.alive ≠ 0#32 :=
  ⟨rfl, rfl, rfl, rfl, rfl, by decide +kernel, by decide +kernel⟩

/-- The table "Cases at one handled trap": TRAP 5 with a handler resumes after the TRAP; without one the block is terminated with reason 5. -/
theorem test_trap_results :
    (after (.trap c0 5#8) (at_ gt id) (fun t => (t.group plainRef).map (fun g =>
      (g.trapCause, g.trapPc, g.trapMask, (g.thread 0).pc, (g.thread 1).pc, g.inHandler)))).join =
      some (0x51A#64, 12#64, 1#64, 0x40#64, 0x40#64, true) ∧
    (after (.trap c0 5#8) (at_ g0 id) (fun t => (t.block plainRef.key).map (fun b => (b.status, b.latch.map (fun l => (l.2.reason, l.2.mask)))))).join =
      some (.terminating, some (5#8, 1#32)) := by decide +kernel

theorem test_nested_trap_and_return :
    (after (.bkpt c0 1#8) (at_ gh (fun s => { s with ctxs := [(0, { Ctx.plain with bkpt := true })] })) (fun t => (t.block plainRef.key).map (fun b =>
      b.latch.map (fun l => (l.2.code, l.2.reason))))).join = some (some (.trapNested, 0x1B#8)) ∧
    (after (.tret c0) (at_ gh1 id) (fun t => (t.group plainRef).map (fun g => (g.inHandler, (g.thread 0).pc, (g.thread 1).pc)))).join =
      some (false, 12#64, 0#64) := by decide +kernel

/-! ## System registers -/

theorem test_system_registers_meet :
    [Instr.sysrd c0 (.s 10) .cntLocal, .sysrd c0 (.s 10) .wdogTicks, .syswr c0 .chbTol (.s 1), .syswr c0 .trapBase .zero, .syswr c0 .trapPc (.s 1)].all
      Instr.wellFormed = true ∧ Issues (at_ gh id) c0 kk gh ∧ (iss g0 id).act ≠ 0#32 := by
  exact ⟨by decide, at_issues _ _ rfl (by decide +kernel), by decide +kernel⟩

/-- At now = 70,500 WSWIN reads 70,000 and WSLEN 0x303E8 (R119). -/
theorem test_system_register_results :
    (after (.sysrd c0 (.s 10) .wswin) (at_ g0 (fun s => { s with now := 70500 })) (fun t => (t.group plainRef).map (fun g => g.reg (.s 10)))).join =
      some 70000#64 ∧
    (after (.sysrd c0 (.s 10) .wslen) (at_ g0 (fun s => { s with now := 70500 })) (fun t => (t.group plainRef).map (fun g => g.reg (.s 10)))).join =
      some 0x303E8#64 ∧
    (after (.sysrd c0 (.s 10) .wswin) (at_ g0 (fun s => { s with now := 71000 })) (fun t => (t.group plainRef).map (fun g => g.reg (.s 10)))).join =
      some 72000#64 ∧
    (after (.syswr c0 .trapPc (.s 1)) (at_ ga id) (fun t => (t.group plainRef).map (fun g => g.trapPc))).join = some 0#64 ∧
    (after (.syswr c0 .chbTol (.s 1)) (at_ ga id) (fun t => (t.group plainRef).map (fun g => g.chbTol))).join = some 16#32 := by decide +kernel

/-! ## Memory -/

/-- An access of the seated block that reaches memory, where the state after its translations is the state before. -/
theorem meets_reach (i : Instr) (g : Group) (f : State → State) (vec : Bool) (n : Nat) (need : Need) (addr : Iss → Tid → Word64)
    (x : Tid → Xlat) (P : Iss → Prop) {drain : Bool} [Decidable (P (iss g f))]
    (h : (i.wellFormed && g.holds.isEmpty && g.parked.isNone && (splitSets g kk.mask (activeOf g c0 kk.mask) == 0#32) &&
      decide ((iss g f).act ≠ 0#32 ∧ (∀ t ∈ accessTids vec (iss g f).act, (addr (iss g f) t).toNat % n = 0) ∧
        (∀ t ∈ accessTids vec (iss g f).act, (x t).colour = 0 ∨ (g.thread t).holds (x t).colour = true) ∧ P (iss g f))) = true)
    (hm : (iss g f).s.xlateAll g.core 0 need (addr (iss g f)) drain (accessTids vec (iss g f).act) =
      ((accessTids vec (iss g f).act).map (fun t => (t, XlatResult.ok (x t))), (iss g f).s)) :
    Meets i g f (fun e => e.Reaches vec n need (addr e) x (iss g f).s drain ∧ P e) := by
  simp only [Bool.and_eq_true, beq_iff_eq, decide_eq_true_eq, Option.isNone_iff_eq_none] at h
  exact ⟨h.1.1.1.1, at_issues g f h.1.1.1.2 h.1.2 h.1.1.2, ⟨h.2.1, h.2.2.1, hm, h.2.2.2.1⟩, h.2.2.2.2⟩

/-- Core 0 changed; with a leaf in its TLB; with an entry in its buffer, at address 0x100; with a copy of that line. -/
def k0 (f : Core → Core) (s : State) : State := s.modCore 0 f
def tlbOf (l : Leaf) (c : Core) : Core := { c with tlb := [⟨0, l⟩] }
def leaf1 : Leaf := { leaf0 with mtype := 1 }
/-- A home-only leaf of host memory. -/
def leafh : Leaf := { leaf0 with mtype := 1, place := 6 }
def be : BufEntry := ⟨1, 2, 0, 0x100#64, 0xAABBCCDD#1024, 0xFFFFFFFF#1024, [plainRef], [⟨plainRef, 0⟩], [(plainRef, 1)], 0, 0, false, false, 0, plainRef,
  0#64, 1#32, false⟩
def buffered (c : Core) : Core := { c with buffer := [be] }
def cp1 : L1Copy := ⟨7#1024, 0, 2048, 0, none, 0, 0, none⟩
def copied (c : Core) : Core := { c with copies := [(2, cp1)] }
def ga4 : Group := sr 4 0x100#64 g0
def m4 : Addr := ⟨.s 4, .none, 0#25⟩
/-- No copy of the core's line was pushed. -/
def plain4 (e : Iss) (l : LineNo) : Bool := (tblGet (e.s.core 0).copies l).all (fun y => y.push.isNone && y.older.all (fun z => z.push.isNone))
def ad4 (e : Iss) (t : Tid) : Word64 := Operand.addr e 64 t m4
/-- Line 2, and what the buffer holds of it. -/
def ln4 (e : Iss) : LineNo := leaf0.line (ad4 e 0)
def cov4 (e : Iss) : Bool := LoadPart.covered { g := e.r, op := e.s.nextId, who := some 0, va := ad4 e 0, off := (ad4 e 0).toNat % 128, n := 4, dst := .v 2, ty := .b32, own := (e.s.buffered 0 (ln4 e)).1, ownMask := (e.s.buffered 0 (ln4 e)).2 }

theorem test_lease_lengths_meet : (Instr.sysrd c0 (.s 10) .leaseDef).wellFormed = true ∧ (Instr.sysrd c0 .zero .leaseLong).wellFormed = true ∧
    Issues (at_ g0 id) c0 kk g0 ∧ (iss g0 id).act ≠ 0#32 :=
  ⟨by decide, by decide, at_issues _ _ rfl (by decide +kernel), by decide +kernel⟩

theorem test_loads_meet :
    let f (h : Leaf) (k : Core → Core) : State → State := k0 (tlbOf h ∘ k)
    let reach (e : Iss) (h : Leaf) (k : Core → Core) : Prop := e.Reaches true 4 Need.read (ad4 e) (fun _ => ⟨h, 0⟩) (iss ga4 (f h k)).s
    let one (e : Iss) : Prop := accessTids true e.act = [0] ∧ plain4 e (ln4 e) = true
    Meets (.ldg c0 .default .b32 (.v 2) m4) ga4 (f leaf0 buffered) (fun e => reach e leaf0 buffered ∧ (one e ∧ cov4 e = true)) ∧
    Meets (.ldg c0 .default .b32 (.v 2) m4) ga4 (f leaf0 copied) (fun e => reach e leaf0 copied ∧ (one e ∧ cov4 e = false ∧ leaf0.mtype ≠ 1 ∧
      (tblGet (e.s.core 0).copies (ln4 e)).bind (fun y => y.inUse (e.s.nowAt 0)) = some (7#1024, 0))) ∧
    Meets (.ldg c0 .stream .b32 (.v 2) m4) ga4 (f leaf0 id) (fun e => reach e leaf0 id ∧ (one e ∧ cov4 e = false ∧ leaf0.mtype ≠ 1 ∧
      tblGet (e.s.core 0).copies (ln4 e) = none ∧ tblGet (e.s.core 0).reqs (ln4 e) = none ∧ e.s.storeOut 0 (ln4 e) = false)) ∧
    Meets (.ldg c0 .home .b32 (.v 2) m4) ga4 (f leaf0 copied) (fun e => reach e leaf0 copied ∧ (one e ∧ cov4 e = false ∧ leaf0.mtype ≠ 1)) ∧
    Meets (.ldg c0 .default .b32 (.v 2) m4) ga4 (f leaf1 id) (fun e => reach e leaf1 id ∧ (one e ∧ leaf1.mtype = 1 ∧ isHost (leaf1.line (ad4 e 0)) = false)) ∧
    Meets (.ldg c0 .default .b32 (.v 2) m4) ga4 (f leafh id) (fun e => reach e leafh id ∧
      (accessTids true e.act = [0] ∧ plain4 e (leafh.line (ad4 e 0)) = true ∧ leafh.mtype = 1 ∧ isHost (leafh.line (ad4 e 0)) = true)) := by
  refine ⟨?_, ?_, ?_, ?_, ?_, ?_⟩ <;> exact meets_reach _ _ _ _ _ _ ad4 _ _ (by decide +kernel) rfl

/-- The context's range in its die's weight store is 256 bytes from 0x80: its last word is at 0x17C. -/
def ws1 (s : State) : State := { s with ctxs := [(0, { Ctx.plain with ws := [(0x80, 256), (0, 0), (0, 0), (0, 0)] })] }
theorem test_weight_loads_meet :
    let bad (a : Word64) (n : Nat) (e : Iss) : Mask := maskOf (fun t => decide (t ∈ accessTids true e.act) && decide ((Operand.addr e 64 t ⟨.s 4, .none, 0#25⟩ + a).toNat % n ≠ 0))
    let out (a : Word64) (n : Nat) (e : Iss) : Mask := maskOf (fun t => decide (t ∈ accessTids true e.act) && !e.s.weightOk e.r.key.ctx (Operand.addr e 64 t ⟨.s 4, .none, 0#25⟩ + a) n)
    Meets (.ldw c0 .default .b32 (.v 2) m4) (sr 4 0x17C#64 g0) (ws1 ∘ k0 (fun c => { c with weights := [(2, 5#1024)] })) (fun e => e.act ≠ 0#32 ∧ bad 0 4 e = 0#32 ∧
      out 0 4 e = 0#32 ∧ accessTids true e.act = [0] ∧ tblGet (e.s.core 0).weights ((ad4 e 0).toNat / 128) = some 5#1024) ∧
    Meets (.ldw c0 .default .b32 (.v 2) m4) (sr 4 0x80#64 g0) ws1 (fun e => e.act ≠ 0#32 ∧ bad 0 4 e = 0#32 ∧
      out 0 4 e = 0#32 ∧ accessTids true e.act = [0] ∧ tblGet (e.s.core 0).weights ((ad4 e 0).toNat / 128) = none) ∧
    Meets (.ldw c0 .default .b32 (.v 2) m4) (sr 4 0x82#64 g0) ws1 (fun e => e.act ≠ 0#32 ∧ bad 0 4 e ≠ 0#32) ∧
    Meets (.ldw c0 .default .b32 (.v 2) m4) (sr 4 0x180#64 g0) ws1 (fun e => e.act ≠ 0#32 ∧ bad 0 4 e = 0#32 ∧ out 0 4 e ≠ 0#32) :=
  ⟨meets _ _ _ _ (by decide +kernel), meets _ _ _ _ (by decide +kernel), meets _ _ _ _ (by decide +kernel), meets _ _ _ _ (by decide +kernel)⟩

/-- Uniform prefetches and invalidations of line 2. -/
theorem test_prefetches_meet :
    Meets (.pref c0 .home m4) ga4 (k0 (tlbOf leaf0)) (fun e => accessTids false e.act = [0] ∧
      e.s.xlate 0 0 Need.read (ad4 e 0) = (.ok ⟨leaf0, 0⟩, (iss ga4 (k0 (tlbOf leaf0))).s) ∧ leaf0.mtype = 0) ∧
    Meets (.pref c0 .default m4) ga4 (k0 (tlbOf leaf0)) (fun e => accessTids false e.act = [0] ∧
      e.s.xlate 0 0 Need.read (ad4 e 0) = (.ok ⟨leaf0, 0⟩, (iss ga4 (k0 (tlbOf leaf0))).s) ∧ leaf0.mtype = 0 ∧
      tblGet (e.s.core 0).reqs (ln4 e) = none ∧ e.s.storeOut 0 (ln4 e) = false) ∧
    Meets (.pref c0 .default m4) ga4 (k0 (tlbOf leaf1)) (fun e => accessTids false e.act = [0] ∧
      e.s.xlate 0 0 Need.read (ad4 e 0) = (.ok ⟨leaf1, 0⟩, (iss ga4 (k0 (tlbOf leaf1))).s) ∧ leaf1.mtype ≠ 0) ∧
    Meets (.linv c0 .default m4) ga4 (k0 (tlbOf leaf0 ∘ copied)) (fun e => accessTids false e.act = [0] ∧
      e.s.translate 0 0 (ad4 e 0) = (.leaf leaf0, (iss ga4 (k0 (tlbOf leaf0 ∘ copied))).s) ∧ tblGet (e.s.core 0).copies (leaf0.line (ad4 e 0)) = some cp1) ∧
    Meets (.linvAll c0 .default) ga4 (k0 copied) (fun e => e.act ≠ 0#32) :=
  ⟨⟨by decide, at_issues _ _ rfl (by decide +kernel), by decide +kernel, rfl, rfl⟩,
    ⟨by decide, at_issues _ _ rfl (by decide +kernel), by decide +kernel, rfl, rfl, rfl, by decide +kernel⟩,
    ⟨by decide, at_issues _ _ rfl (by decide +kernel), by decide +kernel, rfl, by decide +kernel⟩,
    ⟨by decide, at_issues _ _ rfl (by decide +kernel), by decide +kernel, rfl, rfl⟩, meets _ _ _ _ (by decide +kernel)⟩

/-- A state with one core in use, whose groups, saved blocks and buffer have numbers below the next. -/
theorem numbered (s : State) (k : Core) (hc : s.cores = [(0, k)]) (hs : s.saved = [])
    (h : (s.groups.all (fun x => x.2.ops.all (fun o => o.id < s.nextId)) && k.buffer.all (fun b => b.id < s.nextId && b.ops.all (fun o => o.2 < s.nextId)) &&
      decide (k.buffer.map BufEntry.id).Nodup) = true) : s.Numbered := by
  simp only [Bool.and_eq_true, List.all_eq_true, decide_eq_true_eq] at h
  refine ⟨fun x hx o ho => h.1.1 x hx o ho, by simp [hs], fun c => ?_⟩
  by_cases hk : c = 0
  · subst hk
    have e : s.core 0 = k := by simp [State.core, hc, tblGetD, tblGet]
    rw [e]
    exact ⟨fun b hb => ⟨(h.1.2 b hb).1, fun o ho => (h.1.2 b hb).2 o ho⟩, h.2⟩
  · have e : s.core c = Core.reset := by simp [State.core, hc, tblGetD, tblGet, Ne.symm hk]
    rw [e]; simp [Core.reset]

theorem test_stores_meet :
    let f (l : Leaf) (s : State) : State := k0 (tlbOf l ∘ buffered) { s with nextId := 2 }
    let h (l : Leaf) (s : State) : State := k0 (tlbOf l) s
    let reach (e : Iss) (l : Leaf) (s1 : State) : Prop := e.Reaches true 4 Need.write (ad4 e) (fun _ => ⟨l, 0⟩) s1
    let one (e : Iss) (l : Leaf) : Prop := accessTids true e.act = [0] ∧ e.s.bufEntry 0 (l.line (ad4 e 0)) = none ∧ plain4 e (l.line (ad4 e 0)) = true
    Meets (.stg c0 .keep .b32 m4 (.v 2)) ga4 (f leaf0) (fun e => reach e leaf0 (iss ga4 (f leaf0)).s ∧
      (((e.s.core 0).buffer.length + (accessTids true e.act).length ≤ 32 ∧ ∀ t ∈ accessTids true e.act, (⟨leaf0, 0⟩ : Xlat).leaf.mtype ≠ 1))) ∧
    (iss ga4 (f leaf0)).s.Numbered ∧
    Meets (.stg c0 .home .b32 m4 (.v 2)) ga4 (h leaf0) (fun e => reach e leaf0 (iss ga4 (h leaf0)).s ∧ (one e leaf0)) ∧
    Meets (.stg c0 .default .b32 m4 (.v 2)) ga4 (h leaf1) (fun e => reach e leaf1 (iss ga4 (h leaf1)).s ∧ (one e leaf1 ∧ leaf1.mtype = 1)) ∧
    Meets (.stg c0 .default .b32 m4 (.v 2)) ga4 (h leafh) (fun e => reach e leafh (iss ga4 (h leafh)).s ∧ (one e leafh ∧ leafh.mtype = 1)) ∧
    Meets (.stg c0 .stream .b32 m4 (.v 2)) ga4 (h leaf0) (fun e => reach e leaf0 (iss ga4 (h leaf0)).s ∧
      (one e leaf0 ∧ leaf0.mtype ≠ 1 ∧ (e.s.core 0).buffer.length + (accessTids true e.act).length ≤ 32)) ∧
    (iss ga4 (h leaf0)).s.Numbered ∧ (iss ga4 (h leaf1)).s.Numbered ∧ (iss ga4 (h leafh)).s.Numbered := by
  refine ⟨?_, numbered _ _ rfl rfl (by decide +kernel), ?_, ?_, ?_, ?_, numbered _ _ rfl rfl (by decide +kernel), numbered _ _ rfl rfl (by decide +kernel),
    numbered _ _ rfl rfl (by decide +kernel)⟩ <;> exact meets_reach _ _ _ _ _ _ ad4 _ _ (by decide +kernel) rfl

/-- Colour 5 on line 2, of a thread that holds colour 7, or eight colours. -/
def leaf5 : Leaf := { leaf0 with colour := 5, cmode := 1 }
def held7 (n : Nat) : Group := th0 (fun t => { t with held := List.replicate n ⟨7, 0, false, 0, 0⟩ }) ga4
def held4 : Group := th0 (fun t => { t with held := List.replicate 8 ⟨4, 0, false, 0, 0⟩ }) ga4
theorem test_access_faults_meet :
    let bad (e : Iss) : Mask := maskOf (fun t => decide (t ∈ accessTids true e.act) && decide ((ad4 e t).toNat % 4 ≠ 0))
    let res (need : Need) (e : Iss) := e.s.xlateAll 0 0 need (ad4 e) false (accessTids true e.act)
    let low (e : Iss) : Mask := maskOf (fun t => decide (t ∈ accessTids true e.act) && !(e.g.thread t).holds 5 && decide (5 < (e.g.thread t).topColour))
    let full (e : Iss) : Mask := maskOf (fun t => decide (t ∈ accessTids true e.act) && !(e.g.thread t).holds 5 && decide (8 < (e.g.thread t).held.length +
      ((((accessTids true e.act).filter (fun v => (e.g.boundSet t).getLsbD v.val)).map (fun _ => 5)).dedup).length))
    let mapped (e : Iss) (s1 : State) : Prop := e.act ≠ 0#32 ∧ bad e = 0#32 ∧ res Need.read e = ([(0, XlatResult.ok ⟨leaf5, 5⟩)], s1)
    Meets (.ldg c0 .default .b32 (.v 2) m4) (sr 4 0x102#64 g0) (k0 (tlbOf leaf0)) (fun e => e.act ≠ 0#32 ∧ bad e ≠ 0#32) ∧
    Meets (.stg c0 .default .b32 m4 (.v 2)) ga4 (k0 (tlbOf { leaf0 with w := false })) (fun e => e.act ≠ 0#32 ∧ bad e = 0#32 ∧
      xlatFault Need.write (res Need.write e).1 = some (.pagePermWrite, 1#32, 0#8)) ∧
    Meets (.ldg c0 .default .b32 (.v 2) m4) (held7 1) (k0 (tlbOf leaf5)) (fun e => mapped e (iss (held7 1) (k0 (tlbOf leaf5))).s ∧ low e ≠ 0#32) ∧
    Meets (.ldg c0 .default .b32 (.v 2) m4) held4 (k0 (tlbOf leaf5)) (fun e => mapped e (iss held4 (k0 (tlbOf leaf5))).s ∧ low e = 0#32 ∧ full e ≠ 0#32) :=
  ⟨meets _ _ _ _ (by decide +kernel), meets _ _ _ _ (by decide +kernel),
    ⟨by decide, at_issues _ _ rfl (by decide +kernel), ⟨by decide +kernel, by decide +kernel, rfl⟩, by decide +kernel⟩,
    ⟨by decide, at_issues _ _ rfl (by decide +kernel), ⟨by decide +kernel, by decide +kernel, rfl⟩, by decide +kernel, by decide +kernel⟩⟩

/-! ## Homes, gateways, completions -/

/-- A state with one message under way. -/
def ch0 : Chan := ⟨.resp, 1, 2⟩
def sent (b : Body) (f : State → State) : State := { f State.reset.seat with net := [⟨ch0, b, [], 0⟩] }
def y2 : SliceLine := ⟨0x55#1024, 100, 50, false, false, 0, false⟩
/-- Reads of line 2 of die 0, and of the host's first line. -/
def rd (l : LineNo) (len : Option Nat) (tgt : ReadFor) : ReadReq := ⟨l, len, false, false, 0, 0, none, tgt⟩
def hl : LineNo := 2 ^ 47
def lines (l : List (LineNo × SliceLine)) (s : State) : State := { s with lines := l }
/-- Sixteen lines of the set of line 2, their leases of WL 9. -/
def set2 : List (LineNo × SliceLine) :=
  [73744, 73760, 147478, 147494, 221188, 294954, 442382, 516124, 589826, 737318, 811012, 884762, 884778, 958488, 958504, 1032206].map
    (fun l => (l, { y2 with wl := 9 }))
def missing (q : Miss) (s : State) : State := { s with misses := [(2, q)] }

theorem test_home_reads_meet :
    let r := rd 2 (some 2048) (.l1 0 true)
    let m (s : State) : Prop := Due s 0 ch0 (.read r true) ∧ r.slot = none
    m (sent (.read r true) (lines [(2, y2)])) ∧ tblGet (sent (.read r true) (lines [(2, y2)])).misses 2 = none ∧
    tblGet (sent (.read r true) (lines [(2, y2)])).lines 2 = some y2 ∧
    Due (sent (.read (rd hl (some 9) .bring) true) (lines [(hl, y2)])) 0 ch0 (.read (rd hl (some 9) .bring) true) ∧
    tblGet (sent (.read (rd hl (some 9) .bring) true) (lines [(hl, y2)])).lines hl = some y2 ∧
    m (sent (.read r true) id) ∧ tblGet (sent (.read r true) id).lines 2 = none ∧ isHost 2 = false ∧ (sent (.read r true) id).missCount 2 < 64 ∧
    m (sent (.read r true) (missing ⟨[], none⟩)) ∧ tblGet (sent (.read r true) (missing ⟨[], none⟩)).misses 2 = some ⟨[], none⟩ :=
  ⟨⟨⟨[], 0, rfl⟩, rfl⟩, rfl, rfl, ⟨[], 0, rfl⟩, rfl, ⟨⟨[], 0, rfl⟩, rfl⟩, rfl, rfl, by decide +kernel, ⟨⟨[], 0, rfl⟩, rfl⟩, rfl⟩

theorem test_fills_meet :
    let r := rd 2 (some 2048) (.l1 0 true)
    let s (f : Option Bool) (l : List (LineNo × SliceLine)) : State := missing ⟨[.read r], f⟩ (lines l State.reset)
    (∀ f, isHost 2 = false ∧ tblGet (s f []).lines 2 = none ∧ tblGet (s f []).misses 2 = some ⟨[.read r], f⟩ ∧ ((s f []).setOf 2).length < 16) ∧
    tblGet (s none set2).lines 2 = none ∧ ¬ ((s none set2).setOf 2).length < 16 ∧
      ((s none set2).setOf 2).all (fun x => !x.2.keep && decide ((s none set2).now < x.2.wl)) = true ∧
    (let u : State := missing ⟨[], none⟩ (lines set2 { State.reset with now := 9 })
     isHost 2 = false ∧ tblGet u.lines 2 = none ∧ ¬ (u.setOf 2).length < 16 ∧ u.victim 2 = some (73744, { y2 with wl := 9 })) ∧ isHbm 2 = true := by
  refine ⟨fun _ => ⟨rfl, rfl, rfl, by simp only [lines, missing, State.setOf, List.filter_nil, List.length_nil]; decide⟩, ?_⟩
  decide +kernel

def st2 : StoreReq := ⟨2, 0xAABB#1024, 0xFFFF#1024, 5, 0, 0, false, none, false, false, 0, none⟩
theorem test_home_stores_meet :
    Due (sent (.store st2 true) (lines [(2, y2)])) 0 ch0 (.store st2 true) ∧ tblGet (sent (.store st2 true) (lines [(2, y2)])).misses 2 = none ∧
    tblGet (sent (.store st2 true) (lines [(2, y2)])).lines 2 = some y2 ∧ st2.slot = none ∧
    Due (sent (.store { st2 with via := some (1, 2, 3) } true) (lines [(2, y2)])) 0 ch0 (.store { st2 with via := some (1, 2, 3) } true) ∧
    Due (sent (.store st2 true) id) 0 ch0 (.store st2 true) ∧ tblGet (sent (.store st2 true) id).lines 2 = none ∧ isHost 2 = false ∧
    (sent (.store st2 true) id).missCount 2 < 64 :=
  ⟨⟨[], 0, rfl⟩, rfl, rfl, rfl, ⟨[], 0, rfl⟩, ⟨[], 0, rfl⟩, rfl, rfl, by decide +kernel⟩

/-- Line rl has its home on die 1; die 0's gateway cache holds it. -/
def rl : LineNo := 2 ^ 30 + 2
def gx : GwLine := { GwLine.empty with data := 7#1024, copy := true, xg := 5000 }
def gwy (x : GwLine) (s : State) : State := { s with gateways := [((0, rl), x)] }
theorem test_gateway_reads_meet :
    let r := rd rl (some 2048) (.l1 0 true)
    let s (x : GwLine) : State := sent (.read r false) (gwy x)
    homeDie rl = 1 ∧ dieOfCore r.core = 0 ∧
    (sent (.read { r with bypass := true } false) id).deliverable 0 = some ⟨ch0, .read { r with bypass := true } false, [], 0⟩ ∧
    (s gx).deliverable 0 = some ⟨ch0, .read r false, [], 0⟩ ∧ r.bypass = false ∧ tblGet (s gx).gateways (0, rl) = some gx ∧ gx.usable (s gx).now = true ∧
    (∀ n, r.len = some n → (s gx).now + n ≤ gx.xg) ∧ (s gx).gwBypass r.ctx 0 rl = false ∧
    (∀ x, x = { gx with xg := 3 } → (s x).deliverable 0 = some ⟨ch0, .read r false, [], 0⟩ ∧ x.usable (s x).now = false ∧ x.waiting = [] ∧
      x.renewing = false ∧ x.fwds = [] ∧ (s x).renewals 0 rl < 64) ∧
    (let x := { gx with xg := 2047 }; x.usable (s x).now = true ∧ ¬ ∀ n, r.len = some n → (s x).now + n ≤ x.xg) := by
  refine ⟨by decide +kernel, by decide +kernel, rfl, rfl, rfl, rfl, by decide +kernel, by decide +kernel, by decide +kernel, ?_, by decide +kernel⟩
  rintro x rfl
  exact ⟨rfl, by decide +kernel, rfl, rfl, rfl, by decide +kernel⟩

theorem test_gateway_times_meet :
    let r := rd rl (some 2048) (.l1 0 true)
    let x (b : Bool) : GwLine := { gx with waiting := [r], renewing := true, stale := b }
    let u : Update := ⟨2 ^ 37 + 256, .rmw .add .b32 1#64, 0, 0, plainRef, 7, some 0, none, 0, none, false, 0#64, .group⟩
    let s (b : Body) (x : GwLine) : State := sent b (gwy x)
    (∀ b, Due (s (.renewal 0 rl 8#1024 6000 40 false) (x b)) 0 ch0 (.renewal 0 rl 8#1024 6000 40 false) ∧
      tblGet (s (.renewal 0 rl 8#1024 6000 40 false) (x b)).gateways (0, rl) = some (x b) ∧ (x b).fwds = [] ∧ (x b).waiting = [r] ∧ r.line = rl) ∧
    (∀ b, (s (.store { st2 with line := rl, l0 := b } false) gx).deliverable 0 = some ⟨ch0, .store { st2 with line := rl, l0 := b } false, [], 0⟩) ∧
    (s (.pass u) gx).deliverable 0 = some ⟨ch0, .pass u, [], 0⟩ ∧ u.addr / 128 = rl ∧ tblGet (s (.pass u) gx).gateways (0, rl) = some gx ∧
    Due (s (.forwardReturn 0 rl 4 90 (some (5, 0, 60))) { gx with fwds := [⟨4, 60, 1#1024⟩] }) 0 ch0 (.forwardReturn 0 rl 4 90 (some (5, 0, 60))) :=
  ⟨fun _ => ⟨⟨[], 0, rfl⟩, rfl, rfl, rfl, rfl⟩, fun _ => rfl, rfl, by decide +kernel, rfl, [], 0, rfl⟩

/-- A group with one operation, the load of v2 by thread 0. -/
def opl : Op := ⟨7, .ld, .global, 0#64, 1#32, 1, [.v 0 2], [], false, [], []⟩
def go : Group := { g0 with ops := [opl] }
def grp (g : Group) (s : State) : State := { s with groups := [(plainRef, g)] }
def lp : LoadPart := ⟨plainRef, 7, some 0, 0x100#64, 0, 4, .v 2, .b32, 0#1024, 0#1024⟩
def lq : L1Req := ⟨[lp], [], [], false, true, rd 2 (some 2048) (.l1 0 true), true, 0, 0#1024, 0#1024⟩

theorem test_operations_meet : go.ops.find? (fun o => o.id == 7) = some opl ∧ LastPart go 7 opl ∧ opl.kind ≠ .fill ∧ opl.arrivals = [] :=
  ⟨rfl, ⟨rfl, by decide, rfl, by simp [opl]⟩, by decide, rfl⟩

theorem test_load_completions_meet :
    let resp (t : ReadFor) : Body := .loadResp 0 2 0x11223344#1024 (some 2048) 5 (deviceObs 5) false t
    let z : ScratchPart := ⟨.bytes plainRef.key 0 64 false, 64#64, some 0, 4, .v 2, .b32, 0#128⟩
    let u : Update := ⟨256, .rmw .add .b32 1#64, 0, 0, plainRef, 7, some 0, some (.v 2), 0, none, false, 0x100#64, .group⟩
    let lqs (s : State) : State := k0 (fun c => { c with reqs := [(2, lq)] }) (grp go s)
    (sent (resp (.direct 0 [lp])) (grp go)).group plainRef = some go ∧ Due (sent (resp (.direct 0 [lp])) (grp go)) 0 ch0 (resp (.direct 0 [lp])) ∧
    (sent (resp (.direct 0 [lp])) (grp go)).reportDue 0 2 = false ∧
    Due (sent (resp (.l1 0 true)) lqs) 0 ch0 (resp (.l1 0 true)) ∧ tblGet ((sent (resp (.l1 0 true)) lqs).core 0).reqs 2 = some lq ∧
    lq.parts = [lp] ∧ lq.joined = [] ∧ lq.next = [] ∧ (sent (resp (.l1 0 true)) lqs).reportDue lq.req.ctx 2 = false ∧ tblGet ((sent (resp (.l1 0 true)) lqs).core 0).copies 2 = none ∧
    Due (sent (.weightResp 0 256 true [lp]) (grp go)) 0 ch0 (.weightResp 0 256 true [lp]) ∧ ((sent (.weightResp 0 256 true [lp]) (grp go)).weightLine 2).2 = false ∧
    inRefresh 256 0 = false ∧ inRefresh 256 2000 = true ∧ inRefresh 256 2999 = true ∧ inRefresh 256 3000 = false ∧
    Due (sent (.refresh 0 256 true [lp]) (grp go)) 0 ch0 (.refresh 0 256 true [lp]) ∧ ((sent (.refresh 0 256 true [lp]) (grp go)).weightLine 2).2 = false ∧
    Due (sent (.scratch plainRef 7 true [z]) (grp go)) 0 ch0 (.scratch plainRef 7 true [z]) ∧
    (sent (.scratch plainRef 7 true [z]) (grp go)).scratchValue plainRef.key z.at_ z.n = some (0#128, false) ∧
    Due (sent (.updateDone u 9#64 50 40 false) (grp go)) 0 ch0 (.updateDone u 9#64 50 40 false) :=
  ⟨rfl, ⟨[], 0, rfl⟩, by decide +kernel, ⟨[], 0, rfl⟩, rfl, rfl, rfl, rfl, by decide +kernel, rfl, ⟨[], 0, rfl⟩, by decide +kernel, by decide, by decide, by decide, by decide,
    ⟨[], 0, rfl⟩, by decide +kernel, ⟨[], 0, rfl⟩, by decide +kernel, [], 0, rfl⟩

def tx : StoreTxn := ⟨5, 2, 0, 0, 0xFF#1024, some 12, [(plainRef, 7)], [plainRef], [⟨plainRef, 0⟩], 0⟩
theorem test_store_completions_meet :
    let z : ScratchPart := ⟨.bytes plainRef.key 0 64 false, 64#64, some 0, 4, .zero, .b32, 0xAB#128⟩
    let u : Update := ⟨256, .rmw .add .b32 1#64, 0, 0, plainRef, 7, some 0, none, 0, none, false, 0x100#64, .group⟩
    let s1 : State := sent (.storeDone 5 ⟨0, 60, 60, 70⟩) (fun s => { grp go s with txns := [(5, tx)] })
    Due s1 0 ch0 (.storeDone 5 ⟨0, 60, 60, 70⟩) ∧ s1.group plainRef = some go ∧ tblGet s1.txns 5 = some tx ∧ (tblGet (s1.core 0).reqs 2).isSome = false ∧
    s1.groups.all (fun x => x.2.pendObs.all (fun y => decide (y.1 ≠ .entry 0 5))) = true ∧ Due (sent (.storeDie 5 60) (fun s => { grp go s with txns := [(5, tx)] })) 0 ch0 (.storeDie 5 60) ∧
    Due (sent (.scratch plainRef 7 false [z]) (grp go)) 0 ch0 (.scratch plainRef 7 false [z]) ∧ (sent (.scratch plainRef 7 false [z]) (grp go)).block plainRef.key = some Block.plain ∧
    (sent (.scratch plainRef 7 false [z]) (grp go)).mem.wf = true ∧ Due (sent (.updateDone u 9#64 50 40 false) (grp go)) 0 ch0 (.updateDone u 9#64 50 40 false) :=
  ⟨⟨[], 0, rfl⟩, rfl, rfl, rfl, by decide, ⟨[], 0, rfl⟩, ⟨[], 0, rfl⟩, rfl, rfl, [], 0, rfl⟩

theorem test_buffer_drains_meet :
    let s (b : BufEntry) (n : Nat) : State := { k0 (fun c => { c with buffer := [b], copies := [(2, cp1)] }) State.reset.seat with now := n }
    let b1 : BufEntry := { be with retrans := true }
    (∀ n, n = 19 ∨ n = 20 → ((s be n).core 0).buffer.find? (fun x => x.id == 1) = some be ∧ be.retrans = false ∧ be.poison = false ∧
      (decide (be.created + 20 ≤ (s be n).nowAt 0) = (n == 20))) ∧
    ((s b1 0).core 0).buffer.find? (fun x => x.id == 1) = some b1 ∧
    ((s b1 0).modCore 0 (fun c => { c with buffer := c.buffer.filter (fun x => x.id != b1.id) })).translate 0 0 0x100#64 =
      (.absent, (s b1 0).modCore 0 (fun c => { c with buffer := c.buffer.filter (fun x => x.id != b1.id) })) ∧
    (s b1 0).ctx 0 = some Ctx.plain ∧ firstFrom (fun n => (tblGet Ctx.plain.fbuf n).isNone) 0 64 = some 0 ∧
    (s b1 0).group plainRef = some g0 ∧ g0.pendingTrap = none := by
  refine ⟨?_, rfl, by rfl, rfl, by decide +kernel, rfl, rfl⟩
  rintro n (rfl | rfl) <;> exact ⟨rfl, rfl, rfl, by decide +kernel⟩

theorem test_leases_and_host_meet :
    let cs (n : Nat) : State := { k0 copied State.reset.seat with now := n }
    let hs (n : Nat) : State := { lines [(hl, y2)] State.reset.seat with now := n }
    let q : StoreReq := { st2 with line := hl, l0 := true }
    let d : Body := .host (rd hl none (.direct 0 [lp]))
    (tblGet ((cs 2045).core 0).copies 2 = some cp1 ∧ cp1.expiry ≤ (cs 2045).nowAt 0 + 3 ∧ ¬ cp1.expiry ≤ (cs 2044).nowAt 0 + 3) ∧
    (isHost hl = true ∧ tblGet (hs 103).lines hl = some y2 ∧ y2.lx + 3 < (hs 104).now ∧ ¬ y2.lx + 3 < (hs 103).now) ∧
    (isHost 2 = false ∧ (lines [(2, y2)] State.reset).isCode (128 * 2) = false ∧ tblGet (lines [(2, y2)] State.reset).misses 2 = none ∧
      tblGet (lines [(2, y2)] State.reset).lines 2 = some y2) ∧ State.reset.missCount 2 < 64 ∧
    ({ State.reset with codeFrames := [(0, [])] }.isCode (128 * 2) = true) ∧
    (tblGet State.reset.lines hl = none ∧ State.reset.mem.wf = true) ∧
    (tblGet State.reset.misses 2 = none ∧ (State.reset.setOf 2).length < 16) ∧
    Due (sent d (grp go)) 0 ch0 d ∧ (sent d (grp go)).group plainRef = some go ∧ go.pendingTrap = none ∧
    Due (sent (.hostStore q) id) 0 ch0 (.hostStore q) ∧ isHost q.line = true ∧ q.via = none ∧ q.slot = none ∧ tblGet (sent (.hostStore q) id).lines hl = none :=
  ⟨by decide +kernel, by decide +kernel, ⟨rfl, by decide +kernel, rfl, rfl⟩, by decide +kernel, by decide +kernel, ⟨rfl, rfl⟩, ⟨rfl, by decide +kernel⟩, ⟨[], 0, rfl⟩, rfl, rfl, ⟨[], 0, rfl⟩,
    by decide, rfl, rfl, rfl⟩

/-! ## Walks and fetches -/

/-- A page table in three lines that maps 64 KiB at 0. -/
def pe (flags pfn : Nat) : SliceLine := ⟨BitVec.ofNat 1024 (flags + pfn * 2 ^ 32), 0, 0, false, true, 0, false⟩
def pt (s : State) : State := lines [(0, pe 1 1), (flatByte 0 65536 / 128, pe 1 2), (flatByte 0 131072 / 128, pe 0x17 0)] s
def walks (n q : Nat) (s : State) : State :=
  { s with dies := [(0, { Die.reset with walks := List.replicate n ⟨[0], 9, 0#64⟩, walkQueue := List.replicate q ⟨[0], 8, 0#64⟩ })] }
theorem test_walks_meet :
    let w : Walk := ⟨[0], 0, 0x100#64⟩
    let d (n q : Nat) : Die := (walks n q State.reset).die (dieOfCore 0)
    ((walks 1 0 State.reset).die (dieOfCore 0)).walks.any (sameWalk ⟨[0], 9, 0xFFFF#64⟩) = true ∧
    ((d 63 0).walks.any (sameWalk w) = false ∧ (d 63 0).walks.length < 64) ∧
    ((d 64 1023).walks.any (sameWalk w) = false ∧ 64 ≤ (d 64 1023).walks.length ∧ (d 64 1023).walkQueue.length < 1024) ∧
    ((walks 1 1 State.reset.seat).die 0).walks[0]? = some ⟨[0], 9, 0#64⟩ ∧ (pt State.reset.seat).walk 0 0x100#64 = .leaf leaf0 ∧
    State.reset.seat.walk 0 0x100#64 = .absent ∧ State.reset.seat.walk 0 0x8000000000000000#64 = .error 0x01#8 ∧
    (canonical 0x100#64 = true ∧ State.reset.seat.ctx 0 = some Ctx.plain ∧ State.reset.seat.ctx 9 = none) ∧
    walkFrom (pt State.reset.seat) false 0x100#64 3 0 0 = .leaf leaf0 ∧ walkFrom State.reset.seat false 0x100#64 3 0 0 = .absent ∧ (∀ e ∈ (d 0 0).walkCache, e.ctx ≠ 0) ∧
    (tablesFrom (pt State.reset.seat) 0 0x100#64 3 0 0 == [⟨0, 2, 0#64, 0, 2⟩, ⟨0, 1, 0#64, 0, 1⟩]) = true ∧ levelBase 2 0x100#64 = 0#64 := by
  and_intros <;> first | rfl | decide +kernel

/-- R80, R84: a walk that the walk cache serves reads no table above it. -/
theorem test_walk_cache :
    (({ Die.reset with walkCache := [⟨0, 2, 0#64, 0, 2⟩, ⟨0, 1, 0#64, 0, 1⟩] } : Die).walkFirst 0 Ctx.plain 0x100#64,
      ({ Die.reset with walkCache := [⟨0, 1, 0#64, 0, 1⟩] } : Die).walkFirst 0 Ctx.plain 0x2000_0000#64) = ((1, 0, 2), (2, 0, 1)) := by decide +kernel

/-- An executable leaf of a marked frame; a group whose threads are all at a PC. -/
def leafX : Leaf := { leaf0 with x := true, w := false }
def marked (s : State) : State := k0 (tlbOf leafX) { s with codeFrames := [(0, [])] }
def gpc (pc : Word64) : Group := Group.launched 0 0 0 0 128 pc 0
def fe (pc : Word64) : FEntry := ⟨pc, 0xFFFFFFFF#32⟩
theorem test_fetches_meet :
    let absent (s : State) (pc : Word64) : Prop := s.group plainRef = some (gpc pc) ∧ s.entryAt plainRef pc = some (fe pc) ∧ (gpc pc).onPage = false ∧
      tblGet (s.core 0).icache (0, pcLine pc) = none ∧ tblGet (s.core 0).fetches (0, pcLine pc) = none
    let runs (s : State) (l : Leaf) (pc : Word64) : Bool := l.x && !l.w && decide (l.level = 3) && s.isCode (l.flat pc)
    let s0 : State := grp (gpc 64#64) State.reset.seat
    let s9 : State := grp (gpc 0x8000000000000000#64) State.reset.seat
    absent (marked s0) 64#64 ∧ (marked s0).translate 0 0 64#64 = (.leaf leafX, marked s0) ∧ runs (marked s0) leafX 64#64 = true ∧
    absent (k0 (tlbOf leaf0) s0) 64#64 ∧ (k0 (tlbOf leaf0) s0).translate 0 0 64#64 = (.leaf leaf0, k0 (tlbOf leaf0) s0) ∧ runs (k0 (tlbOf leaf0) s0) leaf0 64#64 = false ∧
    absent s9 0x8000000000000000#64 ∧ s9.translate 0 0 0x8000000000000000#64 = (.error 0x01#8, s9) ∧
    absent s0 64#64 ∧ s0.translate 0 0 64#64 = (.absent, s0) := by
  refine ⟨⟨rfl, by decide +kernel, rfl, by decide +kernel, by decide +kernel⟩, rfl, by decide +kernel, ⟨rfl, by decide +kernel, rfl, by decide +kernel, by decide +kernel⟩, rfl, by decide +kernel,
    ⟨rfl, by decide +kernel, rfl, by decide +kernel, by decide +kernel⟩, rfl, ⟨rfl, by decide +kernel, rfl, by decide +kernel, by decide +kernel⟩, rfl⟩

theorem test_fills_of_code_meet :
    let f (n : Nat) : Fetch := ⟨plainRef, 64#64, 64, n⟩
    let s (n : Nat) : State := k0 (fun c => { c with fetches := [((0, 64#64), f n)] }) (grp (gpc 64#64) State.reset.seat)
    let good : BitVec 512 := lineOf 0#64 0x0C0F00F0783C1E0F00000005#96
    (∀ n, (s n).fetchList[0]? = some (0, (0, 64#64), f n)) ∧ trailerOk ((s 0).codeLine 64 ^^^ good) = true ∧
    trailerOk ((s 1).codeLine 64 ^^^ (good ^^^ 1#512)) = false ∧ trailerOk ((s 2).codeLine 64 ^^^ (good ^^^ 1#512)) = false ∧
    (s 2).entryAt plainRef 64#64 = some (fe 64#64) := by
  refine ⟨fun _ => rfl, by decide +kernel, by decide +kernel, by decide +kernel, by decide +kernel⟩

/-- An operation of two parts, one whose register has been written meanwhile, one that brings a frame back; a fetch of a poisoned line. -/
def resp2 : Body := .loadResp 0 2 0x11223344#1024 (some 2048) 5 (deviceObs 5) false (.direct 0 [lp])
def withOp (o : Op) : State := sent resp2 (grp { g0 with ops := [o] })
theorem test_more_completions_meet :
    let met (o : Op) : Prop := { g0 with ops := [o] }.ops.find? (fun o => o.id == lp.op) = some o ∧ Due (withOp o) 0 ch0 resp2 ∧
      (withOp o).reportDue 0 2 = false
    let f : Fetch := ⟨plainRef, 64#64, 64, 0⟩
    let s : State := { k0 (fun c => { c with fetches := [((0, 64#64), f)] }) (grp (gpc 64#64) State.reset.seat) with poison := [.byte 0] }
    met { opl with parts := 2 } ∧ opl.kind ≠ .fill ∧ met { opl with clobbered := [.v 0 2] } ∧ met { opl with kind := .fill } ∧
    (s.fetchList[0]? = some (0, (0, 64#64), f) ∧ s.linePoisoned (64 / 128) = true ∧ s.entryAt plainRef 64#64 = some (fe 64#64)) ∧
    isHost hl = true ∧ isPeer hl = false := by
  have due (o : Op) : Due (withOp o) 0 ch0 resp2 := ⟨[], 0, rfl⟩
  refine ⟨⟨rfl, due _, ?_⟩, ?_, ⟨rfl, due _, ?_⟩, ⟨rfl, due _, ?_⟩, ?_, ?_, ?_⟩ <;> decide +kernel

/-! ## The store and barriers -/

def blk (b : Block) (s : State) : State := { s with blocks := [(plainRef.key, b)] }
/-- The seated block with four barriers; barrier 3 of slot 0 as `x`. -/
def bb (x : Barrier) : Block := { Block.plain with lr := { Block.plain.lr with nbar := 4 }, bars := [((0, 3), x)] }
def gops (k : OpKind) (c : OpClass) : Group := { g0 with ops := [⟨0, c, k, 0#64, 1#32, 1, [], [], false, [], []⟩] }

theorem test_scratchpad_meets :
    let go (i : Instr) (load : Bool) (a : Word64) (P : Bool → Bool → Bool → Prop) [∀ x y z, Decidable (P x y z)] : Prop :=
      Meets i (sr 4 a g0) id (fun e => e.act ≠ 0#32 ∧ e.s.block e.r.key = some Block.plain ∧ accessTids true e.act = [0] ∧
        P (decide ((Operand.addr e 32 0 m4).toNat % 4 ≠ 0)) (scratchBad Block.plain load 4 (Operand.addr e 32 0 m4) (scratchAt e.r e.g.slot (Operand.addr e 32 0 m4)))
          (scratchGone e.s 0 (scratchAt e.r e.g.slot (Operand.addr e 32 0 m4))))
    let i : Instr := .ldx c0 .default .b32 (.v 2) m4
    let j : Instr := .stx c0 .default .b32 m4 (.v 2)
    go i true 4092#64 (fun x y z => x = false ∧ y = false ∧ z = false) ∧ go i true 4090#64 (fun x _ _ => x = true) ∧
    go i true 4096#64 (fun x y _ => x = false ∧ y = true) ∧ go i true 0x1C0000000#64 (fun x y z => x = false ∧ y = false ∧ z = true) ∧
    go j false 4092#64 (fun x y z => x = false ∧ y = false ∧ z = false) ∧ go j false 4090#64 (fun x _ _ => x = true) ∧
    go j false 0x7FFFF000#64 (fun x y _ => x = false ∧ y = true) ∧ go j false 0x1C0000000#64 (fun x y z => x = false ∧ y = false ∧ z = true) :=
  ⟨meets _ _ _ _ (by decide +kernel), meets _ _ _ _ (by decide +kernel), meets _ _ _ _ (by decide +kernel), meets _ _ _ _ (by decide +kernel),
    meets _ _ _ _ (by decide +kernel), meets _ _ _ _ (by decide +kernel), meets _ _ _ _ (by decide +kernel), meets _ _ _ _ (by decide +kernel)⟩

theorem test_barriers_meet :
    let ends (x : Barrier) : Prop := 1 ≤ x.tgt ∧ x.arr = x.tgt ∧ x.pend = 0
    let here (e : Iss) (x : Barrier) : Prop := e.act ≠ 0#32 ∧ e.s.block e.r.key = some (bb x) ∧ 0 < (bb x).cores.length ∧ 3 < (bb x).lr.nbar ∧
      PoisonKey.barrier e.r.key 0 3 ∉ e.s.poison ∧ (bb x).bar 0 3 = x ∧ maskCount e.act = 1 ∧ ∀ o ∈ e.g.ops, o.kind ≠ .scratch
    let b (pend : Int) (ph : Bool) (tgt arr : Nat) : Barrier := ⟨pend, 0#16, ph, tgt, arr⟩
    let m (i : Instr) (x : Barrier) (P : Prop) : Prop := Meets i g0 (blk (bb x)) (fun e => here e x ∧ P)
    m (.bari c0 3 (.imm 1#12)) (b 0 false 0 0) (1 ≤ 1 ∧ 1 ≤ 2048) ∧ m (.bari c0 3 (.imm 2048#12)) (b 0 false 0 0) (1 ≤ 2048) ∧
    Meets (.bari c0 3 (.s 2)) (sr 2 2049#64 g0) (blk (bb (b 0 false 0 0))) (fun e => here e (b 0 false 0 0) ∧ 2048 < (Operand.simm e (.s 2 : SImm 12)).toNat) ∧
    Meets (.bari c0 3 (.s 2)) g0 (blk (bb (b 0 false 0 0))) (fun e => here e (b 0 false 0 0) ∧ (Operand.simm e (.s 2 : SImm 12)).toNat < 1) ∧
    m (.bara c0 none 3) (b 0 false 2 0) (2 ≠ 0 ∧ 0 + 1 ≤ 2 ∧ ¬ ends (b 0 false 2 1)) ∧
    m (.bara c0 (some 0) 3) (b 0 false 1 0) (1 ≠ 0 ∧ 0 + 1 ≤ 1 ∧ ends (b 0 false 1 1)) ∧
    m (.baraw c0 3) (b 0 false 2 0) (¬ ends (b 0 false 2 1)) ∧ m (.baraw c0 3) (b 0 false 1 0) (ends (b 0 false 1 1)) ∧
    Meets (.baraw c0 3) (gops .scratch .st) (blk (bb (b 0 false 1 0))) (fun e => e.act ≠ 0#32 ∧ ¬ ∀ o ∈ e.g.ops, o.kind ≠ .scratch) ∧
    Meets (.barw c0 3 (.imm 1#1)) g0 (blk (bb (b 0 false 1 0))) (fun e => here e (b 0 false 1 0) ∧ false ≠ phaseOf e (.imm 1#1)) ∧
    Meets (.barw c0 3 (.imm 0#1)) g0 (blk (bb (b 0 false 1 0))) (fun e => here e (b 0 false 1 0) ∧ false = phaseOf e (.imm 0#1)) ∧
    m (.barx c0 none 3 (.imm 16#16)) (b (2 ^ 31 - 17) false 1 0) (2 ^ 31 - 17 + 16 < 2 ^ 31 ∧ ¬ ends (b (2 ^ 31 - 1) false 1 0)) ∧
    m (.barx c0 none 3 (.imm 16#16)) (b (-16) false 1 1) (ends (b 0 false 1 1)) ∧
    m (.barx c0 none 3 (.imm 16#16)) (b (2 ^ 31 - 16) false 1 0) ((2 : Int) ^ 31 ≤ 2 ^ 31 - 16 + 16) ∧
    m (.bart c0 (.p 1) 3 (.imm 0#1)) (b 0 false 1 0) True ∧
    m (.barl c0 none 3) (b 0 false 3 0) (0 + 1 ≤ 3 ∧ ¬ ends (b 0 false 2 0)) ∧ m (.barl c0 none 3) (b 0 false 2 1) (1 + 1 ≤ 2 ∧ ends (b 0 false 1 1)) ∧
    m (.barl c0 none 3) (b 0 false 1 1) (1 < 1 + 1) ∧
    Meets (.bara c0 none 4) g0 (blk (bb (b 0 false 1 0))) (fun e => e.act ≠ 0#32 ∧ e.s.block e.r.key = some (bb (b 0 false 1 0)) ∧ (bb (b 0 false 1 0)).lr.nbar ≤ 4) :=
  ⟨meets _ _ _ _ (by decide +kernel), meets _ _ _ _ (by decide +kernel), meets _ _ _ _ (by decide +kernel), meets _ _ _ _ (by decide +kernel),
    meets _ _ _ _ (by decide +kernel), meets _ _ _ _ (by decide +kernel), meets _ _ _ _ (by decide +kernel), meets _ _ _ _ (by decide +kernel),
    meets _ _ _ _ (by decide +kernel), meets _ _ _ _ (by decide +kernel), meets _ _ _ _ (by decide +kernel), meets _ _ _ _ (by decide +kernel),
    meets _ _ _ _ (by decide +kernel), meets _ _ _ _ (by decide +kernel), meets _ _ _ _ (by decide +kernel), meets _ _ _ _ (by decide +kernel),
    meets _ _ _ _ (by decide +kernel), meets _ _ _ _ (by decide +kernel), meets _ _ _ _ (by decide +kernel)⟩

/-- R191: BART reads 1 once the phase has ended; the last arrival flips the phase and counts the generation. -/
theorem test_barrier_results :
    (after (.bara c0 none 3) (at_ g0 (blk (bb ⟨0, 0xFFFF#16, true, 1, 0⟩))) (fun t => (t.block plainRef.key).map (fun b => b.bar 0 3))).join =
      some ⟨0, 0#16, false, 1, 0⟩ ∧
    (after (.bart c0 (.p 1) 3 (.imm 0#1)) (at_ g0 (blk (bb ⟨0, 0#16, true, 1, 0⟩))) (fun t => (t.group plainRef).map (fun g => g.reg (.p 0 1)))).join =
      some 1#64 := by decide +kernel

/-! ## Fences, atomics -/

theorem test_fences_meet :
    let orders (k : FenceKind) (sc : Scope) (o : Op) : Prop := o.cls = .ld ∨ ((k != .acq) = true ∧ o.cls = .st ∧ (sc ≠ .core ∨ o.kind ≠ .stg))
    let clean (e : Iss) : Prop := ∀ x ∈ (e.s.core e.g.core).buffer, x.retrans = false ∧ x.poison = false
    let hz (n : Nat) : Group := { gops .stg .st with hz := ⟨n, n, n, n⟩ }
    Meets (.fence c0 .default .rel .core) (hz 5) (k0 buffered ∘ fun s => { s with now := 5 }) (fun e => e.act ≠ 0#32 ∧ clean e ∧ (∀ o ∈ e.g.ops, ¬ orders .rel .core o) ∧
      e.g.hz.core ≤ e.s.nowAt 0) ∧
    Meets (.fence c0 .default .ar .dev) { hz 5 with ops := [] } (k0 copied ∘ fun s => { s with now := 5 }) (fun e => e.act ≠ 0#32 ∧ clean e ∧ (∀ o ∈ e.g.ops, ¬ orders .ar .dev o) ∧
      (∀ p ∈ e.g.pendObs, e.s.nextId ≤ p.2) ∧ max e.g.ob.dev e.g.hz.dev ≤ e.s.nowAt 0) ∧
    Meets (.fence c0 .default .rel .dev) (hz 0) id (fun e => e.act ≠ 0#32 ∧ clean e ∧ ¬ ∀ o ∈ e.g.ops, ¬ orders .rel .dev o) ∧
    Meets (.fence c0 .default .acq .sys) { g0 with ob := ⟨0, 0, 0, 9⟩ } id (fun e => e.act ≠ 0#32 ∧ clean e ∧ e.s.nowAt 0 < e.g.ob.dev) ∧
    (Issues (at_ g0 id) { c0 with p1 := 1 } kk g0 ∧ (issueOf (at_ g0 id) { c0 with p1 := 1 } kk g0).act = 0#32) :=
  ⟨meets _ _ _ _ (by decide +kernel), meets _ _ _ _ (by decide +kernel), meets _ _ _ _ (by decide +kernel), meets _ _ _ _ (by decide +kernel),
    ⟨rfl, ⟨g0, rfl, taken_plain _ _ rfl rfl⟩, by simp [g0, Group.launched], by decide +kernel⟩, by decide +kernel⟩
/-- The cluster of core 0 has a leaf: an atomic translates there (R326). -/
def tlbC (l : Leaf) (s : State) : State := s.modCluster 0 (fun c => { c with tlb := [⟨0, l⟩] })

theorem test_atomics_meet :
    let at1 (o : Ord) : Instr := .atom c0 .b32 .exch false o (.v 2) (.s 4) .none (.v 3)
    let clean (e : Iss) : Prop := ∀ x ∈ (e.s.core e.g.core).buffer, x.retrans = false ∧ x.poison = false
    let one (e : Iss) : Prop := clean e ∧ accessTids true e.act = [0] ∧ e.s.bufEntry 0 (leaf0.line (ad4 e 0)) = none ∧
      plain4 e (leaf0.line (ad4 e 0)) = true ∧
      ¬ (isHost (leaf0.line (ad4 e 0)) = true ∧ isPeer (leaf0.line (ad4 e 0)) = false ∧ leaf0.mtype = 1)
    let nothing (e : Iss) : Prop := ∀ o ∈ e.g.ops, ¬ (o.cls = .ld ∨ (o.cls = .st ∧ (Scope.dev ≠ .core ∨ o.kind ≠ .stg)))
    let f : State → State := tlbC leaf0
    let r (e : Iss) (g : Group) : Prop := e.Reaches true 4 Need.both (ad4 e) (fun _ => x0) (iss g f).s true
    let g9 : Group := { ga4 with hz := ⟨0, 0, 0, 9⟩ }
    (Meets (at1 .relaxed) ga4 f (fun e => r e ga4 ∧ one e) ∧ Meets (at1 (.acq .core)) ga4 f (fun e => r e ga4 ∧ one e) ∧
      Meets (at1 (.rel .dev)) ga4 f (fun e => r e ga4 ∧ (one e ∧ nothing e ∧ max (e.g.hz.at .dev) (e.g.ob.at .dev) ≤ e.s.nowAt 0)) ∧
      Meets (at1 (.rel .dev)) g9 f (fun e => r e g9 ∧ (one e ∧ ¬ (nothing e ∧ max (e.g.hz.at .dev) (e.g.ob.at .dev) ≤ e.s.nowAt 0))) ∧
      Meets (.acas c0 .b32 false .relaxed (.v 2) (.s 4) .none (.v 3) (.v 1)) ga4 f (fun e => r e ga4 ∧ one e) ∧
      Meets (.red c0 .n32 .add false .relaxed (.s 4) .none (.v 3)) ga4 f (fun e => r e ga4 ∧ one e) ∧
      Meets (at1 .relaxed) ga4 (tlbC leafh) (fun e => e.Reaches true 4 Need.both (ad4 e) (fun _ => ⟨leafh, 0⟩) (iss ga4 (tlbC leafh)).s true ∧
        (clean e ∧ isHost (leafh.line (ad4 e 0)) = true ∧ isPeer (leafh.line (ad4 e 0)) = false ∧ leafh.mtype = 1))) ∧
    Meets (.red c0 .n32 .add true .relaxed (.s 4) .none (.v 3)) ga4 id (fun e => e.act ≠ 0#32 ∧ e.s.block e.r.key = some Block.plain ∧
      ∀ t ∈ accessTids true e.act, (ad4 e t).toNat % 4 = 0 ∧ scratchBad Block.plain false 4 (ad4 e t) (scratchAt e.r e.g.slot (ad4 e t)) = false ∧
        scratchGone e.s 0 (scratchAt e.r e.g.slot (ad4 e t)) = false) := by
  refine ⟨?_, meets _ _ _ _ (by decide +kernel)⟩
  refine ⟨?_, ?_, ?_, ?_, ?_, ?_, ?_⟩ <;> exact meets_reach _ _ _ _ _ _ ad4 _ _ (by decide +kernel) rfl

/-- A queue header at 0x100: elements at 0x200, 3 of 4 places taken. -/
def hdr (count : Nat) : SliceLine := { y2 with data := BitVec.ofNat 1024 (0x200 + count * 2 ^ 64 + 4 * 2 ^ 128) }
theorem test_appends_meet :
    let f (n : Nat) : State → State := k0 (tlbOf leaf0) ∘ lines [(2, hdr n)]
    let i : Instr := .cst c0 .default .b32 (.v 2) 4 (.v 3)
    let opens (e : Iss) (n : Nat) : Prop := e.act ≠ 0#32 ∧ (Operand.s e 4).toNat % 32 = 0 ∧
      e.s.xlateAll 0 0 Need.both (fun _ => Operand.s e 4) false ((maskTids e.act).take 1) = ([(0, XlatResult.ok x0)], e.s) ∧ x0.colour = 0 ∧
      leaf0.flat (Operand.s e 4) % 32 = 0 ∧ (e.s.core 0).buffer = [] ∧ e.s.lineQuiet 0 (leaf0.line (Operand.s e 4)) = true ∧
      isHost (leaf0.line (Operand.s e 4)) = false ∧ homeDie (leaf0.line (Operand.s e 4)) = dieOfCore 0 ∧
      tblGet e.s.misses (leaf0.line (Operand.s e 4)) = none ∧ tblGet e.s.lines (leaf0.line (Operand.s e 4)) = some (hdr n) ∧ (hdr n).poison = false
    let word (n k : Nat) : Nat := (hdr n).data.toNat / 2 ^ (8 * (256 % 128 + 8 * k)) % 2 ^ 64
    Meets i ga4 (f 3) (fun e => opens e 3 ∧ maskTids e.act = [0] ∧ word 3 1 = 3 ∧ word 3 1 + 0 < word 3 2 ∧ (BitVec.ofNat 64 (word 3 0 + 3 * 4) : Word64).toNat % 4 = 0 ∧
      e.s.xlateAll 0 0 Need.write (fun _ => BitVec.ofNat 64 (word 3 0 + 3 * 4)) false [0] = ([(0, XlatResult.ok x0)], e.s) ∧ (e.s.core 0).copies = []) ∧
    (iss ga4 (f 3)).s.Numbered ∧ Meets i ga4 (f 4) (fun e => opens e 4 ∧ word 4 1 = 4 ∧ ¬ word 4 1 + 0 < word 4 2 ∧
      e.s.xlateAll 0 0 Need.write (fun _ => 0#64) false [] = ([], e.s)) ∧ (iss ga4 (f 4)).s.Numbered ∧
    Meets i (sr 4 0x110#64 g0) id (fun e => e.act ≠ 0#32 ∧ (Operand.s e 4).toNat % 32 ≠ 0) :=
  ⟨⟨by decide, at_issues _ _ rfl (by decide +kernel), ⟨by decide +kernel, by decide +kernel, rfl, rfl, by decide +kernel, rfl, by decide +kernel, by decide +kernel, by decide +kernel, rfl, rfl, rfl⟩,
      by decide +kernel, by decide +kernel, by decide +kernel, by decide +kernel, rfl, rfl⟩, numbered _ _ rfl rfl (by decide +kernel),
    ⟨by decide, at_issues _ _ rfl (by decide +kernel), ⟨by decide +kernel, by decide +kernel, rfl, rfl, by decide +kernel, rfl, by decide +kernel, by decide +kernel, by decide +kernel, rfl, rfl, rfl⟩,
      by decide +kernel, by decide +kernel, rfl⟩, numbered _ _ rfl rfl (by decide +kernel), meets _ _ _ _ (by decide +kernel)⟩

/-- R337 by hand: place 3 of 4, the count then 4; once more, all ones and the count stays. -/
theorem test_append_results :
    let f (n : Nat) : State → State := k0 (tlbOf leaf0) ∘ lines [(2, hdr n)]
    (after (.cst c0 .default .b32 (.v 2) 4 (.v 3)) (at_ ga4 (f 3)) (fun t => (t.group plainRef).map (fun g => (g.reg (.v 0 2), t.homeByte 0x108)))).join = some (3#64, 4#8) ∧
    (after (.cst c0 .default .b32 (.v 2) 4 (.v 3)) (at_ ga4 (f 4)) (fun t => (t.group plainRef).map (fun g => (g.reg (.v 0 2), t.homeByte 0x108)))).join =
      some (0xFFFFFFFF#64, 4#8) := by decide +kernel

def up (op : UpdateOp) : Update := ⟨256, op, 0, 0, plainRef, 7, some 0, some (.v 2), 0, none, false, 0x100#64, .group⟩
theorem test_updates_meet :
    let s (op : UpdateOp) : State := sent (.update (up op) none) (lines [(2, y2)])
    let z : ScratchPart := ⟨.bytes plainRef.key 0 64 false, 64#64, some 0, 4, .v 2, .b32, 0#128⟩
    let sc : State := sent (.scratchUpdate plainRef 7 [(z, .rmw .add .b32 1#64)]) (grp go)
    (∀ op, Due (s op) 0 ch0 (.update (up op) none) ∧ tblGet (s op).misses 2 = none ∧ tblGet (s op).lines 2 = some y2) ∧ (up (.cas .b32 1#64 0x55#64)).addr / 128 = 2 ∧
    (0x55#64).setWidth 32 = (fieldOf y2.data 0 4).setWidth 32 ∧ (0x56#64).setWidth 32 ≠ (fieldOf y2.data 0 4).setWidth 32 ∧
    Due (sent (.update (up (.put 0#1024 0#1024 false)) none) id) 0 ch0 (.update (up (.put 0#1024 0#1024 false)) none) ∧ tblGet (sent (.update (up (.put 0#1024 0#1024 false)) none) id).lines 2 = none ∧
    Due sc 0 ch0 (.scratchUpdate plainRef 7 [(z, .rmw .add .b32 1#64)]) ∧ sc.portBusy z.at_ = false ∧ z.ty = .b32 ∧ z.n = 4 ∧ (sent (.update (up (.put 0#1024 0#1024 false)) none) id).missCount 2 < 64 ∧ sc.block plainRef.key = some Block.plain ∧ sc.spPoisoned Block.plain 0 64 4 = false ∧
    sc.group plainRef = some go ∧ sc.mem.wf = true ∧ (∀ i j : Fin 4, shareKey Block.plain 0 (64 + i.val) = shareKey Block.plain 0 (64 + j.val) → i = j) :=
  ⟨fun _ => ⟨⟨[], 0, rfl⟩, rfl, rfl⟩, by decide, by decide +kernel, by decide +kernel, ⟨[], 0, rfl⟩, rfl, ⟨[], 0, rfl⟩, by decide +kernel, rfl, rfl, by decide +kernel, rfl, by decide +kernel, rfl, rfl, by decide +kernel⟩

theorem test_signals_meet :
    let f : State → State := k0 (tlbOf leaf0)
    let q : Update := { up (.signal .add 5#64) with who := none, dst := none }
    let gs (n : Nat) : Group := { go with hz := ⟨0, 0, 0, n⟩ }
    let s (ops : List Nat) (n : Nat) : State := sent (.signal q ops none) (grp (gs n) ∘ lines [(2, y2)])
    Meets (.signal c0 .set 4 (.s 5)) ga4 f (fun e => e.Reaches false 8 Need.both (fun _ => Operand.s e 4) (fun _ => x0) (iss ga4 f).s ∧
      (accessTids false e.act = [0] ∧ (e.s.core 0).buffer = [] ∧ e.s.bufEntry 0 (leaf0.line (Operand.s e 4)) = none ∧ isHost (leaf0.line (Operand.s e 4)) = false)) ∧
    (∀ l n, Due (s l n) 0 ch0 (.signal q l none) ∧ (s l n).group q.g = some (gs n)) ∧
    (¬ ∀ i ∈ [7], ∀ o ∈ (gs 0).ops, o.id ≠ i) ∧ (∀ i ∈ [6], ∀ o ∈ (gs 0).ops, o.id ≠ i) ∧ ((s [6] 9).nowAt q.core < (gs 9).hz.dev) ∧
    ((gs 0).hz.dev ≤ (s [6] 0).nowAt q.core ∧ isPeer 2 = false ∧ isHost 2 = false ∧ homeDie 2 = dieOfCore q.core ∧ q.addr / 128 = 2) ∧
    tblGet (s [6] 0).misses 2 = none ∧ tblGet (s [6] 0).lines 2 = some y2 ∧ q.holder = none ∧ LastPart (gs 0) 7 opl :=
  ⟨meets_reach _ _ _ _ _ _ (fun e _ => Operand.s e 4) _ _ (by decide +kernel) rfl, fun _ _ => ⟨⟨[], 0, rfl⟩, rfl⟩, by decide, by decide, by decide +kernel, by decide +kernel, rfl, rfl, rfl,
    rfl, by decide, rfl, by simp [opl]⟩

/-! ## Copies and multicast -/

/-- s2 a scratchpad address, s4 a memory address, s6:s7 a pair of descriptors. -/
def gcp (w0 w1 : Word64) : Group := sr 2 0#64 (sr 6 w0 (sr 7 w1 ga4))
def cq : CopyCmd := ⟨5, plainRef, 7, .cpy .inn, 0#64, 0x100#64, 15#64, 0#64, none, 0#64, 1#32, .running, 2, 0, [], [], [], [], [], 0, {}, 0, none, false⟩
def slotted (q : CopyCmd) (c : Core) : Core := { c with slots := [(0, q)] }
def opc : Op := ⟨7, .cp, .global, 0#64, 1#32, 1, [], [], false, [], []⟩
/-- The group of that command, whose handle s8 holds. -/
def gc : Group := sr 8 0x500000000#64 { g0 with ops := [opc] }

theorem test_copies_meet :
    let open_ (e : Iss) (k : CopyKind) (d a : SReg) (w1 : Word64) (bk : Option Nat) : Prop := e.act ≠ 0#32 ∧ e.s.freeSlot 0 = some 0 ∧ e.s.block e.r.key = some Block.plain ∧
      copyFaults e Block.plain k (Operand.s e d) (Operand.s e a) (Operand.s e 6) w1 bk = none
    let f : State → State := k0 (tlbOf leaf0)
    let rd (e : Iss) (g : Group) (need : Need) : Prop := e.Reaches false 1 need (fun _ => Operand.s e 4) (fun _ => x0) (iss g f).s
    let g : Group := gcp 255#64 0#64
    let gt : Group := gcp 0x40000F000F#64 0#64
    Meets (.cpy c0 .inn (.s 8) 2 4 6 (some 95)) g f (fun e => rd e g Need.read ∧ open_ e (.cpy .inn) 2 4 0#64 (some 95)) ∧
    Meets (.cpy c0 .out (.s 8) 4 2 6 none) g f (fun e => rd e g Need.write ∧ open_ e (.cpy .out) 4 2 0#64 none) ∧
    Meets (.cpyt c0 .f32 (.s 8) 2 4 6 none) gt f (fun e => rd e gt Need.read ∧ open_ e (.cpyt .f32) 2 4 (Operand.s e 7) none) ∧
    Meets (.cpys c0 .f32 .f32 .rne (.s 8) 4 2 6) gt f (fun e => rd e gt Need.write ∧ open_ e (.cpys .f32 .f32 .rne) 4 2 (Operand.s e 7) none) ∧
    Meets (.cpy c0 .ss .zero 2 4 6 none) (gcp 15#64 0#64) id (fun e => open_ e (.cpy .ss) 2 4 0#64 none) ∧
    Meets (.cpyw c0 .s8 (.s 8) 2 4 6 none) (sr 4 0x80#64 (gcp 0x100000000F0000#64 0#64)) ws1 (fun e => open_ e (.cpyw .s8) 2 4 (Operand.s e 7) none) :=
  ⟨meets_reach _ _ _ _ _ _ (fun e _ => Operand.s e 4) _ _ (by decide +kernel) rfl, meets_reach _ _ _ _ _ _ (fun e _ => Operand.s e 4) _ _ (by decide +kernel) rfl,
    meets_reach _ _ _ _ _ _ (fun e _ => Operand.s e 4) _ _ (by decide +kernel) rfl, meets_reach _ _ _ _ _ _ (fun e _ => Operand.s e 4) _ _ (by decide +kernel) rfl,
    meets _ _ _ _ (by decide +kernel), meets _ _ _ _ (by decide +kernel)⟩

theorem test_copy_faults_meet :
    let open_ (e : Iss) : Prop := e.act ≠ 0#32 ∧ e.s.freeSlot 0 = some 0 ∧ e.s.block e.r.key = some Block.plain
    Meets (.cpy c0 .inn (.s 8) 2 4 6 (some 95)) (gcp 256#64 0#64) id (fun e => open_ e ∧
      copyFaults e Block.plain (.cpy .inn) (Operand.s e 2) (Operand.s e 4) (Operand.s e 6) 0#64 (some 95) = some (.scratchRange, 0#64, 0#8)) ∧
    Meets (.cpyw c0 .s8 (.s 8) 2 4 6 none) (gcp 0#64 0#64) id (fun e => open_ e ∧
      copyFaults e Block.plain (.cpyw .s8) (Operand.s e 2) (Operand.s e 4) (Operand.s e 6) (Operand.s e 7) none = some (.pagePermRead, 0x100#64, 0x0B#8)) ∧
    Meets (.cpywPut c0 .zero 2 4 6) (gcp 0#64 0#64) id open_ ∧
    Meets (.cpy c0 .ss .zero 2 4 6 none) (sr 4 0x108#64 (gcp 0#64 0#64)) id (fun e => open_ e ∧ (Operand.s e 4).toNat % 16 ≠ 0) ∧
    Meets (.cpyt c0 .l6 .zero 2 4 6 none) (gcp 0x18001E0000#64 0#64) id (fun e => open_ e ∧ ((Operand.s e 6).toNat / 2 ^ 16 % 512 + 1) % 32 ≠ 0) :=
  ⟨meets _ _ _ _ (by decide +kernel), meets _ _ _ _ (by decide +kernel), meets _ _ _ _ (by decide +kernel), meets _ _ _ _ (by decide +kernel),
    meets _ _ _ _ (by decide +kernel)⟩

theorem test_copy_handles_meet :
    let mine (e : Iss) : Option (Nat × CopyCmd) := e.s.liveCopy e.r 0 (Operand.sdst e (.s 8))
    let fl : CopyCmd := { cq with next := 1, inFlight := [(0, [leaf0])] }
    let qb : CopyCmd := { cq with bk := some 3 }
    let cancel (e : Iss) (q : CopyCmd) (b : Block) : Prop := e.act ≠ 0#32 ∧ mine e = some (0, q) ∧ tblGet (e.s.core 0).slots 0 = some q ∧ q.g = e.r ∧ e.s.block e.r.key = some b
    let last (e : Iss) (q : CopyCmd) (b : Block) : Prop := cancel e q b ∧ q.inFlight = [] ∧ q.writing = [] ∧ q.holder = none ∧ e.g.ops.find? (fun o => o.id == q.op) = some opc
    Meets (.cpyq c0 9 (.s 8)) gc (k0 (slotted cq)) (fun e => mine e = some (0, cq)) ∧ Meets (.cpyq c0 9 .zero) gc (k0 (slotted cq)) (fun e => e.s.liveCopy e.r 0 (Operand.sdst e .zero) = none) ∧
    Meets (.cpyx c0 (.s 8)) gc (k0 (slotted fl)) (fun e => cancel e fl Block.plain ∧ ¬ (fl.inFlight = [] ∧ fl.writing = [])) ∧
    Meets (.cpyx c0 (.s 8)) gc (k0 (slotted cq)) (fun e => last e cq Block.plain ∧ cq.bk = none) ∧ opc.parts ≤ 1 ∧ opc.clobbered = [] ∧ opc.arrivals = [] ∧
    Meets (.cpyx c0 (.s 8)) gc (k0 (slotted qb) ∘ blk (bb ⟨256, 0#16, false, 2, 1⟩)) (fun e => last e qb (bb ⟨256, 0#16, false, 2, 1⟩) ∧ qb.dst.toNat < 0x7FFFF000 ∧
      0 ≤ ((bb ⟨256, 0#16, false, 2, 1⟩).bar 0 3).pend - (qb.kind.total qb.w0 - qb.done : Nat) ∧
      ((bb ⟨256, 0#16, false, 2, 1⟩).bar 0 3).arr ≠ ((bb ⟨256, 0#16, false, 2, 1⟩).bar 0 3).tgt) ∧
    Meets (.cpyxAll c0) gc (k0 (fun c => { c with slots := [(0, cq), (1, { fl with g := ref1 }), (2, { cq with kind := .mcld 0#25 .default })] })) (fun e => e.act ≠ 0#32 ∧
      ((e.s.core 0).slots.map Prod.fst).Nodup) :=
  ⟨meets _ _ _ _ (by decide +kernel), meets _ _ _ _ (by decide +kernel), meets _ _ _ _ (by decide +kernel), meets _ _ _ _ (by decide +kernel), by decide, rfl, rfl,
    meets _ _ _ _ (by decide +kernel), meets _ _ _ _ (by decide +kernel)⟩

def cp_ (q : CopyCmd) (f : State → State) : State := k0 (slotted q) (f (grp gc State.reset.seat))
/-- The group's fence, begun before the command, is under way. -/
def fenced : Group := { gc with holds := [⟨1#32, 0#64, .fence ⟨.rel, .dev, 3, [], none, 1#32⟩⟩] }
theorem test_units_meet :
    let here (s : State) (x : CopyCmd) : Prop := tblGet (s.core 0).slots 0 = some x ∧ x.isMcld = false
    let sends (s : State) (x : CopyCmd) : Prop := here s x ∧ x.state = .running ∧ x.next < x.units ∧ s.unitsOut 0 < 64 ∧ s.copiesRun x.g.key = true ∧
      (s.group x.g).all (fun g => !g.fencedBefore x.op) = true
    let vas (x : CopyCmd) : List Word64 := (x.memRanges x.next).flatMap Range.lines
    let t : State → State := k0 (tlbOf leaf0)
    let co : CopyCmd := { cq with kind := .cpy .out, dst := 0x100#64, src := 0#64, w0 := 7#64, units := 1 }
    (sends (cp_ cq t) cq ∧ vas cq = [0x100#64] ∧ (cp_ cq t).unitPages 0 0 0 Need.read (vas cq) = (.ok [leaf0], cp_ cq t)) ∧
    (sends (cp_ co t) co ∧ vas co = [0x100#64] ∧ (cp_ co t).unitPages 0 0 0 Need.write (vas co) = (.ok [leaf0], cp_ co t)) ∧
    (sends (cp_ cq id) cq ∧ (cp_ cq id).unitPages 0 0 0 Need.read (vas cq) = (.absent 0x100#64, cp_ cq id) ∧ (cp_ cq id).ctx 0 = some Ctx.plain) ∧
    (cp_ cq (k0 (tlbOf { leaf0 with r := false }))).unitPages 0 0 0 Need.read (vas cq) = (.fault .pagePermRead 0x100#64 0#8, cp_ cq (k0 (tlbOf { leaf0 with r := false }))) ∧
    here (k0 (slotted cq) (grp fenced State.reset.seat)) cq ∧ fenced.fencedBefore cq.op = true := by
  refine ⟨⟨by decide +kernel, rfl, rfl⟩, ⟨by decide +kernel, rfl, rfl⟩, ⟨by decide +kernel, rfl, rfl⟩, rfl, by decide +kernel, rfl⟩

/-- Distinct bytes of a share have distinct places. -/
theorem test_share_places (i j : Nat) (hi : i < 4096) (hj : j < 4096) (h : shareKey Block.plain 0 i = shareKey Block.plain 0 j) : i = j := by
  simp only [shareKey, Block.plain, sramKey, Nat.div_eq_of_lt hi, Nat.div_eq_of_lt hj, Nat.mod_eq_of_lt hi, Nat.mod_eq_of_lt hj] at h
  omega

/-- A command with its one unit under way, whose line has arrived; one that writes it. -/
def cl (bad : Bool) : CopyCmd := { cq with w0 := 7#64, units := 1, next := 1, inFlight := [(0, [leaf0])], got := [((0, 2), 0x55#1024, bad)] }
def co_ (st : CopyState) (wr : List (Nat × (Nat × Nat))) : CopyCmd :=
  { cl false with kind := .cpy .out, dst := 0x100#64, src := 0#64, got := [], state := st, writing := wr }

theorem test_landings_meet :
    let lands (s : State) (x : CopyCmd) : Prop := tblGet (s.core 0).slots 0 = some x ∧ x.isMcld = false ∧ tblGet x.inFlight 0 = some [leaf0] ∧ s.group x.g = some gc ∧
      (s.core 0).copies = []
    let ss : CopyCmd := { cl false with kind := .cpy .ss, state := .cancelling }
    let whole (y : Word64) : Prop := y.toNat % 128 = 0 ∧ leaf0.flat y % 128 = 0 ∧ leaf0.line y = 2 ∧
      ∀ i : Fin 128, leaf0.covers (y + BitVec.ofNat 64 i.val) = true ∧ leaf0.flat (y + BitVec.ofNat 64 i.val) = leaf0.flat y + i.val
    let s (x : CopyCmd) : State := cp_ x id
    (∀ x ∈ [cl true, cl false, { cl false with got := [] }, ss, co_ .running [], { cl false with next := 0 }, { cl false with writing := [(7, 1, 1)] }], lands (s x) x) ∧
    (s { cl false with got := [] }).landUnit 0 { cl false with got := [] } 0 [leaf0] = .wait ∧ (s (cl true)).landUnit 0 (cl true) 0 [leaf0] = .fault .eccUncorrectable ∧
    whole 0x100#64 ∧ (s (cl false)).block plainRef.key = some Block.plain ∧ scratchAt plainRef gc.slot (cl false).dst = .bytes plainRef.key 0 0 false ∧
    (cl false).units = (cl false).kind.unitCount (cl false).w0 ∧ (cl false).next = (cl false).units ∧ tblDel (cl false).inFlight 0 = [] ∧
    LastPart gc 7 opc ∧ (s (co_ .running [])).spPoisoned Block.plain 0 0 128 = false ∧ (∃ n ws, (s (co_ .running [])).landUnit 0 (co_ .running []) 0 [leaf0] = .writes n ws ∧ ws ≠ []) ∧
    ∃ s1, (s ss).landUnit 0 ss 0 [leaf0] = .done 128 s1 ∧ SameGroups (s ss) s1 ∧ tblGet (s1.core 0).slots 0 = some ss := by
  refine ⟨by decide +kernel, rfl, rfl, by decide +kernel, rfl, by decide +kernel, by decide +kernel, rfl, rfl, ⟨rfl, by decide, rfl, by simp [opc]⟩, by decide +kernel,
    ⟨128, _, rfl, by decide +kernel⟩, _, rfl, fun _ => rfl, rfl⟩

theorem test_unit_answers_meet :
    let w (n : Nat) : Update := { addr := 256, op := .put 0#1024 0#1024 false, core := 0, ctx := 0, g := plainRef, opId := 7, who := none, dst := none, colour := 0, holder := none, l0 := false, va := 0#64, tgt := .copy 0 0 7 n }
    let back (x : CopyCmd) : State := sent (.updateDone (w 0) 0#64 9 0 false) (fun s => k0 (slotted x) (grp gc s))
    let x (n : Nat) (more : List (Nat × (Nat × Nat))) : CopyCmd := { co_ .running ((0, n, 128) :: more) with inFlight := [] }
    let resp : State := sent (.loadResp 0 2 0x55#1024 none 0 (deviceObs 0) false (.copy 0 0 7 0)) (fun s => k0 (slotted (cl false)) (grp gc s))
    (∀ y ∈ [x 2 [], x 1 [], x 1 [(1, 1, 1)]], tblGet ((back y).core 0).slots 0 = some y ∧ (back y).group y.g = some gc ∧ Due (back y) 0 ch0 (.updateDone (w 0) 0#64 9 0 false)) ∧
    tblDel (x 1 []).writing 0 = [] ∧ (x 1 [(1, 1, 1)]).writing ≠ [] ∧ Due resp 0 ch0 (.loadResp 0 2 0x55#1024 none 0 (deviceObs 0) false (.copy 0 0 7 0)) ∧
    tblGet (resp.core 0).slots 0 = some (cl false) := by
  refine ⟨?_, rfl, by decide, ⟨[], 0, rfl⟩, rfl⟩
  intro y hy
  simp only [List.mem_cons, List.mem_nil_iff, or_false] at hy
  rcases hy with rfl | rfl | rfl <;> exact ⟨rfl, rfl, [], 0, rfl⟩

/-- The descriptor: one line, tag 9, two members, a hold. s2 the destination. -/
def gm (d a : Word64) : Group := sr 2 d (sr 4 a (sr 6 0x100010009#64 g0))
theorem test_mcld_meets :
    let i (bk : Option BReg) : Instr := .mcld c0 .default 2 4 6 0#25 bk
    let lines_ (e : Iss) : Nat := (Operand.s e 6).toNat / 2 ^ 22 % 2 ^ 9 + 1
    let d (e : Iss) : Nat := (Operand.s e 2).toNat % 2 ^ 32
    let open_ (e : Iss) : Prop := e.act ≠ 0#32 ∧ e.s.freeSlot 0 = some 0 ∧ e.s.block e.r.key = some Block.plain
    let align (e : Iss) : Prop := (Operand.s e 4).toNat % 128 = 0 ∧ d e % 128 = 0
    let range (e : Iss) : Prop := d e + 128 * lines_ e ≤ 4096
    let f : State → State := k0 (tlbOf leaf0)
    let two (_ : Iss) : List Word64 := [0xFF80#64, 0x10000#64]
    let leafB : Leaf := { leaf0 with base := 0x10000#64, colour := 5, cmode := 1 }
    let f2 : State → State := k0 (fun c => { c with tlb := [⟨0, leaf0⟩, ⟨0, leafB⟩] })
    let g2 : Group := sr 6 0x100410009#64 (gm 0#64 0xFF80#64)
    Meets (i (some 95)) (gm 3968#64 0x100#64) f (fun e => open_ e ∧ align e ∧ range e ∧ lines_ e = 1 ∧ e.s.xlateLines 0 0 [0x100#64] = ([(0x100#64, XlatResult.ok x0)], (iss (gm 3968#64 0x100#64) f).s) ∧
      x0.colour = 0 ∧ isPeer (leaf0.line 0x100#64) = false) ∧
    Meets (i none) (gm 64#64 0x100#64) f (fun e => open_ e ∧ ¬ align e) ∧ Meets (i none) (gm 4096#64 0x100#64) f (fun e => open_ e ∧ align e ∧ ¬ range e) ∧
    Meets (i none) g2 f2 (fun e => open_ e ∧ align e ∧ range e ∧ (List.range (lines_ e)).map (fun j => Operand.s e 4 + BitVec.ofNat 64 (128 * j)) = two e ∧
      e.s.xlateLines 0 0 (two e) = ([(0xFF80#64, XlatResult.ok x0), (0x10000#64, XlatResult.ok ⟨leafB, 5⟩)], (iss g2 f2).s)) :=
  ⟨⟨by decide, at_issues _ _ rfl (by decide +kernel), by decide +kernel, by decide +kernel, by decide +kernel, by decide +kernel, rfl, rfl, by decide +kernel⟩,
    meets _ _ _ _ (by decide +kernel), meets _ _ _ _ (by decide +kernel),
    ⟨by decide, at_issues _ _ rfl (by decide +kernel), by decide +kernel, by decide +kernel, by decide +kernel, by decide +kernel, rfl⟩⟩

def mr (j : JoinPoint) (nm : Nat) : McastReq := ⟨j, 2, 0, 9, nm, 1, .default, false, ⟨1, 0, 7, 0⟩⟩
def me (expect : Nat) : McastEntry := ⟨mr .home (expect - 1), false, false, expect, 16, [⟨0, 0, 7, 0⟩], 1⟩
theorem test_multicasts_meet :
    let s (r : McastReq) (es : List (Nat × McastEntry)) (n : Nat) : State := sent (.mcast r) (fun s => { lines [(2, y2)] s with mcast := es, now := n })
    let mq : CopyCmd := { cq with kind := .mcld 0#25 .default, units := 1, next := 1 }
    let ls : State := sent (.mcastLand ⟨0, 0, 7, 0⟩ 5#1024 false) (fun s => k0 (slotted mq) (grp gc s))
    let away : McastReq := { mr (.gateway 0) 0 with line := 2 ^ 30 + 2, hint := .home }
    (Due (s (mr .home 2) [] 0) 0 ch0 (.mcast (mr .home 2)) ∧ (s (mr .home 2) [] 0).mcastWait = [] ∧ (mr .home 2).nm ≠ 0 ∧ (s (mr .home 2) [] 0).missCount 2 < 64) ∧
    (∀ n, Due (s (mr .home 2) [(4, me n)] 16) 0 ch0 (.mcast (mr .home 2)) ∧ (s (mr .home 2) [(4, me n)] 16).mcast = [(4, me n)] ∧ (s (mr .home 2) [(4, me n)] 16).now ≤ (me n).deadline ∧
      (me n).req.line = (mr .home 2).line ∧ (me n).req.ctx = (mr .home 2).ctx ∧ (me n).req.tag = (mr .home 2).tag ∧ (me n).members.length < 64) ∧
    (me 3).count + 1 ≠ (me 3).expect ∧ (me 2).count + 1 = (me 2).expect ∧ tblGet (s (mr .home 2) [(4, me 2)] 16).misses 2 = none ∧ tblGet (s (mr .home 2) [(4, me 2)] 16).lines 2 = some y2 ∧
    (Due (s away [] 0) 0 ch0 (.mcast away) ∧ away.at_ = .gateway 0 ∧ away.nm = 0) ∧ (mr .home 2).hint ≠ .keep ∧ (me 3).deadline ≤ (s (mr .home 2) [(4, me 3)] 16).now ∧ ¬ (me 3).deadline ≤ (s (mr .home 2) [(4, me 3)] 15).now ∧
    Due ls 0 ch0 (.mcastLand ⟨0, 0, 7, 0⟩ 5#1024 false) ∧ tblGet (ls.core 0).slots 0 = some mq ∧ mq.op = 7 ∧ mq.isMcld = true ∧ ls.group mq.g = some gc ∧ (insertNew mq.landed 0).length = mq.units ∧
    (insertNew mq.landed 0).length ≠ { mq with units := 2 }.units :=
  ⟨⟨⟨[], 0, rfl⟩, rfl, by decide, by decide +kernel⟩, fun _ => ⟨⟨[], 0, rfl⟩, rfl, Nat.le_refl _, rfl, rfl, rfl, by show 1 < 64; decide⟩, by decide, by decide, rfl, rfl, ⟨⟨[], 0, rfl⟩, rfl, rfl⟩, by decide,
    by show (16 : Nat) ≤ 16; decide, by show ¬ (16 : Nat) ≤ 15; decide, ⟨[], 0, rfl⟩, rfl, rfl, rfl, rfl, by decide, by decide⟩

/-! ## Record mode -/

/-- Region 2 of context 0. -/
def rg (st : Nat) : Region := { Region.closed with state := st, views := [(sliceUnit 2, st)], frames := [0], dep := 3, departures := [4, 3, 0, 0] }
def cx (r : Region) : Ctx := { Ctx.plain with regions := [(2, r)] }
def region (r : Region) (s : State) : State := { s with ctxs := [(0, cx r)] }
def leafR : Leaf := { leaf0 with rec_ := true }
/-- Base s4 = 0; the descriptor of one page in s6. -/
def gr (a d : Word64) : Group := sr 4 a (sr 6 d g0)

theorem test_recon_meets :
    let i : Instr := .recon c0 (.s 9) 2#4 4 6
    let field (e : Iss) (p w : Nat) : Nat := (Operand.s e 6).toNat / 2 ^ p % 2 ^ w
    let asks (e : Iss) (x : Ctx) : Prop := e.act ≠ 0#32 ∧ e.s.changing e.r.key.ctx = false ∧ e.s.ctx e.r.key.ctx = (some x).map (fun x => { x with wdogFrom := 0 }) ∧ (Operand.s e 4).toNat % 65536 = 0 ∧ field e 16 2 ≠ 3 ∧ field e 0 13 + 1 = 1
    let f (l : Leaf) (st : Nat) : State → State := k0 (tlbOf l) ∘ region (rg st)
    let taken : State → State := k0 (tlbOf leafR) ∘ fun s => { s with ctxs := [(0, { Ctx.plain with regions := [(2, rg 0), (3, rg 1)] })] }
    let d : Word64 := 0x0009000000020000#64
    let st (e : Iss) : Nat := (e.s.region e.r.key.ctx 2).state
    let fr (l : Leaf) : Nat := frameOf l.place (l.pByte 0#64)
    Meets i (gr 0x8000#64 d) id (fun e => (Operand.s e 4).toNat % 65536 ≠ 0) ∧
    Meets i (gr 0#64 0x30000#64) id (fun e => (Operand.s e 4).toNat % 65536 = 0 ∧ field e 16 2 = 3) ∧
    Meets i (gr 0#64 d) (f leafR 1) (fun e => asks e (cx (rg 1)) ∧ e.s.pageChecks 0 0 0#64 1 = ([(0#64, PageCheck.ok leafR)], (iss (gr 0#64 d) (f leafR 1)).s) ∧ st e ≠ 0) ∧
    Meets i (gr 0#64 d) (f leaf0 0) (fun e => asks e (cx (rg 0)) ∧ e.s.pageChecks 0 0 0#64 1 = ([(0#64, PageCheck.ok leaf0)], (iss (gr 0#64 d) (f leaf0 0)).s) ∧ st e = 0 ∧ leaf0.rec_ = false) ∧
    Meets i (gr 0#64 d) taken (fun e => e.s.pageChecks 0 0 0#64 1 = ([(0#64, PageCheck.ok leafR)], (iss (gr 0#64 d) taken).s) ∧ st e = 0 ∧ leafR.rec_ = true ∧ e.s.frameTaken (fr leafR) = true) ∧
    Meets i (gr 0#64 d) (f leafR 0) (fun e => asks e (cx (rg 0)) ∧ e.s.pageChecks 0 0 0#64 1 = ([(0#64, PageCheck.ok leafR)], (iss (gr 0#64 d) (f leafR 0)).s) ∧ st e = 0 ∧ leafR.rec_ = true ∧ e.s.frameTaken (fr leafR) = false) ∧
    Meets i (gr 0#64 d) (f { leafR with w := false } 0) (fun e => asks e (cx (rg 0)) ∧ pagesFault (e.s.pageChecks 0 0 0#64 1).1 = some (.pagePermWrite, 0#64, 0#8)) :=
  ⟨meets _ _ _ _ (by decide +kernel), meets _ _ _ _ (by decide +kernel),
    ⟨by decide, at_issues _ _ rfl (by decide +kernel), by decide +kernel, rfl, by decide +kernel⟩, ⟨by decide, at_issues _ _ rfl (by decide +kernel), by decide +kernel, rfl, by decide +kernel, rfl⟩,
    ⟨by decide, at_issues _ _ rfl (by decide +kernel), rfl, by decide +kernel, rfl, by decide +kernel⟩,
    ⟨by decide, at_issues _ _ rfl (by decide +kernel), by decide +kernel, rfl, by decide +kernel, rfl, by decide +kernel⟩, meets _ _ _ _ (by decide +kernel)⟩

/-- A change of the context's region 2, with so many acknowledgements to come; a sampling that has them all. -/
def cg (left : Nat) (sel : Option Nat) : Change := { ctx := 0, region := 2, left := left, sel := sel, word := 0x100000002#64, sum := 7 }
def changing (q : Change) (s : State) : State := { region (rg 2) s with changes := [(5, q)] }

theorem test_region_commands_meet :
    let st (e : Iss) : Nat := (e.s.region e.r.key.ctx 2).state
    let m (i : Instr) (n : Nat) (P : Nat → Bool) : Bool := i.wellFormed && decide ((iss g0 (region (rg n))).act ≠ 0#32 ∧
      (iss g0 (region (rg n))).s.changing 0 = false ∧ (((iss g0 (region (rg n))).s.ctx 0).isSome = true) ∧ P (st (iss g0 (region (rg n)))) = true)
    let off : Instr := .recoff c0 2#4
    let rep : Instr := .replay c0 2#4
    let rer : Instr := .rerec c0 2#4
    [m off 0 (fun z => !(z != 0)), m off 3 (fun z => z != 0), m rep 2 (fun z => !(z == 1 || z == 3)), m rep 3 (fun z => z == 1 || z == 3), m rer 0 (fun z => !(z != 0)),
      m rer 2 (fun z => z != 0), m (.recq c0 .zero 2#4 0#3) 2 (fun z => z != 0), m (.recq c0 (.s 9) 2#4 5#3) 0 (fun z => z == 0)].all id = true ∧
    Issues (at_ g0 (region (rg 0))) c0 kk g0 ∧ Issues (at_ g0 (region (rg 2))) c0 kk g0 ∧ Issues (at_ g0 (region (rg 3))) c0 kk g0 ∧
    [Instr.recon c0 (.s 9) 2#4 4 6, off, rep, rer, .recq c0 (.s 9) 2#4 5#3].all Instr.wellFormed = true ∧
    Meets off g0 (changing (cg 1 none)) (fun e => e.act ≠ 0#32 ∧ ¬ e.s.changing e.r.key.ctx = false) := by
  refine ⟨by decide +kernel, ?_, ?_, ?_, by decide, meets _ _ _ _ (by decide +kernel)⟩ <;> exact at_issues _ _ rfl (by decide +kernel)

theorem test_region_changes_meet :
    let b (st : Nat) : Body := .region 0 2 st 5
    let s (st : Nat) (q : Change) : State := { changing q State.reset.seat with net := [⟨⟨.control, 100000, 3000⟩, b st, [], 0⟩] }
    let h : Hold := ⟨1#32, 0#64, .query 5 (.s 9)⟩
    let hq (q : Change) : State := changing q (at_ { g0 with holds := [h] } id)
    (∀ st q, Due (s st q) 0 ⟨.control, 100000, 3000⟩ (b st) ∧ (s st q).ctx 0 = some (cx (rg 2)) ∧ tblGet (s st q).changes 5 = some q) ∧
    (cg 2 none).left ≠ 1 ∧ (cg 1 none).left = 1 ∧ (cg 1 (some 3)).sel = some 3 ∧
    (∀ q, (hq q).group plainRef = some { g0 with holds := [h] } ∧ tblGet (hq q).changes 5 = some q) ∧
    ((s 3 (cg 2 none)).region 0 2).state = 2 ∧ (rg 2).dep < ((rg 2).departures[0]?).getD 0 ∧ ¬ (rg 2).dep < ((rg 2).departures[1]?).getD 0 :=
  ⟨fun _ _ => ⟨⟨[], 0, rfl⟩, rfl, rfl⟩, by decide, rfl, rfl, fun _ => ⟨rfl, rfl⟩, rfl, by decide, by decide⟩

/-- R175 by hand: word 0 of a region of one page that replays, where a unit had dropped something; a count. -/
theorem test_region_results :
    let h : Hold := ⟨1#32, 0#64, .query 5 (.s 9)⟩
    let r (sel : Option Nat) : Option Word64 := ((changing { cg 0 sel with conf := true } (at_ { g0 with holds := [h] } id)).settleHold plainRef h).group plainRef |>.bind (fun g => g.reg (.s 9))
    r (some 0) = some 0x100000302#64 ∧ r (some 5) = some 7#64 := by decide +kernel

def bs0 : BlockSlot := ⟨0, 0⟩
def bs1 : BlockSlot := ⟨1, 0⟩
def stq : StoreReq := { st2 with slot := some bs0 }
def rdq : ReadReq := { rd 2 (some 2048) (.l1 0 true) with slot := some bs1 }
def re (cons : List BlockSlot) : RecEntry := ⟨false, 2, 0, 2, bs0, cons⟩
theorem test_recording_meets :
    let f (n : Nat) (r : List RecEntry) (s : State) : State := { lines [(2, y2)] (region (rg n) s) with recorder := r }
    let st (n : Nat) (r : List RecEntry) : State := sent (.store stq true) (f n r)
    let rs (n : Nat) (r : List RecEntry) : State := sent (.read rdq true) (f n r)
    (∀ n r, Due (st n r) 0 ch0 (.store stq true) ∧ tblGet (st n r).misses 2 = none ∧ tblGet (st n r).lines 2 = some y2 ∧ (st n r).ctx 0 = some (cx (rg n)) ∧ tblGet (cx (rg n)).regions 2 = some (rg n)) ∧
    (∀ n r, Due (rs n r) 0 ch0 (.read rdq true) ∧ tblGet (rs n r).misses 2 = none ∧ tblGet (rs n r).lines 2 = some y2 ∧ (rs n r).ctx 0 = some (cx (rg n))) ∧
    (st 1 []).regionAt (sliceUnit 2) 0 2 = some (2, rg 1) ∧ (rs 2 []).regionAt (sliceUnit 2) 0 2 = some (2, rg 2) ∧ (rg 1).view (sliceUnit 2) = 1 ∧ (rg 2).view (sliceUnit 2) = 2 ∧ (st 1 []).entryOf 0 2 = none ∧
    ((st 1 []).recorder.filter (fun e => sameSlice e.line 2)).length < 16384 ∧ (rs 1 [re []]).entryOf 0 2 = some (re []) ∧ (re []).prod ≠ bs1 ∧ bs1 ∉ (re []).cons ∧
    (re [bs1, bs1, bs1, bs1]).cons.length = 4 ∧ (st 2 [re [bs0]]).entryOf 0 2 = some (re [bs0]) ∧ (st 2 [re [bs0]]).pushesFrom 2 = 0 ∧ (st 2 [re [bs0]]).coreOf 0 bs0 = some 0 ∧
    stq.via = none ∧ stq.keep = false ∧ (rs 2 []).entryOf 0 2 = none :=
  ⟨fun _ _ => ⟨⟨[], 0, rfl⟩, rfl, rfl, rfl, rfl⟩, fun _ _ => ⟨⟨[], 0, rfl⟩, rfl, rfl, rfl⟩, by decide +kernel, by decide +kernel, by decide +kernel, by decide +kernel, rfl, by decide +kernel, rfl,
    by decide, by decide, rfl, rfl, by decide +kernel, by decide +kernel, rfl, rfl, rfl⟩

theorem test_pushes_meet :
    let p : PushMsg := ⟨2, 0, 7#1024, 9, 2048, 0, 2, bs0, 0, 5⟩
    let s (g : Bool) (f : State → State) : State := sent (.push p g) f
    let full : State → State := k0 (fun c => { c with landing := List.replicate 16 p })
    let msg : Msg := ⟨⟨.time, 0, 1⟩, .storeDone 5 {}, [], 0⟩
    let w (n : Nat) (s : State) : State := { region (rg 2) s with pushWait := [(5, (n, msg))] }
    (Due (s false id) 0 ch0 (.push p false) ∧ ((s false id).core 0).landing.length < 16 ∧ (s false id).coreOf 0 bs0 = some 0 ∧ ((s false id).core 0).buffer = [] ∧ (s false id).storeOut 0 2 = false ∧
      tblGet ((s false id).core 0).copies 2 = none) ∧
    (Due (s false full) 0 ch0 (.push p false) ∧ ¬ ((s false full).core 0).landing.length < 16) ∧ ((full State.reset.seat).core 0).landing = p :: List.replicate 15 p ∧ ((full State.reset.seat).core 0).copies = [] ∧ (full State.reset.seat).l1Ways 0 ≠ 0 ∧
    tblGet ((k0 copied (full State.reset.seat)).core 0).copies 2 = some cp1 ∧ { p with w := 0 }.w ≤ cp1.wl ∧
    (Due (s true (fun s => { s with gateways := [((0, 2), gx)] })) 0 ch0 (.push p true) ∧ gx.fwds = []) ∧
    (∀ n, Due (sent (.pushAck p true) (w n)) 0 ch0 (.pushAck p true) ∧ tblGet (sent (.pushAck p true) (w n)).pushWait 5 = some (n, msg) ∧ (sent (.pushAck p true) (w n)).ctx 0 = some (cx (rg 2))) :=
  ⟨⟨⟨[], 0, rfl⟩, by decide +kernel, by decide +kernel, rfl, rfl, rfl⟩, ⟨⟨[], 0, rfl⟩, by decide +kernel⟩, rfl, rfl, by decide +kernel, rfl, by decide, ⟨⟨[], 0, rfl⟩, rfl⟩, fun _ => ⟨⟨[], 0, rfl⟩, rfl, rfl⟩⟩

/-! ## Colours -/

theorem test_colours_meet :
    let good (e : Iss) (n : Nat) : Prop := n ≠ 0 ∧ (e.g.thread 0).held.map Held.colour = [n]
    let f : State → State := k0 (tlbOf leaf5)
    let seen (e : Iss) (g : Group) : Prop := e.s.xlateAll 0 0 Need.read (ad4 e) false [0] = ([(0, XlatResult.ok ⟨leaf5, 5⟩)], (iss g f).s)
    let alone (e : Iss) (g : Group) : Prop := e.act = bitOf 0 ∧ accessTids true e.act = [0] ∧ (ad4 e 0).toNat % 4 = 0 ∧ seen e g ∧ (e.g.thread 0).holds 5 = false ∧ (e.g.thread 0).lbk = 0
    let h (n c : Nat) : Group := th0 (fun t => { t with held := List.replicate n ⟨c, 0, false, 0, 0⟩ }) ga4
    Meets (.mnote c0 (.imm 5#16)) g0 id (fun e => e.act ≠ 0#32) ∧ Meets (.mnotea c0 (.s 5)) g0 id (fun e => Operand.col e 0 (.s 5) = 0) ∧
    Meets (.mheld c0 (.v 3) 0#3) (h 1 5) id (fun e => (e.g.thread 0).held.length = 1) ∧
    (Meets (.clrd c0 (.v 3) m4) ga4 f (fun e => seen e ga4)) ∧
    Meets (.mwait c0 .zero (.imm 5#16) none) (h 1 5) id (fun e => e.act ≠ 0#32 ∧ good e 5 ∧ ∀ b ∈ (e.s.core 0).buffer, b.retrans = false ∧ b.poison = false) ∧
    Meets (.mwait c0 .zero (.imm 5#16) none) (h 1 6) id (fun e => e.act.getLsbD 0 = true ∧ ¬ good e 5) ∧
    (Meets (.ldg c0 .default .b32 (.v 2) m4) (h 7 5) (k0 (tlbOf { leaf5 with colour := 6 })) (fun e => e.act = bitOf 0 ∧ (∀ y ∈ (e.g.thread 0).held, y.colour ≤ 6) ∧ (e.g.thread 0).held.length < 8 ∧
      e.s.grantEntry 0 0 6 = none)) ∧
    Meets (.ldg c0 .default .b32 (.v 2) m4) (h 1 6) f (fun e => alone e (h 1 6) ∧ ∃ y ∈ (e.g.thread 0).held, 5 < y.colour) ∧
    Meets (.ldg c0 .default .b32 (.v 2) m4) (h 8 4) f (fun e => alone e (h 8 4) ∧ (∀ y ∈ (e.g.thread 0).held, y.colour ≤ 5) ∧ 8 ≤ (e.g.thread 0).held.length) ∧
    Meets (.ldg c0 .default .b32 (.v 2) m4) (h 1 4) f (fun e => alone e (h 1 4) ∧ (∀ y ∈ (e.g.thread 0).held, y.colour ≤ 5) ∧ (e.g.thread 0).held.length < 8 ∧ e.s.grantEntry 0 0 5 = none) :=
  ⟨meets _ _ _ _ (by decide +kernel), meets _ _ _ _ (by decide +kernel), meets _ _ _ _ (by decide +kernel), ⟨by decide, at_issues _ _ rfl (by decide +kernel), rfl⟩,
    meets _ _ _ _ (by decide +kernel), meets _ _ _ _ (by decide +kernel), meets _ _ _ _ (by decide +kernel),
    ⟨by decide, at_issues _ _ rfl (by decide +kernel), ⟨by decide +kernel, by decide +kernel, by decide +kernel, rfl, by decide +kernel, rfl⟩, by decide +kernel⟩,
    ⟨by decide, at_issues _ _ rfl (by decide +kernel), ⟨by decide +kernel, by decide +kernel, by decide +kernel, rfl, by decide +kernel, rfl⟩, by decide +kernel, by decide +kernel⟩,
    ⟨by decide, at_issues _ _ rfl (by decide +kernel), ⟨by decide +kernel, by decide +kernel, by decide +kernel, rfl, by decide +kernel, rfl⟩, by decide +kernel, by decide +kernel, rfl⟩⟩

/-- R349: MHELD of a colour that a called routine's frame holds. -/
theorem test_colour_results :
    regAfter (.mheld c0 (.v 3) 0#3) (th0 (fun t => { t with held := [⟨5, 3, false, 0, 0⟩] }) g0) (.v 0 3) = some 0x30005#64 ∧
    regAfter (.mheld c0 (.v 3) 7#3) (th0 (fun t => { t with held := [⟨5, 3, false, 0, 0⟩] }) g0) (.v 0 3) = some 0#64 := by decide +kernel

def wt (dl : Nat) (mw : Bool) : Waiter := { t := ⟨plainRef, 0⟩, unit := 1#32, lset := 0, dl := dl, mwait := mw }
def mon (x : Monitor) (s : State) : State := { s with monitors := [((0, 5), x)] }
def mn (o : Owner) (acq ws : List Waiter) : Monitor := ⟨o, acq, ws, 9⟩
theorem test_monitors_meet :
    let o : Waiter := { wt 0 false with t := ⟨plainRef, 1⟩ }
    let s (b : Body) (x : Monitor) : State := sent b (mon x)
    let gs (u : Option ThreadRef) : State := sent (.recall 0 5 0) (k0 (fun c => { c with grants := [((0, 5), ⟨u, 0, false, 4, 0⟩)] }))
    let eight : List Waiter := List.replicate 8 { wt 0 false with hw := true }
    let stays (s : State) : Bool := decide ((s.core 0).grants.length < 64) && s.blocks.any (fun b => b.1.ctx == 0 && b.2.cores.contains 0)
    let rel (wait : Option Waiter) : State := s (.monRelease 0 5 0 o.t 7 wait) (mn (.thread o) [] [])
    (∀ b x, Due (s b x) 0 ch0 b ∧ (s b x).monitor 0 5 = x) ∧ (mn .free [] []).own = .free ∧ (mn .free [] []).acq = [] ∧ (mn (.thread o) [] []).own = .thread o ∧
    (mn (.cached 0) [] []).own = .cached 0 ∧ (∀ u, Due (gs u) 0 ch0 (.recall 0 5 0) ∧ (gs u).grantEntry 0 0 5 = some ⟨u, 0, false, 4, 0⟩) ∧
    (mn (.thread o) eight []).acq.length + (mn (.thread o) eight []).wset.length = 8 ∧ (∀ y ∈ eight ++ [], y.hw = true) ∧ (wt 0 false).hw = false ∧
    (s (.acquire 0 5 (wt 0 false)) (mn (.thread o) eight [])).ctx 0 = some Ctx.plain ∧ (s (.acquire 0 5 (wt 0 false)) (mn (.thread o) eight [])).Tidy ∧
    (mn (.recalled 0) [wt 0 false] []).acq = [wt 0 false] ∧ (∀ w, stays (rel w) = true) ∧
    stays { rel none with blocks := [] } = false ∧ (mn (.thread { wt 0 false with t := ⟨plainRef, 2⟩ }) [] []).own ≠ .thread o ∧
    (mn (.thread o) [wt 0 false] []).acq = wt 0 false :: [] ∧ (wt 0 true).dl = 0 ∧
    (mn (.thread o) [] [wt 8 true]).wset.find? (fun y => y.t == ⟨plainRef, 0⟩) = some (wt 8 true) ∧ (wt 8 true).dl ≠ 0 :=
  ⟨fun _ _ => ⟨⟨[], 0, rfl⟩, rfl⟩, rfl, rfl, rfl, rfl, fun _ => ⟨⟨[], 0, rfl⟩, rfl⟩, by decide, by decide, rfl, rfl, ⟨rfl, by decide, by decide⟩, rfl, fun _ => rfl, by decide +kernel, by decide, rfl, rfl,
    by decide +kernel, by decide⟩

/-- The bytes of a record of the spill area have their own places. -/
theorem test_spill_places : ∀ i j : Fin 32,
    flatByte Ctx.plain.areaPlace (Ctx.plain.areaPfn * 65536 + i.val) = flatByte Ctx.plain.areaPlace (Ctx.plain.areaPfn * 65536 + j.val) → i = j := by decide +kernel

theorem test_grants_meet :
    let pk (w : Wait) : Group := th0 (fun t => { t with status := .parked w }) g0
    let s (gt : Nat) (g : Group) : State := { sent (.grant 0 5 (wt 0 false) gt false) (grp g) with now := 9 }
    let hd (l : List Held) (op : RelOp) : Group := { th0 (fun t => { t with held := l }) g0 with holds := [⟨bitOf 0, 24#64, .release op (bitOf 0) (bitOf 0) []⟩] }
    let d (l : List Held) (op : RelOp) : State := { grp (hd l op) State.reset.seat with now := 9 }
    let done (s : State) (g : Group) : Prop := (g.thread 0).lbk = 0 ∧ g.inHandler = false ∧ (∀ z ∈ (g.thread 0).held, z.hzc ≤ s.nowAt 0 ∧ z.owner = 0) ∧ s.txns = [] ∧ (s.core 0).buffer = [] ∧
      g.ops = [] ∧ (s.core 0).grants = [] ∧ ((g.thread 0).held.map Held.colour).Pairwise (fun x y => x < y) ∧ (∀ v : Tid, v ≠ 0 → (g.thread v).held = []) ∧ (s.core 0).copies = []
    let two : List Held := [⟨3, 0, false, 0, 0⟩, ⟨5, 1, false, 9, 0⟩]
    let w : Wait := .mwait 5 (some 2) 1 false
    (∀ gt g, Due (s gt g) 0 ch0 (.grant 0 5 (wt 0 false) gt false) ∧ (s gt g).group plainRef = some g ∧ ((s gt g).core 0).copies = []) ∧ (wt 0 false).unit = bitOf 0 ∧
    ((pk (.colour 5)).thread 0).lbk = 0 ∧ (pk (.colour 5)).inHandler = false ∧ ((pk (.colour 5)).thread 0).status = .parked (.colour 5) ∧ (9 ≤ (s 9 (pk (.colour 5))).nowAt 0) ∧
    ((pk w).thread 0).status = .parked w ∧ ((pk (.colour 5)).thread 0).isExited = false ∧ ((s 10 (pk (.colour 5))).nowAt 0 < 10) ∧
    (s 9 (th0 (fun t => { t with status := .exited }) g0)).hasThread (wt 0 false).t = false ∧
    done (d two .exit) (hd two .exit) ∧ (hd two .exit).holds = [⟨bitOf 0, 24#64, .release .exit (bitOf 0) (bitOf 0) []⟩] ∧
    done (d [⟨5, 1, false, 9, 0⟩] (.mwait none 8)) (hd [⟨5, 1, false, 9, 0⟩] (.mwait none 8)) :=
  ⟨fun _ _ => ⟨⟨[], 0, rfl⟩, rfl, rfl⟩, rfl, rfl, rfl, rfl, by decide +kernel, rfl, rfl, by decide +kernel, by decide +kernel, by decide +kernel, rfl, by decide +kernel⟩

/-! ## Tiles and matrix requests -/

def cl0 (f : Cluster → Cluster) (s : State) : State := s.modCluster 0 f
/-- Tile registers 0 to 2, of 16 by 16 FP32 elements, in one granule each; register 3 has the integer type. -/
def til (b : Nat) : TileReg := ⟨.f32, 16, 16, b, 1, false⟩
def tiles3 : List ((BlockKey × Nat) × TileReg) := [((plainRef.key, 0), til 0), ((plainRef.key, 1), til 1), ((plainRef.key, 2), til 2), ((plainRef.key, 3), ⟨.s32, 16, 16, 3, 1, false⟩)]
def tiled (c : Cluster) : Cluster := { c with tiles := tiles3 }
def rq0 (k : ReqKind) (ph : ReqPhase) (v : List Word64) : Request :=
  ⟨11, k, .nop c0, 0, 0, 1, 1, [(plainRef, 7)], plainRef, 0#64, 1#32, v, 0, 0#16, ph, none, [], [], none, [], 0, none⟩
def gtl (r n : Nat) : Group := sr 2 (BitVec.ofNat 64 r) (sr 4 (BitVec.ofNat 64 n) g0)
def blkg (g : Option (Nat × Nat)) : Block := { Block.plain with gang := g }

theorem test_tiles_meet :
    let i (ty : Ty) (n : TReg) : Instr := .tshp c0 ty n 2 4
    let legal (e : Iss) (ty : Ty) : Prop := 1 ≤ (Operand.s e 2).toNat ∧ (Operand.s e 2).toNat ≤ 512 ∧ 1 ≤ (Operand.s e 4).toNat ∧ (Operand.s e 4).toNat ≤ 512 ∧ (ty = .l6 → (Operand.s e 4).toNat % 32 = 0)
    let ng (e : Iss) (ty : Ty) : Nat := ((⟨ty, (Operand.s e 2).toNat, (Operand.s e 4).toNat⟩ : TileGeo).size + 4095) / 4096
    let free (e : Iss) (ty : Ty) (n k : Nat) : Prop := k + ng e ty ≤ 1024 ∧ ∀ y ∈ (e.s.cluster 0).tiles, y.1 ≠ (e.r.key, n) → y.2.ng = 0 ∨ k + ng e ty ≤ y.2.base ∨ y.2.base + y.2.ng ≤ k
    let ready (e : Iss) : Prop := e.act ≠ 0#32 ∧ e.s.block e.r.key = some Block.plain ∧ (e.s.cluster 0).table = []
    let full (c : Cluster) : Cluster := { c with tiles := [((plainRef.key, 1), ⟨.f32, 512, 512, 0, 1023, false⟩)] }
    let b1 (s : State) : State := blk { Block.plain with lr := { Block.plain.lr with ntile := 5 } } s
    Meets (i .f32 5) (gtl 512 16) (cl0 tiled) (fun e => ready e ∧ legal e .f32 ∧ e.s.mem.wf = true ∧ free e .f32 5 4) ∧
    Meets (i .l6 5) (gtl 1 32) id (fun e => ready e ∧ legal e .l6 ∧ free e .l6 5 0) ∧ Meets (i .f32 5) (gtl 0 0) (cl0 tiled) (fun e => ready e ∧ (Operand.s e 2).toNat = 0 ∧ (Operand.s e 4).toNat = 0) ∧
    Meets (i .f32 5) (gtl 16 16) b1 (fun e => e.act ≠ 0#32 ∧ (e.s.block e.r.key).map (fun b => b.lr.ntile) = some 5) ∧ Meets (i .f32 5) (gtl 513 1) id (fun e => ready e ∧ ¬ legal e .f32 ∧ (Operand.s e 2).toNat ≠ 0) ∧
    Meets (i .f32 0) (gtl 16 16) (cl0 (fun c => { tiled c with table := [(plainRef.key, rq0 (.tzero 0) .queued [])] })) (fun e => e.act ≠ 0#32 ∧ e.s.block e.r.key = some Block.plain ∧
      ∃ x ∈ (e.s.cluster 0).table, x.1 = e.r.key ∧ 0 ∈ x.2.kind.writes ++ x.2.kind.reads) ∧
    Meets (i .f32 5) (gtl 512 16) (cl0 full) (fun e => ready e ∧ legal e .f32 ∧ ng e .f32 = 8 ∧ ∀ k : Fin 1024, ¬ free e .f32 5 k.val) ∧
    (at_ (gtl 16 16) id).marked HoldKind.isTable = false ∧ (at_ { g0 with holds := [⟨1#32, 0#64, .table [11]⟩] } id).marked HoldKind.isTable = true :=
  ⟨meets _ _ _ _ (by decide +kernel), meets _ _ _ _ (by decide +kernel), meets _ _ _ _ (by decide +kernel), meets _ _ _ _ (by decide +kernel),
    meets _ _ _ _ (by decide +kernel), meets _ _ _ _ (by decide +kernel), meets _ _ _ _ (by decide +kernel), by decide +kernel, by decide +kernel⟩

theorem test_tile_waits_meet :
    let streams (e : Iss) (m : BitVec 8) : Prop := ∃ o ∈ e.g.ops, ∃ x ∈ (e.s.cluster 0).table, m.getLsbD x.2.stream = true ∧ (e.r, o.id) ∈ x.2.posters
    let scratch (e : Iss) : Prop := ∃ o ∈ e.g.ops, o.kind = .scratch ∧ o.cls = .st
    let ready (e : Iss) (b : Block) : Prop := e.act ≠ 0#32 ∧ e.s.block e.r.key = some b
    let q (c : Cluster) : Cluster := { tiled c with table := [(plainRef.key, rq0 (.tzero 0) .queued [])] }
    let gang (x : Option Gang) (s : State) : State := { blk (blkg (some (0, 2))) (cl0 tiled s) with gangs := (x.map (fun g => (gangKey plainRef.key 0, g))).toList }
    Meets (.twait c0 2#8) { g0 with ops := [opc] } (cl0 q) (fun e => ready e Block.plain ∧ ¬ streams e 2#8) ∧ Meets (.twait c0 1#8) { g0 with ops := [opc] } (cl0 q) (fun e => ready e Block.plain ∧ streams e 1#8) ∧
    Meets (.tfence c0) (gops .scratch .ld) id (fun e => ready e Block.plain ∧ ¬ scratch e) ∧ Meets (.tfence c0) (gops .scratch .st) id (fun e => ready e Block.plain ∧ scratch e) ∧
    Meets (.tgangOn c0 0) g0 (gang none) (fun e => ready e (blkg (some (0, 2))) ∧ tblGet e.s.gangs (gangKey e.r.key 0) = none) ∧
    Meets (.tgangOn c0 0) g0 (gang (some ⟨5, [(1, ⟨0, til 0, 0, []⟩)]⟩)) (fun e => ready e (blkg (some (0, 2))) ∧ 
      tblGet e.s.gangs (gangKey e.r.key 0) = some ⟨5, [(1, ⟨0, til 0, 0, []⟩)]⟩ ∧ (til 0).ty = (e.s.tile 0 e.r.key 0).ty) ∧
    Meets (.tgangOn c0 0) g0 id (fun e => ready e Block.plain ∧ Block.plain.gang = none) ∧ Meets (.tgangOff c0) g0 (gang none) (fun e => ready e (blkg (some (0, 2))) ∧ (e.s.cluster 0).table = []) ∧
    Meets (.tgangOff c0) g0 id (fun e => ready e Block.plain ∧ Block.plain.gang = none ∧ (e.s.cluster 0).table = []) ∧
    Meets (.tgangOff c0) g0 (cl0 (fun c => { tiled c with table := [(plainRef.key, { rq0 (.tzero 0) .queued [] with gang := some 5 })] })) (fun e => ready e Block.plain ∧
      ∃ x ∈ (e.s.cluster 0).table, x.1 = e.r.key ∧ x.2.gang ≠ none) :=
  ⟨meets _ _ _ _ (by decide +kernel), meets _ _ _ _ (by decide +kernel), meets _ _ _ _ (by decide +kernel), meets _ _ _ _ (by decide +kernel),
    meets _ _ _ _ (by decide +kernel), meets _ _ _ _ (by decide +kernel), meets _ _ _ _ (by decide +kernel), meets _ _ _ _ (by decide +kernel), meets _ _ _ _ (by decide +kernel),
    meets _ _ _ _ (by decide +kernel)⟩

/-- s2 and s3 share addresses, s4 a memory address, s6:s7 a descriptor. -/
def gmx (w0 w1 : Word64) : Group := sr 2 0x800#64 (sr 3 0#64 (sr 6 w0 (sr 7 w1 ga4)))
theorem test_matrix_requests_meet :
    let ready (e : Iss) : Prop := e.act ≠ 0#32 ∧ e.s.block e.r.key = some Block.plain ∧ (e.s.cluster 0).table = []
    let named (e : Iss) (l : List TReg) : Prop := ∀ n ∈ l, n.val < Block.plain.lr.ntile ∧ (e.s.tile 0 e.r.key n).rows ≠ 0
    let span (e : Iss) (a : Word64) (lo hi : Int) : Prop := a.toNat % 64 = 0 ∧ spanBad Block.plain e.r e.g.slot a lo hi = false ∧ scratchGone e.s 0 (scratchAt e.r e.g.slot a) = false
    let product (e : Iss) (td ta tb : TReg) : Prop := let t := e.s.tile 0 e.r.key
      (t ta).ty = (t tb).ty ∧ accTy (t ta).ty = some (t td).ty ∧ (t ta).cols = (t tb).cols ∧ (t td).rows = (t ta).rows ∧ (t td).cols = (t tb).rows ∧ td ≠ ta ∧ td ≠ tb
    let touched (e : Iss) : List Word64 := let q := drainShape (e.s.tile 0 e.r.key 1) (Operand.s e 6); if q.2 = 0 then [] else drainTouched (Operand.s e 4) (Operand.s e 6) 4 q.1 q.2
    let rq : Rq := ⟨1, 2, 0#6⟩
    let f : State → State := cl0 tiled
    let h : State → State := tlbC leaf0 ∘ cl0 tiled
    let g : Group := gmx 0x4000100010#64 (BitVec.ofNat 64 (127 * 2 ^ 41 + 95 * 2 ^ 34 + 3 * 2 ^ 48 + 16 * 2 ^ 16 + 16))
    Meets (.tld c0 7 0 2) g f (fun e => ready e ∧ named e [0] ∧ span e (Operand.s e 2) 0 (til 0).size) ∧ Meets (.tst c0 7 2 0) g f (fun e => ready e ∧ named e [0] ∧ span e (Operand.s e 2) 0 (til 0).size) ∧
    Meets (.tzero c0 1 0) g f (fun e => ready e ∧ named e [0]) ∧ Meets (.tcvt c0 .f32 1 .rne 0 1) g f (fun e => ready e ∧ named e [0, 1] ∧ (e.s.tile 0 e.r.key 0).ty = .f32) ∧
    Meets (.mma c0 rq 0 1 2) g f (fun e => ready e ∧ named e [0, 1, 2] ∧ product e 0 1 2) ∧
    Meets (.mloop c0 rq 0 1 2 2 6) (sr 6 0#64 g) f (fun e => ready e ∧ named e [0, 1, 2] ∧ product e 0 1 2 ∧ Block.plain.gang = none ∧ span e (Operand.s e 2) 0 (til 1).size ∧
      span e (Operand.s e (SReg.up 2 1)) 0 (til 2).size ∧ (Operand.s e (SReg.up 6 1)).toNat / 2 ^ 41 % 128 = 127 ∧ (Operand.s e (SReg.up 6 1)).toNat / 2 ^ 34 % 128 = 95 ∧ 95 < Block.plain.lr.nbar) ∧
    Meets (.tdrain c0 .add .spad 7 3 2 1 6 (some 95)) g f (fun e => ready e ∧ named e [1] ∧ span e (Operand.s e 2) 0 (til 1).size) ∧
    Meets (.tdrain c0 .wr .mem 7 3 4 1 6 none) g h (fun e => ready e ∧ named e [1] ∧ (Operand.s e 4).toNat % 4 = 0 ∧ (Operand.s e 6).toNat / 2 ^ 32 % 4 = 0 ∧ (e.s.core 0).buffer = [] ∧ touched e ≠ []) ∧
    (let e := iss g h; e.s.xlateWrites 0 0 (touched e) = ((touched e).map (fun a => (a, XlatResult.ok x0)), e.s)) ∧
    Meets (.tld c0 7 8 2) g (blk { Block.plain with lr := { Block.plain.lr with ntile := 8 } }) (fun e => e.act ≠ 0#32 ∧ (e.s.block e.r.key).map (fun b => b.lr.ntile) = some 8) ∧
    Meets (.tld c0 7 8 2) g f (fun e => ready e ∧ (e.s.tile 0 e.r.key 8).rows = 0) ∧ Meets (.tld c0 7 0 2) (sr 2 32#64 g) f (fun e => ready e ∧ named e [0] ∧ (Operand.s e 2).toNat % 64 ≠ 0) ∧
    Meets (.mma c0 rq 0 1 3) g f (fun e => ready e ∧ named e [0, 1, 3] ∧ ¬ product e 0 1 3) :=
  ⟨meets _ _ _ _ (by decide +kernel), meets _ _ _ _ (by decide +kernel), meets _ _ _ _ (by decide +kernel), meets _ _ _ _ (by decide +kernel), meets _ _ _ _ (by decide +kernel),
    meets _ _ _ _ (by decide +kernel), meets _ _ _ _ (by decide +kernel), meets _ _ _ _ (by decide +kernel), by rfl, meets _ _ _ _ (by decide +kernel), meets _ _ _ _ (by decide +kernel),
    meets _ _ _ _ (by decide +kernel), meets _ _ _ _ (by decide +kernel)⟩

def opt : Op := { opc with cls := .tl }
def gt7 : Group := { g0 with ops := [opt] }
def eng (busy : Option (Nat × Nat)) (l : List (BlockKey × Request)) (s : State) : State :=
  cl0 (fun c => { tiled c with table := l, enabled := true, busy := busy }) (grp gt7 s)
def key2 : BlockKey := ⟨0, 0, 1⟩
theorem test_passes_meet :
    let st (l : List (BlockKey × Request)) : State := eng none l State.reset.seat
    let waits (s : State) (k : BlockKey) (r : Request) : Prop := s.block k = some Block.plain ∧ Block.plain.status = .running ∧ r.phase = .queued ∧ r.need ≤ r.posts ∧ r.gang = none
    let busy (s : State) (r : Request) : Prop := (s.cluster 0).busy = some (11, 5) ∧ s.request? 0 11 = some (plainRef.key, r) ∧ r.raced = [] ∧ r.clash = [] ∧ r.posters = [(plainRef, 7)] ∧ s.group plainRef = some gt7 ∧
      r.gang = none ∧ s.mem.wf = true ∧ s.poison = [] ∧ opt.arrivals = [] ∧ (gt7.pendingTrap = none) ∧ ∀ n ∈ r.kind.reads, (s.tile 0 plainRef.key n).undef = false
    let bs (r : Request) : State := eng (some (11, 5)) [(plainRef.key, r)] State.reset.seat
    let two : State := { st [(plainRef.key, rq0 (.tzero 0) .queued []), (key2, { rq0 (.tzero 1) .queued [] with id := 12, pri := 3 })] with blocks := [(plainRef.key, Block.plain), (key2, Block.plain)] }
    (∀ k, ((st [(plainRef.key, rq0 k .queued [0#64])]).cluster 0).busy = none ∧ ((st [(plainRef.key, rq0 k .queued [0#64])]).cluster 0).enabled = true ∧
      ((st [(plainRef.key, rq0 k .queued [0#64])]).cluster 0).table = [(plainRef.key, rq0 k .queued [0#64])] ∧ waits (st [(plainRef.key, rq0 k .queued [0#64])]) plainRef.key (rq0 k .queued [0#64])) ∧
    (∀ x y z, (rq0 (.tzero 0) .queued []).kind ≠ .mloop x y z) ∧ scratchAt plainRef gt7.slot 0#64 = .bytes plainRef.key 0 0 false ∧
    (st [(plainRef.key, rq0 (.tld 0) .queued [0#64])]).spPoisoned Block.plain 0 0 (til 0).size = false ∧
    waits two plainRef.key (rq0 (.tzero 0) .queued []) ∧ waits two key2 { rq0 (.tzero 1) .queued [] with id := 12, pri := 3 } ∧ (plainRef.key, 0) ≠ (key2, 0) ∧ ((st []).cluster 0).table = [] ∧
    (∀ y ∈ [(ReqKind.tld 0, [0#64]), (.tzero 0, []), (.tst 0, [0#64]), (.tcvt .rne 0 1, []), (.mma 0 1 2, []), (.mloop 0 1 2, [0#64, 0#64, 0#64, 0#64]), (.tdrain .wr .spad 1 none, [0#64, 0#64]), (.tdrain .wr .mem 1 none, [0x100#64, 0x1000100#64])], busy (bs (rq0 y.1 .granted y.2)) (rq0 y.1 .granted y.2)) ∧
    (let q := drainLines [leaf0] (((bs (rq0 (.tdrain .wr .mem 1 none) .granted [])).drainElems 0 (til 1) 0x1000100#64).map (fun y => (drainAddr 0x100#64 0x1000100#64 4 y.1 y.2.1, y.2.2))); q ≠ [] ∧ ∀ y ∈ q, isPeer y.1 = false) ∧ LastPart gt7 7 opt ∧ (til 0).size < 4096 ∧
    (let s := bs (rq0 (.tcvt .rne 0 1) .granted []); (s.tile 0 plainRef.key 0).ty ≠ .l6 ∧ (s.tile 0 plainRef.key 0).rows = (s.tile 0 plainRef.key 1).rows ∧
      (s.tile 0 plainRef.key 0).cols = (s.tile 0 plainRef.key 1).cols ∧ 15 < (s.tile 0 plainRef.key 0).rows ∧ 15 < (s.tile 0 plainRef.key 0).cols) ∧ accTy (til 1).ty = some (til 0).ty ∧ (til 0).rows ≤ 512 :=
  by
  refine ⟨fun _ => ⟨rfl, rfl, rfl, rfl, rfl, rfl, by show 1 ≤ 1; decide, rfl⟩, nofun, by decide +kernel, by decide +kernel, ⟨rfl, rfl, rfl, by decide, rfl⟩, ⟨rfl, rfl, rfl, by decide, rfl⟩,
    by decide, rfl, by decide +kernel, by decide +kernel, ⟨rfl, by decide, rfl, by simp [opt, opc]⟩, by decide +kernel, by decide +kernel, by decide, by decide⟩

theorem test_drains_meet :
    let r (k : DrainKind) (n : Nat) : Request := rq0 (.tdrain .add k 1 none) (.draining n) []
    let one : List (Nat × Word64) := [(0, 5#64)]
    let upd : Update := { up (.drain .add .f32 one) with dst := none, tgt := .drain 0 11 }
    let sc (els : List (Nat × Word64)) (b : Bool) : Body := .drain plainRef.key 0 11 0 64 .add .f32 els b
    let s (b : Body) (k : DrainKind) (n : Nat) : State := sent b (fun s => lines [(2, y2)] (eng none [(plainRef.key, r k n)] s))
    let mine (s : State) (k : DrainKind) (n : Nat) : Prop := s.request? 0 11 = some (plainRef.key, r k n) ∧ (r k n).id = 11 ∧ (r k n).phase = .draining n ∧ (r k n).posters = [(plainRef, 7)] ∧
      (r k n).holder = none ∧ (r k n).clash = [] ∧ s.group plainRef = some gt7 ∧ s.block plainRef.key = some Block.plain
    (∀ b k n, Due (s b k n) 0 ch0 b ∧ mine (s b k n) k n) ∧ tblGet (s (.update upd none) .mem 1).misses 2 = none ∧ tblGet (s (.update upd none) .mem 1).lines 2 = some y2 ∧ upd.addr / 128 = 2 ∧
    (s (sc one false) .spad 1).portBusy (.bytes plainRef.key 0 0 true) = false ∧ (s (sc one false) .spad 1).spPoisoned Block.plain 0 64 4 = false ∧ (s (sc one false) .spad 1).mem.wf = true ∧
    (64 + 0) / 4 ≠ (64 + 4) / 4 :=
  ⟨fun _ _ _ => ⟨⟨[], 0, rfl⟩, rfl, rfl, rfl, rfl, rfl, rfl, rfl, rfl⟩, rfl, rfl, rfl, by decide +kernel, by decide +kernel, rfl, by decide⟩

/-! ## Queues and launches -/

def qq (kind : Nat) (cl : Bool) (recs : List QRec) : Queue := { Queue.none with kind := kind, cl := cl, recs := recs }
def cq4 : Ctx := { Ctx.plain with qcount := 4 }
/-- Queue 2 of a context that has four. -/
def queued (q : Queue) (s : State) : State := { s with queues := [((0, 2), q)], ctxs := [(0, cq4)] }
/-- s3 the queue, s2 a share address, s4 a memory address. -/
def gq : Group := sr 2 64#64 (sr 3 2#64 (sr 4 0x400#64 g0))
def qr : QRec := ⟨List.replicate 16 1#8, 0, none, false, 5⟩

theorem ok_of {α : Type} (x : Except Nat α) (h : x.toBool = true) : ∃ a, x = .ok a := by
  cases x with
  | error _ => cases h
  | ok a => exact ⟨a, rfl⟩
theorem error_of {α : Type} (x : Except Nat α) (h : x.toBool = false) : ∃ k, x = .error k := by
  cases x with
  | error k => exact ⟨k, rfl⟩
  | ok _ => cases h

theorem test_queues_meet :
    let queue (e : Iss) : Queue := e.s.queue 0 ((Operand.s e 3).toNat % 2 ^ 16)
    let base (e : Iss) (kinds : List Nat) : Prop := e.act = bitOf 0 ∧ e.s.block e.r.key = some Block.plain ∧ (Operand.s e 3).toNat % 2 ^ 16 < cq4.qcount ∧ (queue e).kind ∈ kinds
    let place (e : Iss) : Prop := (Operand.vs e 32 0 (.s 2)).toNat % 16 = 0 ∧ scratchAt e.r e.g.slot (Operand.vs e 32 0 (.s 2)) = .bytes plainRef.key 0 64 false ∧
      scratchBad Block.plain false 16 (Operand.vs e 32 0 (.s 2)) (.bytes plainRef.key 0 64 false) = false ∧ scratchGone e.s 0 (.bytes plainRef.key 0 64 false) = false
    let released (e : Iss) : Prop := e.g.ops = [] ∧ max e.g.hz.dev e.g.ob.dev ≤ e.s.nowAt 0 ∧ (e.s.core 0).buffer = []
    let push (e : Iss) : Prop := base e [1] ∧ (queue e).cl = false ∧ place e ∧ released e ∧ e.s.spPoisoned Block.plain 0 64 16 = false
    let pop (e : Iss) : Prop := base e [1] ∧ place e
    let full : Queue := qq 1 false (List.replicate 4096 ⟨[], 0, none, false, 0⟩)
    let spoilt (s : State) : State := { queued (qq 1 false []) s with poison := [.byte (shareKey Block.plain 0 64)] }
    Meets (.qpush c0 (.p 1) 3 (.s 2)) gq (queued (qq 1 false [qr])) (fun e => push e ∧ (∀ y ∈ (queue e).recs, y.backing = false) ∧ e.s.storeUsed 2 < 4096 ∧ (queue e).poppers = []) ∧
    Meets (.qpush c0 .zero 3 (.s 2)) gq (queued full) (fun e => push e ∧ 4096 ≤ e.s.storeUsed 2 ∧ (queue e).bcap ≤ ((queue e).recs.filter (fun y => y.backing)).length) ∧
    Meets (.qpush c0 (.p 1) 3 (.s 2)) gq (queued (qq 2 true [])) (fun e => base e [1, 2] ∧ (queue e).cl = true) ∧
    Meets (.qpush c0 (.p 1) 3 (.s 2)) gq spoilt (fun e => base e [1] ∧ (queue e).cl = false ∧ place e ∧ e.s.spPoisoned Block.plain 0 64 16 = true) ∧
    Meets (.qpop c0 true (.p 1) 3 (.s 2)) gq (queued (qq 1 false [qr])) (fun e => pop e ∧ (queue e).recs = [qr] ∧ (e.s.core 0).buffer = [] ∧ e.s.mem.wf = true) ∧
    Meets (.qpop c0 true .zero 3 (.s 2)) gq (queued (qq 1 false [])) (fun e => pop e ∧ (queue e).recs = [] ∧ (queue e).cl = false) ∧
    Meets (.qpop c0 false (.p 1) 3 (.s 2)) gq (queued (qq 1 true [])) (fun e => pop e ∧ (queue e).recs = [] ∧ (queue e).cl = true) ∧
    Meets (.qpop c0 false .zero 3 (.s 2)) gq (queued (qq 1 true [])) (fun e => pop e ∧ (queue e).recs = [] ∧ (queue e).cl = true) ∧
    Meets (.qpop c0 false (.p 1) 3 (.s 2)) gq (queued (qq 1 false [])) (fun e => pop e ∧ (queue e).recs = [] ∧ (queue e).cl = false) ∧
    Meets (.qstat c0 (.s 9) 3 false) gq (queued (qq 3 false [])) (fun e => base e [0, 1, 2, 3]) ∧
    Meets (.qstat c0 (.v 9) 3 true) (sr 3 4#64 gq) (queued (qq 3 false [])) (fun e => e.act ≠ 0#32 ∧ cq4.qcount ≤ (Operand.s e 3).toNat % 2 ^ 16) :=
  by refine ⟨?_, ?_, ?_, ?_, ?_, ?_, ?_, ?_, ?_, ?_, ?_⟩ <;> exact meets _ _ _ _ (by decide +kernel)

/-- A launch record: one block of one group, its entry 0, its one run at 0x4000; with `bad` no run. -/
def rec128 (bad : Bool) : SliceLine := { y2 with data := BitVec.ofNat 1024 (0x4000 * 2 ^ 64 + 32 * 2 ^ 240 + 0x180 * 2 ^ 256 + 2 ^ 384 + 16 * 2 ^ 392 + (if bad then 0 else 2 ^ 432) + 2 ^ 736) }
def record (bad : Bool) (s : State) : State := { pt s with lines := (8, rec128 bad) :: (pt s).lines }
theorem test_launches_meet :
    let f (bad : Bool) : State → State := k0 (tlbOf leaf0) ∘ record bad ∘ queued (qq 3 false [])
    let i : Instr := .launch c0 (.p 1) 3 (.s 4)
    let queue (e : Iss) : Queue := e.s.queue 0 ((Operand.s e 3).toNat % 2 ^ 16)
    let base (e : Iss) : Prop := e.act = bitOf 0 ∧ e.s.block e.r.key = some Block.plain ∧ (Operand.s e 3).toNat % 2 ^ 16 < cq4.qcount ∧ (queue e).kind = 3 ∧ (queue e).cl = false ∧
      (Operand.vs e 64 0 (.s 4)).toNat % 128 = 0 ∧ e.g.ops = [] ∧ max e.g.hz.dev e.g.ob.dev ≤ e.s.nowAt 0 ∧ (e.s.core 0).buffer = []
    let seen (e : Iss) : Prop := e.s.xlateAll 0 0 Need.read (fun _ => Operand.vs e 64 0 (.s 4)) false [0] = ([(0, XlatResult.ok x0)], e.s)
    let read (e : Iss) := e.s.readLaunch 0 ((List.range 128).map (fun i => e.s.firmByte (leaf0.flat (Operand.vs e 64 0 (.s 4)) + i))) false
    let sound (e : Iss) : Prop := e.s.linePoisoned (leaf0.flat (Operand.vs e 64 0 (.s 4)) / 128) = false
    let bad (s : State) : State := { f false s with lines := (8, { rec128 false with poison := true }) :: (pt s).lines }
    Meets i gq (f false) (fun e => base e ∧ sound e ∧ Block.plain.phase = none ∧ (read e).toBool = true ∧ e.s.launchRoom 0 2 (dieOfCore 0) (queue e) = some false) ∧ seen (iss gq (f false)) ∧ (∃ x, read (iss gq (f false)) = .ok x) ∧
    Meets i gq (f true) (fun e => base e ∧ sound e) ∧ Meets i gq bad (fun e => base e ∧ ¬ sound e) ∧ seen (iss gq bad) ∧ seen (iss gq (f true)) ∧ ∃ k, read (iss gq (f true)) = .error k :=
  ⟨meets _ _ _ _ (by decide +kernel), rfl, ok_of _ (by decide +kernel), meets _ _ _ _ (by decide +kernel), meets _ _ _ _ (by decide +kernel), rfl, rfl, error_of _ (by decide +kernel)⟩

theorem test_bins_meet :
    let bin (bad : Bool) (now : Nat) (x : Queue) : State := { record bad (queued { x with tmpl := 0x400#64 } State.reset) with now := now }
    let due (s : State) (x : Queue) : Prop := x.kind = 2 ∧ x.recs ≠ [] ∧ x.error = none ∧ (x.ncoal ≤ x.recs.length ∨ (x.timer ≠ 0 ∧ (x.recs.head?.map QRec.since).getD 0 + x.timer ≤ s.now))
    let full : Queue := { qq 2 false [qr, qr] with ncoal := 2 }
    let late : Queue := { qq 2 false [qr] with ncoal := 0, timer := 10 }
    let early : Queue := { qq 2 false [qr] with ncoal := 2, timer := 10 }
    let bs : List Byte := (List.range 128).map (fun i => (bin false 0 full).firmByte (0x400 + i))
    let back : Queue := qq 1 false [qr, { qr with backing := true }]
    due (bin false 0 full) full ∧ due (bin false 15 early) early ∧ ¬ due (bin false 14 early) early ∧ ¬ due (bin false 0 (qq 2 false [])) (qq 2 false []) ∧
    (bin false 0 full).launchesUsed 2 < 64 ∧ (bin false 0 full).firmBytes 0 0x400#64 128 = some bs ∧ (∃ x, (bin false 0 full).readLaunch 0 bs false = .ok x) ∧
    (bin false 0 late).queue 0 2 = { late with tmpl := 0x400#64 } ∧ late.ncoal * (16 * (late.rsz + 1)) ≤ 0 ∧ (∃ k, (bin true 0 full).readLaunch 0 ((bin true 0 full).homeBytes 0x400 128) false = .error k) ∧
    (queued back State.reset).queue 0 2 = back ∧ back.kind ≠ 3 ∧ back.recs = [qr] ++ { qr with backing := true } :: [] ∧ (queued back State.reset).storeUsed 2 < 4096 := by
  refine ⟨by decide +kernel, by decide +kernel, by decide +kernel, by decide +kernel, by decide +kernel, by decide +kernel, ok_of _ (by decide +kernel), rfl, by decide, error_of _ (by decide +kernel),
    rfl, by decide, rfl, by decide +kernel⟩

/-! ## Distribution and the end of groups and blocks -/

def lrr : LaunchRec := { LaunchRec.plain with nbar := 0 }
def la : Launch := ⟨0, some 2, 0, 3, lrr, 0#64, [(0, 0)], .device 0, 0, [0, 0, 0, 0], 0, 0, 0, true, [], none, 5, false⟩
def launched (core : Nat) : State := { State.reset with launches := [(5, la)], ctxs := [(0, Ctx.plain)], cores := [(core, { Core.reset with enabled := true })] }
def seat0 : GroupSeat := ⟨0, 0, 128, 0, 0⟩
theorem test_placement_meets :
    let sound (s : State) : Prop := la.lr.gang = false ∧ la.records = [] ∧ ([seat0].map GroupSeat.grp).Nodup ∧ tblGet s.launches 5 = some la ∧ s.mem.wf = true ∧ ∀ x ∈ s.launches, x.2.tag < 65536
    let seated (s : State) (die core : Nat) : Bool := match s.seats la.lr die with
      | some [([c], [⟨0, [⟨0, 0, 128, 0, 0⟩]⟩])] => c == core
      | _ => false
    let idle (s : State) : State := s.modDie 0 (fun d => { d with idle := true })
    sound (launched 0) ∧ ((launched 0).die 0).idle = false ∧ (launched 0).resumes 0 = false ∧ (launched 0).gridsOf 0 = [] ∧ (launched 0).pick 0 false = some (5, la, 0) ∧ seated (launched 0) 0 0 = true ∧
    ((idle (launched 0)).die 0).idle = true ∧ ((idle (launched 0)).pick 0 false).isSome = true ∧ sound (launched 576) ∧ (launched 576).placeable 3 = false ∧ (launched 576).resumes ((3 + 1) % 4) = false ∧
    (launched 576).pick ((3 + 1) % 4) true = some (5, la, 0) ∧ seated (launched 576) 3 576 = true ∧ (launched 0).placeable 0 = true := by
  and_intros <;> decide +kernel

/-- Lines that a walk reads are held at the homes: it does not depend on the bytes of memory. -/
def visits (t : State) (va : Word64) : Nat → Nat → Nat → Bool
  | 0, _, _ => true
  | fuel + 1, place, pfn =>
    let b := flatByte place (pfn * 65536 + 8 * levelIndex va (3 - fuel))
    let x : Word64 := leBits 64 (t.homeBytes b 8)
    (List.range 8).all (fun i => (tblGet t.lines ((b + i) / 128)).isSome) && visits t va fuel (x.extractLsb' 10 3).toNat (x.extractLsb' 32 32).toNat

theorem homeBytes_same (s t : State) (hl : s.lines = t.lines) : ∀ (n b : Nat), (∀ i, i < n → (tblGet t.lines ((b + i) / 128)).isSome = true) → s.homeBytes b n = t.homeBytes b n
  | 0, _, _ => rfl
  | n + 1, b, h => by
    have h0 : s.homeByte b = t.homeByte b := by
      obtain ⟨x, hx⟩ := Option.isSome_iff_exists.mp (h 0 (by omega))
      simp only [State.homeByte, State.lineData, hl, Nat.add_zero] at hx ⊢
      rw [hx]
    have hn : s.homeBytes (b + 1) n = t.homeBytes (b + 1) n :=
      homeBytes_same s t hl n (b + 1) (fun i hi => by have := h (i + 1) (by omega); rwa [show b + (i + 1) = b + 1 + i by omega] at this)
    simp only [State.homeBytes, h0, hn]

theorem walkFrom_same (s t : State) (hl : s.lines = t.lines) (hr : ∀ lv x, leafReasons s lv x = leafReasons t lv x) (g : Bool) (va : Word64) :
    ∀ fuel place pfn, visits t va fuel place pfn = true → walkFrom s g va fuel place pfn = walkFrom t g va fuel place pfn
  | 0, _, _, _ => rfl
  | fuel + 1, place, pfn, h => by
    simp only [visits, Bool.and_eq_true, List.all_eq_true, List.mem_range] at h
    have hb := homeBytes_same s t hl 8 (flatByte place (pfn * 65536 + 8 * levelIndex va (3 - fuel))) h.1
    have ih := walkFrom_same s t hl hr g va fuel _ _ h.2
    simp only [walkFrom, hb, hr, ih]

/-- A preamble of 256 bytes from 0x1000 to weight-store address 0x80. -/
def lpre : Launch := { la with origin := .host, preambled := false, lr := { lrr with wpre := true, wlen := 256, wdst := 0x80, wsrc := 0x1000#64 } }
def cwt : Ctx := { Ctx.plain with ws := [(0x80, 256), (0, 0), (0, 0), (0, 0)] }
def spre : State := pt { State.reset with launches := [(5, lpre)], ctxs := [(0, cwt)] }
theorem test_preamble_meets :
    spre.launches.find? (fun x => x.2.ctx == 0 && x.2.q == some 2 && x.2.seq == 0) = some (5, lpre) ∧ tblGet spre.launches 5 = some lpre ∧ spre.ctx 0 = some cwt ∧ lpre.preambled = false ∧
    spre.itsTurn lpre = true ∧ spre.blocks = [] ∧ spre.saved = [] ∧ lpre.lr.wdst + lpre.lr.wlen ≤ 2 ^ 32 ∧ spre.mem.wf = true ∧
    ∀ i, i < 256 → (∃ r ∈ cwt.ws, r.1 ≤ lpre.lr.wdst + i ∧ lpre.lr.wdst + i < r.1 + r.2) ∧ leaf0.flat (0x1000#64 + BitVec.ofNat 64 i) < 2 ^ 58 ∧ isPeer (leaf0.flat (0x1000#64 + BitVec.ofNat 64 i) / 128) = false ∧
      ∀ (m : Memory) (p : List PoisonKey) (n : Nat),
        ({ spre with mem := m, poison := p, fresh := n } : State).firmFlat 0 (0x1000#64 + BitVec.ofNat 64 i) = some (leaf0.flat (0x1000#64 + BitVec.ofNat 64 i)) := by
  refine ⟨rfl, rfl, rfl, rfl, by decide +kernel, rfl, rfl, by decide, rfl, fun i hi => ⟨⟨(0x80, 256), by decide, by show 0x80 ≤ 0x80 + i; omega, by show 0x80 + i < 0x80 + 256; omega⟩, ?_, ?_, ?_⟩⟩
  · exact (show ∀ j : Fin 256, leaf0.flat (0x1000#64 + BitVec.ofNat 64 j.val) < 2 ^ 58 by decide +kernel) ⟨i, hi⟩
  · exact (show ∀ j : Fin 256, isPeer (leaf0.flat (0x1000#64 + BitVec.ofNat 64 j.val) / 128) = false by decide +kernel) ⟨i, hi⟩
  · intro m p n
    have h : ∀ j : Fin 256, visits spre (0x1000#64 + BitVec.ofNat 64 j.val) 3 0 0 = true ∧
        spre.firmFlat 0 (0x1000#64 + BitVec.ofNat 64 j.val) = some (leaf0.flat (0x1000#64 + BitVec.ofNat 64 j.val)) := by decide +kernel
    have hw := walkFrom_same { spre with mem := m, poison := p, fresh := n } spre rfl (fun _ _ => rfl) false _ 3 0 0 (h ⟨i, hi⟩).1
    have hd : spre.ctx 0 = some cwt := rfl
    have hw2 : ({ spre with mem := m, poison := p, fresh := n } : State).walk 0 (0x1000#64 + BitVec.ofNat 64 i) = spre.walk 0 (0x1000#64 + BitVec.ofNat 64 i) := by
      have hc : ({ spre with mem := m, poison := p, fresh := n } : State).ctx 0 = some cwt := rfl
      simp only [State.walk, hc, hd]
      rw [show cwt.glob = false from rfl, show cwt.rootPlace = 0 from rfl, show cwt.rootPfn = 0 from rfl, hw]
    have hp : ∀ l, ({ spre with mem := m, poison := p, fresh := n } : State).peerDead l = spre.peerDead l := fun _ => rfl
    rw [← (h ⟨i, hi⟩).2]
    simp only [State.firmFlat, hw2, hp]

theorem test_enables_meet :
    let d (f : Die → Die) (n : Nat) : State := { State.reset with dies := [(0, f Die.reset)], now := n }
    (let s := d (fun x => { x with coresOn := 8, lastEnable := 0 }) 100; ¬ ((s.die 0).idle = true ∨ 192 ≤ (s.die 0).coresOn ∨ ((s.die 0).coresOn ≠ 0 ∧ s.now < (s.die 0).lastEnable + 100))) ∧
    (let s := d (fun x => { x with enginesOn := 47 }) 25; ¬ ((s.die 0).idle = true ∨ 48 ≤ (s.die 0).enginesOn ∨ ((s.die 0).enginesOn ≠ 0 ∧ s.now < (s.die 0).lastEngine + 25))) ∧
    (let s := d id 100000; ¬ ((s.die 0).idle = true ∨ s.dieEmpty 0 = false ∨ s.now < (s.die 0).emptySince + 100000)) ∧ 1242 * 33 / 10 / 4096 = 1 ∧ 1241 * 33 / 10 / 4096 = 0 := by decide +kernel

def gx0 : Group := g0.modThreads 0xFFFFFFFF#32 (fun _ t => { t with status := .exited })
theorem test_group_exits_meet :
    let s (g : Group) (l : List (GroupRef × Group)) (n : Nat) : State := { State.reset.seat with groups := (plainRef, g) :: l, now := n }
    let left (s : State) (g : Group) : Prop := s.group plainRef = some g ∧ s.block plainRef.key = some Block.plain ∧ g.alive = 0#32 ∧ g.leaving = false ∧ g.pendingTrap = none ∧ (s.core 0).buffer = []
    let gh : Group := { gx0 with hz := ⟨0, 0, 0, 9⟩ }
    left (s gx0 [(ref1, g0)] 0) gx0 ∧ gx0.ops = [] ∧ max gh.hz.dev gh.ob.dev ≤ (s gh [] 9).nowAt 0 ∧ (∃ x ∈ (s gx0 [(ref1, g0)] 0).groups, x.1.key = plainRef.key ∧ x.1 ≠ plainRef ∧ x.2.leaving = false) ∧
    left (s gh [] 9) gh ∧ ((s gh [] 9).mem.wf = true ∧ ((s gh [] 9).lines.map Prod.fst).Nodup ∧ ((s gh [] 9).groups.map Prod.fst).Nodup) ∧ ((s gh [] 9).cluster Block.plain.cluster).table = [] ∧ Block.plain.phase = none ∧
    left (s gh [] 8) gh ∧ (s gh [] 8).nowAt 0 < max gh.hz.dev gh.ob.dev ∧ (s gh [] 9).copiesOf plainRef.key = [] ∧ (∀ x ∈ (s gh [] 9).groups, x.1.key = plainRef.key → x.1 ≠ plainRef → x.2.leaving = true) ∧
    (k0 (slotted cq) (s gh [] 9)).copiesOf plainRef.key ≠ [] ∧ left (k0 (slotted cq) (s gh [] 9)) gh := by
  refine ⟨⟨rfl, rfl, by decide +kernel, rfl, rfl, by decide +kernel⟩, rfl, by decide +kernel, ⟨(ref1, g0), by simp, rfl, by decide, rfl⟩, ⟨rfl, rfl, by decide +kernel, rfl, rfl, by decide +kernel⟩,
    ⟨rfl, by decide +kernel, by decide +kernel⟩, rfl, rfl, ⟨rfl, rfl, by decide +kernel, rfl, rfl, by decide +kernel⟩, by decide +kernel,
    by decide +kernel, by decide +kernel, by decide +kernel, rfl, rfl, by decide +kernel, rfl, rfl, by decide +kernel⟩

theorem test_block_ends_meet :
    let l2 : Launch := { la with lr := { lrr with nblk := 2 } }
    let b (st : BlockStatus) (dev : Nat) : Block := { Block.plain with launch := 5, status := st, hz := ⟨0, 0, 0, dev⟩ }
    let s (st : BlockStatus) (dev n : Nat) (g : Group) : State := { State.reset.seat with groups := [(plainRef, g)], blocks := [(plainRef.key, b st dev)], launches := [(5, l2)], now := n }
    let counted (s : State) (x : Block) : Prop := s.block plainRef.key = some x ∧ x.gang = none ∧ x.phase = none ∧ tblGet s.launches x.launch = some l2 ∧ l2.retired + 1 < l2.lr.nblk
    let gl : Group := { gx0 with leaving := true }
    counted (s .running 9 9 gl) (b .running 9) ∧ gl.leaving = true ∧ ((s .running 9 9 gl).core 0).slots = [] ∧ ((s .running 9 9 gl).cluster 0).table = [] ∧ (s .running 9 8 gl).now < (b .running 9).hz.dev ∧
    counted (s .terminating 0 0 g0) (b .terminating 0) ∧ g0.ops = [] ∧ g0.pendingTrap = none ∧ (∀ v, (g0.thread v).held = []) ∧ (s (.dying 7) 0 (7 + 2 ^ 20) g0).block plainRef.key = some (b (.dying 7) 0) :=
  ⟨⟨rfl, rfl, rfl, rfl, by show 0 + 1 < 2; decide⟩, rfl, rfl, rfl, by show 8 < 9; decide, ⟨rfl, rfl, rfl, rfl, by show 0 + 1 < 2; decide⟩, rfl, rfl, by decide +kernel, rfl⟩

theorem test_watchdog_meets :
    let g : Group := (gx0.modThread 3 (fun t => { t with status := .parked (.sleep none) }))
    let c : Ctx := { Ctx.plain with wdog := 50#64, wdogFrom := 7 }
    let s (n : Nat) : State := { State.reset.seat with groups := [(plainRef, g)], ctxs := [(0, c)], now := n }
    (s 56).ctx 0 = some c ∧ (s 56).now < c.wdogFrom + (if c.wdog = 0#64 then 2 ^ 30 else c.wdog.toNat) ∧ c.wdogFrom + (if c.wdog = 0#64 then 2 ^ 30 else c.wdog.toNat) ≤ (s 57).now ∧ (s 57).wdogHeld 0 = false ∧
    (s 57).groups = [(plainRef, g)] ∧ (s 57).blocks = [(plainRef.key, Block.plain)] ∧ ((s 57).cluster Block.plain.cluster).table = [] ∧ (g.thread 3).status = .parked (.sleep none) ∧ (g.thread 3).deadline = none ∧
    (∀ v, v ≠ 3 → (g.thread v).isExited = true) :=
  ⟨rfl, by decide +kernel, by decide +kernel, by decide +kernel, rfl, rfl, rfl, by decide +kernel, by decide +kernel, by decide +kernel⟩

theorem test_saving_meets :
    let b : Block := { Block.plain with status := .stopping }
    let s : State := { State.reset.seat with blocks := [(plainRef.key, b)] }
    State.reset.seat.block plainRef.key = some Block.plain ∧ Block.plain.status ≠ .stopping ∧ s.block plainRef.key = some b ∧ b.status = .stopping ∧ (∃ x ∈ s.groups, x.1.key = plainRef.key) ∧
    (∀ x ∈ s.groups, x.1.key = plainRef.key → x.2.ops = [] ∧ x.2.holds = [] ∧ x.2.savedHolds = [] ∧ x.2.pendObs = [] ∧ x.2.pendingTrap = none ∧ x.2.leaving = false ∧ x.2.alive ≠ 0#32 ∧ (s.core x.2.core).buffer = []) ∧
    (s.core 0).slots = [] ∧ (s.cluster b.cluster).table = [] := by
  refine ⟨rfl, by decide, rfl, rfl, ⟨(plainRef, g0), by decide +kernel, rfl⟩, by decide +kernel, rfl, rfl⟩

/-! ## The mailbox -/

/-- A command stands in the mailbox of started firmware; it is under way in `way`. -/
def words (l : List Word64) : List Word64 := l ++ List.replicate (32 - l.length) 0#64
def mb (code : Nat) (args : List Word64) (s : State) : State :=
  { s with fw := { s.fw with started := true }, mbx := { s.mbx with cmd := BitVec.ofNat 64 code, args := words args } }
def way (code : Nat) (args : List Word64) (s : State) : State :=
  { mb code args s with mbx := { (mb code args s).mbx with busy := some (BitVec.ofNat 64 code, words args), begun := true, mark := 3 } }
def takes (code : Nat) (s : State) : Bool := s.fw.started && (s.fw.umpire == .running) && s.mbx.busy.isNone && s.mbx.cmd.toNat % 2 ^ 16 == code
def arg (s : State) (j : Nat) : Word64 := (s.mbx.args[j]?).getD 0#64

theorem tblGet_of_mem {α : Type} : ∀ (l : List (Nat × α)) (k : Nat) (v : α), (k, v) ∈ l → ∃ w, tblGet l k = some w ∧ (k, w) ∈ l
  | [], _, _, h => absurd h (List.not_mem_nil)
  | (j, x) :: r, k, v, h => by
    by_cases hk : j = k
    · exact ⟨x, by simp [tblGet, hk], by simp [hk]⟩
    · rcases List.mem_cons.mp h with h | h
      · exact absurd (congrArg Prod.fst h).symm hk
      · obtain ⟨w, h1, h2⟩ := tblGet_of_mem r k v h
        exact ⟨w, by simp [tblGet, hk, h1], by simp [h2]⟩

/-- Context create: a page table at 0, one queue, an area of one page and no thread; a queue table off its alignment. -/
def ccArgs : List Word64 := [0#64, 0#64, 0#64, 0#64, 0#64, 0#64, 0#64, 0#64, 0#64, 1#64, 0#64, 0x1000000000#64, 1#64]
def allCtx : State := { State.reset with ctxs := (List.range 65536).map (fun n => (n, Ctx.plain)) }
theorem test_context_create_meets :
    let s (x : State) : State := mb 1 ccArgs x
    let bad : State := mb 1 (ccArgs.set 8 8#64) State.reset
    takes 1 (s State.reset) = true ∧ (∀ x ∈ createBad (s State.reset) (arg (s State.reset)), x.2 = false) ∧ (s State.reset).ctx 0 = none ∧
    32 * ((arg (s State.reset) 10).toNat % 2 ^ 32) + (Config.dugoutNeed ((arg (s State.reset) 10).toNat % 2 ^ 32)).val ≤ (arg (s State.reset) 12).toNat % 2 ^ 32 * 65536 ∧
    takes 1 (s allCtx) = true ∧ (createBad (s allCtx) (arg (s allCtx))).all (fun x => !x.2) = true ∧ (∀ j, j < 65536 → (s allCtx).ctx j ≠ none) ∧
    takes 1 bad = true ∧ (createBad bad (arg bad)).find? (fun x => x.2) = some (8, true) := by
  refine ⟨by decide +kernel, by decide +kernel, rfl, ?_, by decide +kernel, by decide +kernel, ?_, by decide +kernel, by decide +kernel⟩
  · have h := (Config.dugoutNeed 0).isLt
    have h0 : (Config.dugoutNeed 0).val = 0 := by omega
    show 32 * 0 + (Config.dugoutNeed 0).val ≤ 1 * 65536
    omega
  · intro j hj h
    obtain ⟨w, h1, -⟩ := tblGet_of_mem allCtx.ctxs j Ctx.plain (List.mem_map.mpr ⟨j, List.mem_range.mpr hj, rfl⟩)
    have h2 : tblGet allCtx.ctxs j = none := h
    rw [h1] at h2; cases h2

theorem test_context_commands_meet :
    let s1 (code : Nat) (a : List Word64) : State := mb code a { State.reset with ctxs := [(0, Ctx.plain)] }
    let s2 (code : Nat) (a : List Word64) : State := mb code a State.reset.seat
    let idle (s : State) : Bool := s.blocks.all (fun x => x.1.ctx != 0) && s.saved.all (fun x => x.1.ctx != 0)
    (takes 2 (s1 2 [7#64]) = true ∧ (arg (s1 2 [7#64]) 0).toNat % 2 ^ 16 = 7 ∧ (s1 2 [7#64]).ctx 7 = none) ∧
    (takes 2 (s2 2 []) = true ∧ (s2 2 []).ctx 0 = some Ctx.plain ∧ (plainRef.key, Block.plain) ∈ (s2 2 []).blocks ∧ plainRef.key.ctx = 0 ∧ (s2 2 []).saved = []) ∧
    (takes 2 (s1 2 []) = true ∧ (s1 2 []).ctx 0 = some Ctx.plain ∧ idle (s1 2 []) = true) ∧
    [1#64, 2#64, 4#64, 8#64, 15#64].all (fun m => takes 3 (s1 3 [0#64, m]) && decide ((arg (s1 3 [0#64, m]) 1).toNat < 16) && idle (s1 3 [0#64, m])) = true ∧
    takes 3 (s2 3 [0#64, 8#64]) = true ∧ (arg (s2 3 [0#64, 8#64]) 1).getLsbD 3 = true := by
  refine ⟨by decide +kernel, ⟨by decide +kernel, rfl, ?_, rfl, rfl⟩, by decide +kernel, by decide +kernel, by decide +kernel, by decide +kernel⟩
  show (plainRef.key, Block.plain) ∈ [(plainRef.key, Block.plain)]
  simp

/-- A frame at 1 MiB of die 0 whose 1,024 code lines are all the same and good: a trap and its padding. -/
def goodLine : SliceLine := let x : BitVec 512 := lineOf 0#64 0x0C0F00F0783C1E0F00000005#96; ⟨x ++ x, 0, 0, false, true, 0, false⟩
def frame1 : List (LineNo × SliceLine) := (List.range 512).map (fun i => (8192 + i, goodLine))
def mapArgs (a leaf : Word64) : List Word64 := [0#64, a, leaf]
def coded (f : List (LineNo × SliceLine)) : State := let s := pt State.reset.seat; { s with lines := s.lines ++ f }
def leaf1M : Word64 := 0x10_0000041B#64

theorem homeByte_good {s : State} (h : s.lines = (coded frame1).lines) (b : Nat) (hb : b < 65536) :
    s.homeByte (1048576 + b) = (goodLine.data >>> (8 * (b % 128))).setWidth 8 := by
  have hm : (8192 + b / 128, goodLine) ∈ frame1 := List.mem_map.mpr ⟨b / 128, List.mem_range.mpr (by omega), rfl⟩
  have hl : tblGet s.lines (8192 + b / 128) = some goodLine := by
    obtain ⟨w, h1, h2⟩ := tblGet_of_mem s.lines (8192 + b / 128) goodLine (by rw [h]; exact List.mem_append_right _ hm)
    rw [h] at h2
    rcases List.mem_append.mp h2 with h2 | h2
    · have h3 : 8192 + b / 128 ∈ (pt State.reset.seat).lines.map Prod.fst := List.mem_map_of_mem (f := Prod.fst) h2
      have h4 : (pt State.reset.seat).lines.map Prod.fst = [0, 1073741952, 2147483904] := by decide +kernel
      rw [h4] at h3
      simp only [List.mem_cons, List.not_mem_nil, or_false] at h3
      omega
    · obtain ⟨_, -, hw⟩ := List.mem_map.mp h2
      exact h1.trans (congrArg some (congrArg Prod.snd hw).symm)
  have e1 : (1048576 + b) / 128 = 8192 + b / 128 := by omega
  have e2 : (1048576 + b) % 128 = b % 128 := by omega
  simp only [State.homeByte, State.lineData, e1, e2, hl]

theorem homeBytes_good {s : State} (h : s.lines = (coded frame1).lines) :
    ∀ (n a b : Nat), a + n ≤ 65536 → b + n ≤ 65536 → a % 128 = b % 128 → s.homeBytes (1048576 + a) n = s.homeBytes (1048576 + b) n
  | 0, _, _, _, _, _ => rfl
  | n + 1, a, b, ha, hb, hab => by
    have h0 : s.homeByte (1048576 + a) = s.homeByte (1048576 + b) := by
      rw [homeByte_good h a (by omega), homeByte_good h b (by omega), hab]
    have ih := homeBytes_good h n (a + 1) (b + 1) (by omega) (by omega) (by omega)
    simp only [State.homeBytes, h0, Nat.add_assoc, ih]

theorem scan_good {s : State} (h : s.lines = (coded frame1).lines) (h0 : scanLine (s.codeLine 1048576) = none) (h1 : scanLine (s.codeLine 1048640) = none) :
    s.scanFrame 1 1048576 = none := by
  simp only [State.scanFrame, List.findSome?_eq_none_iff, List.mem_range, Option.map_eq_none_iff]
  intro i hi
  have hf : flatByte 1 (1048576 + 64 * i) = 1048576 + 64 * i := by simp [flatByte, hbmKey]
  rw [hf]
  have hc : s.codeLine (1048576 + 64 * i) = s.codeLine (1048576 + 64 * (i % 2)) := by
    simp only [State.codeLine]
    rw [homeBytes_good h 64 (64 * i) (64 * (i % 2)) (by omega) (by omega) (by omega)]
  rw [hc]
  rcases Nat.mod_two_eq_zero_or_one i with hi | hi <;> rw [hi]
  · exact h0
  · exact h1

theorem test_map_code_page_meets :
    let s (a l : Word64) (f : List (LineNo × SliceLine)) : State := mb 0x10 (mapArgs a l) (coded f)
    let miss (x : State) : State := { x with misses := [(2147483904, ⟨[], none⟩)] }
    let legal (g : State → State) (f : List (LineNo × SliceLine)) : Bool :=
      let x := g (s 65536#64 leaf1M f)
      takes 0x10 x && decide ((arg x 0).toNat % 2 ^ 16 = 0 ∧ x.ctx 0 = some Ctx.plain ∧ (arg x 1).toNat % 65536 = 0 ∧ canonical (arg x 1) = true ∧ (arg x 2).getLsbD 0 = true) &&
        decide ((arg x 2).getLsbD 4 = true ∧ (arg x 2).getLsbD 3 = true ∧ firstReason (leafReasons x 3 (arg x 2)) = none ∧ tableWalk x (arg x 1) 2 Ctx.plain.rootPlace Ctx.plain.rootPfn = some 274877939720) &&
        decide (x.codeFrames = [])
    let good : State := s 65536#64 leaf1M frame1
    let place : Nat := leaf1M.toNat / 2 ^ 10 % 8
    let pa : Nat := leaf1M.toNat / 2 ^ 32 * 65536
    legal id frame1 = true ∧ good.scanFrame place pa = none ∧ good.Tidy ∧ 274877939720 % 8 = 0 ∧ isPeer (274877939720 / 128) = false ∧ good.AtHome 274877939720 ∧
    legal miss frame1 = true ∧ (miss good).scanFrame place pa = none ∧ (miss good).Tidy ∧ ¬ (miss good).AtHome 274877939720 ∧
    legal id [] = true ∧ (∃ x, (s 65536#64 leaf1M []).scanFrame place pa = some x) ∧
    takes 0x10 (s 8#64 leaf1M []) = true ∧ (arg (s 8#64 leaf1M []) 1).toNat % 65536 ≠ 0 := by
  have hm (s : State) (h : s.misses = [(2147483904, ⟨[], none⟩)]) : ¬ s.AtHome 274877939720 := fun x => by
    have y := x.1; rw [h] at y; exact absurd y (by simp [tblGet])
  have hs : scanLine ((mb 0x10 (mapArgs 65536#64 leaf1M) (coded frame1)).codeLine 1048576) = none ∧
      scanLine ((mb 0x10 (mapArgs 65536#64 leaf1M) (coded frame1)).codeLine 1048640) = none := by decide +kernel
  suffices hn : ((coded frame1).lines.map Prod.fst).Nodup by
    refine ⟨by decide +kernel, scan_good rfl hs.1 hs.2, ⟨rfl, hn, by decide +kernel⟩, rfl, by decide +kernel, ⟨rfl, .inr (by decide +kernel)⟩, by decide +kernel,
      scan_good rfl hs.1 hs.2, ⟨rfl, hn, by decide +kernel⟩, hm _ rfl, by decide +kernel, Option.isSome_iff_exists.mp (by decide +kernel), by decide +kernel, by decide +kernel⟩
  show ((pt State.reset.seat).lines.map Prod.fst ++ frame1.map Prod.fst).Nodup
  have h0 : (pt State.reset.seat).lines.map Prod.fst = [0, 1073741952, 2147483904] := by decide +kernel
  have h1 : frame1.map Prod.fst = (List.range 512).map (fun i => 8192 + i) := by simp [frame1]
  rw [h0, h1]
  refine List.Nodup.append (by decide) (List.nodup_range.map (fun a b h => by simpa using h)) ?_
  intro a h2 h3
  obtain ⟨i, hi, h3⟩ := List.mem_map.mp h3
  have h4 := List.mem_range.mp hi
  simp only [List.mem_cons, List.not_mem_nil, or_false] at h2 h3
  subst h3
  have h5 : 8192 + i = (0 : Nat) ∨ 8192 + i = (1073741952 : Nat) ∨ 8192 + i = (2147483904 : Nat) := h2
  omega

theorem test_shootdown_meets :
    let a : List Word64 := [0#64, 65536#64, 65536#64]
    let s (x : State) : State := mb 0x11 a x
    let under (x : State) : State := way 0x11 a x
    let busy : State := grp go State.reset.seat
    (takes 0x11 (s State.reset.seat) = true ∧ (s State.reset.seat).ctx 0 = some Ctx.plain ∧ (arg (s State.reset.seat) 1).toNat % 65536 = 0 ∧ (arg (s State.reset.seat) 2).toNat % 65536 = 0) ∧
    ((under State.reset.seat).fw.started = true ∧ (under State.reset.seat).fw.umpire = .running) ∧
    ((under State.reset.seat).mbx.busy = some ((under State.reset.seat).mbx.cmd, (under State.reset.seat).mbx.args) ∧ (under State.reset.seat).mbx.outcome = none ∧ (under State.reset.seat).mbx.begun = true) ∧
    ((under State.reset.seat).mbx.cmd.toNat % 2 ^ 16 = 0x11 ∧ (arg (under State.reset.seat) 0).toNat % 2 ^ 32 ≠ 2 ^ 32 - 1) ∧
    (under State.reset.seat).shotPending ⟨false, 0, 65536, 65536⟩ 3 = false ∧ (under { busy with groups := [(plainRef, { go with ops := [{ opl with id := 2 }] })] }).shotPending ⟨false, 0, 65536, 65536⟩ 3 = true := by
  refine ⟨by decide +kernel, by decide +kernel, by decide +kernel, by decide +kernel, by decide +kernel, by decide +kernel⟩

theorem test_fault_resolve_meets :
    let p : Parked := ⟨fe 64#64, 0#64, 9, false⟩
    let g : Group := { gpc 64#64 with parked := some p }
    let s : State := mb 0x12 [0#64, 0#64, 9#64] (grp g State.reset.seat)
    let s0 : State := mb 0x12 [0#64, 0#64, 9#64] { State.reset with ctxs := [(0, Ctx.plain)] }
    (takes 0x12 s = true ∧ s.ctx 0 = some Ctx.plain ∧ s.group plainRef = some g ∧ g.parked = some p ∧ p.resolved = false ∧ plainRef.key.ctx = 0 ∧ plainRef.grp = (arg s 1).toNat % 2 ^ 6) ∧
    (g.core = (arg s 1).toNat / 2 ^ 16 % 2 ^ 10 ∧ p.time = (arg s 2).toNat) ∧
    takes 0x12 s0 = true ∧ s0.ctx 0 = some Ctx.plain ∧ s0.groups = [] ∧ s0.saved = [] ∧ (s0.core ((arg s0 1).toNat / 2 ^ 16 % 2 ^ 10)).slots = [] := by
  refine ⟨⟨by decide +kernel, rfl, rfl, rfl, rfl, rfl, by decide +kernel⟩, by decide +kernel, by decide +kernel, rfl, rfl, rfl, by decide +kernel⟩

/-! ## Launch commands -/

theorem test_launch_command_meets :
    let s (bad : Bool) : State := mb 0x20 [0#64, 2#64, 0x400#64] (record bad (queued (qq 3 false []) State.reset))
    let bs (bad : Bool) : List Byte := (s bad).homeBytes 0x400 128
    (∀ bad, takes 0x20 (s bad) = true ∧ (arg (s bad) 0).toNat % 2 ^ 16 = 0 ∧ (s bad).ctx 0 = some cq4 ∧ (arg (s bad) 1).toNat = 2 ∧ ((s bad).queue 0 2) = qq 3 false [] ∧
      (arg (s bad) 2).toNat % 128 = 0 ∧ (s bad).firmBytes 0 (arg (s bad) 2) 128 = some (bs bad)) ∧
    (∃ x, (s false).readLaunch 0 (bs false) true = .ok x) ∧ (s false).hostRoom 0 2 (qq 3 false []) = some false ∧ ∃ k, (s true).readLaunch 0 (bs true) true = .error k := by
  refine ⟨?_, ok_of _ (by decide +kernel), by decide +kernel, error_of _ (by decide +kernel)⟩
  intro bad; cases bad <;> exact ⟨by decide +kernel, by decide +kernel, rfl, by decide +kernel, rfl, by decide +kernel, by decide +kernel⟩

theorem test_queue_commands_meet :
    let s (code : Nat) (a : List Word64) (x : Queue) : State := mb code a (pt (queued x State.reset))
    let d (k n : Nat) : Word64 := BitVec.ofNat 64 (k + 16 * 3 + n * 2 ^ 32)
    let legal (k n : Nat) : Bool :=
      let x := s 0x21 [0#64, 2#64, d k n, 128#64, 5#64, 0x400#64] (qq 0 false [])
      takes 0x21 x && decide ((arg x 1).toNat = 2 ∧ (d k n).toNat % 4 = k ∧ (d k n).toNat / 4 % 4 = 0 ∧ (d k n).toNat / 2 ^ 10 % 2 ^ 22 = 0 ∧ (d k n).toNat / 2 ^ 32 = n) &&
        decide ((arg x 3).toNat % 128 = 0) && x.entryFlat 0 2 cq4 == some 64 && !(d k n).getLsbD 9
    let miss (x : State) : State := { x with misses := [(0, ⟨[], none⟩)] }
    let push (x : Queue) : State := s 0x22 [0#64, 2#64, 0#64] x
    let full : Queue := qq 1 false (List.replicate 4096 ⟨[], 0, none, false, 0⟩)
    isPeer (64 / 128) = false ∧ (s 0x21 [0#64, 2#64, d 1 0, 128#64, 5#64, 0x400#64] (qq 0 false [])).AtHome 64 ∧ (∀ x, ¬ (miss x).AtHome 64) ∧
    (miss (s 0x21 [0#64, 2#64, d 1 0, 128#64, 5#64, 0x400#64] (qq 0 false []))).entryFlat 0 2 cq4 = some 64 ∧ (s 0x23 [0#64, 2#64] (qq 3 false [])).AtHome 64 ∧
    (s 0x23 [0#64, 2#64] (qq 3 false [])).entryFlat 0 2 cq4 = some 64 ∧ (miss (s 0x23 [0#64, 2#64] (qq 3 false []))).entryFlat 0 2 cq4 = some 64 ∧
    legal 1 0 = true ∧ legal 2 1 = true ∧ legal 2 4096 = true ∧
    (takes 0x22 (push (qq 1 false [])) = true ∧ (push (qq 1 false [])).firmRecord 0 0#64 16 = some ((push (qq 1 false [])).homeBytes 0 16) ∧ (push (qq 1 false [])).recRoom 2 (qq 1 false []) = some false) ∧
    ((push full).firmRecord 0 0#64 16 = some ((push full).homeBytes 0 16) ∧ ((push full).recRoom 2 full).isNone = true) ∧
    (takes 0x23 (s 0x23 [0#64, 2#64] (qq 3 false [])) = true ∧ (qq 3 false []).poppers = [] ∧ takes 0x23 (s 0x23 [0#64, 4#64] (qq 3 false [])) = true ∧ cq4.qcount ≤ 4) := by
  have hm (s : State) (h : s.misses = [(0, ⟨[], none⟩)]) : ¬ s.AtHome 64 := fun x => by
    have y := x.1; rw [h] at y; exact absurd y (by simp [tblGet])
  refine ⟨by decide +kernel, ⟨rfl, .inr (by decide +kernel)⟩, fun _ => hm _ rfl, by decide +kernel, ⟨rfl, .inr (by decide +kernel)⟩, by decide +kernel, by decide +kernel, by decide +kernel, by decide +kernel, by decide +kernel, by decide +kernel, by decide +kernel, by decide +kernel⟩

theorem test_stop_and_resume_meet :
    let all : Word64 := BitVec.allOnes 64
    let s (code : Nat) (a : List Word64) : State := mb code a State.reset.seat
    let named (b : Nat) : Prop := (BitVec.ofNat 64 b = all ∨ plainRef.key.blk = (BitVec.ofNat 64 b).toNat)
    takes 0x30 (s 0x30 [0#64, all, all]) = true ∧ (s 0x30 [0#64, all, all]).ctx 0 = some Ctx.plain ∧ (s 0x30 [0#64, all, all]).blocks = [(plainRef.key, Block.plain)] ∧ Block.plain.gang = none ∧
    Block.plain.status = .running ∧ named plainRef.key.blk ∧ takes 0x31 (s 0x31 [0#64]) = true := by
  refine ⟨by decide +kernel, rfl, rfl, rfl, rfl, Or.inr (by decide +kernel), by decide +kernel⟩

/-! ## Registers of the mailbox, logs, updates -/

theorem test_mailbox_registers_meet :
    let s : State := way 0x02 [] State.reset
    let fin : State := { s with mbx := { s.mbx with outcome := some ([7#64], 3, 9) } }
    let no : State := mb 0x77 [] State.reset
    (State.reset.fw.started = false ∧ no.fw.started = true) ∧ (8 % 8 = 0 ∧ 8 + 8 ≤ 65536) ∧ ¬ (65532 % 8 = 0 ∧ 65532 + 8 ≤ 65536) ∧ s.mbx.busy = some (0x02#64, words []) ∧ no.mbx.busy = none ∧
    (no.mbx.cmd.toNat % 2 ^ 16 ∉ [0x01, 0x02, 0x03, 0x10, 0x11, 0x12, 0x20, 0x21, 0x22, 0x23, 0x30, 0x31, 0x40, 0x50, 0x51, 0x52, 0x60]) ∧ no.fw.umpire = .running ∧
    fin.mbx.busy = some (0x02#64, words []) ∧ fin.mbx.outcome = some ([7#64], 3, 9) ∧ [7#64].length ≤ 32 :=
  ⟨⟨rfl, rfl⟩, by decide, by decide, rfl, rfl, by decide +kernel, rfl, rfl, rfl, by decide⟩

/-- The status by hand: tag 0, code 0x02, detail 9, status 3 (R438). -/
theorem test_command_completes :
    after .commandCompletion { way 0x02 [] State.reset with mbx := { (way 0x02 [] State.reset).mbx with outcome := some ([7#64], 3, 9), en := true } } (fun t => (t.mbx.stat, t.mbx.res.take 2, t.mbx.pend, t.mbx.interrupts)) =
      some (0x0000000200090003#64, [7#64, 0#64], true, 1) := by decide +kernel

theorem test_logs_meet :
    let rj : RejectRec := ⟨65536#64, 0, 5, 2, 0x08#8, 0#8⟩
    let fr : FaultRec := ⟨{ code := .eccUncorrectable }, .fatal, 9, 0, 0, 0, 0⟩
    let e : FbEntry := ⟨0x100#64, 0xF#128, 0xAB#1024⟩
    let c : Ctx := { Ctx.plain with rejects := ⟨[rj, rj], true⟩, faults := ⟨[fr], false⟩, fbuf := [(4, e)] }
    let s (n : Nat) (c : Ctx) : State := mb 0x40 [0#64, BitVec.ofNat 64 n, 4#64] { State.reset with ctxs := [(0, c)] }
    let far (n : Nat) : State := mb 0x40 [0#64, 2#64, BitVec.ofNat 64 n] { State.reset with ctxs := [(0, c)] }
    takes 0x40 (s 0 c) = true ∧ (arg (s 0 c) 0).toNat % 2 ^ 16 = 0 ∧ (s 0 c).ctx 0 = some c ∧ arg (s 0 c) 1 = 0#64 ∧ arg (s 1 c) 1 = 1#64 ∧ arg (s 2 c) 1 = 2#64 ∧
    c.rejects.recs = [rj, rj] ∧ c.faults.recs = [fr] ∧ Ctx.plain.rejects.recs = [] ∧ Ctx.plain.faults.recs = [] ∧ (arg (s 2 c) 2).toNat < 64 ∧ tblGet c.fbuf (arg (s 2 c) 2).toNat = some e ∧
    64 ≤ (arg (far 64) 2).toNat ∧ ¬ 64 ≤ (arg (far 63) 2).toNat :=
  ⟨by decide +kernel, by decide +kernel, rfl, by decide +kernel, by decide +kernel, by decide +kernel, rfl, rfl, rfl, rfl, by decide +kernel, by decide +kernel, by decide +kernel, by decide +kernel⟩

theorem test_firmware_updates_meet :
    let w (off at_ len : Nat) : State := mb 0x50 [BitVec.ofNat 64 off, BitVec.ofNat 64 at_, BitVec.ofNat 64 len] State.reset
    let fits (off at_ len : Nat) : Bool := takes 0x50 (w off at_ len) && decide ((arg (w off at_ len) 0).toNat % 4096 = 0 ∧ (arg (w off at_ len) 1).toNat + (arg (w off at_ len) 2).toNat ≤ 0xF00000000000) &&
      decide (1 ≤ (arg (w off at_ len) 2).toNat ∧ (arg (w off at_ len) 2).toNat ≤ 2 ^ 20)
    let v (b : Bool) (code : Nat) : State := let s := mb code [] State.reset; { s with fw := { s.fw with verified := b } }
    let sw (since now : Nat) : State := let s := way 0x52 [] State.reset; { s with now := now, fw := { s.fw with umpire := .switching since } }
    let r (schema off : Nat) : State := mb 0x60 [BitVec.ofNat 64 schema, BitVec.ofNat 64 off] State.reset
    fits 4096 0 1 = true ∧ fits 0 0xEFFFFFF00000 (2 ^ 20) = true ∧ fits 0 0 0 = false ∧ takes 0x50 (w 2048 0 8) = true ∧ (arg (w 2048 0 8) 0).toNat % 4096 ≠ 0 ∧
    takes 0x51 (v false 0x51) = true ∧ takes 0x52 (v true 0x52) = true ∧ takes 0x52 (v false 0x52) = true ∧
    (∀ n, (sw 5 n).fw.umpire = .switching 5 ∧ (sw 5 n).mbx.busy = some ((sw 5 n).mbx.cmd, (sw 5 n).mbx.args) ∧ (sw 5 n).mbx.outcome = none) ∧
    takes 0x60 (r 5 8) = true ∧ (∃ x, (r 5 8).telemetry ((arg (r 5 8) 0).toNat % 2 ^ 16) = some x ∧ (arg (r 5 8) 1).toNat < x.length) ∧ (arg (r 5 8) 1).toNat ≠ 0 ∧ (arg (r 5 8) 1).toNat % 8 = 0 ∧
    takes 0x60 (r 6 0) = true ∧ 5 < (arg (r 6 0) 0).toNat % 2 ^ 16 := by
  and_intros <;> first | exact fun _ => ⟨rfl, rfl, rfl⟩ | decide +kernel

/-! ## Firmware -/

theorem test_firmware_meets :
    let f (u : UmpireState) (n : Nat) : State := { State.reset with fw := { State.reset.fw with umpire := u, started := true }, now := n }
    let k : Nat := 0x00050031
    let m : State := { State.reset with fw := { State.reset.fw with marked := [k], started := true } }
    (∃ r, ({ State.reset with fw := { State.reset.fw with samples := 1 } } : State).telemetry (5#16).toNat = some r) ∧ (f .running 0).fw.umpire = .running ∧ (f .resetting 0).fw.umpire = .resetting ∧
    (f (.switching 7) 10000007).fw.umpire = .switching 7 ∧ 7 + 10000000 ≤ (f (.switching 7) 10000007).now ∧ (f .running 0).fw.started = true ∧ State.reset.fw.started = false ∧
    State.reset.fw.skipped.getLsbD 63 = false ∧ ({ State.reset with now := 3600000000000 } : State).fw.windowStart + 3600000000000 ≤ 3600000000000 ∧
    m.dieEmpty 1 = true ∧ m.fw.marked = [k] ∧ unitPlace k = (1, some .slice) ∧ 0 < m.fw.left 1 .slice ∧ m.fw.started = true ∧ State.reset.seat.dieEmpty 0 = false :=
  ⟨⟨_, rfl⟩, rfl, rfl, rfl, by decide, rfl, rfl, by decide +kernel, by decide +kernel, by decide +kernel, rfl, by decide +kernel, by decide +kernel, rfl, by decide +kernel⟩

/-! ## Resets -/

theorem test_resets_meet :
    let s : State := State.reset.seat
    let e : RecEntry := re []
    let sr : State := { region (rg 1) State.reset with recorder := [e] }
    s.blocks = [(plainRef.key, Block.plain)] ∧ 0 ∈ Block.plain.cores ∧ Block.plain.cluster = 0 ∧ (∃ c ∈ Block.plain.cores, c / 192 = 0) ∧ (s.blocks.map Prod.fst).Nodup ∧ Block.plain.gang = none ∧
    Block.plain.status = .running ∧ Block.plain.latch = none ∧ 5 ∉ Block.plain.cores ∧ Block.plain.cluster ≠ 1 ∧ (∀ c ∈ Block.plain.cores, c / 192 ≠ 1) ∧
    sr.ctx 0 = some (cx (rg 1)) ∧ ((cx (rg 1)).regions.map Prod.fst).Nodup ∧ (sr.region 0 2).state ≠ 0 ∧ sr.recorder.filter (fun e => homeDie e.line == 0 && e.ctx == 0 && e.region == 2) = [e] ∧
    (∀ c ∈ State.reset.ctxs, State.reset.hasBlocks c.1 = false) ∧ State.reset.mem.wf = true ∧ (lines [(2, y2)] State.reset).blocks = [] ∧ isHost 2 = false ∧ homeDie 2 = 0 ∧
    tblGet (lines [(2, y2)] State.reset).lines 2 = some y2 ∧ homeDie rl ≠ 0 := by
  refine ⟨rfl, by decide, rfl, ⟨0, by decide, rfl⟩, by decide +kernel, rfl, rfl, rfl, by decide, by decide, by decide, rfl, by decide +kernel, by decide +kernel, by decide +kernel,
    fun c hc => absurd hc (List.not_mem_nil), rfl, rfl, by decide +kernel, by decide +kernel, rfl, by decide +kernel⟩

/-! ## The link and its peers -/

/-- Port 3 is up and expects flit 5. -/
def up3 (f : Port → Port) (s : State) : State := { s with ports := [(3, f { Port.reset with up := true, rxSeq := 5#12 })] }
def right (f : BitVec 2048) : Bool := f.extractLsb' 1984 32 == crc32c ((flitBytes f).take 248)
/-- A read's header: tag 9, address 0x100. -/
def readUnit : BitVec 128 := BitVec.ofNat 128 (0x01 * 2 ^ 120 + 9 * 2 ^ 96 + 0x100)

theorem test_flits_meet :
    let p : Port := (up3 id State.reset).port 3
    let fl (ty : Nat) (seq : BitVec 12) (ack : Option (BitVec 12)) (u : List (BitVec 128)) : BitVec 2048 := makeFlit ⟨ty, seq, ack, 2, 1⟩ u
    let is (f : BitVec 2048) (ty : Nat) (seq : BitVec 12) (ack : Option (BitVec 12)) : Bool := right f && flitHead f == ⟨ty, seq, ack, 2, 1⟩
    let held (l : List (BitVec 12 × BitVec 2048)) : Port := (up3 (fun p => { p with replay := l }) State.reset).port 3
    let op (f : BitVec 2048) : Nat := (((f.extractLsb' 64 128 : BitVec 128)).setWidth 16).toNat
    let bad : BitVec 2048 := 0#2048
    p.up = true ∧ right bad = false ∧ is (fl 0 0#12 none []) 0 0#12 none = true ∧ is (fl 0 0#12 (some 4#12) []) 0 0#12 (some 4#12) = true ∧
    (held [(3#12, 0#2048), (4#12, 0#2048), (5#12, 0#2048)]).replay = [(3#12, 0#2048)] ++ (4#12, 0#2048) :: [(5#12, 0#2048)] ∧ [((3 : BitVec 12), 0#2048)].all (fun x => x.1 != 4#12) = true ∧
    is (fl 1 6#12 none []) 1 6#12 none = true ∧ p.rxSeq = 5#12 ∧ is (fl 1 5#12 none [readUnit]) 1 5#12 none = true ∧ is (fl 2 4#12 none []) 2 4#12 none = true ∧
    (held [(3#12, 0#2048), (4#12, 0#2048)]).replay.dropWhile (fun x => x.1 != 4#12) ≠ [] ∧
    (is (fl 3 0#12 none [controlUnit 1 0 0 0xFF#9]) 3 0#12 none = true ∧ op (fl 3 0#12 none [controlUnit 1 0 0 0xFF#9]) = 1 ∧ op (fl 3 0#12 none [controlUnit 2 8 8 0#9]) = 2) ∧
    (State.reset.port 3).up = false ∧ ((up3 (fun p => { p with retries := 16 }) State.reset).port 3).retries = 16 ∧ p.outstanding = [] ∧ p.partial_ = [] ∧
    (flitUnits (fl 1 5#12 none [readUnit]) == readUnit :: List.replicate 14 0#128) = true ∧ readUnit.extractLsb' 120 8 = 0x01#8 ∧ readUnit.extractLsb' 115 5 = 0#5 := by
  refine ⟨rfl, by decide +kernel, by decide +kernel, by decide +kernel, rfl, rfl, by decide +kernel, rfl, by decide +kernel, by decide +kernel, by decide +kernel,
    ⟨by decide +kernel, by decide +kernel, by decide +kernel⟩, rfl, rfl, rfl, rfl, by decide +kernel, by decide +kernel, by decide +kernel⟩

/-- The check of R444, with the standard CRC-32C of the nine digits. -/
theorem test_crc32c : crc32c ("123456789".toList.map (fun c => BitVec.ofNat 8 c.toNat)) = 0xE3069283#32 := by decide +kernel

/-- A request of a peer for the line at address 0x100 of the pool, or beyond its end. -/
def pr (kind : Nat) (addr : Nat) : PeerReq := ⟨3, 9, addr, kind, if kind = 4 then .b32 else .n32, 0, 1#64, 0x55#64, 0xF#128, 0xAA#1024, 0⟩
theorem test_peer_requests_meet :
    let run (s : State) : State := { s with fw := { s.fw with started := true } }
    let s (r : PeerReq) (f : State → State) : State := sent (.peerReq r) (fun x => run (f x))
    let line (z : SliceLine) : State → State := lines [(2, z)]
    let kinds : List Nat := [0x01, 0x02, 0x03, 0x04, 0x05, 0x06]
    let near (r : PeerReq) (x : State) (z : SliceLine) : Bool := decide (r.addr < 2 ^ 39) && x.fw.started && (tblGet x.misses (flatByte 0 r.addr / 128)).isNone && tblGet x.lines (flatByte 0 r.addr / 128) == some z
    let upd (r : PeerReq) (x : State) (z : SliceLine) : Bool := near r x z && !x.isCode (flatByte 0 r.addr) && !z.poison && decide (flatByte 0 r.addr % 8 = 0)
    (∀ r, Due (s r (line y2)) 0 ch0 (.peerReq r) ∧ Due (s r marked) 0 ch0 (.peerReq r) ∧ Due (s r (missing ⟨[], none⟩)) 0 ch0 (.peerReq r) ∧ Due (s r (up3 (fun p => { p with lastW := 9 }))) 0 ch0 (.peerReq r)) ∧ (∀ k ∈ kinds, 2 ^ 39 ≤ (pr k (2 ^ 39)).addr ∧ (pr k (2 ^ 39 - 1)).addr < 2 ^ 39) ∧ (sent (.peerReq (pr 1 0x100)) id).fw.started = false ∧
    (tblGet (s (pr 1 0x100) (missing ⟨[], none⟩)).misses 2).isSome = true ∧ (s (pr 2 0) marked).isCode (flatByte 0 0) = true ∧
    near (pr 1 0x100) (s (pr 1 0x100) (line y2)) y2 = true ∧ near (pr 1 0x100) (s (pr 1 0x100) (line { y2 with poison := true })) { y2 with poison := true } = true ∧
    kinds.all (fun k => upd (pr k 0x100) (s (pr k 0x100) (line y2)) y2) = true ∧ AOp.ofCode (BitVec.ofNat 3 0) = some .add ∧ AOp.allows .add (pr 3 0).ty = true ∧ TSet.AC.has (pr 4 0).ty = true ∧
    ((fieldOf y2.data 0 4).setWidth 64 : Word64).setWidth 32 = (pr 4 0x100).y.setWidth 32 ∧ ((fieldOf y2.data 0 4).setWidth 64 : Word64).setWidth 32 ≠ (0#64 : Word64).setWidth 32 ∧
    (s (pr 6 0x100) (up3 (fun p => { p with lastW := 9 }))).now < ((s (pr 6 0x100) (up3 (fun p => { p with lastW := 9 }))).port 3).lastW ∧
    ((s (pr 6 0x100) (line y2)).port 3).lastW ≤ (s (pr 6 0x100) (line y2)).now ∧ (let t := s (pr 1 0x100) id; (tblGet t.misses 2).isNone && (tblGet t.lines 2).isNone && decide (t.missCount 2 < 64)) = true ∧ (pr 6 0x100).op = SignalOp.set.code.toNat := by
  refine ⟨fun _ => ⟨⟨[], 0, rfl⟩, ⟨[], 0, rfl⟩, ⟨[], 0, rfl⟩, [], 0, rfl⟩, by decide +kernel, rfl, by decide +kernel, by decide +kernel, by decide +kernel, by decide +kernel, by decide +kernel, by decide, by decide, by decide, by decide +kernel, by decide +kernel,
    by decide +kernel, by decide +kernel, by decide +kernel, by decide +kernel⟩

theorem test_peer_responses_meet :
    let r (k st : Nat) : PeerReq := { pr k 0 with status := st }
    let u (d : Option Dst) : Update := ⟨2 ^ 54 + 0xF00000000000, .rmw .add .b32 1#64, 0, 0, plainRef, 7, some 0, d, 0, none, false, 0x100#64, .group⟩
    let qs (b : Body) : Msg := ⟨ch0, b, [], 0⟩
    let s (r : PeerReq) (b : Body) : State := sent (.peerReq r) (fun x => up3 (fun p => { p with outstanding := [(9, qs b)] }) (grp go x))
    let hr : Body := .host (rd hl none (.direct 0 [lp]))
    (∀ r b, Due (s r b) 0 ch0 (.peerReq r) ∧ (((s r b).port 3).outstanding.map Prod.fst).Nodup ∧ tblGet ((s r b).port 3).outstanding 9 = some (qs b) ∧ (s r b).group plainRef = some go) ∧
    (∀ k ∈ [0x81, 0x82, 0x83, 0x84, 0x85, 0x86, 0xC0], (sent (.peerReq (r k 0)) id).port 3 = Port.reset ∧ tblGet Port.reset.outstanding 9 = none) ∧
    (qs hr).body = .host (rd hl none (.direct 0 [lp])) ∧ (rd hl none (.direct 0 [lp])).tgt = .direct 0 [lp] ∧ lp.g = plainRef ∧ LastPart go lp.op opl ∧ opl.arrivals = [] ∧ opl.kind ≠ .fill ∧
    (qs (.update (u none) none)).body = .update (u none) none ∧ (u none).g = plainRef ∧ LastPart go (u none).opId opl ∧ (u none).holder = none ∧ (u none).dst = none ∧ (u (some (.v 2))).dst = some (.v 2) ∧
    (u (some (.v 2))).op = .rmw .add .b32 1#64 ∧ (u none).tgt = .group ∧ (qs (.update { u none with op := .put 0#1024 0#1024 false } none)).body = .update { u none with op := .put 0#1024 0#1024 false } none := by
  refine ⟨fun r b => ⟨⟨[], 0, rfl⟩, List.nodup_singleton _, rfl, rfl⟩, fun k _ => ⟨rfl, rfl⟩, rfl, rfl, rfl, test_operations_meet.2.1, rfl, by decide, rfl, rfl, test_operations_meet.2.1, rfl, rfl, rfl, rfl, rfl, rfl⟩

/-! ## Decoding, steps, and what they keep -/

theorem test_decode_meets : (Instr.iadd c0 .s32 (.v 3) (.v 1) (.s 5)).wellFormed = true ∧ (∃ w, encode (.iadd c0 .s32 (.v 3) (.v 1) (.s 5)) = some w) ∧ decode 0x010F00F0783C1E0F00000000#96 = .ok (.nop c0) :=
  ⟨by decide, Option.isSome_iff_exists.mp (by decide +kernel), by decide +kernel⟩

/-- A word placed where the next step fetches runs in that step, which keeps what every step keeps. -/
theorem test_step_meets :
    let s : State := State.reset.withFetchWord 96 0x010F00F0783C1E0F00000000
    (∃ t, step s = .next t) ∧ (match s.choose with | .run (.nop _) _ => true | _ => false) = true ∧ s.Tidy ∧ s.Numbered := by
  refine ⟨?_, by decide +kernel, ⟨rfl, by decide +kernel, by decide +kernel⟩, numbered _ (State.core (State.reset.withFetchWord 96 0x010F00F0783C1E0F00000000) 0) rfl rfl (by decide +kernel)⟩
  have h : (match step (State.reset.withFetchWord 96 0x010F00F0783C1E0F00000000) with | .next _ => true | _ => false) = true := by decide +kernel
  split at h
  · exact ⟨_, by assumption⟩
  · cases h

theorem test_bound_meets : (State.reset.withFetchWord 96 0x010F00F0783C1E0F00000000).Bound := by
  refine ⟨?_, by intro v hv; exact absurd hv (List.not_mem_nil)⟩
  have h : (State.reset.withFetchWord 96 0x010F00F0783C1E0F00000000).groups = [(plainRef, { g0 with waitFrom := some 0 })] := rfl
  intro x hx
  rw [h, List.mem_singleton] at hx
  subst hx
  exact ⟨fun u => Or.inl (by revert u; decide +kernel), fun u => Or.inl (by revert u; decide +kernel)⟩

/-- A NOP placed where the next step fetches: its turn, with no other group of the core. -/
theorem test_step_runs_meets :
    let s : State := State.reset.withFetchWord 96 0x010F00F0783C1E0F00000000
    let s0 := s.tickWatchdogs.flushPorts
    let at_ : State := State.timePasses { s0 with agenda := [], now := s0.now + 0 }
    let s1 := at_.settleCore 0
    let g : Group := (s1.group plainRef).getD g0
    let x : BitVec 512 := lineOf 0#64 0x010F00F0783C1E0F00000000#96
    let w := slotWord x (pcSlot 0#64)
    s0.agenda = ⟨0, .issue plainRef⟩ :: [] ∧ at_.group plainRef = some g ∧ s1.group plainRef = some g ∧ s1.block plainRef.key = some Block.plain ∧ s1.mayIssue plainRef g Block.plain = true ∧
    g.parked = none ∧ g.frontier Block.plain = fe 0#64 :: [] ∧ s1.unheld plainRef g (fe 0#64) = true ∧ g.passOver ≠ some 0#64 ∧ s1.cachedLine plainRef g 0#64 = some x ∧ decode w = .ok (.nop c0) ∧
    (Instr.nop c0).opClass = .none ∧ (Instr.nop c0).needsSlot = false ∧ s1.throttled plainRef g = false ∧ s1.tableFull plainRef g (fe 0#64) w (.nop c0) = false ∧
    poisonedRead g (fe 0#64) w = none ∧ (∀ z ∈ s1.groups, z.1 ≠ plainRef → z.2.core ≠ g.core) ∧ (s1.groups.map Prod.fst).Nodup := by
  and_intros <;> first | rfl | decide +kernel

/-- Two groups of a lane, each at a slot of its own: with the yield bit of the first, and with a vector instruction or a uniform one. -/
def laned (w : InstrWord) (f : Group → Group) : State :=
  let s := State.reset.placeWord w
  { s with groups := [(plainRef, f g0), (ref1, { g0 with resident := 3, waitFrom := some 0 })], now := 5 }

theorem test_lane_order_meets :
    let vec : InstrWord := 0x220200018050BE0F00140000#96
    let uni : InstrWord := 0x0F0F0045783C1E0F00000060#96
    let names (s : State) : List GroupRef := (s.readyOn 0).map Ready.r
    let turn (s : State) : Option GroupRef := (s.readyOn 0).head?.map (fun x => (s.turnOf x).r)
    let waits (g : Group) : Group := { g with waitFrom := some 4 }
    names (laned vec id) = [plainRef, ref1] ∧ ((laned vec id).readyOn 0).all (fun x => wordVec x.w) = true ∧ turn (laned vec id) = some plainRef ∧
    turn ((laned vec id).modCore 0 (fun c => { c with lanes := [(0, (0, plainRef.grp))] })) = some ref1 ∧
    names (laned uni id) = [plainRef, ref1] ∧ ((laned uni id).readyOn 0).all (fun x => !wordVec x.w) = true ∧ turn (laned uni waits) = some ref1 ∧
    turn (laned vec (fun g => { g with mustPass := true })) = some ref1 ∧ (laned vec id).group plainRef = some g0 := by
  and_intros <;> rfl
end Sys2Proof.Tests
end

namespace Sys2Proof.Machine

/-! ## The state after device reset (R4, R437, R456) -/

theorem State.reset_core (c : Nat) : State.reset.core c = Core.reset := rfl

theorem State.reset_die (d : Nat) : State.reset.die d = Die.reset := rfl

theorem State.reset_mem_read (a : Nat) : State.reset.mem.read a = 0#8 := rfl

theorem State.reset_tidy : State.reset.Tidy := ⟨rfl, List.nodup_nil, List.nodup_nil⟩

/-- No core has a buffer entry and no group an operation, so that no number is in use. -/
theorem State.reset_numbered : State.reset.Numbered := by
  refine ⟨fun x hx => absurd hx List.not_mem_nil, fun v hv => absurd hv List.not_mem_nil, fun c => ?_⟩
  rw [State.reset_core]
  exact ⟨fun b hb => absurd hb List.not_mem_nil, List.nodup_nil⟩

theorem State.reset_bound : State.reset.Bound :=
  ⟨fun _ hx => absurd hx List.not_mem_nil, fun _ hv => absurd hv List.not_mem_nil⟩

/-- Settles O57: the tables of the state after reset are empty, an absent unit reads as after reset, and what the steps keep
holds of empty tables. -/
theorem resetState : Obligations.ResetState := by
  unfold Obligations.ResetState
  refine ⟨?_, State.reset_tidy, State.reset_numbered, State.reset_bound⟩
  refine ⟨rfl, rfl, rfl, rfl, rfl, rfl, rfl, rfl, rfl, rfl, rfl, rfl, rfl, rfl, rfl, rfl, fun c => ?_, fun d => ?_,
    State.reset_mem_read⟩
  · rw [State.reset_core]; exact ⟨rfl, rfl, rfl, rfl⟩
  · rw [State.reset_die]; exact ⟨rfl, rfl, rfl⟩

/-! ## A reset of a core and the spill area (R345, R354, R456) -/

/-- A unit without blocks is reset at once. -/
theorem State.resetUnit_alone (s : State) (p : Block → Bool) (dead : Bool) (f : State → State)
    (h : ∀ b ∈ s.blocks, p b.2 = false) : s.resetUnit p dead f = .next (f s) := by
  have hn : s.blocks.any (fun b => p b.2) = false := by
    rw [List.any_eq_false]
    intro b hb
    simp [h b hb]
  simp [State.resetUnit, hn]

/-- CORE_RESET of a core without blocks. -/
theorem exec_coreReset_alone (core : Nat) (dead : Bool) (s : State) (h : ∀ b ∈ s.blocks, core ∉ b.2.cores) :
    exec (.coreReset core dead) s = .next (s.resetCore core) :=
  s.resetUnit_alone (fun b => b.cores.contains core) dead (fun s => s.resetCore core) (fun b hb => by simpa using h b hb)

/-- Nine threads that wait for one monitor: eight stand in the hardware slots (R344), the ninth is spilled (R345). -/
def nineWaiters : List Waiter := (List.range 9).map (fun i =>
  { t := ⟨plainRef, Fin.ofNat 32 (i + 1)⟩, unit := bitOf (Fin.ofNat 32 (i + 1)), lset := 0, index := i + 1, hw := decide (i < 8) })

/-- The grant cache of core 0 names a user of colour 1, for whose monitor nine threads wait; no block is on the core, and no
byte of the spill area has been written. -/
def userGrantWithSpill : State :=
  { State.reset with
    ctxs := [(0, Ctx.plain)]
    cores := [(0, { Core.reset with grants := [((0, 1), ⟨some ⟨plainRef, 0⟩, 0, false, 0, 0⟩)] })]
    monitors := [((0, 1), ⟨.cached 0, nineWaiters, [], 0⟩)] }

/-- It has what every step keeps: none of that says that a spilled waiter's record stands in memory. -/
theorem userGrantWithSpill_kept : userGrantWithSpill.Tidy ∧ userGrantWithSpill.Numbered ∧ userGrantWithSpill.Bound := by
  refine ⟨State.reset_tidy, ⟨fun x hx => absurd hx List.not_mem_nil, fun v hv => absurd hv List.not_mem_nil, fun c => ?_⟩,
    State.reset_bound⟩
  have hb : (userGrantWithSpill.core c).buffer = [] := by
    by_cases hc : 0 = c <;> simp [userGrantWithSpill, State.core, tblGetD, tblGet, Core.reset, hc]
  rw [hb]
  exact ⟨fun b hb => absurd hb List.not_mem_nil, List.nodup_nil⟩

/-- The ninth waiter's record is the last of its queue: its index of the next record, byte 20 of the 32 at its place, reads
0xFF once the grant has gone home (R345). -/
theorem resetCore_writes_spill : (userGrantWithSpill.resetCore 0).mem.read (flatByte 0 (32 * 9 + 20)) = 0xFF#8 := by
  decide +kernel

/-- Refutes O48. The statement says that a reset of a core without blocks leaves memory as it was, for every state. A reset
first sends the core's grants home (R354); of a grant that still has a user the monitor's entry is written, and with it
the records of the waiters beyond the eight hardware slots (R345). Where the spill area does not hold those records
already, as in `userGrantWithSpill`, memory changes. -/
theorem not_resets : ¬ Obligations.Resets := by
  unfold Obligations.Resets
  intro h
  obtain ⟨-, -, -, hcore, -⟩ := h userGrantWithSpill 0 0 0 0 0
  obtain ⟨t, ht, -, hmem, -⟩ := hcore (fun x hx => absurd hx List.not_mem_nil)
  rw [exec_coreReset_alone 0 false _ (fun x hx => absurd hx List.not_mem_nil)] at ht
  cases ht
  have hread : userGrantWithSpill.mem.read (flatByte 0 (32 * 9 + 20)) = 0xFF#8 := hmem ▸ resetCore_writes_spill
  have hblank : userGrantWithSpill.mem.read (flatByte 0 (32 * 9 + 20)) = 0#8 := State.reset_mem_read _
  exact absurd (hblank.symm.trans hread) (by decide)

end Sys2Proof.Machine

namespace Sys2Proof

/-! ## The word and its fields (R35) -/

/-- Bits above the lower part of an append are those of the upper part, at whatever way the append's width is written. -/
theorem extract_append_high {v w s l : Nat} (x : BitVec v) (y : BitVec w) (h : w ≤ s) :
    BitVec.extractLsb' s l (BitVec.append x y) = BitVec.extractLsb' (s - w) l x :=
  BitVec.extractLsb'_append_eq_of_le h

theorem extract_append_low {v w s l : Nat} (x : BitVec v) (y : BitVec w) (h : s + l ≤ w) :
    BitVec.extractLsb' s l (BitVec.append x y) = BitVec.extractLsb' s l y :=
  BitVec.extractLsb'_append_eq_of_add_le h

theorem getLsbD_append_high {v w i : Nat} (x : BitVec v) (y : BitVec w) (h : w ≤ i) :
    (BitVec.append x y).getLsbD i = x.getLsbD (i - w) :=
  BitVec.getLsbD_append.trans (if_neg (by omega))

theorem getLsbD_append_low {v w i : Nat} (x : BitVec v) (y : BitVec w) (h : i < w) :
    (BitVec.append x y).getLsbD i = y.getLsbD i :=
  BitVec.getLsbD_append.trans (if_pos h)

theorem Raw.ofWord_toWord (r : Raw) : Raw.ofWord r.toWord = r := by
  obtain ⟨opc, var, g1, n1, g2, n2, gm, d, a, b, c, e, hint, stall, yld, reuse, ext⟩ := r
  simp (disch := decide) only [Raw.ofWord, Raw.toWord, HAppend.hAppend, extract_append_high, extract_append_low,
    getLsbD_append_high, getLsbD_append_low, Nat.reduceSub, BitVec.extractLsb'_eq_self, BitVec.getLsbD_ofBool]
  simp

theorem ofBool_getLsbD {n : Nat} (x : BitVec n) (i : Nat) : BitVec.ofBool (x.getLsbD i) = x.extractLsb' i 1 := by
  apply BitVec.eq_of_getLsbD_eq
  intro j hj
  obtain rfl : j = 0 := by omega
  simp

/-- Neighbouring pieces of a word make one piece. -/
theorem append_extract_extract {n s t k l : Nat} (x : BitVec n) (h : t = s + l) :
    BitVec.append (x.extractLsb' t k) (x.extractLsb' s l) = x.extractLsb' s (k + l) :=
  BitVec.extractLsb'_append_extractLsb'_eq_extractLsb' h

theorem Raw.toWord_ofWord (w : InstrWord) : (Raw.ofWord w).toWord = w := by
  simp (disch := decide) only [Raw.ofWord, Raw.toWord, ofBool_getLsbD, HAppend.hAppend, append_extract_extract, Nat.reduceAdd,
    BitVec.extractLsb'_eq_self]

/-! ## Operand codes (R37, R38): a code is read as the operand that has it, and no other -/

@[simp] theorem VReg.code_toNat (n : VReg) : (VReg.code n).toNat = n.val := by
  simp only [VReg.code, BitVec.toNat_ofNat]; omega
@[simp] theorem SReg.code_toNat (n : SReg) : (SReg.code n).toNat = 128 + n.val := by
  simp only [SReg.code, BitVec.toNat_ofNat]; omega
@[simp] theorem PReg.code_toNat (n : PReg) : (PReg.code n).toNat = 320 + n.val := by
  simp only [PReg.code, BitVec.toNat_ofNat]; omega
@[simp] theorem TReg.code_toNat (n : TReg) : (TReg.code n).toNat = 336 + n.val := by
  simp only [TReg.code, BitVec.toNat_ofNat]; omega
@[simp] theorem CReg.code_toNat (n : CReg) : (CReg.code n).toNat = 368 + n.val := by
  simp only [CReg.code, BitVec.toNat_ofNat]; omega
@[simp] theorem BReg.code_toNat (n : BReg) : (BReg.code n).toNat = 384 + n.val := by
  simp only [BReg.code, BitVec.toNat_ofNat]; omega
@[simp] theorem code480_toNat : code480.toNat = 480 := rfl

@[simp] theorem VReg.ofCode_eq_some {x : BitVec 9} {n : VReg} : VReg.ofCode x = some n ↔ x = VReg.code n := by
  simp only [VReg.ofCode, Option.dite_none_right_eq_some, Option.some.injEq, Fin.ext_iff, ← BitVec.toNat_inj, VReg.code_toNat,
    exists_prop]
  omega
@[simp] theorem SReg.ofCode_eq_some {x : BitVec 9} {n : SReg} : SReg.ofCode x = some n ↔ x = SReg.code n := by
  simp only [SReg.ofCode, Option.dite_none_right_eq_some, Option.some.injEq, Fin.ext_iff, ← BitVec.toNat_inj, SReg.code_toNat,
    exists_prop]
  omega
@[simp] theorem PReg.ofCode_eq_some {x : BitVec 9} {n : PReg} : PReg.ofCode x = some n ↔ x = PReg.code n := by
  simp only [PReg.ofCode, Option.dite_none_right_eq_some, Option.some.injEq, Fin.ext_iff, ← BitVec.toNat_inj, PReg.code_toNat,
    exists_prop]
  omega
@[simp] theorem TReg.ofCode_eq_some {x : BitVec 9} {n : TReg} : TReg.ofCode x = some n ↔ x = TReg.code n := by
  simp only [TReg.ofCode, Option.dite_none_right_eq_some, Option.some.injEq, Fin.ext_iff, ← BitVec.toNat_inj, TReg.code_toNat,
    exists_prop]
  omega
@[simp] theorem CReg.ofCode_eq_some {x : BitVec 9} {n : CReg} : CReg.ofCode x = some n ↔ x = CReg.code n := by
  simp only [CReg.ofCode, Option.dite_none_right_eq_some, Option.some.injEq, Fin.ext_iff, ← BitVec.toNat_inj, CReg.code_toNat,
    exists_prop]
  omega
@[simp] theorem BReg.ofCode_eq_some {x : BitVec 9} {n : BReg} : BReg.ofCode x = some n ↔ x = BReg.code n := by
  simp only [BReg.ofCode, Option.dite_none_right_eq_some, Option.some.injEq, Fin.ext_iff, ← BitVec.toNat_inj, BReg.code_toNat,
    exists_prop]
  omega

@[simp] theorem Special.code_toNat (n : Special) : n.code.toNat = 480 + n.ctorIdx := by cases n <;> rfl
@[simp] theorem Special.ofCode_eq_some {x : BitVec 9} {n : Special} : Special.ofCode x = some n ↔ x = n.code := by
  constructor
  · intro h
    unfold Special.ofCode at h
    split at h <;> cases h <;> exact BitVec.eq_of_toNat_eq ‹_›
  · rintro rfl; cases n <;> rfl

/-! The kind of a code (R36) -/

@[simp] theorem kindOf_vreg (n : VReg) : kindOf (VReg.code n) = .v := by
  have := n.isLt
  simp (disch := omega) only [kindOf, VReg.code_toNat, if_pos]
@[simp] theorem kindOf_sreg (n : SReg) : kindOf (SReg.code n) = .s := by
  have := n.isLt
  simp (disch := omega) only [kindOf, SReg.code_toNat, if_pos, if_neg]
@[simp] theorem kindOf_preg (n : PReg) : kindOf (PReg.code n) = .p := by
  have := n.isLt
  simp (disch := omega) only [kindOf, PReg.code_toNat, if_pos, if_neg]
@[simp] theorem kindOf_treg (n : TReg) : kindOf (TReg.code n) = .t := by
  have := n.isLt
  simp (disch := omega) only [kindOf, TReg.code_toNat, if_pos, if_neg]
@[simp] theorem kindOf_creg (n : CReg) : kindOf (CReg.code n) = .f := by
  have := n.isLt
  simp (disch := omega) only [kindOf, CReg.code_toNat, if_pos, if_neg]
@[simp] theorem kindOf_breg (n : BReg) : kindOf (BReg.code n) = .b := by
  have := n.isLt
  simp (disch := omega) only [kindOf, BReg.code_toNat, if_pos, if_neg]
@[simp] theorem kindOf_480 : kindOf code480 = .zero := rfl

/-- The special operands' kinds. -/
theorem Special.kind_cases (n : Special) : kindOf n.code = .zero ∨ kindOf n.code = .grp ∨ kindOf n.code = .amask ∨
    kindOf n.code = .uni ∨ kindOf n.code = .vec := by cases n <;> decide
@[simp] theorem Special.kindOf_isSpecial (n : Special) : (kindOf n.code).isSpecial = true := by cases n <;> rfl
@[simp] theorem Special.kindOf_isVec (n : Special) : (kindOf n.code).isVec = n.isVec := by cases n <;> rfl
@[simp] theorem Special.kindOf_ne_v (n : Special) : kindOf n.code ≠ .v := by cases n <;> decide
@[simp] theorem Special.kindOf_ne_s (n : Special) : kindOf n.code ≠ .s := by cases n <;> decide
@[simp] theorem Special.kindOf_ne_p (n : Special) : kindOf n.code ≠ .p := by cases n <;> decide
@[simp] theorem Special.kindOf_ne_bad (n : Special) : kindOf n.code ≠ .bad := by cases n <;> decide

/-! A code of another kind names no register of the class -/

theorem VReg.ofCode_none {x : BitVec 9} (h : kindOf x ≠ .v) : VReg.ofCode x = none := by
  rw [← Option.not_isSome_iff_eq_none, Option.isSome_iff_exists]
  rintro ⟨n, hn⟩
  rw [VReg.ofCode_eq_some] at hn
  exact h (hn ▸ kindOf_vreg n)
@[simp] theorem VReg.ofCode_code (n : VReg) : VReg.ofCode (VReg.code n) = some n := VReg.ofCode_eq_some.mpr rfl
theorem SReg.ofCode_none {x : BitVec 9} (h : kindOf x ≠ .s) : SReg.ofCode x = none := by
  rw [← Option.not_isSome_iff_eq_none, Option.isSome_iff_exists]
  rintro ⟨n, hn⟩
  rw [SReg.ofCode_eq_some] at hn
  exact h (hn ▸ kindOf_sreg n)
@[simp] theorem SReg.ofCode_code (n : SReg) : SReg.ofCode (SReg.code n) = some n := SReg.ofCode_eq_some.mpr rfl
theorem PReg.ofCode_none {x : BitVec 9} (h : kindOf x ≠ .p) : PReg.ofCode x = none := by
  rw [← Option.not_isSome_iff_eq_none, Option.isSome_iff_exists]
  rintro ⟨n, hn⟩
  rw [PReg.ofCode_eq_some] at hn
  exact h (hn ▸ kindOf_preg n)
@[simp] theorem PReg.ofCode_code (n : PReg) : PReg.ofCode (PReg.code n) = some n := PReg.ofCode_eq_some.mpr rfl
theorem VReg.exists_code {x : BitVec 9} (h : kindOf x = .v) : ∃ n : VReg, x = VReg.code n := by
  unfold kindOf at h
  split at h
  next hx => exact ⟨⟨x.toNat, hx⟩, by rw [← BitVec.toNat_inj, VReg.code_toNat]⟩
  repeat' split at h
  all_goals cases h
theorem SReg.exists_code {x : BitVec 9} (h : kindOf x = .s) : ∃ n : SReg, x = SReg.code n := by
  unfold kindOf at h
  split at h
  · cases h
  next hx =>
    split at h
    next hy => exact ⟨⟨x.toNat - 128, by omega⟩, by rw [← BitVec.toNat_inj, SReg.code_toNat]; dsimp only; omega⟩
    repeat' split at h
    all_goals cases h
@[simp] theorem VReg.ofCode_480 : VReg.ofCode code480 = none := rfl
@[simp] theorem SReg.ofCode_480 : SReg.ofCode code480 = none := rfl
@[simp] theorem PReg.ofCode_480 : PReg.ofCode code480 = none := rfl
@[simp] theorem Special.ofCode_code (n : Special) : Special.ofCode n.code = some n := Special.ofCode_eq_some.mpr rfl

/-! Operands of several classes -/

@[simp] theorem Src.ofCode_code (y : Src) : Src.ofCode y.code = some y := by
  cases y <;> simp [Src.ofCode, Src.code, VReg.ofCode_none, SReg.ofCode_none]
@[simp] theorem Src.ofCode_eq_some {x : BitVec 9} {y : Src} : Src.ofCode x = some y ↔ x = y.code := by
  refine ⟨fun h => ?_, fun h => h ▸ Src.ofCode_code y⟩
  unfold Src.ofCode at h
  split at h
  · cases h; exact VReg.ofCode_eq_some.mp ‹_›
  split at h
  · cases h; exact SReg.ofCode_eq_some.mp ‹_›
  obtain ⟨z, hz, rfl⟩ := Option.map_eq_some_iff.mp h
  exact Special.ofCode_eq_some.mp hz
@[simp] theorem Dst.ofCode_code (y : Dst) : Dst.ofCode y.code = some y := by
  cases y <;> simp [Dst.ofCode, Dst.code, VReg.ofCode_none]
@[simp] theorem Dst.ofCode_eq_some {x : BitVec 9} {y : Dst} : Dst.ofCode x = some y ↔ x = y.code := by
  refine ⟨fun h => ?_, fun h => h ▸ Dst.ofCode_code y⟩
  unfold Dst.ofCode at h
  split at h
  · cases h; exact VReg.ofCode_eq_some.mp ‹_›
  split at h
  · cases h; exact SReg.ofCode_eq_some.mp ‹_›
  split at h
  · cases h; exact eq_of_beq ‹_›
  · cases h
@[simp] theorem DstP.ofCode_code (y : DstP) : DstP.ofCode y.code = some y := by
  cases y <;> simp [DstP.ofCode, DstP.code, VReg.ofCode_none, SReg.ofCode_none]
@[simp] theorem DstP.ofCode_eq_some {x : BitVec 9} {y : DstP} : DstP.ofCode x = some y ↔ x = y.code := by
  refine ⟨fun h => ?_, fun h => h ▸ DstP.ofCode_code y⟩
  unfold DstP.ofCode at h
  split at h
  · cases h; exact VReg.ofCode_eq_some.mp ‹_›
  split at h
  · cases h; exact SReg.ofCode_eq_some.mp ‹_›
  split at h
  · cases h; exact PReg.ofCode_eq_some.mp ‹_›
  split at h
  · cases h; exact eq_of_beq ‹_›
  · cases h
@[simp] theorem VDst.ofCode_code (y : VDst) : VDst.ofCode y.code = some y := by
  cases y <;> simp [VDst.ofCode, VDst.code]
@[simp] theorem VDst.ofCode_eq_some {x : BitVec 9} {y : VDst} : VDst.ofCode x = some y ↔ x = y.code := by
  refine ⟨fun h => ?_, fun h => h ▸ VDst.ofCode_code y⟩
  unfold VDst.ofCode at h
  split at h
  · cases h; exact VReg.ofCode_eq_some.mp ‹_›
  split at h
  · cases h; exact eq_of_beq ‹_›
  · cases h
@[simp] theorem SDst.ofCode_code (y : SDst) : SDst.ofCode y.code = some y := by
  cases y <;> simp [SDst.ofCode, SDst.code]
@[simp] theorem SDst.ofCode_eq_some {x : BitVec 9} {y : SDst} : SDst.ofCode x = some y ↔ x = y.code := by
  refine ⟨fun h => ?_, fun h => h ▸ SDst.ofCode_code y⟩
  unfold SDst.ofCode at h
  split at h
  · cases h; exact SReg.ofCode_eq_some.mp ‹_›
  split at h
  · cases h; exact eq_of_beq ‹_›
  · cases h
@[simp] theorem PDst.ofCode_code (y : PDst) : PDst.ofCode y.code = some y := by
  cases y <;> simp [PDst.ofCode, PDst.code]
@[simp] theorem PDst.ofCode_eq_some {x : BitVec 9} {y : PDst} : PDst.ofCode x = some y ↔ x = y.code := by
  refine ⟨fun h => ?_, fun h => h ▸ PDst.ofCode_code y⟩
  unfold PDst.ofCode at h
  split at h
  · cases h; exact PReg.ofCode_eq_some.mp ‹_›
  split at h
  · cases h; exact eq_of_beq ‹_›
  · cases h
@[simp] theorem VS.ofCode_code (y : VS) : VS.ofCode y.code = some y := by
  cases y <;> simp [VS.ofCode, VS.code, VReg.ofCode_none]
@[simp] theorem VS.ofCode_eq_some {x : BitVec 9} {y : VS} : VS.ofCode x = some y ↔ x = y.code := by
  refine ⟨fun h => ?_, fun h => h ▸ VS.ofCode_code y⟩
  unfold VS.ofCode at h
  split at h
  · cases h; exact VReg.ofCode_eq_some.mp ‹_›
  obtain ⟨z, hz, rfl⟩ := Option.map_eq_some_iff.mp h
  exact SReg.ofCode_eq_some.mp hz
@[simp] theorem Idx.ofCode_code (y : Idx) : Idx.ofCode y.code = some y := by
  cases y <;> simp [Idx.ofCode, Idx.code, VReg.ofCode_none]
theorem eq_480_of_kindOf {x : BitVec 9} (h : kindOf x = .zero) : x = code480 := by
  unfold kindOf at h
  repeat' split at h
  case h_1 => exact BitVec.eq_of_toNat_eq ‹_›
  all_goals cases h
/-- The index of a memory operand, once its field's class is checked (R57 check 0x08): the decoder relies on that check. -/
theorem Idx.ofCode_eq_some {x : BitVec 9} {y : Idx} (hk : kindOf x = .v ∨ kindOf x = .s ∨ kindOf x = .zero) :
    Idx.ofCode x = some y ↔ x = y.code := by
  refine ⟨fun h => ?_, fun h => h ▸ Idx.ofCode_code y⟩
  unfold Idx.ofCode at h
  split at h
  · cases h; exact VReg.ofCode_eq_some.mp ‹_›
  split at h
  · cases h; exact SReg.ofCode_eq_some.mp ‹_›
  have h480 : x = code480 := by
    rcases hk with hk | hk | hk
    · obtain ⟨n, hn⟩ := VReg.exists_code hk
      simp_all
    · obtain ⟨n, hn⟩ := SReg.exists_code hk
      simp_all
    · exact eq_480_of_kindOf hk
  subst h480
  cases h; rfl
theorem Src.kindOf_ne_p (x : Src) : kindOf x.code ≠ .p := by
  cases x <;> simp [Src.code]
@[simp] theorem SelCond.ofCode_code (y : SelCond) : SelCond.ofCode y.code = some y := by
  cases y <;> simp [SelCond.ofCode, SelCond.code, PReg.ofCode_none, Src.kindOf_ne_p]
@[simp] theorem SelCond.ofCode_eq_some {x : BitVec 9} {y : SelCond} : SelCond.ofCode x = some y ↔ x = y.code := by
  refine ⟨fun h => ?_, fun h => h ▸ SelCond.ofCode_code y⟩
  unfold SelCond.ofCode at h
  split at h
  · cases h; exact PReg.ofCode_eq_some.mp ‹_›
  obtain ⟨z, hz, rfl⟩ := Option.map_eq_some_iff.mp h
  exact Src.ofCode_eq_some.mp hz
@[simp] theorem WakeG.ofCode_code (y : WakeG) : WakeG.ofCode y.code = some y := by
  cases y with
  | s n => simp only [WakeG.ofCode, WakeG.code, SReg.ofCode_code]
  | _ => rfl
@[simp] theorem WakeG.ofCode_eq_some {x : BitVec 9} {y : WakeG} : WakeG.ofCode x = some y ↔ x = y.code := by
  refine ⟨fun h => ?_, fun h => h ▸ WakeG.ofCode_code y⟩
  unfold WakeG.ofCode at h
  split at h
  · cases h; exact SReg.ofCode_eq_some.mp ‹_›
  split at h
  · cases h; exact eq_of_beq ‹_›
  · cases h
@[simp] theorem WakeM.ofCode_code (y : WakeM) : WakeM.ofCode y.code = some y := by
  cases y with
  | s n => simp only [WakeM.ofCode, WakeM.code, SReg.ofCode_code]
  | _ => rfl
@[simp] theorem WakeM.ofCode_eq_some {x : BitVec 9} {y : WakeM} : WakeM.ofCode x = some y ↔ x = y.code := by
  refine ⟨fun h => ?_, fun h => h ▸ WakeM.ofCode_code y⟩
  unfold WakeM.ofCode at h
  split at h
  · cases h; exact SReg.ofCode_eq_some.mp ‹_›
  split at h
  · cases h; exact eq_of_beq ‹_›
  · cases h


/-! ## Modifiers: a code is read as the modifier that has it -/

@[simp] theorem Rnd.ofCode_eq_some {x : BitVec 3} {y : Rnd} : Rnd.ofCode x = some y ↔ x = y.code := by
  cases y <;> revert x <;> decide
@[simp] theorem Cond.ofCode_eq_some {x : BitVec 3} {y : Cond} : Cond.ofCode x = some y ↔ x = y.code := by
  cases y <;> revert x <;> decide
@[simp] theorem Hint.ofCode_eq_some {x : BitVec 3} {y : Hint} : Hint.ofCode x = some y ↔ x = y.code := by
  cases y <;> revert x <;> decide
@[simp] theorem Scope.ofCode_eq_some {x : BitVec 3} {y : Scope} : Scope.ofCode x = some y ↔ x = y.code := by
  cases y <;> revert x <;> decide
@[simp] theorem FenceKind.ofCode_eq_some {x : BitVec 4} {y : FenceKind} : FenceKind.ofCode x = some y ↔ x = y.code := by
  cases y <;> revert x <;> decide
@[simp] theorem AOp.ofCode_eq_some {x : BitVec 3} {y : AOp} : AOp.ofCode x = some y ↔ x = y.code := by
  cases y <;> revert x <;> decide
@[simp] theorem RedOp.ofCode_eq_some {x : BitVec 3} {y : RedOp} : RedOp.ofCode x = some y ↔ x = y.code := by
  cases y <;> revert x <;> decide
@[simp] theorem VoteMode.ofCode_eq_some {x : BitVec 2} {y : VoteMode} : VoteMode.ofCode x = some y ↔ x = y.code := by
  cases y <;> revert x <;> decide
@[simp] theorem ShflMode.ofCode_eq_some {x : BitVec 2} {y : ShflMode} : ShflMode.ofCode x = some y ↔ x = y.code := by
  cases y <;> revert x <;> decide
@[simp] theorem PsetOp.ofCode_eq_some {x : BitVec 2} {y : PsetOp} : PsetOp.ofCode x = some y ↔ x = y.code := by
  cases y <;> revert x <;> decide
@[simp] theorem LimbSize.ofCode_eq_some {x : BitVec 3} {y : LimbSize} : LimbSize.ofCode x = some y ↔ x = y.code := by
  cases y <;> revert x <;> decide
@[simp] theorem CpyDir.ofCode_eq_some {x : BitVec 2} {y : CpyDir} : CpyDir.ofCode x = some y ↔ x = y.code := by
  cases y <;> revert x <;> decide
@[simp] theorem DrainOp.ofCode_eq_some {x : BitVec 2} {y : DrainOp} : DrainOp.ofCode x = some y ↔ x = y.code := by
  cases y <;> revert x <;> decide
@[simp] theorem DrainKind.ofCode_eq_some {x : BitVec 1} {y : DrainKind} : DrainKind.ofCode x = some y ↔ x = y.code := by
  cases y <;> revert x <;> decide
@[simp] theorem SignalOp.ofCode_eq_some {x : BitVec 2} {y : SignalOp} : SignalOp.ofCode x = some y ↔ x = y.code := by
  cases y <;> revert x <;> decide
@[simp] theorem GuardMode.ofCode_eq_some {x : BitVec 2} {y : GuardMode} : GuardMode.ofCode x = some y ↔ x = y.code := by
  cases y <;> revert x <;> decide
@[simp] theorem SysReg.ofCode_eq_some {x : BitVec 12} {y : SysReg} : SysReg.ofCode x = some y ↔ x = y.code := by
  constructor
  · intro h
    unfold SysReg.ofCode at h
    split at h <;> cases h <;> exact BitVec.eq_of_toNat_eq ‹_›
  · rintro rfl; cases y <;> rfl
@[simp] theorem Ord.ofCode_eq_some {x : BitVec 5} {y : Ord} : Ord.ofCode x = some y ↔ x = y.code := by
  rcases y with _ | s | s
  · revert x; decide
  all_goals cases s <;> revert x <;> decide
/-- R51, R52: in a type set no two types share a code. -/
@[simp] theorem TSet.of_eq_some {t : TSet} {x : BitVec 4} {y : Ty} : TSet.of t x = some y ↔ t.has y = true ∧ x = y.code := by
  cases t <;> cases y <;> revert x <;> decide
/-- R188. -/
theorem slotOf_eq {x : BitVec 4} (h : x.toNat ∈ [0, 4, 5, 6, 7]) {y : Option (Fin 4)} : slotOf x = y ↔ x = slotCode y := by
  revert h; revert x; revert y; decide

/-! ## The checks of a word (R57), as one condition -/

/-- Checks 0x07 to 0x0A of one field. -/
def Field.holds (f : Field) (x : BitVec 9) : Bool :=
  (f.isBits || kindOf x != .bad) && f.classOk x && f.unusedOk x && f.alignOk x

/-- What checks 0x04 to 0x0D ask of a word with the guard and scheduling fields `k`. -/
structure Raw.Checked (r : Raw) (k : Ctl) : Prop where
  var : (opcodeVars r.opc.toNat).contains r.var.toNat = true
  fields : ∀ y ∈ r.fields, y.2.1.holds y.2.2 = true
  cheval : (r.opc == 0x79#8 && kindOf r.d == .s && kindOf r.e == .p) = false
  form : (r.fields.any (fun x => x.2.1.isS x.2.2) && r.fields.any (fun x => x.2.1.isVecSource x.2.2)) = false
  hint : (if 0x80 ≤ r.opc.toNat && r.opc.toNat ≤ 0x89 then 5#3 else 0#3).ult r.hint = false
  ctl : k.ok (!(noReuse r.opc.toNat || !(shape r).a.isReg r.a)) (!(noReuse r.opc.toNat || !(shape r).b.isReg r.b))
    (!(noReuse r.opc.toNat || !(shape r).c.isReg r.c)) = true

theorem firstField_eq_none {fs : List (BitVec 8 × Field × BitVec 9)} {bad : Field → BitVec 9 → Bool} :
    firstField fs bad = none ↔ ∀ y ∈ fs, bad y.2.1 y.2.2 = false := by
  simp [firstField]

theorem ite_some_eq_none {p : Prop} [Decidable p] {α : Type} {x : α} {y : Option α} :
    (if p then some x else y) = none ↔ ¬p ∧ y = none := by
  by_cases p <;> simp [*]

theorem Raw.checkHead_eq_none {r : Raw} : r.checkHead = none ↔ (opcodeVars r.opc.toNat).contains r.var.toNat = true ∧
    r.gm ≠ 3#2 ∧ (r.gm = 0#2 → r.g2 = 0#4 ∧ r.n2 = false) := by
  have hempty : (opcodeVars r.opc.toNat).contains r.var.toNat = true → (opcodeVars r.opc.toNat).isEmpty = false := by
    cases opcodeVars r.opc.toNat <;> simp
  simp only [Raw.checkHead, ite_some_eq_none]
  simp
  grind

theorem toFin_eq {n : Nat} {x : BitVec n} {y : Fin (2 ^ n)} : x.toFin = y ↔ x = BitVec.ofNat n y.val := by
  rw [← BitVec.toNat_inj, Fin.ext_iff, BitVec.toNat_ofNat, Nat.mod_eq_of_lt y.isLt, BitVec.val_toFin]

theorem Raw.ctl_eq_some {r : Raw} {k : Ctl} : r.ctl = some k ↔ r.g1 = BitVec.ofNat 4 k.p1.val ∧ r.n1 = k.n1 ∧
    r.g2 = BitVec.ofNat 4 k.p2.val ∧ r.n2 = k.n2 ∧ r.gm = k.gm.code ∧ r.stall = k.stall ∧ r.yld = k.yld ∧ r.reuse = k.reuse := by
  obtain ⟨p1, n1, p2, n2, gm, stall, yld, reuse⟩ := k
  simp only [Raw.ctl, bind, Option.bind_eq_some_iff, GuardMode.ofCode_eq_some, Option.some.injEq, Ctl.mk.injEq]
  rw [← toFin_eq (x := r.g1), ← toFin_eq (x := r.g2)]
  constructor
  · rintro ⟨gm', hgm, h1, h2, h3, h4, rfl, h5⟩
    exact ⟨h1, h2, h3, h4, hgm, h5⟩
  · rintro ⟨h1, h2, h3, h4, hgm, h5⟩
    exact ⟨gm, hgm, h1, h2, h3, h4, rfl, h5⟩

/-- A field holds where none of checks 0x07 to 0x0A finds an error in it. -/
theorem Field.holds_iff {f : Field} {x : BitVec 9} : f.holds x = true ↔
    (!f.isBits && kindOf x == .bad) = false ∧ (!f.classOk x) = false ∧ (!f.unusedOk x) = false ∧ (!f.alignOk x) = false := by
  simp only [Field.holds, Bool.and_eq_true, Bool.or_eq_true, bne_iff_ne, Bool.and_eq_false_iff, Bool.not_eq_false', beq_eq_false_iff_ne,
    and_assoc]

theorem Raw.checkFields_eq_none {r : Raw} : r.checkFields = none ↔ (∀ y ∈ r.fields, y.2.1.holds y.2.2 = true) ∧
    (r.opc == 0x79#8 && kindOf r.d == .s && kindOf r.e == .p) = false ∧
    (r.fields.any (fun x => x.2.1.isS x.2.2) && r.fields.any (fun x => x.2.1.isVecSource x.2.2)) = false ∧
    (if 0x80 ≤ r.opc.toNat && r.opc.toNat ≤ 0x89 then 5#3 else 0#3).ult r.hint = false ∧
    (r.reuse.getLsbD 2 && (noReuse r.opc.toNat || !(shape r).a.isReg r.a)) = false ∧
    (r.reuse.getLsbD 1 && (noReuse r.opc.toNat || !(shape r).b.isReg r.b)) = false ∧
    (r.reuse.getLsbD 0 && (noReuse r.opc.toNat || !(shape r).c.isReg r.c)) = false := by
  have hf : (∀ y ∈ r.fields, y.2.1.holds y.2.2 = true) ↔ firstField r.fields (fun f x => !f.isBits && kindOf x == .bad) = none ∧
      firstField r.fields (fun f x => !f.classOk x) = none ∧ firstField r.fields (fun f x => !f.unusedOk x) = none ∧
      firstField r.fields (fun f x => !f.alignOk x) = none := by
    simp only [firstField_eq_none, Field.holds_iff, imp_and, forall_and]
  simp only [hf, Raw.checkFields]
  rcases firstField r.fields (fun f x => !f.isBits && kindOf x == .bad) with _ | n
  rcases firstField r.fields (fun f x => !f.classOk x) with _ | n
  rcases firstField r.fields (fun f x => !f.unusedOk x) with _ | n
  rcases firstField r.fields (fun f x => !f.alignOk x) with _ | n
  all_goals simp only [ite_some_eq_none, Bool.not_eq_true, reduceCtorEq, true_and, and_true, false_and, and_false]

theorem Ctl.ok_iff {k : Ctl} {a b x : Bool} : k.ok a b x = true ↔ (k.gm = .one → k.p2 = 0 ∧ k.n2 = false) ∧
    (k.reuse.getLsbD 2 && !a) = false ∧ (k.reuse.getLsbD 1 && !b) = false ∧ (k.reuse.getLsbD 0 && !x) = false := by
  simp only [Ctl.ok, Bool.and_eq_true, Bool.or_eq_true, bne_iff_ne, beq_iff_eq, Bool.not_eq_true', Bool.and_eq_false_iff,
    Bool.not_eq_false', and_assoc, ← imp_iff_not_or, ne_eq]

theorem Raw.checked_iff {r : Raw} {k : Ctl} (hk : r.ctl = some k) :
    r.Checked k ↔ r.checkHead = none ∧ r.checkFields = none := by
  obtain ⟨-, -, hg2, hn2, hgm, -, -, hreuse⟩ := Raw.ctl_eq_some.mp hk
  have h3 : k.gm.code ≠ 3#2 := by cases k.gm <;> decide
  have h0 : k.gm.code = 0#2 ↔ k.gm = .one := by cases k.gm <;> decide
  have hp : BitVec.ofNat 4 k.p2.val = 0#4 ↔ k.p2 = 0 := by
    rw [eq_comm, ← toFin_eq, eq_comm]; rfl
  have hctl := @Ctl.ok_iff k (!(noReuse r.opc.toNat || !(shape r).a.isReg r.a)) (!(noReuse r.opc.toNat || !(shape r).b.isReg r.b))
    (!(noReuse r.opc.toNat || !(shape r).c.isReg r.c))
  rw [Raw.checkHead_eq_none, Raw.checkFields_eq_none, hg2, hn2, hgm, hreuse, h0, hp]
  simp only [Bool.not_not] at hctl
  constructor
  · rintro ⟨hvar, hfields, hcheval, hform, hhint, hok⟩
    obtain ⟨hone, ha, hb, hx⟩ := hctl.mp hok
    exact ⟨⟨hvar, h3, hone⟩, hfields, hcheval, hform, hhint, ha, hb, hx⟩
  · rintro ⟨⟨hvar, -, hone⟩, hfields, hcheval, hform, hhint, ha, hb, hx⟩
    exact ⟨hvar, hfields, hcheval, hform, hhint, hctl.mpr ⟨hone, ha, hb, hx⟩⟩

/-- A word decodes where its fields pass the checks and its operands build an instruction. -/
theorem decodeRaw_eq_ok {r : Raw} {i : Instr} :
    decodeRaw r = .ok i ↔ ∃ k, r.ctl = some k ∧ r.Checked k ∧ r.build k = some i := by
  unfold decodeRaw
  constructor
  · intro h
    split at h
    · cases h
    split at h
    · cases h
    split at h
    next hb =>
      cases h
      obtain ⟨k, hk, hbuild⟩ := Option.bind_eq_some_iff.mp hb
      exact ⟨k, hk, (Raw.checked_iff hk).mpr ⟨‹_›, ‹_›⟩, hbuild⟩
    · cases h
  · rintro ⟨k, hk, hch, hbuild⟩
    obtain ⟨hh, hf⟩ := (Raw.checked_iff hk).mp hch
    simp only [hh, hf, hk, Option.bind_some, hbuild]

/-! ## Operands in their fields: what a field's checks ask of an operand's code (R36, R40, R42, R47) -/

/-- What makes a field's kind a register, for check 0x0D. -/
def Kind.isReg (k : Kind) : Bool := k == .v || k == .s

@[simp] theorem Field.isReg_op (ks : List Kind) (w : Nat) (t : Bool) (x : BitVec 9) : (Field.op ks w t).isReg x = (kindOf x).isReg := rfl
@[simp] theorem Field.isS_dst (ks : List Kind) (w : Nat) (x : BitVec 9) : (Field.op ks w true).isS x = (kindOf x == .s) := rfl
@[simp] theorem Field.isS_src (ks : List Kind) (w : Nat) (x : BitVec 9) : (Field.op ks w false).isS x = false := rfl
@[simp] theorem Field.isVecSource_dst (ks : List Kind) (w : Nat) (x : BitVec 9) : (Field.op ks w true).isVecSource x = false := rfl
@[simp] theorem Field.isVecSource_src (ks : List Kind) (w : Nat) (x : BitVec 9) :
    (Field.op ks w false).isVecSource x = (kindOf x).isVec := rfl
@[simp] theorem Field.isReg_unused (x : BitVec 9) : Field.unused.isReg x = false := rfl
@[simp] theorem Field.isS_unused (x : BitVec 9) : Field.unused.isS x = false := rfl
@[simp] theorem Field.isVecSource_unused (x : BitVec 9) : Field.unused.isVecSource x = false := rfl
@[simp] theorem Field.isReg_bits (x : BitVec 9) : Field.bits.isReg x = false := rfl
@[simp] theorem Field.isS_bits (x : BitVec 9) : Field.bits.isS x = false := rfl
@[simp] theorem Field.isVecSource_bits (x : BitVec 9) : Field.bits.isVecSource x = false := rfl
@[simp] theorem Field.holds_bits (x : BitVec 9) : Field.bits.holds x = true := rfl
@[simp] theorem Field.holds_unused (x : BitVec 9) : Field.unused.holds x = (x == code480) := by
  by_cases h : x = code480
  · subst h; rfl
  · simp [Field.holds, Field.isBits, Field.classOk, Field.unusedOk, Field.alignOk, h]

/-- A code of an operand field holds there by its kind and, for a register, its alignment. -/
theorem Field.holds_op (ks : List Kind) (w : Nat) (t : Bool) (x : BitVec 9) : (Field.op ks w t).holds x =
    (kindOf x != .bad && (ks.contains (kindOf x) && !(w == 128 && !t && (kindOf x).isSpecial)) &&
      match kindOf x with
      | .v => vAligned w x.toNat
      | .s => sAligned w (x.toNat - 128)
      | _ => true) := by
  cases h : kindOf x <;> simp [Field.holds, Field.isBits, Field.classOk, Field.unusedOk, Field.alignOk, h]

@[simp] theorem vAligned_32 (n : Nat) : vAligned 32 n = true := rfl
@[simp] theorem sAligned_32 (n : Nat) : sAligned 32 n = true := rfl
@[simp] theorem sAligned_64 (n : Nat) : sAligned 64 n = true := rfl
@[simp] theorem kindOf_482 : kindOf 482#9 = .grp := rfl
@[simp] theorem kindOf_489 : kindOf 489#9 = .amask := rfl
@[simp] theorem Kind.isReg_values : Kind.v.isReg = true ∧ Kind.s.isReg = true ∧ Kind.p.isReg = false ∧ Kind.t.isReg = false ∧
    Kind.f.isReg = false ∧ Kind.b.isReg = false ∧ Kind.zero.isReg = false ∧ Kind.grp.isReg = false ∧ Kind.amask.isReg = false := by
  and_intros <;> rfl
@[simp] theorem Kind.isVec_values : Kind.v.isVec = true ∧ Kind.s.isVec = false ∧ Kind.p.isVec = true ∧ Kind.t.isVec = false ∧
    Kind.f.isVec = false ∧ Kind.b.isVec = false ∧ Kind.zero.isVec = false ∧ Kind.grp.isVec = false ∧ Kind.amask.isVec = false := by
  and_intros <;> rfl
@[simp] theorem Kind.isSpecial_values : Kind.v.isSpecial = false ∧ Kind.s.isSpecial = false ∧ Kind.p.isSpecial = false ∧
    Kind.t.isSpecial = false ∧ Kind.f.isSpecial = false ∧ Kind.b.isSpecial = false ∧ Kind.zero.isSpecial = true ∧
    Kind.grp.isSpecial = true ∧ Kind.amask.isSpecial = true := by
  and_intros <;> rfl
@[simp] theorem Special.kindOf_isReg (x : Special) : (kindOf x.code).isReg = false := by cases x <;> rfl
@[simp] theorem Src.kind_isReg (x : Src) : (kindOf x.code).isReg = x.isReg := by
  cases x <;> simp [Src.code, Src.isReg]
@[simp] theorem Src.kind_isVec (x : Src) : (kindOf x.code).isVec = x.isVec := by
  cases x <;> simp [Src.code, Src.isVec]
@[simp] theorem Dst.kind_isReg (x : Dst) : (kindOf x.code).isReg = x.isReg := by
  cases x <;> simp [Dst.code, Dst.isReg]
@[simp] theorem Dst.kind_isVec (x : Dst) : (kindOf x.code).isVec = x.isVec := by
  cases x <;> simp [Dst.code, Dst.isVec]
@[simp] theorem Dst.kind_isS (x : Dst) : (kindOf x.code == .s) = x.isS := by
  cases x <;> simp [Dst.code, Dst.isS]
@[simp] theorem DstP.kind_isS (x : DstP) : (kindOf x.code == .s) = x.isS := by
  cases x <;> simp [DstP.code, DstP.isS]
@[simp] theorem VDst.kind_isS (x : VDst) : (kindOf x.code == .s) = false := by
  cases x <;> simp [VDst.code]
@[simp] theorem SDst.kind_isReg (x : SDst) : (kindOf x.code).isReg = x.isReg := by
  cases x <;> simp [SDst.code, SDst.isReg]
@[simp] theorem SDst.kind_isVec (x : SDst) : (kindOf x.code).isVec = false := by
  cases x <;> simp [SDst.code]
@[simp] theorem SDst.kind_isS (x : SDst) : (kindOf x.code == .s) = x.isReg := by
  cases x <;> simp [SDst.code, SDst.isReg]
@[simp] theorem PDst.kind_isS (x : PDst) : (kindOf x.code == .s) = false := by
  cases x <;> simp [PDst.code]
@[simp] theorem VS.kind_isReg (x : VS) : (kindOf x.code).isReg = true := by
  cases x <;> simp [VS.code]
@[simp] theorem VS.kind_isVec (x : VS) : (kindOf x.code).isVec = x.isVec := by
  cases x <;> simp [VS.code, VS.isVec]
@[simp] theorem Idx.kind_isReg (x : Idx) : (kindOf x.code).isReg = x.isReg := by
  cases x <;> simp [Idx.code, Idx.isReg]
@[simp] theorem Idx.kind_isVec (x : Idx) : (kindOf x.code).isVec = x.isVec := by
  cases x <;> simp [Idx.code, Idx.isVec]
@[simp] theorem SelCond.kind_isReg (x : SelCond) : (kindOf x.code).isReg = x.isReg := by
  cases x <;> simp [SelCond.code, SelCond.isReg]
@[simp] theorem SelCond.kind_isVec (x : SelCond) : (kindOf x.code).isVec = x.isVec := by
  cases x <;> simp [SelCond.code, SelCond.isVec]
@[simp] theorem WakeG.kind_isReg (x : WakeG) : (kindOf x.code).isReg = x.isReg := by
  cases x <;> simp [WakeG.code, WakeG.isReg]
@[simp] theorem WakeG.kind_isVec (x : WakeG) : (kindOf x.code).isVec = false := by
  cases x <;> simp [WakeG.code]
@[simp] theorem WakeM.kind_isReg (x : WakeM) : (kindOf x.code).isReg = x.isReg := by
  cases x <;> simp [WakeM.code, WakeM.isReg]
@[simp] theorem WakeM.kind_isVec (x : WakeM) : (kindOf x.code).isVec = false := by
  cases x <;> simp [WakeM.code]
@[simp] theorem SleepN.kind_isReg (x : SleepN) : (kindOf x.code).isReg = x.isReg := by
  cases x <;> simp [SleepN.code, SleepN.isReg]
theorem Special.kindOf_mem (x : Special) : kindOf x.code ∈ [Kind.zero, .grp, .amask, .uni, .vec] := by cases x <;> decide
@[simp] theorem Dst.holds_d (w : Nat) (x : Dst) : (Shapes.d w).holds x.code = x.fits w := by
  cases x <;> simp [Shapes.d, Field.holds_op, Dst.code, Dst.fits]
@[simp] theorem DstP.holds_dp (w : Nat) (x : DstP) : (Shapes.dp w).holds x.code = x.fits w := by
  cases x <;> simp [Shapes.dp, Field.holds_op, DstP.code, DstP.fits]
@[simp] theorem VDst.holds_vz (w : Nat) (x : VDst) : (Shapes.vz w).holds x.code = x.fits w := by
  cases x <;> simp [Shapes.vz, Field.holds_op, VDst.code, VDst.fits]
@[simp] theorem VS.holds_vs (w : Nat) (x : VS) : (Shapes.vs w).holds x.code = x.fits w := by
  cases x <;> simp [Shapes.vs, Field.holds_op, VS.code, VS.fits]
@[simp] theorem Dst.holds_vsz (x : Dst) : (Shapes.vsz).holds x.code = true := by
  cases x <;> simp [Shapes.vsz, Field.holds_op, Dst.code]
@[simp] theorem Idx.holds_vsz (x : Idx) : (Shapes.vsz).holds x.code = true := by
  cases x <;> simp [Shapes.vsz, Field.holds_op, Idx.code]
@[simp] theorem SleepN.holds_vsz (x : SleepN) : (Shapes.vsz).holds x.code = true := by
  cases x <;> simp [Shapes.vsz, Field.holds_op, SleepN.code]
@[simp] theorem Col.holds_vsz (x : Col) : (Shapes.vsz).holds x.code = true := by
  cases x <;> simp [Shapes.vsz, Field.holds_op, Col.code]
@[simp] theorem SDst.holds_sz (x : SDst) : (Shapes.sz).holds x.code = true := by
  cases x <;> simp [Shapes.sz, Field.holds_op, SDst.code]
@[simp] theorem SDst.holds_dsz (x : SDst) : (Shapes.dsz).holds x.code = true := by
  cases x <;> simp [Shapes.dsz, Field.holds_op, SDst.code]
@[simp] theorem PDst.holds_dpz (x : PDst) : (Shapes.dpz).holds x.code = true := by
  cases x <;> simp [Shapes.dpz, Field.holds_op, PDst.code]
@[simp] theorem Src.holds_i (w : Nat) (x : Src) : (Shapes.i w).holds x.code = x.fits w := by
  cases x with
  | sp y =>
    have h := y.kindOf_mem
    simp only [List.mem_cons, List.not_mem_nil, or_false] at h
    rcases h with h | h | h | h | h <;> simp [Shapes.i, Field.holds_op, Src.code, Src.fits, Kind.isSpecial, bne, h]
  | _ n => simp [Shapes.i, Field.holds_op, Src.code, Src.fits]
@[simp] theorem SelCond.holds (x : SelCond) :
    (Field.op [.p, .v, .s, .zero, .grp, .amask, .uni, .vec] 32 false).holds x.code = true := by
  cases x with
  | p n => simp [Field.holds_op, SelCond.code]
  | i y =>
    cases y with
    | sp z =>
      have h := z.kindOf_mem
      simp only [List.mem_cons, List.not_mem_nil, or_false] at h
      rcases h with h | h | h | h | h <;> simp [Field.holds_op, SelCond.code, Src.code, h]
    | _ n => simp [Field.holds_op, SelCond.code, Src.code]
@[simp] theorem WakeG.holds (x : WakeG) : (Field.op [.s, .grp] 32 false).holds x.code = true := by
  cases x <;> simp [Field.holds_op, WakeG.code]
@[simp] theorem WakeM.holds (x : WakeM) : (Field.op [.s, .amask] 32 false).holds x.code = true := by
  cases x <;> simp [Field.holds_op, WakeM.code]
@[simp] theorem SImm.holds_sz {w : Nat} (x : SImm w) : Shapes.sz.holds x.code = true := by
  cases x <;> simp [Shapes.sz, Field.holds_op, SImm.code]
@[simp] theorem SImm.kind_isReg {w : Nat} (x : SImm w) : (kindOf x.code).isReg = x.isReg := by
  cases x <;> simp [SImm.code, SImm.isReg]

/-! Fields of one class -/

@[simp] theorem VReg.holds (n : VReg) : Shapes.v.holds (VReg.code n) = true := by simp [Shapes.v, Field.holds_op]
@[simp] theorem SReg.holds (n : SReg) : Shapes.s.holds (SReg.code n) = true := by simp [Shapes.s, Field.holds_op]
@[simp] theorem SReg.holds_ds (n : SReg) : Shapes.ds.holds (SReg.code n) = true := by simp [Shapes.ds, Field.holds_op]
@[simp] theorem SReg.holds_s2 (n : SReg) : Shapes.s2.holds (SReg.code n) = sEven n := by
  simp [Shapes.s2, Field.holds_op, sAligned, sEven]
@[simp] theorem PReg.holds (n : PReg) : Shapes.p.holds (PReg.code n) = true := by simp [Shapes.p, Field.holds_op]
@[simp] theorem PReg.holds_dpd (n : PReg) : Shapes.dpd.holds (PReg.code n) = true := by simp [Shapes.dpd, Field.holds_op]
@[simp] theorem TReg.holds (n : TReg) : Shapes.t.holds (TReg.code n) = true := by simp [Shapes.t, Field.holds_op]
@[simp] theorem CReg.holds (n : CReg) : Shapes.f.holds (CReg.code n) = true := by simp [Shapes.f, Field.holds_op]
@[simp] theorem BReg.holds (n : BReg) : Shapes.b.holds (BReg.code n) = true := by simp [Shapes.b, Field.holds_op]

/-! Fields that may be left out -/

@[simp] theorem optCode_holds_vz (x : Option VReg) : (Field.op [.v, .zero] 32 false).holds (optCode VReg.code x) = true := by
  cases x <;> simp [optCode, Field.holds_op]
@[simp] theorem optCode_holds_pz (x : Option PReg) : Shapes.pz.holds (optCode PReg.code x) = true := by
  cases x <;> simp [optCode, Shapes.pz, Field.holds_op]
@[simp] theorem optCode_holds_dpz (x : Option PReg) : Shapes.dpz.holds (optCode PReg.code x) = true := by
  cases x <;> simp [optCode, Shapes.dpz, Field.holds_op]
@[simp] theorem optCode_holds_sz (x : Option SReg) : Shapes.sz.holds (optCode SReg.code x) = true := by
  cases x <;> simp [optCode, Shapes.sz, Field.holds_op]
@[simp] theorem optCode_holds_bz (x : Option BReg) : Shapes.bz.holds (optCode BReg.code x) = true := by
  cases x <;> simp [optCode, Shapes.bz, Field.holds_op]
@[simp] theorem optCode_vreg_isReg (x : Option VReg) : (kindOf (optCode VReg.code x)).isReg = x.isSome := by
  cases x <;> simp [optCode]
@[simp] theorem optCode_preg_isReg (x : Option PReg) : (kindOf (optCode PReg.code x)).isReg = false := by
  cases x <;> simp [optCode]
@[simp] theorem optCode_breg_isReg (x : Option BReg) : (kindOf (optCode BReg.code x)).isReg = false := by
  cases x <;> simp [optCode]
@[simp] theorem optCode_preg_ne_s (x : Option PReg) : (kindOf (optCode PReg.code x) == .s) = false := by
  cases x <;> simp [optCode]
@[simp] theorem optCode_preg_eq_p (x : Option PReg) : (kindOf (optCode PReg.code x) == .p) = x.isSome := by
  cases x <;> simp [optCode]
@[simp] theorem optCode_sreg_isVec (x : Option SReg) : (kindOf (optCode SReg.code x)).isVec = false := by
  cases x <;> simp [optCode]
@[simp] theorem optCode_breg_isVec (x : Option BReg) : (kindOf (optCode BReg.code x)).isVec = false := by
  cases x <;> simp [optCode]

/-! Fields that may be left out are read as they were written -/

theorem optOf_eq_some {α : Type} {f : BitVec 9 → Option α} {g : α → BitVec 9} (hf : ∀ x n, f x = some n ↔ x = g n)
    (hg : ∀ n, g n ≠ code480) {x : BitVec 9} {y : Option α} : optOf f x = some y ↔ x = optCode g y := by
  unfold optOf
  split
  next h =>
    obtain rfl := eq_of_beq h
    cases y with
    | none => simp [optCode]
    | some n => simpa [optCode] using (hg n).symm
  next h =>
    cases y with
    | none => simpa [optCode] using h
    | some n => simp [optCode, hf]
@[simp] theorem optOf_vreg {x : BitVec 9} {y : Option VReg} : optOf VReg.ofCode x = some y ↔ x = optCode VReg.code y :=
  optOf_eq_some (fun _ _ => VReg.ofCode_eq_some) (fun n h => by simpa using congrArg kindOf h)
@[simp] theorem optOf_sreg {x : BitVec 9} {y : Option SReg} : optOf SReg.ofCode x = some y ↔ x = optCode SReg.code y :=
  optOf_eq_some (fun _ _ => SReg.ofCode_eq_some) (fun n h => by simpa using congrArg kindOf h)
@[simp] theorem optOf_preg {x : BitVec 9} {y : Option PReg} : optOf PReg.ofCode x = some y ↔ x = optCode PReg.code y :=
  optOf_eq_some (fun _ _ => PReg.ofCode_eq_some) (fun n h => by simpa using congrArg kindOf h)
@[simp] theorem optOf_breg {x : BitVec 9} {y : Option BReg} : optOf BReg.ofCode x = some y ↔ x = optCode BReg.code y :=
  optOf_eq_some (fun _ _ => BReg.ofCode_eq_some) (fun n h => by simpa using congrArg kindOf h)

/-! A register in its field, or a number in ext (R188, R281, R356, R376) -/

@[simp] theorem SImm.of_eq_some {w : Nat} (hw : w ≤ 16) {x : BitVec 9} {ext : BitVec 16} {y : SImm w} :
    SImm.of w x ext = some y ↔ x = y.code ∧ ext = y.ext := by
  have hs (n : SReg) : SReg.code n ≠ code480 := fun h => by simpa using congrArg kindOf h
  have hback (z : BitVec w) : (z.setWidth 16).setWidth w = z := by simp [hw]
  unfold SImm.of
  split
  next h =>
    obtain rfl := eq_of_beq h
    cases y with
    | s n => simpa [SImm.code] using fun h => absurd h.symm (hs n)
    | imm z =>
      simp only [Option.ite_none_right_eq_some, beq_iff_eq, Option.some.injEq, SImm.imm.injEq, SImm.code, SImm.ext, true_and]
      constructor
      · rintro ⟨he, rfl⟩; exact he.symm
      · rintro rfl; simp [hback]
  next h =>
    cases y with
    | s n => simp [SImm.code, SImm.ext, and_comm]
    | imm z => simpa [SImm.code] using fun hx => absurd hx (by simpa using h)
@[simp] theorem VReg.code_ne_480 (n : VReg) : VReg.code n ≠ code480 := fun h => by simpa using congrArg kindOf h
@[simp] theorem SReg.code_ne_480 (n : SReg) : SReg.code n ≠ code480 := fun h => by simpa using congrArg kindOf h
@[simp] theorem SleepN.of_eq_some {x : BitVec 9} {ext : BitVec 16} {y : SleepN} :
    SleepN.of x ext = some y ↔ x = y.code ∧ ext = y.ext := by
  constructor
  · intro h
    unfold SleepN.of at h
    split at h
    next hx => cases h; exact ⟨eq_of_beq hx, rfl⟩
    split at h
    next he =>
      split at h
      next hv => cases h; exact ⟨VReg.ofCode_eq_some.mp hv, eq_of_beq he⟩
      · obtain ⟨n, hn, rfl⟩ := Option.map_eq_some_iff.mp h
        exact ⟨SReg.ofCode_eq_some.mp hn, eq_of_beq he⟩
    · cases h
  · rintro ⟨rfl, rfl⟩
    cases y <;> simp [SleepN.of, SleepN.code, SleepN.ext, VReg.ofCode_none]
@[simp] theorem Col.of_eq_some {x : BitVec 9} {ext : BitVec 16} {y : Col} :
    Col.of x ext = some y ↔ y.ok = true ∧ x = y.code ∧ ext = y.ext := by
  constructor
  · intro h
    unfold Col.of at h
    split at h
    next hx =>
      split at h
      · cases h
      next he => cases h; exact ⟨by simpa [Col.ok] using he, eq_of_beq hx, rfl⟩
    split at h
    next he =>
      split at h
      next hv => cases h; exact ⟨rfl, VReg.ofCode_eq_some.mp hv, eq_of_beq he⟩
      · obtain ⟨n, hn, rfl⟩ := Option.map_eq_some_iff.mp h
        exact ⟨rfl, SReg.ofCode_eq_some.mp hn, eq_of_beq he⟩
    · cases h
  · rintro ⟨hok, rfl, rfl⟩
    cases y <;> simp_all [Col.of, Col.code, Col.ext, Col.ok, VReg.ofCode_none]

/-! ## The ext field: its pieces, and the bits outside them -/

theorem append_eq_iff {v w : Nat} {a : BitVec v} {b : BitVec w} {x : BitVec (v + w)} :
    a ++ b = x ↔ a = x.extractLsb' w v ∧ b = x.extractLsb' 0 w := by
  constructor
  · rintro rfl
    exact ⟨BitVec.extractLsb'_append_eq_left.symm, BitVec.extractLsb'_append_eq_right.symm⟩
  · rintro ⟨rfl, rfl⟩
    rw [BitVec.extractLsb'_append_extractLsb'_eq_extractLsb' (by omega), BitVec.extractLsb'_eq_self]

theorem and_append_eq_zero {v w : Nat} {x : BitVec (v + w)} {a : BitVec v} {b : BitVec w} :
    x &&& (a ++ b) = 0#(v + w) ↔ x.extractLsb' w v &&& a = 0#v ∧ x.extractLsb' 0 w &&& b = 0#w := by
  obtain ⟨y, z, rfl⟩ : ∃ (y : BitVec v) (z : BitVec w), x = y ++ z := ⟨_, _, (append_eq_iff.mpr ⟨rfl, rfl⟩).symm⟩
  rw [BitVec.and_append, append_eq_iff]
  simp [BitVec.extractLsb'_append_eq_right, BitVec.extractLsb'_append_eq_left]

/-- The bits of `x` outside a mask whose complement is the upper `v` bits. -/
theorem mask_low {v w : Nat} {x m : BitVec (v + w)} (h : m = BitVec.allOnes v ++ 0#w) : x &&& m = 0#(v + w) ↔ x.extractLsb' w v = 0#v := by
  simp [h, and_append_eq_zero]

@[simp] theorem Raw.extIn_001 {r : Raw} : r.extIn 0x0001#16 = true ↔ r.ext.extractLsb' 1 15 = 0#15 :=
  beq_iff_eq.trans <| mask_low (v := 15) (w := 1) (by decide)
@[simp] theorem Raw.extIn_003 {r : Raw} : r.extIn 0x0003#16 = true ↔ r.ext.extractLsb' 2 14 = 0#14 :=
  beq_iff_eq.trans <| mask_low (v := 14) (w := 2) (by decide)
@[simp] theorem Raw.extIn_007 {r : Raw} : r.extIn 0x0007#16 = true ↔ r.ext.extractLsb' 3 13 = 0#13 :=
  beq_iff_eq.trans <| mask_low (v := 13) (w := 3) (by decide)
@[simp] theorem Raw.extIn_00F {r : Raw} : r.extIn 0x000F#16 = true ↔ r.ext.extractLsb' 4 12 = 0#12 :=
  beq_iff_eq.trans <| mask_low (v := 12) (w := 4) (by decide)
@[simp] theorem Raw.extIn_01F {r : Raw} : r.extIn 0x001F#16 = true ↔ r.ext.extractLsb' 5 11 = 0#11 :=
  beq_iff_eq.trans <| mask_low (v := 11) (w := 5) (by decide)
@[simp] theorem Raw.extIn_07F {r : Raw} : r.extIn 0x007F#16 = true ↔ r.ext.extractLsb' 7 9 = 0#9 :=
  beq_iff_eq.trans <| mask_low (v := 9) (w := 7) (by decide)
@[simp] theorem Raw.extIn_0FF {r : Raw} : r.extIn 0x00FF#16 = true ↔ r.ext.extractLsb' 8 8 = 0#8 :=
  beq_iff_eq.trans <| mask_low (v := 8) (w := 8) (by decide)
@[simp] theorem Raw.extIn_1FF {r : Raw} : r.extIn 0x01FF#16 = true ↔ r.ext.extractLsb' 9 7 = 0#7 :=
  beq_iff_eq.trans <| mask_low (v := 7) (w := 9) (by decide)
@[simp] theorem Raw.extIn_7FF {r : Raw} : r.extIn 0x07FF#16 = true ↔ r.ext.extractLsb' 11 5 = 0#5 :=
  beq_iff_eq.trans <| mask_low (v := 5) (w := 11) (by decide)
@[simp] theorem Raw.extIn_FFF {r : Raw} : r.extIn 0x0FFF#16 = true ↔ r.ext.extractLsb' 12 4 = 0#4 :=
  beq_iff_eq.trans <| mask_low (v := 4) (w := 12) (by decide)
/-- A mask with a gap of `w` bits below its complement's upper `v` bits. -/
theorem mask_mid {u v w : Nat} {x m : BitVec (v + (u + w))} (h : m = BitVec.allOnes v ++ (0#u ++ BitVec.allOnes w)) :
    x &&& m = 0#(v + (u + w)) ↔ x.extractLsb' (u + w) v = 0#v ∧ x.extractLsb' 0 w = 0#w := by
  simp [h, and_append_eq_zero, BitVec.extractLsb'_extractLsb'_of_le]
@[simp] theorem Raw.extIn_070 {r : Raw} : r.extIn 0x0070#16 = true ↔ r.ext.extractLsb' 7 9 = 0#9 ∧ r.ext.extractLsb' 0 4 = 0#4 :=
  beq_iff_eq.trans <| mask_mid (v := 9) (u := 3) (w := 4) (by decide)
@[simp] theorem Raw.extIn_1F8 {r : Raw} : r.extIn 0x01F8#16 = true ↔ r.ext.extractLsb' 9 7 = 0#7 ∧ r.ext.extractLsb' 0 3 = 0#3 :=
  beq_iff_eq.trans <| mask_mid (v := 7) (u := 6) (w := 3) (by decide)
@[simp] theorem Raw.extIn_077 {r : Raw} : r.extIn 0x0077#16 = true ↔ r.ext.extractLsb' 7 9 = 0#9 ∧ r.ext.extractLsb' 3 1 = 0#1 := by
  have h : ~~~0x0077#16 = BitVec.allOnes 9 ++ (0#3 ++ (BitVec.allOnes 1 ++ 0#3)) := by decide
  refine beq_iff_eq.trans ?_
  rw [h]
  refine (and_append_eq_zero (v := 9) (w := 7)).trans ?_
  rw [and_append_eq_zero (v := 3) (w := 4), mask_low (v := 1) (w := 3) rfl, BitVec.and_allOnes]
  simp [BitVec.extractLsb'_extractLsb'_of_le]

/-! An ext value written in pieces is the one whose pieces they are -/

theorem ext_15_1 {a : BitVec 15} {b : BitVec 1} {x : BitVec 16} :
    a ++ b = x ↔ a = x.extractLsb' 1 15 ∧ b = x.extractLsb' 0 1 := append_eq_iff
theorem ext_12_1_3 {a : BitVec 12} {b : BitVec 1} {c : BitVec 3} {x : BitVec 16} :
    a ++ (b ++ c) = x ↔ a = x.extractLsb' 4 12 ∧ b = x.extractLsb' 3 1 ∧ c = x.extractLsb' 0 3 := by
  refine append_eq_iff.trans ?_
  rw [append_eq_iff]
  simp [BitVec.extractLsb'_extractLsb'_of_le]
theorem ext_9_3_4 {a : BitVec 9} {b : BitVec 3} {c : BitVec 4} {x : BitVec 16} :
    a ++ (b ++ c) = x ↔ a = x.extractLsb' 7 9 ∧ b = x.extractLsb' 4 3 ∧ c = x.extractLsb' 0 4 := by
  refine append_eq_iff.trans ?_
  rw [append_eq_iff]
  simp [BitVec.extractLsb'_extractLsb'_of_le]
theorem ext_9_3_1_3 {a : BitVec 9} {b : BitVec 3} {c : BitVec 1} {d : BitVec 3} {x : BitVec 16} :
    a ++ (b ++ (c ++ d)) = x ↔ a = x.extractLsb' 7 9 ∧ b = x.extractLsb' 4 3 ∧ c = x.extractLsb' 3 1 ∧ d = x.extractLsb' 0 3 := by
  refine append_eq_iff.trans ?_
  rw [append_eq_iff, append_eq_iff]
  simp [BitVec.extractLsb'_extractLsb'_of_le]
theorem ext_7_1_5_3 {a : BitVec 7} {b : BitVec 1} {c : BitVec 5} {d : BitVec 3} {x : BitVec 16} :
    a ++ (b ++ (c ++ d)) = x ↔ a = x.extractLsb' 9 7 ∧ b = x.extractLsb' 8 1 ∧ c = x.extractLsb' 3 5 ∧ d = x.extractLsb' 0 3 := by
  refine append_eq_iff.trans ?_
  rw [append_eq_iff, append_eq_iff]
  simp [BitVec.extractLsb'_extractLsb'_of_le]
theorem ext_5_6_2_3 {a : BitVec 5} {b : BitVec 6} {c : BitVec 2} {d : BitVec 3} {x : BitVec 16} :
    a ++ (b ++ (c ++ d : BitVec 5)) = x ↔
      a = x.extractLsb' 11 5 ∧ b = x.extractLsb' 5 6 ∧ c = x.extractLsb' 3 2 ∧ d = x.extractLsb' 0 3 := by
  refine append_eq_iff.trans ?_
  rw [append_eq_iff, append_eq_iff]
  simp [BitVec.extractLsb'_extractLsb'_of_le]
theorem ext_8_1_2_2_3 {a : BitVec 8} {b : BitVec 1} {c d : BitVec 2} {e : BitVec 3} {x : BitVec 16} :
    a ++ (b ++ (c ++ (d ++ e : BitVec 5))) = x ↔ a = x.extractLsb' 8 8 ∧ b = x.extractLsb' 7 1 ∧ c = x.extractLsb' 5 2 ∧
      d = x.extractLsb' 3 2 ∧ e = x.extractLsb' 0 3 := by
  refine append_eq_iff.trans ?_
  rw [append_eq_iff, append_eq_iff, append_eq_iff]
  simp [BitVec.extractLsb'_extractLsb'_of_le]
theorem ext_4_4_4_4 {a b c d : BitVec 4} {x : BitVec 16} : a ++ (b ++ (c ++ d)) = x ↔
    a = x.extractLsb' 12 4 ∧ b = x.extractLsb' 8 4 ∧ c = x.extractLsb' 4 4 ∧ d = x.extractLsb' 0 4 := by
  refine append_eq_iff.trans ?_
  rw [append_eq_iff, append_eq_iff]
  simp [BitVec.extractLsb'_extractLsb'_of_le]
theorem setWidth_eq_iff {n : Nat} (hn : n ≤ 16) {a : BitVec n} {x : BitVec 16} :
    a.setWidth 16 = x ↔ x.extractLsb' n (16 - n) = 0#(16 - n) ∧ a = x.setWidth n := by
  constructor
  · rintro rfl
    refine ⟨BitVec.eq_of_getLsbD_eq fun i hi => ?_, ?_⟩
    · simp [hi]
    · simp [hn]
  · rintro ⟨h, rfl⟩
    refine BitVec.eq_of_getLsbD_eq fun i hi => ?_
    by_cases hin : i < n
    · simp [hi, hin]
    · have := congrArg (BitVec.getLsbD · (i - n)) h
      simp [show i - n < 16 - n by omega, show n + (i - n) = i by omega, -BitVec.getLsbD_eq_getElem] at this
      simpa [hi, hin] using this.symm

/-! ## A word that decodes has its fields from its instruction -/

@[simp] theorem given_eq_some {α : Type} {b : Bool} {x : Option α} {y : α} : given b x = some y ↔ b = true ∧ x = some y := by
  cases b <;> simp [given]

/-- What a field holds where it holds: 480 if the opcode does not use it. -/
def Field.fill : Field → BitVec 9 → BitVec 9
  | .unused, _ => code480
  | _, x => x

/-- A word with all that its opcode fixes: the one var value that it may have, 480 in the unused fields, no hint. -/
def Raw.fill (r : Raw) : Raw :=
  { r with
    var := match opcodeVars r.opc.toNat with
      | [n] => BitVec.ofNat 4 n
      | _ => r.var
    d := (shape r).d.fill r.d
    a := (shape r).a.fill r.a
    b := (shape r).b.fill r.b
    c := (shape r).c.fill r.c
    e := (shape r).e.fill r.e
    hint := if 0x80 ≤ r.opc.toNat && r.opc.toNat ≤ 0x89 then r.hint else 0#3 }

theorem Field.fill_eq {f : Field} {x : BitVec 9} (h : f.holds x = true) : f.fill x = x := by
  cases f with
  | unused => exact (by simpa using h : x = code480).symm
  | _ => rfl

/-- Nothing of a checked word is other than what its opcode fixes. -/
theorem Raw.Checked.fill_eq {r : Raw} {k : Ctl} (h : r.Checked k) : r.fill = r := by
  have hvar : (match opcodeVars r.opc.toNat with | [n] => BitVec.ofNat 4 n | _ => r.var) = r.var := by
    have hv := h.var
    split
    next n hn =>
      rw [hn] at hv
      have : n = r.var.toNat := by simpa [eq_comm] using hv
      rw [this, BitVec.ofNat_toNat, BitVec.setWidth_eq]
    · rfl
  have hhint : (if 0x80 ≤ r.opc.toNat && r.opc.toNat ≤ 0x89 then r.hint else 0#3) = r.hint := by
    have hh := h.hint
    split
    · rfl
    next ho =>
      rw [if_neg ho] at hh
      revert hh; generalize r.hint = x; revert x; decide
  have hf := h.fields
  simp only [Raw.fields, List.forall_mem_cons] at hf
  obtain ⟨hd, ha, hb, hc, he, -⟩ := hf
  simp only [Raw.fill, hvar, hhint, Field.fill_eq hd, Field.fill_eq ha, Field.fill_eq hb, Field.fill_eq hc, Field.fill_eq he]

/-- An instruction whose word is the checked word, but for what the opcode fixes, has that word; its ext value may be written in
another way. -/
theorem toRaw_of_fill {r : Raw} {k : Ctl} {i : Instr} {x : BitVec 16} (hc : r.Checked k) (hx : x = r.ext)
    (h : i.toRaw = some { r.fill with ext := x }) : i.toRaw = some r := by
  subst hx
  exact h.trans (congrArg some hc.fill_eq)

/-- As `toRaw_of_fill`, where the use of one field depends on ext (R57, R188, R220, R264, R327): that field is kept as it is. -/
theorem toRaw_of_fill_keep {r s : Raw} {k : Ctl} {i : Instr} {x : BitVec 16} (hc : r.Checked k) (hx : x = r.ext)
    (hs : s = { r.fill with d := r.d } ∨ s = { r.fill with b := r.b } ∨ s = { r.fill with e := r.e })
    (h : i.toRaw = some ({ s with ext := x } : Raw)) : i.toRaw = some r := by
  rw [hc.fill_eq] at hs
  subst hx
  rcases hs with rfl | rfl | rfl <;> exact h

theorem eq_ofNat_of_toNat {w n : Nat} {x : BitVec w} (h : x.toNat = n) : x = BitVec.ofNat w n := by
  rw [← h, BitVec.ofNat_toNat, BitVec.setWidth_eq]

/-! The pieces of ext as an encoder writes them -/

theorem low_ext {n : Nat} {x : BitVec 16} {y : BitVec n} (hn : n ≤ 16) (h : x.extractLsb' n (16 - n) = 0#(16 - n))
    (hy : x.setWidth n = y) : y.setWidth 16 = x := (setWidth_eq_iff hn).mpr ⟨h, hy.symm⟩
theorem bit_ext {x : BitVec 16} (h : x.extractLsb' 1 15 = 0#15) : 0#15 ++ bit (x.getLsbD 0) = x :=
  ext_15_1.mpr ⟨h.symm, ofBool_getLsbD x 0⟩
theorem bit_low_ext {x : BitVec 16} {y : BitVec 3} (h : x.extractLsb' 4 12 = 0#12) (hy : x.setWidth 3 = y) :
    0#12 ++ (bit (x.getLsbD 3) ++ y) = x :=
  ext_12_1_3.mpr ⟨h.symm, ofBool_getLsbD x 3, hy ▸ BitVec.setWidth_eq_extractLsb' (by decide)⟩
theorem rnd_ext {x : BitVec 16} {y : Rnd} (h : x.extractLsb' 7 9 = 0#9) (h0 : x.extractLsb' 0 4 = 0#4)
    (hy : x.extractLsb' 4 3 = y.code) : y.ext = x := ext_9_3_4.mpr ⟨h.symm, hy.symm, h0.symm⟩
theorem fin_ofNat {n : Nat} (x : BitVec n) : BitVec.ofNat n (x.toFin : Fin (2 ^ n)).val = x := (toFin_eq.mp rfl).symm
theorem stream_ext {r : Raw} (h : r.ext.extractLsb' 3 13 = 0#13) : (BitVec.ofNat 3 r.stream.val).setWidth 16 = r.ext :=
  low_ext (by decide) h (by rw [Raw.stream, fin_ofNat]; exact BitVec.setWidth_eq_extractLsb' (by decide))
theorem rq_ext {r : Raw} (h : r.ext.extractLsb' 11 5 = 0#5) : (Rq.mk r.stream r.pri (r.ext.extractLsb' 5 6)).ext = r.ext :=
  ext_5_6_2_3.mpr ⟨h.symm, rfl, fin_ofNat _, fin_ofNat _⟩
theorem drain_ext {r : Raw} {op : DrainOp} {kd : DrainKind} (h : r.ext.extractLsb' 8 8 = 0#8) (hop : r.ext.extractLsb' 5 2 = op.code)
    (hkd : r.ext.extractLsb' 7 1 = kd.code) :
    0#8 ++ (kd.code ++ (op.code ++ (BitVec.ofNat 2 r.pri.val ++ BitVec.ofNat 3 r.stream.val : BitVec 5))) = r.ext :=
  ext_8_1_2_2_3.mpr ⟨h.symm, hkd.symm, hop.symm, fin_ofNat _, fin_ofNat _⟩
theorem tcvt_ext {r : Raw} {y : Rnd} (h : r.ext.extractLsb' 7 9 = 0#9) (h0 : r.ext.extractLsb' 3 1 = 0#1)
    (hy : r.ext.extractLsb' 4 3 = y.code) : 0#9 ++ (y.code ++ (0#1 ++ BitVec.ofNat 3 r.stream.val)) = r.ext :=
  ext_9_3_1_3.mpr ⟨h.symm, hy.symm, h0.symm, fin_ofNat _⟩
theorem atom_ext {x : BitVec 16} {o : Ord} {op : BitVec 3} (h : x.extractLsb' 9 7 = 0#7) (ho : x.extractLsb' 3 5 = o.code)
    (hop : x.extractLsb' 0 3 = op) : atomExt (x.getLsbD 8) o op = x :=
  ext_7_1_5_3.mpr ⟨h.symm, ofBool_getLsbD x 8, ho.symm, hop.symm⟩

/-! The number of a word that has one, and the memory operand -/

theorem Raw.withImm_imm (r s : Raw) : s.withImm r.imm = { s with c := r.c, e := r.e, ext := r.ext } := by
  have hc : r.imm.extractLsb' 25 9 = r.c := BitVec.extractLsb'_append_eq_left
  have he : r.imm.extractLsb' 16 9 = r.e :=
    (BitVec.extractLsb'_append_eq_of_add_le (by decide)).trans BitVec.extractLsb'_append_eq_left
  have hx : r.imm.extractLsb' 0 16 = r.ext :=
    (BitVec.extractLsb'_append_eq_of_add_le (by decide)).trans BitVec.extractLsb'_append_eq_right
  simp only [Raw.withImm, hc, he, hx]
theorem Raw.Checked.idx {r : Raw} {k : Ctl} (h : r.Checked k) (hs : (shape r).b = Shapes.vsz) :
    kindOf r.b = .v ∨ kindOf r.b = .s ∨ kindOf r.b = .zero := by
  have hb := h.fields (2#8, (shape r).b, r.b) (by simp [Raw.fields])
  rw [hs] at hb
  simp only [Shapes.vsz, Field.holds_op, Bool.and_eq_true, List.contains_iff_mem, List.mem_cons, List.not_mem_nil, or_false] at hb
  exact hb.1.2.1
theorem Raw.withAddr_addr {r : Raw} {m : Addr} (hb : kindOf r.b = .v ∨ kindOf r.b = .s ∨ kindOf r.b = .zero) (h : r.addr = some m)
    (s : Raw) : s.withAddr m = { s with a := r.a, b := r.b, e := r.e, ext := r.ext } := by
  simp only [Raw.addr, Option.bind_eq_bind, Option.bind_eq_some_iff, VS.ofCode_eq_some, Idx.ofCode_eq_some hb, Option.some.injEq] at h
  obtain ⟨base, ha, idx, hi, rfl⟩ := h
  have he : (r.e ++ r.ext).extractLsb' 16 9 = r.e := BitVec.extractLsb'_append_eq_left
  have hx : (r.e ++ r.ext).extractLsb' 0 16 = r.ext := BitVec.extractLsb'_append_eq_right
  simp only [Raw.withAddr, ← ha, ← hi]
  rw [he, hx]

/-- Opcodes with a whole form of their own at var 1 (R151, R220, R302). -/
theorem var_eq_one {x : BitVec 4} (h : [0, 1].contains x.toNat = true) (h0 : ¬x = 0#4) : x = 1#4 := by
  revert h h0; revert x; decide
theorem exists_slot {x : BitVec 4} (h : [0, 4, 5, 6, 7].contains x.toNat = true) : ∃ sl, x = slotCode sl :=
  ⟨slotOf x, (slotOf_eq (by simpa using h)).mp rfl⟩
@[simp] theorem slotOf_slotCode (sl : Option (Fin 4)) : slotOf (slotCode sl) = sl := by revert sl; decide

theorem toRaw_of_buildControl {r : Raw} {k : Ctl} {i : Instr} (hk : r.ctl = some k) (hc : r.Checked k)
    (h : buildControl r k = some i) : i.toRaw = some r := by
  obtain ⟨opc, var, g1, n1, g2, n2, gm, d, a, b, c, e, hint, stall, yld, reuse, ext⟩ := r
  obtain ⟨rfl, rfl, rfl, rfl, rfl, rfl, rfl, rfl⟩ := Raw.ctl_eq_some.mp hk
  unfold buildControl at h
  split at h
  case h_17 => cases h
  all_goals
    rename_i hopc
    obtain rfl := eq_ofNat_of_toNat hopc
    simp only [Option.bind_eq_bind, given_eq_some, Option.bind_eq_some_iff, Option.some.injEq, beq_iff_eq, VS.ofCode_eq_some, VDst.ofCode_eq_some, PDst.ofCode_eq_some, WakeG.ofCode_eq_some, WakeM.ofCode_eq_some, SDst.ofCode_eq_some, SysReg.ofCode_eq_some, SleepN.of_eq_some, optOf_vreg, Raw.extIn_0FF, Raw.extIn_FFF, Bool.or_eq_true] at h
  case h_1 | h_7 | h_8 | h_13 =>
    obtain ⟨rfl, rfl⟩ := h
    exact toRaw_of_fill hc rfl rfl
  case h_2 =>
    subst h
    exact toRaw_of_fill hc rfl (congrArg some (Raw.withImm_imm _ _))
  case h_3 | h_6 =>
    obtain ⟨rfl, t, rfl, rfl⟩ := h
    exact toRaw_of_fill hc rfl rfl
  case h_4 =>
    obtain ⟨l, rfl, rfl⟩ := h
    exact toRaw_of_fill hc rfl ((congrArg (fun s : Raw => some ({ s with d := l.code } : Raw)) (Raw.withImm_imm _ _)).trans rfl)
  case h_5 | h_11 =>
    obtain ⟨rfl, l, rfl, t, rfl, rfl⟩ := h
    exact toRaw_of_fill hc rfl rfl
  case h_9 =>
    subst h
    exact toRaw_of_fill hc (ext_4_4_4_4.mpr ⟨rfl, rfl, rfl, rfl⟩) rfl
  case h_10 =>
    obtain ⟨d, rfl, n, ⟨rfl, rfl⟩, rfl⟩ := h
    exact toRaw_of_fill hc rfl rfl
  case h_12 | h_14 =>
    obtain ⟨hx, rfl⟩ := h
    exact toRaw_of_fill hc (low_ext (by decide) hx rfl) rfl
  case h_15 =>
    obtain ⟨hx, d, rfl, ix, hix, rfl⟩ := h
    exact toRaw_of_fill hc (low_ext (by decide) hx hix) rfl
  case h_16 =>
    obtain ⟨hx, ix, hix, a, rfl, rfl⟩ := h
    have hhigh : ext.extractLsb' 12 4 = 0#4 := by rcases hx with (rfl | rfl) | rfl <;> rfl
    exact toRaw_of_fill hc (low_ext (by decide) hhigh hix) rfl

theorem toRaw_of_buildCross {r : Raw} {k : Ctl} {i : Instr} (hk : r.ctl = some k) (hc : r.Checked k)
    (h : buildCross r k = some i) : i.toRaw = some r := by
  obtain ⟨opc, var, g1, n1, g2, n2, gm, d, a, b, c, e, hint, stall, yld, reuse, ext⟩ := r
  obtain ⟨rfl, rfl, rfl, rfl, rfl, rfl, rfl, rfl⟩ := Raw.ctl_eq_some.mp hk
  unfold buildCross at h
  split at h
  case h_5 => cases h
  all_goals
    rename_i hopc
    obtain rfl := eq_ofNat_of_toNat hopc
    simp only [Option.bind_eq_bind, given_eq_some, Option.bind_eq_some_iff, Option.some.injEq, VoteMode.ofCode_eq_some, DstP.ofCode_eq_some, PReg.ofCode_eq_some, ShflMode.ofCode_eq_some, VDst.ofCode_eq_some, Src.ofCode_eq_some, RedOp.ofCode_eq_some, TSet.of_eq_some, optOf_preg, Raw.extIn_003, Raw.extIn_007, Raw.extIn_00F] at h
  case h_1 =>
    obtain ⟨hx, m, hm, d, rfl, a, rfl, rfl⟩ := h
    exact toRaw_of_fill_keep hc (low_ext (by decide) hx hm) (.inl rfl) rfl
  case h_2 =>
    obtain ⟨hx, ty, ⟨-, rfl⟩, m, hm, d, rfl, a, rfl, n, rfl, p, rfl, rfl⟩ := h
    exact toRaw_of_fill hc (low_ext (by decide) hx hm) rfl
  case h_3 =>
    obtain ⟨hx, op, hop, ty, ⟨-, rfl⟩, -, d, rfl, a, rfl, rfl⟩ := h
    exact toRaw_of_fill hc (low_ext (by decide) hx hop) rfl
  case h_4 =>
    obtain ⟨hx, op, hop, ty, ⟨-, rfl⟩, -, d, rfl, a, rfl, rfl⟩ := h
    exact toRaw_of_fill hc (bit_low_ext hx hop) rfl

theorem toRaw_of_buildInteger {r : Raw} {k : Ctl} {i : Instr} (hk : r.ctl = some k) (hc : r.Checked k)
    (h : buildInteger r k = some i) : i.toRaw = some r := by
  obtain ⟨opc, var, g1, n1, g2, n2, gm, d, a, b, c, e, hint, stall, yld, reuse, ext⟩ := r
  obtain ⟨rfl, rfl, rfl, rfl, rfl, rfl, rfl, rfl⟩ := Raw.ctl_eq_some.mp hk
  unfold buildInteger at h
  split at h
  case h_30 => cases h
  all_goals
    rename_i hopc
    obtain rfl := eq_ofNat_of_toNat hopc
    simp only [Option.bind_eq_bind, given_eq_some, Option.bind_eq_some_iff, Option.some.injEq, beq_iff_eq, Dst.ofCode_eq_some, DstP.ofCode_eq_some, Src.ofCode_eq_some, VS.ofCode_eq_some, SelCond.ofCode_eq_some, PReg.ofCode_eq_some, Cond.ofCode_eq_some, PsetOp.ofCode_eq_some, TSet.of_eq_some, Raw.extIn_001, Raw.extIn_003, Raw.extIn_007, Raw.extIn_00F] at h
  case h_1 | h_11 | h_15 | h_22 | h_23 | h_24 =>
    obtain ⟨rfl, ty, ⟨-, rfl⟩, d, rfl, a, rfl, rfl⟩ := h
    exact toRaw_of_fill hc rfl rfl
  case h_2 =>
    obtain ⟨ty, ⟨-, rfl⟩, d, rfl, rfl⟩ := h
    exact toRaw_of_fill hc rfl ((congrArg (fun s : Raw => some ({ s with d := d.code } : Raw)) (Raw.withImm_imm _ _)).trans rfl)
  case h_3 | h_4 | h_5 | h_6 | h_9 | h_10 | h_12 | h_13 | h_14 | h_16 | h_17 | h_18 | h_19 =>
    obtain ⟨rfl, ty, ⟨-, rfl⟩, d, rfl, a, rfl, b, rfl, rfl⟩ := h
    exact toRaw_of_fill hc rfl rfl
  case h_7 | h_8 | h_20 | h_26 =>
    obtain ⟨rfl, ty, ⟨-, rfl⟩, d, rfl, a, rfl, b, rfl, x, rfl, rfl⟩ := h
    exact toRaw_of_fill hc rfl rfl
  case h_21 =>
    obtain ⟨rfl, ty, ⟨-, rfl⟩, d, rfl, a, rfl, b, rfl, p, rfl, l, rfl, rfl⟩ := h
    exact toRaw_of_fill hc rfl rfl
  case h_25 =>
    obtain ⟨hx, ty, ⟨-, rfl⟩, q, hq, d, rfl, a, rfl, b, rfl, rfl⟩ := h
    exact toRaw_of_fill hc (low_ext (by decide) hx hq) rfl
  case h_27 =>
    obtain ⟨hx, d, rfl, m, rfl, n, rfl, rfl⟩ := h
    exact toRaw_of_fill hc (bit_low_ext hx rfl) rfl
  case h_28 =>
    obtain ⟨hx, ty, ⟨-, rfl⟩, d, rfl, a, rfl, b, rfl, rfl⟩ := h
    exact toRaw_of_fill hc (bit_ext hx) rfl
  case h_29 =>
    obtain ⟨hx, op, hop, d, rfl, a, rfl, b, rfl, rfl⟩ := h
    exact toRaw_of_fill hc (low_ext (by decide) hx hop) rfl

theorem toRaw_of_buildLimb {r : Raw} {k : Ctl} {i : Instr} (hk : r.ctl = some k) (hc : r.Checked k)
    (h : buildLimb r k = some i) : i.toRaw = some r := by
  obtain ⟨opc, var, g1, n1, g2, n2, gm, d, a, b, c, e, hint, stall, yld, reuse, ext⟩ := r
  obtain ⟨rfl, rfl, rfl, rfl, rfl, rfl, rfl, rfl⟩ := Raw.ctl_eq_some.mp hk
  unfold buildLimb at h
  split at h
  case h_10 => cases h
  all_goals
    rename_i hopc
    obtain rfl := eq_ofNat_of_toNat hopc
    simp only [Option.bind_eq_bind, given_eq_some, Option.bind_eq_some_iff, Option.some.injEq, beq_iff_eq, LimbSize.ofCode_eq_some, VDst.ofCode_eq_some, VReg.ofCode_eq_some, Dst.ofCode_eq_some, Src.ofCode_eq_some, VS.ofCode_eq_some, Cond.ofCode_eq_some, PReg.ofCode_eq_some, optOf_preg, Raw.extIn_007, Raw.extIn_01F] at h
  case h_1 =>
    obtain ⟨hx, n, hn, rfl⟩ := h
    exact toRaw_of_fill hc (low_ext (by decide) hx hn) rfl
  case h_2 =>
    obtain ⟨rfl, rfl⟩ := h
    exact toRaw_of_fill hc rfl rfl
  case h_3 | h_4 =>
    obtain ⟨rfl, d, rfl, a, rfl, b, rfl, i, rfl, o, rfl, rfl⟩ := h
    exact toRaw_of_fill hc rfl rfl
  case h_5 | h_6 =>
    obtain ⟨rfl, d, rfl, a, rfl, n, rfl, o, rfl, rfl⟩ := h
    exact toRaw_of_fill hc rfl rfl
  case h_7 =>
    obtain ⟨hx, wd, rfl, -, d, rfl, a, rfl, hi, rfl, rfl⟩ := h
    exact toRaw_of_fill hc (low_ext (by decide) hx rfl) rfl
  case h_8 =>
    obtain ⟨hx, wd, rfl, -, d, rfl, a, rfl, acc, rfl, hi, rfl, rfl⟩ := h
    exact toRaw_of_fill hc (low_ext (by decide) hx rfl) rfl
  case h_9 =>
    obtain ⟨hx, q, hq, d, rfl, a, rfl, b, rfl, rfl⟩ := h
    exact toRaw_of_fill hc (low_ext (by decide) hx hq) rfl

theorem toRaw_of_buildFloat {r : Raw} {k : Ctl} {i : Instr} (hk : r.ctl = some k) (hc : r.Checked k)
    (h : buildFloat r k = some i) : i.toRaw = some r := by
  obtain ⟨opc, var, g1, n1, g2, n2, gm, d, a, b, c, e, hint, stall, yld, reuse, ext⟩ := r
  obtain ⟨rfl, rfl, rfl, rfl, rfl, rfl, rfl, rfl⟩ := Raw.ctl_eq_some.mp hk
  unfold buildFloat at h
  split at h
  case h_22 => cases h
  all_goals
    rename_i hopc
    obtain rfl := eq_ofNat_of_toNat hopc
    simp only [Option.bind_eq_bind, given_eq_some, Option.bind_eq_some_iff, Option.some.injEq, beq_iff_eq, Dst.ofCode_eq_some, DstP.ofCode_eq_some, Src.ofCode_eq_some, Cond.ofCode_eq_some, Rnd.ofCode_eq_some, TSet.of_eq_some, Raw.rnd, Raw.extIn_070, Raw.extIn_00F, Raw.extIn_1FF, Raw.extIn_07F] at h
  case h_1 | h_2 | h_3 | h_20 =>
    obtain ⟨⟨hx, h0⟩, ty, ⟨-, rfl⟩, r, hr, d, rfl, a, rfl, b, rfl, rfl⟩ := h
    exact toRaw_of_fill hc (rnd_ext hx h0 hr) rfl
  case h_4 | h_21 =>
    obtain ⟨⟨hx, h0⟩, ty, ⟨-, rfl⟩, r, hr, d, rfl, a, rfl, b, rfl, x, rfl, rfl⟩ := h
    exact toRaw_of_fill hc (rnd_ext hx h0 hr) rfl
  case h_5 | h_6 =>
    obtain ⟨rfl, ty, ⟨-, rfl⟩, d, rfl, a, rfl, b, rfl, rfl⟩ := h
    exact toRaw_of_fill hc rfl rfl
  case h_7 | h_8 =>
    obtain ⟨rfl, ty, ⟨-, rfl⟩, d, rfl, a, rfl, rfl⟩ := h
    exact toRaw_of_fill hc rfl rfl
  case h_9 =>
    obtain ⟨hx, ty, ⟨-, rfl⟩, q, hq, d, rfl, a, rfl, b, rfl, rfl⟩ := h
    exact toRaw_of_fill hc (bit_low_ext hx hq) rfl
  case h_10 =>
    obtain ⟨hx, d, rfl, -, ty, ⟨-, rfl⟩, a, rfl, rfl⟩ := h
    exact toRaw_of_fill hc (low_ext (by decide) hx rfl) rfl
  case h_11 | h_13 =>
    obtain ⟨⟨hx, h0⟩, r, hr, d, rfl, a, rfl, rfl⟩ := h
    exact toRaw_of_fill hc (rnd_ext hx h0 hr) rfl
  case h_12 | h_14 | h_15 | h_16 | h_17 =>
    obtain ⟨rfl, d, rfl, a, rfl, rfl⟩ := h
    exact toRaw_of_fill hc rfl rfl
  case h_18 =>
    obtain ⟨hx, dt, ⟨-, rfl⟩, st, ⟨-, hst⟩, -, r, hr, d, rfl, a, rfl, b, rfl, rfl⟩ := h
    exact toRaw_of_fill_keep hc (ext_9_3_4.mpr ⟨hx.symm, hr.symm, hst.symm⟩) (.inr (.inl rfl)) rfl
  case h_19 =>
    obtain ⟨⟨hx, h0⟩, ty, ⟨-, rfl⟩, r, hr, d, rfl, a, rfl, rfl⟩ := h
    exact toRaw_of_fill hc (rnd_ext hx h0 hr) rfl

theorem toRaw_of_buildFunction {r : Raw} {k : Ctl} {i : Instr} (hk : r.ctl = some k) (hc : r.Checked k)
    (h : buildFunction r k = some i) : i.toRaw = some r := by
  obtain ⟨opc, var, g1, n1, g2, n2, gm, d, a, b, c, e, hint, stall, yld, reuse, ext⟩ := r
  obtain ⟨rfl, rfl, rfl, rfl, rfl, rfl, rfl, rfl⟩ := Raw.ctl_eq_some.mp hk
  unfold buildFunction at h
  split at h
  case h_13 => cases h
  all_goals
    rename_i hopc
    obtain rfl := eq_ofNat_of_toNat hopc
    simp only [Option.bind_eq_bind, given_eq_some, Option.bind_eq_some_iff, Option.some.injEq, beq_iff_eq, CReg.ofCode_eq_some, SReg.ofCode_eq_some, SDst.ofCode_eq_some, VDst.ofCode_eq_some, Dst.ofCode_eq_some, Src.ofCode_eq_some, optOf_preg, SImm.of_eq_some (w := 9) (by decide), Raw.extIn_001] at h
  case h_1 =>
    obtain ⟨n, ⟨rfl, rfl⟩, -, f, rfl, s, rfl, m, rfl, rfl⟩ := h
    exact toRaw_of_fill hc rfl rfl
  case h_2 | h_3 | h_7 | h_8 | h_12 =>
    obtain ⟨rfl, f, rfl, g, rfl, rfl⟩ := h
    exact toRaw_of_fill hc rfl rfl
  case h_4 =>
    obtain ⟨hx, f, rfl, g, rfl, l, rfl, rfl⟩ := h
    exact toRaw_of_fill hc (bit_ext hx) rfl
  case h_5 | h_6 | h_9 =>
    obtain ⟨rfl, f, rfl, g, rfl, l, rfl, rfl⟩ := h
    exact toRaw_of_fill hc rfl rfl
  case h_10 =>
    obtain ⟨rfl, d, rfl, f, rfl, x, rfl, p, rfl, rfl⟩ := h
    exact toRaw_of_fill hc rfl rfl
  case h_11 =>
    obtain ⟨n, ⟨rfl, rfl⟩, -, f, rfl, g, rfl, rfl⟩ := h
    exact toRaw_of_fill hc rfl rfl

theorem toRaw_of_buildMemory {r : Raw} {k : Ctl} {i : Instr} (hk : r.ctl = some k) (hc : r.Checked k)
    (h : buildMemory r k = some i) : i.toRaw = some r := by
  obtain ⟨opc, var, g1, n1, g2, n2, gm, d, a, b, c, e, hint, stall, yld, reuse, ext⟩ := r
  obtain ⟨rfl, rfl, rfl, rfl, rfl, rfl, rfl, rfl⟩ := Raw.ctl_eq_some.mp hk
  unfold buildMemory at h
  split at h
  case h_11 => cases h
  all_goals
    rename_i hopc
    obtain rfl := eq_ofNat_of_toNat hopc
    simp only [Option.bind_eq_bind, given_eq_some, Option.bind_eq_some_iff, Option.some.injEq, beq_iff_eq, Hint.ofCode_eq_some, Dst.ofCode_eq_some, Src.ofCode_eq_some, FenceKind.ofCode_eq_some, Scope.ofCode_eq_some, SReg.ofCode_eq_some, TSet.of_eq_some, optOf_breg, Raw.extIn_007] at h
  case h_1 | h_3 | h_5 =>
    obtain ⟨q, rfl, ty, ⟨-, rfl⟩, d, rfl, m, hm, rfl⟩ := h
    exact toRaw_of_fill hc rfl ((congrArg (fun s : Raw => some ({ s with d := d.code, hint := q.code } : Raw)) (Raw.withAddr_addr (hc.idx rfl) hm _)).trans rfl)
  case h_2 | h_4 =>
    obtain ⟨q, rfl, ty, ⟨-, rfl⟩, m, hm, v, rfl, rfl⟩ := h
    exact toRaw_of_fill hc rfl ((congrArg (fun s : Raw => some ({ s with c := v.code, hint := q.code } : Raw)) (Raw.withAddr_addr (hc.idx rfl) hm _)).trans rfl)
  case h_6 =>
    obtain ⟨q, rfl, m, hm, rfl⟩ := h
    exact toRaw_of_fill hc rfl ((congrArg (fun s : Raw => some ({ s with hint := q.code } : Raw)) (Raw.withAddr_addr (hc.idx rfl) hm _)).trans rfl)
  case h_7 =>
    split at h
    next hv =>
      subst hv
      simp only [Option.bind_eq_some_iff, Option.some.injEq, Hint.ofCode_eq_some] at h
      obtain ⟨q, rfl, m, hm, rfl⟩ := h
      exact toRaw_of_fill hc rfl ((congrArg (fun s : Raw => some ({ s with hint := q.code } : Raw)) (Raw.withAddr_addr (hc.idx rfl) hm _)).trans rfl)
    next hv =>
      obtain rfl := var_eq_one hc.var hv
      simp only [given_eq_some, Option.bind_eq_some_iff, Option.some.injEq, Hint.ofCode_eq_some, Bool.and_eq_true, beq_iff_eq] at h
      obtain ⟨⟨rfl, rfl⟩, q, rfl, rfl⟩ := h
      exact toRaw_of_fill hc rfl rfl
  case h_8 =>
    obtain ⟨hx, q, rfl, x, rfl, s, hs, rfl⟩ := h
    exact toRaw_of_fill hc (low_ext (by decide) hx hs) rfl
  case h_9 =>
    obtain ⟨rfl, q, rfl, ty, ⟨-, rfl⟩, d, rfl, m, rfl, v, rfl, rfl⟩ := h
    exact toRaw_of_fill hc rfl rfl
  case h_10 =>
    obtain ⟨q, rfl, d, rfl, m, rfl, x, rfl, bk, rfl, rfl⟩ := h
    exact toRaw_of_fill hc BitVec.extractLsb'_append_eq_right
      ((congrArg (fun y => some ({ Raw.base 0x89#8 0#4 k with
        d := d.code, a := m.code, b := x.code, c := optCode BReg.code bk, e := y, ext := (e ++ ext).extractLsb' 0 16, hint := q.code } : Raw)) BitVec.extractLsb'_append_eq_left).trans rfl)

theorem toRaw_of_buildAtomic {r : Raw} {k : Ctl} {i : Instr} (hk : r.ctl = some k) (hc : r.Checked k)
    (h : buildAtomic r k = some i) : i.toRaw = some r := by
  obtain ⟨opc, var, g1, n1, g2, n2, gm, d, a, b, c, e, hint, stall, yld, reuse, ext⟩ := r
  obtain ⟨rfl, rfl, rfl, rfl, rfl, rfl, rfl, rfl⟩ := Raw.ctl_eq_some.mp hk
  unfold buildAtomic at h
  split at h
  case h_5 => cases h
  all_goals
    rename_i hopc
    obtain rfl := eq_ofNat_of_toNat hopc
    simp only [Option.bind_eq_bind, given_eq_some, Option.bind_eq_some_iff, Option.some.injEq, AOp.ofCode_eq_some, Ord.ofCode_eq_some, Dst.ofCode_eq_some, VS.ofCode_eq_some, Src.ofCode_eq_some, SReg.ofCode_eq_some, SDst.ofCode_eq_some, SignalOp.ofCode_eq_some, TSet.of_eq_some, Raw.extIn_1FF, Raw.extIn_1F8, Raw.extIn_003] at h
  case h_1 =>
    obtain ⟨hx, op, hop, ty, ⟨-, rfl⟩, -, o, ho, d, rfl, m, rfl, n, hn, v, rfl, rfl⟩ := h
    obtain rfl := (Idx.ofCode_eq_some (hc.idx rfl)).mp hn
    exact toRaw_of_fill hc (atom_ext hx ho ((BitVec.setWidth_eq_extractLsb' (by decide)).symm.trans hop)) rfl
  case h_2 =>
    obtain ⟨⟨hx, h0⟩, ty, ⟨-, rfl⟩, o, ho, d, rfl, m, rfl, n, hn, v, rfl, x, rfl, rfl⟩ := h
    obtain rfl := (Idx.ofCode_eq_some (hc.idx rfl)).mp hn
    exact toRaw_of_fill hc (atom_ext hx ho h0) rfl
  case h_3 =>
    obtain ⟨hx, op, hop, ty, ⟨-, rfl⟩, -, o, ho, m, rfl, n, hn, v, rfl, rfl⟩ := h
    obtain rfl := (Idx.ofCode_eq_some (hc.idx rfl)).mp hn
    exact toRaw_of_fill hc (atom_ext hx ho ((BitVec.setWidth_eq_extractLsb' (by decide)).symm.trans hop)) rfl
  case h_4 =>
    obtain ⟨hx, op, hop, m, rfl, v, rfl, rfl⟩ := h
    exact toRaw_of_fill hc (low_ext (by decide) hx hop) rfl

theorem toRaw_of_buildCopy {r : Raw} {k : Ctl} {i : Instr} (hk : r.ctl = some k) (hc : r.Checked k)
    (h : buildCopy r k = some i) : i.toRaw = some r := by
  obtain ⟨opc, var, g1, n1, g2, n2, gm, d, a, b, c, e, hint, stall, yld, reuse, ext⟩ := r
  obtain ⟨rfl, rfl, rfl, rfl, rfl, rfl, rfl, rfl⟩ := Raw.ctl_eq_some.mp hk
  unfold buildCopy at h
  split at h
  case h_7 => cases h
  all_goals
    rename_i hopc
    obtain rfl := eq_ofNat_of_toNat hopc
    simp only [Option.bind_eq_bind, given_eq_some, Option.bind_eq_some_iff, Option.some.injEq, beq_iff_eq, CpyDir.ofCode_eq_some, SDst.ofCode_eq_some, SReg.ofCode_eq_some, Rnd.ofCode_eq_some, TSet.of_eq_some, optOf_breg, Raw.rnd, Raw.extIn_003, Raw.extIn_07F] at h
  case h_1 =>
    obtain ⟨hx, q, hq, t, rfl, d, rfl, s, rfl, x, rfl, bk, rfl, rfl⟩ := h
    exact toRaw_of_fill_keep hc (low_ext (by decide) hx hq) (.inr (.inr rfl)) rfl
  case h_2 =>
    obtain ⟨rfl, ty, ⟨-, rfl⟩, t, rfl, d, rfl, s, rfl, x, rfl, bk, rfl, rfl⟩ := h
    exact toRaw_of_fill hc rfl rfl
  case h_3 =>
    split at h
    next hx =>
      subst hx
      simp only [Option.bind_eq_some_iff, Option.some.injEq, TSet.of_eq_some, SDst.ofCode_eq_some, SReg.ofCode_eq_some, optOf_breg] at h
      obtain ⟨ty, ⟨-, rfl⟩, t, rfl, d, rfl, s, rfl, x, rfl, bk, rfl, rfl⟩ := h
      exact toRaw_of_fill_keep hc rfl (.inr (.inr rfl)) rfl
    · simp only [given_eq_some, Option.bind_eq_some_iff, Option.some.injEq, SDst.ofCode_eq_some, SReg.ofCode_eq_some,
        Bool.and_eq_true, beq_iff_eq] at h
      obtain ⟨⟨rfl, rfl⟩, t, rfl, d, rfl, s, rfl, x, rfl, rfl⟩ := h
      have hs : (shape { (Raw.base 0x9A#8 6#4 k) with d := t.code, a := d.code, b := s.code, c := x.code, e, hint, ext := 1#16 }).e = .unused :=
        if_pos (show (6#4 == 6#4 && (1#16).getLsbD 0) = true from rfl)
      have he : (Field.unused).holds e = true :=
        hs ▸ hc.fields (4#8, _, e) (.tail _ (.tail _ (.tail _ (.tail _ (.head _)))))
      obtain rfl : code480 = e := Field.fill_eq he
      exact toRaw_of_fill_keep hc rfl (.inr (.inr rfl)) rfl
  case h_4 =>
    obtain ⟨hx, dt, ⟨-, rfl⟩, st, ⟨-, hst⟩, r, hr, t, rfl, d, rfl, s, rfl, x, rfl, rfl⟩ := h
    exact toRaw_of_fill hc (ext_9_3_4.mpr ⟨hx.symm, hr.symm, hst.symm⟩) rfl
  case h_5 =>
    obtain ⟨rfl, d, rfl, t, rfl, rfl⟩ := h
    exact toRaw_of_fill hc rfl rfl
  case h_6 =>
    obtain ⟨rfl, h⟩ := h
    split at h
    next hv =>
      subst hv
      simp only [Option.bind_eq_some_iff, Option.some.injEq, SDst.ofCode_eq_some] at h
      obtain ⟨t, rfl, rfl⟩ := h
      exact toRaw_of_fill hc rfl rfl
    next hv =>
      obtain rfl := var_eq_one hc.var hv
      cases h
      exact toRaw_of_fill hc rfl rfl

theorem toRaw_of_buildBarrier {r : Raw} {k : Ctl} {i : Instr} (hk : r.ctl = some k) (hc : r.Checked k)
    (h : buildBarrier r k = some i) : i.toRaw = some r := by
  obtain ⟨opc, var, g1, n1, g2, n2, gm, d, a, b, c, e, hint, stall, yld, reuse, ext⟩ := r
  obtain ⟨rfl, rfl, rfl, rfl, rfl, rfl, rfl, rfl⟩ := Raw.ctl_eq_some.mp hk
  unfold buildBarrier at h
  split at h
  case h_8 => cases h
  all_goals
    rename_i hopc
    obtain rfl := eq_ofNat_of_toNat hopc
    simp only [Option.bind_eq_bind, given_eq_some, Option.bind_eq_some_iff, Option.some.injEq, beq_iff_eq, BReg.ofCode_eq_some, DstP.ofCode_eq_some, SImm.of_eq_some (w := 12) (by decide), SImm.of_eq_some (w := 1) (by decide), SImm.of_eq_some (w := 16) (by decide)] at h
  case h_1 =>
    obtain ⟨n, ⟨rfl, rfl⟩, -, b, rfl, rfl⟩ := h
    exact toRaw_of_fill hc rfl rfl
  case h_2 | h_7 =>
    obtain ⟨rfl, b, rfl, rfl⟩ := h
    obtain ⟨sl, rfl⟩ := exists_slot hc.var
    rw [slotOf_slotCode]
    exact toRaw_of_fill hc rfl rfl
  case h_3 =>
    obtain ⟨b, rfl, n, ⟨rfl, rfl⟩, rfl⟩ := h
    exact toRaw_of_fill hc rfl rfl
  case h_4 =>
    obtain ⟨rfl, b, rfl, rfl⟩ := h
    exact toRaw_of_fill hc rfl rfl
  case h_5 =>
    obtain ⟨b, rfl, n, ⟨rfl, rfl⟩, rfl⟩ := h
    obtain ⟨sl, rfl⟩ := exists_slot hc.var
    rw [slotOf_slotCode]
    exact toRaw_of_fill hc rfl rfl
  case h_6 =>
    obtain ⟨d, rfl, b, rfl, n, ⟨rfl, rfl⟩, rfl⟩ := h
    exact toRaw_of_fill hc rfl rfl

theorem toRaw_of_buildMatrix {r : Raw} {k : Ctl} {i : Instr} (hk : r.ctl = some k) (hc : r.Checked k)
    (h : buildMatrix r k = some i) : i.toRaw = some r := by
  obtain ⟨opc, var, g1, n1, g2, n2, gm, d, a, b, c, e, hint, stall, yld, reuse, ext⟩ := r
  obtain ⟨rfl, rfl, rfl, rfl, rfl, rfl, rfl, rfl⟩ := Raw.ctl_eq_some.mp hk
  unfold buildMatrix at h
  split at h
  case h_12 => cases h
  all_goals
    rename_i hopc
    obtain rfl := eq_ofNat_of_toNat hopc
    simp only [Option.bind_eq_bind, given_eq_some, Option.bind_eq_some_iff, Option.some.injEq, beq_iff_eq, TReg.ofCode_eq_some, SReg.ofCode_eq_some, DrainOp.ofCode_eq_some, DrainKind.ofCode_eq_some, Rnd.ofCode_eq_some, TSet.of_eq_some, optOf_breg, Raw.rnd, Raw.extIn_007, Raw.extIn_7FF, Raw.extIn_0FF, Raw.extIn_077, Bool.and_eq_true] at h
  case h_1 =>
    obtain ⟨rfl, ty, ⟨-, rfl⟩, t, rfl, x, rfl, y, rfl, rfl⟩ := h
    exact toRaw_of_fill hc rfl rfl
  case h_2 | h_3 =>
    obtain ⟨hx, t, rfl, s, rfl, rfl⟩ := h
    exact toRaw_of_fill hc (stream_ext hx) rfl
  case h_4 =>
    obtain ⟨hx, t, rfl, rfl⟩ := h
    exact toRaw_of_fill hc (stream_ext hx) rfl
  case h_5 =>
    obtain ⟨hx, x, rfl, a, rfl, b, rfl, rfl⟩ := h
    exact toRaw_of_fill hc (rq_ext hx) rfl
  case h_6 =>
    obtain ⟨hx, x, rfl, a, rfl, b, rfl, s, rfl, y, rfl, rfl⟩ := h
    exact toRaw_of_fill hc (rq_ext hx) rfl
  case h_7 =>
    obtain ⟨⟨hx, -⟩, rfl⟩ := h
    exact toRaw_of_fill hc (low_ext (by decide) hx rfl) rfl
  case h_8 =>
    obtain ⟨rfl, rfl⟩ := h
    exact toRaw_of_fill hc rfl rfl
  case h_9 =>
    obtain ⟨hx, op, hop, kd, hkd, d, rfl, t, rfl, x, rfl, bk, rfl, rfl⟩ := h
    exact toRaw_of_fill_keep hc (drain_ext hx hop hkd) (.inr (.inr rfl)) rfl
  case h_10 =>
    obtain ⟨⟨hx, h0⟩, ty, ⟨-, rfl⟩, r, hr, d, rfl, a, rfl, rfl⟩ := h
    exact toRaw_of_fill hc (tcvt_ext hx h0 hr) rfl
  case h_11 =>
    obtain ⟨rfl, h⟩ := h
    split at h
    next hv =>
      subst hv
      simp only [Option.bind_eq_some_iff, Option.some.injEq, TReg.ofCode_eq_some] at h
      obtain ⟨t, rfl, rfl⟩ := h
      exact toRaw_of_fill hc rfl rfl
    next hv =>
      obtain rfl := var_eq_one hc.var hv
      cases h
      exact toRaw_of_fill hc rfl rfl

theorem toRaw_of_buildMonitor {r : Raw} {k : Ctl} {i : Instr} (hk : r.ctl = some k) (hc : r.Checked k)
    (h : buildMonitor r k = some i) : i.toRaw = some r := by
  obtain ⟨opc, var, g1, n1, g2, n2, gm, d, a, b, c, e, hint, stall, yld, reuse, ext⟩ := r
  obtain ⟨rfl, rfl, rfl, rfl, rfl, rfl, rfl, rfl⟩ := Raw.ctl_eq_some.mp hk
  unfold buildMonitor at h
  split at h
  case h_6 => cases h
  all_goals
    rename_i hopc
    obtain rfl := eq_ofNat_of_toNat hopc
    simp only [Option.bind_eq_bind, given_eq_some, Option.bind_eq_some_iff, Option.some.injEq, PDst.ofCode_eq_some, VDst.ofCode_eq_some, Dst.ofCode_eq_some, Col.of_eq_some, optOf_sreg, Raw.extIn_007] at h
  case h_1 =>
    obtain ⟨d, rfl, x, ⟨-, rfl, rfl⟩, l, rfl, rfl⟩ := h
    exact toRaw_of_fill hc rfl rfl
  case h_2 | h_3 =>
    obtain ⟨x, ⟨-, rfl, rfl⟩, rfl⟩ := h
    exact toRaw_of_fill hc rfl rfl
  case h_4 =>
    obtain ⟨hx, d, rfl, rfl⟩ := h
    exact toRaw_of_fill hc (low_ext (by decide) hx rfl) rfl
  case h_5 =>
    obtain ⟨d, rfl, m, hm, rfl⟩ := h
    exact toRaw_of_fill hc rfl ((congrArg (fun s : Raw => some ({ s with d := d.code } : Raw)) (Raw.withAddr_addr (hc.idx rfl) hm _)).trans rfl)

theorem toRaw_of_buildRecord {r : Raw} {k : Ctl} {i : Instr} (hk : r.ctl = some k) (hc : r.Checked k)
    (h : buildRecord r k = some i) : i.toRaw = some r := by
  obtain ⟨opc, var, g1, n1, g2, n2, gm, d, a, b, c, e, hint, stall, yld, reuse, ext⟩ := r
  obtain ⟨rfl, rfl, rfl, rfl, rfl, rfl, rfl, rfl⟩ := Raw.ctl_eq_some.mp hk
  unfold buildRecord at h
  split at h
  case h_6 => cases h
  all_goals
    rename_i hopc
    obtain rfl := eq_ofNat_of_toNat hopc
    simp only [Option.bind_eq_bind, given_eq_some, Option.bind_eq_some_iff, Option.some.injEq, SDst.ofCode_eq_some, SReg.ofCode_eq_some, Raw.extIn_00F, Raw.extIn_07F, Bool.and_eq_true] at h
  case h_1 =>
    obtain ⟨hx, d, rfl, m, rfl, x, rfl, rfl⟩ := h
    exact toRaw_of_fill hc (low_ext (by decide) hx rfl) rfl
  case h_2 | h_3 | h_4 =>
    obtain ⟨hx, rfl⟩ := h
    exact toRaw_of_fill hc (low_ext (by decide) hx rfl) rfl
  case h_5 =>
    obtain ⟨⟨hx, -⟩, d, rfl, rfl⟩ := h
    exact toRaw_of_fill hc (ext_9_3_4.mpr ⟨hx.symm, rfl, BitVec.setWidth_eq_extractLsb' (by decide)⟩) rfl

theorem toRaw_of_buildQueue {r : Raw} {k : Ctl} {i : Instr} (hk : r.ctl = some k) (hc : r.Checked k)
    (h : buildQueue r k = some i) : i.toRaw = some r := by
  obtain ⟨opc, var, g1, n1, g2, n2, gm, d, a, b, c, e, hint, stall, yld, reuse, ext⟩ := r
  obtain ⟨rfl, rfl, rfl, rfl, rfl, rfl, rfl, rfl⟩ := Raw.ctl_eq_some.mp hk
  unfold buildQueue at h
  split at h
  case h_5 => cases h
  all_goals
    rename_i hopc
    obtain rfl := eq_ofNat_of_toNat hopc
    simp only [Option.bind_eq_bind, given_eq_some, Option.bind_eq_some_iff, Option.some.injEq, beq_iff_eq, PDst.ofCode_eq_some, SReg.ofCode_eq_some, VS.ofCode_eq_some, Dst.ofCode_eq_some, Raw.extIn_001] at h
  case h_1 | h_4 =>
    obtain ⟨rfl, p, rfl, q, rfl, x, rfl, rfl⟩ := h
    exact toRaw_of_fill hc rfl rfl
  case h_2 =>
    obtain ⟨hx, p, rfl, q, rfl, x, rfl, rfl⟩ := h
    exact toRaw_of_fill hc (bit_ext hx) rfl
  case h_3 =>
    obtain ⟨hx, d, rfl, q, rfl, rfl⟩ := h
    exact toRaw_of_fill hc (bit_ext hx) rfl

/-- A checked word that builds an instruction is that instruction's word. -/
theorem toRaw_of_build {r : Raw} {k : Ctl} {i : Instr} (hk : r.ctl = some k) (hc : r.Checked k) (h : r.build k = some i) :
    i.toRaw = some r := by
  have step {p : Bool} {x y : Option Instr} (hx : x = some i → i.toRaw = some r) (hy : y = some i → i.toRaw = some r) :
      (if p then x else y) = some i → i.toRaw = some r := by cases p <;> assumption
  exact step (toRaw_of_buildControl hk hc) (step (toRaw_of_buildCross hk hc) (step (toRaw_of_buildInteger hk hc)
    (step (toRaw_of_buildLimb hk hc) (step (toRaw_of_buildFloat hk hc) (step (toRaw_of_buildFunction hk hc)
    (step (toRaw_of_buildMemory hk hc) (step (toRaw_of_buildAtomic hk hc) (step (toRaw_of_buildCopy hk hc)
    (step (toRaw_of_buildBarrier hk hc) (step (toRaw_of_buildMatrix hk hc) (step (toRaw_of_buildMonitor hk hc)
    (step (toRaw_of_buildRecord hk hc) (toRaw_of_buildQueue hk hc))))))))))))) h

/-! ## The word of an instruction: what its checks ask is that the instruction is well formed -/

/-- The guard and scheduling fields of an instruction's word are its own. -/
theorem Raw.ctl_base {opc : BitVec 8} {var : BitVec 4} {k : Ctl} {d a b c e : BitVec 9} {hint : BitVec 3} {ext : BitVec 16} :
    Raw.ctl { Raw.base opc var k with d := d, a := a, b := b, c := c, e := e, hint := hint, ext := ext } = some k :=
  Raw.ctl_eq_some.mpr ⟨rfl, rfl, rfl, rfl, rfl, rfl, rfl, rfl⟩

/-- Check 0x0B (R42): a uniform destination beside a vector-class source. -/
def Shape.formOk (s : Shape) (d a b c e : BitVec 9) : Bool :=
  !((s.d.isS d || (s.a.isS a || (s.b.isS b || (s.c.isS c || s.e.isS e)))) &&
    (s.d.isVecSource d || (s.a.isVecSource a || (s.b.isVecSource b || (s.c.isVecSource c || s.e.isVecSource e)))))

/-- `Raw.Checked`, field by field. -/
theorem Raw.checked_iff_fields {r : Raw} {k : Ctl} : r.Checked k ↔ r.var.toNat ∈ opcodeVars r.opc.toNat ∧
    ((shape r).d.holds r.d = true ∧ (shape r).a.holds r.a = true ∧ (shape r).b.holds r.b = true ∧ (shape r).c.holds r.c = true ∧
      (shape r).e.holds r.e = true) ∧
    (r.opc = 0x79#8 → kindOf r.d = .s → kindOf r.e ≠ .p) ∧ (shape r).formOk r.d r.a r.b r.c r.e = true ∧
    (if 0x80 ≤ r.opc.toNat && r.opc.toNat ≤ 0x89 then 5#3 else 0#3).ult r.hint = false ∧
    k.ok (!noReuse r.opc.toNat && (shape r).a.isReg r.a) (!noReuse r.opc.toNat && (shape r).b.isReg r.b)
      (!noReuse r.opc.toNat && (shape r).c.isReg r.c) = true := by
  have hv : r.var.toNat ∈ opcodeVars r.opc.toNat ↔ (opcodeVars r.opc.toNat).contains r.var.toNat = true := by simp
  have hf : (∀ y ∈ r.fields, y.2.1.holds y.2.2 = true) ↔ (shape r).d.holds r.d = true ∧ (shape r).a.holds r.a = true ∧
      (shape r).b.holds r.b = true ∧ (shape r).c.holds r.c = true ∧ (shape r).e.holds r.e = true := by
    simp [Raw.fields]
  have h79 : (r.opc = 0x79#8 → kindOf r.d = .s → kindOf r.e ≠ .p) ↔
      (r.opc == 0x79#8 && kindOf r.d == .s && kindOf r.e == .p) = false := by simp
  have hany (p : Field → BitVec 9 → Bool) : (p (shape r).d r.d || (p (shape r).a r.a || (p (shape r).b r.b || (p (shape r).c r.c ||
      p (shape r).e r.e)))) = r.fields.any (fun x => p x.2.1 x.2.2) := by
    simp [Raw.fields]
  have hok (b x : Bool) : (!b && x) = !(b || !x) := by simp
  rw [← hf, h79, Shape.formOk, hany Field.isS, hany Field.isVecSource, hv, Bool.not_eq_true', hok, hok, hok]
  exact ⟨fun ⟨h1, h2, h3, h4, h5, h6⟩ => ⟨h1, h2, h3, h4, h5, h6⟩, fun ⟨h1, h2, h3, h4, h5, h6⟩ => ⟨h1, h2, h3, h4, h5, h6⟩⟩

section
open Shapes
variable (w : Nat) (x : BitVec 9)
@[simp] theorem Shapes.isReg_typed : (i w).isReg x = (kindOf x).isReg ∧ (vs w).isReg x = (kindOf x).isReg := ⟨rfl, rfl⟩
@[simp] theorem Shapes.isReg_values : vsz.isReg x = (kindOf x).isReg ∧
    v.isReg x = (kindOf x).isReg ∧ s.isReg x = (kindOf x).isReg ∧ s2.isReg x = (kindOf x).isReg ∧ sz.isReg x = (kindOf x).isReg ∧
    p.isReg x = (kindOf x).isReg ∧ pz.isReg x = (kindOf x).isReg ∧ t.isReg x = (kindOf x).isReg ∧ f.isReg x = (kindOf x).isReg ∧
    b.isReg x = (kindOf x).isReg ∧ bz.isReg x = (kindOf x).isReg := by
  and_intros <;> rfl
@[simp] theorem Shapes.isS_source_typed : (i w).isS x = false ∧ (vs w).isS x = false := ⟨rfl, rfl⟩
@[simp] theorem Shapes.isS_source : vsz.isS x = false ∧ v.isS x = false ∧ s.isS x = false ∧
    s2.isS x = false ∧ sz.isS x = false ∧ p.isS x = false ∧ pz.isS x = false ∧ t.isS x = false ∧ f.isS x = false ∧ b.isS x = false ∧
    bz.isS x = false := by
  and_intros <;> rfl
@[simp] theorem Shapes.isS_dest_typed : (d w).isS x = (kindOf x == .s) ∧ (dp w).isS x = (kindOf x == .s) ∧ (vz w).isS x = (kindOf x == .s) :=
  ⟨rfl, rfl, rfl⟩
@[simp] theorem Shapes.isS_dest : dsz.isS x = (kindOf x == .s) ∧ ds.isS x = (kindOf x == .s) ∧ dpd.isS x = (kindOf x == .s) ∧ dpz.isS x = (kindOf x == .s) := by
  and_intros <;> rfl
@[simp] theorem Shapes.isVecSource_source_typed : (i w).isVecSource x = (kindOf x).isVec ∧ (vs w).isVecSource x = (kindOf x).isVec :=
  ⟨rfl, rfl⟩
@[simp] theorem Shapes.isVecSource_source : vsz.isVecSource x = (kindOf x).isVec ∧ v.isVecSource x = (kindOf x).isVec ∧ s.isVecSource x = (kindOf x).isVec ∧
    s2.isVecSource x = (kindOf x).isVec ∧ sz.isVecSource x = (kindOf x).isVec ∧ p.isVecSource x = (kindOf x).isVec ∧
    pz.isVecSource x = (kindOf x).isVec ∧ t.isVecSource x = (kindOf x).isVec ∧ f.isVecSource x = (kindOf x).isVec ∧
    b.isVecSource x = (kindOf x).isVec ∧ bz.isVecSource x = (kindOf x).isVec := by
  and_intros <;> rfl
@[simp] theorem Shapes.isVecSource_dest_typed : (d w).isVecSource x = false ∧ (dp w).isVecSource x = false ∧ (vz w).isVecSource x = false :=
  ⟨rfl, rfl, rfl⟩
@[simp] theorem Shapes.isVecSource_dest : dsz.isVecSource x = false ∧ ds.isVecSource x = false ∧ dpd.isVecSource x = false ∧ dpz.isVecSource x = false := by
  and_intros <;> rfl
end

theorem TSet.bits_code {t : TSet} {ty : Ty} (h : t.has ty = true) : (Ty.ofCode t.six ty.code).bits = ty.bits := by
  revert h; cases t <;> cases ty <;> decide
theorem TSet.code_mem {t : TSet} {ty : Ty} (h : t.has ty = true) : ty.code.toNat ∈ typed t :=
  List.mem_map.mpr ⟨ty, List.contains_iff_mem.mp h, rfl⟩
theorem TSet.of_code {t : TSet} {ty : Ty} (h : t.has ty = true) : t.of ty.code = some ty := TSet.of_eq_some.mpr ⟨h, rfl⟩
@[simp] theorem TSet.of_bind_eq_some {α : Type} {t : TSet} {x : BitVec 4} {f : Ty → Option α} {y : α} :
    (t.of x).bind f = some y ↔ ∃ ty, t.has ty = true ∧ x = ty.code ∧ f ty = some y := by
  simp [Option.bind_eq_some_iff, and_assoc]

/-- The builder that reads the words of an opcode. -/
def builderOf (opc : BitVec 8) : Raw → Ctl → Option Instr :=
  if opc.ult 0x11#8 then buildControl
  else if opc.ult 0x20#8 then buildCross
  else if opc.ult 0x40#8 then buildInteger
  else if opc.ult 0x50#8 then buildLimb
  else if opc.ult 0x70#8 then buildFloat
  else if opc.ult 0x80#8 then buildFunction
  else if opc.ult 0x90#8 then buildMemory
  else if opc.ult 0x98#8 then buildAtomic
  else if opc.ult 0xA0#8 then buildCopy
  else if opc.ult 0xB0#8 then buildBarrier
  else if opc.ult 0xC0#8 then buildMatrix
  else if opc.ult 0xC8#8 then buildMonitor
  else if opc.ult 0xD0#8 then buildRecord
  else buildQueue

theorem Raw.build_eq (r : Raw) (k : Ctl) : r.build k = builderOf r.opc r k := by
  unfold Raw.build builderOf
  simp only [apply_ite (fun f : Raw → Ctl → Option Instr => f r k)]

/-- What the word of an instruction has to pass, given its opcode's row of the tables. -/
theorem decodes_iff_of_row {i : Instr} {r : Raw} {k : Ctl} (h : i.toRaw = some r) {opc : BitVec 8} {var : BitVec 4}
    {d a b c e : BitVec 9} {hint : BitVec 3} {ext : BitVec 16} (s : Shape) (vs : List Nat) (bare mem : Bool) (f : Raw → Ctl → Option Instr)
    (hr : i.toRaw = some { Raw.base opc var k with d := d, a := a, b := b, c := c, e := e, hint := hint, ext := ext })
    (hs : shape { Raw.base opc var k with d := d, a := a, b := b, c := c, e := e, hint := hint, ext := ext } = s)
    (hv : opcodeVars opc.toNat = vs) (hbare : noReuse opc.toNat = bare)
    (hmem : (decide (0x80 ≤ opc.toNat) && decide (opc.toNat ≤ 0x89)) = mem) (hf : builderOf opc = f)
    (hw : f { Raw.base opc var k with d := d, a := a, b := b, c := c, e := e, hint := hint, ext := ext } k = some i ∧
      var.toNat ∈ vs ∧ (s.d.holds d = true ∧ s.a.holds a = true ∧ s.b.holds b = true ∧ s.c.holds c = true ∧ s.e.holds e = true) ∧
      (opc = 0x79#8 → kindOf d = .s → kindOf e ≠ .p) ∧ s.formOk d a b c e = true ∧ (if mem then 5#3 else 0#3).ult hint = false ∧
      k.ok (!bare && s.a.isReg a) (!bare && s.b.isReg b) (!bare && s.c.isReg c) = true ↔ i.wellFormed = true) :
    decodeRaw r = .ok i ↔ i.wellFormed = true := by
  obtain rfl := Option.some.inj (h.symm.trans hr)
  subst hs hv hf hbare hmem
  rw [decodeRaw_eq_ok, Raw.ctl_base, ← hw]
  simp only [Option.some.injEq, exists_eq_left', Raw.checked_iff_fields, Raw.build_eq]
  exact and_comm

/-! A modifier or register is read as it was written -/

@[simp] theorem Rnd.ofCode_code (x : Rnd) : Rnd.ofCode x.code = some x := Rnd.ofCode_eq_some.mpr rfl
@[simp] theorem Cond.ofCode_code (x : Cond) : Cond.ofCode x.code = some x := Cond.ofCode_eq_some.mpr rfl
@[simp] theorem Hint.ofCode_code (x : Hint) : Hint.ofCode x.code = some x := Hint.ofCode_eq_some.mpr rfl
@[simp] theorem Scope.ofCode_code (x : Scope) : Scope.ofCode x.code = some x := Scope.ofCode_eq_some.mpr rfl
@[simp] theorem FenceKind.ofCode_code (x : FenceKind) : FenceKind.ofCode x.code = some x := FenceKind.ofCode_eq_some.mpr rfl
@[simp] theorem AOp.ofCode_code (x : AOp) : AOp.ofCode x.code = some x := AOp.ofCode_eq_some.mpr rfl
@[simp] theorem RedOp.ofCode_code (x : RedOp) : RedOp.ofCode x.code = some x := RedOp.ofCode_eq_some.mpr rfl
@[simp] theorem VoteMode.ofCode_code (x : VoteMode) : VoteMode.ofCode x.code = some x := VoteMode.ofCode_eq_some.mpr rfl
@[simp] theorem ShflMode.ofCode_code (x : ShflMode) : ShflMode.ofCode x.code = some x := ShflMode.ofCode_eq_some.mpr rfl
@[simp] theorem PsetOp.ofCode_code (x : PsetOp) : PsetOp.ofCode x.code = some x := PsetOp.ofCode_eq_some.mpr rfl
@[simp] theorem LimbSize.ofCode_code (x : LimbSize) : LimbSize.ofCode x.code = some x := LimbSize.ofCode_eq_some.mpr rfl
@[simp] theorem CpyDir.ofCode_code (x : CpyDir) : CpyDir.ofCode x.code = some x := CpyDir.ofCode_eq_some.mpr rfl
@[simp] theorem DrainOp.ofCode_code (x : DrainOp) : DrainOp.ofCode x.code = some x := DrainOp.ofCode_eq_some.mpr rfl
@[simp] theorem DrainKind.ofCode_code (x : DrainKind) : DrainKind.ofCode x.code = some x := DrainKind.ofCode_eq_some.mpr rfl
@[simp] theorem SignalOp.ofCode_code (x : SignalOp) : SignalOp.ofCode x.code = some x := SignalOp.ofCode_eq_some.mpr rfl
@[simp] theorem SysReg.ofCode_code (x : SysReg) : SysReg.ofCode x.code = some x := SysReg.ofCode_eq_some.mpr rfl
@[simp] theorem Ord.ofCode_code (x : Ord) : Ord.ofCode x.code = some x := Ord.ofCode_eq_some.mpr rfl
@[simp] theorem TReg.ofCode_code (x : TReg) : TReg.ofCode (TReg.code x) = some x := TReg.ofCode_eq_some.mpr rfl
@[simp] theorem CReg.ofCode_code (x : CReg) : CReg.ofCode (CReg.code x) = some x := CReg.ofCode_eq_some.mpr rfl
@[simp] theorem BReg.ofCode_code (x : BReg) : BReg.ofCode (BReg.code x) = some x := BReg.ofCode_eq_some.mpr rfl
@[simp] theorem optOf_vreg_code (x : Option VReg) : optOf VReg.ofCode (optCode VReg.code x) = some x := optOf_vreg.mpr rfl
@[simp] theorem optOf_sreg_code (x : Option SReg) : optOf SReg.ofCode (optCode SReg.code x) = some x := optOf_sreg.mpr rfl
@[simp] theorem optOf_preg_code (x : Option PReg) : optOf PReg.ofCode (optCode PReg.code x) = some x := optOf_preg.mpr rfl
@[simp] theorem optOf_breg_code (x : Option BReg) : optOf BReg.ofCode (optCode BReg.code x) = some x := optOf_breg.mpr rfl
@[simp] theorem SleepN.of_code (x : SleepN) : SleepN.of x.code x.ext = some x := SleepN.of_eq_some.mpr ⟨rfl, rfl⟩
@[simp] theorem SImm.of_code {w : Nat} (x : SImm w) (hw : w ≤ 16) : SImm.of w x.code x.ext = some x := (SImm.of_eq_some hw).mpr ⟨rfl, rfl⟩

/-! The pieces of ext are read as they were written -/

theorem getLsbD_of_bit {x : BitVec 16} {i : Nat} {p : Bool} (h : bit p = x.extractLsb' i 1) : x.getLsbD i = p := by
  rw [← ofBool_getLsbD] at h
  revert h; cases p <;> cases x.getLsbD i <;> decide
theorem setWidth_of_extract {x : BitVec 16} {n : Nat} (hn : n ≤ 16) {y : BitVec n} (h : y = x.extractLsb' 0 n) : x.setWidth n = y :=
  (BitVec.setWidth_eq_extractLsb' hn).trans h.symm

section
variable (a : BitVec 15) (b : BitVec 12) (c : BitVec 3) (d : BitVec 9) (e f g h : BitVec 4) (i : BitVec 7) (j : BitVec 5) (l : BitVec 6)
  (m n : BitVec 2) (o : BitVec 3) (x : BitVec 1) (y : BitVec 8) (p : Bool)
@[simp] theorem read_15_1 : (a ++ bit p : BitVec 16).extractLsb' 1 15 = a ∧ (a ++ bit p : BitVec 16).getLsbD 0 = p := by
  obtain ⟨h1, h2⟩ := ext_15_1.mp (Eq.refl (a ++ bit p : BitVec 16))
  exact ⟨h1.symm, getLsbD_of_bit h2⟩
@[simp] theorem read_12_1_3 : (b ++ (bit p ++ c) : BitVec 16).extractLsb' 4 12 = b ∧ (b ++ (bit p ++ c) : BitVec 16).getLsbD 3 = p ∧
    (b ++ (bit p ++ c) : BitVec 16).setWidth 3 = c := by
  obtain ⟨h1, h2, h3⟩ := ext_12_1_3.mp (Eq.refl (b ++ (bit p ++ c) : BitVec 16))
  exact ⟨h1.symm, getLsbD_of_bit h2, setWidth_of_extract (by decide) h3⟩
@[simp] theorem read_9_3_4 : (d ++ (c ++ e) : BitVec 16).extractLsb' 7 9 = d ∧ (d ++ (c ++ e) : BitVec 16).extractLsb' 4 3 = c ∧
    (d ++ (c ++ e) : BitVec 16).extractLsb' 0 4 = e ∧ (d ++ (c ++ e) : BitVec 16).setWidth 4 = e := by
  obtain ⟨h1, h2, h3⟩ := ext_9_3_4.mp (Eq.refl (d ++ (c ++ e) : BitVec 16))
  exact ⟨h1.symm, h2.symm, h3.symm, setWidth_of_extract (by decide) h3⟩
@[simp] theorem read_9_3_1_3 : (d ++ (c ++ (x ++ o)) : BitVec 16).extractLsb' 7 9 = d ∧
    (d ++ (c ++ (x ++ o)) : BitVec 16).extractLsb' 4 3 = c ∧ (d ++ (c ++ (x ++ o)) : BitVec 16).extractLsb' 3 1 = x ∧
    (d ++ (c ++ (x ++ o)) : BitVec 16).extractLsb' 0 3 = o := by
  obtain ⟨h1, h2, h3, h4⟩ := ext_9_3_1_3.mp (Eq.refl (d ++ (c ++ (x ++ o)) : BitVec 16))
  exact ⟨h1.symm, h2.symm, h3.symm, h4.symm⟩
@[simp] theorem read_7_1_5_3 : (i ++ (bit p ++ (j ++ c)) : BitVec 16).extractLsb' 9 7 = i ∧ (i ++ (bit p ++ (j ++ c)) : BitVec 16).getLsbD 8 = p ∧
    (i ++ (bit p ++ (j ++ c)) : BitVec 16).extractLsb' 3 5 = j ∧ (i ++ (bit p ++ (j ++ c)) : BitVec 16).extractLsb' 0 3 = c ∧
    (i ++ (bit p ++ (j ++ c)) : BitVec 16).setWidth 3 = c := by
  obtain ⟨h1, h2, h3, h4⟩ := ext_7_1_5_3.mp (Eq.refl (i ++ (bit p ++ (j ++ c)) : BitVec 16))
  exact ⟨h1.symm, getLsbD_of_bit h2, h3.symm, h4.symm, setWidth_of_extract (by decide) h4⟩
@[simp] theorem read_5_6_2_3 : (j ++ (l ++ (m ++ c : BitVec 5)) : BitVec 16).extractLsb' 11 5 = j ∧
    (j ++ (l ++ (m ++ c : BitVec 5)) : BitVec 16).extractLsb' 5 6 = l ∧ (j ++ (l ++ (m ++ c : BitVec 5)) : BitVec 16).extractLsb' 3 2 = m ∧
    (j ++ (l ++ (m ++ c : BitVec 5)) : BitVec 16).extractLsb' 0 3 = c := by
  obtain ⟨h1, h2, h3, h4⟩ := ext_5_6_2_3.mp (Eq.refl (j ++ (l ++ (m ++ c : BitVec 5)) : BitVec 16))
  exact ⟨h1.symm, h2.symm, h3.symm, h4.symm⟩
@[simp] theorem read_8_1_2_2_3 : (y ++ (x ++ (m ++ (n ++ c : BitVec 5))) : BitVec 16).extractLsb' 8 8 = y ∧
    (y ++ (x ++ (m ++ (n ++ c : BitVec 5))) : BitVec 16).extractLsb' 7 1 = x ∧
    (y ++ (x ++ (m ++ (n ++ c : BitVec 5))) : BitVec 16).extractLsb' 5 2 = m ∧
    (y ++ (x ++ (m ++ (n ++ c : BitVec 5))) : BitVec 16).extractLsb' 3 2 = n ∧
    (y ++ (x ++ (m ++ (n ++ c : BitVec 5))) : BitVec 16).extractLsb' 0 3 = c := by
  obtain ⟨h1, h2, h3, h4, h5⟩ := ext_8_1_2_2_3.mp (Eq.refl (y ++ (x ++ (m ++ (n ++ c : BitVec 5))) : BitVec 16))
  exact ⟨h1.symm, h2.symm, h3.symm, h4.symm, h5.symm⟩
@[simp] theorem read_4_4_4_4 : (e ++ (f ++ (g ++ h)) : BitVec 16).extractLsb' 12 4 = e ∧ (e ++ (f ++ (g ++ h)) : BitVec 16).extractLsb' 8 4 = f ∧
    (e ++ (f ++ (g ++ h)) : BitVec 16).extractLsb' 4 4 = g ∧ (e ++ (f ++ (g ++ h)) : BitVec 16).extractLsb' 0 4 = h := by
  obtain ⟨h1, h2, h3, h4⟩ := ext_4_4_4_4.mp (Eq.refl (e ++ (f ++ (g ++ h)) : BitVec 16))
  exact ⟨h1.symm, h2.symm, h3.symm, h4.symm⟩
end
@[simp] theorem Src.fits_32 (x : Src) : x.fits 32 = true := by cases x <;> rfl
@[simp] theorem Dst.fits_32 (x : Dst) : x.fits 32 = true := by cases x <;> rfl
@[simp] theorem DstP.fits_32 (x : DstP) : x.fits 32 = true := by cases x <;> rfl
@[simp] theorem VDst.fits_32 (x : VDst) : x.fits 32 = true := by cases x <;> rfl
@[simp] theorem VS.fits_32 (x : VS) : x.fits 32 = true := by cases x <;> rfl
@[simp] theorem imm_pieces (o : BitVec 34) : o.extractLsb' 25 9 ++ (o.extractLsb' 16 9 ++ o.extractLsb' 0 16) = o :=
  append_eq_iff (v := 9) (w := 25) |>.mpr ⟨rfl, append_eq_iff (v := 9) (w := 16) |>.mpr
    ⟨(BitVec.extractLsb'_extractLsb'_of_le (by decide)).symm, (BitVec.extractLsb'_extractLsb'_of_le (by decide)).symm⟩⟩
@[simp] theorem off_pieces (o : BitVec 25) : o.extractLsb' 16 9 ++ o.extractLsb' 0 16 = o :=
  append_eq_iff (v := 9) (w := 16) |>.mpr ⟨rfl, rfl⟩
@[simp] theorem Hint.not_ult_code (h : Hint) : (5#3).ult h.code = false := by cases h <;> rfl
@[simp] theorem setWidth_back {n : Nat} (x : BitVec n) (hn : n ≤ 16) : (x.setWidth 16).setWidth n = x := by simp [hn]
@[simp] theorem extractLsb'_high {m n : Nat} (x : BitVec n) (h : n + m = 16) : (x.setWidth 16).extractLsb' n m = 0#m := by
  obtain rfl : m = 16 - n := by omega
  exact ((setWidth_eq_iff (a := x) (by omega)).mp rfl).1

/-! The instructions whose operands and destination all have their type (R237, R261) -/

/-- A destination and a source of one type. -/
theorem decodes_iff_wf1 {i : Instr} {r : Raw} {k : Ctl} (h : i.toRaw = some r) {opc : BitVec 8} {ty : Ty} {d : Dst}
    {a : Src} {ext : BitVec 16} {w : Nat} (t : TSet) (f : Raw → Ctl → Option Instr)
    (hr : i.toRaw = some { Raw.base opc ty.code k with d := d.code, a := a.code, ext := ext })
    (hs : shape { Raw.base opc ty.code k with d := d.code, a := a.code, ext := ext } = { d := Shapes.d w, a := Shapes.i w })
    (hv : opcodeVars opc.toNat = typed t) (hbare : noReuse opc.toNat = false)
    (hmem : (decide (0x80 ≤ opc.toNat) && decide (opc.toNat ≤ 0x89)) = false) (hf : builderOf opc = f) (h79 : opc ≠ 0x79#8)
    (hw : t.has ty = true → w = ty.bits) (hb : f { Raw.base opc ty.code k with d := d.code, a := a.code, ext := ext } k = some i ↔ t.has ty = true)
    (hwf : i.wellFormed = wf1 k t ty d a) : decodeRaw r = .ok i ↔ i.wellFormed = true := by
  refine decodes_iff_of_row h _ _ _ _ f hr hs hv hbare hmem hf ?_
  rw [hb, hwf]
  by_cases hty : t.has ty = true
  · obtain rfl := hw hty
    simp [Raw.base, wf1, formOk, Shape.formOk, hty, h79, TSet.code_mem hty]
    grind
  · simp [wf1, hty]

/-- A destination and two sources of one type. -/
theorem decodes_iff_wf2 {i : Instr} {r : Raw} {k : Ctl} (h : i.toRaw = some r) {opc : BitVec 8} {ty : Ty} {d : Dst}
    {a b : Src} {ext : BitVec 16} {w : Nat} (t : TSet) (f : Raw → Ctl → Option Instr)
    (hr : i.toRaw = some { Raw.base opc ty.code k with d := d.code, a := a.code, b := b.code, ext := ext })
    (hs : shape { Raw.base opc ty.code k with d := d.code, a := a.code, b := b.code, ext := ext } =
      { d := Shapes.d w, a := Shapes.i w, b := Shapes.i w })
    (hv : opcodeVars opc.toNat = typed t) (hbare : noReuse opc.toNat = false)
    (hmem : (decide (0x80 ≤ opc.toNat) && decide (opc.toNat ≤ 0x89)) = false) (hf : builderOf opc = f) (h79 : opc ≠ 0x79#8)
    (hw : t.has ty = true → w = ty.bits)
    (hb : f { Raw.base opc ty.code k with d := d.code, a := a.code, b := b.code, ext := ext } k = some i ↔ t.has ty = true)
    (hwf : i.wellFormed = wf2 k t ty d a b) : decodeRaw r = .ok i ↔ i.wellFormed = true := by
  refine decodes_iff_of_row h _ _ _ _ f hr hs hv hbare hmem hf ?_
  rw [hb, hwf]
  by_cases hty : t.has ty = true
  · obtain rfl := hw hty
    simp [Raw.base, wf2, formOk, Shape.formOk, hty, h79, TSet.code_mem hty]
    grind
  · simp [wf2, hty]

/-- A destination and three sources of one type. -/
theorem decodes_iff_wf3 {i : Instr} {r : Raw} {k : Ctl} (h : i.toRaw = some r) {opc : BitVec 8} {ty : Ty} {d : Dst}
    {a b x : Src} {ext : BitVec 16} {w : Nat} (t : TSet) (f : Raw → Ctl → Option Instr)
    (hr : i.toRaw = some { Raw.base opc ty.code k with d := d.code, a := a.code, b := b.code, c := x.code, ext := ext })
    (hs : shape { Raw.base opc ty.code k with d := d.code, a := a.code, b := b.code, c := x.code, ext := ext } =
      { d := Shapes.d w, a := Shapes.i w, b := Shapes.i w, c := Shapes.i w })
    (hv : opcodeVars opc.toNat = typed t) (hbare : noReuse opc.toNat = false)
    (hmem : (decide (0x80 ≤ opc.toNat) && decide (opc.toNat ≤ 0x89)) = false) (hf : builderOf opc = f) (h79 : opc ≠ 0x79#8)
    (hw : t.has ty = true → w = ty.bits)
    (hb : f { Raw.base opc ty.code k with d := d.code, a := a.code, b := b.code, c := x.code, ext := ext } k = some i ↔ t.has ty = true)
    (hwf : i.wellFormed = wf3 k t ty d a b x) : decodeRaw r = .ok i ↔ i.wellFormed = true := by
  refine decodes_iff_of_row h _ _ _ _ f hr hs hv hbare hmem hf ?_
  rw [hb, hwf]
  by_cases hty : t.has ty = true
  · obtain rfl := hw hty
    simp [Raw.base, wf3, formOk, Shape.formOk, hty, h79, TSet.code_mem hty]
    grind
  · simp [wf3, hty]

/-- The chapters' tables, by the builder that reads their words. -/
inductive Family where
  | control | cross | integer | limb | float | function | memory | atomic | copy | barrier | matrix | monitor | record | queue
def Instr.family : Instr → Option Family
  | .nop .. | .bra .. | .brx .. | .call .. | .callx .. | .ret .. | .exit .. | .yield .. | .wait .. | .sleep .. | .wake .. | .trap .. | .tret ..
  | .bkpt .. | .sysrd .. | .syswr .. => some .control
  | .vote .. | .shfl .. | .gred .. | .gscan .. => some .cross
  | .mov .. | .movi .. | .iadd .. | .isub .. | .imul .. | .imulh .. | .imad .. | .imadw .. | .imin .. | .imax .. | .iabs .. | .and .. | .or ..
  | .xor .. | .not .. | .shl .. | .shr .. | .sar .. | .rot .. | .bfx .. | .bfi .. | .popc .. | .clz .. | .brev .. | .iset .. | .sel .. | .lea ..
  | .idiv .. | .pset .. => some .integer
  | .lbind .. | .lfree .. | .ladc .. | .lsbb .. | .lshl .. | .lshr .. | .lmulw .. | .lmac .. | .lcmp .. => some .limb
  | .fadd .. | .fsub .. | .fmul .. | .ffma .. | .fmin .. | .fmax .. | .fabs .. | .fneg .. | .fset .. | .fclass .. | .frcp .. | .frsq ..
  | .fsqrt .. | .fexp2 .. | .flog2 .. | .fsin .. | .fcos .. | .fcvt .. | .frnd .. | .fscale .. | .fdot2 .. => some .float
  | .chld .. | .chst .. | .chdom .. | .chadd .. | .chmul .. | .chcomp .. | .chint .. | .chder .. | .chroot .. | .cheval .. | .chtrunc ..
  | .chlen .. => some .function
  | .ldg .. | .stg .. | .ldx .. | .stx .. | .ldw .. | .pref .. | .linv .. | .linvAll .. | .fence .. | .cst .. | .mcld .. => some .memory
  | .atom .. | .acas .. | .red .. | .signal .. => some .atomic
  | .cpy .. | .cpyt .. | .cpyw .. | .cpywPut .. | .cpys .. | .cpyq .. | .cpyx .. | .cpyxAll .. => some .copy
  | .bari .. | .bara .. | .barw .. | .baraw .. | .barx .. | .bart .. | .barl .. => some .barrier
  | .tshp .. | .tld .. | .tst .. | .tzero .. | .mma .. | .mloop .. | .twait .. | .tfence .. | .tdrain .. | .tcvt .. | .tgangOn ..
  | .tgangOff .. => some .matrix
  | .mwait .. | .mnote .. | .mnotea .. | .mheld .. | .clrd .. => some .monitor
  | .recon .. | .recoff .. | .replay .. | .rerec .. | .recq .. => some .record
  | .qpush .. | .qpop .. | .qstat .. | .launch .. => some .queue
  | _ => none


theorem decodes_iff_of_integer {i : Instr} {r : Raw} (hfam : i.family = some .integer) (h : i.toRaw = some r) :
    decodeRaw r = .ok i ↔ i.wellFormed = true := by
  cases i
  case mov => exact decodes_iff_wf1 h .X4 buildInteger rfl rfl rfl rfl rfl rfl (by decide) TSet.bits_code (by simp [buildInteger, Raw.base]) rfl
  case iabs => exact decodes_iff_wf1 h .S buildInteger rfl rfl rfl rfl rfl rfl (by decide) TSet.bits_code (by simp [buildInteger, Raw.base]) rfl
  case not | popc | clz | brev =>
    exact decodes_iff_wf1 h .X buildInteger rfl rfl rfl rfl rfl rfl (by decide) TSet.bits_code (by simp [buildInteger, Raw.base]) rfl
  case iadd | isub | imul | imulh | imin | imax | idiv =>
    exact decodes_iff_wf2 h .W buildInteger rfl rfl rfl rfl rfl rfl (by decide) TSet.bits_code (by simp [buildInteger, Raw.base, -BitVec.getLsbD_eq_getElem]) rfl
  case and | or | xor | shl | shr | rot =>
    exact decodes_iff_wf2 h .X buildInteger rfl rfl rfl rfl rfl rfl (by decide) TSet.bits_code (by simp [buildInteger, Raw.base]) rfl
  case sar => exact decodes_iff_wf2 h .S buildInteger rfl rfl rfl rfl rfl rfl (by decide) TSet.bits_code (by simp [buildInteger, Raw.base]) rfl
  case imad | bfx =>
    exact decodes_iff_wf3 h .W buildInteger rfl rfl rfl rfl rfl rfl (by decide) TSet.bits_code (by simp [buildInteger, Raw.base]) rfl
  case movi k ty d o =>
    refine decodes_iff_of_row h { d := Shapes.d _, c := Field.bits, e := Field.bits } (typed .X) false false buildInteger rfl rfl rfl rfl rfl rfl ?_
    by_cases hty : TSet.X.has ty = true
    · have hw : (Ty.ofCode false ty.code).bits = ty.bits := TSet.bits_code hty
      simp [buildInteger, Raw.base, Raw.withImm, Raw.imm, -Nat.reduceAdd, -BitVec.getLsbD_eq_getElem, Instr.wellFormed, Shape.formOk, hty, hw, TSet.code_mem hty]
      grind
    · simp [buildInteger, Raw.base, Instr.wellFormed, hty]
  case imadw k ty d a b x =>
    refine decodes_iff_of_row h { d := Shapes.d 64, a := Shapes.i 32, b := Shapes.i 32, c := Shapes.i 64 } (typed .IW) false false buildInteger rfl rfl rfl rfl rfl rfl ?_
    by_cases hty : TSet.IW.has ty = true
    · simp [buildInteger, Raw.base, Instr.wellFormed, Shape.formOk, formOk, hty, TSet.code_mem hty]
      grind
    · simp [buildInteger, Raw.base, Instr.wellFormed, hty]
  case bfi k ty d a b p l =>
    refine decodes_iff_of_row h { d := Shapes.d _, a := Shapes.i _, b := Shapes.i _, c := Shapes.i _, e := Shapes.i _ } (typed .X) false false buildInteger rfl rfl rfl rfl rfl rfl ?_
    by_cases hty : TSet.X.has ty = true
    · have hw : (Ty.ofCode false ty.code).bits = ty.bits := TSet.bits_code hty
      simp [buildInteger, Raw.base, Instr.wellFormed, Shape.formOk, formOk, hty, hw, TSet.code_mem hty]
      grind
    · simp [buildInteger, Raw.base, Instr.wellFormed, hty]
  case iset k ty q d a b =>
    refine decodes_iff_of_row h { d := Shapes.dp _, a := Shapes.i _, b := Shapes.i _ } (typed .W) false false buildInteger rfl rfl rfl rfl rfl rfl ?_
    by_cases hty : TSet.W.has ty = true
    · have hw : (Ty.ofCode false ty.code).bits = ty.bits := TSet.bits_code hty
      simp [buildInteger, Raw.base, Instr.wellFormed, Shape.formOk, formOk, hty, hw, TSet.code_mem hty]
      grind
    · simp [buildInteger, Raw.base, Instr.wellFormed, hty]
  case sel k ty d a b q =>
    refine decodes_iff_of_row h { d := Shapes.d _, a := Shapes.i _, b := Shapes.i _, c := .op [.p, .v, .s, .zero, .grp, .amask, .uni, .vec] 32 false } (typed .X)
      false false buildInteger rfl rfl rfl rfl rfl rfl ?_
    by_cases hty : TSet.X.has ty = true
    · have hw : (Ty.ofCode false ty.code).bits = ty.bits := TSet.bits_code hty
      simp [buildInteger, Raw.base, Instr.wellFormed, Shape.formOk, formOk, hty, hw, TSet.code_mem hty]
      grind
    · simp [buildInteger, Raw.base, Instr.wellFormed, hty]
  case lea k nx sh d m ix =>
    refine decodes_iff_of_row h { d := Shapes.d 64, a := Shapes.vs 64, b := Shapes.i 32 } [0] false false buildInteger rfl rfl rfl rfl rfl rfl ?_
    simp [-Nat.reduceAdd, -BitVec.getLsbD_eq_getElem, buildInteger, Raw.base, Instr.wellFormed, Shape.formOk, formOk]
    grind
  case pset k op d a b =>
    refine decodes_iff_of_row h { d := Shapes.dpd, a := Shapes.p, b := Shapes.p } [0] false false buildInteger rfl rfl rfl rfl rfl rfl ?_
    simp [buildInteger, Raw.base, Instr.wellFormed, Instr.wellFormed.wfBare, Shape.formOk]
  all_goals cases hfam

theorem decodes_iff_of_control {i : Instr} {r : Raw} (hfam : i.family = some .control) (h : i.toRaw = some r) :
    decodeRaw r = .ok i ↔ i.wellFormed = true := by
  cases i
  case nop | exit | yield =>
    refine decodes_iff_of_row h {} [0] false false buildControl rfl rfl rfl rfl rfl rfl ?_
    simp [buildControl, Raw.base, Shape.formOk, Instr.wellFormed, Instr.wellFormed.wfBare]
  case tret =>
    refine decodes_iff_of_row h {} [0] true false buildControl rfl rfl rfl rfl rfl rfl ?_
    simp [buildControl, Raw.base, Shape.formOk, Instr.wellFormed, Instr.wellFormed.wfBare]
  case trap | bkpt =>
    refine decodes_iff_of_row h {} [0] true false buildControl rfl rfl rfl rfl rfl rfl ?_
    simp [buildControl, Raw.base, Shape.formOk, Instr.wellFormed, Instr.wellFormed.wfBare]
  case bra =>
    refine decodes_iff_of_row h { c := .bits, e := .bits } [0] false false buildControl rfl rfl rfl rfl rfl rfl ?_
    simp [buildControl, Raw.base, Raw.imm, -Nat.reduceAdd, -BitVec.getLsbD_eq_getElem, Shape.formOk, Instr.wellFormed, Instr.wellFormed.wfBare]
  case brx =>
    refine decodes_iff_of_row h { a := Shapes.vs 64 } [0] false false buildControl rfl rfl rfl rfl rfl rfl ?_
    simp [buildControl, Raw.base, Shape.formOk, Instr.wellFormed, and_comm]
  case call =>
    refine decodes_iff_of_row h { d := Shapes.vz 32, c := .bits, e := .bits } [0] false false buildControl rfl rfl rfl rfl rfl rfl ?_
    simp [buildControl, Raw.base, Raw.withImm, Raw.imm, -Nat.reduceAdd, -BitVec.getLsbD_eq_getElem, Shape.formOk, Instr.wellFormed, Instr.wellFormed.wfBare]
  case callx =>
    refine decodes_iff_of_row h { d := Shapes.vz 32, a := Shapes.vs 64 } [0] false false buildControl rfl rfl rfl rfl rfl rfl ?_
    simp [buildControl, Raw.base, Shape.formOk, Instr.wellFormed, and_comm]
  case ret =>
    refine decodes_iff_of_row h { a := .op [.v, .zero] 32 false } [0] false false buildControl rfl rfl rfl rfl rfl rfl ?_
    simp [buildControl, Raw.base, Shape.formOk, Instr.wellFormed]
  case wait =>
    refine decodes_iff_of_row h {} [0] false false buildControl rfl rfl rfl rfl rfl rfl ?_
    simp [-Nat.reduceAdd, -BitVec.getLsbD_eq_getElem, buildControl, Raw.base, Shape.formOk, Instr.wellFormed, Instr.wellFormed.wfBare]
  case sleep =>
    refine decodes_iff_of_row h { d := Shapes.dpz, a := Shapes.vsz } [0] false false buildControl rfl rfl rfl rfl rfl rfl ?_
    simp [buildControl, Raw.base, Shape.formOk, Instr.wellFormed]
  case wake =>
    refine decodes_iff_of_row h { a := .op [.s, .grp] 32 false, b := .op [.s, .amask] 32 false } [0] false false buildControl
      rfl rfl rfl rfl rfl rfl ?_
    simp [buildControl, Raw.base, Shape.formOk, Instr.wellFormed]
  case sysrd =>
    refine decodes_iff_of_row h { d := Shapes.dsz } [0] false false buildControl rfl rfl rfl rfl rfl rfl ?_
    simp [buildControl, Raw.base, Shape.formOk, Instr.wellFormed, Instr.wellFormed.wfBare]
  case syswr c ix a =>
    refine decodes_iff_of_row h { a := Shapes.sz } [0] false false buildControl rfl rfl rfl rfl rfl rfl ?_
    have hix : (ix.code.setWidth 16 = 0x020#16 ∨ ix.code.setWidth 16 = 0x040#16) ∨ ix.code.setWidth 16 = 0x042#16 ↔
        (ix = .chbTol ∨ ix = .trapBase) ∨ ix = .trapPc := by cases ix <;> decide
    simp [buildControl, Raw.base, Shape.formOk, Instr.wellFormed, hix, and_comm]
  all_goals cases hfam

/-- VOTE's destination: a predicate, or a vector register for `.ballot` (R248). -/
def VoteMode.field (m : VoteMode) : Field := if m = .ballot then Shapes.vz 32 else Shapes.dpd
theorem vote_shape (m : VoteMode) : (if (m.code.setWidth 16).extractLsb' 0 2 == 3#2 then Shapes.vz 32 else Shapes.dpd) = m.field := by
  cases m <;> rfl
theorem VoteMode.holds_field (m : VoteMode) (d : DstP) : m.field.holds d.code = (match m, d with
    | .ballot, .v _ => true
    | .ballot, .zero => true
    | .ballot, _ => false
    | _, .p _ => true
    | _, _ => false) := by
  cases m <;> cases d <;> simp [VoteMode.field, Shapes.vz, Shapes.dpd, Field.holds_op, DstP.code]
theorem VoteMode.isS_field (m : VoteMode) (d : DstP) : m.field.isS d.code = d.isS := by
  cases m <;> exact DstP.kind_isS d

theorem RedOp.has_of_allows {op : RedOp} {ty : Ty} (h : op.allows ty = true) : TSet.GR.has ty = true := by
  revert h; cases op <;> cases ty <;> decide
theorem decodes_iff_of_cross {i : Instr} {r : Raw} (hfam : i.family = some .cross) (h : i.toRaw = some r) :
    decodeRaw r = .ok i ↔ i.wellFormed = true := by
  cases i
  case vote c m d a =>
    refine decodes_iff_of_row h { d := if (m.code.setWidth 16).extractLsb' 0 2 == 3#2 then Shapes.vz 32 else Shapes.dpd, a := Shapes.p } [0] false false
      buildCross rfl rfl rfl rfl rfl rfl ?_
    rw [vote_shape]
    simp only [buildCross, Raw.base, Shape.formOk, Instr.wellFormed, VoteMode.holds_field, VoteMode.isS_field]
    cases m <;> cases d <;> simp [DstP.isS]
  case shfl k ty m d a n p =>
    refine decodes_iff_of_row h { d := Shapes.vz _, a := Shapes.i _, b := Shapes.i _, c := Shapes.pz } (typed .X) false false buildCross rfl rfl rfl rfl rfl rfl ?_
    by_cases hty : TSet.X.has ty = true
    · have hw : (Ty.ofCode false ty.code).bits = ty.bits := TSet.bits_code hty
      simp [buildCross, Raw.base, Instr.wellFormed, Shape.formOk, hty, hw, TSet.code_mem hty]
      grind
    · simp [buildCross, Raw.base, Instr.wellFormed, hty]
  case gred k ty op d a | gscan k ty op x d a =>
    refine decodes_iff_of_row h { d := Shapes.vz _, a := Shapes.i _ } (typed .GR) false false buildCross rfl rfl rfl rfl rfl rfl ?_
    by_cases hop : op.allows ty = true
    · have hty : TSet.GR.has ty = true := op.has_of_allows hop
      have hw : (Ty.ofCode false ty.code).bits = ty.bits := TSet.bits_code hty
      simp [-Nat.reduceAdd, -BitVec.getLsbD_eq_getElem, buildCross, Raw.base, Instr.wellFormed, Shape.formOk, hty, hw, hop, TSet.code_mem hty]
      grind
    · simp [-Nat.reduceAdd, -BitVec.getLsbD_eq_getElem, buildCross, Raw.base, Instr.wellFormed, hop]
  all_goals cases hfam

theorem setWidth_eq_zero (x : BitVec 5) : x.setWidth 16 = 0#16 ↔ x = 0#5 := by
  revert x; decide

theorem decodes_iff_of_limb {i : Instr} {r : Raw} (hfam : i.family = some .limb) (h : i.toRaw = some r) :
    decodeRaw r = .ok i ↔ i.wellFormed = true := by
  cases i
  case lbind =>
    refine decodes_iff_of_row h {} [0] false false buildLimb rfl rfl rfl rfl rfl rfl ?_
    simp [buildLimb, Raw.base, Shape.formOk, Instr.wellFormed, Instr.wellFormed.wfBare]
  case lfree =>
    refine decodes_iff_of_row h {} [0] false false buildLimb rfl rfl rfl rfl rfl rfl ?_
    simp [buildLimb, Raw.base, Shape.formOk, Instr.wellFormed, Instr.wellFormed.wfBare]
  case ladc | lsbb =>
    refine decodes_iff_of_row h { d := Shapes.vz 32, a := Shapes.v, b := Shapes.vsz, c := Shapes.pz, e := Shapes.dpz } (typed .L) false false buildLimb
      rfl rfl rfl rfl rfl rfl ?_
    simp [buildLimb, Raw.base, Shape.formOk, Instr.wellFormed, typed, TSet.types, Ty.code]
  case lshl | lshr =>
    refine decodes_iff_of_row h { d := Shapes.vz 32, a := Shapes.v, b := Shapes.i 32, e := Shapes.dpz } (typed .L) false false buildLimb
      rfl rfl rfl rfl rfl rfl ?_
    simp [buildLimb, Raw.base, Shape.formOk, Instr.wellFormed, typed, TSet.types, Ty.code]
  case lmulw =>
    refine decodes_iff_of_row h { d := Shapes.vz 32, a := Shapes.v, b := Shapes.vs 32, e := Shapes.vz 32 } (typed .L) false false buildLimb
      rfl rfl rfl rfl rfl rfl ?_
    simp [buildLimb, Raw.base, Shape.formOk, Instr.wellFormed, typed, TSet.types, Ty.code, setWidth_eq_zero, and_comm]
  case lmac =>
    refine decodes_iff_of_row h { d := Shapes.vz 32, a := Shapes.v, b := Shapes.vs 32, c := Shapes.vsz, e := Shapes.vz 32 } (typed .L) false false buildLimb
      rfl rfl rfl rfl rfl rfl ?_
    simp [buildLimb, Raw.base, Shape.formOk, Instr.wellFormed, typed, TSet.types, Ty.code, setWidth_eq_zero, and_comm]
  case lcmp =>
    refine decodes_iff_of_row h { d := Shapes.dpd, a := Shapes.v, b := Shapes.vsz } (typed .L) false false buildLimb
      rfl rfl rfl rfl rfl rfl ?_
    simp [buildLimb, Raw.base, Shape.formOk, Instr.wellFormed, typed, TSet.types, Ty.code]
  all_goals cases hfam

@[simp] theorem setWidth_eq_zero_iff {n : Nat} (hn : n ≤ 16) (x : BitVec n) : x.setWidth 16 = 0#16 ↔ x = 0#n := by
  rw [setWidth_eq_iff hn]
  simp
theorem TSet.ofCode_CV {ty : Ty} (h : TSet.CV.has ty = true) : Ty.ofCode true ty.code = ty := by revert h; cases ty <;> decide
theorem Dst.kindOf_eq_s {d : Dst} : kindOf d.code = .s ↔ d.isS = true := by rw [← d.kind_isS, beq_iff_eq]
theorem kindOf_optCode_preg {p : Option PReg} : kindOf (optCode PReg.code p) = .p ↔ p.isSome = true := by rw [← optCode_preg_eq_p, beq_iff_eq]
@[simp] theorem SImm.kind_isVec {w : Nat} (x : SImm w) : (kindOf x.code).isVec = false := by cases x <;> simp [SImm.code]
theorem Src.not_reg_of_isZero (x : Src) (h : x.isZero = true) : x.isReg = false ∧ x.isVec = false := by
  cases x with
  | sp y => cases y <;> simp_all [Src.isZero, Src.isReg, Src.isVec, Special.isVec]
  | _ n => simp [Src.isZero] at h
@[simp] theorem Src.code_eq_480 {x : Src} : x.code = code480 ↔ x.isZero = true := by
  rw [show code480 = (Src.sp .zero).code from rfl, ← Src.ofCode_eq_some, Src.ofCode_code, Option.some_inj]
  rcases x with n | n | y
  · simp [Src.isZero]
  · simp [Src.isZero]
  · cases y <;> simp [Src.isZero]
@[simp] theorem optCode_breg_eq_480 {x : Option BReg} : optCode BReg.code x = code480 ↔ x = none := by
  rw [show code480 = optCode BReg.code none from rfl, ← optOf_breg, optOf_breg_code, Option.some_inj]
@[simp] theorem extractLsb'_back {n : Nat} (x : BitVec n) (hn : n ≤ 16) : (x.setWidth 16).extractLsb' 0 n = x := by
  rw [← BitVec.setWidth_eq_extractLsb' hn]
  exact setWidth_back x hn
theorem FenceKind.code_mem (x : FenceKind) : x.code.toNat = 1 ∨ x.code.toNat = 2 ∨ x.code.toNat = 3 := by cases x <;> decide
theorem slotCode_mem (x : Option (Fin 4)) : (slotCode x).toNat = 0 ∨ (slotCode x).toNat = 4 ∨ (slotCode x).toNat = 5 ∨ (slotCode x).toNat = 6 ∨
    (slotCode x).toNat = 7 := by revert x; decide
/-- CPY reads a barrier but for `.out` (R220). -/
theorem cpy_shape (dir : CpyDir) : (if (dir.code.setWidth 16).extractLsb' 0 2 == 1#2 then Field.unused else Shapes.bz) =
    if dir = .out then Field.unused else Shapes.bz := by cases dir <;> rfl
/-- TDRAIN reads a barrier for `.spad` (R327). -/
theorem tdrain_shape (op : DrainOp) (kd : DrainKind) (pr : Fin 4) (st : Fin 8) : (if (0#8 ++ (kd.code ++ (op.code ++
    (BitVec.ofNat 2 pr.val ++ BitVec.ofNat 3 st.val : BitVec 5))) : BitVec 16).getLsbD 7 then Shapes.bz else Field.unused) =
    if kd = .spad then Shapes.bz else Field.unused := by
  obtain ⟨-, hk, -⟩ := ext_8_1_2_2_3.mp (Eq.refl (0#8 ++ (kd.code ++ (op.code ++ (BitVec.ofNat 2 pr.val ++ BitVec.ofNat 3 st.val : BitVec 5))) : BitVec 16))
  have hbit : kd.code = bit (decide (kd = .spad)) := by cases kd <;> rfl
  rw [getLsbD_of_bit (hbit.symm.trans hk)]
  simp
theorem Instr.tshp_wellFormed {k : Ctl} {ty : Ty} {t : TReg} {x y : SReg} :
    (Instr.tshp k ty t x y).wellFormed = (TSet.M.has ty && k.ok false false false) := by cases ty <;> rfl
theorem TSet.bits_F {ty : Ty} (h : TSet.F.has ty = true) : 32 = ty.bits := by revert h; cases ty <;> decide
theorem TSet.bits_H {ty : Ty} (h : TSet.H.has ty = true) : 32 = ty.bits := by revert h; cases ty <;> decide

theorem decodes_iff_of_float {i : Instr} {r : Raw} (hfam : i.family = some .float) (h : i.toRaw = some r) :
    decodeRaw r = .ok i ↔ i.wellFormed = true := by
  cases i
  case fadd | fsub | fmul | fmin | fmax | fscale =>
    exact decodes_iff_wf2 h .F buildFloat rfl rfl rfl rfl rfl rfl (by decide) TSet.bits_F (by simp [-Nat.reduceAdd, -BitVec.getLsbD_eq_getElem, buildFloat, Raw.base, Raw.rnd, Rnd.ext]) rfl
  case ffma =>
    exact decodes_iff_wf3 h .F buildFloat rfl rfl rfl rfl rfl rfl (by decide) TSet.bits_F (by simp [-Nat.reduceAdd, -BitVec.getLsbD_eq_getElem, buildFloat, Raw.base, Raw.rnd, Rnd.ext]) rfl
  case fdot2 =>
    exact decodes_iff_wf3 h .H buildFloat rfl rfl rfl rfl rfl rfl (by decide) TSet.bits_H (by simp [-Nat.reduceAdd, -BitVec.getLsbD_eq_getElem, buildFloat, Raw.base, Raw.rnd, Rnd.ext]) rfl
  case fabs | fneg | frnd =>
    exact decodes_iff_wf1 h .F buildFloat rfl rfl rfl rfl rfl rfl (by decide) TSet.bits_F (by simp [-Nat.reduceAdd, -BitVec.getLsbD_eq_getElem, buildFloat, Raw.base, Raw.rnd, Rnd.ext]) rfl
  case frcp | fsqrt | frsq | fexp2 | flog2 | fsin | fcos =>
    exact decodes_iff_wf1 (ty := .f32) h .F1 buildFloat rfl rfl rfl rfl rfl rfl (by decide) (fun _ => rfl) (by simp [-Nat.reduceAdd, -BitVec.getLsbD_eq_getElem, buildFloat, Raw.base, Raw.rnd, Rnd.ext, TSet.has, TSet.types]) rfl
  case fset k ty q u d a b =>
    refine decodes_iff_of_row h { d := Shapes.dp 32, a := Shapes.i 32, b := Shapes.i 32 } (typed .F) false false buildFloat rfl rfl rfl rfl rfl rfl ?_
    by_cases hty : TSet.F.has ty = true
    · simp [-Nat.reduceAdd, -BitVec.getLsbD_eq_getElem, buildFloat, Raw.base, Instr.wellFormed, Shape.formOk, formOk, hty, TSet.code_mem hty]
      grind
    · simp [-Nat.reduceAdd, -BitVec.getLsbD_eq_getElem, buildFloat, Raw.base, Instr.wellFormed, Shape.formOk, formOk, hty]
  case fclass k ty d a m =>
    refine decodes_iff_of_row h { d := Shapes.dp 32, a := Shapes.i 32 } (typed .F) false false buildFloat rfl rfl rfl rfl rfl rfl ?_
    by_cases hty : TSet.F.has ty = true
    · simp [-Nat.reduceAdd, -BitVec.getLsbD_eq_getElem, buildFloat, Raw.base, Instr.wellFormed, Shape.formOk, formOk, hty, TSet.code_mem hty]
      grind
    · simp [-Nat.reduceAdd, -BitVec.getLsbD_eq_getElem, buildFloat, Raw.base, Instr.wellFormed, Shape.formOk, formOk, hty]
  case fcvt k dt st rn d a x =>
    refine decodes_iff_of_row h { d := Shapes.d _, a := Shapes.i (Ty.ofCode true ((0#9 ++ (rn.code ++ st.code) : BitVec 16).extractLsb' 0 4)).bits, b := if Ty.ofCode true dt.code == .l6 || Ty.ofCode true ((0#9 ++ (rn.code ++ st.code) : BitVec 16).extractLsb' 0 4) == .l6 then Shapes.i 32 else .unused } (typed .CV) false false buildFloat rfl rfl rfl rfl rfl rfl ?_
    by_cases hdt : TSet.CV.has dt = true
    · by_cases hst : TSet.CV.has st = true
      · have hwd : Ty.ofCode true dt.code = dt := TSet.ofCode_CV hdt
        have hws : Ty.ofCode true st.code = st := TSet.ofCode_CV hst
        rw [(read_9_3_4 rn.code 0#9 st.code).2.2.1, hwd, hws]
        by_cases hsix : (dt == .l6 || st == .l6) = true
        · simp [-Nat.reduceAdd, -BitVec.getLsbD_eq_getElem, buildFloat, Raw.base, Instr.wellFormed, Shape.formOk, formOk, Raw.rnd, hdt, hst, hwd, hsix, TSet.code_mem hdt]
          grind
        · have hx : x.isZero = true → x.isReg = false ∧ x.isVec = false := x.not_reg_of_isZero
          simp [-Nat.reduceAdd, -BitVec.getLsbD_eq_getElem, buildFloat, Raw.base, Instr.wellFormed, Shape.formOk, formOk, Raw.rnd, hdt, hst, hwd, hsix, TSet.code_mem hdt]
          grind
      · simp [-Nat.reduceAdd, -BitVec.getLsbD_eq_getElem, buildFloat, Raw.base, Instr.wellFormed, Shape.formOk, formOk, Raw.rnd, hst]
    · simp [-Nat.reduceAdd, -BitVec.getLsbD_eq_getElem, buildFloat, Raw.base, Instr.wellFormed, Shape.formOk, formOk, Raw.rnd, hdt]
  all_goals cases hfam

theorem decodes_iff_of_function {i : Instr} {r : Raw} (hfam : i.family = some .function) (h : i.toRaw = some r) :
    decodeRaw r = .ok i ↔ i.wellFormed = true := by
  cases i
  case chld =>
    refine decodes_iff_of_row h { d := Shapes.f, a := Shapes.s, b := Shapes.s, c := Shapes.sz } [0] false false buildFunction rfl rfl rfl rfl rfl rfl ?_
    simp [-Nat.reduceAdd, -BitVec.getLsbD_eq_getElem, buildFunction, Raw.base, Instr.wellFormed, Shape.formOk]
    exact and_comm
  case chst =>
    refine decodes_iff_of_row h { a := Shapes.s, b := Shapes.f } [0] false false buildFunction rfl rfl rfl rfl rfl rfl ?_
    simp [-Nat.reduceAdd, -BitVec.getLsbD_eq_getElem, buildFunction, Raw.base, Instr.wellFormed, Shape.formOk]
  case chdom | chlen =>
    refine decodes_iff_of_row h { d := Shapes.dsz, a := Shapes.f } [0] false false buildFunction rfl rfl rfl rfl rfl rfl ?_
    simp [-Nat.reduceAdd, -BitVec.getLsbD_eq_getElem, buildFunction, Raw.base, Instr.wellFormed, Instr.wellFormed.wfBare, Shape.formOk]
  case chadd | chmul | chcomp =>
    refine decodes_iff_of_row h { d := Shapes.f, a := Shapes.f, b := Shapes.f } [0] false false buildFunction rfl rfl rfl rfl rfl rfl ?_
    simp [-Nat.reduceAdd, -BitVec.getLsbD_eq_getElem, buildFunction, Raw.base, Instr.wellFormed, Instr.wellFormed.wfBare, Shape.formOk]
  case chint | chder =>
    refine decodes_iff_of_row h { d := Shapes.f, a := Shapes.f } [0] false false buildFunction rfl rfl rfl rfl rfl rfl ?_
    simp [-Nat.reduceAdd, -BitVec.getLsbD_eq_getElem, buildFunction, Raw.base, Instr.wellFormed, Instr.wellFormed.wfBare, Shape.formOk]
  case chroot =>
    refine decodes_iff_of_row h { d := Shapes.vz 32, a := Shapes.f, e := Shapes.dsz } [0] false false buildFunction rfl rfl rfl rfl rfl rfl ?_
    simp [-Nat.reduceAdd, -BitVec.getLsbD_eq_getElem, buildFunction, Raw.base, Instr.wellFormed, Instr.wellFormed.wfBare, Shape.formOk]
  case cheval k d f x p =>
    refine decodes_iff_of_row h { d := Shapes.d 32, a := Shapes.f, b := Shapes.i 32, e := Shapes.dpz } [0] false false buildFunction rfl rfl rfl rfl rfl rfl ?_
    simp [-Nat.reduceAdd, -BitVec.getLsbD_eq_getElem, buildFunction, Raw.base, Instr.wellFormed, Shape.formOk, formOk, Dst.kindOf_eq_s, kindOf_optCode_preg]
    grind
  case chtrunc =>
    refine decodes_iff_of_row h { d := Shapes.f, a := Shapes.f, b := Shapes.sz } [0] false false buildFunction rfl rfl rfl rfl rfl rfl ?_
    simp [-Nat.reduceAdd, -BitVec.getLsbD_eq_getElem, buildFunction, Raw.base, Instr.wellFormed, Shape.formOk]
    exact and_comm
  all_goals cases hfam

theorem decodes_iff_of_memory {i : Instr} {r : Raw} (hfam : i.family = some .memory) (h : i.toRaw = some r) :
    decodeRaw r = .ok i ↔ i.wellFormed = true := by
  cases i
  case ldg k q ty d m | ldw k q ty d m =>
    refine decodes_iff_of_row h { d := Shapes.d _, a := Shapes.vs 64, b := Shapes.vsz, e := .bits } (typed .LD) false true buildMemory rfl rfl rfl rfl rfl rfl ?_
    by_cases hty : TSet.LD.has ty = true
    · have hw : (Ty.ofCode false ty.code).bits = ty.bits := TSet.bits_code hty
      simp [-Nat.reduceAdd, -BitVec.getLsbD_eq_getElem, buildMemory, Raw.base, Raw.withAddr, Raw.addr, Instr.wellFormed, Shape.formOk, formOk, wfLoad, hty, hw, TSet.code_mem hty]
      grind
    · simp [-Nat.reduceAdd, -BitVec.getLsbD_eq_getElem, buildMemory, Raw.base, Raw.withAddr, Raw.addr, Instr.wellFormed, Shape.formOk, formOk, wfLoad, hty]
  case ldx k q ty d m =>
    refine decodes_iff_of_row h { d := Shapes.d _, a := Shapes.vs 32, b := Shapes.vsz, e := .bits } (typed .LD) false true buildMemory rfl rfl rfl rfl rfl rfl ?_
    by_cases hty : TSet.LD.has ty = true
    · have hw : (Ty.ofCode false ty.code).bits = ty.bits := TSet.bits_code hty
      simp [-Nat.reduceAdd, -BitVec.getLsbD_eq_getElem, buildMemory, Raw.base, Raw.withAddr, Raw.addr, Instr.wellFormed, Shape.formOk, formOk, wfLoad, hty, hw, TSet.code_mem hty]
      grind
    · simp [-Nat.reduceAdd, -BitVec.getLsbD_eq_getElem, buildMemory, Raw.base, Raw.withAddr, Raw.addr, Instr.wellFormed, Shape.formOk, formOk, wfLoad, hty]
  case stg k q ty m v =>
    refine decodes_iff_of_row h { a := Shapes.vs 64, b := Shapes.vsz, c := Shapes.i _, e := .bits } (typed .ST) false true buildMemory rfl rfl rfl rfl rfl rfl ?_
    by_cases hty : TSet.ST.has ty = true
    · have hw : (Ty.ofCode false ty.code).bits = ty.bits := TSet.bits_code hty
      simp [-Nat.reduceAdd, -BitVec.getLsbD_eq_getElem, buildMemory, Raw.base, Raw.withAddr, Raw.addr, Instr.wellFormed, Shape.formOk, wfStore, hty, hw, TSet.code_mem hty]
      grind
    · simp [-Nat.reduceAdd, -BitVec.getLsbD_eq_getElem, buildMemory, Raw.base, Raw.withAddr, Raw.addr, Instr.wellFormed, Shape.formOk, wfStore, hty]
  case stx k q ty m v =>
    refine decodes_iff_of_row h { a := Shapes.vs 32, b := Shapes.vsz, c := Shapes.i _, e := .bits } (typed .ST) false true buildMemory rfl rfl rfl rfl rfl rfl ?_
    by_cases hty : TSet.ST.has ty = true
    · have hw : (Ty.ofCode false ty.code).bits = ty.bits := TSet.bits_code hty
      simp [-Nat.reduceAdd, -BitVec.getLsbD_eq_getElem, buildMemory, Raw.base, Raw.withAddr, Raw.addr, Instr.wellFormed, Shape.formOk, wfStore, hty, hw, TSet.code_mem hty]
      grind
    · simp [-Nat.reduceAdd, -BitVec.getLsbD_eq_getElem, buildMemory, Raw.base, Raw.withAddr, Raw.addr, Instr.wellFormed, Shape.formOk, wfStore, hty]
  case pref =>
    refine decodes_iff_of_row h { a := Shapes.vs 64, b := Shapes.vsz, e := .bits } [0] false true buildMemory rfl rfl rfl rfl rfl rfl ?_
    simp [-Nat.reduceAdd, -BitVec.getLsbD_eq_getElem, buildMemory, Raw.base, Raw.withAddr, Raw.addr, Instr.wellFormed, Shape.formOk]
    exact and_comm
  case linv =>
    refine decodes_iff_of_row h { a := Shapes.vs 64, b := Shapes.vsz, e := .bits } [0, 1] false true buildMemory rfl rfl rfl rfl rfl rfl ?_
    simp [-Nat.reduceAdd, -BitVec.getLsbD_eq_getElem, buildMemory, Raw.base, Raw.withAddr, Raw.addr, Instr.wellFormed, Shape.formOk]
    exact and_comm
  case linvAll =>
    refine decodes_iff_of_row h { e := .bits } [0, 1] false true buildMemory rfl rfl rfl rfl rfl rfl ?_
    simp [-Nat.reduceAdd, -BitVec.getLsbD_eq_getElem, buildMemory, Raw.base, Instr.wellFormed, Instr.wellFormed.wfBare, Shape.formOk]
  case fence c q k s =>
    refine decodes_iff_of_row h {} [1, 2, 3] false true buildMemory rfl rfl rfl rfl rfl rfl ?_
    simp [-Nat.reduceAdd, -BitVec.getLsbD_eq_getElem, buildMemory, Raw.base, Instr.wellFormed, Instr.wellFormed.wfBare, Shape.formOk, FenceKind.code_mem]
  case cst k q ty d m v =>
    refine decodes_iff_of_row h { d := Shapes.d _, a := Shapes.s, c := Shapes.i _ } (typed .X) false true buildMemory rfl rfl rfl rfl rfl rfl ?_
    by_cases hty : TSet.X.has ty = true
    · have hw : (Ty.ofCode false ty.code).bits = ty.bits := TSet.bits_code hty
      simp [-Nat.reduceAdd, -BitVec.getLsbD_eq_getElem, buildMemory, Raw.base, Instr.wellFormed, Shape.formOk, formOk, hty, hw, TSet.code_mem hty]
      grind
    · simp [-Nat.reduceAdd, -BitVec.getLsbD_eq_getElem, buildMemory, Raw.base, Instr.wellFormed, Shape.formOk, formOk, hty]
  case mcld =>
    refine decodes_iff_of_row h { d := Shapes.s, a := Shapes.s, b := Shapes.s, c := Shapes.bz, e := .bits } [0] false true buildMemory rfl rfl rfl rfl rfl rfl ?_
    simp [-Nat.reduceAdd, -BitVec.getLsbD_eq_getElem, buildMemory, Raw.base, Instr.wellFormed, Shape.formOk]
  all_goals cases hfam
theorem AOp.has_of_allows {op : AOp} {ty : Ty} (h : op.allows ty = true) : TSet.A.has ty = true := by
  revert h; cases op <;> cases ty <;> decide

theorem decodes_iff_of_atomic {i : Instr} {r : Raw} (hfam : i.family = some .atomic) (h : i.toRaw = some r) :
    decodeRaw r = .ok i ↔ i.wellFormed = true := by
  cases i
  case atom k ty op x o d m ix v =>
    refine decodes_iff_of_row h { d := Shapes.d _, a := Shapes.vs 64, b := Shapes.vsz, c := Shapes.i _ } (typed .A) false false buildAtomic rfl rfl rfl rfl rfl rfl ?_
    by_cases hop : op.allows ty = true
    · have hty : TSet.A.has ty = true := op.has_of_allows hop
      have hw : (Ty.ofCode false ty.code).bits = ty.bits := TSet.bits_code hty
      simp [-Nat.reduceAdd, -BitVec.getLsbD_eq_getElem, buildAtomic, Raw.base, atomExt, Instr.wellFormed, Shape.formOk, formOk, hop, hty, hw, TSet.code_mem hty]
      grind
    · simp [-Nat.reduceAdd, -BitVec.getLsbD_eq_getElem, buildAtomic, Raw.base, atomExt, Instr.wellFormed, Shape.formOk, formOk, hop]
  case red k ty op x o m ix v =>
    refine decodes_iff_of_row h { a := Shapes.vs 64, b := Shapes.vsz, c := Shapes.i _ } (typed .A) false false buildAtomic rfl rfl rfl rfl rfl rfl ?_
    by_cases hop : op.allows ty = true
    · have hty : TSet.A.has ty = true := op.has_of_allows hop
      have hw : (Ty.ofCode false ty.code).bits = ty.bits := TSet.bits_code hty
      simp [-Nat.reduceAdd, -BitVec.getLsbD_eq_getElem, buildAtomic, Raw.base, atomExt, Instr.wellFormed, Shape.formOk, hop, hty, hw, TSet.code_mem hty]
      grind
    · simp [-Nat.reduceAdd, -BitVec.getLsbD_eq_getElem, buildAtomic, Raw.base, atomExt, Instr.wellFormed, Shape.formOk, hop]
  case acas k ty x o d m ix n v =>
    refine decodes_iff_of_row h { d := Shapes.d _, a := Shapes.vs 64, b := Shapes.vsz, c := Shapes.i _, e := Shapes.i _ } (typed .AC) false false buildAtomic rfl rfl rfl rfl rfl rfl ?_
    by_cases hty : TSet.AC.has ty = true
    · have hw : (Ty.ofCode false ty.code).bits = ty.bits := TSet.bits_code hty
      simp [-Nat.reduceAdd, -BitVec.getLsbD_eq_getElem, buildAtomic, Raw.base, atomExt, Instr.wellFormed, Shape.formOk, formOk, hty, hw, TSet.code_mem hty]
      grind
    · simp [-Nat.reduceAdd, -BitVec.getLsbD_eq_getElem, buildAtomic, Raw.base, atomExt, Instr.wellFormed, Shape.formOk, formOk, hty]
  case signal =>
    refine decodes_iff_of_row h { a := Shapes.s, c := Shapes.sz } [0] false false buildAtomic rfl rfl rfl rfl rfl rfl ?_
    simp [-Nat.reduceAdd, -BitVec.getLsbD_eq_getElem, buildAtomic, Raw.base, Instr.wellFormed, Shape.formOk]
  all_goals cases hfam

theorem decodes_iff_of_copy {i : Instr} {r : Raw} (hfam : i.family = some .copy) (h : i.toRaw = some r) :
    decodeRaw r = .ok i ↔ i.wellFormed = true := by
  cases i
  case cpy k dir hd d s x bk =>
    refine decodes_iff_of_row h { d := Shapes.dsz, a := Shapes.s, b := Shapes.s, c := Shapes.s, e := if (dir.code.setWidth 16).extractLsb' 0 2 == 1#2 then .unused else Shapes.bz } [0] false false buildCopy rfl rfl rfl rfl rfl rfl ?_
    rw [cpy_shape]
    by_cases hdir : dir = .out
    · simp [-Nat.reduceAdd, -BitVec.getLsbD_eq_getElem, buildCopy, Raw.base, Instr.wellFormed, Shape.formOk, hdir, and_comm]
    · simp [-Nat.reduceAdd, -BitVec.getLsbD_eq_getElem, buildCopy, Raw.base, Instr.wellFormed, Shape.formOk, hdir]
  case cpyw k ty hd d s x bk =>
    refine decodes_iff_of_row h { d := Shapes.dsz, a := Shapes.s, b := Shapes.s, c := Shapes.s2, e := if ty.code == 6#4 && (0#16).getLsbD 0 then .unused else Shapes.bz } (typed .M) false false buildCopy rfl rfl rfl rfl rfl rfl ?_
    by_cases hty : TSet.M.has ty = true
    · simp [-Nat.reduceAdd, -BitVec.getLsbD_eq_getElem, buildCopy, Raw.base, Instr.wellFormed, Shape.formOk, hty, TSet.code_mem hty]
      grind
    · simp [-Nat.reduceAdd, -BitVec.getLsbD_eq_getElem, buildCopy, Raw.base, Instr.wellFormed, Shape.formOk, hty]
  case cpyt k ty hd d s x bk =>
    refine decodes_iff_of_row h { d := Shapes.dsz, a := Shapes.s, b := Shapes.s, c := Shapes.s2, e := Shapes.bz } (typed .M) false false buildCopy rfl rfl rfl rfl rfl rfl ?_
    by_cases hty : TSet.M.has ty = true
    · simp [-Nat.reduceAdd, -BitVec.getLsbD_eq_getElem, buildCopy, Raw.base, Instr.wellFormed, Shape.formOk, hty, TSet.code_mem hty]
      grind
    · simp [-Nat.reduceAdd, -BitVec.getLsbD_eq_getElem, buildCopy, Raw.base, Instr.wellFormed, Shape.formOk, hty]
  case cpywPut =>
    refine decodes_iff_of_row h { d := Shapes.dsz, a := Shapes.s, b := Shapes.s, c := Shapes.s2, e := if 6#4 == 6#4 && (1#16).getLsbD 0 then .unused else Shapes.bz } (typed .M) false false buildCopy rfl rfl rfl rfl rfl rfl ?_
    simp [-Nat.reduceAdd, -BitVec.getLsbD_eq_getElem, buildCopy, Raw.base, Instr.wellFormed, Shape.formOk, typed, TSet.types, Ty.code]
    exact and_comm
  case cpys k dt st rn hd d s x =>
    refine decodes_iff_of_row h { d := Shapes.dsz, a := Shapes.s, b := Shapes.s, c := Shapes.s2 } (typed .M) false false buildCopy rfl rfl rfl rfl rfl rfl ?_
    by_cases hdt : TSet.M.has dt = true
    · simp [-Nat.reduceAdd, -BitVec.getLsbD_eq_getElem, buildCopy, Raw.base, Raw.rnd, Instr.wellFormed, Shape.formOk, hdt, TSet.code_mem hdt]
      grind
    · simp [-Nat.reduceAdd, -BitVec.getLsbD_eq_getElem, buildCopy, Raw.base, Raw.rnd, Instr.wellFormed, Shape.formOk, hdt]
  case cpyq =>
    refine decodes_iff_of_row h { d := Shapes.ds, a := Shapes.sz } [0] false false buildCopy rfl rfl rfl rfl rfl rfl ?_
    simp [-Nat.reduceAdd, -BitVec.getLsbD_eq_getElem, buildCopy, Raw.base, Instr.wellFormed, Shape.formOk]
  case cpyx =>
    refine decodes_iff_of_row h { a := Shapes.sz } [0, 1] false false buildCopy rfl rfl rfl rfl rfl rfl ?_
    simp [-Nat.reduceAdd, -BitVec.getLsbD_eq_getElem, buildCopy, Raw.base, Instr.wellFormed, Shape.formOk]
  case cpyxAll =>
    refine decodes_iff_of_row (var := 1#4) h {} [0, 1] false false buildCopy rfl rfl rfl rfl rfl rfl ?_
    simp [buildCopy, Raw.base, Instr.wellFormed, Instr.wellFormed.wfBare, Shape.formOk]
  all_goals cases hfam

theorem decodes_iff_of_barrier {i : Instr} {r : Raw} (hfam : i.family = some .barrier) (h : i.toRaw = some r) :
    decodeRaw r = .ok i ↔ i.wellFormed = true := by
  cases i
  case bari =>
    refine decodes_iff_of_row h { a := Shapes.b, b := Shapes.sz } [0] true false buildBarrier rfl rfl rfl rfl rfl rfl ?_
    simp [-Nat.reduceAdd, -BitVec.getLsbD_eq_getElem, buildBarrier, Raw.base, Instr.wellFormed, Instr.wellFormed.wfBare, Shape.formOk]
    exact and_comm
  case barw =>
    refine decodes_iff_of_row h { a := Shapes.b, b := Shapes.sz } [0] true false buildBarrier rfl rfl rfl rfl rfl rfl ?_
    simp [-Nat.reduceAdd, -BitVec.getLsbD_eq_getElem, buildBarrier, Raw.base, Instr.wellFormed, Instr.wellFormed.wfBare, Shape.formOk]
  case bara | barl =>
    refine decodes_iff_of_row h { a := Shapes.b } [0, 4, 5, 6, 7] true false buildBarrier rfl rfl rfl rfl rfl rfl ?_
    simp [-Nat.reduceAdd, -BitVec.getLsbD_eq_getElem, buildBarrier, Raw.base, Instr.wellFormed, Instr.wellFormed.wfBare, Shape.formOk, slotCode_mem]
  case barx =>
    refine decodes_iff_of_row h { a := Shapes.b, b := Shapes.sz } [0, 4, 5, 6, 7] true false buildBarrier rfl rfl rfl rfl rfl rfl ?_
    simp [-Nat.reduceAdd, -BitVec.getLsbD_eq_getElem, buildBarrier, Raw.base, Instr.wellFormed, Instr.wellFormed.wfBare, Shape.formOk, slotCode_mem]
  case baraw =>
    refine decodes_iff_of_row h { a := Shapes.b } [0] true false buildBarrier rfl rfl rfl rfl rfl rfl ?_
    simp [-Nat.reduceAdd, -BitVec.getLsbD_eq_getElem, buildBarrier, Raw.base, Instr.wellFormed, Instr.wellFormed.wfBare, Shape.formOk]
  case bart c d b n =>
    refine decodes_iff_of_row h { d := .op [.p, .s, .zero] 32 true, a := Shapes.b, b := Shapes.sz } [0] true false buildBarrier rfl rfl rfl rfl rfl rfl ?_
    simp [-Nat.reduceAdd, -BitVec.getLsbD_eq_getElem, buildBarrier, Raw.base, Instr.wellFormed, Instr.wellFormed.wfBare, Shape.formOk]
    cases d <;> simp [DstP.code, Field.holds_op, and_comm]
  all_goals cases hfam

theorem decodes_iff_of_matrix {i : Instr} {r : Raw} (hfam : i.family = some .matrix) (h : i.toRaw = some r) :
    decodeRaw r = .ok i ↔ i.wellFormed = true := by
  cases i
  case tshp k ty t x y =>
    refine decodes_iff_of_row h { d := Shapes.t, a := Shapes.s, b := Shapes.s } (typed .M) true false buildMatrix rfl rfl rfl rfl rfl rfl ?_
    rw [Instr.tshp_wellFormed]
    by_cases hty : TSet.M.has ty = true
    · simp [-Nat.reduceAdd, -BitVec.getLsbD_eq_getElem, buildMatrix, Raw.base, Shape.formOk, hty, TSet.code_mem hty]
    · simp [-Nat.reduceAdd, -BitVec.getLsbD_eq_getElem, buildMatrix, Raw.base, hty]
  case tld =>
    refine decodes_iff_of_row h { d := Shapes.t, a := Shapes.s } [0] true false buildMatrix rfl rfl rfl rfl rfl rfl ?_
    simp [-Nat.reduceAdd, -BitVec.getLsbD_eq_getElem, buildMatrix, Raw.base, Raw.stream, Instr.wellFormed, Instr.wellFormed.wfBare, Shape.formOk]
  case tst =>
    refine decodes_iff_of_row h { a := Shapes.s, b := Shapes.t } [0] true false buildMatrix rfl rfl rfl rfl rfl rfl ?_
    simp [-Nat.reduceAdd, -BitVec.getLsbD_eq_getElem, buildMatrix, Raw.base, Raw.stream, Instr.wellFormed, Instr.wellFormed.wfBare, Shape.formOk]
  case tzero =>
    refine decodes_iff_of_row h { d := Shapes.t } [0] true false buildMatrix rfl rfl rfl rfl rfl rfl ?_
    simp [-Nat.reduceAdd, -BitVec.getLsbD_eq_getElem, buildMatrix, Raw.base, Raw.stream, Instr.wellFormed, Instr.wellFormed.wfBare, Shape.formOk]
  case mma =>
    refine decodes_iff_of_row h { d := Shapes.t, a := Shapes.t, b := Shapes.t } [0] true false buildMatrix rfl rfl rfl rfl rfl rfl ?_
    simp [-Nat.reduceAdd, -BitVec.getLsbD_eq_getElem, buildMatrix, Raw.base, Raw.stream, Raw.pri, Rq.ext, Instr.wellFormed, Instr.wellFormed.wfBare, Shape.formOk]
  case mloop =>
    refine decodes_iff_of_row h { d := Shapes.t, a := Shapes.t, b := Shapes.t, c := Shapes.s2, e := Shapes.s2 } [0] true false buildMatrix rfl rfl rfl rfl rfl rfl ?_
    simp [-Nat.reduceAdd, -BitVec.getLsbD_eq_getElem, buildMatrix, Raw.base, Raw.stream, Raw.pri, Rq.ext, Instr.wellFormed, Instr.wellFormed.wfBare, Shape.formOk]
    tauto
  case twait =>
    refine decodes_iff_of_row h {} [0] true false buildMatrix rfl rfl rfl rfl rfl rfl ?_
    simp [-Nat.reduceAdd, -BitVec.getLsbD_eq_getElem, buildMatrix, Raw.base, Instr.wellFormed, Instr.wellFormed.wfBare, Shape.formOk]
    exact and_comm
  case tfence =>
    refine decodes_iff_of_row h {} [0] true false buildMatrix rfl rfl rfl rfl rfl rfl ?_
    simp [-Nat.reduceAdd, -BitVec.getLsbD_eq_getElem, buildMatrix, Raw.base, Instr.wellFormed, Instr.wellFormed.wfBare, Shape.formOk]
  case tdrain k op kd st pr d t x bk =>
    refine decodes_iff_of_row h { a := Shapes.s, b := Shapes.t, c := Shapes.s, e := if (0#8 ++ (kd.code ++ (op.code ++ (BitVec.ofNat 2 pr.val ++ BitVec.ofNat 3 st.val : BitVec 5))) : BitVec 16).getLsbD 7 then Shapes.bz else .unused } [0] true false buildMatrix rfl rfl rfl rfl rfl rfl ?_
    rw [tdrain_shape]
    by_cases hkd : kd = .spad
    · simp [-Nat.reduceAdd, -BitVec.getLsbD_eq_getElem, buildMatrix, Raw.base, Raw.stream, Raw.pri, Instr.wellFormed, Instr.wellFormed.wfBare, Shape.formOk, hkd]
    · simp [-Nat.reduceAdd, -BitVec.getLsbD_eq_getElem, buildMatrix, Raw.base, Raw.stream, Raw.pri, Instr.wellFormed, Instr.wellFormed.wfBare, Shape.formOk, hkd, and_comm]
  case tcvt k ty st rn d a =>
    refine decodes_iff_of_row h { d := Shapes.t, a := Shapes.t } (typed .M) true false buildMatrix rfl rfl rfl rfl rfl rfl ?_
    by_cases hty : TSet.M.has ty = true
    · simp [-Nat.reduceAdd, -BitVec.getLsbD_eq_getElem, buildMatrix, Raw.base, Raw.rnd, Raw.stream, Instr.wellFormed, Instr.wellFormed.wfBare, Shape.formOk, hty, TSet.code_mem hty]
    · simp [-Nat.reduceAdd, -BitVec.getLsbD_eq_getElem, buildMatrix, Raw.base, Raw.rnd, Raw.stream, Instr.wellFormed, Instr.wellFormed.wfBare, Shape.formOk, hty]
  case tgangOn =>
    refine decodes_iff_of_row h { a := Shapes.t } [0, 1] true false buildMatrix rfl rfl rfl rfl rfl rfl ?_
    simp [-Nat.reduceAdd, -BitVec.getLsbD_eq_getElem, buildMatrix, Raw.base, Instr.wellFormed, Instr.wellFormed.wfBare, Shape.formOk]
  case tgangOff =>
    refine decodes_iff_of_row (var := 1#4) h {} [0, 1] true false buildMatrix rfl rfl rfl rfl rfl rfl ?_
    simp [buildMatrix, Raw.base, Instr.wellFormed, Instr.wellFormed.wfBare, Shape.formOk]
  all_goals cases hfam

theorem decodes_iff_of_monitor {i : Instr} {r : Raw} (hfam : i.family = some .monitor) (h : i.toRaw = some r) :
    decodeRaw r = .ok i ↔ i.wellFormed = true := by
  cases i
  case mwait k d c l =>
    refine decodes_iff_of_row h { d := Shapes.dpz, a := Shapes.vsz, b := Shapes.sz } [0] true false buildMonitor rfl rfl rfl rfl rfl rfl ?_
    simp [-Nat.reduceAdd, -BitVec.getLsbD_eq_getElem, buildMonitor, Raw.base, Instr.wellFormed, Instr.wellFormed.wfBare, Shape.formOk, Option.bind_eq_some_iff]
    exact and_comm
  case mnote | mnotea =>
    refine decodes_iff_of_row h { a := Shapes.vsz } [0] true false buildMonitor rfl rfl rfl rfl rfl rfl ?_
    simp [-Nat.reduceAdd, -BitVec.getLsbD_eq_getElem, buildMonitor, Raw.base, Instr.wellFormed, Instr.wellFormed.wfBare, Shape.formOk, Option.bind_eq_some_iff]
    exact and_comm
  case mheld =>
    refine decodes_iff_of_row h { d := Shapes.vz 32 } [0] true false buildMonitor rfl rfl rfl rfl rfl rfl ?_
    simp [-Nat.reduceAdd, -BitVec.getLsbD_eq_getElem, buildMonitor, Raw.base, Instr.wellFormed, Instr.wellFormed.wfBare, Shape.formOk]
  case clrd =>
    refine decodes_iff_of_row h { d := Shapes.d 32, a := Shapes.vs 64, b := Shapes.vsz, e := .bits } [0] true false buildMonitor rfl rfl rfl rfl rfl rfl ?_
    simp [-Nat.reduceAdd, -BitVec.getLsbD_eq_getElem, buildMonitor, Raw.base, Raw.withAddr, Raw.addr, Instr.wellFormed, Instr.wellFormed.wfBare, Shape.formOk, formOk]
    tauto
  all_goals cases hfam

theorem decodes_iff_of_record {i : Instr} {r : Raw} (hfam : i.family = some .record) (h : i.toRaw = some r) :
    decodeRaw r = .ok i ↔ i.wellFormed = true := by
  cases i
  case recon =>
    refine decodes_iff_of_row h { d := Shapes.dsz, a := Shapes.s, b := Shapes.s } [0] false false buildRecord rfl rfl rfl rfl rfl rfl ?_
    simp [-Nat.reduceAdd, -BitVec.getLsbD_eq_getElem, buildRecord, Raw.base, Instr.wellFormed, Shape.formOk]
  case recoff | replay | rerec =>
    refine decodes_iff_of_row h {} [0] false false buildRecord rfl rfl rfl rfl rfl rfl ?_
    simp [-Nat.reduceAdd, -BitVec.getLsbD_eq_getElem, buildRecord, Raw.base, Instr.wellFormed, Instr.wellFormed.wfBare, Shape.formOk]
  case recq =>
    refine decodes_iff_of_row h { d := Shapes.dsz } [0] false false buildRecord rfl rfl rfl rfl rfl rfl ?_
    simp [-Nat.reduceAdd, -BitVec.getLsbD_eq_getElem, buildRecord, Raw.base, Instr.wellFormed, Instr.wellFormed.wfBare, Shape.formOk]
    exact and_comm
  all_goals cases hfam

theorem decodes_iff_of_queue {i : Instr} {r : Raw} (hfam : i.family = some .queue) (h : i.toRaw = some r) :
    decodeRaw r = .ok i ↔ i.wellFormed = true := by
  cases i
  case qpush | qpop =>
    refine decodes_iff_of_row h { d := Shapes.dpz, a := Shapes.s, b := Shapes.vs 32 } [0] false false buildQueue rfl rfl rfl rfl rfl rfl ?_
    simp [-Nat.reduceAdd, -BitVec.getLsbD_eq_getElem, buildQueue, Raw.base, Instr.wellFormed, Shape.formOk]
  case qstat =>
    refine decodes_iff_of_row h { d := Shapes.d 32, a := Shapes.s } [0] false false buildQueue rfl rfl rfl rfl rfl rfl ?_
    simp [-Nat.reduceAdd, -BitVec.getLsbD_eq_getElem, buildQueue, Raw.base, Instr.wellFormed, Shape.formOk]
  case launch =>
    refine decodes_iff_of_row h { d := Shapes.dpz, a := Shapes.s, b := Shapes.vs 64 } [0] false false buildQueue rfl rfl rfl rfl rfl rfl ?_
    simp [-Nat.reduceAdd, -BitVec.getLsbD_eq_getElem, buildQueue, Raw.base, Instr.wellFormed, Shape.formOk]
    exact and_comm
  all_goals cases hfam

/-- The instructions that have a word are those of the chapters' tables. -/
theorem Instr.isSome_toRaw (i : Instr) : i.toRaw.isSome = i.family.isSome := by
  cases i <;> rfl

/-- The word of an instruction decodes to it where it is well formed, and only there. -/
theorem decodeRaw_toRaw_iff {i : Instr} {r : Raw} (h : i.toRaw = some r) : decodeRaw r = .ok i ↔ i.wellFormed = true := by
  have hsome : i.family.isSome = true := by rw [← i.isSome_toRaw, h, Option.isSome_some]
  obtain ⟨f, hfam⟩ := Option.isSome_iff_exists.mp hsome
  cases f with
  | control => exact decodes_iff_of_control hfam h
  | cross => exact decodes_iff_of_cross hfam h
  | integer => exact decodes_iff_of_integer hfam h
  | limb => exact decodes_iff_of_limb hfam h
  | float => exact decodes_iff_of_float hfam h
  | function => exact decodes_iff_of_function hfam h
  | memory => exact decodes_iff_of_memory hfam h
  | atomic => exact decodes_iff_of_atomic hfam h
  | copy => exact decodes_iff_of_copy hfam h
  | barrier => exact decodes_iff_of_barrier hfam h
  | matrix => exact decodes_iff_of_matrix hfam h
  | monitor => exact decodes_iff_of_monitor hfam h
  | record => exact decodes_iff_of_record hfam h
  | queue => exact decodes_iff_of_queue hfam h

theorem toRaw_of_decodeRaw {i : Instr} {r : Raw} (h : decodeRaw r = .ok i) : i.toRaw = some r := by
  obtain ⟨k, hk, hc, hb⟩ := decodeRaw_eq_ok.mp h
  exact toRaw_of_build hk hc hb

/-- Settles O52: the word of an instruction is read back field by field, and its checks ask no more than that it is well formed. -/
theorem decodeOfEncode : Obligations.DecodeOfEncode := by
  unfold Obligations.DecodeOfEncode
  intro i w hwf h
  obtain ⟨r, hr, rfl⟩ := Option.map_eq_some_iff.mp h
  rw [decode, Raw.ofWord_toWord]
  exact (decodeRaw_toRaw_iff hr).mpr hwf

/-- Settles O53: a word that passes its checks holds nothing but its instruction's operands, so that it is its instruction's word. -/
theorem encodeOfDecode : Obligations.EncodeOfDecode := by
  unfold Obligations.EncodeOfDecode
  intro i w h
  have hr : i.toRaw = some (Raw.ofWord w) := toRaw_of_decodeRaw h
  refine ⟨(decodeRaw_toRaw_iff hr).mp h, ?_⟩
  rw [encode, hr, Option.map_some, Raw.toWord_ofWord]

end Sys2Proof

namespace Sys2Proof
open Machine
/-- Settles O51: the decoder evaluates each of the eight words to its instruction. -/
theorem decodeWords : Obligations.DecodeWords := by
  refine ⟨?nop, ?iadd, ?fadd, ?cheval, ?ldg, ?fence, ?atom, ?call⟩ <;> decide
end Sys2Proof

namespace Sys2Proof

/-- The families of the events: those that one theorem can treat alike. -/
inductive EventFamily where
  /-- Chapters 2 to 5: instruction fetch, page walks, homes, gateways and copies, the host. -/
  | memory
  /-- Chapters 6 and 7: multicast and the copy units, pushes. -/
  | copy
  /-- Chapters 8, 16 and 17: recorders, updates at a home, monitors. -/
  | monitor
  /-- Chapters 18 to 20: release, placement and the ends of blocks, traps, the timers. -/
  | schedule
  /-- Chapter 21: the register window and the peer ports. -/
  | port
  /-- Chapter 21: firmware, resets and the records that firmware answers. -/
  | firmware
  /-- Chapter 21: the mailbox commands. -/
  | command

/-- The family of an event; an instruction has none. -/
def Instr.eventFamily : Instr → Option EventFamily
  | .instructionFetch .. | .instructionFill .. | .pageWalk .. | .walkResult .. | .homeRead .. | .homeStore .. | .fillArrival ..
  | .gatewayRead .. | .gatewayRenewal .. | .gatewayStore .. | .forwardReturn .. | .gatewayWritePass .. | .loadResponse ..
  | .storeCompletion .. | .bufferTimerDrain .. | .leaseExpiry .. | .hostSnoop .. | .hostWrite .. | .hostRead .. | .cxlCompletion ..
  | .completionTimeout .. | .refreshWindowEnd .. => some .memory
  | .multicastRequest .. | .multicastDeadline .. | .multicastLanding .. | .unitSend .. | .unitLanding .. | .pushArrival ..
  | .pushInstall .. | .pushAtGateway .. | .pushAck .. | .fallBack .. => some .copy
  | .regionChange .. | .passGrant .. | .passEnd .. | .drainUpdate .. | .atomicUpdate .. | .signalApply .. | .acquireRequest .. | .recall ..
  | .grantReturn .. | .grant .. | .colourRelease .. | .monitorRelease .. | .notification .. | .mwaitDeadline ..
  | .sleepDeadline .. => some .monitor
  | .groupExitRelease .. | .blockRetirement .. | .blockPlacement .. | .steal .. | .preamble .. | .nodeBinTimer .. | .recordMoveBack ..
  | .scoreWindow .. | .coreEnable .. | .engineEnable .. | .trapEntry .. | .termination .. | .dyingTimeout .. | .watchdog ..
  | .dugoutWrite .. | .wlPasses .. | .dieIdle .. | .pendClear .. | .bullpenWindow .. => some .schedule
  | .unsupportedAccess .. | .registerWrite .. | .newestRecord .. | .mctpUnknownCommand .. | .dataFlit .. | .idleFlit .. | .retryRequest ..
  | .training .. | .creditGrant .. | .portDown .. | .readALine .. | .writeALine .. | .peerAtom .. | .peerAcas .. | .peerRed ..
  | .peerSignal .. | .readData .. | .writeDone .. | .atomicResponse .. | .errorMessage .. => some .port
  | .workerReset .. | .dieReset .. | .clusterReset .. | .coreReset .. | .recorderReset .. | .weightStoreReset .. | .contextReset ..
  | .boot .. | .reserveReplacement .. | .spdmRequest .. | .commandCompletion .. | .doorbellDiscard .. | .umpireReset ..
  | .selfTestTimeout .. | .deviceReset .. | .schemaList .. | .unknownCommand .. => some .firmware
  | .contextCreate .. | .contextDestroy .. | .contextSetBkpt .. | .contextSetRecDepart .. | .contextSetWdogTicks ..
  | .contextSetCmapBase .. | .mapCodePage .. | .shootdown .. | .faultResolve .. | .mbxLaunch .. | .queueSet .. | .queuePush ..
  | .queueClose .. | .preEmpt .. | .resume .. | .logReadReject .. | .logReadFault .. | .logReadFaultBuffer .. | .updateWrite ..
  | .updateVerify .. | .updateActivate .. | .recordRead .. => some .command
  | _ => none

theorem Instr.family_or_eventFamily (i : Instr) : (i.family.isSome || i.eventFamily.isSome) = true := by
  cases i <;> rfl

end Sys2Proof

namespace Sys2Proof.Machine

/-! ## A step answers a next state (R59, R409) -/

theorem safe_next (t : State) : Safe (.next t) := ⟨t, rfl⟩

theorem safe_begin {c : Ctl} {s : State} {f : Iss → Out} (h : ∀ e, Safe (f e)) : Safe (begin_ c s f) := by
  unfold begin_
  split
  · exact safe_next _
  · split
    · exact safe_next _
    · dsimp only
      split
      · exact safe_next _
      · exact h _

theorem safe_execValue {c : Ctl} {vec : Bool} {ty : Ty} {d : Dst} {f : Iss → Tid → Word64} {s : State} :
    Safe (execValue c vec ty d f s) :=
  safe_begin fun _ => safe_next _

theorem safe_execTest {c : Ctl} {vec : Bool} {ty : Ty} {d : DstP} {f : Iss → Tid → Word64} {s : State} :
    Safe (execTest c vec ty d f s) :=
  safe_begin fun _ => safe_next _

theorem safe_startRelease {c : Ctl} {e : Iss} {op : RelOp} {ways : List RetTo} : Safe (startRelease c e op ways) := by
  unfold startRelease
  dsimp only
  split
  · exact safe_next _
  · split <;> exact safe_next _

theorem safe_fillFrames {c : Ctl} {e : Iss} {xs : List (Tid × Xlat)} {addr : Tid → Word64} : Safe (fillFrames c e xs addr) := by
  unfold fillFrames
  dsimp only
  split <;> exact safe_next _

theorem safe_trapWith {c : Ctl} {code : FaultCode} {reason : BitVec 8} {e : Iss} : Safe (trapWith c code reason e) := by
  unfold trapWith
  split <;> exact safe_next _

theorem safe_funcOp {c : Ctl} {srcs : List CReg} {f : Iss → Out} {s : State} (h : ∀ e, Safe (f e)) : Safe (funcOp c srcs f s) := by
  refine safe_begin fun e => ?_
  repeat' split
  any_goals exact safe_next _
  exact h e

theorem safe_funcPlace {c : Ctl} {e : Iss} {fd : CReg} {a b : Word32} {cs : List Word32} : Safe (funcPlace c e fd a b cs) := by
  unfold funcPlace
  split <;> exact safe_next _

theorem safe_funcResult {c : Ctl} {e : Iss} {fd : CReg} {a b : Word32} {n : Nat} {res : Option (List Rat)} :
    Safe (funcResult c e fd a b n res) := by
  unfold funcResult
  split <;> exact safe_funcPlace

theorem safe_funcScratch {c : Ctl} {e : Iss} {a : Word64} {n : Nat} {f : Block → Nat → Nat → Out} (h : ∀ b i j, Safe (f b i j)) :
    Safe (funcScratch c e a n f) := by
  unfold funcScratch
  repeat' split
  any_goals exact safe_next _
  exact h _ _ _

theorem safe_of_checks {e : Iss} {vec : Bool} {n : Nat} {need : Need} {addr : Tid → Word64}
    {more : List (Tid × Xlat) → Option (FaultCode × Mask)} {drain : Bool} {o : Out}
    (h : e.checks vec n need addr more drain = .stop o) : Safe o := by
  unfold Iss.checks at h
  dsimp only at h
  repeat' split at h
  all_goals cases h
  all_goals exact safe_next _

theorem safe_withChecks {c : Ctl} {vec : Bool} {n : Nat} {need : Need} {m : Addr} {f : Checked → (Tid → Word64) → Out} {s : State}
    (h : ∀ x addr, Safe (f x addr)) : Safe (withChecks c vec n need m f s) := by
  refine safe_begin fun e => ?_
  split
  · exact safe_next _
  · dsimp only
    split
    next hstop => exact safe_of_checks hstop
    · split
      · exact safe_next _
      · exact h _ _

theorem safe_loadThreads {c : Ctl} {h : Hint} {ty : Ty} {d : Dst} {vec : Bool} {x : Checked} {addr : Tid → Word64} :
    Safe (loadThreads c h ty d vec x addr) := safe_next _

theorem safe_storeThreads {c : Ctl} {h : Hint} {ty : Ty} {v : Src} {vec : Bool} {x : Checked} {addr : Tid → Word64} :
    Safe (storeThreads c h ty v vec x addr) := safe_next _

theorem safe_scratchAccess {c : Ctl} {vec load : Bool} {ty : Ty} {m : Addr} {d : Dst} {v : Iss → Tid → BitVec 128} {s : State} :
    Safe (scratchAccess c vec load ty m d v s) := by
  refine safe_begin fun e => ?_
  dsimp only [issueScratch]
  repeat' split
  all_goals exact safe_next _

theorem safe_cstApply {c : Ctl} {h : Hint} {ty : Ty} {d : Dst} {v : Src} {e : Iss} {hd : Word64} {hx : Xlat} {q : CstHeader}
    {els : List (Tid × Nat × Word64)} {xs : List (Tid × Xlat)} {s : State} : Safe (cstApply c h ty d v e hd hx q els xs s) := by
  unfold cstApply
  dsimp only
  split
  · exact safe_next _
  · split <;> exact safe_next _

theorem safe_releaseFirst {c : Ctl} {sc : Scope} {e : Iss} {f : Iss → Out} (h : ∀ e, Safe (f e)) : Safe (releaseFirst c sc e f) := by
  unfold releaseFirst
  split
  · exact h _
  · dsimp only
    split <;> split
    any_goals exact safe_next _
    exact h _

theorem safe_scratchAtomic {c : Ctl} {vec : Bool} {o : Ord} {d : Option Dst} {mk : Iss → Tid → UpdateOp} {ty : Ty} {e : Iss}
    {addr : Tid → Word64} : Safe (scratchAtomic c vec o d mk ty e addr) := by
  unfold scratchAtomic
  dsimp only
  split <;> exact safe_next _

theorem safe_atomicThreads {c : Ctl} {vec : Bool} {o : Ord} {d : Option Dst} {mk : Iss → Tid → UpdateOp} {ty : Ty} {x : Checked}
    {addr : Tid → Word64} : Safe (atomicThreads c vec o d mk ty x addr) := by
  unfold atomicThreads
  dsimp only
  split <;> exact safe_next _

theorem safe_atomicBody {c : Ctl} {vec sp : Bool} {o : Ord} {d : Option Dst} {m : Addr} {mk : Iss → Tid → UpdateOp} {ty : Ty} {e : Iss} :
    Safe (atomicBody c vec sp o d m mk ty e) := by
  unfold atomicBody
  dsimp only
  split
  · repeat' split
    any_goals exact safe_next _
    exact safe_scratchAtomic
  · split
    next hstop => exact safe_of_checks hstop
    · split
      · exact safe_next _
      · exact safe_atomicThreads

theorem safe_atomicWith {c : Ctl} {vec sp : Bool} {o : Ord} {d : Option Dst} {m : Addr} {mk : Iss → Tid → UpdateOp} {ty : Ty} {s : State} :
    Safe (atomicWith c vec sp o d m mk ty s) := by
  refine safe_begin fun e => ?_
  repeat' split
  · exact safe_next _
  · exact safe_releaseFirst fun _ => safe_atomicBody
  · exact safe_atomicBody

theorem safe_startCopy {c : Ctl} {e : Iss} {slot : Nat} {k : CopyKind} {hdl : SDst} {dst src w0 w1 : Word64} {bk : Option Nat} {n : Nat} :
    Safe (startCopy c e slot k hdl dst src w0 w1 bk n) := safe_next _

theorem safe_copyWith {c : Ctl} {k : CopyKind} {hdl : SDst} {dst src pair : SReg} {bk : Option BReg} {s : State} :
    Safe (copyWith c k hdl dst src pair bk s) := by
  refine safe_begin fun e => ?_
  dsimp only
  repeat' split
  any_goals exact safe_next _
  next hstop => exact safe_of_checks hstop

theorem safe_arriveWith {c : Ctl} {e : Iss} {slot : Nat} {k : BReg} {await : Bool} : Safe (arriveWith c e slot k await) := by
  unfold arriveWith
  split <;> exact safe_next _

theorem safe_barOp {c : Ctl} {sl : Option (Fin 4)} {k : BReg} {f : Iss → Block → Nat → Barrier → Out} {s : State}
    (h : ∀ e b n x, Safe (f e b n x)) : Safe (barOp c sl k f s) := by
  refine safe_begin fun e => ?_
  dsimp only
  repeat' split
  any_goals exact safe_next _
  all_goals exact h _ _ _ _

theorem safe_tileOp {c : Ctl} {f : Iss → Block → Out} {s : State} (h : ∀ e b, Safe (f e b)) : Safe (tileOp c f s) := by
  refine safe_begin fun e => ?_
  repeat' split
  any_goals exact safe_next _
  exact h _ _

theorem safe_shapeTile {c : Ctl} {e : Iss} {b : Block} {ty : Ty} {td : TReg} {rows cols : Nat} : Safe (shapeTile c e b ty td rows cols) := by
  unfold shapeTile
  dsimp only
  repeat' split
  all_goals exact safe_next _

theorem safe_postAndWait {c : Ctl} {e : Iss} {b : Block} {p : Post} : Safe (postAndWait c e b p) := by
  unfold postAndWait
  dsimp only
  repeat' split
  all_goals exact safe_next _

theorem safe_postAndGo {c : Ctl} {e : Iss} {b : Block} {p : Post} : Safe (postAndGo c e b p) := by
  unfold postAndGo
  split <;> exact safe_next _

theorem safe_postDrain {c : Ctl} {e : Iss} {b : Block} {p : Post} {xs : List (Word64 × Xlat)} : Safe (postDrain c e b p xs) := by
  unfold postDrain
  split <;> exact safe_next _

theorem safe_regionTurn {c : Ctl} {f : Iss → Out} {s : State} (h : ∀ e, Safe (f e)) : Safe (regionTurn c f s) := by
  refine safe_begin fun e => ?_
  repeat' split
  any_goals exact safe_next _
  exact h _

theorem safe_regionHold {c : Ctl} {e : Iss} {s : State} {n k : Nat} : Safe (regionHold c e s n k) := by
  unfold regionHold
  dsimp only
  split <;> exact safe_next _

theorem safe_regionCommand {c : Ctl} {r : BitVec 4} {n : Nat} {acts : Nat → Bool} {f : Region → Region} {s : State} :
    Safe (regionCommand c r n acts f s) := by
  refine safe_regionTurn fun e => ?_
  dsimp only
  split
  · exact safe_next _
  · exact safe_regionHold

theorem safe_jump {c : Ctl} {tgt : Iss → Tid → Word64} {s : State} : Safe (jump c tgt s) := by
  refine safe_begin fun e => ?_
  split <;> exact safe_next _

theorem safe_callWith {c : Ctl} {link : VDst} {tgt : Iss → Tid → Word64} {s : State} : Safe (callWith c link tgt s) := by
  refine safe_begin fun e => ?_
  dsimp only
  repeat' split
  all_goals exact safe_next _

theorem safe_limbOp {c : Ctl} {sel : Option Nat} {f : Iss → Tid → Nat → Group → Group} {s : State} : Safe (limbOp c sel f s) := by
  refine safe_begin fun e => ?_
  dsimp only
  repeat' split
  all_goals exact safe_next _

theorem safe_receive {s : State} {port ftype : Nat} {flit : BitVec 2048} {f : Port → FlitHead → State} :
    Safe (s.receive port ftype flit f) := by
  unfold State.receive
  dsimp only
  repeat' split
  all_goals exact safe_next _

theorem safe_linkControl {s : State} {port op : Nat} {flit : BitVec 2048} {f : Port → BitVec 128 → State} :
    Safe (s.linkControl port op flit f) := by
  unfold State.linkControl
  dsimp only
  split <;> exact safe_next _

theorem safe_peerServe {s : State} {m kind : Nat} {f : State → PeerReq → Nat → Option State} : Safe (s.peerServe m kind f) := by
  unfold State.peerServe
  dsimp only
  repeat' split
  all_goals exact safe_next _

theorem safe_peerAnswer {s : State} {m : Nat} {kinds : List Nat} {f : State → PeerReq → Msg → State} : Safe (s.peerAnswer m kinds f) := by
  unfold State.peerAnswer
  dsimp only
  repeat' split
  all_goals exact safe_next _

theorem safe_command {s : State} {code : Nat} {p : (Nat → Word64) → Bool} {f : (Nat → Word64) → State → State} :
    Safe (s.command code p f) := by
  unfold State.command
  dsimp only
  repeat' split
  all_goals exact safe_next _

theorem safe_contextSet {s : State} {p : (Nat → Word64) → Bool} : Safe (s.contextSet p) := safe_command

theorem safe_resetUnit {s : State} {p : Block → Bool} {dead : Bool} {f : State → State} : Safe (s.resetUnit p dead f) := by
  unfold State.resetUnit
  split <;> exact safe_next _

theorem safe_withSignal {c : Ctl} {base : SReg} {f : Checked → Word64 → Tid → Xlat → Out} {s : State}
    (h : ∀ x a t y, Safe (f x a t y)) : Safe (execSignal.withSignal c base f s) := by
  refine safe_begin fun e => ?_
  dsimp only
  repeat' split
  any_goals exact safe_next _
  next hstop => exact safe_of_checks hstop
  exact h _ _ _ _

/-! ## The instructions -/

theorem safe_exec1 {c : Ctl} {ty : Ty} {d : Dst} {a : Src} {f : Word64 → Word64} {s : State} : Safe (exec1 c ty d a f s) := by
  unfold exec1; exact safe_execValue

theorem safe_exec2 {c : Ctl} {ty : Ty} {d : Dst} {a b : Src} {f : Word64 → Word64 → Word64} {s : State} : Safe (exec2 c ty d a b f s) := by
  unfold exec2; exact safe_execValue

theorem safe_exec3 {c : Ctl} {ty : Ty} {d : Dst} {a b x : Src} {f : Word64 → Word64 → Word64 → Word64} {s : State} :
    Safe (exec3 c ty d a b x f s) := by
  unfold exec3; exact safe_execValue

theorem safe_float1 {c : Ctl} {ty : Ty} {d : Dst} {a : Src} {f : Word64 → Word64} {s : State} : Safe (float1 c ty d a f s) := by
  unfold float1; exact safe_execValue

theorem safe_float2 {c : Ctl} {ty : Ty} {d : Dst} {a b : Src} {f : Word64 → Word64 → Word64} {s : State} : Safe (float2 c ty d a b f s) := by
  unfold float2; exact safe_execValue

theorem safe_float3 {c : Ctl} {ty : Ty} {d : Dst} {a b x : Src} {f : Word64 → Word64 → Word64 → Word64} {s : State} :
    Safe (float3 c ty d a b x f s) := by
  unfold float3; exact safe_execValue

theorem safe_of_integer {i : Instr} (h : i.family = some .integer) (s : State) : Safe (exec i s) := by
  cases i <;> cases h <;> dsimp only [exec]
  case mov =>
    unfold execMov
    split
    · exact safe_begin fun _ => safe_next _
    · exact safe_exec1
  case pset => exact safe_begin fun _ => safe_next _
  case iset => exact safe_execTest
  case iabs | not | popc | clz | brev => exact safe_exec1
  case imad | bfx => exact safe_exec3
  case movi | imadw | bfi | sel | lea => exact safe_execValue
  all_goals exact safe_exec2

theorem safe_of_float {i : Instr} (h : i.family = some .float) (s : State) : Safe (exec i s) := by
  cases i <;> cases h <;> dsimp only [exec]
  case fset | fclass => exact safe_execTest
  case fcvt => exact safe_execValue
  case fadd | fsub | fmul | fmin | fmax | fscale => exact safe_float2
  case ffma | fdot2 => exact safe_float3
  all_goals exact safe_float1

theorem safe_of_limb {i : Instr} (h : i.family = some .limb) (s : State) : Safe (exec i s) := by
  cases i <;> cases h <;> dsimp only [exec]
  case lbind =>
    refine safe_begin fun e => ?_
    dsimp -failIfUnchanged only
    repeat' split
    all_goals exact safe_next _
  case lfree => exact safe_begin fun _ => safe_next _
  all_goals exact safe_limbOp

theorem safe_of_control {i : Instr} (h : i.family = some .control) (s : State) : Safe (exec i s) := by
  cases i <;> cases h <;> dsimp only [exec]
  case bra | brx => exact safe_jump
  case call | callx => exact safe_callWith
  case trap => exact safe_begin fun _ => safe_trapWith
  case exit => exact safe_begin fun _ => safe_startRelease
  case bkpt =>
    refine safe_begin fun e => ?_
    repeat' split
    any_goals exact safe_next _
    all_goals exact safe_trapWith
  case tret =>
    refine safe_begin fun e => ?_
    dsimp only
    repeat' split
    any_goals exact safe_next _
    exact safe_startRelease
  case ret =>
    refine safe_begin fun e => ?_
    dsimp only
    repeat' split
    any_goals exact safe_next _
    · exact safe_fillFrames
    all_goals exact safe_startRelease
  all_goals
    refine safe_begin fun e => ?_
    dsimp -failIfUnchanged only
    repeat' split
    all_goals exact safe_next _

theorem safe_of_cross {i : Instr} (h : i.family = some .cross) (s : State) : Safe (exec i s) := by
  cases i <;> cases h <;> dsimp only [exec]
  all_goals
    refine safe_begin fun e => ?_
    dsimp -failIfUnchanged only
    repeat' split
    all_goals exact safe_next _

theorem safe_of_function {i : Instr} (h : i.family = some .function) (s : State) : Safe (exec i s) := by
  cases i <;> cases h <;> dsimp only [exec] <;> refine safe_funcOp fun e => ?_
  case chst => exact safe_funcScratch fun _ _ _ => safe_next _
  case chint | chder => exact safe_funcResult
  case chld =>
    dsimp only
    repeat' split
    any_goals exact safe_next _
    all_goals
      refine safe_funcScratch fun _ _ _ => ?_
      split
      · exact safe_next _
      · exact safe_funcPlace
  case chroot | chlen => exact safe_next _
  case chadd | chmul =>
    dsimp only
    split
    · exact safe_funcResult
    · exact safe_next _
  all_goals
    dsimp -failIfUnchanged only
    repeat' split
    any_goals exact safe_next _
    all_goals exact safe_funcPlace

theorem safe_of_barrier {i : Instr} (h : i.family = some .barrier) (s : State) : Safe (exec i s) := by
  cases i <;> cases h <;> dsimp only [exec]
  all_goals refine safe_barOp fun e b n x => ?_
  case bara | baraw => exact safe_arriveWith
  all_goals
    dsimp -failIfUnchanged only
    repeat' split
    all_goals exact safe_next _

theorem safe_of_monitor {i : Instr} (h : i.family = some .monitor) (s : State) : Safe (exec i s) := by
  cases i <;> cases h <;> dsimp only [exec, execMnote, execMnotea]
  all_goals refine safe_begin fun e => ?_
  all_goals
    dsimp -failIfUnchanged only
    repeat' split
    all_goals exact safe_next _

theorem safe_of_record {i : Instr} (h : i.family = some .record) (s : State) : Safe (exec i s) := by
  cases i <;> cases h <;> dsimp only [exec]
  case recoff | replay | rerec => exact safe_regionCommand
  all_goals
    refine safe_regionTurn fun e => ?_
    dsimp -failIfUnchanged only
    repeat' split
    any_goals exact safe_next _
    all_goals exact safe_regionHold

theorem safe_of_queue {i : Instr} (h : i.family = some .queue) (s : State) : Safe (exec i s) := by
  cases i <;> cases h <;> dsimp only [exec, execQpush, execQpop, execLaunch] <;> refine safe_begin fun e => ?_
  case qpush =>
    repeat' split
    any_goals exact safe_next _
    exact safe_releaseFirst fun _ => safe_next _
  case launch =>
    repeat' split
    any_goals exact safe_next _
    all_goals
      refine safe_releaseFirst fun _ => ?_
      split <;> exact safe_next _
  all_goals
    dsimp -failIfUnchanged only
    repeat' split
    all_goals exact safe_next _

theorem safe_of_copy {i : Instr} (h : i.family = some .copy) (s : State) : Safe (exec i s) := by
  cases i <;> cases h <;> dsimp only [exec]
  case cpy | cpyt | cpyw | cpys => exact safe_copyWith
  all_goals
    refine safe_begin fun e => ?_
    dsimp -failIfUnchanged only
    repeat' split
    all_goals exact safe_next _

theorem safe_of_atomic {i : Instr} (h : i.family = some .atomic) (s : State) : Safe (exec i s) := by
  cases i <;> cases h <;> dsimp only [exec]
  case signal => exact safe_withSignal fun _ _ _ _ => safe_next _
  all_goals exact safe_atomicWith

theorem safe_cst {c : Ctl} {h : Hint} {ty : Ty} {d : Dst} {hdr : SReg} {v : Src} {s : State} : Safe (execCst c h ty d hdr v s) := by
  refine safe_begin fun e => ?_
  dsimp only
  repeat' split
  any_goals exact safe_next _
  exact safe_cstApply

theorem safe_mcld {c : Ctl} {h : Hint} {dst base desc : SReg} {off : BitVec 25} {bk : Option BReg} {s : State} :
    Safe (execMcld c h dst base desc off bk s) := by
  refine safe_begin fun e => ?_
  dsimp only
  repeat' split
  all_goals exact safe_next _

theorem safe_tdrain {c : Ctl} {op : DrainOp} {kind : DrainKind} {st : Fin 8} {pri : Fin 4} {dst : SReg} {ta : TReg}
    {desc : SReg} {bk : Option BReg} {s : State} : Safe (execTdrain c op kind st pri dst ta desc bk s) := by
  refine safe_tileOp fun e b => ?_
  dsimp only
  repeat' split
  any_goals exact safe_next _
  all_goals exact safe_postDrain

theorem safe_of_memory {i : Instr} (h : i.family = some .memory) (s : State) : Safe (exec i s) := by
  cases i <;> cases h <;> dsimp only [exec]
  case ldg => exact safe_withChecks fun _ _ => safe_loadThreads
  case stg => exact safe_withChecks fun _ _ => safe_storeThreads
  case stx | ldx => exact safe_scratchAccess
  case cst => exact safe_cst
  case mcld => exact safe_mcld
  all_goals
    refine safe_begin fun e => ?_
    dsimp -failIfUnchanged only
    repeat' split
    all_goals exact safe_next _

theorem safe_of_matrix {i : Instr} (h : i.family = some .matrix) (s : State) : Safe (exec i s) := by
  cases i <;> cases h <;> dsimp only [exec]
  case tdrain => exact safe_tdrain
  all_goals refine safe_tileOp fun e b => ?_
  case tshp =>
    repeat' split
    any_goals exact safe_next _
    all_goals exact safe_shapeTile
  case mma =>
    dsimp only
    split
    · exact safe_next _
    · exact safe_postAndGo
  case tld | tst | tzero | tcvt =>
    dsimp -failIfUnchanged only
    split
    · exact safe_next _
    · exact safe_postAndWait
  all_goals
    dsimp -failIfUnchanged only
    repeat' split
    all_goals exact safe_next _

/-! ## The events -/

theorem safe_of_memoryEvent {i : Instr} (h : i.eventFamily = some .memory) (s : State) : Safe (exec i s) := by
  cases i <;> cases h <;> dsimp only
    [exec, execInstructionFetch, execInstructionFill, execPageWalk, execWalkResult, execHomeRead, execHomeStore, execFillArrival,
    execGatewayRead, execGatewayRenewal, execGatewayStore, execForwardReturn, execGatewayWritePass, execLoadResponse, execStoreCompletion,
    execBufferTimerDrain, execLeaseExpiry, execHostSnoop, execHostWrite, execHostRead, execCxlCompletion, execCompletionTimeout,
    execRefreshWindowEnd]
  all_goals
    repeat' split
    all_goals exact safe_next _

theorem safe_of_copyEvent {i : Instr} (h : i.eventFamily = some .copy) (s : State) : Safe (exec i s) := by
  cases i <;> cases h <;> dsimp only
    [exec, execMulticastRequest, execMulticastDeadline, execMulticastLanding, execUnitSend, execUnitLanding, execPushArrival,
    execPushInstall, execPushAtGateway, execPushAck, execFallBack]
  all_goals
    repeat' split
    all_goals exact safe_next _

theorem safe_of_monitorEvent {i : Instr} (h : i.eventFamily = some .monitor) (s : State) : Safe (exec i s) := by
  cases i <;> cases h <;> dsimp only
    [exec, execRegionChange, execPassGrant, execPassEnd, execDrainUpdate, execAtomicUpdate, execSignalApply, execAcquireRequest,
    execRecall, execGrantReturn, execGrant, execColourRelease, execMonitorRelease, execNotification, execMwaitDeadline, execSleepDeadline]
  all_goals
    repeat' split
    all_goals exact safe_next _

theorem safe_of_scheduleEvent {i : Instr} (h : i.eventFamily = some .schedule) (s : State) : Safe (exec i s) := by
  cases i <;> cases h <;> dsimp only
    [exec, execGroupExitRelease, execBlockRetirement, execBlockPlacement, execSteal, execPreamble, execNodeBinTimer, execRecordMoveBack,
    execScoreWindow, execCoreEnable, execEngineEnable, execTrapEntry, execTermination, execDyingTimeout, execWatchdog, execDugoutWrite,
    execWlPasses, execDieIdle, execPendClear, execBullpenWindow]
  all_goals
    repeat' split
    all_goals exact safe_next _

theorem safe_of_portEvent {i : Instr} (h : i.eventFamily = some .port) (s : State) : Safe (exec i s) := by
  cases i <;> cases h <;> dsimp only
    [exec, execUnsupportedAccess, execRegisterWrite, execNewestRecord, execMctpUnknownCommand, execPortDown]
  case dataFlit | idleFlit | retryRequest => exact safe_receive
  case training | creditGrant => exact safe_linkControl
  case readALine | writeALine | peerAtom | peerAcas | peerRed | peerSignal => exact safe_peerServe
  case readData | writeDone | atomicResponse | errorMessage => exact safe_peerAnswer
  all_goals
    repeat' split
    all_goals exact safe_next _

theorem safe_of_firmwareEvent {i : Instr} (h : i.eventFamily = some .firmware) (s : State) : Safe (exec i s) := by
  cases i <;> cases h <;> dsimp only
    [exec, execWorkerReset, execRecorderReset, execWeightStoreReset, execContextReset, execBoot, execReserveReplacement, execSpdmRequest,
    execCommandCompletion, execDoorbellDiscard, execUmpireReset, execSelfTestTimeout, execDeviceReset, execSchemaList, execUnknownCommand]
  case coreReset | clusterReset | dieReset => exact safe_resetUnit
  all_goals
    repeat' split
    all_goals exact safe_next _

theorem safe_of_commandEvent {i : Instr} (h : i.eventFamily = some .command) (s : State) : Safe (exec i s) := by
  cases i <;> cases h <;> dsimp only [exec]
  case contextSetBkpt | contextSetRecDepart | contextSetWdogTicks | contextSetCmapBase => exact safe_contextSet
  case updateActivate =>
    unfold execUpdateActivate
    repeat' split
    any_goals exact safe_next _
    exact safe_command
  all_goals exact safe_command

theorem safe_exec (i : Instr) (s : State) : Safe (exec i s) := by
  rcases Bool.or_eq_true_iff.mp i.family_or_eventFamily with hi | hi <;> obtain ⟨f, hf⟩ := Option.isSome_iff_exists.mp hi
  · cases f with
    | control => exact safe_of_control hf s
    | cross => exact safe_of_cross hf s
    | integer => exact safe_of_integer hf s
    | limb => exact safe_of_limb hf s
    | float => exact safe_of_float hf s
    | function => exact safe_of_function hf s
    | memory => exact safe_of_memory hf s
    | atomic => exact safe_of_atomic hf s
    | copy => exact safe_of_copy hf s
    | barrier => exact safe_of_barrier hf s
    | matrix => exact safe_of_matrix hf s
    | monitor => exact safe_of_monitor hf s
    | record => exact safe_of_record hf s
    | queue => exact safe_of_queue hf s
  · cases f with
    | memory => exact safe_of_memoryEvent hf s
    | copy => exact safe_of_copyEvent hf s
    | monitor => exact safe_of_monitorEvent hf s
    | schedule => exact safe_of_scheduleEvent hf s
    | port => exact safe_of_portEvent hf s
    | firmware => exact safe_of_firmwareEvent hf s
    | command => exact safe_of_commandEvent hf s

/-- Settles O56: each family's arms answer a next state, since the operations that their last steps share do. -/
theorem nothingStops : Obligations.NothingStops := fun i s => safe_exec i s

end Sys2Proof.Machine

namespace Sys2Proof.Machine

/-! ## Tables -/

@[simp] theorem tblGet_tblPut_self {κ α : Type} [DecidableEq κ] (t : List (κ × α)) (k : κ) (v : α) : tblGet (tblPut t k v) k = some v := by
  induction t with
  | nil => simp [tblPut, tblGet]
  | cons x t ih =>
    by_cases h : x.1 = k <;> simp [tblPut, tblGet, h, ih]

theorem tblGet_tblPut_other {κ α : Type} [DecidableEq κ] (t : List (κ × α)) {j k : κ} (v : α) (h : j ≠ k) :
    tblGet (tblPut t k v) j = tblGet t j := by
  induction t with
  | nil => simp [tblPut, tblGet, h.symm]
  | cons x t ih =>
    by_cases hx : x.1 = k
    · simp [tblPut, tblGet, hx, h.symm]
    · simp [tblPut, tblGet, hx, ih]

@[simp] theorem State.group_setGroup_self (s : State) (r : GroupRef) (g : Group) : (s.setGroup r g).group r = some g := tblGet_tblPut_self _ _ _

theorem State.group_setGroup_other (s : State) {q r : GroupRef} (g : Group) (h : q ≠ r) : (s.setGroup r g).group q = s.group q :=
  tblGet_tblPut_other _ _ h

@[simp] theorem State.group_modCtx (s : State) (n : Nat) (f : Ctx → Ctx) (r : GroupRef) : (s.modCtx n f).group r = s.group r := rfl

/-! ## The threads of a mask -/

@[simp] theorem mem_maskTids {m : Mask} {t : Tid} : t ∈ maskTids m ↔ m.getLsbD t.val = true := by
  simp [maskTids]

theorem nodup_maskTids (m : Mask) : (maskTids m).Nodup := (List.nodup_finRange 32).filter _

/-! ## An instruction that issues -/

theorem begin_of_issues {s : State} {c : Ctl} {k : Cur} {g : Group} (h : Issues s c k g) (f : Iss → Out) :
    begin_ c s f = f (issueOf s c k g) := by
  obtain ⟨g0, hg0, rfl⟩ := h.group
  simp [begin_, h.cur, hg0, h.whole, issueOf]

theorem group_issueOf (s : State) (c : Ctl) (k : Cur) (g : Group) : (issueOf s c k g).s.group (issueOf s c k g).r = some (issueOf s c k g).g :=
  State.group_setGroup_self _ _ _

/-! ## Writes of registers -/

/-- A group is another with the registers of `val` written, and nothing else. -/
structure Group.WroteOnly (g' g : Group) (val : RegRef → Option Word64) : Prop where
  regs : g'.Wrote g val
  pcs : ∀ u, (g'.thread u).pc = (g.thread u).pc
  bare : g'.bare = g.bare

theorem Group.WroteOnly.refl (g : Group) : g.WroteOnly g noReg :=
  ⟨⟨fun _ => rfl, fun _ => by simp [noReg], fun _ => by simp [noReg]⟩, fun _ => rfl, rfl⟩

theorem Group.WroteOnly.trans {g2 g1 g : Group} {v2 v1 : RegRef → Option Word64} (h2 : g2.WroteOnly g1 v2) (h1 : g1.WroteOnly g v1) :
    g2.WroteOnly g (both v2 v1) := by
  obtain ⟨⟨a2, b2, c2⟩, p2, e2⟩ := h2
  obtain ⟨⟨a1, b1, c1⟩, p1, e1⟩ := h1
  refine ⟨⟨fun x => ?_, fun x => ?_, fun x => ?_⟩, fun u => (p2 u).trans (p1 u), e2.trans e1⟩
  · rw [a2, a1, both]
    cases v2 x <;> rfl
  · rw [b2, b1, both]
    cases v2 x <;> simp
  · rw [c2, c1, both]
    cases v2 x <;> simp

theorem Group.WroteOnly.budget {g' g : Group} {val : RegRef → Option Word64} (h : g'.WroteOnly g val) : g'.budget = g.budget := by
  change g'.bare.budget = g.bare.budget
  rw [h.bare]

theorem Group.WroteOnly.congr {g' g : Group} {v w : RegRef → Option Word64} (h : g'.WroteOnly g v) (e : ∀ r, v r = w r) :
    g'.WroteOnly g w := by
  rwa [← funext e]

/-- One register written. -/
def oneReg (r : RegRef) (x : Word64) : RegRef → Option Word64 := fun y => if y = r then some x else none

theorem Group.mem_undef_cleanse (g : Group) (r x : RegRef) : x ∈ (g.cleanse r).undef ↔ x ∈ g.undef ∧ x ≠ r := by
  unfold Group.cleanse
  split <;> simp_all
  grind

theorem Group.mem_regPoison_cleanse (g : Group) (r x : RegRef) : x ∈ (g.cleanse r).regPoison ↔ x ∈ g.regPoison ∧ x ≠ r := by
  unfold Group.cleanse
  split <;> simp_all
  grind

theorem Group.wroteOnly_cleanse {g1 g : Group} {r : RegRef} {x : Word64} (hreg : ∀ y, g1.reg y = (oneReg r x y).getD (g.reg y))
    (hpc : ∀ u, (g1.thread u).pc = (g.thread u).pc) (hbare : g1.bare = g.bare) (hu : g1.undef = g.undef) (hp : g1.regPoison = g.regPoison) :
    (g1.cleanse r).WroteOnly g (oneReg r x) := by
  obtain ⟨l, m, h⟩ : ∃ l m, g1.cleanse r = { g1 with undef := l, regPoison := m } := by
    unfold Group.cleanse
    split
    · exact ⟨_, _, rfl⟩
    · exact ⟨g1.undef, g1.regPoison, rfl⟩
  refine ⟨⟨fun y => ?_, fun y => ?_, fun y => ?_⟩, fun u => ?_, ?_⟩
  · rw [← hreg, h]
    cases y <;> rfl
  · rw [Group.mem_undef_cleanse, hu]
    by_cases hy : y = r <;> simp [oneReg, hy]
  · rw [Group.mem_regPoison_cleanse, hp]
    by_cases hy : y = r <;> simp [oneReg, hy]
  · rw [← hpc, h]
    rfl
  · rw [← hbare, h]
    rfl

/-- The marks on the pending operations of a register apart, a write of it changes nothing else. -/
theorem Group.clobber_eq (g : Group) (r : RegRef) : ∃ l, g.clobber r = { g with ops := l } ∧
    l.map (fun o => { o with clobbered := [] }) = g.ops.map (fun o => { o with clobbered := [] }) := by
  unfold Group.clobber
  split
  · refine ⟨_, rfl, ?_⟩
    rw [List.map_map]
    refine List.map_congr_left fun o _ => ?_
    dsimp only [Function.comp]
    split <;> rfl
  · exact ⟨g.ops, rfl, rfl⟩

theorem Group.wroteOnly_clobber_cleanse {g1 g : Group} {r : RegRef} {x : Word64} (hreg : ∀ y, g1.reg y = (oneReg r x y).getD (g.reg y))
    (hpc : ∀ u, (g1.thread u).pc = (g.thread u).pc) (hbare : g1.bare = g.bare) (hu : g1.undef = g.undef) (hp : g1.regPoison = g.regPoison) :
    ((g1.clobber r).cleanse r).WroteOnly g (oneReg r x) := by
  obtain ⟨l, h, hl⟩ := g1.clobber_eq r
  rw [h]
  refine Group.wroteOnly_cleanse (fun y => ?_) hpc ?_ hu hp
  · rw [← hreg]
    cases y <;> rfl
  · rw [← hbare]
    simp only [Group.bare, hl]

@[simp] theorem Group.thread_modThread (g : Group) (t u : Tid) (f : Thread → Thread) :
    (g.modThread t f).thread u = if u = t then f (g.thread t) else g.thread u := by
  by_cases h : u = t
  · subst h
    simp [Group.thread, Group.modThread]
  · simp only [Group.thread, Group.modThread, h, if_false, Fin.getElem_fin]
    exact Vector.getElem_set_ne _ _ fun e => h (Fin.ext e.symm)

theorem Group.bare_modThread (g : Group) (t : Tid) {f : Thread → Thread} (h : (f (g.thread t)).bare = (g.thread t).bare) :
    (g.modThread t f).bare = g.bare := by
  have hv : (g.threads.set t (f g.threads[t])).map Thread.bare = g.threads.map Thread.bare := by
    ext i hi
    simp only [Vector.getElem_map, Vector.getElem_set]
    split
    next e => subst e; exact h
    · rfl
  simp only [Group.bare, Group.modThread, hv]

/-- Writes of a vector register below the budget. -/
theorem Group.writeV_wrote (g : Group) (t : Tid) (n : VReg) (x : Word32) :
    (g.writeV t n x).WroteOnly g (fun r => if n.val < g.budget then oneReg (.v t n) (x.setWidth 64) r else none) := by
  unfold Group.writeV
  by_cases hn : n.val < g.budget
  · simp only [hn, if_true]
    refine Group.wroteOnly_clobber_cleanse (fun y => ?_) (fun u => ?_) ?_ ?_ ?_ <;> simp only [Group.putV, hn, if_true]
    case _ =>
      rcases y with ⟨u, m⟩ | ⟨u, m⟩ | m
      · by_cases hu : u = t
        · subst hu
          by_cases hm : m = n
          · subst hm
            simp [Group.reg, oneReg]
          · simp only [Group.reg, oneReg, Group.thread_modThread, RegRef.v.injEq, hm, and_false, if_false, if_true, Option.getD_none,
              Fin.getElem_fin]
            rw [Vector.getElem_set_ne]
            exact fun e => hm (Fin.ext e.symm)
        · simp [Group.reg, oneReg, hu]
      · by_cases hu : u = t <;> simp [Group.reg, oneReg, hu, Thread.pred]
      · rfl
    case _ => by_cases hu : u = t <;> simp [hu]
    case _ => exact Group.bare_modThread _ _ rfl
    all_goals rfl
  · simp only [hn, if_false]
    exact Group.WroteOnly.refl g

theorem Group.writeS_wrote (g : Group) (n : SReg) (x : Word64) : (g.writeS n x).WroteOnly g (oneReg (.s n) x) := by
  refine Group.wroteOnly_clobber_cleanse (fun y => ?_) (fun _ => rfl) rfl rfl rfl
  rcases y with ⟨u, m⟩ | ⟨u, m⟩ | m
  · rfl
  · rfl
  · by_cases hm : m = n
    · subst hm
      simp [Group.reg, oneReg, Group.putS]
    · simp only [Group.reg, oneReg, Group.putS, RegRef.s.injEq, hm, if_false, Option.getD_none, Fin.getElem_fin]
      exact Vector.getElem_set_ne _ _ fun e => hm (Fin.ext e.symm)

theorem getLsbD_setBit (p : BitVec 16) (n m : PReg) (x : Bool) :
    (if x then p ||| (1#16 <<< n.val) else p &&& ~~~(1#16 <<< n.val)).getLsbD m.val = if m = n then x else p.getLsbD m.val := by
  have hm := m.isLt
  have hn := n.isLt
  by_cases h : m = n
  · subst h
    cases x <;> simp
  · have : ¬ (m.val = n.val) := fun e => h (Fin.ext e)
    cases x <;> simp [h] <;> grind

/-- p15 takes no write (R43). -/
theorem Group.writeP_wrote (g : Group) (t : Tid) (n : PReg) (x : Bool) :
    (g.writeP t n x).WroteOnly g (fun r => if n.val = 15 then none else oneReg (.p t n) (boolWord x) r) := by
  unfold Group.writeP
  by_cases hn : n.val = 15
  · simp only [hn, if_true]
    exact Group.WroteOnly.refl g
  · simp only [hn, if_false]
    refine Group.wroteOnly_cleanse (fun y => ?_) (fun u => ?_) ?_ ?_ ?_ <;> simp only [Group.putP, hn, if_false]
    case _ =>
      rcases y with ⟨u, m⟩ | ⟨u, m⟩ | m
      · by_cases hu : u = t <;> simp [Group.reg, oneReg, hu]
      · by_cases hu : u = t
        · subst hu
          simp only [Group.reg, oneReg, Group.thread_modThread, if_true, Thread.pred, getLsbD_setBit, RegRef.p.injEq, true_and]
          by_cases hm : m = n
          · subst hm
            simp [beq_eq_false_iff_ne.mpr hn]
          · simp [hm]
        · simp [Group.reg, oneReg, hu]
      · rfl
    case _ => by_cases hu : u = t <;> simp [hu]
    case _ => exact Group.bare_modThread _ _ rfl
    all_goals rfl

/-! ## Results for one thread -/

/-- What one thread's write of a value of a type changes (R40, R41, R234). -/
def dstVal (budget : Nat) (ty : Ty) (d : Dst) (t : Tid) (x : Word64) : RegRef → Option Word64
  | .v u m =>
    match d with
    | .v n =>
      if u = t ∧ m.val < budget then
        if m = n then some ((x.setWidth 32).setWidth 64)
        else if ty.bits = 64 ∧ m = VReg.up n 1 then some ((x >>> 32).setWidth 64)
        else none
      else none
    | _ => none
  | .s m =>
    match d with
    | .s n => if m = n then some (extendS ty x) else none
    | _ => none
  | .p _ _ => none

theorem VReg.up_one_ne (n : VReg) : VReg.up n 1 ≠ n := by
  intro h
  have := congrArg Fin.val h
  simp only [VReg.up] at this
  omega

theorem setWidth_high (x : Word64) : ((x >>> 32).setWidth 32).setWidth 64 = (x >>> 32).setWidth 64 := by
  ext i hi
  simp
  grind

theorem Group.writeVw_wrote (g : Group) (ty : Ty) (t : Tid) (n : VReg) (x : Word64) :
    (g.writeVw ty.bits t n x).WroteOnly g (dstVal g.budget ty (.v n) t x) := by
  unfold Group.writeVw
  by_cases hw : ty.bits = 64
  · have h1 := g.writeV_wrote t n (x.setWidth 32)
    have h2 := (g.writeV t n (x.setWidth 32)).writeV_wrote t (VReg.up n 1) ((x >>> 32).setWidth 32)
    rw [h1.budget] at h2
    simp only [hw, if_true]
    refine (h2.trans h1).congr fun r => ?_
    have := VReg.up_one_ne n
    rcases r with ⟨u, m⟩ | ⟨u, m⟩ | m <;> simp [dstVal, both, oneReg, hw, setWidth_high]
    grind
  · simp only [hw, if_false]
    refine (g.writeV_wrote t n (x.setWidth 32)).congr fun r => ?_
    rcases r with ⟨u, m⟩ | ⟨u, m⟩ | m <;> simp [dstVal, oneReg, hw]
    grind

theorem Group.write_wrote (g : Group) (ty : Ty) (d : Dst) (t : Tid) (x : Word64) :
    (g.write ty d t x).WroteOnly g (dstVal g.budget ty d t x) := by
  cases d with
  | v n => exact g.writeVw_wrote ty t n x
  | s n =>
    refine (g.writeS_wrote n (extendS ty x)).congr fun r => ?_
    rcases r with ⟨u, m⟩ | ⟨u, m⟩ | m <;> simp [dstVal, oneReg]
  | zero =>
    refine (Group.WroteOnly.refl g).congr fun r => ?_
    rcases r with ⟨u, m⟩ | ⟨u, m⟩ | m <;> rfl

/-- The same for a destination that may be a predicate. -/
def dstValP (budget : Nat) (ty : Ty) (d : DstP) (t : Tid) (x : Word64) : RegRef → Option Word64 :=
  match d with
  | .v n => dstVal budget ty (.v n) t x
  | .s n => dstVal budget ty (.s n) t x
  | .zero => noReg
  | .p n => fun r => if n.val = 15 then none else oneReg (.p t n) (boolWord (x != 0#64)) r

theorem Group.writeDP_wrote (g : Group) (ty : Ty) (d : DstP) (t : Tid) (x : Word64) :
    (g.writeDP ty d t x).WroteOnly g (dstValP g.budget ty d t x) := by
  cases d with
  | v n => exact g.write_wrote ty (.v n) t x
  | s n => exact g.write_wrote ty (.s n) t x
  | zero => exact Group.WroteOnly.refl g
  | p n => exact g.writeP_wrote t n _

/-! ## Results for the threads of ACTIVE -/

/-- What an instruction writes that does `val` for each thread of ACTIVE in ascending order, or once (R44). -/
def Iss.formed (e : Iss) (vec : Bool) (val : Tid → RegRef → Option Word64) : RegRef → Option Word64 := fun r =>
  if vec then (maskTids e.act).reverse.findSome? (fun t => val t r) else if e.act = 0#32 then none else val 0 r

theorem foldl_wrote {f : Tid → Group → Group} {val : Tid → RegRef → Option Word64} {n : Nat}
    (hf : ∀ t g, g.budget = n → (f t g).WroteOnly g (val t)) (l : List Tid) (g : Group) (hg : g.budget = n) :
    (l.foldl (fun g t => f t g) g).WroteOnly g (fun r => l.reverse.findSome? (fun t => val t r)) := by
  induction l generalizing g with
  | nil => exact Group.WroteOnly.refl g
  | cons t l ih =>
    have h1 := hf t g hg
    refine ((ih (f t g) (h1.budget.trans hg)).trans h1).congr fun r => ?_
    simp [both, List.findSome?_append]

theorem Iss.perForm_wrote (e : Iss) (vec : Bool) {f : Tid → Group → Group} {val : Tid → RegRef → Option Word64}
    (hf : ∀ t g, g.budget = e.g.budget → (f t g).WroteOnly g (val t)) : (e.perForm vec f).WroteOnly e.g (e.formed vec val) := by
  unfold Iss.perForm Iss.formed
  cases vec with
  | true => exact foldl_wrote hf _ _ rfl
  | false =>
    by_cases ha : e.act = 0#32
    · simp only [ha, if_true]
      exact Group.WroteOnly.refl e.g
    · simp only [ha, if_false]
      exact hf 0 e.g rfl

/-- A register of one thread is written by that thread alone. -/
theorem findSome?_maskTids {m : Mask} {u : Tid} {F : Tid → Option Word64} (h : ∀ t, t ≠ u → F t = none) :
    (maskTids m).reverse.findSome? F = if m.getLsbD u.val then F u else none := by
  by_cases hu : m.getLsbD u.val = true
  · simp only [hu, if_true]
    cases hF : F u with
    | none =>
      refine List.findSome?_eq_none_iff.mpr fun t _ => ?_
      by_cases ht : t = u
      · rw [ht, hF]
      · exact h t ht
    | some x =>
      have hm : u ∈ (maskTids m).reverse := List.mem_reverse.mpr (mem_maskTids.mpr hu)
      have hs : ((maskTids m).reverse.findSome? F).isSome := List.findSome?_isSome_iff.mpr ⟨u, hm, by simp [hF]⟩
      obtain ⟨y, hy⟩ := Option.isSome_iff_exists.mp hs
      obtain ⟨t, -, ht⟩ := List.exists_of_findSome?_eq_some hy
      by_cases htu : t = u
      · rw [hy, ← ht, htu, hF]
      · rw [h t htu] at ht
        cases ht
  · simp only [hu]
    refine List.findSome?_eq_none_iff.mpr fun t ht => ?_
    have ht' := mem_maskTids.mp (List.mem_reverse.mp ht)
    exact h t fun e => hu (e ▸ ht')

/-- A value for each thread of ACTIVE, with its destination: a uniform register is written once (R44, R237). -/
theorem Iss.formed_dstVal (e : Iss) {vec : Bool} (ty : Ty) {d : Dst} (f : Tid → Word64) (hv : d.isVec = true → vec = true)
    (hs : d.isS = true → vec = false) : e.formed vec (fun t => dstVal e.g.budget ty d t (f t)) = e.result ty d f := by
  funext r
  cases d with
  | v n =>
    obtain rfl := hv rfl
    rcases r with ⟨u, m⟩ | ⟨u, m⟩ | m
    · rw [Iss.formed, if_pos rfl, findSome?_maskTids (u := u) (fun t ht => by simp [dstVal, Ne.symm ht])]
      by_cases ha : e.act.getLsbD u.val = true <;> by_cases hb : m.val < e.g.budget <;> simp [dstVal, Iss.result, ha, hb]
    · simp [Iss.formed, dstVal, Iss.result]
    · simp [Iss.formed, dstVal, Iss.result]
  | s n =>
    obtain rfl := hs rfl
    rcases r with ⟨u, m⟩ | ⟨u, m⟩ | m
    · simp [Iss.formed, dstVal, Iss.result]
    · simp [Iss.formed, dstVal, Iss.result]
    · by_cases ha : e.act = 0#32 <;> simp [Iss.formed, dstVal, Iss.result, ha]
  | zero => rcases r with ⟨u, m⟩ | ⟨u, m⟩ | m <;> simp [Iss.formed, dstVal, Iss.result]

theorem Iss.formed_dstValP (e : Iss) {vec : Bool} (ty : Ty) {d : DstP} (f : Tid → Word64) (hv : d.isVec = true → vec = true)
    (hs : d.isS = true → vec = false) : e.formed vec (fun t => dstValP e.g.budget ty d t (f t)) = e.resultP ty d f := by
  cases d with
  | v n => exact e.formed_dstVal (d := .v n) ty f (fun _ => hv rfl) (by simp [Dst.isS])
  | s n => exact e.formed_dstVal (d := .s n) ty f (by simp [Dst.isVec]) (fun _ => hs rfl)
  | zero =>
    funext r
    simp [Iss.formed, dstValP, Iss.resultP, noReg]
  | p n =>
    obtain rfl := hv rfl
    funext r
    rcases r with ⟨u, m⟩ | ⟨u, m⟩ | m
    · simp [Iss.formed, dstValP, Iss.resultP, oneReg]
    · rw [Iss.formed, if_pos rfl, findSome?_maskTids (u := u) (fun t ht => by simp [dstValP, oneReg, Ne.symm ht])]
      by_cases ha : e.act.getLsbD u.val = true <;> by_cases hn : n.val = 15 <;> by_cases hm : m = n <;>
        simp [dstValP, Iss.resultP, oneReg, ha, hn, hm]
    · simp [Iss.formed, dstValP, Iss.resultP, oneReg]

/-! ## The end of an instruction -/

theorem Group.thread_advance (g : Group) (m : Mask) (pc : Word64) (u : Tid) : (g.advance m pc).thread u =
    if m.getLsbD u.val && (g.thread u).isRunning then { g.thread u with pc := nextSlot pc } else g.thread u := by
  simp only [Group.thread, Group.advance, Group.modThreads, Fin.getElem_fin, Vector.getElem_ofFn]
  cases m.getLsbD u.val <;> simp

theorem Group.bare_thread {g' g : Group} (h : g'.bare = g.bare) (u : Tid) : (g'.thread u).bare = (g.thread u).bare := by
  have hu : (g'.threads.map Thread.bare)[u] = (g.threads.map Thread.bare)[u] := by
    change g'.bare.threads[u] = g.bare.threads[u]
    rw [h]
  simpa [Group.thread] using hu

theorem Group.bare_modThreads (g : Group) (m : Mask) {f : Tid → Thread → Thread} (h : ∀ t th, (f t th).bare = th.bare) :
    (g.modThreads m f).bare = g.bare := by
  have hv : (Vector.ofFn (fun t : Tid => if m.getLsbD t.val then f t g.threads[t] else g.threads[t])).map Thread.bare =
      g.threads.map Thread.bare := by
    ext i hi
    rw [Vector.getElem_map, Vector.getElem_map, Vector.getElem_ofFn, apply_ite Thread.bare, h]
    exact ite_self _
  simp only [Group.bare, Group.modThreads, hv]

theorem Group.bare_advance (g : Group) (m : Mask) (pc : Word64) : (g.advance m pc).bare = g.bare :=
  g.bare_modThreads m fun _ th => by
    rw [apply_ite Thread.bare]
    exact ite_self _

theorem Group.reg_advance (g : Group) (m : Mask) (pc : Word64) (x : RegRef) : (g.advance m pc).reg x = g.reg x := by
  rcases x with ⟨u, n⟩ | ⟨u, n⟩ | n
  · simp only [Group.reg, Group.thread_advance]
    split <;> rfl
  · simp only [Group.reg, Group.thread_advance]
    split <;> rfl
  · simp only [Group.reg, Group.advance, Group.modThreads]

/-- A group whose next issue waits until a time (R45). -/
def Group.stalled (g : Group) (n : Nat) : Group := { g with stallUntil := n }

theorem Group.reg_stalled (g : Group) (n : Nat) (x : RegRef) : (g.stalled n).reg x = g.reg x := by cases x <;> rfl
theorem Group.bare_stalled (g : Group) (n : Nat) : (g.stalled n).bare = g.bare := rfl
theorem Group.thread_stalled (g : Group) (n : Nat) (u : Tid) : (g.stalled n).thread u = g.thread u := rfl
theorem Group.undef_stalled (g : Group) (n : Nat) : (g.stalled n).undef = g.undef := rfl
theorem Group.regPoison_stalled (g : Group) (n : Nat) : (g.stalled n).regPoison = g.regPoison := rfl
theorem Group.undef_advance (g : Group) (m : Mask) (pc : Word64) : (g.advance m pc).undef = g.undef := by
  simp only [Group.advance, Group.modThreads]
theorem Group.regPoison_advance (g : Group) (m : Mask) (pc : Word64) : (g.advance m pc).regPoison = g.regPoison := by
  simp only [Group.advance, Group.modThreads]

theorem Group.Wrote.advance {g' g : Group} {val : RegRef → Option Word64} (h : g'.Wrote g val) (m : Mask) (pc : Word64) (n : Nat) :
    ((g'.advance m pc).stalled n).Wrote g val := by
  refine ⟨fun x => ?_, fun x => ?_, fun x => ?_⟩
  · rw [Group.reg_stalled, Group.reg_advance, h.values]
  · rw [Group.undef_stalled, Group.undef_advance, h.undef]
  · rw [Group.regPoison_stalled, Group.regPoison_advance, h.errors]

theorem Iss.retireWith_eq (e : Iss) (c : Ctl) (s : State) (g : Group) (stay : Mask) :
    e.retireWith c s g stay = s.setGroup e.r ((g.advance (e.mask &&& ~~~stay) e.pc).stalled (e.s.now + ticksOfCycles c.stall.toNat)) := rfl

theorem Group.WroteOnly.isRunning {g' g : Group} {val : RegRef → Option Word64} (h : g'.WroteOnly g val) (u : Tid) :
    (g'.thread u).isRunning = (g.thread u).isRunning := by
  change (g'.thread u).bare.isRunning = (g.thread u).bare.isRunning
  rw [Group.bare_thread h.bare u]

/-- The entry goes on, and the registers are as its instruction has written them. -/
theorem wrote_retire {e : Iss} {c : Ctl} {g' : Group} {val : RegRef → Option Word64} (h : g'.WroteOnly e.g val) :
    Wrote e.s (e.retire c g') e.r e.g val e.onward := by
  have hm : e.mask &&& ~~~0#32 = e.mask := by rw [show ~~~0#32 = BitVec.allOnes 32 from rfl, BitVec.and_allOnes]
  rw [Iss.retire, Iss.retireWith_eq, hm]
  refine ⟨⟨rfl, fun q hq => State.group_setGroup_other _ _ hq⟩, _, State.group_setGroup_self _ _ _, h.regs.advance _ _ _, fun u => ?_, ?_⟩
  · rw [Group.thread_stalled, Group.thread_advance, h.isRunning, Iss.onward]
    split
    · rfl
    · exact h.pcs u
  · rw [Group.bare_stalled, Group.bare_advance, h.bare]

theorem Does.of_retire {c : Ctl} {i : Instr} {val : Iss → RegRef → Option Word64} {body : Iss → Group}
    (hexec : ∀ s, exec i s = begin_ c s (fun e => .next (e.retire c (body e))))
    (hb : i.wellFormed = true → ∀ e, e.pos = 0 → (body e).WroteOnly e.g (val e)) : Does c i val := by
  intro hwf s k g hi _
  refine ⟨_, (hexec s).trans (begin_of_issues hi _), ?_⟩
  exact wrote_retire (hb hwf _ rfl)

/-- An instruction that computes a value for each thread (R234, R237). -/
theorem Does.of_value {c : Ctl} {i : Instr} {vec : Bool} {ty : Ty} {d : Dst} {f v : Iss → Tid → Word64}
    (hexec : ∀ s, exec i s = execValue c vec ty d f s) (hf : ∀ e u, e.pos = 0 → v e u = f e u) (hv : d.isVec = true → vec = true)
    (hs : i.wellFormed = true → d.isS = true → vec = false) : Does c i (fun e => e.result ty d (v e)) := by
  refine Does.of_retire hexec fun hwf e he => ?_
  rw [funext fun u => hf e u he, ← e.formed_dstVal ty (f e) hv (hs hwf)]
  refine e.perForm_wrote vec fun t g hg => ?_
  rw [← hg]
  exact g.write_wrote ty d t (f e t)

theorem Does.of_test {c : Ctl} {i : Instr} {vec : Bool} {ty : Ty} {d : DstP} {f v : Iss → Tid → Word64}
    (hexec : ∀ s, exec i s = execTest c vec ty d f s) (hf : ∀ e u, e.pos = 0 → v e u = f e u) (hv : d.isVec = true → vec = true)
    (hs : i.wellFormed = true → d.isS = true → vec = false) : Does c i (fun e => e.resultP ty d (v e)) := by
  refine Does.of_retire hexec fun hwf e he => ?_
  rw [funext fun u => hf e u he, ← e.formed_dstValP ty (f e) hv (hs hwf)]
  refine e.perForm_wrote vec fun t g hg => ?_
  rw [← hg]
  exact g.writeDP_wrote ty d t (f e t)

/-- The operand of an instruction whose place is 0. -/
theorem Iss.srcOf_zero {e : Iss} (h : e.pos = 0) (ty : Ty) (a : Src) (u : Tid) : e.srcOf ty a u = Operand.src e ty.bits u a := by
  have he : e.nth 0 = e := by rw [← h]; rfl
  rw [Iss.srcOf, he]

theorem Iss.srcOf_nth (e : Iss) (ty : Ty) (a : Src) (u : Tid) (k : Nat) : e.srcOf ty a u k = Operand.src (e.nth k) ty.bits u a := rfl

end Sys2Proof.Machine

namespace Sys2Proof.Machine

/-! ## Moves, comparisons, division (R238, R242 to R246) -/

theorem Dst.not_isVec_of_isS {d : Dst} (h : d.isS = true) : d.isVec = false := by
  cases d <;> simp_all [Dst.isS, Dst.isVec]

theorem DstP.not_isVec_of_isS {d : DstP} (h : d.isS = true) : d.isVec = false := by
  cases d <;> simp_all [DstP.isS, DstP.isVec]

/-- With a uniform destination no source is a vector operand (R237). -/
theorem formOk_isS {d : Bool} {l : List Bool} (h : formOk d l = true) (hd : d = true) : ∀ x ∈ l, x = false := by
  simpa [formOk, hd] using h

theorem wellFormed_wf1 {c : Ctl} {t : TSet} {ty : Ty} {d : Dst} {a : Src} (h : wf1 c t ty d a = true) (hd : d.isS = true) :
    (d.isVec || a.isVec) = false := by
  simp only [wf1, Bool.and_eq_true] at h
  have := formOk_isS h.2 hd
  simp_all [Dst.not_isVec_of_isS]

theorem wellFormed_wf2 {c : Ctl} {t : TSet} {ty : Ty} {d : Dst} {a b : Src} (h : wf2 c t ty d a b = true) (hd : d.isS = true) :
    (d.isVec || a.isVec || b.isVec) = false := by
  simp only [wf2, Bool.and_eq_true] at h
  have := formOk_isS h.2 hd
  simp_all [Dst.not_isVec_of_isS]

theorem does_mov {c : Ctl} {ty : Ty} {d : Dst} {a : Src} (hty : ty ≠ .b128) :
    Does c (.mov c ty d a) (fun e => e.result ty d (fun u => e.srcOf ty a u)) := by
  refine Does.of_value (vec := d.isVec || a.isVec) (fun s => ?_) (fun e u he => Iss.srcOf_zero he ty a u) (fun h => by simp [h]) wellFormed_wf1
  dsimp only [exec]
  rw [execMov, if_neg hty]
  rfl

theorem does_movi {c : Ctl} {ty : Ty} {d : Dst} {imm : BitVec 34} :
    Does c (.movi c ty d imm) (fun e => e.result ty d (fun _ => imm.signExtend 64)) :=
  Does.of_value (fun s => show execMovi c ty d imm s = _ from rfl) (fun _ _ _ => rfl) id fun _ => Dst.not_isVec_of_isS

theorem does_iset {c : Ctl} {ty : Ty} {cond : Cond} {d : DstP} {a b : Src} : Does c (.iset c ty cond d a b) (fun e => e.resultP ty d (fun u =>
    boolWord (cond.holds (intOf ty.signed ty.bits (e.srcOf ty a u)) (intOf ty.signed ty.bits (e.srcOf ty b u 1))))) := by
  refine Does.of_test (fun s => show execIset c ty cond d a b s = _ from rfl) (fun e u he => ?_) (fun h => by simp [h]) fun hwf hd => ?_
  · rw [Iss.srcOf_zero he, Iss.srcOf_nth]
  · simp only [Instr.wellFormed, Bool.and_eq_true] at hwf
    have := formOk_isS hwf.2 hd
    simp_all [DstP.not_isVec_of_isS]

theorem does_sel {c : Ctl} {ty : Ty} {d : Dst} {a b : Src} {cnd : SelCond} : Does c (.sel c ty d a b cnd) (fun e => e.result ty d (fun u =>
    if selCond (e.nth 2) u cnd then e.srcOf ty a u else e.srcOf ty b u 1)) := by
  refine Does.of_value (fun s => show execSel c ty d a b cnd s = _ from rfl) (fun e u he => ?_) (fun h => by simp [h]) fun hwf hd => ?_
  · rw [Iss.srcOf_zero he, Iss.srcOf_nth]
  · simp only [Instr.wellFormed, Bool.and_eq_true] at hwf
    have := formOk_isS hwf.2 hd
    simp_all [Dst.not_isVec_of_isS]

theorem does_lea {c : Ctl} {nx : Bool} {sh : BitVec 3} {d : Dst} {base : VS} {a : Src} :
    Does c (.lea c nx sh d base a) (fun e => e.result .b64 d (fun u =>
      Operand.vs e 64 u base + leaIndex (e.nth 1) nx u a * BitVec.ofNat 64 (2 ^ sh.toNat))) := by
  refine Does.of_value (fun s => show execLea c nx sh d base a s = _ from rfl) (fun e u _ => ?_) (fun h => by simp [h]) fun hwf hd => ?_
  · congr 1
    apply BitVec.eq_of_toNat_eq
    simp [Nat.shiftLeft_eq]
  · simp only [Instr.wellFormed, Bool.and_eq_true] at hwf
    have := formOk_isS hwf.2 hd
    simp_all [Dst.not_isVec_of_isS]

/-- The quotient truncates; by zero it is the largest magnitude of the dividend's sign (R246). -/
theorem intDiv_quotient (ty : Ty) (x y : Word64) : intDiv ty false x y =
    if intOf ty.signed ty.bits y = 0 then
      BitVec.ofInt 64 (if !ty.signed then 2 ^ ty.bits - 1 else if 0 ≤ intOf ty.signed ty.bits x then 2 ^ (ty.bits - 1) - 1 else -(2 ^ (ty.bits - 1)))
    else BitVec.ofInt 64 ((intOf ty.signed ty.bits x).tdiv (intOf ty.signed ty.bits y)) := by
  have hof (n : Nat) : BitVec.ofNat 64 (2 ^ n - 1) = BitVec.ofInt 64 (2 ^ n - 1) := by
    rw [← BitVec.ofInt_natCast, Nat.cast_sub Nat.one_le_two_pow]
    norm_num
  unfold intDiv
  simp only [hof, Bool.false_eq_true, if_false]
  split
  · split
    · rfl
    · split <;> rfl
  · rfl

theorem does_idiv {c : Ctl} {ty : Ty} {rem : Bool} {d : Dst} {a b : Src} :
    Does c (.idiv c ty rem d a b) (fun e => e.result ty d (fun u => intDiv ty rem (e.srcOf ty a u) (e.srcOf ty b u 1))) := by
  refine Does.of_value (fun s => show exec2 c ty d a b (intDiv ty rem) s = _ from rfl) (fun e u he => ?_) (fun h => ?_) wellFormed_wf2
  · rw [Iss.srcOf_zero he, Iss.srcOf_nth]
  · simp [h]

theorem does_pset {c : Ctl} {op : PsetOp} {p q r : PReg} : Does c (.pset c op p q r) (fun e => e.resultP .b32 (.p p) (fun u =>
    boolWord (op.apply (Operand.p e u q) (Operand.p e u r)))) := by
  refine Does.of_retire (body := fun e => e.perForm true (fun t g => g.writeP t p (op.apply (Operand.p e t q) (Operand.p e t r))))
    (fun _ => rfl) fun _ e _ => ?_
  rw [← e.formed_dstValP (vec := true) (d := .p p) .b32 _ (fun _ => rfl) (by simp [DstP.isS])]
  refine e.perForm_wrote true fun t g _ => (g.writeP_wrote t p _).congr fun x => ?_
  rw [dstValP]
  cases op.apply (Operand.p e t q) (Operand.p e t r) <;> rfl

theorem does_nop {c : Ctl} : Does c (.nop c) (fun _ _ => none) :=
  Does.of_retire (fun _ => rfl) fun _ e _ => Group.WroteOnly.refl e.g

/-- What a thread's write of 128 bits changes (R40). -/
def dstVal128 (budget : Nat) (d : Dst) (t : Tid) (x : BitVec 128) : RegRef → Option Word64 :=
  match d with
  | .v n => both (dstVal budget .b64 (.v (VReg.up n 2)) t ((x >>> 64).setWidth 64)) (dstVal budget .b64 (.v n) t (x.setWidth 64))
  | .s n => both (oneReg (.s (SReg.up n 1)) ((x >>> 64).setWidth 64)) (oneReg (.s n) (x.setWidth 64))
  | .zero => noReg

theorem Group.write128_wrote (g : Group) (d : Dst) (t : Tid) (x : BitVec 128) :
    (g.write128 d t x).WroteOnly g (dstVal128 g.budget d t x) := by
  cases d with
  | v n =>
    have h1 := g.writeVw_wrote .b64 t n (x.setWidth 64)
    have h2 := (g.writeVw 64 t n (x.setWidth 64)).writeVw_wrote .b64 t (VReg.up n 2) ((x >>> 64).setWidth 64)
    rw [show (g.writeVw 64 t n (x.setWidth 64)).budget = g.budget from h1.budget] at h2
    exact h2.trans h1
  | s n => exact ((g.writeS n (x.setWidth 64)).writeS_wrote (SReg.up n 1) ((x >>> 64).setWidth 64)).trans (g.writeS_wrote n (x.setWidth 64))
  | zero => exact Group.WroteOnly.refl g

/-- The words of a quad, as `dstVal` writes them. -/
theorem quad_words (x : BitVec 128) : (x.setWidth 32).setWidth 64 = (x.extractLsb' 0 32).setWidth 64 ∧
    x.setWidth 64 >>> 32 = (x.extractLsb' 32 32).setWidth 64 ∧
    ((x >>> 64).setWidth 32).setWidth 64 = (x.extractLsb' 64 32).setWidth 64 ∧
    (x >>> 64).setWidth 64 >>> 32 = (x.extractLsb' 96 32).setWidth 64 := by
  refine ⟨?_, ?_, ?_, ?_⟩ <;> ext i hi <;> simp <;> grind

theorem pair_words (x : BitVec 128) : x.setWidth 64 = x.extractLsb' 0 64 ∧ (x >>> 64).setWidth 64 = x.extractLsb' 64 64 := by
  constructor <;> ext i hi <;> simp

/-- A quad is four registers in ascending order (R40). -/
theorem dstVal128_v {budget : Nat} {n m : VReg} (hn : n.val % 4 = 0) (t : Tid) (x : BitVec 128) :
    dstVal128 budget (.v n) t x (.v t m) = if m.val < budget ∧ n.val ≤ m.val ∧ m.val < n.val + 4 then
      some ((x.extractLsb' (32 * (m.val - n.val)) 32).setWidth 64) else none := by
  have hlt := n.isLt
  have h1 : (VReg.up n 1).val = n.val + 1 := Nat.mod_eq_of_lt (by omega)
  have h2 : (VReg.up n 2).val = n.val + 2 := Nat.mod_eq_of_lt (by omega)
  have h3 : (VReg.up (VReg.up n 2) 1).val = n.val + 3 := by
    simp only [VReg.up] at h2 ⊢
    omega
  obtain ⟨w0, w1, w2, w3⟩ := quad_words x
  by_cases hb : m.val < budget
  · by_cases h : n.val ≤ m.val ∧ m.val < n.val + 4
    · obtain h | h | h | h : m.val = n.val ∨ m.val = n.val + 1 ∨ m.val = n.val + 2 ∨ m.val = n.val + 3 := by omega
      all_goals
        rw [h] at hb
        simp [dstVal128, both, dstVal, hb, Fin.ext_iff, h, h1, h2, h3, Ty.bits, w0, w1, w2, w3]
    · have : m.val ≠ n.val ∧ m.val ≠ n.val + 1 ∧ m.val ≠ n.val + 2 ∧ m.val ≠ n.val + 3 := by omega
      simp only [h, and_false, if_false]
      simp [dstVal128, both, dstVal, Fin.ext_iff, h1, h2, h3, this]
  · simp [dstVal128, both, dstVal, hb]

theorem dstVal128_s {budget : Nat} {n m : SReg} (hn : n.val % 2 = 0) (t : Tid) (x : BitVec 128) :
    dstVal128 budget (.s n) t x (.s m) = if n.val ≤ m.val ∧ m.val < n.val + 2 then
      some (x.extractLsb' (64 * (m.val - n.val)) 64) else none := by
  have hlt := n.isLt
  have h1 : (SReg.up n 1).val = n.val + 1 := Nat.mod_eq_of_lt (by omega)
  obtain ⟨w0, w1⟩ := pair_words x
  by_cases h : n.val ≤ m.val ∧ m.val < n.val + 2
  · obtain h | h : m.val = n.val ∨ m.val = n.val + 1 := by omega
    all_goals simp [dstVal128, both, oneReg, Fin.ext_iff, h, h1, w0, w1]
  · have : m.val ≠ n.val ∧ m.val ≠ n.val + 1 := by omega
    simp only [h, if_false]
    simp [dstVal128, both, oneReg, Fin.ext_iff, h1, this]

/-- What a 128-bit move writes (R40, R238). -/
def Iss.result128 (e : Iss) (d : Dst) (f : Tid → BitVec 128) : RegRef → Option Word64 := fun x => match d, x with
  | .v n, .v u m => if e.act.getLsbD u.val ∧ m.val < e.g.budget ∧ n.val ≤ m.val ∧ m.val < n.val + 4 then
      some (((f u).extractLsb' (32 * (m.val - n.val)) 32).setWidth 64) else none
  | .s n, .s m => if e.act ≠ 0#32 ∧ n.val ≤ m.val ∧ m.val < n.val + 2 then
      some ((f 0).extractLsb' (64 * (m.val - n.val)) 64) else none
  | _, _ => none

theorem Iss.formed_dstVal128 (e : Iss) {vec : Bool} {d : Dst} (f : Tid → BitVec 128) (hd : d.fits 128 = true)
    (hv : d.isVec = true → vec = true) (hs : d.isS = true → vec = false) :
    e.formed vec (fun t => dstVal128 e.g.budget d t (f t)) = e.result128 d f := by
  funext r
  cases d with
  | v n =>
    obtain rfl := hv rfl
    rcases r with ⟨u, m⟩ | ⟨u, m⟩ | m
    · rw [Iss.formed, if_pos rfl, findSome?_maskTids (u := u) (fun t ht => by simp [dstVal128, both, dstVal, Ne.symm ht]),
        dstVal128_v (by simpa [Dst.fits, vAligned] using hd)]
      by_cases ha : e.act.getLsbD u.val = true <;> simp only [Iss.result128, ha, if_true, true_and, Bool.false_eq_true, if_false, false_and]
    · simp [Iss.formed, dstVal128, both, dstVal, Iss.result128]
    · simp [Iss.formed, dstVal128, both, dstVal, Iss.result128]
  | s n =>
    obtain rfl := hs rfl
    rcases r with ⟨u, m⟩ | ⟨u, m⟩ | m
    · simp [Iss.formed, dstVal128, both, oneReg, Iss.result128]
    · simp [Iss.formed, dstVal128, both, oneReg, Iss.result128]
    · simp only [Iss.formed, Bool.false_eq_true, if_false, dstVal128_s (by simpa [Dst.fits, sAligned] using hd : n.val % 2 = 0)]
      by_cases ha : e.act = 0#32 <;> simp [Iss.result128, ha]
  | zero => rcases r with ⟨u, m⟩ | ⟨u, m⟩ | m <;> simp [Iss.formed, dstVal128, noReg, Iss.result128]

theorem does_mov128 {c : Ctl} {d : Dst} {a : Src} :
    Does c (.mov c .b128 d a) (fun e => e.result128 d (fun u => Operand.src128 e u a)) := by
  refine Does.of_retire (fun s => show execMov c .b128 d a s = _ from if_pos rfl) fun hwf e _ => ?_
  have hd : d.fits 128 = true := by
    simp only [Instr.wellFormed, wf1, Bool.and_eq_true] at hwf
    exact hwf.1.1.2
  rw [← e.formed_dstVal128 _ hd (vec := d.isVec || a.isVec) (fun h => by simp [h]) (wellFormed_wf1 hwf)]
  refine e.perForm_wrote _ fun t g hg => ?_
  rw [← hg]
  exact g.write128_wrote d t _

/-- Settles O2: each instruction is a value computed for each thread, or once. -/
theorem moveCompareDivideResults : Obligations.MoveCompareDivideResults := by
  intro c ty d dp a b imm cond cnd nx sh base op p q r
  refine ⟨does_mov, does_mov128, does_movi, does_iset, does_sel, does_lea, ?_, ?_, does_pset, does_nop⟩
  · simpa only [intDiv_quotient] using does_idiv (rem := false)
  · exact does_idiv (rem := true)

end Sys2Proof.Machine

namespace Sys2Proof.Machine

/-! ## Sorted lists -/

theorem insertBy_eq {α : Type} (le : α → α → Bool) (x : α) (l : List α) : insertBy le x l = l.orderedInsert (fun a b => le a b = true) x := by
  induction l with
  | nil => rfl
  | cons y l ih => simp only [insertBy, List.orderedInsert, ih]

theorem sortBy_eq {α : Type} (le : α → α → Bool) (l : List α) : sortBy le l = l.insertionSort (fun a b => le a b = true) := by
  induction l with
  | nil => rfl
  | cons x l ih => rw [List.insertionSort_cons, ← ih, ← insertBy_eq, sortBy, List.foldr_cons, ← sortBy]

@[simp] theorem mem_sortBy {α : Type} {le : α → α → Bool} {l : List α} {x : α} : x ∈ sortBy le l ↔ x ∈ l := by
  rw [sortBy_eq, List.mem_insertionSort]

theorem pairwise_sortBy {α : Type} {le : α → α → Bool} (total : ∀ a b, le a b = true ∨ le b a = true)
    (trans : ∀ a b c, le a b = true → le b c = true → le a c = true) (l : List α) : (sortBy le l).Pairwise (fun a b => le a b = true) := by
  have := Std.Total.mk total
  have := IsTrans.mk trans
  rw [sortBy_eq]
  exact List.pairwise_insertionSort _ l

/-- The first of the elements that satisfy a test comes before the others that do. -/
theorem head_filter_le {α : Type} {R : α → α → Prop} (refl : ∀ a, R a a) {l : List α} (h : l.Pairwise R) {y z : α} (hy : l.head? = some y)
    (hz : z ∈ l) : R y z := by
  obtain ⟨r, rfl⟩ := List.head?_eq_some_iff.mp hy
  rcases List.mem_cons.mp hz with rfl | hz
  · exact refl z
  · exact List.rel_of_pairwise_cons h hz

theorem head?_append_of_ne_nil {α : Type} {l : List α} (h : l ≠ []) (m : List α) : (l ++ m).head? = l.head? := by
  cases l with
  | nil => exact absurd rfl h
  | cons x l => rfl

/-! ## Residency order -/

/-- Of two places neither is before itself, and what is not before is transitive: residency order is a total preorder. -/
theorem placeBefore_iff {a b : Nat × Nat} : placeBefore a b = true ↔ a.1 < b.1 ∨ (a.1 = b.1 ∧ a.2 < b.2) := by
  simp [placeBefore]

/-- `x` is not behind `y` in residency order. -/
def Ready.upTo (x y : Ready) : Prop := (!placeBefore y.place x.place) = true

theorem Ready.upTo_iff {x y : Ready} : x.upTo y ↔ ¬ placeBefore y.place x.place = true := by
  simp [Ready.upTo]

theorem pairwise_readyOn (s : State) (core : Nat) : (s.readyOn core).Pairwise Ready.upTo := by
  refine pairwise_sortBy (fun a b => ?_) (fun a b c => ?_) _
  · simp only [Bool.not_eq_true', ← Bool.not_eq_true, placeBefore_iff]
    omega
  · simp only [Bool.not_eq_true', ← Bool.not_eq_true, placeBefore_iff]
    omega

theorem core_of_mem_readyOn {s : State} {core : Nat} {x : Ready} (h : x ∈ s.readyOn core) : x.g.core = core := by
  simp only [State.readyOn, mem_sortBy, List.mem_filterMap, List.mem_filter] at h
  obtain ⟨⟨r, g⟩, ⟨-, hcore⟩, hx⟩ := h
  split at hx
  · cases hx
    simpa using hcore
  · cases hx

theorem Ready.passes_iff {l : List Ready} {x : Ready} :
    x.passes l = true ↔ x.g.mustPass = true ∧ ∃ y ∈ l, y.g.lane = x.g.lane ∧ y.r ≠ x.r := by
  simp [Ready.passes]

/-! ## The group whose turn it is -/

/-- The ready groups of a group's core that need not pass their turn on. -/
def State.able (s : State) (x : Ready) : List Ready := (s.readyOn x.g.core).filter (fun y => !y.passes (s.readyOn x.g.core))

/-- Those of its lane. -/
def State.mates (s : State) (x : Ready) : List Ready := (s.able x).filter (fun y => y.g.lane == x.g.lane)

/-- Those of its lane with a vector instruction, in the order in which their turns come. -/
def State.vectorTurns (s : State) (x : Ready) : List Ready :=
  let vs := (s.mates x).filter (fun y => wordVec y.w)
  match tblGet (s.core x.g.core).lanes x.g.lane with
  | none => vs
  | some p => vs.filter (fun y => placeBefore p y.place) ++ vs

/-- Those of its core with a uniform instruction, the longest wait first. -/
def State.uniformTurns (s : State) (x : Ready) : List Ready :=
  sortBy (fun (a b : Ready) => decide (a.g.waitFrom.getD s.now ≤ b.g.waitFrom.getD s.now)) ((s.able x).filter (fun y => !wordVec y.w))

theorem turnOf_eq (s : State) (x : Ready) :
    s.turnOf x = (((if wordVec x.w then s.vectorTurns x else s.uniformTurns x) ++ s.mates x).head?).getD x := rfl

theorem mem_able {s : State} {x y : Ready} : y ∈ s.able x ↔ y ∈ s.readyOn x.g.core ∧ ¬ y.passes (s.readyOn x.g.core) = true := by
  simp [State.able]

theorem mem_mates {s : State} {x y : Ready} : y ∈ s.mates x ↔ y ∈ s.able x ∧ y.g.lane = x.g.lane := by
  simp [State.mates]

theorem mem_vectorTurns {s : State} {x y : Ready} : y ∈ s.vectorTurns x ↔ y ∈ s.mates x ∧ wordVec y.w = true := by
  unfold State.vectorTurns
  split <;> simp
  grind

theorem mem_uniformTurns {s : State} {x y : Ready} : y ∈ s.uniformTurns x ↔ y ∈ s.able x ∧ wordVec y.w = false := by
  simp [State.uniformTurns]

/-- The turn is that of a group that need not pass it on, where the lane has one. -/
theorem turnOf_mem_able {s : State} {x : Ready} (h : s.mates x ≠ []) : s.turnOf x ∈ s.able x := by
  rw [turnOf_eq]
  obtain ⟨y, hy⟩ : ∃ y, ((if wordVec x.w then s.vectorTurns x else s.uniformTurns x) ++ s.mates x).head? = some y := by
    rw [← Option.isSome_iff_exists, List.isSome_head?]
    simp [h]
  rw [hy, Option.getD_some]
  rcases List.mem_append.mp (List.mem_of_head? hy) with hm | hm
  · split at hm
    · exact (mem_mates.mp (mem_vectorTurns.mp hm).1).1
    · exact (mem_uniformTurns.mp hm).1
  · exact (mem_mates.mp hm).1

theorem turnOf_mem {s : State} {x : Ready} (h : x ∈ s.readyOn x.g.core) : s.turnOf x ∈ s.readyOn x.g.core := by
  rw [turnOf_eq]
  cases hy : ((if wordVec x.w then s.vectorTurns x else s.uniformTurns x) ++ s.mates x).head? with
  | none => exact h
  | some y =>
    refine (mem_able.mp ?_).1
    rcases List.mem_append.mp (List.mem_of_head? hy) with hm | hm
    · split at hm
      · exact (mem_mates.mp (mem_vectorTurns.mp hm).1).1
      · exact (mem_uniformTurns.mp hm).1
    · exact (mem_mates.mp hm).1

theorem pairwise_vectors (s : State) (x : Ready) : ((s.mates x).filter (fun y => wordVec y.w)).Pairwise Ready.upTo :=
  (((pairwise_readyOn s x.g.core).filter _).filter _).filter _

theorem Ready.upTo_refl (x : Ready) : x.upTo x := by
  simp [Ready.upTo, placeBefore]

/-- The vector instruction that issues is the next of its lane behind the last that issued, or else the lane's first. -/
theorem turnOf_of_vector {s : State} {x : Ready} (hx : x ∈ s.vectorTurns x) (hv : wordVec x.w = true) :
    s.turnOf x ∈ s.vectorTurns x ∧ ∀ z ∈ s.vectorTurns x, match tblGet (s.core x.g.core).lanes x.g.lane with
      | none => (s.turnOf x).upTo z
      | some p => (placeBefore p (s.turnOf x).place = true → placeBefore p z.place = true → (s.turnOf x).upTo z) ∧
          (¬ placeBefore p (s.turnOf x).place = true → ¬ placeBefore p z.place = true ∧ (s.turnOf x).upTo z) := by
  have hne : s.vectorTurns x ≠ [] := List.ne_nil_of_mem hx
  obtain ⟨y, hy⟩ : ∃ y, (s.vectorTurns x).head? = some y := by
    rw [← Option.isSome_iff_exists, List.isSome_head?]
    simp [hne]
  have ht : s.turnOf x = y := by
    rw [turnOf_eq, if_pos hv, head?_append_of_ne_nil hne, hy, Option.getD_some]
  rw [ht]
  refine ⟨List.mem_of_head? hy, fun z hz => ?_⟩
  have hz' := mem_vectorTurns.mp hz
  have hzv : z ∈ (s.mates x).filter (fun y => wordVec y.w) := List.mem_filter.mpr hz'
  have hs := pairwise_vectors s x
  dsimp only [State.vectorTurns] at hy
  split at hy
  next h => exact head_filter_le Ready.upTo_refl hs hy hzv
  next p h =>
    by_cases hb : ((s.mates x).filter (fun y => wordVec y.w)).filter (fun y => placeBefore p y.place) = []
    · rw [hb, List.nil_append] at hy
      have hnone (w : Ready) (hw : w ∈ (s.mates x).filter (fun y => wordVec y.w)) : ¬ placeBefore p w.place = true := by
        have := List.filter_eq_nil_iff.mp hb w hw
        simpa using this
      exact ⟨fun hp => absurd hp (hnone y (List.mem_of_head? hy)), fun _ => ⟨hnone z hzv, head_filter_le Ready.upTo_refl hs hy hzv⟩⟩
    · rw [head?_append_of_ne_nil hb] at hy
      refine ⟨fun _ hpz => head_filter_le Ready.upTo_refl (hs.filter _) hy (List.mem_filter.mpr ⟨hzv, hpz⟩), fun hp => absurd ?_ hp⟩
      exact (List.mem_filter.mp (List.mem_of_head? hy)).2

/-- The uniform instruction that issues has waited longest of its core's. -/
theorem turnOf_of_uniform {s : State} {x : Ready} (hx : x ∈ s.uniformTurns x) (hv : wordVec x.w = false) :
    s.turnOf x ∈ s.uniformTurns x ∧
      ∀ z ∈ s.uniformTurns x, (s.turnOf x).g.waitFrom.getD s.now ≤ z.g.waitFrom.getD s.now := by
  have hne : s.uniformTurns x ≠ [] := List.ne_nil_of_mem hx
  obtain ⟨y, hy⟩ : ∃ y, (s.uniformTurns x).head? = some y := by
    rw [← Option.isSome_iff_exists, List.isSome_head?]
    simp [hne]
  have ht : s.turnOf x = y := by
    rw [turnOf_eq, hv, if_neg (by simp), head?_append_of_ne_nil hne, hy, Option.getD_some]
  rw [ht]
  refine ⟨List.mem_of_head? hy, fun z hz => ?_⟩
  have hs : (s.uniformTurns x).Pairwise (fun a b => decide (a.g.waitFrom.getD s.now ≤ b.g.waitFrom.getD s.now) = true) := by
    refine pairwise_sortBy (fun a b => ?_) (fun a b c => ?_) _
    · simp only [decide_eq_true_eq]
      omega
    · simp only [decide_eq_true_eq]
      omega
  simpa using head_filter_le (fun a => by simp) hs hy hz

/-! ## An issue is noted -/

theorem tblGet_map {κ α β : Type} [DecidableEq κ] (t : List (κ × α)) (F : κ × α → κ × β) (h : ∀ x, (F x).1 = x.1) (k : κ) :
    tblGet (t.map F) k = (tblGet t k).map (fun v => (F (k, v)).2) := by
  induction t with
  | nil => rfl
  | cons x t ih =>
    obtain ⟨j, v⟩ := x
    have hF : F (j, v) = (j, (F (j, v)).2) := Prod.ext (h _) rfl
    rw [List.map_cons, hF, tblGet, tblGet]
    split
    next hj => rw [hj, Option.map_some]
    · exact ih

@[simp] theorem State.core_modCore_self (s : State) (c : Nat) (f : Core → Core) : (s.modCore c f).core c = f (s.core c) := by
  simp [State.core, State.modCore, tblGetD]

/-- What an issue leaves of a group. -/
def Ready.noted (x : Ready) (y : GroupRef × Group) : GroupRef × Group :=
  if y.1 = x.r then (y.1, { y.2 with passOver := none, waitFrom := none, mustPass := x.yields })
  else if y.2.mustPass && y.2.core == x.g.core && y.2.lane == x.g.lane then (y.1, { y.2 with mustPass := false })
  else y

theorem noteIssue_eq (s : State) (x : Ready) : s.noteIssue x =
    let s1 : State := { s with groups := s.groups.map x.noted }
    if wordVec x.w then s1.modCore x.g.core (fun c => { c with lanes := tblPut c.lanes x.g.lane x.place }) else s1 := rfl

theorem group_noteIssue (s : State) (x : Ready) (q : GroupRef) :
    (s.noteIssue x).group q = (s.group q).map (fun g => (x.noted (q, g)).2) := by
  have h : (s.noteIssue x).group q = tblGet (s.groups.map x.noted) q := by
    rw [noteIssue_eq]
    dsimp only
    split <;> rfl
  rw [h, tblGet_map]
  · rfl
  · intro y
    unfold Ready.noted
    split
    · rfl
    · split <;> rfl

theorem Ready.yields_iff {x : Ready} : x.yields = true ↔
    ∃ c, (Raw.ofWord x.w).ctl = some c ∧ (c.yld = true ∨ ((∃ k, x.i = .yield k) ∧ activeOf x.g c x.e.mask ≠ 0#32)) := by
  unfold Ready.yields
  cases h : (Raw.ofWord x.w).ctl with
  | none => simp
  | some c =>
    dsimp only
    by_cases hi : ∃ k, x.i = .yield k
    · obtain ⟨k, hk⟩ := hi
      simp [hk]
    · split
      next k hk => exact absurd ⟨k, hk⟩ hi
      next => simp [hi]

/-- Settles O55: the lists from which a turn is taken hold the groups that may have it, in the order of their turns. -/
theorem laneOrder : Obligations.LaneOrder := by
  intro s core x
  dsimp only
  have hmust (z : Ready) : (z.g.mustPass = true ∧ ∃ y ∈ s.readyOn core, y.g.lane = z.g.lane ∧ y.r ≠ z.r) ↔
      z.passes (s.readyOn core) = true := Ready.passes_iff.symm
  simp only [hmust]
  refine ⟨fun hx => ?_, fun hx => ?_, fun hx hv hm => ?_, fun hx hv hm => ?_, fun hg => ⟨?_, fun q g' hq hg' => ?_, fun hv => ?_, fun hv j => ?_⟩⟩
  case _ =>
    obtain rfl := core_of_mem_readyOn hx
    exact turnOf_mem hx
  case _ =>
    obtain rfl := core_of_mem_readyOn hx
    rintro ⟨z, hz, hlane, hz'⟩
    exact (mem_able.mp (turnOf_mem_able (List.ne_nil_of_mem (mem_mates.mpr ⟨mem_able.mpr ⟨hz, hz'⟩, hlane⟩)))).2
  case _ =>
    obtain rfl := core_of_mem_readyOn hx
    have hmem (z : Ready) : z ∈ s.vectorTurns x ↔ ((z ∈ s.readyOn x.g.core ∧ ¬ z.passes (s.readyOn x.g.core) = true) ∧
        z.g.lane = x.g.lane) ∧ wordVec z.w = true := by
      rw [mem_vectorTurns, mem_mates, mem_able]
    obtain ⟨hy, hle⟩ := turnOf_of_vector ((hmem x).mpr ⟨⟨⟨hx, hm⟩, rfl⟩, hv⟩) hv
    refine ⟨((hmem _).mp hy).2, ((hmem _).mp hy).1.2, fun z hz hzv hzl hzm => ?_⟩
    have hz' := hle z ((hmem z).mpr ⟨⟨⟨hz, hzm⟩, hzl⟩, hzv⟩)
    cases hl : tblGet (s.core x.g.core).lanes x.g.lane with
    | none =>
      simp only [hl, Ready.upTo_iff, placeBefore_iff, Ready.place] at hz'
      exact hz'
    | some p =>
      simp only [hl, Ready.upTo_iff, placeBefore_iff, Ready.place] at hz'
      exact hz'
  case _ =>
    obtain rfl := core_of_mem_readyOn hx
    have hmem (z : Ready) : z ∈ s.uniformTurns x ↔ (z ∈ s.readyOn x.g.core ∧ ¬ z.passes (s.readyOn x.g.core) = true) ∧ wordVec z.w = false := by
      rw [mem_uniformTurns, mem_able]
    obtain ⟨hy, hle⟩ := turnOf_of_uniform ((hmem x).mpr ⟨⟨hx, hm⟩, by simpa using hv⟩) (by simpa using hv)
    refine ⟨by simpa using ((hmem _).mp hy).2, fun z hz hzv hzm => hle z ((hmem z).mpr ⟨⟨hz, hzm⟩, by simpa using hzv⟩)⟩
  case _ =>
    refine ⟨_, by rw [group_noteIssue, hg, Option.map_some], ?_⟩
    simp only [Ready.noted, if_true, true_and]
    exact Ready.yields_iff
  case _ =>
    refine ⟨_, by rw [group_noteIssue, hg', Option.map_some], ?_⟩
    simp only [Ready.noted, hq, if_false]
    split <;> simp_all
  case _ =>
    rw [noteIssue_eq]
    simp only [hv, if_true, State.core_modCore_self, tblGet_tblPut_self]
    rfl
  case _ =>
    rw [noteIssue_eq]
    simp only [hv]
    rfl

end Sys2Proof.Machine

namespace Sys2Proof.Machine

/-! ## Lines and bytes at home -/

theorem Memory.readN_congr {m m' : Memory} {a : Nat} : ∀ {n : Nat}, (∀ i, i < n → m'.read (a + i) = m.read (a + i)) → m'.readN a n = m.readN a n
  | 0, _ => rfl
  | n + 1, h => by
    rw [Memory.readN, Memory.readN, show m'.read a = m.read a from h 0 n.succ_pos]
    congr 1
    exact Memory.readN_congr fun i hi => by simpa [Nat.add_assoc, Nat.add_comm 1] using h (i + 1) (by omega)

theorem leBits_leBytes (x : LineBits) : leBits 1024 (leBytes 128 x.toNat) = x := by
  rw [leBits, leNat_leBytes, Nat.mod_eq_of_lt (lt_of_lt_of_eq x.isLt (show 2 ^ 1024 = 256 ^ 128 by rw [show 256 = 2 ^ 8 from rfl, ← pow_mul])), BitVec.ofNat_toNat, BitVec.setWidth_eq]

/-- A whole line written to memory, and every other line as it was. -/
theorem Memory.readN_writeL_line {m : Memory} (w : m.wf = true) (l k : Nat) (x : LineBits) :
    (m.writeL (lineByte l) (leBytes 128 x.toNat)).readN (lineByte k) 128 =
      if k = l then leBytes 128 x.toNat else m.readN (lineByte k) 128 := by
  have hlen := leBytes_length 128 x.toNat
  split
  next h =>
    subst h
    conv_lhs => rw [← hlen]
    exact Memory.readN_writeL _ _ w
  next h =>
    refine Memory.readN_congr fun i hi => Memory.read_writeL_outside _ _ _ w ?_
    rw [hlen, lineByte, lineByte]
    omega

theorem tblGet_tblDel {κ α : Type} [DecidableEq κ] (t : List (κ × α)) (j k : κ) :
    tblGet (tblDel t k) j = if j = k then none else tblGet t j := by
  induction t with
  | nil => simp [tblDel, tblGet]
  | cons x t ih =>
    rw [tblDel] at ih ⊢
    by_cases hx : x.1 = k
    · rw [List.filter_cons_of_neg (by simpa using hx), ih]
      by_cases hj : j = k
      · simp [hj]
      · have hxj : x.1 ≠ j := fun h => hj (h.symm.trans hx)
        simp [tblGet, hj, hxj]
    · rw [List.filter_cons_of_pos (by simpa using hx), tblGet, tblGet, ih]
      by_cases hxj : x.1 = j
      · have hj : j ≠ k := fun h => hx (hxj.trans h)
        simp [hxj, hj]
      · simp [hxj]

theorem tblGet_tblMod {κ α : Type} [DecidableEq κ] (t : List (κ × α)) (f : α → α) (j k : κ) :
    tblGet (tblMod t k f) j = if j = k then (tblGet t j).map f else tblGet t j := by
  rw [tblMod, tblGet_map _ _ (fun x => by split <;> rfl)]
  split
  next h => simp [h]
  next h => simp

theorem State.lineData_of_some {s : State} {l : LineNo} {x : SliceLine} (h : tblGet s.lines l = some x) : s.lineData l = x.data := by
  simp [State.lineData, h]

theorem State.lineData_of_none {s : State} {l : LineNo} (h : tblGet s.lines l = none) :
    s.lineData l = leBits 1024 (s.mem.readN (lineByte l) 128) := by
  simp [State.lineData, h]

/-- Bytes at home are those of the lines. -/
theorem State.homeByte_eq (s : State) (a : Nat) : s.homeByte a = lineGet (s.lineData (a / 128)) (a % 128) := rfl

theorem homeByte_of_lineData {s t : State} (h : ∀ l, t.lineData l = s.lineData l) (a : Nat) : t.homeByte a = s.homeByte a := by
  rw [State.homeByte_eq, h, State.homeByte_eq]

theorem sameBytes_of_lineData {s t : State} (h : s.Tidy → ∀ l, t.lineData l = s.lineData l) : SameBytes s t :=
  fun ht => homeByte_of_lineData (h ht)

theorem sameBytes_of_eq {s t : State} (hl : t.lines = s.lines) (hm : t.mem = s.mem) : SameBytes s t :=
  sameBytes_of_lineData fun _ l => by rw [State.lineData, State.lineData, hl, hm]

/-- A line of data written under a mask, and no other. -/
theorem homeByte_wrote {s t : State} {l : LineNo} {x : LineBits} (h : ∀ k, t.lineData k = if k = l then x else s.lineData k) (a : Nat) :
    t.homeByte a = if a / 128 = l then lineGet x (a % 128) else s.homeByte a := by
  rw [State.homeByte_eq, State.homeByte_eq, h]
  split <;> rfl

/-- A line put at its home. -/
theorem lineData_tblPut {s t : State} {l : LineNo} {x : SliceLine} (hl : t.lines = tblPut s.lines l x) (hm : t.mem = s.mem) (k : LineNo) :
    t.lineData k = if k = l then x.data else s.lineData k := by
  split
  next h => rw [h, State.lineData_of_some (by rw [hl, tblGet_tblPut_self])]
  next h => rw [State.lineData, State.lineData, hl, tblGet_tblPut_other _ _ h, hm]

/-- A line written to memory that is not at its home. -/
theorem lineData_writeL {s t : State} (w : s.mem.wf = true) {l : LineNo} {x : LineBits} (hn : tblGet s.lines l = none)
    (hl : t.lines = s.lines) (hm : t.mem = s.mem.writeL (lineByte l) (leBytes 128 x.toNat)) (k : LineNo) :
    t.lineData k = if k = l then x else s.lineData k := by
  split
  next h => rw [h, State.lineData_of_none (by rw [hl, hn]), hm, Memory.readN_writeL_line w, if_pos rfl, leBits_leBytes]
  next h => rw [State.lineData, State.lineData, hl, hm, Memory.readN_writeL_line w, if_neg h]

/-- A line written back and taken from its home. -/
theorem lineData_writeBack {s t : State} (w : s.mem.wf = true) {l : LineNo} {x : SliceLine} (hx : tblGet s.lines l = some x)
    (hl : t.lines = tblDel s.lines l) (hm : t.mem = s.mem.writeL (lineByte l) (leBytes 128 x.data.toNat)) (k : LineNo) :
    t.lineData k = s.lineData k := by
  by_cases h : k = l
  · rw [h, State.lineData_of_none (by rw [hl, tblGet_tblDel, if_pos rfl]), hm, Memory.readN_writeL_line w, if_pos rfl, leBits_leBytes,
      State.lineData_of_some hx]
  · rw [State.lineData, State.lineData, hl, tblGet_tblDel, if_neg h, hm, Memory.readN_writeL_line w, if_neg h]

end Sys2Proof.Machine

namespace Sys2Proof.Machine

/-! ## What the end of a copy leaves alone (R94, R166) -/

/-- A state that differs from another in no group, no line, no byte and no core. -/
structure State.Quiet (s t : State) : Prop where
  groups : t.groups = s.groups
  lines : t.lines = s.lines
  mem : t.mem = s.mem
  cores : t.cores = s.cores

theorem State.Quiet.refl (s : State) : State.Quiet s s := ⟨rfl, rfl, rfl, rfl⟩

theorem State.Quiet.trans {s t u : State} (h : State.Quiet s t) (h' : State.Quiet t u) : State.Quiet s u :=
  ⟨h'.groups.trans h.groups, h'.lines.trans h.lines, h'.mem.trans h.mem, h'.cores.trans h.cores⟩

theorem State.Quiet.core {s t : State} (h : State.Quiet s t) (c : Nat) : t.core c = s.core c := by
  rw [State.core, State.core, h.cores]

theorem State.Quiet.sameGroups {s t : State} (h : State.Quiet s t) : SameGroups s t := fun r => by
  rw [State.group, State.group, h.groups]

theorem State.Quiet.sameBytes {s t : State} (h : State.Quiet s t) : SameBytes s t := sameBytes_of_eq h.lines h.mem

theorem sameGroups_of_eq {s t : State} (h : t.groups = s.groups) : SameGroups s t := fun r => by
  rw [State.group, State.group, h]

theorem quiet_modRegion (s : State) (ctx n : Nat) (f : Region → Region) : State.Quiet s (s.modRegion ctx n f) := ⟨rfl, rfl, rfl, rfl⟩

theorem quiet_foldl {α : Type} {f : State → α → State} (h : ∀ s x, State.Quiet s (f s x)) (l : List α) (s : State) :
    State.Quiet s (l.foldl f s) := by
  induction l generalizing s with
  | nil => exact .refl s
  | cons x l ih => exact (h s x).trans (ih (f s x))

theorem quiet_send (s : State) (ch : Chan) (b : Body) : State.Quiet s (s.send ch b) := ⟨rfl, rfl, rfl, rfl⟩

theorem quiet_broadcast (s : State) (ctx n state : Nat) (c : Change) : State.Quiet s (s.broadcast ctx n state c).2 := by
  unfold State.broadcast
  dsimp only
  refine State.Quiet.trans ?_ (quiet_foldl (fun _ _ => quiet_send _ _ _) _ _)
  exact ⟨rfl, rfl, rfl, rfl⟩

theorem quiet_departCopy (s : State) (die : Nat) (p : Option (Nat × Nat)) : State.Quiet s (s.departCopy die p) := by
  unfold State.departCopy
  split
  · exact .refl s
  next ctx n =>
    split
    · exact .refl s
    · dsimp only
      split
      · exact (quiet_modRegion _ _ _ _).trans ((quiet_modRegion _ _ _ _).trans (quiet_broadcast _ _ _ _ _))
      · exact quiet_modRegion _ _ _ _

/-! ## The copies of a core -/

/-- A state that differs from another in the copies of one core, and in no group and no byte. -/
structure CopiesOnly (s t : State) (core : Nat) (copies : List (LineNo × L1Copy)) : Prop where
  copies : (t.core core).copies = copies
  groups : SameGroups s t
  bytes : SameBytes s t

theorem copies_dropOlder {s : State} {core : Nat} {l : LineNo} {x : L1Copy} {y : OlderCopy} (hx : tblGet (s.core core).copies l = some x)
    (hy : x.older = some y) :
    State.Quiet (s.modCore core (fun c => { c with copies := tblMod c.copies l (fun x => { x with older := none }) })) (s.dropOlder core l) := by
  have h : (tblGet (s.core core).copies l).bind L1Copy.older = some y := by rw [hx, Option.bind_some, hy]
  unfold State.dropOlder
  rw [h]
  exact quiet_departCopy _ _ _

theorem group_modCore (s : State) (c : Nat) (f : Core → Core) (r : GroupRef) : (s.modCore c f).group r = s.group r := rfl

theorem dropOlder_copiesOnly {s : State} {core : Nat} {l : LineNo} {x : L1Copy} {y : OlderCopy}
    (hx : tblGet (s.core core).copies l = some x) (hy : x.older = some y) :
    CopiesOnly s (s.dropOlder core l) core (tblMod (s.core core).copies l (fun x => { x with older := none })) := by
  have h := copies_dropOlder hx hy
  refine ⟨?_, fun r => (h.sameGroups r).trans (group_modCore _ _ _ _), sameBytes_of_eq h.lines h.mem⟩
  rw [h.core, State.core_modCore_self]

theorem tblDel_tblMod {κ α : Type} [DecidableEq κ] (t : List (κ × α)) (k : κ) (f : α → α) : tblDel (tblMod t k f) k = tblDel t k := by
  induction t with
  | nil => rfl
  | cons x t ih =>
    simp only [tblDel, tblMod, List.map_cons] at ih ⊢
    by_cases hx : x.1 = k
    · rw [if_pos hx, List.filter_cons_of_neg (by simpa using hx), List.filter_cons_of_neg (by simpa using hx), ih]
    · rw [if_neg hx, List.filter_cons_of_pos (by simpa using hx), List.filter_cons_of_pos (by simpa using hx), ih]

theorem dropCopy_copiesOnly {s : State} {core : Nat} {l : LineNo} {x : L1Copy} (hx : tblGet (s.core core).copies l = some x) :
    CopiesOnly s (s.dropCopy core l) core (tblDel (s.core core).copies l) := by
  obtain ⟨cs, ⟨hc, hg, hb⟩, hd⟩ : ∃ cs, CopiesOnly s (s.dropOlder core l) core cs ∧ tblDel cs l = tblDel (s.core core).copies l := by
    cases hy : x.older with
    | none =>
      have h : s.dropOlder core l = s := by
        unfold State.dropOlder
        rw [hx, Option.bind_some, hy]
      rw [h]
      exact ⟨_, ⟨rfl, fun _ => rfl, fun _ _ => rfl⟩, rfl⟩
    | some y => exact ⟨_, dropOlder_copiesOnly hx hy, tblDel_tblMod _ _ _⟩
  unfold State.dropCopy
  rw [hx]
  dsimp only
  have h := quiet_departCopy ((s.dropOlder core l).modCore core (fun c => { c with copies := tblDel c.copies l })) (dieOfCore core) x.push
  refine ⟨?_, fun r => (h.sameGroups r).trans (hg r), fun ht a => ?_⟩
  · rw [h.core, State.core_modCore_self, ← hd, ← hc]
  · rw [← hb ht a, homeByte_of_lineData]
    exact fun k => by rw [State.lineData, State.lineData, h.lines, h.mem]; rfl

theorem leaseExpiry_ends {s : State} {core l : Nat} {x : L1Copy} (hx : tblGet (s.core core).copies l = some x) :
    Happens (.leaseExpiry core l) s (fun t =>
      if x.expiry ≤ s.nowAt core + 3 ∨ ∃ z, x.older = some z ∧ z.expiry ≤ s.nowAt core + 3 then
        tblGet (t.core core).copies l = (if x.expiry ≤ s.nowAt core + 3 then none else some { x with older := none }) ∧
          (∀ k, k ≠ l → tblGet (t.core core).copies k = tblGet (s.core core).copies k) ∧ SameGroups s t ∧ SameBytes s t
      else t = s) := by
  by_cases h1 : x.expiry ≤ s.nowAt core + 3
  · obtain ⟨hc, hg, hb⟩ := dropCopy_copiesOnly hx
    refine ⟨s.dropCopy core l, ?_, ?_⟩
    · dsimp only [exec, execLeaseExpiry]
      rw [hx]
      simp [Config.epsilon, h1]
    · simp only [h1, true_or, if_true, hc, tblGet_tblDel]
      exact ⟨trivial, fun k hk => if_neg hk, hg, hb⟩
  · by_cases h2 : ∃ z, x.older = some z ∧ z.expiry ≤ s.nowAt core + 3
    · obtain ⟨z, hz, hze⟩ := h2
      obtain ⟨hc, hg, hb⟩ := dropOlder_copiesOnly hx hz
      refine ⟨s.dropOlder core l, ?_, ?_⟩
      · dsimp only [exec, execLeaseExpiry]
        rw [hx]
        simp [Config.epsilon, h1, hz, hze]
      · simp only [h1, false_or, if_false]
        rw [if_pos ⟨z, hz, hze⟩, hc]
        simp only [tblGet_tblMod, if_true, hx, Option.map_some]
        exact ⟨trivial, fun k hk => if_neg hk, hg, hb⟩
    · refine ⟨s, ?_, by simp [h1, h2]⟩
      dsimp only [exec, execLeaseExpiry]
      rw [hx]
      have h2' : x.older.any (fun y => decide (y.expiry ≤ s.nowAt core + 3)) = false := by
        cases ho : x.older with
        | none => rfl
        | some z =>
          have hz : ¬ z.expiry ≤ s.nowAt core + 3 := fun hz => h2 ⟨z, ho, hz⟩
          simpa using hz
      exact (if_neg fun h => h1 (of_decide_eq_true h)).trans (if_neg fun h => Bool.false_ne_true (h2'.symm.trans h))

theorem hostSnoop_returns {s : State} {l : Nat} {y : SliceLine} (hh : isHost l = true) (hy : tblGet s.lines l = some y) :
    Happens (.hostSnoop l) s (fun t =>
      if y.lx + 3 < s.now then
        tblGet t.lines l = none ∧ (∀ k, k ≠ l → tblGet t.lines k = tblGet s.lines k) ∧ SameGroups s t ∧ SameBytes s t
      else t = s) := by
  by_cases h : y.lx + 3 < s.now
  · refine ⟨{ s.writeBack l y with lines := tblDel s.lines l }, ?_, ?_⟩
    · dsimp only [exec, execHostSnoop]
      simp [hh, hy, Config.epsilon, h]
    · simp only [h, if_true]
      refine ⟨by simp [tblGet_tblDel], fun k hk => ?_, sameGroups_of_eq (by simp only [State.writeBack]), sameBytes_of_lineData fun ht k => ?_⟩
      · rw [tblGet_tblDel, if_neg hk]
      · exact lineData_writeBack ht.1 hy rfl (by simp only [State.writeBack]) k
  · refine ⟨s, ?_, by simp [h]⟩
    dsimp only [exec, execHostSnoop]
    simp [hh, hy, Config.epsilon, h]

/-! ## The host's accesses (R56, R65, R95, R135, R136) -/

theorem ready_of_line {s : State} {l : LineNo} {y : SliceLine} (hm : tblGet s.misses l = none) (hy : tblGet s.lines l = some y) :
    s.ready l = (true, s) := by
  simp [State.ready, hm, hy]

theorem ready_of_absent {s : State} {l : LineNo} (hh : isHost l = false) (hm : tblGet s.misses l = none) (hy : tblGet s.lines l = none)
    (hc : s.missCount l < 64) : s.ready l = (false, { s with misses := tblPut s.misses l ⟨[], none⟩ }) := by
  simp [State.ready, hm, hy, hh, Config.missEntries, hc]

/-- A store of a line that is at its home, not home-only: past its leases (R95). -/
def storedLine (s : State) (y : SliceLine) (data mask : LineBits) : SliceLine :=
  { y with data := mergeLine y.data data mask, wl := max (max s.now y.lx + 3) y.wl, dirty := true, used := s.now, poison := y.poison && mask != fullMask }

theorem applyStore_of_line {s : State} {l : LineNo} {y : SliceLine} (hy : tblGet s.lines l = some y) (data mask : LineBits) :
    (s.applyStore l data mask false false false).2 = { s with lines := tblPut s.lines l (storedLine s y data mask) } := by
  simp [State.applyStore, hy, storedLine, Config.epsilon]

/-- The counts of a home leave everything but a die's counters alone (R94). -/
theorem countHome_eq (s : State) (l : LineNo) (b : Bool) : ∃ ds, s.countHome l b = { s with dies := ds } := by
  unfold State.countHome
  split
  · exact ⟨s.dies, rfl⟩
  · exact ⟨_, rfl⟩

theorem countCxl_eq (s : State) (l : LineNo) : ∃ ds, (if isCxl l then s.countHome l false else s) = { s with dies := ds } := by
  split
  · exact countHome_eq s l false
  · exact ⟨s.dies, rfl⟩

theorem hostWrite_device {s : State} {l : Nat} {data mask : LineBits} {y : SliceLine} (hh : isHost l = false) (hc : s.isCode (128 * l) = false)
    (hm : tblGet s.misses l = none) (hy : tblGet s.lines l = some y) :
    Happens (.hostWrite l data mask) s (fun t =>
      (∀ a, t.homeByte a = if a / 128 = l then lineGet (mergeLine (s.lineData l) data mask) (a % 128) else s.homeByte a) ∧
        SameGroups s t ∧ Sent s t [] ∧ ∃ z, tblGet t.lines l = some z ∧ z.wl = max (max s.now y.lx + 3) y.wl) := by
  obtain ⟨ds, hds⟩ := countCxl_eq s l
  refine ⟨{ s with dies := ds, lines := tblPut s.lines l (storedLine s y data mask) }, ?_, ?_, sameGroups_of_eq rfl, ?_, ?_⟩
  · dsimp only [exec, execHostWrite]
    rw [hh, show lineByte l = 128 * l from Nat.mul_comm _ _, hc, ready_of_line hm hy]
    dsimp only
    rw [hds, applyStore_of_line (s := { s with dies := ds }) hy]
    rfl
  · rw [State.lineData_of_some hy]
    exact homeByte_wrote (lineData_tblPut (x := storedLine s y data mask) rfl rfl)
  · exact (List.append_nil _).symm
  · exact ⟨_, tblGet_tblPut_self _ _ _, rfl⟩

theorem hostWrite_absent {s : State} {l : Nat} {data mask : LineBits} (hh : isHost l = false) (hc : s.isCode (128 * l) = false)
    (hm : tblGet s.misses l = none) (hy : tblGet s.lines l = none) (hn : s.missCount l < 64) :
    Happens (.hostWrite l data mask) s (fun t => t = { s with misses := tblPut s.misses l ⟨[], none⟩ }) := by
  refine ⟨_, ?_, rfl⟩
  dsimp only [exec, execHostWrite]
  rw [hh, show lineByte l = 128 * l from Nat.mul_comm _ _, hc, ready_of_absent hh hm hy hn]
  rfl

theorem hostWrite_code {s : State} {l : Nat} {data mask : LineBits} (hh : isHost l = false) (hc : s.isCode (128 * l) = true) :
    Happens (.hostWrite l data mask) s (fun t => t = { s with hostDone := some (.abort l), fw := { s.fw with aborts := s.fw.aborts ++ [l] } }) := by
  refine ⟨_, ?_, rfl⟩
  dsimp only [exec, execHostWrite]
  rw [hh, show lineByte l = 128 * l from Nat.mul_comm _ _, hc]
  rfl

theorem hostWrite_host {s : State} {l : Nat} {data mask : LineBits} (hh : isHost l = true) (hy : tblGet s.lines l = none) (hw : s.mem.wf = true) :
    Happens (.hostWrite l data mask) s (fun t =>
      (∀ a, t.homeByte a = if a / 128 = l then lineGet (mergeLine (s.lineData l) data mask) (a % 128) else s.homeByte a) ∧
        SameGroups s t ∧ Sent s t []) := by
  refine ⟨{ s with mem := s.mem.writeL (lineByte l) (leBytes 128 (mergeLine (s.lineData l) data mask).toNat) }, ?_, ?_, ?_, ?_⟩
  · dsimp only [exec, execHostWrite]
    rw [hh, hy]
    simp only [if_true, Option.isSome_none, Bool.false_eq_true, if_false]
  · exact homeByte_wrote (lineData_writeL hw hy (by dsimp only) (by dsimp only))
  · exact sameGroups_of_eq (by dsimp only)
  · exact (List.append_nil _).symm

theorem hostRead_device {s : State} {l : Nat} {y : SliceLine} (hh : isHost l = false) (hm : tblGet s.misses l = none)
    (hy : tblGet s.lines l = some y) :
    Happens (.hostRead l) s (fun t => t.hostDone = some (.data l y.data y.poison) ∧ SameBytes s t ∧ SameGroups s t ∧ Sent s t []) := by
  obtain ⟨ds, hds⟩ := countCxl_eq s l
  let t : State := { s with dies := ds, lines := tblMod s.lines l (fun x => { x with used := s.now }) }
  have hy' : tblGet t.lines l = some { y with used := s.now } := by simp [t, tblGet_tblMod, hy]
  refine ⟨{ t with hostDone := some (.data l y.data y.poison) }, ?_, rfl, sameBytes_of_lineData fun _ k => ?_, sameGroups_of_eq rfl,
    (List.append_nil _).symm⟩
  · dsimp only [exec, execHostRead]
    rw [hh, ready_of_line hm hy]
    dsimp only
    rw [hds]
    change Host.Outcome.next { t with hostDone := some (.data l (t.lineData l) (t.linePoisoned l)) } = _
    rw [State.lineData_of_some hy', State.linePoisoned, hy']
  · change t.lineData k = s.lineData k
    by_cases hk : k = l
    · rw [hk, State.lineData_of_some hy', State.lineData_of_some hy]
    · simp only [State.lineData, t, tblGet_tblMod, hk, if_false]

/-- An access of host memory that its channel has brought to the agent. -/
theorem cxlCompletion_read {s : State} {m : Nat} {ch : Chan} {r : ReadReq} {core : Nat} {p : LoadPart} (hd : Due s m ch (.host r))
    (ht : r.tgt = .direct core [p]) :
    Happens (.cxlCompletion m) s (fun t => SameBytes s t ∧ SameGroups s t ∧
      Swapped s t m [{ ch := ⟨.resp, portHome r.line, portCore core⟩
                       body := .loadResp core r.line (s.lineData r.line) none (s.wlOf r.line) (deviceObs (s.wlOf r.line))
                         (s.linePoisoned r.line) r.tgt }]) := by
  obtain ⟨own, seq, hd⟩ := hd
  refine ⟨(s.take m).answerRead r none, ?_, ?_⟩
  · dsimp only [exec, execCxlCompletion]
    rw [hd]
  · rw [State.answerRead, ht]
    exact ⟨sameBytes_of_eq rfl rfl, sameGroups_of_eq rfl, rfl⟩

theorem cxlCompletion_store {s : State} {m : Nat} {ch : Chan} {q : StoreReq} (hd : Due s m ch (.hostStore q)) (hh : isHost q.line = true)
    (h0 : q.l0 = true) (hv : q.via = none) (hs : q.slot = none) (hy : tblGet s.lines q.line = none) (hw : s.mem.wf = true) :
    Happens (.cxlCompletion m) s (fun t =>
      (∀ a, t.homeByte a = if a / 128 = q.line then lineGet (mergeLine (s.lineData q.line) q.data q.mask) (a % 128) else s.homeByte a) ∧
        SameGroups s t ∧
        Swapped s t m [{ ch := ⟨.time, portHome q.line, portCore q.core⟩
                         body := .storeDone q.txn ⟨s.now + 3, s.now + 3, s.now + 3, s.now + 3⟩ }]) := by
  obtain ⟨own, seq, hd⟩ := hd
  have happly : (s.take m).applyStore q.line q.data q.mask q.l0 q.keep q.poison = (s.now + 3,
      { s.take m with mem := s.mem.writeL (lineByte q.line) (leBytes 128 (mergeLine (s.lineData q.line) q.data q.mask).toNat) }) := by
    rw [State.applyStore, hh, h0, State.take_lines, hy]
    rfl
  refine ⟨(s.take m).serveStore q, ?_, ?_⟩
  · dsimp only [exec, execCxlCompletion]
    rw [hd]
  · simp only [State.serveStore, happly, State.produce, hs, State.storeApplied, hv, if_true]
    exact ⟨homeByte_wrote (lineData_writeL hw hy (by dsimp only [State.take]) (by dsimp only)), sameGroups_of_eq (by dsimp only [State.take]), rfl⟩

/-! ## A part that fails (R253, R410) -/

theorem State.group_modGroup (s : State) (r : GroupRef) (f : Group → Group) (q : GroupRef) :
    (s.modGroup r f).group q = if q = r then (s.group q).map f else s.group q := tblGet_tblMod _ _ _ _

/-- What arrives for no destination writes nothing. -/
theorem Group.deposit_zero (g : Group) (op : Nat) (ty : Ty) (t : Tid) (x : BitVec 128) : g.deposit op ty .zero t x = g := by
  have h : g.ops.map (fun o => if o.id = op then o else { o with clobbered := o.clobbered }) = g.ops := by
    conv_rhs => rw [← List.map_id g.ops]
    refine List.map_congr_left fun o _ => ?_
    split <;> rfl
  simp only [Group.deposit, Dst.regs, List.filter_nil, List.nil_append, List.foldl_nil, h]

theorem Group.depositAll_zero (g : Group) (o : Op) (h : ∀ a ∈ o.arrivals, a.dst = .zero) : g.depositAll o = g := by
  have hfold (l : List Arrival) (hl : ∀ a ∈ l, a.dst = .zero) :
      l.foldl (fun g a => g.deposit o.id a.ty a.dst (a.who.getD 0) a.x) g = g := by
    induction l with
    | nil => rfl
    | cons a l ih =>
      rw [List.foldl_cons, hl a List.mem_cons_self, Group.deposit_zero]
      exact ih fun b hb => hl b (List.mem_cons_of_mem _ hb)
  exact hfold _ fun a ha => h a (List.mem_filter.mp ha).1

theorem Group.find?_arrival (g : Group) (id : Nat) (a : Arrival) {o : Op} (ho : g.ops.find? (fun o => o.id == id) = some o) :
    (g.arrival id a).ops.find? (fun o => o.id == id) = some { o with arrivals := o.arrivals ++ [a] } := by
  have hid : o.id = id := by simpa using List.find?_some ho
  have hp : ((fun o : Op => o.id == id) ∘ fun o => if o.id = id then { o with arrivals := o.arrivals ++ [a] } else o) = fun o => o.id == id := by
    funext x
    dsimp only [Function.comp]
    split <;> rfl
  rw [Group.arrival, List.find?_map, hp, ho, Option.map_some, if_pos hid]

theorem Group.without_arrival (g : Group) (id : Nat) (a : Arrival) : (g.arrival id a).without id = g.without id := by
  have h : ((g.ops.map (fun o => if o.id = id then { o with arrivals := o.arrivals ++ [a] } else o)).filter (fun o => o.id != id)) =
      g.ops.filter (fun o => o.id != id) := by
    induction g.ops with
    | nil => rfl
    | cons o l ih =>
      by_cases ho : o.id = id
      · simp [ho, ih]
      · simp [ho, ih]
  simp only [Group.without, Group.arrival, h]

theorem maskTids_bitOf : ∀ t : Tid, maskTids (bitOf t) = [t] := by decide

/-- The fault of an operation of which one part has arrived, and failed. -/
theorem Op.fault_of_one {o : Op} {a : Arrival} {code : FaultCode} {reason : Byte} (ho : o.arrivals = [a]) (ha : a.bad = some (code, reason)) :
    o.fault = some { code := code, reason := reason, mask := (a.who.map bitOf).getD o.act, addr := a.va, pc := o.pc } := by
  have hlow : (a.who.isNone || a.who == (maskTids (o.concerns a)).head?) = true := by
    cases hw : a.who with
    | none => rfl
    | some t =>
      simp [Op.concerns, hw, maskTids_bitOf]
  simp only [Op.fault, ho, List.filterMap_cons, ha, List.filterMap_nil, List.getElem?_cons_zero, Option.map_some, List.filter_cons, beq_self_eq_true,
    if_true, List.filter_nil, List.foldl_cons, List.foldl_nil, BitVec.zero_or, List.find?_cons, hlow, Option.getD_some]
  rfl

/-- The last part of an operation fails, and nothing has arrived before: the operation is over, and its group waits for the trap. -/
theorem failParts_last {s : State} {p : LoadPart} {g : Group} {o : Op} {code : FaultCode} {reason : Byte} (hg : s.group p.g = some g)
    (ho : LastPart g p.op o) (ha : o.arrivals = []) (hn : g.pendingTrap = none) :
    (s.failParts code reason [p]).group p.g = some { g.without p.op with
      pendingTrap := some { code := code, reason := reason, mask := (p.who.map bitOf).getD o.act, addr := p.va, pc := o.pc } } := by
  obtain ⟨hfind, hparts, hclob, -⟩ := ho
  let a : Arrival := { who := p.who, va := p.va, dst := .zero, ty := p.ty, x := 0#128, bad := some (code, reason) }
  let o' : Op := { o with arrivals := [a] }
  let s1 : State := s.modGroup p.g (fun g => g.arrival p.op a)
  have hg1 : s1.group p.g = some (g.arrival p.op a) := by rw [State.group_modGroup, if_pos rfl, hg, Option.map_some]
  have hfind1 : (g.arrival p.op a).ops.find? (fun o => o.id == p.op) = some o' := by
    rw [Group.find?_arrival g p.op a hfind, ha]
    rfl
  have hdep : (g.arrival p.op a).depositAll o' = g.arrival p.op a :=
    Group.depositAll_zero _ _ fun b hb => by rw [List.mem_singleton.mp hb]
  have hend : ({ g.arrival p.op a with ops := (g.arrival p.op a).ops.filter (fun x => x.id != p.op) } : Group) = g.without p.op :=
    g.without_arrival p.op a
  have hpart : s1.opPart p.g p.op = (s1.setGroup p.g (g.without p.op)).raiseLater p.g
      { code := code, reason := reason, mask := (p.who.map bitOf).getD o.act, addr := p.va, pc := o.pc } := by
    rw [State.opPart, hg1]
    dsimp only
    rw [hfind1]
    dsimp only
    rw [if_neg (Nat.not_lt.mpr hparts), hdep, Op.fault_of_one (o := o') rfl rfl, ← hend]
    have hc : o'.clobbered = [] := hclob
    rw [hc]
    rfl
  change (s1.opPart p.g p.op).group p.g = _
  rw [hpart, State.raiseLater, State.group_modGroup, if_pos rfl, State.group_setGroup_self, Option.map_some, if_neg]
  change ¬ g.pendingTrap.isSome = true
  simp [hn]

theorem quietButGroups_opPart (s : State) (r : GroupRef) (id : Nat) : ∃ gs, s.opPart r id = { s with groups := gs } ∧
    ∀ q, q ≠ r → tblGet gs q = s.group q := by
  unfold State.opPart
  split
  · exact ⟨s.groups, rfl, fun _ _ => rfl⟩
  · split
    · exact ⟨s.groups, rfl, fun _ _ => rfl⟩
    · dsimp only
      split
      · exact ⟨_, rfl, fun q hq => tblGet_tblPut_other _ _ hq⟩
      · split
        · refine ⟨_, rfl, fun q hq => ?_⟩
          rw [tblGet_tblMod, if_neg hq]
          exact tblGet_tblPut_other _ _ hq
        · exact ⟨_, rfl, fun q hq => tblGet_tblPut_other _ _ hq⟩

theorem failParts_one (s : State) (code : FaultCode) (reason : Byte) (p : LoadPart) : ∃ gs,
    s.failParts code reason [p] = { s with groups := gs } ∧ ∀ q, q ≠ p.g → tblGet gs q = s.group q := by
  obtain ⟨gs, h, hq⟩ := quietButGroups_opPart (s.modGroup p.g (fun g => g.arrival p.op
      { who := p.who, va := p.va, dst := .zero, ty := p.ty, x := 0#128, bad := some (code, reason) })) p.g p.op
  refine ⟨gs, h, fun q hne => ?_⟩
  rw [hq q hne, State.group_modGroup, if_neg hne]

theorem completionTimeout_read {s : State} {m : Nat} {ch : Chan} {r : ReadReq} {core : Nat} {p : LoadPart} {g : Group} {o : Op}
    (hd : Due s m ch (.host r)) (ht : r.tgt = .direct core [p]) (hh : isHost r.line = true) (hp : isPeer r.line = false)
    (hg : s.group p.g = some g) (ho : LastPart g p.op o) (ha : o.arrivals = []) (hn : g.pendingTrap = none) :
    Happens (.completionTimeout m) s (fun t => SameBytes s t ∧ (∀ q, q ≠ p.g → t.group q = s.group q) ∧ Swapped s t m [] ∧
      GroupIs t p.g { g.without p.op with
        pendingTrap := some { code := .pagePermRead, reason := 0x0C#8, mask := (p.who.map bitOf).getD o.act, addr := p.va, pc := o.pc } }
        (fun _ => none)) := by
  obtain ⟨own, seq, hd⟩ := hd
  have hm : m < s.net.length := by
    rw [State.deliverable] at hd
    cases hx : s.net[m]? with
    | none => simp [hx] at hd
    | some x => exact (List.getElem?_eq_some_iff.mp hx).1
  obtain ⟨gs, hs, hq⟩ := failParts_one (s.take m) .pagePermRead 0x0C#8 p
  have hgroup := failParts_last (s := s.take m) (code := .pagePermRead) (reason := 0x0C#8) hg ho ha hn
  refine ⟨(s.take m).failParts .pagePermRead 0x0C#8 [p], ?_, ?_, fun q hne => ?_, ?_, _, hgroup, ?_⟩
  · dsimp only [exec, execCompletionTimeout]
    rw [if_pos hm, hd]
    simp only [Body.hostLine, hh, hp, Bool.true_or, Bool.not_false, Bool.and_self, if_true, State.failAccess, State.failRead, ht,
      Bool.false_eq_true, if_false]
  · rw [hs]
    exact sameBytes_of_eq rfl rfl
  · rw [hs]
    exact hq q hne
  · rw [hs, Swapped, List.append_nil]
    rfl
  · obtain ⟨h1, h2, h3⟩ := Group.WroteOnly.refl { g.without p.op with
        pendingTrap := some { code := .pagePermRead, reason := 0x0C#8, mask := (p.who.map bitOf).getD o.act, addr := p.va, pc := o.pc } }
    exact ⟨h1, h2, h3⟩

/-- Settles O24: a copy ends by its lease, a snooped line returns, and the host's accesses take effect at the home. -/
theorem leasesEndAndHostAnswers : Obligations.LeasesEndAndHostAnswers := by
  refine ⟨fun s core l x y => ⟨leaseExpiry_ends, hostSnoop_returns⟩, fun s l data mask y m ch r core p q g o => ?_⟩
  exact ⟨hostWrite_device, hostWrite_absent, hostWrite_code, hostWrite_host, hostRead_device, cxlCompletion_read, cxlCompletion_store,
    completionTimeout_read⟩

end Sys2Proof.Machine

namespace Sys2Proof.Machine

/-! ## Walks (R79, R80) -/

@[simp] theorem State.die_modDie_self (s : State) (d : Nat) (f : Die → Die) : (s.modDie d f).die d = f (s.die d) := by
  simp [State.die, State.modDie, tblGetD]

/-- What a walk reads does not depend on the walkers. -/
theorem homeBytes_dies (s : State) (ds : List (Nat × Die)) (n a : Nat) : ({ s with dies := ds } : State).homeBytes a n = s.homeBytes a n := by
  induction n generalizing a with
  | zero => rfl
  | succ n ih =>
    rw [State.homeBytes, State.homeBytes, ih]
    rfl

theorem walkFrom_dies (s : State) (ds : List (Nat × Die)) (glob : Bool) (va : Word64) (n place pfn : Nat) :
    walkFrom { s with dies := ds } glob va n place pfn = walkFrom s glob va n place pfn := by
  induction n generalizing place pfn with
  | zero => rfl
  | succ n ih =>
    have hl (x : Word64) : leafReasons { s with dies := ds } (3 - n) x = leafReasons s (3 - n) x := rfl
    simp only [walkFrom, homeBytes_dies, hl, ih]

theorem tablesFrom_dies (s : State) (ds : List (Nat × Die)) (ctx : Nat) (va : Word64) (n place pfn : Nat) :
    tablesFrom { s with dies := ds } ctx va n place pfn = tablesFrom s ctx va n place pfn := by
  induction n generalizing place pfn with
  | zero => rfl
  | succ n ih => simp only [tablesFrom, homeBytes_dies, ih]

/-- A state that differs from another in its cores, clusters and dies alone. -/
structure State.Translated (s t : State) : Prop where
  eq : ∃ cores clusters dies, t = { s with cores := cores, clusters := clusters, dies := dies }

theorem State.Translated.refl (s : State) : s.Translated s := ⟨s.cores, s.clusters, s.dies, rfl⟩

theorem State.Translated.trans {s t u : State} (h : s.Translated t) (h' : t.Translated u) : s.Translated u := by
  obtain ⟨a, b, c, rfl⟩ := h
  obtain ⟨a', b', c', rfl⟩ := h'
  exact ⟨a', b', c', rfl⟩

theorem State.Translated.same {s t : State} (h : s.Translated t) : SameGroups s t ∧ SameBytes s t ∧ Sent s t [] := by
  obtain ⟨a, b, c, rfl⟩ := h
  exact ⟨sameGroups_of_eq rfl, sameBytes_of_eq rfl rfl, (List.append_nil _).symm⟩

theorem translated_modDie (s : State) (d : Nat) (f : Die → Die) : s.Translated (s.modDie d f) := ⟨_, _, _, rfl⟩
theorem translated_modCore (s : State) (d : Nat) (f : Core → Core) : s.Translated (s.modCore d f) := ⟨_, _, _, rfl⟩
theorem translated_fillTlbs (s : State) (core : Nat) (e : TlbEntry) : s.Translated (s.fillTlbs core e) := ⟨_, _, _, rfl⟩

theorem translated_foldl_fillTlbs (e : TlbEntry) (l : List Nat) (s : State) : s.Translated (l.foldl (fun s core => s.fillTlbs core e) s) := by
  induction l generalizing s with
  | nil => exact .refl s
  | cons c l ih => exact (translated_fillTlbs s c e).trans (ih _)

theorem translated_walkBy (s : State) (die ctx : Nat) (va : Word64) : s.Translated (s.walkBy die ctx va).2 := by
  unfold State.walkBy
  split
  · exact .refl s
  · split
    · exact .refl s
    · dsimp only
      split
      · exact .refl s
      · exact translated_modDie _ _ _

/-- A walker is free, and the oldest request in the queue has started (R80). -/
def State.walkEnded (s : State) (die k : Nat) : State := s.modDie die (fun d => { d with
  walks := d.walks.eraseIdx k ++ d.walkQueue.take 1
  walkQueue := d.walkQueue.drop 1 })

theorem endWalk_leaf {s s2 : State} {die k : Nat} {w : Walk} {l : Leaf} (h : (s.walkEnded die k).walkBy die w.ctx w.va = (.leaf l, s2)) :
    s.endWalk die k w = (.leaf l, w.cores.foldl (fun s core => s.fillTlbs core ⟨w.ctx, l⟩) s2) := by
  rw [State.walkEnded] at h
  rw [State.endWalk, h]

theorem endWalk_other {s s2 : State} {die k : Nat} {w : Walk} {x : WalkResult} (h : (s.walkEnded die k).walkBy die w.ctx w.va = (x, s2))
    (hx : ∀ l, x ≠ .leaf l) : s.endWalk die k w = (x, s2) := by
  rw [State.walkEnded] at h
  rw [State.endWalk, h]
  cases x with
  | leaf l => exact absurd rfl (hx l)
  | absent => rfl
  | error r => rfl

theorem translated_endWalk (s : State) (die k : Nat) (w : Walk) : s.Translated (s.endWalk die k w).2 := by
  have h0 : s.Translated (s.walkEnded die k) := translated_modDie _ _ _
  have h1 := h0.trans (translated_walkBy (s.walkEnded die k) die w.ctx w.va)
  rcases h : (s.walkEnded die k).walkBy die w.ctx w.va with ⟨x, s2⟩
  rw [h] at h1
  by_cases hx : ∃ l, x = .leaf l
  · obtain ⟨l, rfl⟩ := hx
    rw [endWalk_leaf h]
    exact h1.trans (translated_foldl_fillTlbs _ _ _)
  · rw [endWalk_other h fun l hl => hx ⟨l, hl⟩]
    exact h1

theorem translated_walkNow (s : State) (core ctx : Nat) (va : Word64) : s.Translated (s.walkNow core ctx va).2 := by
  unfold State.walkNow
  dsimp only
  split
  · exact translated_endWalk _ _ _ _
  · split
    next l s1 h =>
      have h2 := translated_walkBy s (dieOfCore core) ctx va
      rw [h] at h2
      exact h2.trans (translated_fillTlbs _ _ _)
    · exact translated_walkBy _ _ _ _

theorem translated_translate (s : State) (core ctx : Nat) (va : Word64) : s.Translated (s.translate core ctx va).2 := by
  unfold State.translate
  split
  · exact .refl s
  · split
    · dsimp only
      exact translated_modCore s core _
    · exact translated_walkNow _ _ _ _

/-- The walk cache once a walk that begins at `x` has read what it reads (log 13). -/
def State.walkKept (s : State) (ctx : Nat) (va : Word64) (x : Nat × Nat × Nat) (old : List WalkEntry) : List WalkEntry :=
  let read := tablesFrom s ctx va x.1 x.2.1 x.2.2
  if read = [] then old else (read ++ old).take 512

/-- A walk by a die's walkers: what it finds, and what the walk cache keeps of it (R80). -/
theorem walkBy_eq {s : State} {ctx : Nat} {va : Word64} {c : Ctx} (hc : s.ctx ctx = some c) (hv : canonical va = true) (die : Nat)
    {x : Nat × Nat × Nat} (hx : (s.die die).walkFirst ctx c va = x) :
    ∃ s2, s.walkBy die ctx va = (walkFrom s c.glob va x.1 x.2.1 x.2.2, s2) ∧ s2.cores = s.cores ∧ s2.clusters = s.clusters ∧
      s2.die die = { s.die die with walkCache := s.walkKept ctx va x (s.die die).walkCache } := by
  unfold State.walkBy State.walkKept
  rw [hv, hc]
  dsimp only
  rw [hx]
  generalize tablesFrom s ctx va x.1 x.2.1 x.2.2 = es
  cases es with
  | nil => exact ⟨s, rfl, rfl, rfl, rfl⟩
  | cons e es => exact ⟨_, rfl, rfl, rfl, State.die_modDie_self _ _ _⟩

/-- Where no context is named, or no canonical address, nothing is read (R77). -/
theorem walkBy_none {s : State} {ctx : Nat} {va : Word64} (h : s.ctx ctx = none ∨ canonical va = false) (die : Nat) :
    ∃ x, s.walkBy die ctx va = (x, s) ∧ ∀ l, x ≠ .leaf l := by
  unfold State.walkBy
  by_cases hv : canonical va = true
  · have hc : s.ctx ctx = none := h.resolve_right (by simp [hv])
    rw [hv, hc]
    exact ⟨.absent, rfl, nofun⟩
  · rw [Bool.not_eq_true] at hv
    rw [hv]
    exact ⟨.error 0x01#8, rfl, nofun⟩

@[simp] theorem State.cluster_modCluster_self (s : State) (n : Nat) (f : Cluster → Cluster) : (s.modCluster n f).cluster n = f (s.cluster n) := by
  simp [State.cluster, State.modCluster, tblGetD]

theorem State.cluster_modCluster_other (s : State) {n m : Nat} (f : Cluster → Cluster) (h : m ≠ n) :
    (s.modCluster n f).cluster m = s.cluster m := by
  simp [State.cluster, State.modCluster, tblGetD, tblGet_tblPut_other _ _ h]

theorem State.core_modCore_other (s : State) {n m : Nat} (f : Core → Core) (h : m ≠ n) : (s.modCore n f).core m = s.core m := by
  simp [State.core, State.modCore, tblGetD, tblGet_tblPut_other _ _ h]

theorem head_fillTlb {cap : Nat} (hc : 0 < cap) (t : List TlbEntry) (e : TlbEntry) : (fillTlb cap t e).head? = some e := by
  obtain ⟨n, rfl⟩ := Nat.exists_eq_add_of_lt hc
  rfl

theorem core_fillTlbs (s : State) (core c : Nat) (e : TlbEntry) :
    ((s.fillTlbs core e).core c).tlb = if c = core then fillTlb Config.tlbCore (s.core c).tlb e else (s.core c).tlb := by
  have hcore : (s.fillTlbs core e).core c = (s.modCore core (fun c => { c with tlb := fillTlb Config.tlbCore c.tlb e })).core c := rfl
  rw [hcore]
  split
  next h => rw [h, State.core_modCore_self]
  next h => rw [State.core_modCore_other _ _ h]

theorem cluster_fillTlbs (s : State) (core n : Nat) (e : TlbEntry) :
    ((s.fillTlbs core e).cluster n).tlb = if n = clusterOfCore core then fillTlb Config.tlbCluster (s.cluster n).tlb e else (s.cluster n).tlb := by
  rw [State.fillTlbs]
  split
  next h => rw [h, State.cluster_modCluster_self]; rfl
  next h => rw [State.cluster_modCluster_other _ _ h]; rfl

/-- A leaf is the newest entry of the TLBs of every core that has joined the walk (R79). -/
theorem head_foldl_fillTlbs (e : TlbEntry) (l : List Nat) (s : State) : ∀ core, core ∈ l ∨
      ((s.core core).tlb.head? = some e ∧ (s.cluster (clusterOfCore core)).tlb.head? = some e) →
    ((l.foldl (fun s core => s.fillTlbs core e) s).core core).tlb.head? = some e ∧
      ((l.foldl (fun s core => s.fillTlbs core e) s).cluster (clusterOfCore core)).tlb.head? = some e := by
  induction l generalizing s with
  | nil => exact fun core h => h.resolve_left List.not_mem_nil
  | cons c l ih =>
    intro core h
    refine ih (s.fillTlbs c e) core ?_
    by_cases hl : core ∈ l
    · exact .inl hl
    · refine .inr ?_
      rw [core_fillTlbs, cluster_fillTlbs]
      by_cases hc : core = c
      · rw [if_pos hc, if_pos (by rw [hc])]
        exact ⟨head_fillTlb (by decide) _ _, head_fillTlb (by decide) _ _⟩
      · obtain ⟨h1, h2⟩ := h.resolve_left (by simp [hc, hl])
        rw [if_neg hc]
        refine ⟨h1, ?_⟩
        split
        · exact head_fillTlb (by decide) _ _
        · exact h2

/-! ## PAGE_WALK and WALK_RESULT -/

theorem pageWalk_joins {s : State} {core ctx : Nat} {va : Word64} (h : (s.die (dieOfCore core)).walks.any (sameWalk ⟨[core], ctx, va⟩) = true) :
    Happens (.pageWalk core ctx va) s (fun t => (SameGroups s t ∧ SameBytes s t ∧ Sent s t []) ∧ t.cores = s.cores ∧ t.clusters = s.clusters ∧
      (t.die (dieOfCore core)).walkQueue = (s.die (dieOfCore core)).walkQueue ∧
      (t.die (dieOfCore core)).walks = (s.die (dieOfCore core)).walks.map (fun x =>
        if sameWalk ⟨[core], ctx, va⟩ x then { x with cores := insertNew x.cores core } else x)) := by
  refine ⟨_, (show execPageWalk core ctx va s = _ from if_pos h), (translated_modDie _ _ _).same, rfl, rfl, ?_, ?_⟩
  · rw [State.die_modDie_self]
  · rw [State.die_modDie_self]

theorem pageWalk_starts {s : State} {core ctx : Nat} {va : Word64} (h : ¬ (s.die (dieOfCore core)).walks.any (sameWalk ⟨[core], ctx, va⟩) = true)
    (hn : (s.die (dieOfCore core)).walks.length < 64) :
    Happens (.pageWalk core ctx va) s (fun t => (SameGroups s t ∧ SameBytes s t ∧ Sent s t []) ∧
      (t.die (dieOfCore core)).walks = (s.die (dieOfCore core)).walks ++ [⟨[core], ctx, va⟩] ∧ t.cores = s.cores ∧ t.clusters = s.clusters) := by
  refine ⟨_, (show execPageWalk core ctx va s = _ from (if_neg h).trans (if_pos hn)), (translated_modDie _ _ _).same, ?_, rfl, rfl⟩
  · rw [State.die_modDie_self]

theorem pageWalk_queues {s : State} {core ctx : Nat} {va : Word64} (h : ¬ (s.die (dieOfCore core)).walks.any (sameWalk ⟨[core], ctx, va⟩) = true)
    (hn : 64 ≤ (s.die (dieOfCore core)).walks.length) (hq : (s.die (dieOfCore core)).walkQueue.length < 1024) :
    Happens (.pageWalk core ctx va) s (fun t => (SameGroups s t ∧ SameBytes s t ∧ Sent s t []) ∧
      (t.die (dieOfCore core)).walks = (s.die (dieOfCore core)).walks ∧
      (t.die (dieOfCore core)).walkQueue = (s.die (dieOfCore core)).walkQueue ++ [⟨[core], ctx, va⟩] ∧ t.cores = s.cores ∧ t.clusters = s.clusters) := by
  refine ⟨_, (show execPageWalk core ctx va s = _ from (if_neg h).trans ((if_neg (Nat.not_lt.mpr hn)).trans (if_pos hq))),
    (translated_modDie _ _ _).same, ?_, ?_, rfl, rfl⟩
  · rw [State.die_modDie_self]
  · rw [State.die_modDie_self]

theorem foldl_fillTlbs_dies (e : TlbEntry) (l : List Nat) (s : State) : (l.foldl (fun s core => s.fillTlbs core e) s).dies = s.dies := by
  induction l generalizing s with
  | nil => rfl
  | cons c l ih => exact (ih _).trans rfl

theorem die_walkEnded (s : State) (die k : Nat) : (s.walkEnded die k).die die = { s.die die with
    walks := (s.die die).walks.eraseIdx k ++ (s.die die).walkQueue.take 1, walkQueue := (s.die die).walkQueue.drop 1 } :=
  State.die_modDie_self _ _ _

/-- A walk under way ends: it has found what the tables say, from where it began. -/
theorem walkResult_reads {s : State} {die k : Nat} {w : Walk} {c : Ctx} (hw : (s.die die).walks[k]? = some w) (hc : s.ctx w.ctx = some c)
    (hv : canonical w.va = true) {x : Nat × Nat × Nat} (hx : (s.die die).walkFirst w.ctx c w.va = x) :
    Happens (.walkResult die k) s (fun t => ((SameGroups s t ∧ SameBytes s t ∧ Sent s t []) ∧
        (t.die die).walks = (s.die die).walks.eraseIdx k ++ (s.die die).walkQueue.take 1 ∧
        (t.die die).walkQueue = (s.die die).walkQueue.drop 1) ∧
      (t.die die).walkCache = s.walkKept w.ctx w.va x (s.die die).walkCache ∧
      (∀ l, walkFrom s c.glob w.va x.1 x.2.1 x.2.2 = .leaf l → ∀ core ∈ w.cores,
        (t.core core).tlb.head? = some ⟨w.ctx, l⟩ ∧ (t.cluster (clusterOfCore core)).tlb.head? = some ⟨w.ctx, l⟩) ∧
      ((∀ l, walkFrom s c.glob w.va x.1 x.2.1 x.2.2 ≠ .leaf l) → t.cores = s.cores ∧ t.clusters = s.clusters)) := by
  have hfirst : ((s.walkEnded die k).die die).walkFirst w.ctx c w.va = x := by
    rw [die_walkEnded]
    exact hx
  obtain ⟨s2, hby, hcores, hclusters, hdie⟩ := walkBy_eq (s := s.walkEnded die k) hc hv die hfirst
  have hfrom : walkFrom (s.walkEnded die k) c.glob w.va x.1 x.2.1 x.2.2 = walkFrom s c.glob w.va x.1 x.2.1 x.2.2 := walkFrom_dies _ _ _ _ _ _ _
  have hkept : (s.walkEnded die k).walkKept w.ctx w.va x (s.die die).walkCache = s.walkKept w.ctx w.va x (s.die die).walkCache := by
    simp only [State.walkKept, show tablesFrom (s.walkEnded die k) w.ctx w.va x.1 x.2.1 x.2.2 = tablesFrom s w.ctx w.va x.1 x.2.1 x.2.2
      from tablesFrom_dies _ _ _ _ _ _ _]
  rw [hfrom] at hby
  rw [die_walkEnded, hkept] at hdie
  refine ⟨(s.endWalk die k w).2, ?_, ?_⟩
  · dsimp only [exec, execWalkResult]
    rw [hw]
  have hsame := (translated_endWalk s die k w).same
  by_cases hl : ∃ l, walkFrom s c.glob w.va x.1 x.2.1 x.2.2 = .leaf l
  · obtain ⟨l, hl⟩ := hl
    rw [hl] at hby
    rw [endWalk_leaf hby] at hsame ⊢
    have hd : (w.cores.foldl (fun s core => s.fillTlbs core ⟨w.ctx, l⟩) s2).die die = s2.die die := by
      rw [State.die, foldl_fillTlbs_dies]
      rfl
    refine ⟨⟨hsame, by rw [hd, hdie], by rw [hd, hdie]⟩, by rw [hd, hdie], fun l' hl' core hcore => ?_, fun h => absurd hl (h l)⟩
    obtain rfl : l = l' := WalkResult.leaf.inj (hl.symm.trans hl')
    exact head_foldl_fillTlbs _ _ _ core (.inl hcore)
  · have hne : ∀ l, walkFrom s c.glob w.va x.1 x.2.1 x.2.2 ≠ .leaf l := fun l h => hl ⟨l, h⟩
    rw [endWalk_other hby hne] at hsame ⊢
    exact ⟨⟨hsame, by rw [hdie], by rw [hdie]⟩, by rw [hdie], fun l h => absurd h (hne l), fun _ => ⟨hcores, hclusters⟩⟩

theorem walkResult_none {s : State} {die k : Nat} {w : Walk} (hw : (s.die die).walks[k]? = some w)
    (h : s.ctx w.ctx = none ∨ canonical w.va = false) :
    Happens (.walkResult die k) s (fun t => ((SameGroups s t ∧ SameBytes s t ∧ Sent s t []) ∧
        (t.die die).walks = (s.die die).walks.eraseIdx k ++ (s.die die).walkQueue.take 1 ∧
        (t.die die).walkQueue = (s.die die).walkQueue.drop 1) ∧
      (t.die die).walkCache = (s.die die).walkCache ∧ t.cores = s.cores ∧ t.clusters = s.clusters) := by
  obtain ⟨x, hby, hne⟩ := walkBy_none (s := s.walkEnded die k) h die
  have hsame := (translated_endWalk s die k w).same
  refine ⟨(s.endWalk die k w).2, ?_, ?_⟩
  · dsimp only [exec, execWalkResult]
    rw [hw]
  · rw [endWalk_other hby hne] at hsame ⊢
    exact ⟨⟨hsame, by rw [die_walkEnded], by rw [die_walkEnded]⟩, by rw [die_walkEnded], rfl, rfl⟩

/-- Where no entry of the walk cache is the context's, a walk begins at the root. -/
theorem walkFirst_root {d : Die} {ctx : Nat} (c : Ctx) (va : Word64) (h : ∀ e ∈ d.walkCache, e.ctx ≠ ctx) :
    d.walkFirst ctx c va = (3, c.rootPlace, c.rootPfn) := by
  have hnone (n : Nat) : d.walkCache.find? (fun e => e.ctx == ctx && e.level == n && e.base == levelBase n va) = none :=
    List.find?_eq_none.mpr fun e he => by simp [h e he]
  simp only [Die.walkFirst, hnone]

/-- Below an entry of level 2 one level is left. -/
theorem walkFirst_deepest {d : Die} {ctx : Nat} (c : Ctx) {va : Word64} {e : WalkEntry} (he : e ∈ d.walkCache) (hc : e.ctx = ctx)
    (hl : e.level = 2) (hb : e.base = levelBase 2 va) : (d.walkFirst ctx c va).1 = 1 := by
  obtain ⟨f, hf⟩ : ∃ f, d.walkCache.find? (fun e => e.ctx == ctx && e.level == 2 && e.base == levelBase 2 va) = some f := by
    rw [← Option.isSome_iff_exists, List.find?_isSome]
    exact ⟨e, he, by simp [hc, hl, hb]⟩
  simp only [Die.walkFirst, hf]

end Sys2Proof.Machine

namespace Sys2Proof.Machine

/-! ## INSTRUCTION_FETCH (R34, R56, R83) -/

/-- A fetch of a line that is neither in the instruction cache nor under way. -/
structure FetchAbsent (s : State) (r : GroupRef) (pc : Word64) (g : Group) (e : FEntry) : Prop where
  group : s.group r = some g
  entry : s.entryAt r pc = some e
  page : g.onPage = false
  cache : tblGet (s.core g.core).icache (r.key.ctx, pcLine pc) = none
  fetches : tblGet (s.core g.core).fetches (r.key.ctx, pcLine pc) = none

/-- What the fetch of such a line makes of its translation. -/
def fetchTranslated (r : GroupRef) (pc : Word64) (g : Group) (e : FEntry) : WalkResult × State → Out
  | (.error k, s1) => .next (s1.raise r e { code := .pagePermExec, reason := k, mask := e.mask, addr := pc, pc := pc })
  | (.absent, s1) => .next (s1.raise r e { code := .pageNotPresent, reason := 0#8, mask := e.mask, addr := pc, pc := pc })
  | (.leaf l, s1) =>
    if l.x && !l.w && l.level == 3 && s1.isCode (l.flat pc) then
      .next (s1.modCore g.core (fun c => { c with
        fetches := c.fetches ++ [((r.key.ctx, pcLine pc), ⟨r, pc, l.flat (pcLine pc), 0⟩)] }))
    else .next (s1.raise r e { code := .pagePermExec, reason := 0#8, mask := e.mask, addr := pc, pc := pc })

theorem exec_instructionFetch {s : State} {r : GroupRef} {pc : Word64} {g : Group} {e : FEntry} (h : FetchAbsent s r pc g e) :
    exec (.instructionFetch r pc) s = fetchTranslated r pc g e (s.translate g.core r.key.ctx (pcLine pc)) := by
  dsimp only [exec, execInstructionFetch]
  rw [h.group, h.entry]
  dsimp only
  rw [h.page, h.cache, h.fetches, if_neg (by simp)]
  rcases s.translate g.core r.key.ctx (pcLine pc) with ⟨x, s1⟩
  cases x <;> rfl

/-- A translation changes no core's instruction cache and no fetch under way. -/
theorem fetches_fillTlbs (s : State) (core c : Nat) (e : TlbEntry) : ((s.fillTlbs core e).core c).fetches = (s.core c).fetches := by
  have hcore : (s.fillTlbs core e).core c = (s.modCore core (fun c => { c with tlb := fillTlb Config.tlbCore c.tlb e })).core c := rfl
  rw [hcore]
  by_cases h : c = core
  · rw [h, State.core_modCore_self]
  · rw [State.core_modCore_other _ _ h]

theorem fetches_foldl_fillTlbs (e : TlbEntry) (l : List Nat) (s : State) (c : Nat) :
    ((l.foldl (fun s core => s.fillTlbs core e) s).core c).fetches = (s.core c).fetches := by
  induction l generalizing s with
  | nil => rfl
  | cons d l ih => rw [List.foldl_cons, ih, fetches_fillTlbs]

theorem cores_walkBy (s : State) (die ctx : Nat) (va : Word64) : (s.walkBy die ctx va).2.cores = s.cores := by
  unfold State.walkBy
  split
  · rfl
  · split
    · rfl
    · dsimp only
      split <;> rfl

theorem core_of_cores {s t : State} (h : t.cores = s.cores) (c : Nat) : t.core c = s.core c := by
  rw [State.core, State.core, h]

theorem fetches_endWalk (s : State) (die k : Nat) (w : Walk) (c : Nat) : ((s.endWalk die k w).2.core c).fetches = (s.core c).fetches := by
  have hcore : (((s.walkEnded die k).walkBy die w.ctx w.va).2.core c) = s.core c := core_of_cores ((cores_walkBy _ _ _ _).trans rfl) c
  rcases h : (s.walkEnded die k).walkBy die w.ctx w.va with ⟨x, s2⟩
  rw [h] at hcore
  by_cases hx : ∃ l, x = .leaf l
  · obtain ⟨l, rfl⟩ := hx
    rw [endWalk_leaf h, fetches_foldl_fillTlbs, hcore]
  · rw [endWalk_other h fun l hl => hx ⟨l, hl⟩, hcore]

theorem fetches_walkNow (s : State) (core ctx : Nat) (va : Word64) (c : Nat) :
    ((s.walkNow core ctx va).2.core c).fetches = (s.core c).fetches := by
  have hcore : ((s.walkBy (dieOfCore core) ctx va).2.core c) = s.core c := core_of_cores (cores_walkBy _ _ _ _) c
  unfold State.walkNow
  dsimp only
  split
  · exact fetches_endWalk _ _ _ _ _
  · split
    next l s1 h =>
      rw [h] at hcore
      rw [fetches_fillTlbs, hcore]
    · rw [hcore]

theorem fetches_translate (s : State) (core ctx : Nat) (va : Word64) (c : Nat) :
    ((s.translate core ctx va).2.core c).fetches = (s.core c).fetches := by
  unfold State.translate
  split
  · rfl
  · split
    · dsimp only
      by_cases h : c = core
      · rw [h, State.core_modCore_self]
      · rw [State.core_modCore_other _ _ h]
    · exact fetches_walkNow _ _ _ _ _

section
variable {s s1 : State} {r : GroupRef} {pc : Word64} {g : Group} {e : FEntry}

theorem instructionFetch_sent (h : FetchAbsent s r pc g e) {l : Leaf} (ht : s.translate g.core r.key.ctx (pcLine pc) = (.leaf l, s1))
    (hr : (l.x && !l.w && decide (l.level = 3) && s1.isCode (l.flat pc)) = true) :
    Happens (.instructionFetch r pc) s (fun t => (SameGroups s t ∧ SameBytes s t ∧ Sent s t []) ∧
      (t.core g.core).fetches = (s.core g.core).fetches ++ [((r.key.ctx, pcLine pc), ⟨r, pc, l.flat (pcLine pc), 0⟩)]) := by
  have htr := translated_translate s g.core r.key.ctx (pcLine pc)
  have hf := fetches_translate s g.core r.key.ctx (pcLine pc) g.core
  rw [ht] at htr hf
  refine ⟨s1.modCore g.core (fun c => { c with fetches := c.fetches ++ [((r.key.ctx, pcLine pc), ⟨r, pc, l.flat (pcLine pc), 0⟩)] }),
    (exec_instructionFetch h).trans ?_, (htr.trans (translated_modCore s1 g.core _)).same, ?_⟩
  · rw [ht]
    exact if_pos hr
  · rw [State.core_modCore_self, hf]

theorem instructionFetch_notCode (h : FetchAbsent s r pc g e) {l : Leaf} (ht : s.translate g.core r.key.ctx (pcLine pc) = (.leaf l, s1))
    (hr : (l.x && !l.w && decide (l.level = 3) && s1.isCode (l.flat pc)) = false) :
    Happens (.instructionFetch r pc) s (fun t =>
      t = s1.raise r e { code := .pagePermExec, reason := 0#8, mask := e.mask, addr := pc, pc := pc }) := by
  refine ⟨_, (exec_instructionFetch h).trans ?_, rfl⟩
  rw [ht]
  exact if_neg (fun hc => Bool.false_ne_true (hr.symm.trans hc))

theorem instructionFetch_error (h : FetchAbsent s r pc g e) {k : Byte} (ht : s.translate g.core r.key.ctx (pcLine pc) = (.error k, s1)) :
    Happens (.instructionFetch r pc) s (fun t =>
      t = s1.raise r e { code := .pagePermExec, reason := k, mask := e.mask, addr := pc, pc := pc }) := by
  refine ⟨_, (exec_instructionFetch h).trans ?_, rfl⟩
  rw [ht]
  rfl

theorem instructionFetch_absent (h : FetchAbsent s r pc g e) (ht : s.translate g.core r.key.ctx (pcLine pc) = (.absent, s1)) :
    Happens (.instructionFetch r pc) s (fun t =>
      t = s1.raise r e { code := .pageNotPresent, reason := 0#8, mask := e.mask, addr := pc, pc := pc }) := by
  refine ⟨_, (exec_instructionFetch h).trans ?_, rfl⟩
  rw [ht]
  rfl

end

/-! ## INSTRUCTION_FILL (R67, R83) -/

section
variable {s : State} {k core : Nat} {key : Nat × Word64} {f : Fetch} {flip : BitVec 512} {e : FEntry}

/-- The request of a line is over. -/
def State.fetchDropped (s : State) (core : Nat) (key : Nat × Word64) : State :=
  s.modCore core (fun c => { c with fetches := tblDel c.fetches key })

theorem fetches_fetchDropped (s : State) (core : Nat) (key : Nat × Word64) : tblGet ((s.fetchDropped core key).core core).fetches key = none := by
  rw [State.fetchDropped, State.core_modCore_self, tblGet_tblDel, if_pos rfl]

theorem instructionFill_poisoned (hk : s.fetchList[k]? = some (core, key, f)) (hp : s.linePoisoned (f.at_ / 128) = true)
    (he : s.entryAt f.g f.pc = some e) : Happens (.instructionFill k flip) s (fun t => ∃ s2 : State,
      t = s2.raise f.g e { code := .eccUncorrectable, mask := e.mask, pc := f.pc } ∧ SameGroups s s2 ∧ SameBytes s s2 ∧
        s2.blocks = s.blocks ∧ tblGet (s2.core core).fetches key = none) := by
  refine ⟨_, ?_, s.fetchDropped core key, rfl, sameGroups_of_eq rfl, sameBytes_of_eq rfl rfl, rfl, fetches_fetchDropped _ _ _⟩
  have he1 : (s.fetchDropped core key).entryAt f.g f.pc = some e := he
  rw [State.fetchDropped] at he1 ⊢
  dsimp only [exec, execInstructionFill]
  rw [hk]
  dsimp only
  rw [if_pos hp, he1]

theorem instructionFill_good (hk : s.fetchList[k]? = some (core, key, f)) (hp : s.linePoisoned (f.at_ / 128) = false)
    (hx : trailerOk (s.codeLine f.at_ ^^^ flip) = true) : Happens (.instructionFill k flip) s (fun t =>
      (SameGroups s t ∧ SameBytes s t ∧ Sent s t []) ∧ tblGet (t.core core).icache key = some (s.codeLine f.at_ ^^^ flip) ∧
        tblGet (t.core core).fetches key = none ∧
        tblGetD t.fw.corrected (unitKey 1 core) 0 = tblGetD s.fw.corrected (unitKey 1 core) 0 + if f.failed = 0 then 0 else 1) := by
  let s1 := (s.fetchDropped core key).modCore core (fun c => { c with icache := tblPut c.icache key (s.codeLine f.at_ ^^^ flip) })
  have hexec : exec (.instructionFill k flip) s = .next (if f.failed = 0 then s1 else s1.corrected 1 core 1) := by
    dsimp only [exec, execInstructionFill]
    rw [hk]
    dsimp only
    rw [hp, hx]
    rfl
  have hcore : s1.core core = { (s.fetchDropped core key).core core with
      icache := tblPut ((s.fetchDropped core key).core core).icache key (s.codeLine f.at_ ^^^ flip) } := State.core_modCore_self _ _ _
  have hc : tblGet (s1.core core).icache key = some (s.codeLine f.at_ ^^^ flip) := by rw [hcore, tblGet_tblPut_self]
  have hf : tblGet (s1.core core).fetches key = none := by rw [hcore, fetches_fetchDropped]
  refine ⟨_, hexec, ?_⟩
  split
  · exact ⟨⟨sameGroups_of_eq rfl, sameBytes_of_eq rfl rfl, (List.append_nil _).symm⟩, hc, hf, rfl⟩
  · refine ⟨⟨sameGroups_of_eq rfl, sameBytes_of_eq rfl rfl, (List.append_nil _).symm⟩, hc, hf, ?_⟩
    rw [State.corrected, tblGetD, tblGet_tblPut_self]
    rfl

theorem instructionFill_again (hk : s.fetchList[k]? = some (core, key, f)) (hp : s.linePoisoned (f.at_ / 128) = false)
    (hx : trailerOk (s.codeLine f.at_ ^^^ flip) = false) (hf : f.failed < 2) : Happens (.instructionFill k flip) s (fun t =>
      (SameGroups s t ∧ SameBytes s t ∧ Sent s t []) ∧ (t.core core).icache = (s.core core).icache ∧
        tblGet (t.core core).fetches key = some { f with failed := f.failed + 1 }) := by
  refine ⟨s.modCore core (fun c => { c with fetches := tblPut c.fetches key { f with failed := f.failed + 1 } }), ?_,
    ⟨sameGroups_of_eq rfl, sameBytes_of_eq rfl rfl, (List.append_nil _).symm⟩, ?_, ?_⟩
  · dsimp only [exec, execInstructionFill]
    rw [hk]
    dsimp only
    rw [hp, hx, if_neg Bool.false_ne_true, if_neg Bool.false_ne_true, if_pos hf]
  · rw [State.core_modCore_self]
  · rw [State.core_modCore_self, tblGet_tblPut_self]

theorem instructionFill_bad (hk : s.fetchList[k]? = some (core, key, f)) (hp : s.linePoisoned (f.at_ / 128) = false)
    (hx : trailerOk (s.codeLine f.at_ ^^^ flip) = false) (hf : 2 ≤ f.failed) (he : s.entryAt f.g f.pc = some e) :
    Happens (.instructionFill k flip) s (fun t => ∃ s2 : State,
      t = s2.raise f.g e { code := .eccUncorrectable, mask := e.mask, pc := f.pc } ∧ SameGroups s s2 ∧ SameBytes s s2 ∧
        s2.blocks = s.blocks ∧ tblGet (s2.core core).fetches key = none ∧
        tblGetD s2.fw.uncorrected (unitKey 1 core) 0 = tblGetD s.fw.uncorrected (unitKey 1 core) 0 + 1) := by
  refine ⟨_, ?_, (s.fetchDropped core key).uncorrected 1 core, rfl, sameGroups_of_eq rfl, sameBytes_of_eq rfl rfl, rfl,
    fetches_fetchDropped s core key, ?_⟩
  · have he1 : ((s.fetchDropped core key).uncorrected 1 core).entryAt f.g f.pc = some e := he
    rw [State.fetchDropped] at he1 ⊢
    dsimp only [exec, execInstructionFill]
    rw [hk]
    dsimp only
    rw [hp, hx, if_neg Bool.false_ne_true, if_neg Bool.false_ne_true, if_neg (Nat.not_lt.mpr hf), he1]
  · rw [State.uncorrected, tblGetD, tblGet_tblPut_self]
    rfl

end

/-- A walk's end keeps what it reads at the head of the walk cache, and fills the TLBs of its cores with the leaf that it finds. -/
theorem walkResult_keeps {s : State} {die k : Nat} {w : Walk} {c : Ctx} (l : Leaf) (hw : (s.die die).walks[k]? = some w)
    (hc : s.ctx w.ctx = some c) (hv : canonical w.va = true) {x : Nat × Nat × Nat} (hx : (s.die die).walkFirst w.ctx c w.va = x) :
    Happens (.walkResult die k) s (fun t => ((SameGroups s t ∧ SameBytes s t ∧ Sent s t []) ∧
        (t.die die).walks = (s.die die).walks.eraseIdx k ++ (s.die die).walkQueue.take 1 ∧
        (t.die die).walkQueue = (s.die die).walkQueue.drop 1) ∧
      (t.die die).walkCache = s.walkKept w.ctx w.va x (s.die die).walkCache ∧
      (walkFrom s c.glob w.va x.1 x.2.1 x.2.2 = .leaf l → ∀ core ∈ w.cores,
        (t.core core).tlb.head? = some ⟨w.ctx, l⟩ ∧ (t.cluster (clusterOfCore core)).tlb.head? = some ⟨w.ctx, l⟩) ∧
      ((∀ l, walkFrom s c.glob w.va x.1 x.2.1 x.2.2 ≠ .leaf l) → t.cores = s.cores ∧ t.clusters = s.clusters)) := by
  obtain ⟨t, hexec, hnext, hkept, hleaf, hother⟩ := walkResult_reads hw hc hv hx
  exact ⟨t, hexec, hnext, hkept, hleaf l, hother⟩

/-- Settles O25: walks by what the walk cache serves, fetches by what the leaf and the trailer say. -/
theorem walksAndFetches : Obligations.WalksAndFetches := by
  refine ⟨fun s core ctx va die k w c l => ?_, fun s s1 r pc g e l reason k flip core key f => ?_⟩
  · refine ⟨pageWalk_joins, pageWalk_starts, pageWalk_queues, fun hw => ⟨fun hc hv => ⟨?_, ?_⟩, walkResult_none hw⟩⟩
    · exact walkResult_keeps l hw hc hv rfl
    · exact ⟨fun h => walkFirst_root c w.va h, fun e he hc hl hb => walkFirst_deepest c he hc hl hb⟩
  · have habsent : (s.group r = some g ∧ s.entryAt r pc = some e ∧ g.onPage = false ∧
          tblGet (s.core g.core).icache (r.key.ctx, pcLine pc) = none ∧ tblGet (s.core g.core).fetches (r.key.ctx, pcLine pc) = none) →
        FetchAbsent s r pc g e :=
      fun ⟨hg, he, hp, hi, hf⟩ => ⟨hg, he, hp, hi, hf⟩
    exact ⟨fun h => instructionFetch_sent (habsent h), fun h => instructionFetch_notCode (habsent h),
      fun h => instructionFetch_error (habsent h), fun h => instructionFetch_absent (habsent h), instructionFill_poisoned,
      fun hk hp => ⟨instructionFill_good hk hp, instructionFill_again hk hp, instructionFill_bad hk hp⟩⟩

end Sys2Proof.Machine

namespace Sys2Proof.Machine

/-! ## A command is taken (R438) -/

/-- An argument register. -/
def State.mbxArg (s : State) (j : Nat) : Word64 := (s.mbx.args[j]?).getD 0#64

/-- The doorbell rings for a command of a code, and the pair takes it. -/
structure State.Takes (s : State) (code : Nat) : Prop where
  started : s.fw.started = true
  umpire : s.fw.umpire = .running
  busy : s.mbx.busy = none
  code : s.mbx.cmd.toNat % 2 ^ 16 = code

theorem Mailbox.code_eq (cmd : Word64) : Mailbox.code cmd = cmd.toNat % 2 ^ 16 := BitVec.toNat_setWidth _ _

theorem ctxArg_eq (x : Word64) : ctxArg x = x.toNat % 2 ^ 16 := BitVec.toNat_setWidth _ _

theorem State.Takes.current {s : State} {code : Nat} (h : s.Takes code) : s.current = some (code, s.mbx.args, s.ring) := by
  rw [State.current, h.busy]
  dsimp only
  rw [if_pos h.started, Mailbox.code_eq, h.code]

/-- A command that is taken does its step in the state in which the doorbell has rung. -/
theorem State.Takes.command {s : State} {code : Nat} (h : s.Takes code) {p : (Nat → Word64) → Bool} (hp : p s.mbxArg = true)
    (f : (Nat → Word64) → State → State) : s.command code p f = .next (f s.mbxArg s.ring) := by
  have hn : ¬ (code ≠ code || !p s.mbxArg) = true := by simp [hp]
  have hu : s.ring.fw.umpire = .running := h.umpire
  rw [State.command, h.current]
  dsimp only
  rw [hu]
  exact if_neg hn

theorem State.withCtx_some {s : State} {n : Nat} {c : Ctx} (h : s.ctx n = some c) {bad : List (Nat × Bool)} (hb : ∀ x ∈ bad, x.2 = false)
    (f : Ctx → State) : s.withCtx n bad f = f c := by
  rw [State.withCtx, List.find?_eq_none.mpr fun x hx => by simp [hb x hx]]
  dsimp only
  rw [h]

theorem State.withCtx_none {s : State} {n : Nat} (h : s.ctx n = none) (f : Ctx → State) : s.withCtx n [] f = s.failed 0x03 0 := by
  rw [State.withCtx, List.find?_nil]
  dsimp only
  rw [h]

theorem State.withCtx_bad {s : State} {n k : Nat} {bad : List (Nat × Bool)} (h : bad.find? (fun x => x.2) = some (k, true))
    (f : Ctx → State) : s.withCtx n bad f = s.failed 0x02 k := by
  rw [State.withCtx, h]

/-! ## CONTEXT_CREATE (R345, R392, R439) -/

theorem firstFrom_eq_none {p : Nat → Bool} (lo n : Nat) (h : ∀ j, lo ≤ j → j < lo + n → p j = false) : firstFrom p lo n = none := by
  induction n generalizing lo with
  | zero => rfl
  | succ n ih =>
    rw [firstFrom, h lo (Nat.le_refl _) (by omega), if_neg Bool.false_ne_true]
    exact ih (lo + 1) fun j hj hlt => h j (by omega) (by omega)

theorem firstFrom_eq_some {p : Nat → Bool} {k : Nat} (hk : p k = true) (lo n : Nat) (hlo : lo ≤ k) (hn : k < lo + n)
    (h : ∀ j, lo ≤ j → j < k → p j = false) : firstFrom p lo n = some k := by
  induction n generalizing lo with
  | zero => omega
  | succ n ih =>
    rw [firstFrom]
    by_cases hlk : lo = k
    · rw [hlk, hk, if_pos rfl]
    · rw [h lo (Nat.le_refl _) (by omega), if_neg Bool.false_ne_true]
      exact ih (lo + 1) (by omega) (by omega) fun j hj hlt => h j (by omega) hlt

section
variable {s : State} {n k : Nat} {c : Ctx}

theorem createBad_ring (s : State) (a : Nat → Word64) : createBad s.ring a = createBad s a := rfl

/-- What the creation of a context comes to once the doorbell has rung. -/
def State.createOutcome (s : State) : State :=
  match (createBad s s.mbxArg).find? (fun x => x.2) with
  | some (k, _) => s.ring.failed 0x02 k
  | none => match firstFrom (fun n => (s.ctx n).isNone) 0 65536 with
    | none => s.ring.failed 0x04 1
    | some n =>
      if (newCtx s.now s.mbxArg).areaSize * 65536 < 32 * (newCtx s.now s.mbxArg).thr + (Config.dugoutNeed (newCtx s.now s.mbxArg).thr).val
      then s.ring.failed 0x04 2
      else ({ s.ring with ctxs := tblPut s.ring.ctxs n (newCtx s.now s.mbxArg) }).done [BitVec.ofNat 64 n]

theorem exec_contextCreate (h : s.Takes 0x01) : exec .contextCreate s = .next s.createOutcome := by
  rw [show exec .contextCreate s = execContextCreate s from rfl, execContextCreate, h.command rfl, createBad_ring]
  rfl

theorem createBad_find_none {a : Nat → Word64} (hb : ∀ x ∈ createBad s a, x.2 = false) : (createBad s a).find? (fun x => x.2) = none :=
  List.find?_eq_none.mpr fun x hx => by simp [hb x hx]

theorem contextCreate_made (h : s.Takes 0x01) (hb : ∀ x ∈ createBad s s.mbxArg, x.2 = false) (hn : n < 65536) (hc : s.ctx n = none)
    (hlow : ∀ j, j < n → s.ctx j ≠ none)
    (harea : 32 * ((s.mbxArg 10).toNat % 2 ^ 32) + (Config.dugoutNeed ((s.mbxArg 10).toNat % 2 ^ 32)).val ≤ (s.mbxArg 12).toNat % 2 ^ 32 * 65536) :
    Happens .contextCreate s (fun t => (t.mbx.outcome = some ([BitVec.ofNat 64 n], 0, 0) ∧ t.mbx.busy = some (s.mbx.cmd, s.mbx.args) ∧
      SameGroups s t ∧ t.blocks = s.blocks) ∧ (∀ j, j ≠ n → t.ctx j = s.ctx j) ∧ t.ctx n = some (newCtx s.now s.mbxArg)) := by
  have hfree : firstFrom (fun n => (s.ctx n).isNone) 0 65536 = some n :=
    firstFrom_eq_some (by rw [hc]; rfl) 0 65536 (Nat.zero_le _) (by omega) fun j _ hj =>
      Option.isNone_eq_false_iff.mpr (Option.isSome_iff_ne_none.mpr (hlow j hj))
  have hroom : ¬ (newCtx s.now s.mbxArg).areaSize * 65536 <
      32 * (newCtx s.now s.mbxArg).thr + (Config.dugoutNeed (newCtx s.now s.mbxArg).thr).val := by
    simp only [newCtx, BitVec.toNat_setWidth]
    exact Nat.not_lt.mpr harea
  refine ⟨({ s.ring with ctxs := tblPut s.ring.ctxs n (newCtx s.now s.mbxArg) } : State).done [BitVec.ofNat 64 n], ?_,
    ⟨rfl, rfl, sameGroups_of_eq rfl, rfl⟩, fun j hj => tblGet_tblPut_other _ _ hj, tblGet_tblPut_self _ _ _⟩
  rw [exec_contextCreate h, State.createOutcome, createBad_find_none hb, hfree]
  dsimp only
  rw [if_neg hroom]

theorem contextCreate_full (h : s.Takes 0x01) (hb : ∀ x ∈ createBad s s.mbxArg, x.2 = false) (hfull : ∀ j, j < 65536 → s.ctx j ≠ none) :
    Happens .contextCreate s (fun t => (t.mbx.outcome = some ([], 0x04, 1) ∧ t.mbx.busy = some (s.mbx.cmd, s.mbx.args) ∧
      SameGroups s t ∧ t.blocks = s.blocks) ∧ t.ctxs = s.ctxs) := by
  have hnone : firstFrom (fun n => (s.ctx n).isNone) 0 65536 = none :=
    firstFrom_eq_none 0 65536 fun j _ hj => Option.isNone_eq_false_iff.mpr (Option.isSome_iff_ne_none.mpr (hfull j (by omega)))
  refine ⟨s.ring.failed 0x04 1, ?_, ⟨rfl, rfl, sameGroups_of_eq rfl, rfl⟩, rfl⟩
  rw [exec_contextCreate h, State.createOutcome, createBad_find_none hb, hnone]

theorem contextCreate_refused (h : s.Takes 0x01) (hb : (createBad s s.mbxArg).find? (fun x => x.2) = some (k, true)) :
    Happens .contextCreate s (fun t => (t.mbx.outcome = some ([], 0x02, k) ∧ t.mbx.busy = some (s.mbx.cmd, s.mbx.args) ∧
      SameGroups s t ∧ t.blocks = s.blocks) ∧ t.ctxs = s.ctxs) := by
  refine ⟨s.ring.failed 0x02 k, ?_, ⟨rfl, rfl, sameGroups_of_eq rfl, rfl⟩, rfl⟩
  rw [exec_contextCreate h, State.createOutcome, hb]

/-! ## CONTEXT_DESTROY and CONTEXT_RESET (R392, R456) -/

/-- No block of a context is resident or saved. -/
def State.CtxIdle (s : State) (n : Nat) : Prop := (∀ x ∈ s.blocks, x.1.ctx ≠ n) ∧ ∀ x ∈ s.saved, x.1.ctx ≠ n

theorem State.CtxIdle.hasBlocks (h : s.CtxIdle n) : s.hasBlocks n = false := by
  obtain ⟨hb, hv⟩ := h
  rw [State.hasBlocks, Bool.or_eq_false_iff, List.any_eq_false, List.any_eq_false]
  exact ⟨fun x hx => by simp [hb x hx], fun x hx => by simp [hv x hx]⟩

theorem hasBlocks_of_mem {b : BlockKey × Block} (hb : b ∈ s.blocks) (hn : b.1.ctx = n) : s.hasBlocks n = true := by
  rw [State.hasBlocks, Bool.or_eq_true, List.any_eq_true]
  exact .inl ⟨b, hb, by simp [hn]⟩

/-- The resident blocks of a context terminate. -/
def State.ending (s : State) (n : Nat) : State :=
  { s with blocks := s.blocks.map (fun x => if x.1.ctx = n then (x.1, { x.2 with status := .terminating }) else x) }

theorem endBlocks_of_no_saved (h : ∀ x ∈ s.saved, x.1.ctx ≠ n) : s.endBlocks n = s.ending n := by
  have hnil : s.saved.filter (fun v => v.1.ctx == n) = [] := List.filter_eq_nil_iff.mpr fun x hx => by simp [h x hx]
  rw [State.endBlocks, hnil]
  rfl

/-- Rows of a table that are kept by their key are read as before, the others are none. -/
theorem tblGet_filter {κ α : Type} [DecidableEq κ] (t : List (κ × α)) (p : κ → Bool) (j : κ) :
    tblGet (t.filter (fun x => p x.1)) j = if p j = true then tblGet t j else none := by
  induction t with
  | nil => simp [tblGet]
  | cons x t ih =>
    rw [List.filter_cons, tblGet]
    split
    next hx =>
      rw [tblGet, ih]
      split
      next hj => rw [← hj, if_pos hx]
      next hj => rfl
    next hx =>
      rw [ih]
      split
      next hj => rw [if_neg fun hxj : x.1 = j => hx (hxj ▸ hj)]
      next => rfl

/-- What a context's end takes: queues, monitors, launches and recorder entries of that context and of no other. -/
structure State.Wiped (s t : State) (n : Nat) : Prop where
  queues : ∀ q, t.queue n q = Queue.none
  monitors : ∀ j, t.monitor n j = Monitor.fresh
  launches : ∀ x ∈ t.launches, x.2.ctx ≠ n
  recorder : ∀ x ∈ t.recorder, x.ctx ≠ n
  ctxs : ∀ j, j ≠ n → t.ctx j = s.ctx j
  others : ∀ j m q, j ≠ n → t.monitor j m = s.monitor j m ∧ t.queue j q = s.queue j q

theorem State.Wiped.all {t : State} (h : s.Wiped t n) : (∀ q, t.queue n q = Queue.none) ∧ (∀ j, t.monitor n j = Monitor.fresh) ∧
    (∀ x ∈ t.launches, x.2.ctx ≠ n) ∧ (∀ x ∈ t.recorder, x.ctx ≠ n) ∧ (∀ j, j ≠ n → t.ctx j = s.ctx j) ∧
    ∀ j m q, j ≠ n → t.monitor j m = s.monitor j m ∧ t.queue j q = s.queue j q :=
  ⟨h.queues, h.monitors, h.launches, h.recorder, h.ctxs, h.others⟩

theorem queue_wipeCtx (s : State) (n j q : Nat) : (s.wipeCtx n).queue j q = if j = n then Queue.none else s.queue j q := by
  have h := tblGet_filter s.queues (fun k => k.1 != n) (j, q)
  rw [State.queue, State.queue, tblGetD, tblGetD, show (s.wipeCtx n).queues = s.queues.filter (fun q => q.1.1 != n) from rfl, h]
  by_cases hj : j = n <;> simp [hj]

theorem monitor_wipeCtx (s : State) (n j m : Nat) : (s.wipeCtx n).monitor j m = if j = n then Monitor.fresh else s.monitor j m := by
  have h := tblGet_filter s.monitors (fun k => k.1 != n) (j, m)
  rw [State.monitor, State.monitor, tblGetD, tblGetD, show (s.wipeCtx n).monitors = s.monitors.filter (fun m => m.1.1 != n) from rfl, h]
  by_cases hj : j = n <;> simp [hj]

theorem ctx_wipeCtx (s : State) (n j : Nat) :
    (s.wipeCtx n).ctx j = if j = n then (s.ctx j).map (fun c => { c with regions := [] }) else s.ctx j :=
  tblGet_tblMod s.ctxs (fun c => { c with regions := [] }) j n

theorem wiped_wipeCtx (s : State) (n : Nat) : s.Wiped (s.wipeCtx n) n where
  queues q := by rw [queue_wipeCtx, if_pos rfl]
  monitors j := by rw [monitor_wipeCtx, if_pos rfl]
  launches x hx := by
    obtain ⟨-, h⟩ := List.mem_filter.mp (show x ∈ s.launches.filter (fun l => l.2.ctx != n) from hx)
    simpa using h
  recorder x hx := by
    obtain ⟨-, h⟩ := List.mem_filter.mp (show x ∈ s.recorder.filter (fun l => l.ctx != n) from hx)
    simpa using h
  ctxs j hj := by rw [ctx_wipeCtx, if_neg hj]
  others j m q hj := by rw [monitor_wipeCtx, queue_wipeCtx, if_neg hj, if_neg hj]; exact ⟨rfl, rfl⟩

theorem ctx_dropCtx (s : State) (n j : Nat) : (s.dropCtx n).ctx j = if j = n then none else s.ctx j := tblGet_tblDel _ _ _

theorem wiped_dropCtx (s : State) (n : Nat) : s.Wiped ((s.wipeCtx n).dropCtx n) n :=
  have h := wiped_wipeCtx s n
  { queues := h.queues, monitors := h.monitors, launches := h.launches, recorder := h.recorder
    ctxs := fun j hj => by rw [ctx_dropCtx, if_neg hj, h.ctxs j hj]
    others := h.others }

theorem contextDestroy_none (h : s.Takes 0x02) (hn : (s.mbxArg 0).toNat % 2 ^ 16 = n) (hc : s.ctx n = none) :
    Happens .contextDestroy s (fun t => t.mbx.outcome = some ([], 0x03, 0) ∧ t.mbx.busy = some (s.mbx.cmd, s.mbx.args) ∧
      SameGroups s t ∧ t.blocks = s.blocks) := by
  refine ⟨s.ring.failed 0x03 0, ?_, rfl, rfl, sameGroups_of_eq rfl, rfl⟩
  rw [show exec .contextDestroy s = execContextDestroy s from rfl, execContextDestroy, h.command rfl]
  dsimp only
  rw [ctxArg_eq, hn, State.withCtx_none (s := s.ring) hc]

theorem exec_contextDestroy (h : s.Takes 0x02) (hn : (s.mbxArg 0).toNat % 2 ^ 16 = n) (hc : s.ctx n = some c) :
    exec .contextDestroy s = .next (if s.hasBlocks n then s.ring.endBlocks n else ((s.ring.wipeCtx n).dropCtx n).done []) := by
  rw [show exec .contextDestroy s = execContextDestroy s from rfl, execContextDestroy, h.command rfl]
  dsimp only
  rw [ctxArg_eq, hn, State.withCtx_some (s := s.ring) hc (by simp)]
  rfl

theorem contextDestroy_blocks {b : BlockKey × Block} (h : s.Takes 0x02) (hn : (s.mbxArg 0).toNat % 2 ^ 16 = n) (hc : s.ctx n = some c)
    (hb : b ∈ s.blocks) (hbn : b.1.ctx = n) (hv : ∀ x ∈ s.saved, x.1.ctx ≠ n) :
    Happens .contextDestroy s (fun t => t.blocks = s.blocks.map (fun x => if x.1.ctx = n then (x.1, { x.2 with status := .terminating }) else x) ∧
      t.mbx.outcome = none ∧ t.mbx.busy = some (s.mbx.cmd, s.mbx.args) ∧ SameGroups s t) := by
  refine ⟨s.ring.ending n, ?_, rfl, rfl, rfl, sameGroups_of_eq rfl⟩
  rw [exec_contextDestroy h hn hc, if_pos (hasBlocks_of_mem hb hbn), endBlocks_of_no_saved (s := s.ring) hv]

theorem contextDestroy_idle (h : s.Takes 0x02) (hn : (s.mbxArg 0).toNat % 2 ^ 16 = n) (hc : s.ctx n = some c) (hi : s.CtxIdle n) :
    Happens .contextDestroy s (fun t => (t.mbx.outcome = some ([], 0, 0) ∧ t.mbx.busy = some (s.mbx.cmd, s.mbx.args) ∧
      SameGroups s t ∧ t.blocks = s.blocks) ∧ s.Wiped t n ∧ t.ctx n = none) := by
  have hw := wiped_dropCtx s.ring n
  refine ⟨((s.ring.wipeCtx n).dropCtx n).done [], ?_, ⟨rfl, rfl, sameGroups_of_eq rfl, rfl⟩,
    ⟨hw.queues, hw.monitors, hw.launches, hw.recorder, hw.ctxs, hw.others⟩, ?_⟩
  · rw [exec_contextDestroy h hn hc, hi.hasBlocks, if_neg Bool.false_ne_true]
  · exact (ctx_dropCtx (s.ring.wipeCtx n) n n).trans (if_pos rfl)

theorem exec_contextReset (hc : s.ctx n = some c) :
    exec (.contextReset n) s = if s.hasBlocks n then .next (s.endBlocks n) else .next (s.wipeCtx n) := by
  have hs : ¬ (s.ctx n).isNone = true := by rw [hc]; exact Bool.false_ne_true
  exact if_neg hs

theorem contextReset_idle (hc : s.ctx n = some c) (hi : s.CtxIdle n) :
    Happens (.contextReset n) s (fun t => SameGroups s t ∧ s.Wiped t n ∧ t.ctx n = some { c with regions := [] }) := by
  refine ⟨s.wipeCtx n, ?_, sameGroups_of_eq rfl, wiped_wipeCtx s n, ?_⟩
  · rw [exec_contextReset hc, hi.hasBlocks, if_neg Bool.false_ne_true]
  · rw [ctx_wipeCtx, if_pos rfl, hc, Option.map_some]

theorem contextReset_blocks {b : BlockKey × Block} (hc : s.ctx n = some c) (hb : b ∈ s.blocks) (hbn : b.1.ctx = n)
    (hv : ∀ x ∈ s.saved, x.1.ctx ≠ n) :
    Happens (.contextReset n) s (fun t =>
      t.blocks = s.blocks.map (fun x => if x.1.ctx = n then (x.1, { x.2 with status := .terminating }) else x) ∧ SameGroups s t) := by
  refine ⟨s.ending n, ?_, rfl, sameGroups_of_eq rfl⟩
  rw [exec_contextReset hc, if_pos (hasBlocks_of_mem hb hbn), endBlocks_of_no_saved hv]

/-! ## Context set (R439) -/

theorem contextSet_eq (h : s.Takes 0x03) (hn : (s.mbxArg 0).toNat % 2 ^ 16 = n) (hc : s.ctx n = some c) (hm : (s.mbxArg 1).toNat ≤ 15)
    {p : (Nat → Word64) → Bool} (hp : p s.mbxArg = true) :
    s.contextSet p = .next (if (s.mbxArg 1).getLsbD 3 && s.hasBlocks n then s.ring.failed 0x02 5
      else (s.ring.modCtx n (setItems s.mbxArg)).done []) := by
  refine (h.command hp _).trans ?_
  dsimp only
  rw [ctxArg_eq, hn, State.withCtx_some (s := s.ring) hc (by simp [hm])]
  rfl

/-- The items as their argument words give them. -/
def itemsOf (a : Nat → Word64) (c : Ctx) : Ctx := { c with
  bkpt := if (a 1).getLsbD 0 then (a 2).getLsbD 0 else c.bkpt
  recDepart := if (a 1).getLsbD 1 then (if (a 3).toNat % 2 ^ 32 = 0 then 1024#32 else (a 3).setWidth 32) else c.recDepart
  wdog := if (a 1).getLsbD 2 then (if a 4 = 0#64 then BitVec.ofNat 64 (2 ^ 30) else a 4) else c.wdog
  cmapBase := if (a 1).getLsbD 3 then a 5 else c.cmapBase }

theorem setItems_eq (a : Nat → Word64) (c : Ctx) : setItems a c = itemsOf a c := by
  have hz : (a 3).setWidth 32 = 0#32 ↔ (a 3).toNat % 2 ^ 32 = 0 := by
    rw [← BitVec.toNat_inj, BitVec.toNat_setWidth]
    rfl
  simp only [setItems, itemsOf, hz]
  rfl

theorem contextSet_done (h : s.Takes 0x03) (hn : (s.mbxArg 0).toNat % 2 ^ 16 = n) (hc : s.ctx n = some c) (hm : (s.mbxArg 1).toNat ≤ 15)
    (hi : (s.mbxArg 1).getLsbD 3 = true → s.CtxIdle n) {p : (Nat → Word64) → Bool} (hp : p s.mbxArg = true) {i : Instr}
    (he : exec i s = s.contextSet p) :
    Happens i s (fun t => (t.mbx.outcome = some ([], 0, 0) ∧ t.mbx.busy = some (s.mbx.cmd, s.mbx.args) ∧ SameGroups s t ∧ t.blocks = s.blocks) ∧
      t.ctx n = some (itemsOf s.mbxArg c) ∧ ∀ j, j ≠ n → t.ctx j = s.ctx j) := by
  have hbusy : ((s.mbxArg 1).getLsbD 3 && s.hasBlocks n) = false := by
    rw [Bool.and_eq_false_iff, ← Bool.not_eq_true, or_iff_not_imp_left, not_not]
    exact fun h3 => (hi h3).hasBlocks
  have hctx (j : Nat) : (s.ring.modCtx n (setItems s.mbxArg)).ctx j = if j = n then (s.ctx j).map (setItems s.mbxArg) else s.ctx j :=
    tblGet_tblMod _ _ _ _
  refine ⟨(s.ring.modCtx n (setItems s.mbxArg)).done [], ?_, ⟨rfl, rfl, sameGroups_of_eq rfl, rfl⟩, (hctx n).trans ?_,
    fun j hj => (hctx j).trans (if_neg hj)⟩
  · rw [he, contextSet_eq h hn hc hm hp, hbusy, if_neg Bool.false_ne_true]
  · rw [if_pos rfl, hc, Option.map_some, setItems_eq]

theorem contextSet_busy {b : BlockKey × Block} (h : s.Takes 0x03) (hn : (s.mbxArg 0).toNat % 2 ^ 16 = n) (hc : s.ctx n = some c)
    (h3 : (s.mbxArg 1).getLsbD 3 = true) (hm : (s.mbxArg 1).toNat ≤ 15) (hb : b ∈ s.blocks) (hbn : b.1.ctx = n) :
    Happens .contextSetCmapBase s (fun t => (t.mbx.outcome = some ([], 0x02, 5) ∧ t.mbx.busy = some (s.mbx.cmd, s.mbx.args) ∧
      SameGroups s t ∧ t.blocks = s.blocks) ∧ t.ctxs = s.ctxs) := by
  refine ⟨s.ring.failed 0x02 5, (contextSet_eq (p := fun a => (a 1).getLsbD 3) h hn hc hm h3).trans ?_, ⟨rfl, rfl, sameGroups_of_eq rfl, rfl⟩, rfl⟩
  rw [h3, hasBlocks_of_mem hb hbn]
  rfl

/-- Each row of a context set is the step whose item its mask selects. -/
theorem contextSet_row {i : Instr} (h : s.Takes 0x03) (hn : (s.mbxArg 0).toNat % 2 ^ 16 = n) (hc : s.ctx n = some c)
    (hm : (s.mbxArg 1).toNat ≤ 15) (hi : (s.mbxArg 1).getLsbD 3 = true → s.CtxIdle n)
    (hrow : (i = .contextSetBkpt ∧ (s.mbxArg 1).getLsbD 0 = true) ∨ (i = .contextSetRecDepart ∧ (s.mbxArg 1).getLsbD 1 = true) ∨
      (i = .contextSetWdogTicks ∧ (s.mbxArg 1).getLsbD 2 = true) ∨ (i = .contextSetCmapBase ∧ (s.mbxArg 1).getLsbD 3 = true)) :
    Happens i s (fun t => (t.mbx.outcome = some ([], 0, 0) ∧ t.mbx.busy = some (s.mbx.cmd, s.mbx.args) ∧ SameGroups s t ∧ t.blocks = s.blocks) ∧
      t.ctx n = some (itemsOf s.mbxArg c) ∧ ∀ j, j ≠ n → t.ctx j = s.ctx j) := by
  obtain ⟨rfl, hp⟩ | ⟨rfl, hp⟩ | ⟨rfl, hp⟩ | ⟨rfl, hp⟩ := hrow
  · exact contextSet_done (p := fun a => (a 1).getLsbD 0 || (a 1).setWidth 4 == 0#4) h hn hc hm hi (by rw [hp]; rfl) rfl
  · exact contextSet_done (p := fun a => (a 1).getLsbD 1) h hn hc hm hi hp rfl
  · exact contextSet_done (p := fun a => (a 1).getLsbD 2) h hn hc hm hi hp rfl
  · exact contextSet_done (p := fun a => (a 1).getLsbD 3) h hn hc hm hi hp rfl

end

end Sys2Proof.Machine

namespace Sys2Proof.Machine

/-! ## What firmware reads does not depend on the mailbox -/

theorem homeBytes_ring (s : State) (a n : Nat) : s.ring.homeBytes a n = s.homeBytes a n := by
  induction n generalizing a with
  | zero => rfl
  | succ n ih =>
    rw [State.homeBytes, State.homeBytes, ih]
    rfl

theorem tableWalk_ring (s : State) (va : Word64) (n place pfn : Nat) : tableWalk s.ring va n place pfn = tableWalk s va n place pfn := by
  induction n generalizing place pfn with
  | zero => rfl
  | succ n ih => simp only [tableWalk, homeBytes_ring, ih]

theorem scanFrame_ring (s : State) (place pa : Nat) : s.ring.scanFrame place pa = s.scanFrame place pa := by
  simp only [State.scanFrame, State.codeLine, homeBytes_ring]

theorem leafReasons_ring (s : State) (level : Nat) (x : Word64) : leafReasons s.ring level x = leafReasons s level x := rfl

/-! ## Firmware writes an entry of a table (R76, R92) -/

theorem ready_of_atHome {s : State} {a : Nat} (h : s.AtHome a) : s.ready (a / 128) = (true, s) := by
  obtain ⟨hm, hl⟩ := h
  have hn : ¬ (tblGet s.misses (a / 128)).isSome = true := by simp [hm]
  rw [State.ready, if_neg hn]
  exact if_pos (Bool.or_eq_true_iff.mpr hl)

theorem ready_of_not_atHome {s : State} {a : Nat} (h : ¬ s.AtHome a) : ∃ ms, s.ready (a / 128) = (false, { s with misses := ms }) := by
  unfold State.ready
  split
  · exact ⟨s.misses, rfl⟩
  next hm =>
    have hm' : tblGet s.misses (a / 128) = none := Option.not_isSome_iff_eq_none.mp hm
    have hl : ¬ (isHost (a / 128) || (tblGet s.lines (a / 128)).isSome) = true := fun hl => h ⟨hm', Bool.or_eq_true_iff.mp hl⟩
    rw [if_neg hl]
    split
    · exact ⟨_, rfl⟩
    · exact ⟨s.misses, rfl⟩

/-- A store at a home that is not home-only merges the line there (R95). -/
theorem applyStore_lines (s : State) (l : LineNo) (data mask : LineBits) : ∃ z : SliceLine, z.data = mergeLine (s.lineData l) data mask ∧
    (s.applyStore l data mask false false false).2 = { s with lines := tblPut s.lines l z } := by
  have hc : ¬ (isHost l && false && (tblGet s.lines l).isNone) = true := by simp
  have hx : ((tblGet s.lines l).getD (s.fromMemory l false)).data = s.lineData l := by
    cases h : tblGet s.lines l with
    | none => rw [State.lineData_of_none h]; rfl
    | some y => rw [State.lineData_of_some h]; rfl
  rw [State.applyStore, if_neg hc]
  exact ⟨_, congrArg (mergeLine · data mask) hx, rfl⟩

/-- A byte of a line that a word has been merged into. -/
theorem lineGet_mergeLine_word (old : LineBits) (x : Word64) {off i : Nat} (ho : off + 8 ≤ 128) (hi : i < 8) :
    lineGet (mergeLine old (BitVec.ofNat 1024 (leNat (leBytes 8 x.toNat) * 2 ^ (8 * off))) (byteMask off 8)) (off + i) =
      (x >>> (8 * i)).setWidth 8 := by
  have hx : leNat (leBytes 8 x.toNat) = x.toNat := by
    rw [leNat_leBytes]
    exact Nat.mod_eq_of_lt x.isLt
  refine BitVec.eq_of_getLsbD_eq fun j hj => ?_
  have hin : 8 * (off + i) + j < 1024 := by omega
  have hle : 8 * off ≤ 8 * (off + i) + j := by omega
  have hsub : 8 * (off + i) + j - 8 * off = 8 * i + j := by omega
  have hlow : 8 * i + j < 64 := by omega
  have hmask : (byteMask off 8).getLsbD (8 * (off + i) + j) = true := by
    rw [byteMask, BitVec.getLsbD_ofNat, Nat.testBit_mul_two_pow, hsub, Nat.testBit_two_pow_sub_one]
    simp [hin, hle, hlow]
  have hval : (BitVec.ofNat 1024 (x.toNat * 2 ^ (8 * off))).getLsbD (8 * (off + i) + j) = x.getLsbD (8 * i + j) := by
    rw [BitVec.getLsbD_ofNat, Nat.testBit_mul_two_pow, hsub, BitVec.testBit_toNat]
    simp [hin, hle]
  rw [lineGet, mergeLine, hx]
  simp [hj, hmask, hval]

/-! ## MAP_CODE_PAGE (R56 to R58) -/

section
variable {s : State} {n entry : Nat} {c : Ctx}

/-- The place of the frame that a leaf names, and its first byte there. -/
def leafPlace (leaf : Word64) : Nat := leaf.toNat / 2 ^ 10 % 8
def leafPa (leaf : Word64) : Nat := leaf.toNat / 2 ^ 32 * 65536

theorem leafPlace_eq (leaf : Word64) : (leaf.extractLsb' 10 3).toNat = leafPlace leaf := by
  rw [BitVec.extractLsb'_toNat, Nat.shiftRight_eq_div_pow]
  rfl

theorem leafPa_eq (leaf : Word64) : (leaf.extractLsb' 32 32).toNat * 65536 = leafPa leaf := by
  have hlt : leaf.toNat / 2 ^ 32 < 2 ^ 32 := by omega
  rw [BitVec.extractLsb'_toNat, Nat.shiftRight_eq_div_pow, leafPa, Nat.mod_eq_of_lt hlt]

/-- The arguments name a page, a leaf of an executable page and an entry for it, in a frame that is not marked. -/
structure MapLegal (s : State) (c : Ctx) (va leaf : Word64) (entry : Nat) : Prop where
  page : va.toNat % 65536 = 0
  canonical : canonical va = true
  present : leaf.getLsbD 0 = true
  isLeaf : leaf.getLsbD 4 = true
  executable : leaf.getLsbD 3 = true
  reasons : firstReason (leafReasons s 3 leaf) = none
  table : tableWalk s va 2 c.rootPlace c.rootPfn = some entry
  unmarked : tblGet s.codeFrames (frameOf (leafPlace leaf) (leafPa leaf)) = none

/-- What such a command comes to by the scan of its frame. -/
def State.mapOutcome (s : State) (n entry : Nat) (va leaf : Word64) : State :=
  match s.scanFrame (leafPlace leaf) (leafPa leaf) with
  | none => s.ring.installLeaf n va leaf entry (frameOf (leafPlace leaf) (leafPa leaf))
  | some (line, slot, r) =>
    (s.ring.modCtx n (fun c => { c with rejects := c.rejects.push ⟨va, n, line, slot, r.reason, r.detail⟩ })).failed 0x05 r.reason.toNat

theorem mapOutcome_none {va leaf : Word64} (h : s.scanFrame (leafPlace leaf) (leafPa leaf) = none) :
    s.mapOutcome n entry va leaf = s.ring.installLeaf n va leaf entry (frameOf (leafPlace leaf) (leafPa leaf)) := by
  unfold State.mapOutcome
  rw [h]

theorem mapOutcome_some {va leaf : Word64} {line slot : Nat} {r : Reject}
    (h : s.scanFrame (leafPlace leaf) (leafPa leaf) = some (line, slot, r)) : s.mapOutcome n entry va leaf =
      (s.ring.modCtx n (fun c => { c with rejects := c.rejects.push ⟨va, n, line, slot, r.reason, r.detail⟩ })).failed 0x05 r.reason.toNat := by
  unfold State.mapOutcome
  rw [h]

theorem exec_mapCodePage (h : s.Takes 0x10) (hn : (s.mbxArg 0).toNat % 2 ^ 16 = n) (hc : s.ctx n = some c)
    (hl : MapLegal s c (s.mbxArg 1) (s.mbxArg 2) entry) :
    exec .mapCodePage s = .next (s.mapOutcome n entry (s.mbxArg 1) (s.mbxArg 2)) := by
  have hmarked : tblGet s.ring.codeFrames (frameOf (leafPlace (s.mbxArg 2)) (leafPa (s.mbxArg 2))) = none := hl.unmarked
  rw [show exec .mapCodePage s = execMapCodePage s from rfl, execMapCodePage, h.command rfl]
  dsimp only
  rw [ctxArg_eq, hn, State.withCtx_some (s := s.ring) hc
    (by simp [hl.page, hl.canonical, hl.present, hl.isLeaf, hl.executable, leafReasons_ring, hl.reasons]), tableWalk_ring, hl.table]
  dsimp only
  rw [leafPlace_eq, leafPa_eq, scanFrame_ring, hmarked, if_neg (by simp)]
  unfold State.mapOutcome
  rcases s.scanFrame (leafPlace (s.mbxArg 2)) (leafPa (s.mbxArg 2)) with _ | ⟨line, slot, r⟩ <;> rfl

theorem mapCodePage_installs (h : s.Takes 0x10) (hn : (s.mbxArg 0).toNat % 2 ^ 16 = n) (hc : s.ctx n = some c)
    (hl : MapLegal s c (s.mbxArg 1) (s.mbxArg 2) entry)
    (hscan : s.scanFrame (leafPlace (s.mbxArg 2)) (leafPa (s.mbxArg 2)) = none) (h8 : entry % 8 = 0) (hp : isPeer (entry / 128) = false)
    (hh : s.AtHome entry) : Happens .mapCodePage s (fun t =>
      (t.mbx.outcome = some ([], 0, 0) ∧ t.mbx.busy = some (s.mbx.cmd, s.mbx.args)) ∧ SameGroups s t ∧
        tblGet t.codeFrames (frameOf (leafPlace (s.mbxArg 2)) (leafPa (s.mbxArg 2))) = some [(n, s.mbxArg 1)] ∧
        ∀ i, i < 8 → t.homeByte (entry + i) = (s.mbxArg 2 >>> (8 * i)).setWidth 8) := by
  have hready : s.ring.ready (entry / 128) = (true, s.ring) := ready_of_atHome (s := s.ring) hh
  obtain ⟨z, hz, hstore⟩ := applyStore_lines s.ring (entry / 128)
    (BitVec.ofNat 1024 (leNat (leBytes 8 (s.mbxArg 2).toNat) * 2 ^ (8 * (entry % 128)))) (byteMask (entry % 128) 8)
  refine ⟨({ s.ring with
    lines := tblPut s.ring.lines (entry / 128) z
    codeFrames := tblPut s.ring.codeFrames (frameOf (leafPlace (s.mbxArg 2)) (leafPa (s.mbxArg 2))) [(n, s.mbxArg 1)] } : State).done [], ?_,
    ⟨rfl, rfl⟩, sameGroups_of_eq rfl, tblGet_tblPut_self _ _ _, fun i hi => ?_⟩
  · have hold : tblGetD s.ring.codeFrames (frameOf (leafPlace (s.mbxArg 2)) (leafPa (s.mbxArg 2))) [] = [] := by
      rw [tblGetD, show s.ring.codeFrames = s.codeFrames from rfl, hl.unmarked]
      rfl
    rw [exec_mapCodePage h hn hc hl, mapOutcome_none hscan]
    rw [State.installLeaf, State.firmPut]
    dsimp only
    rw [if_neg (by simp [hp]), hready]
    dsimp only
    rw [leBytes_length, hstore]
    dsimp only
    rw [hold]
    rfl
  · have hdiv : (entry + i) / 128 = entry / 128 := by omega
    have hmod : (entry + i) % 128 = entry % 128 + i := by omega
    have hbyte (t : State) (hlines : t.lines = tblPut s.ring.lines (entry / 128) z) (hmem : t.mem = s.ring.mem) :
        t.homeByte (entry + i) = (s.mbxArg 2 >>> (8 * i)).setWidth 8 := by
      rw [homeByte_wrote (lineData_tblPut hlines hmem), if_pos hdiv, hz, hmod, lineGet_mergeLine_word _ _ (by omega) hi]
    exact hbyte _ rfl rfl

theorem mapCodePage_waits (h : s.Takes 0x10) (hn : (s.mbxArg 0).toNat % 2 ^ 16 = n) (hc : s.ctx n = some c)
    (hl : MapLegal s c (s.mbxArg 1) (s.mbxArg 2) entry)
    (hscan : s.scanFrame (leafPlace (s.mbxArg 2)) (leafPa (s.mbxArg 2)) = none) (hp : isPeer (entry / 128) = false)
    (hh : ¬ s.AtHome entry) : Happens .mapCodePage s (fun t =>
      (t.mbx.outcome = none ∧ t.mbx.busy = some (s.mbx.cmd, s.mbx.args)) ∧ SameGroups s t ∧ SameBytes s t ∧ t.codeFrames = s.codeFrames) := by
  obtain ⟨ms, hready⟩ := ready_of_not_atHome (s := s.ring) hh
  refine ⟨{ s.ring with misses := ms }, ?_, ⟨rfl, rfl⟩, sameGroups_of_eq rfl, sameBytes_of_eq rfl rfl, rfl⟩
  rw [exec_mapCodePage h hn hc hl, mapOutcome_none hscan]
  rw [State.installLeaf, State.firmPut]
  dsimp only
  rw [if_neg (by simp [hp]), hready]

theorem mapCodePage_rejected (h : s.Takes 0x10) (hn : (s.mbxArg 0).toNat % 2 ^ 16 = n) (hc : s.ctx n = some c)
    (hl : MapLegal s c (s.mbxArg 1) (s.mbxArg 2) entry) {line slot : Nat} {rj : Reject}
    (hscan : s.scanFrame (leafPlace (s.mbxArg 2)) (leafPa (s.mbxArg 2)) = some (line, slot, rj)) : Happens .mapCodePage s (fun t =>
      (t.mbx.outcome = some ([], 0x05, rj.reason.toNat) ∧ t.mbx.busy = some (s.mbx.cmd, s.mbx.args)) ∧ SameGroups s t ∧ SameBytes s t ∧
        t.codeFrames = s.codeFrames ∧ ∃ y, t.ctx n = some y ∧ y.rejects = c.rejects.push ⟨s.mbxArg 1, n, line, slot, rj.reason, rj.detail⟩) := by
  refine ⟨(s.ring.modCtx n (fun c => { c with rejects := c.rejects.push ⟨s.mbxArg 1, n, line, slot, rj.reason, rj.detail⟩ })).failed 0x05
    rj.reason.toNat, ?_, ⟨rfl, rfl⟩, sameGroups_of_eq rfl, sameBytes_of_eq rfl rfl, rfl,
    { c with rejects := c.rejects.push ⟨s.mbxArg 1, n, line, slot, rj.reason, rj.detail⟩ }, ?_, rfl⟩
  · rw [exec_mapCodePage h hn hc hl, mapOutcome_some hscan]
  · refine (tblGet_tblMod s.ctxs
      (fun c => { c with rejects := c.rejects.push ⟨s.mbxArg 1, n, line, slot, rj.reason, rj.detail⟩ }) n n).trans ?_
    rw [if_pos rfl, show tblGet s.ctxs n = some c from hc, Option.map_some]

theorem mapCodePage_unaligned (h : s.Takes 0x10) (hva : (s.mbxArg 1).toNat % 65536 ≠ 0) :
    Happens .mapCodePage s (fun t => (t.mbx.outcome = some ([], 0x02, 1) ∧ t.mbx.busy = some (s.mbx.cmd, s.mbx.args)) ∧
      t.codeFrames = s.codeFrames) := by
  refine ⟨s.ring.failed 0x02 1, ?_, ⟨rfl, rfl⟩, rfl⟩
  rw [show exec .mapCodePage s = execMapCodePage s from rfl, execMapCodePage, h.command rfl]
  dsimp only
  rw [State.withCtx_bad (k := 1) (by simp [hva])]

end

/-! ## SHOOTDOWN (R83 to R86) -/

theorem Range84.meets_iff (r : Range84) (ctx va n : Nat) :
    r.meets ctx va n = true ↔ (r.all = true ∨ ctx = r.ctx) ∧ va < r.lo + r.len ∧ r.lo < va + n := by
  simp only [Range84.meets, Range84.has, Bool.and_eq_true, Bool.or_eq_true, beq_iff_eq, decide_eq_true_eq, and_assoc]

/-- A core once a shootdown has taken what is of its range. -/
def Range84.shotCore (r : Range84) (c : Core) : Core := { c with
  tlb := c.tlb.filter (fun e => !r.leaf e.ctx e.leaf)
  icache := c.icache.filter (fun l => !r.meets l.1.1 l.1.2.toNat 64)
  fetches := c.fetches.filter (fun l => !r.meets l.1.1 l.1.2.toNat 64)
  buffer := c.buffer.map (fun b => if r.meets b.ctx b.va.toNat 128 then { b with retrans := true } else b) }

/-- A cluster's and a die's share of it. -/
def Range84.shotCluster (r : Range84) (c : Cluster) : Cluster := { c with tlb := c.tlb.filter (fun e => !r.leaf e.ctx e.leaf) }
def Range84.shotDie (r : Range84) (d : Die) : Die :=
  { d with walkCache := d.walkCache.filter (fun e => !r.meets e.ctx e.base.toNat (leafSize e.level)) }

/-- A table whose rows are changed alike, with a change that keeps the row that none has. -/
theorem tblGetD_map_row {κ α : Type} [DecidableEq κ] (t : List (κ × α)) (f : α → α) {d : α} (hd : f d = d) (k : κ) :
    tblGetD (t.map (fun x => (x.1, f x.2))) k d = f (tblGetD t k d) := by
  rw [tblGetD, tblGetD, tblGet_map t (fun x => (x.1, f x.2)) (fun _ => rfl)]
  cases tblGet t k with
  | none => exact hd.symm
  | some v => rfl

theorem core_shoot (s : State) (r : Range84) (j : Nat) : (s.shoot r).core j = r.shotCore (s.core j) :=
  tblGetD_map_row s.cores r.shotCore rfl j

theorem cluster_shoot (s : State) (r : Range84) (j : Nat) : (s.shoot r).cluster j = r.shotCluster (s.cluster j) :=
  tblGetD_map_row s.clusters r.shotCluster rfl j

theorem die_shoot (s : State) (r : Range84) (j : Nat) : (s.shoot r).die j = r.shotDie (s.die j) :=
  tblGetD_map_row s.dies r.shotDie rfl j

/-- A list without what a test holds of. -/
theorem mem_filter_not {α : Type} {l : List α} {p : α → Bool} {q : α → Prop} (h : ∀ e, p e = true ↔ q e) (e : α) :
    e ∈ l.filter (fun e => !p e) ↔ e ∈ l ∧ ¬ q e := by
  rw [List.mem_filter, ← h, Bool.not_eq_true, Bool.not_eq_eq_eq_not, Bool.not_true]

section
variable {s : State} {n : Nat} {c : Ctx}

/-- The range that the arguments of a shootdown give. -/
def State.shotRange (s : State) (n : Nat) : Range84 := ⟨(s.mbxArg 0).setWidth 32 == 0xFFFFFFFF#32, n, (s.mbxArg 1).toNat, (s.mbxArg 2).toNat⟩

theorem shotRange_all (s : State) (n : Nat) : (s.shotRange n).all = true ↔ (s.mbxArg 0).toNat % 2 ^ 32 = 2 ^ 32 - 1 := by
  rw [State.shotRange]
  dsimp only
  rw [beq_iff_eq, ← BitVec.toNat_inj, BitVec.toNat_setWidth]
  rfl

theorem shotRange_meets (s : State) (n ctx va size : Nat) : (s.shotRange n).meets ctx va size = true ↔
    ((s.mbxArg 0).toNat % 2 ^ 32 = 2 ^ 32 - 1 ∨ ctx = n) ∧ va < (s.mbxArg 1).toNat + (s.mbxArg 2).toNat ∧ (s.mbxArg 1).toNat < va + size := by
  rw [Range84.meets_iff, shotRange_all]
  rfl

/-- The entries of the range have gone, and the lines filled through them. -/
structure Shot (s t : State) (r : Range84) : Prop where
  coreTlb : ∀ j e, e ∈ (t.core j).tlb ↔ e ∈ (s.core j).tlb ∧ ¬ r.leaf e.ctx e.leaf = true
  clusterTlb : ∀ j e, e ∈ (t.cluster j).tlb ↔ e ∈ (s.cluster j).tlb ∧ ¬ r.leaf e.ctx e.leaf = true
  walkCache : ∀ j e, e ∈ (t.die j).walkCache ↔ e ∈ (s.die j).walkCache ∧ ¬ r.meets e.ctx e.base.toNat (leafSize e.level) = true
  icache : ∀ j, ∀ e ∈ (t.core j).icache, ¬ r.meets e.1.1 e.1.2.toNat 64 = true
  buffer : ∀ j, ∀ e ∈ (t.core j).buffer, r.meets e.ctx e.va.toNat 128 = true → e.retrans = true

theorem shot_shoot (s : State) (r : Range84) : Shot s (s.shoot r) r where
  coreTlb j e := by
    rw [core_shoot]
    exact mem_filter_not (fun _ => Iff.rfl) e
  clusterTlb j e := by
    rw [cluster_shoot]
    exact mem_filter_not (fun _ => Iff.rfl) e
  walkCache j e := by
    rw [die_shoot]
    exact mem_filter_not (p := fun e : WalkEntry => r.meets e.ctx e.base.toNat (leafSize e.level)) (fun _ => Iff.rfl) e
  icache j e he := by
    rw [core_shoot] at he
    obtain ⟨-, h⟩ := List.mem_filter.mp he
    simpa using h
  buffer j e he := by
    rw [core_shoot] at he
    obtain ⟨b, -, rfl⟩ := List.mem_map.mp he
    split
    · exact fun _ => rfl
    next hb => exact fun h => absurd h hb

theorem shootdown_begins (h : s.Takes 0x11) (hn : (s.mbxArg 0).toNat % 2 ^ 16 = n) (hc : s.ctx n = some c)
    (h1 : (s.mbxArg 1).toNat % 65536 = 0) (h2 : (s.mbxArg 2).toNat % 65536 = 0) : Happens .shootdown s (fun t =>
      t.mbx.outcome = none ∧ t.mbx.begun = true ∧ t.mbx.mark = s.nextId ∧ SameGroups s t ∧ SameBytes s t ∧ Shot s t (s.shotRange n)) := by
  have hshot := shot_shoot s.ring (s.shotRange n)
  refine ⟨{ s.ring.shoot (s.shotRange n) with mbx := { s.ring.mbx with begun := true } }, ?_, rfl, rfl, rfl, sameGroups_of_eq rfl,
    sameBytes_of_eq rfl rfl, hshot.coreTlb, hshot.clusterTlb, hshot.walkCache, hshot.icache, hshot.buffer⟩
  rw [show exec .shootdown s = execShootdown s from rfl, execShootdown, h.command rfl]
  dsimp only
  rw [ctxArg_eq, hn, if_neg (not_not_intro h1), if_neg (not_not_intro h2), State.withCtx_some (s := s.ring) hc (by simp), ite_self]
  rfl

/-- The command that the mailbox holds is under way. -/
theorem command_under_way {code : Nat} (hb : s.mbx.busy = some (s.mbx.cmd, s.mbx.args)) (ho : s.mbx.outcome = none)
    (hcode : s.mbx.cmd.toNat % 2 ^ 16 = code) (hu : s.fw.umpire = .running) {p : (Nat → Word64) → Bool} (hp : p s.mbxArg = true)
    (f : (Nat → Word64) → State → State) : s.command code p f = .next (f s.mbxArg s) := by
  have hcur : s.current = some (code, s.mbx.args, s) := by
    rw [State.current, hb, ho]
    exact congrArg (fun k => some (k, s.mbx.args, s)) ((Mailbox.code_eq _).trans hcode)
  have hn : ¬ (code ≠ code || !p s.mbxArg) = true := by simp [hp]
  rw [State.command, hcur]
  dsimp only
  rw [hu]
  exact if_neg hn

theorem shootdown_goes_on (hu : s.fw.umpire = .running) (hb : s.mbx.busy = some (s.mbx.cmd, s.mbx.args)) (ho : s.mbx.outcome = none)
    (hbegun : s.mbx.begun = true) (hcode : s.mbx.cmd.toNat % 2 ^ 16 = 0x11) (hn : (s.mbxArg 0).toNat % 2 ^ 16 = n) (hc : s.ctx n = some c)
    (h1 : (s.mbxArg 1).toNat % 65536 = 0) (h2 : (s.mbxArg 2).toNat % 65536 = 0) (hall : ¬ (s.mbxArg 0).toNat % 2 ^ 32 = 2 ^ 32 - 1) :
    Happens .shootdown s (fun t => if s.shotPending ⟨false, n, (s.mbxArg 1).toNat, (s.mbxArg 2).toNat⟩ s.mbx.mark then t = s
      else (t.mbx.outcome = some ([], 0, 0) ∧ t.mbx.busy = some (s.mbx.cmd, s.mbx.args)) ∧ SameGroups s t ∧ SameBytes s t) := by
  have hfalse : ((s.mbxArg 0).setWidth 32 == 0xFFFFFFFF#32) = false :=
    Bool.eq_false_iff.mpr fun hall' => hall ((shotRange_all s n).mp hall')
  have hexec : exec .shootdown s = .next (if s.shotPending ⟨false, n, (s.mbxArg 1).toNat, (s.mbxArg 2).toNat⟩ s.mbx.mark then s
      else (s.unmark ⟨false, n, (s.mbxArg 1).toNat, (s.mbxArg 2).toNat⟩).done []) := by
    rw [show exec .shootdown s = execShootdown s from rfl, execShootdown, command_under_way hb ho hcode hu rfl]
    dsimp only
    rw [ctxArg_eq, hn, if_neg (not_not_intro h1), if_neg (not_not_intro h2), State.withCtx_some hc (by simp), ite_self, hbegun, hfalse]
    rfl
  refine ⟨_, hexec, ?_⟩
  split
  · rfl
  · exact ⟨⟨rfl, hb⟩, sameGroups_of_eq rfl, sameBytes_of_eq rfl rfl⟩

/-! ## FAULT_RESOLVE (R82) -/

theorem mem_of_tblGet {κ α : Type} [DecidableEq κ] {t : List (κ × α)} {k : κ} {v : α} (h : tblGet t k = some v) : (k, v) ∈ t := by
  induction t with
  | nil => exact absurd h nofun
  | cons x t ih =>
    rw [tblGet] at h
    split at h
    next hk => exact List.mem_cons.mpr (.inl (Prod.ext hk.symm (Option.some.inj h).symm))
    next => exact List.mem_cons_of_mem _ (ih h)

/-- The groups that a fault record names are resolved. -/
def State.resolved (s : State) (n core grp time : Nat) : State :=
  { s with groups := s.groups.map (fun (x : GroupRef × Group) =>
      if x.1.key.ctx == n && x.1.grp == grp && isParkedAt x.2 core time then
        (x.1, { x.2 with parked := x.2.parked.map (fun (p : Parked) => { p with resolved := true }) }) else x) }

theorem group_resolved (s : State) (n core grp time : Nat) (r : GroupRef) : (s.resolved n core grp time).group r =
    (s.group r).map (fun g => if r.key.ctx == n && r.grp == grp && isParkedAt g core time then
      { g with parked := g.parked.map (fun (p : Parked) => { p with resolved := true }) } else g) := by
  refine (tblGet_map s.groups _ (fun x => ?_) r).trans (congrArg (Option.map · (s.group r)) (funext fun g => ?_))
  · split <;> rfl
  · dsimp only
    split <;> rfl

theorem isParkedAt_of {g : Group} {p : Parked} (hp : g.parked = some p) (hr : p.resolved = false) : isParkedAt g g.core p.time = true := by
  simp [isParkedAt, hp, hr]

theorem faultArg_core (x : Word64) : (x.extractLsb' 16 10).toNat = x.toNat / 2 ^ 16 % 2 ^ 10 := by
  rw [BitVec.extractLsb'_toNat, Nat.shiftRight_eq_div_pow]

theorem faultArg_grp (x : Word64) : (x.setWidth 6).toNat = x.toNat % 2 ^ 6 := BitVec.toNat_setWidth _ _

theorem faultResolve_group {r : GroupRef} {g : Group} {p : Parked} (h : s.Takes 0x12) (hn : (s.mbxArg 0).toNat % 2 ^ 16 = n)
    (hc : s.ctx n = some c) (hg : s.group r = some g) (hp : g.parked = some p) (hr : p.resolved = false) (hctx : r.key.ctx = n)
    (hgrp : r.grp = (s.mbxArg 1).toNat % 2 ^ 6) (hcore : g.core = (s.mbxArg 1).toNat / 2 ^ 16 % 2 ^ 10) (htime : p.time = (s.mbxArg 2).toNat) :
    Happens .faultResolve s (fun t => (t.mbx.outcome = some ([], 0, 0) ∧ t.mbx.busy = some (s.mbx.cmd, s.mbx.args)) ∧ SameBytes s t ∧
      t.group r = some { g with parked := some { p with resolved := true } }) := by
  have hat : isParkedAt g g.core p.time = true := isParkedAt_of hp hr
  have hhere : (r.key.ctx == n && r.grp == r.grp && isParkedAt g g.core p.time) = true := by rw [hat, hctx]; simp
  have hany : s.groups.any (fun x => x.1.key.ctx == n && x.1.grp == r.grp && isParkedAt x.2 g.core p.time) = true :=
    List.any_eq_true.mpr ⟨(r, g), mem_of_tblGet hg, hhere⟩
  have hgroup := group_resolved s.ring n g.core r.grp p.time r
  rw [show s.ring.group r = some g from hg, Option.map_some, if_pos hhere, hp, Option.map_some] at hgroup
  have hexec : ∃ cs, exec .faultResolve s = .next (({ s.ring.resolved n g.core r.grp p.time with cores := cs } : State).done []) := by
    rw [show exec .faultResolve s = execFaultResolve s from rfl, execFaultResolve, h.command rfl]
    dsimp only
    rw [ctxArg_eq, hn, faultArg_core, faultArg_grp, ← hgrp, ← hcore, ← htime, State.withCtx_some (s := s.ring) hc (by simp),
      show s.ring.groups = s.groups from rfl, hany]
    rw [if_neg (by simp)]
    split
    · exact ⟨_, rfl⟩
    · exact ⟨s.cores, rfl⟩
  obtain ⟨cs, hexec⟩ := hexec
  exact ⟨_, hexec, ⟨rfl, rfl⟩, sameBytes_of_eq rfl rfl, hgroup⟩

theorem faultResolve_none (h : s.Takes 0x12) (hn : (s.mbxArg 0).toNat % 2 ^ 16 = n) (hc : s.ctx n = some c) (hg : s.groups = [])
    (hv : s.saved = []) (hs : (s.core ((s.mbxArg 1).toNat / 2 ^ 16 % 2 ^ 10)).slots = []) :
    Happens .faultResolve s (fun t => t.mbx.outcome = some ([], 0x07, 0) ∧ t.mbx.busy = some (s.mbx.cmd, s.mbx.args)) := by
  have hs' : (s.ring.core ((s.mbxArg 1).toNat / 2 ^ 16 % 2 ^ 10)).slots = [] := hs
  refine ⟨s.ring.failed 0x07 0, ?_, rfl, rfl⟩
  rw [show exec .faultResolve s = execFaultResolve s from rfl, execFaultResolve, h.command rfl]
  dsimp only
  rw [ctxArg_eq, hn, faultArg_core, State.withCtx_some (s := s.ring) hc (by simp), hs', show s.ring.groups = s.groups from rfl,
    show s.ring.saved = s.saved from rfl, hg, hv]
  rfl

end

/-- Settles O43: contexts by what their table and blocks allow, code pages by their scan, a shootdown by what its range holds. -/
theorem contextAndCodeCommands : Obligations.ContextAndCodeCommands := by
  refine ⟨fun s n k c b i => ?_, fun s n line slot entry rj c r g p => ?_⟩
  · have takes {code : Nat} (h : s.fw.started = true ∧ s.fw.umpire = .running ∧ s.mbx.busy = none ∧ s.mbx.cmd.toNat % 2 ^ 16 = code) :
        s.Takes code := let ⟨hs, hu, hb, hc⟩ := h; ⟨hs, hu, hb, hc⟩
    refine ⟨fun ht hb => ⟨contextCreate_made (takes ht) hb, contextCreate_full (takes ht) hb⟩, fun ht => contextCreate_refused (takes ht),
      fun ht => contextDestroy_none (takes ht), fun ht => contextDestroy_blocks (takes ht), fun ht hn hc hi => ?_, fun hc hi => ?_,
      contextReset_blocks, fun ht => contextSet_row (takes ht), fun ht => contextSet_busy (takes ht)⟩
    · obtain ⟨t, hexec, ha, hw, hnone⟩ := contextDestroy_idle (takes ht) hn hc hi
      exact ⟨t, hexec, ha, hw.all, hnone⟩
    · obtain ⟨t, hexec, hg, hw, hnone⟩ := contextReset_idle hc hi
      exact ⟨t, hexec, hg, hw.all, hnone⟩
  · have takes {code : Nat} (h : (s.fw.started = true ∧ s.fw.umpire = .running) ∧ s.mbx.busy = none ∧ s.mbx.cmd.toNat % 2 ^ 16 = code) :
        s.Takes code := let ⟨⟨hs, hu⟩, hb, hc⟩ := h; ⟨hs, hu, hb, hc⟩
    have legal {va leaf : Word64} (h : va.toNat % 65536 = 0 ∧ canonical va = true ∧ leaf.getLsbD 0 = true ∧ leaf.getLsbD 4 = true ∧
        leaf.getLsbD 3 = true ∧ firstReason (leafReasons s 3 leaf) = none ∧ tableWalk s va 2 c.rootPlace c.rootPfn = some entry ∧
        tblGet s.codeFrames (frameOf (leafPlace leaf) (leafPa leaf)) = none) : MapLegal s c va leaf entry :=
      let ⟨hp, hv, h0, h4, h3, hr, ht, hf⟩ := h
      ⟨hp, hv, h0, h4, h3, hr, ht, hf⟩
    refine ⟨fun ht ⟨hn, hc⟩ hl hs _ h8 hp => ⟨mapCodePage_installs (takes ht) hn hc (legal hl) hs h8 hp,
        mapCodePage_waits (takes ht) hn hc (legal hl) hs hp⟩,
      fun ht ⟨hn, hc⟩ hl => mapCodePage_rejected (takes ht) hn hc (legal hl), fun ht _ => mapCodePage_unaligned (takes ht),
      fun ht ⟨hn, hc⟩ ⟨h1, h2⟩ => ?_, fun ⟨_, hu⟩ hb ho hbegun hcode ⟨hn, hc⟩ ⟨h1, h2⟩ => shootdown_goes_on hu hb ho hbegun hcode hn hc h1 h2,
      fun ht ⟨hn, hc⟩ => faultResolve_group (takes ht) hn hc, fun ht ⟨hn, hc⟩ => faultResolve_none (takes ht) hn hc⟩
    obtain ⟨t, hexec, ho, hbegun, hm, hg, hb, hshot⟩ := shootdown_begins (takes ht) hn hc h1 h2
    refine ⟨t, hexec, ho, hbegun, hm, hg, hb, ?_⟩
    have hmeets := shotRange_meets s n
    exact ⟨fun j e => (hshot.coreTlb j e).trans (and_congr_right' (not_congr (hmeets _ _ _))),
      fun j e => (hshot.clusterTlb j e).trans (and_congr_right' (not_congr (hmeets _ _ _))),
      fun j e => (hshot.walkCache j e).trans (and_congr_right' (not_congr (hmeets _ _ _))),
      fun j e he hh => hshot.icache j e he ((hmeets _ _ _).mpr hh),
      fun j e he hh => hshot.buffer j e he ((hmeets _ _ _).mpr hh)⟩

end Sys2Proof.Machine

namespace Sys2Proof.Machine

/-! ## Registers (R437, R438) -/

section
variable {s : State} {off bytes : Nat} {val cmd : Word64} {args res : List Word64} {status detail : Nat}

/-- An aligned 64-bit access that lies in the BAR. -/
abbrev BarFits (off : Nat) : Prop := off % 8 = 0 ∧ off + 8 ≤ 65536

theorem barAccess_iff (off bytes : Nat) : barAccess off bytes = true ↔ BarFits off ∧ bytes = 8 := by
  simp only [barAccess, BarFits, Bool.and_eq_true, beq_iff_eq, decide_eq_true_eq]
  tauto

theorem unsupportedAccess_counts : Happens (.unsupportedAccess off bytes) s (fun t =>
    t = if BarFits off ∧ bytes = 8 then s else { s with mbx := { s.mbx with unsupported := s.mbx.unsupported + 1 } }) := by
  by_cases h : BarFits off ∧ bytes = 8
  · exact ⟨s, if_pos ((barAccess_iff off bytes).mpr h), (if_pos h).symm⟩
  · exact ⟨_, if_neg fun hb => h ((barAccess_iff off bytes).mp hb), (if_neg h).symm⟩

theorem registerWrite_none (h : s.fw.started = false ∨ ¬ BarFits off) : Happens (.registerWrite off val) s (fun t => t = s) := by
  refine ⟨s, if_pos ?_, rfl⟩
  rw [Bool.or_eq_true, Bool.not_eq_true', Bool.not_eq_true', Bool.eq_false_iff, Ne, barAccess_iff]
  exact h.symm.imp_left fun h hb => h hb.1

/-- An access within the BAR once firmware has started is the register's. -/
theorem exec_registerWrite (h : s.fw.started = true) (hoff : BarFits off) : exec (.registerWrite off val) s =
    if off = 0x08 then .next { s with mbx := { s.mbx with cmd := val &&& 0xFFFF00000000FFFF#64 } }
    else if off = 0x20 then .next { s with mbx := { s.mbx with en := val.getLsbD 0, pend := s.mbx.pend && !val.getLsbD 1 } }
    else if 0x100 ≤ off ∧ off < 0x200 then .next { s with mbx := { s.mbx with args := s.mbx.args.set ((off - 0x100) / 8) val } }
    else .next s := by
  refine if_neg ?_
  rw [(barAccess_iff off 8).mpr ⟨hoff, rfl⟩, h]
  exact Bool.false_ne_true

theorem registerWrite_cmd (h : s.fw.started = true) :
    Happens (.registerWrite 0x08 val) s (fun t => t = { s with mbx := { s.mbx with cmd := val &&& 0xFFFF00000000FFFF#64 } }) :=
  ⟨_, exec_registerWrite h ⟨rfl, by decide⟩, rfl⟩

theorem registerWrite_irq (h : s.fw.started = true) : Happens (.registerWrite 0x20 val) s (fun t =>
    t = { s with mbx := { s.mbx with en := val.getLsbD 0, pend := s.mbx.pend && !val.getLsbD 1 } }) :=
  ⟨_, exec_registerWrite h ⟨rfl, by decide⟩, rfl⟩

theorem registerWrite_arg (h : s.fw.started = true) (ho : off < 32) : Happens (.registerWrite (0x100 + 8 * off) val) s (fun t =>
    t = { s with mbx := { s.mbx with args := s.mbx.args.set off val } }) := by
  have hindex : (0x100 + 8 * off - 0x100) / 8 = off := by omega
  refine ⟨_, ?_, rfl⟩
  rw [exec_registerWrite h ⟨by omega, by omega⟩, if_neg (by omega), if_neg (by omega), if_pos (by omega), hindex]

theorem pendClear_clears (h : s.fw.started = true) : Happens .pendClear s (fun t => t = { s with mbx := { s.mbx with pend := false } }) :=
  ⟨_, if_pos h, rfl⟩

theorem doorbellDiscard_busy (h : s.fw.started = true) (hb : s.mbx.busy = some (cmd, args)) :
    Happens .doorbellDiscard s (fun t => t = { s with mbx := { s.mbx with lost := true } }) :=
  ⟨_, if_pos (by rw [h, hb]; rfl), rfl⟩

theorem doorbellDiscard_free (hb : s.mbx.busy = none) : Happens .doorbellDiscard s (fun t => t = s) :=
  ⟨s, if_neg (by rw [hb]; simp), rfl⟩

theorem unknownCommand_fails (h : s.fw.started = true) (hb : s.mbx.busy = none) (hk : s.mbx.cmd.toNat % 2 ^ 16 ∉ commandCodes)
    (hu : s.fw.umpire = .running) : Happens .unknownCommand s (fun t => t.mbx.outcome = some ([], 1, 0) ∧
      t.mbx.busy = some (s.mbx.cmd, s.mbx.args) ∧ SameGroups s t ∧ t.ctxs = s.ctxs) := by
  have hcode : ¬ commandCodes.contains (s.mbx.cmd.toNat % 2 ^ 16) = true := by rwa [List.contains_iff_mem]
  have hu' : s.ring.fw.umpire = .running := hu
  refine ⟨s.ring.failed 0x01 0, ?_, rfl, rfl, sameGroups_of_eq rfl, rfl⟩
  rw [show exec .unknownCommand s = execUnknownCommand s from rfl, execUnknownCommand, State.Takes.current ⟨h, hu, hb, rfl⟩]
  dsimp only
  rw [if_neg hcode, hu']

theorem toNat_bool_mul (b : Bool) (n : Nat) : b.toNat * n = if b = true then n else 0 := by
  cases b
  · exact Nat.zero_mul n
  · exact Nat.one_mul n

theorem fieldsNat_nil : fieldsNat [] = 0 := rfl

theorem fieldsNat_cons (a k : Nat) (l : List (Nat × Nat)) : fieldsNat ((a, k) :: l) = a * 2 ^ k + fieldsNat l := List.sum_cons

theorem command_top (cmd : Word64) : (cmd.extractLsb' 48 16).toNat = cmd.toNat / 2 ^ 48 := by
  have hlt : cmd.toNat / 2 ^ 48 < 2 ^ 16 := by omega
  rw [BitVec.extractLsb'_toNat, Nat.shiftRight_eq_div_pow, Nat.mod_eq_of_lt hlt]

theorem commandCompletion_ends (hb : s.mbx.busy = some (cmd, args)) (ho : s.mbx.outcome = some (res, status, detail)) (hr : res.length ≤ 32) :
    Happens .commandCompletion s (fun t => t = if s.fw.umpire ≠ .running then s else { s with mbx := { s.mbx with
      res := res ++ List.replicate (32 - res.length) 0#64
      stat := BitVec.ofNat 64 (cmd.toNat / 2 ^ 48 * 2 ^ 48 + cmd.toNat % 2 ^ 16 * 2 ^ 32 + detail * 2 ^ 16 + (if s.mbx.lost then 2 ^ 9 else 0) +
        status)
      busy := none, outcome := none, lost := false, pend := true, interrupts := s.mbx.interrupts + (if s.mbx.en then 1 else 0) } }) := by
  have hstat : fieldsNat [((cmd.extractLsb' 48 16).toNat, 48), (Mailbox.code cmd, 32), (detail, 16), (s.mbx.lost.toNat, 9), (status, 0)] =
      cmd.toNat / 2 ^ 48 * 2 ^ 48 + cmd.toNat % 2 ^ 16 * 2 ^ 32 + detail * 2 ^ 16 + (if s.mbx.lost then 2 ^ 9 else 0) + status := by
    rw [command_top, Mailbox.code_eq, ← toNat_bool_mul]
    simp only [fieldsNat_cons, fieldsNat_nil, pow_zero, Nat.mul_one, Nat.add_zero, Nat.add_assoc]
  have hen : s.mbx.en.toNat = if s.mbx.en then 1 else 0 := by rw [← toNat_bool_mul, Nat.mul_one]
  by_cases hu : s.fw.umpire = .running
  · refine ⟨_, ?_, (if_neg (not_not_intro hu)).symm⟩
    rw [show exec .commandCompletion s = execCommandCompletion s from rfl, execCommandCompletion, hb, ho, hu]
    dsimp only
    rw [hstat, hen, resultWords, List.take_of_length_le hr]
  · refine ⟨s, ?_, (if_pos hu).symm⟩
    rw [show exec .commandCompletion s = execCommandCompletion s from rfl, execCommandCompletion, hb, ho]
    cases h : s.fw.umpire with
    | running => exact absurd h hu
    | resetting => rfl
    | switching since => rfl

end

/-! ## Logs (R58, R412, R413) -/

section
variable {s : State} {n : Nat} {c : Ctx}

/-- What the read of a log comes to by what the log holds. -/
def State.rejectOutcome (s : State) (n : Nat) (c : Ctx) : State :=
  match c.rejects.pop with
  | none => s.ring.failed 0x06 0
  | some (r, ovf, l) => (s.ring.modCtx n (fun c => { c with rejects := l })).done (r.words ovf)

def State.faultOutcome (s : State) (n : Nat) (c : Ctx) : State :=
  match c.faults.pop with
  | none => s.ring.failed 0x06 0
  | some (r, ovf, l) => (s.ring.modCtx n (fun c => { c with faults := l })).done (r.words ovf)

theorem exec_logReadReject (h : s.Takes 0x40) (hn : (s.mbxArg 0).toNat % 2 ^ 16 = n) (hc : s.ctx n = some c) (ha : s.mbxArg 1 = 0#64) :
    exec .logReadReject s = .next (s.rejectOutcome n c) := by
  rw [show exec .logReadReject s = execLogReadReject s from rfl, execLogReadReject, h.command (by rw [ha]; rfl)]
  dsimp only
  rw [ctxArg_eq, hn, State.withCtx_some (s := s.ring) hc (by simp [ha])]
  rfl

theorem exec_logReadFault (h : s.Takes 0x40) (hn : (s.mbxArg 0).toNat % 2 ^ 16 = n) (hc : s.ctx n = some c) (ha : s.mbxArg 1 = 1#64) :
    exec .logReadFault s = .next (s.faultOutcome n c) := by
  rw [show exec .logReadFault s = execLogReadFault s from rfl, execLogReadFault, h.command (by rw [ha]; rfl)]
  dsimp only
  rw [ctxArg_eq, hn, State.withCtx_some (s := s.ring) hc (by simp)]
  rfl

/-- The record of a context that a command has changed. -/
theorem ctx_ring_modCtx (hc : s.ctx n = some c) (f : Ctx → Ctx) : (s.ring.modCtx n f).ctx n = some (f c) := by
  refine (tblGet_tblMod s.ctxs f n n).trans ?_
  rw [if_pos rfl, show tblGet s.ctxs n = some c from hc, Option.map_some]

/-- A flag at its bit. -/
def flagAt (x : Bool) (k : Nat) : Nat := if x then 2 ^ k else 0

theorem rejectWords_eq (r : RejectRec) (ovf : Bool) : r.words ovf = [BitVec.ofNat 64 (r.ctx * 2 ^ 48 + r.line * 2 ^ 38 + r.slot * 2 ^ 35 +
    flagAt ovf 34 + r.reason.toNat * 2 ^ 24 + r.detail.toNat * 2 ^ 16), r.page] := by
  rw [RejectRec.words, flagAt, ← toNat_bool_mul]
  simp only [fieldsNat_cons, fieldsNat_nil, Nat.add_zero, Nat.add_assoc]

theorem faultWords_eq (r : FaultRec) (ovf : Bool) : r.words ovf = [0#64, 0#64, 0#64,
    BitVec.ofNat 64 (r.ctx * 2 ^ 48 + r.core * 2 ^ 38 + r.grp * 2 ^ 32 + r.info.code.byte.toNat * 2 ^ 24 + r.info.reason.toNat * 2 ^ 16 +
      r.kind.code * 2 ^ 14 + flagAt ovf 13 + r.info.fb.getD 0xFF),
    BitVec.ofNat 64 (r.info.mask.toNat * 2 ^ 32 + r.blk), BitVec.ofNat 64 r.time, r.info.pc, r.info.addr] := by
  rw [FaultRec.words, flagAt, ← toNat_bool_mul]
  simp only [fieldsNat_cons, fieldsNat_nil, Nat.add_zero, Nat.add_assoc, pow_zero, Nat.mul_one]

theorem logReadReject_record {rj : RejectRec} {rjs : List RejectRec} (h : s.Takes 0x40) (hn : (s.mbxArg 0).toNat % 2 ^ 16 = n)
    (hc : s.ctx n = some c) (ha : s.mbxArg 1 = 0#64) (hl : c.rejects.recs = rj :: rjs) : Happens .logReadReject s (fun t =>
      (t.mbx.outcome = some ([BitVec.ofNat 64 (rj.ctx * 2 ^ 48 + rj.line * 2 ^ 38 + rj.slot * 2 ^ 35 + flagAt c.rejects.ovf 34 +
          rj.reason.toNat * 2 ^ 24 + rj.detail.toNat * 2 ^ 16), rj.page], 0, 0) ∧ t.mbx.busy = some (s.mbx.cmd, s.mbx.args) ∧ SameGroups s t) ∧
        t.ctx n = some { c with rejects := ⟨rjs, false⟩ }) := by
  refine ⟨(s.ring.modCtx n (fun c => { c with rejects := ⟨rjs, false⟩ })).done (rj.words c.rejects.ovf), ?_,
    ⟨congrArg (fun ws => some (ws, 0, 0)) (rejectWords_eq rj c.rejects.ovf), rfl, sameGroups_of_eq rfl⟩,
    ctx_ring_modCtx hc (fun c => { c with rejects := ⟨rjs, false⟩ })⟩
  rw [exec_logReadReject h hn hc ha, State.rejectOutcome, Log.pop, hl]

theorem logReadReject_empty (h : s.Takes 0x40) (hn : (s.mbxArg 0).toNat % 2 ^ 16 = n)
    (hc : s.ctx n = some c) (ha : s.mbxArg 1 = 0#64) (hl : c.rejects.recs = []) : Happens .logReadReject s (fun t =>
      (t.mbx.outcome = some ([], 0x06, 0) ∧ t.mbx.busy = some (s.mbx.cmd, s.mbx.args) ∧ SameGroups s t) ∧ t.ctxs = s.ctxs) := by
  refine ⟨s.ring.failed 0x06 0, ?_, ⟨rfl, rfl, sameGroups_of_eq rfl⟩, rfl⟩
  rw [exec_logReadReject h hn hc ha, State.rejectOutcome, Log.pop, hl]

theorem logReadFault_record {fr : FaultRec} {frs : List FaultRec} (h : s.Takes 0x40) (hn : (s.mbxArg 0).toNat % 2 ^ 16 = n)
    (hc : s.ctx n = some c) (ha : s.mbxArg 1 = 1#64) (hl : c.faults.recs = fr :: frs) : Happens .logReadFault s (fun t =>
      (t.mbx.outcome = some ([0#64, 0#64, 0#64,
          BitVec.ofNat 64 (fr.ctx * 2 ^ 48 + fr.core * 2 ^ 38 + fr.grp * 2 ^ 32 + fr.info.code.byte.toNat * 2 ^ 24 +
            fr.info.reason.toNat * 2 ^ 16 + fr.kind.code * 2 ^ 14 + flagAt c.faults.ovf 13 + fr.info.fb.getD 0xFF),
          BitVec.ofNat 64 (fr.info.mask.toNat * 2 ^ 32 + fr.blk), BitVec.ofNat 64 fr.time, fr.info.pc, fr.info.addr], 0, 0) ∧
        t.mbx.busy = some (s.mbx.cmd, s.mbx.args) ∧ SameGroups s t) ∧ t.ctx n = some { c with faults := ⟨frs, false⟩ }) := by
  refine ⟨(s.ring.modCtx n (fun c => { c with faults := ⟨frs, false⟩ })).done (fr.words c.faults.ovf), ?_,
    ⟨congrArg (fun ws => some (ws, 0, 0)) (faultWords_eq fr c.faults.ovf), rfl, sameGroups_of_eq rfl⟩,
    ctx_ring_modCtx hc (fun c => { c with faults := ⟨frs, false⟩ })⟩
  rw [exec_logReadFault h hn hc ha, State.faultOutcome, Log.pop, hl]

theorem logReadFault_empty (h : s.Takes 0x40) (hn : (s.mbxArg 0).toNat % 2 ^ 16 = n)
    (hc : s.ctx n = some c) (ha : s.mbxArg 1 = 1#64) (hl : c.faults.recs = []) : Happens .logReadFault s (fun t =>
      (t.mbx.outcome = some ([], 0x06, 0) ∧ t.mbx.busy = some (s.mbx.cmd, s.mbx.args) ∧ SameGroups s t) ∧ t.ctxs = s.ctxs) := by
  refine ⟨s.ring.failed 0x06 0, ?_, ⟨rfl, rfl, sameGroups_of_eq rfl⟩, rfl⟩
  rw [exec_logReadFault h hn hc ha, State.faultOutcome, Log.pop, hl]

theorem logReadFaultBuffer_entry {e : FbEntry} (h : s.Takes 0x40) (hn : (s.mbxArg 0).toNat % 2 ^ 16 = n) (hc : s.ctx n = some c)
    (ha : s.mbxArg 1 = 2#64) (hk : (s.mbxArg 2).toNat < 64) (he : tblGet c.fbuf (s.mbxArg 2).toNat = some e) :
    Happens .logReadFaultBuffer s (fun t => (t.mbx.outcome = some ([e.va, e.mask.setWidth 64, e.mask.extractLsb' 64 64, 0#64] ++
        (List.range 16).map (fun k => e.data.extractLsb' (64 * k) 64), 0, 0) ∧ t.mbx.busy = some (s.mbx.cmd, s.mbx.args) ∧ SameGroups s t) ∧
      ∃ y, t.ctx n = some y ∧ tblGet y.fbuf (s.mbxArg 2).toNat = none) := by
  refine ⟨(s.ring.modCtx n (fun c => { c with fbuf := tblDel c.fbuf (s.mbxArg 2).toNat })).done e.words, ?_,
    ⟨rfl, rfl, sameGroups_of_eq rfl⟩, { c with fbuf := tblDel c.fbuf (s.mbxArg 2).toNat },
    ctx_ring_modCtx hc (fun c => { c with fbuf := tblDel c.fbuf (s.mbxArg 2).toNat }), ?_⟩
  · rw [show exec .logReadFaultBuffer s = execLogReadFaultBuffer s from rfl, execLogReadFaultBuffer, h.command (by rw [ha]; rfl)]
    dsimp only
    rw [ctxArg_eq, hn, State.withCtx_some (s := s.ring) hc (by simp [hk]), he]
  · rw [tblGet_tblDel, if_pos rfl]

theorem logReadFaultBuffer_range (h : s.Takes 0x40) (ha : s.mbxArg 1 = 2#64) (hk : 64 ≤ (s.mbxArg 2).toNat) :
    Happens .logReadFaultBuffer s (fun t => (t.mbx.outcome = some ([], 0x02, 2) ∧ t.mbx.busy = some (s.mbx.cmd, s.mbx.args) ∧
      SameGroups s t) ∧ t.ctxs = s.ctxs) := by
  refine ⟨s.ring.failed 0x02 2, ?_, ⟨rfl, rfl, sameGroups_of_eq rfl⟩, rfl⟩
  rw [show exec .logReadFaultBuffer s = execLogReadFaultBuffer s from rfl, execLogReadFaultBuffer, h.command (by rw [ha]; rfl)]
  dsimp only
  rw [State.withCtx_bad (k := 2) (by simp [hk])]

/-! ## Updates of firmware (R447, R448) -/

theorem updateWrite_writes (h : s.Takes 0x50) (hoff : (s.mbxArg 0).toNat % 4096 = 0)
    (hend : (s.mbxArg 1).toNat + (s.mbxArg 2).toNat ≤ 0xF00000000000) (h1 : 1 ≤ (s.mbxArg 2).toNat) (h2 : (s.mbxArg 2).toNat ≤ 2 ^ 20) :
    Happens .updateWrite s (fun t => (t.mbx.outcome = some ([], 0, 0) ∧ t.mbx.busy = some (s.mbx.cmd, s.mbx.args) ∧ SameGroups s t) ∧
      t.fw.verified = false ∧ t.fw.activeB = s.fw.activeB ∧ t.fw.bank t.fw.activeB = s.fw.bank s.fw.activeB ∧
      t.fw.idleBank = Memory.writeL s.fw.idleBank (s.mbxArg 0).toNat (s.homeBytes (2 ^ 54 + (s.mbxArg 1).toNat) (s.mbxArg 2).toNat)) := by
  have hend' : ¬ peerBase < (s.mbxArg 1).toNat + (s.mbxArg 2).toNat := Nat.not_lt.mpr hend
  let bank := Memory.writeL s.fw.idleBank (s.mbxArg 0).toNat (s.homeBytes (2 ^ 54 + (s.mbxArg 1).toNat) (s.mbxArg 2).toNat)
  refine ⟨({ s.ring with fw := { s.fw with
      bankA := if s.fw.activeB then bank else s.fw.bankA
      bankB := if s.fw.activeB then s.fw.bankB else bank
      verified := false } } : State).done [], ?_, ⟨rfl, rfl, sameGroups_of_eq rfl⟩, rfl, rfl, ?_, ?_⟩
  · rw [show exec .updateWrite s = execUpdateWrite s from rfl, execUpdateWrite, h.command rfl]
    dsimp only
    rw [if_neg (not_not_intro hoff), if_neg hend', if_neg (by omega), homeBytes_ring]
    rfl
  · cases hb : s.fw.activeB <;> simp [State.done, State.outcome, Firmware.bank, hb]
  · cases hb : s.fw.activeB <;> simp [State.done, State.outcome, Firmware.idleBank, Firmware.bank, hb, bank]

theorem updateWrite_unaligned (h : s.Takes 0x50) (hoff : (s.mbxArg 0).toNat % 4096 ≠ 0) : Happens .updateWrite s (fun t =>
    (t.mbx.outcome = some ([], 0x02, 0) ∧ t.mbx.busy = some (s.mbx.cmd, s.mbx.args) ∧ SameGroups s t) ∧ t.fw = s.fw) := by
  refine ⟨s.ring.failed 0x02 0, ?_, ⟨rfl, rfl, sameGroups_of_eq rfl⟩, rfl⟩
  rw [show exec .updateWrite s = execUpdateWrite s from rfl, execUpdateWrite, h.command rfl]
  exact congrArg Host.Outcome.next (if_pos hoff)

theorem exec_updateVerify (h : s.Takes 0x51) : exec .updateVerify s = .next (
    if Config.signatureValid s.fw.idleBank = false then s.ring.failed 0x05 1
    else if Config.securityVersion s.fw.idleBank < Config.fusedMinimum then s.ring.failed 0x05 2
    else ({ s.ring with fw := { s.fw with
      verified := true, measurements := s.fw.measurements ++ [Config.measurement s.fw.idleBank] } } : State).done []) := by
  rw [show exec .updateVerify s = execUpdateVerify s from rfl, execUpdateVerify, h.command rfl]
  simp only [Bool.not_eq_true']
  rfl

theorem updateVerify_answers (h : s.Takes 0x51) : Happens .updateVerify s (fun t =>
    if Config.signatureValid s.fw.idleBank = false then
      (t.mbx.outcome = some ([], 0x05, 1) ∧ t.mbx.busy = some (s.mbx.cmd, s.mbx.args) ∧ SameGroups s t) ∧ t.fw = s.fw
    else if Config.securityVersion s.fw.idleBank < Config.fusedMinimum then
      (t.mbx.outcome = some ([], 0x05, 2) ∧ t.mbx.busy = some (s.mbx.cmd, s.mbx.args) ∧ SameGroups s t) ∧ t.fw = s.fw
    else (t.mbx.outcome = some ([], 0, 0) ∧ t.mbx.busy = some (s.mbx.cmd, s.mbx.args) ∧ SameGroups s t) ∧
      t.fw = { s.fw with verified := true, measurements := s.fw.measurements ++ [Config.measurement s.fw.idleBank] }) := by
  refine ⟨_, exec_updateVerify h, ?_⟩
  split
  · exact ⟨⟨rfl, rfl, sameGroups_of_eq rfl⟩, rfl⟩
  · split
    · exact ⟨⟨rfl, rfl, sameGroups_of_eq rfl⟩, rfl⟩
    · exact ⟨⟨rfl, rfl, sameGroups_of_eq rfl⟩, rfl⟩

theorem updateActivate_begins (h : s.Takes 0x52) : Happens .updateActivate s (fun t =>
    if s.fw.verified then t.mbx.outcome = none ∧ t.fw = { s.fw with umpire := .switching s.now }
    else (t.mbx.outcome = some ([], 0x05, 1) ∧ t.mbx.busy = some (s.mbx.cmd, s.mbx.args) ∧ SameGroups s t) ∧ t.fw = s.fw) := by
  have hexec : exec .updateActivate s = .next (if s.fw.verified then { s.ring with fw := { s.fw with umpire := .switching s.now } }
      else s.ring.failed 0x05 1) := by
    rw [show exec .updateActivate s = execUpdateActivate s from rfl, execUpdateActivate, h.umpire]
    exact h.command rfl _
  refine ⟨_, hexec, ?_⟩
  split
  · exact ⟨rfl, rfl⟩
  · exact ⟨⟨rfl, rfl, sameGroups_of_eq rfl⟩, rfl⟩

theorem updateActivate_ends {since : Nat} (hu : s.fw.umpire = .switching since) (hb : s.mbx.busy = some (s.mbx.cmd, s.mbx.args))
    (ho : s.mbx.outcome = none) : Happens .updateActivate s (fun t =>
      if Config.selfTest s.fw.idleBank = true ∧ s.now < since + 10000000 then
        (t.mbx.outcome = some ([], 0, 0) ∧ t.mbx.busy = some (s.mbx.cmd, s.mbx.args) ∧ SameGroups s t) ∧
          t.fw = { s.fw with activeB := !s.fw.activeB, verified := false, umpire := .running }
      else t = s) := by
  rw [Happens, show exec .updateActivate s = execUpdateActivate s from rfl, execUpdateActivate, hu, hb, ho]
  dsimp only
  by_cases h : Config.selfTest s.fw.idleBank = true ∧ s.now < since + 10000000
  · have ht : (Config.selfTest s.fw.idleBank && decide (s.now < since + selfTestTicks)) = true := by
      rw [Bool.and_eq_true, decide_eq_true_eq]
      exact h
    rw [if_pos ht]
    exact ⟨_, rfl, by rw [if_pos h]; exact ⟨⟨rfl, hb, sameGroups_of_eq rfl⟩, rfl⟩⟩
  · have ht : ¬ (Config.selfTest s.fw.idleBank && decide (s.now < since + selfTestTicks)) = true := by
      rw [Bool.and_eq_true, decide_eq_true_eq]
      exact h
    rw [if_neg ht]
    exact ⟨_, rfl, by rw [if_neg h]⟩

/-! ## Telemetry records (R440, R449) -/

theorem telemetry_ring (s : State) (schema : Nat) : s.ring.telemetry schema = s.telemetry schema := by
  have hb : s.ring.recordBody schema = s.recordBody schema := by
    unfold State.recordBody
    split <;> rfl
  rw [State.telemetry, State.telemetry, hb]
  rfl

theorem telemetry_none (s : State) {schema : Nat} (h : 5 < schema) : s.telemetry schema = none := by
  obtain ⟨k, rfl⟩ := Nat.exists_eq_add_of_lt h
  rw [State.telemetry, show 5 + k + 1 = k + 6 by omega]
  rfl

/-- Words of eight bytes each. -/
def recordWords (bs : List Byte) : List Word64 := (List.range ((bs.length + 7) / 8)).map (fun k => leBits 64 ((bs.drop (8 * k)).take 8))

/-- A word of a piece of a record. -/
theorem recordWords_piece (r : List Byte) (off : Nat) {k : Nat} (hk : 8 * k + 8 ≤ min 256 (r.length - off)) :
    (recordWords ((r.drop off).take 256))[k]? = some (leBits 64 ((r.drop (off + 8 * k)).take 8)) := by
  have hlen : ((r.drop off).take 256).length = min 256 (r.length - off) := by rw [List.length_take, List.length_drop]
  have hin : k < (min 256 (r.length - off) + 7) / 8 := by omega
  have h8 : min 8 (256 - 8 * k) = 8 := by omega
  rw [recordWords, hlen, List.getElem?_map, List.getElem?_range hin, Option.map_some, List.drop_take, List.take_take, List.drop_drop, h8]

theorem recordRead_piece {r : List Byte} (h : s.Takes 0x60) (hoff : (s.mbxArg 1).toNat ≠ 0)
    (ht : s.telemetry ((s.mbxArg 0).toNat % 2 ^ 16) = some r) (h8 : (s.mbxArg 1).toNat % 8 = 0) (hlt : (s.mbxArg 1).toNat < r.length) :
    Happens .recordRead s (fun t => ∃ ws, (t.mbx.outcome = some (ws, 0, min 256 (r.length - (s.mbxArg 1).toNat)) ∧
        t.mbx.busy = some (s.mbx.cmd, s.mbx.args) ∧ SameGroups s t) ∧
      ∀ k, 8 * k + 8 ≤ min 256 (r.length - (s.mbxArg 1).toNat) →
        ws[k]? = some (leBits 64 ((r.drop ((s.mbxArg 1).toNat + 8 * k)).take 8))) := by
  refine ⟨s.ring.outcome (recordWords ((r.drop (s.mbxArg 1).toNat).take 256)) 0 (min 256 (r.length - (s.mbxArg 1).toNat)), ?_,
    recordWords ((r.drop (s.mbxArg 1).toNat).take 256), ⟨rfl, rfl, sameGroups_of_eq rfl⟩, fun k hk => recordWords_piece r _ hk⟩
  rw [show exec .recordRead s = execRecordRead s from rfl, execRecordRead, h.command rfl]
  dsimp only
  rw [if_neg hoff, BitVec.toNat_setWidth, telemetry_ring, ht]
  dsimp only
  rw [if_neg (by omega), recordWords, List.length_take, List.length_drop]

theorem recordRead_none (h : s.Takes 0x60) (hk : 5 < (s.mbxArg 0).toNat % 2 ^ 16) : Happens .recordRead s (fun t =>
    t.mbx.outcome = some ([], 0x02, 0) ∧ t.mbx.busy = some (s.mbx.cmd, s.mbx.args) ∧ SameGroups s t) := by
  refine ⟨s.ring.failed 0x02 0, ?_, rfl, rfl, sameGroups_of_eq rfl⟩
  rw [show exec .recordRead s = execRecordRead s from rfl, execRecordRead, h.command rfl]
  dsimp only
  rw [BitVec.toNat_setWidth, telemetry_none _ hk]

end

/-- Settles O45: registers and the end of a command by the mailbox's state; logs, updates and records by what they hold. -/
theorem mailboxLogsAndUpdates : Obligations.MailboxLogsAndUpdates := by
  refine ⟨fun s off bytes val cmd args res status detail => ?_, fun s n since c rj rjs fr frs e r => ?_⟩
  · exact ⟨unsupportedAccess_counts, registerWrite_none, fun h => ⟨registerWrite_cmd h, registerWrite_irq h, registerWrite_arg h,
      pendClear_clears h, doorbellDiscard_busy h, doorbellDiscard_free, fun hb => unknownCommand_fails h hb⟩,
      fun hb ho hr _ _ => commandCompletion_ends hb ho hr⟩
  · have takes {code : Nat} (h : s.fw.started = true ∧ s.fw.umpire = .running ∧ s.mbx.busy = none ∧ s.mbx.cmd.toNat % 2 ^ 16 = code) :
        s.Takes code := let ⟨hs, hu, hb, hc⟩ := h; ⟨hs, hu, hb, hc⟩
    exact ⟨fun ht ⟨hn, hc⟩ => logReadReject_record (takes ht) hn hc, fun ht ⟨hn, hc⟩ => logReadReject_empty (takes ht) hn hc,
      fun ht ⟨hn, hc⟩ => logReadFault_record (takes ht) hn hc, fun ht ⟨hn, hc⟩ => logReadFault_empty (takes ht) hn hc,
      fun ht ⟨hn, hc⟩ => logReadFaultBuffer_entry (takes ht) hn hc, fun ht _ => logReadFaultBuffer_range (takes ht),
      fun ht => updateWrite_writes (takes ht), fun ht => updateWrite_unaligned (takes ht), fun ht => updateVerify_answers (takes ht),
      fun ht => updateActivate_begins (takes ht), updateActivate_ends, fun ht => recordRead_piece (takes ht),
      fun ht => recordRead_none (takes ht)⟩

end Sys2Proof.Machine

namespace Sys2Proof.Machine

/-! ## Masks and the lists of their threads -/

theorem mask_ext {a b : Mask} (h : ∀ t : Tid, a.getLsbD t.val = b.getLsbD t.val) : a = b :=
  BitVec.eq_of_getLsbD_eq fun i hi => h ⟨i, hi⟩

theorem getLsbD_bitOf (t u : Tid) : (bitOf t).getLsbD u.val = decide (t = u) := by
  have ht := t.isLt
  have hu := u.isLt
  rw [bitOf, BitVec.getLsbD_shiftLeft, BitVec.getLsbD_one, Bool.eq_iff_iff]
  simp [Fin.ext_iff]
  omega

/-- The bits gathered from the elements of a list that satisfy a test. -/
theorem getLsbD_foldl_bitOf {α : Type} (p : α → Bool) (f : α → Tid) (l : List α) (m : Mask) (t : Tid) :
    (l.foldl (fun m x => if p x then m ||| bitOf (f x) else m) m).getLsbD t.val =
      (m.getLsbD t.val || l.any (fun x => p x && decide (f x = t))) := by
  induction l generalizing m with
  | nil => simp
  | cons x l ih =>
    rw [List.foldl_cons, ih, List.any_cons]
    cases p x with
    | false => rfl
    | true => rw [if_pos rfl, BitVec.getLsbD_or, getLsbD_bitOf, Bool.true_and, Bool.or_assoc]

theorem getLsbD_maskOf (p : Tid → Bool) (t : Tid) : (maskOf p).getLsbD t.val = p t := by
  have h := getLsbD_foldl_bitOf p id (List.finRange 32) 0#32 t
  rw [BitVec.getLsbD_zero, Bool.false_or] at h
  refine h.trans ?_
  rw [Bool.eq_iff_iff, List.any_eq_true]
  simp

theorem maskTids_maskOf (p : Tid → Bool) : maskTids (maskOf p) = (List.finRange 32).filter p := by
  simp only [maskTids, getLsbD_maskOf]

theorem maskOf_maskTids (k : Mask) : maskOf (fun t => (maskTids k).contains t) = k := by
  refine mask_ext fun t => ?_
  rw [getLsbD_maskOf, Bool.eq_iff_iff, List.contains_iff_mem, mem_maskTids]

theorem maskTids_eq_nil {k : Mask} : maskTids k = [] ↔ k = 0#32 := by
  refine ⟨fun h => mask_ext fun t => ?_, fun h => by rw [h]; rfl⟩
  have hn : ¬ k.getLsbD t.val = true := fun ht => List.not_mem_nil (h ▸ mem_maskTids.mpr ht)
  rw [BitVec.getLsbD_zero, Bool.eq_false_of_not_eq_true hn]

theorem accessTids_sublist (vec : Bool) (act : Mask) : (accessTids vec act).Sublist (List.finRange 32) := by
  cases vec
  · exact (List.take_sublist 1 _).trans List.filter_sublist
  · exact List.filter_sublist

theorem nodup_accessTids (vec : Bool) (act : Mask) : (accessTids vec act).Nodup :=
  (List.nodup_finRange 32).sublist (accessTids_sublist vec act)

/-- The threads that access come in ascending order. -/
theorem filter_accessTids (vec : Bool) (act : Mask) (p : Tid → Bool) :
    (accessTids vec act).filter p = maskTids (maskOf (fun t => decide (t ∈ accessTids vec act) && p t)) := by
  have hsub := (accessTids_sublist vec act).filter (fun t => decide (t ∈ accessTids vec act) && p t)
  rw [maskTids_maskOf, ← hsub.eq_of_length, List.filter_congr fun t ht => ?_]
  · simp [ht]
  · refine ((List.perm_ext_iff_of_nodup ((nodup_accessTids vec act).filter _) ((List.nodup_finRange 32).filter _)).mpr fun t => ?_).length_eq
    simp

/-- The lowest thread of a mask. -/
def lowestTid (k : Mask) : Tid := (maskTids k).headD 0

/-! ## The checks of an access (R81, R110, R347) -/

/-- The accessing threads whose address is misaligned. -/
def Iss.misaligned (e : Iss) (vec : Bool) (align : Nat) (addr : Tid → Word64) : Mask :=
  maskOf (fun t => decide (t ∈ accessTids vec e.act) && decide ((addr t).toNat % align ≠ 0))

theorem Iss.filter_misaligned (e : Iss) (vec : Bool) (align : Nat) (addr : Tid → Word64) :
    (accessTids vec e.act).filter (fun t => (addr t).toNat % align != 0) = maskTids (e.misaligned vec align addr) := by
  rw [filter_accessTids, Iss.misaligned]
  simp only [bne, beq_eq_decide, ne_eq, decide_not]

theorem Iss.checks_misaligned {e : Iss} {vec : Bool} {align : Nat} {addr : Tid → Word64} (h : e.misaligned vec align addr ≠ 0#32)
    (need : Need) : e.checks vec align need addr = .stop (e.fault .misaligned
      (if vec then e.misaligned vec align addr else e.act) (addr (lowestTid (e.misaligned vec align addr)))) := by
  obtain ⟨t, l, hl⟩ := List.exists_cons_of_ne_nil (mt maskTids_eq_nil.mp h)
  have hm := maskOf_maskTids (e.misaligned vec align addr)
  rw [hl] at hm
  unfold Iss.checks
  simp only [Iss.filter_misaligned, hl, hm, lowestTid, List.headD_cons]

/-- Aligned addresses are translated; the first fault of R81 is raised. -/
theorem Iss.checks_xlatFault {e : Iss} {vec : Bool} {align : Nat} {addr : Tid → Word64} (h : e.misaligned vec align addr = 0#32)
    {need : Need} {res : List (Tid × XlatResult) × State}
    (hx : e.s.xlateAll e.g.core e.r.key.ctx need addr false (accessTids vec e.act) = res)
    {code : FaultCode} {k : Mask} {reason : Byte} (hf : xlatFault need res.1 = some (code, k, reason)) :
    e.checks vec align need addr = .stop ({ e with s := res.2 }.fault code (if vec then k else e.act) (addr (lowestTid k)) reason) := by
  unfold Iss.checks
  simp only [Iss.filter_misaligned, maskTids_eq_nil.mpr h, hx, hf, lowestTid]

theorem maskWhere_ok (p : XlatResult → Bool) (hp : ∀ x, p (.ok x) = false) (ts : List Tid) (x : Tid → Xlat) :
    maskWhere (ts.map (fun t => (t, XlatResult.ok (x t)))) p = 0#32 := by
  refine mask_ext fun t => ?_
  rw [maskWhere, getLsbD_foldl_bitOf (fun x => p x.2) Prod.fst]
  simp [hp]

theorem xlatFault_ok (need : Need) (ts : List Tid) (x : Tid → Xlat) :
    xlatFault need (ts.map (fun t => (t, XlatResult.ok (x t)))) = none := by
  unfold xlatFault
  rw [maskWhere_ok _ fun _ => rfl, maskWhere_ok _ fun _ => rfl, maskWhere_ok _ fun _ => rfl, maskWhere_ok _ fun _ => rfl]
  rfl

/-- The translations of threads that are all mapped. -/
theorem filterMap_ok {F : Tid × XlatResult → Option (Tid × Xlat)} (hF : ∀ t y, F (t, .ok y) = some (t, y)) (ts : List Tid) (x : Tid → Xlat) :
    (ts.map (fun t => (t, XlatResult.ok (x t)))).filterMap F = ts.map (fun t => (t, x t)) := by
  rw [List.filterMap_map, ← List.filterMap_eq_map]
  exact List.filterMap_congr fun t _ => hF t (x t)

/-- Where every address is mapped, the faults of the colours follow. -/
theorem Iss.checks_acquire {e : Iss} {vec : Bool} {align : Nat} {addr : Tid → Word64} (h : e.misaligned vec align addr = 0#32)
    {need : Need} {x : Tid → Xlat} {s1 : State}
    (hx : e.s.xlateAll e.g.core e.r.key.ctx need addr false (accessTids vec e.act) =
      ((accessTids vec e.act).map (fun t => (t, XlatResult.ok (x t))), s1))
    {code : FaultCode} {k : Mask}
    (hf : acquire { e with s := s1 } ((accessTids vec e.act).map (fun t => (t, (x t).colour))) (if vec then none else some e.act) = .fault code k) :
    e.checks vec align need addr = .stop ({ e with s := s1 }.fault code k (addr (lowestTid k))) := by
  unfold Iss.checks
  simp only [Iss.filter_misaligned, maskTids_eq_nil.mpr h, hx, xlatFault_ok]
  rw [filterMap_ok (fun _ _ => rfl), List.map_map]
  simp only [Function.comp_def, hf, lowestTid]

/-- The accessing threads whose line has a colour that they do not hold. -/
def Iss.wants (e : Iss) (vec : Bool) (x : Tid → Xlat) (t : Tid) : Bool :=
  decide (t ∈ accessTids vec e.act) && decide ((x t).colour ≠ 0) && !(e.g.thread t).holds (x t).colour

/-- Those of them whose colour is below one that they hold. -/
def Iss.unordered (e : Iss) (vec : Bool) (x : Tid → Xlat) : Mask :=
  maskOf (fun t => e.wants vec x t && decide ((x t).colour < (e.g.thread t).topColour))

/-- What the whole of a thread's bound set is about to be given (R349). -/
def Iss.given (e : Iss) (vec : Bool) (x : Tid → Xlat) (t : Tid) : List Nat :=
  ((((accessTids vec e.act).filter (fun v => e.wants vec x v && (e.g.boundSet t).getLsbD v.val)).map (fun v => (x v).colour)).dedup).filter
    (fun k => !(e.g.thread t).holds k)

/-- Those whose set would hold more than eight colours. -/
def Iss.overfull (e : Iss) (vec : Bool) (x : Tid → Xlat) : Mask :=
  maskOf (fun t => e.wants vec x t && decide (8 < (e.g.thread t).held.length + (e.given vec x t).length))

/-- The threads that come to an acquisition, with the colours that they want. -/
theorem Iss.filter_wants (e : Iss) (vec : Bool) (x : Tid → Xlat) :
    (((accessTids vec e.act).map (fun t => (t, (x t).colour))).filter (fun x => x.2 != 0 && !(e.g.thread x.1).holds x.2)).dedup =
      ((accessTids vec e.act).filter (e.wants vec x)).map (fun t => (t, (x t).colour)) := by
  have hmap : ((accessTids vec e.act).map (fun t => (t, (x t).colour))).filter (fun x => x.2 != 0 && !(e.g.thread x.1).holds x.2) =
      ((accessTids vec e.act).filter (e.wants vec x)).map (fun t => (t, (x t).colour)) := by
    rw [List.filter_map]
    refine congrArg _ (List.filter_congr fun t ht => ?_)
    simp [Iss.wants, ht, bne, beq_eq_decide]
  rw [hmap, List.dedup_eq_self]
  exact ((nodup_accessTids vec e.act).filter _).map fun _ _ h => congrArg Prod.fst h

theorem Iss.foldl_wants (e : Iss) (vec : Bool) (x : Tid → Xlat) (p : Tid × Nat → Bool) :
    (((accessTids vec e.act).filter (e.wants vec x)).map (fun t => (t, (x t).colour))).foldl
      (fun m y => if p y then m ||| bitOf y.1 else m) 0#32 = maskOf (fun t => e.wants vec x t && p (t, (x t).colour)) := by
  refine mask_ext fun t => ?_
  rw [getLsbD_foldl_bitOf p Prod.fst, getLsbD_maskOf, BitVec.getLsbD_zero, Bool.false_or, Bool.eq_iff_iff]
  simp [Iss.wants]
  grind

theorem acquire_unordered {e : Iss} {vec : Bool} {x : Tid → Xlat} (h : e.unordered vec x ≠ 0#32) (unit : Option Mask) :
    acquire e ((accessTids vec e.act).map (fun t => (t, (x t).colour))) unit = .fault .colourOrder (e.unordered vec x) := by
  unfold acquire
  simp only [Iss.filter_wants, e.foldl_wants vec x (fun y => decide (y.2 < (e.g.thread y.1).topColour))]
  exact if_pos (bne_iff_ne.mpr h)

theorem acquire_overfull {e : Iss} {vec : Bool} {x : Tid → Xlat} (h : e.unordered vec x = 0#32) (hf : e.overfull vec x ≠ 0#32)
    (unit : Option Mask) :
    acquire e ((accessTids vec e.act).map (fun t => (t, (x t).colour))) unit = .fault .colourOverflow (e.overfull vec x) := by
  have hgiven (t : Tid) : (((((accessTids vec e.act).filter (e.wants vec x)).map (fun t => (t, (x t).colour))).filter
      (fun y => (e.g.boundSet t).getLsbD y.1.val)).map Prod.snd).dedup.filter (fun c => !(e.g.thread t).holds c) = e.given vec x t := by
    rw [Iss.given, List.filter_map, List.map_map, List.filter_filter]
    simp only [Function.comp_def, Bool.and_comm]
  unfold acquire
  simp only [Iss.filter_wants, hgiven, e.foldl_wants vec x (fun y => decide (y.2 < (e.g.thread y.1).topColour)),
    e.foldl_wants vec x (fun y => decide (Config.heldColours < (e.g.thread y.1).held.length + (e.given vec x y.1).length))]
  exact (if_neg fun hb => bne_iff_ne.mp hb h).trans (if_pos (bne_iff_ne.mpr hf))

/-- An instruction that accesses memory stops with what its checks find. -/
theorem withChecks_stop {c : Ctl} {vec : Bool} {align : Nat} {need : Need} {m : Addr} {f : Checked → (Tid → Word64) → Out} {s : State}
    {k : Cur} {g : Group} (hi : Issues s c k g) (ha : (issueOf s c k g).act ≠ 0#32) {o : Out}
    (ho : (issueOf s c k g).checks vec align need (fun t => Operand.addr (issueOf s c k g) 64 t m) = .stop o) :
    withChecks c vec align need m f s = o := by
  rw [withChecks, begin_of_issues hi, if_neg ha]
  dsimp only
  rw [ho]

/-- Settles O18: the checks of a load and of a store find the same faults, in one order. -/
theorem accessFaults : Obligations.AccessFaults := by
  intro c h ty d m val x s1 n addr lowest raised faults
  have hfaults {vec : Bool} {need : Need} {i : Instr} {f : Checked → (Tid → Word64) → Out}
      (hexec : ∀ s, exec i s = withChecks c vec n need m f s) : faults vec need i := by
    refine ⟨?_, fun code k reason => ?_, ?_, ?_⟩
    · rintro - s k g hi ⟨ha, hb⟩
      exact ⟨_, (hexec s).trans (withChecks_stop hi ha (Iss.checks_misaligned hb need)), rfl⟩
    · rintro - s k g hi ⟨ha, hb, hf⟩
      exact ⟨_, (hexec s).trans (withChecks_stop hi ha (Iss.checks_xlatFault hb rfl hf)), rfl⟩
    · rintro - s k g hi ⟨⟨ha, hb, hx⟩, hl⟩
      have hacq := acquire_unordered (e := { issueOf s c k g with s := s1 }) hl (if vec then none else some (issueOf s c k g).act)
      exact ⟨_, (hexec s).trans (withChecks_stop hi ha (Iss.checks_acquire hb hx hacq)), rfl⟩
    · rintro - s k g hi ⟨⟨ha, hb, hx⟩, hl, hf⟩
      have hacq := acquire_overfull (e := { issueOf s c k g with s := s1 }) hl hf (if vec then none else some (issueOf s c k g).act)
      exact ⟨_, (hexec s).trans (withChecks_stop hi ha (Iss.checks_acquire hb hx hacq)), rfl⟩
  exact ⟨hfaults fun _ => rfl, hfaults fun _ => rfl⟩

end Sys2Proof.Machine

namespace Sys2Proof.Machine

/-! ## A loaded value in its registers (R40, R50, R111) -/

theorem Group.cleanse_eq (g : Group) (r : RegRef) : ∃ l m, g.cleanse r = { g with undef := l, regPoison := m } := by
  unfold Group.cleanse
  split
  · exact ⟨_, _, rfl⟩
  · exact ⟨g.undef, g.regPoison, rfl⟩

/-- Registers are free of their marks once they have been written in full. -/
theorem Group.foldl_cleanse (l : List RegRef) (g : Group) : ∃ u p, l.foldl Group.cleanse g = { g with undef := u, regPoison := p } ∧
    (∀ x, x ∈ u ↔ x ∈ g.undef ∧ x ∉ l) ∧ ∀ x, x ∈ p ↔ x ∈ g.regPoison ∧ x ∉ l := by
  induction l generalizing g with
  | nil => exact ⟨g.undef, g.regPoison, rfl, by simp, by simp⟩
  | cons r l ih =>
    obtain ⟨u, p, h, hu, hp⟩ := ih (g.cleanse r)
    obtain ⟨u', p', h'⟩ := g.cleanse_eq r
    refine ⟨u, p, by rw [List.foldl_cons, h, h'], fun x => ?_, fun x => ?_⟩
    · rw [hu, Group.mem_undef_cleanse, List.mem_cons, not_or, and_assoc]
    · rw [hp, Group.mem_regPoison_cleanse, List.mem_cons, not_or, and_assoc]

/-- Bare writes of registers: those of `val`, and nothing else, not even a mark. -/
structure Group.Put (g' g : Group) (val : RegRef → Option Word64) : Prop where
  values : ∀ x, g'.reg x = (val x).getD (g.reg x)
  pcs : ∀ u, (g'.thread u).pc = (g.thread u).pc
  rest : g' = { g with threads := g'.threads, s := g'.s }
  bare : g'.bare = g.bare

theorem Group.Put.refl (g : Group) : g.Put g noReg := ⟨fun _ => rfl, fun _ => rfl, rfl, rfl⟩

theorem Group.Put.trans {g2 g1 g : Group} {v2 v1 : RegRef → Option Word64} (h2 : g2.Put g1 v2) (h1 : g1.Put g v1) :
    g2.Put g (both v2 v1) := by
  refine ⟨fun x => ?_, fun u => (h2.pcs u).trans (h1.pcs u), ?_, h2.bare.trans h1.bare⟩
  · rw [h2.values, h1.values, both]
    cases v2 x <;> rfl
  · rw [h2.rest, h1.rest]

theorem Group.Put.congr {g' g : Group} {v w : RegRef → Option Word64} (h : g'.Put g v) (e : ∀ r, v r = w r) : g'.Put g w := by
  rwa [← funext e]

theorem Group.Put.budget {g' g : Group} {val : RegRef → Option Word64} (h : g'.Put g val) : g'.budget = g.budget := by rw [h.rest]

/-- An instruction's write of a register is a bare write, and the end of the register's marks. -/
theorem Group.Put.of_cleanse {g' g : Group} {r : RegRef} {val : RegRef → Option Word64} (h : ((g'.clobber r).cleanse r).WroteOnly g val)
    (hrest : g' = { g with threads := g'.threads, s := g'.s }) : g'.Put g val := by
  obtain ⟨u, p, hc⟩ := (g'.clobber r).cleanse_eq r
  obtain ⟨l, hl, hops⟩ := g'.clobber_eq r
  rw [hc, hl] at h
  refine ⟨fun x => ?_, h.pcs, hrest, ?_⟩
  · rw [← h.regs.values]
    cases x <;> rfl
  · rw [← h.bare]
    simp only [Group.bare, hops]

theorem Group.putV_put (g : Group) (t : Tid) (n : VReg) (x : Word32) :
    (g.putV t n x).Put g (fun r => if n.val < g.budget then oneReg (.v t n) (x.setWidth 64) r else none) := by
  by_cases hn : n.val < g.budget
  · have h := g.writeV_wrote t n x
    rw [Group.writeV, if_pos hn] at h
    refine Group.Put.of_cleanse h ?_
    rw [Group.putV, if_pos hn]
    rfl
  · rw [Group.putV, if_neg hn]
    simp only [if_neg hn]
    exact .refl g

theorem Group.putS_put (g : Group) (n : SReg) (x : Word64) : (g.putS n x).Put g (oneReg (.s n) x) :=
  .of_cleanse (g.writeS_wrote n x) rfl

/-- The words of a loaded value, the lowest first (R40, R111). -/
def loadedWords (ty : Ty) (x : BitVec 128) : BitVec 128 := if ty.bits = 128 then x else (loadedWord ty x).setWidth 128

theorem ty_bits_cases (ty : Ty) : ty.bits = 32 ∨ ty.bits = 64 ∨ ty.bits = 128 := by cases ty <;> simp [Ty.bits]

/-- The bare writes of a loaded value. -/
def Group.putLoaded (g : Group) (ty : Ty) (d : Dst) (t : Tid) (x : BitVec 128) : Group :=
  let w := loadedWord ty x
  match d with
  | .zero => g
  | .v n =>
    if ty.bits = 128 then (List.range 4).foldl (fun g k => g.putV t (VReg.up n k) ((x >>> (32 * k)).setWidth 32)) g
    else if ty.bits = 64 then (g.putV t n (w.setWidth 32)).putV t (VReg.up n 1) ((w >>> 32).setWidth 32)
    else g.putV t n (w.setWidth 32)
  | .s n =>
    if ty.bits = 128 then (g.putS n (x.setWidth 64)).putS (SReg.up n 1) ((x >>> 64).setWidth 64) else g.putS n w

/-- The registers that are written meanwhile are marked in the other operations that will write them (R50). -/
def Op.markedBy (op : Nat) (regs : List RegRef) (o : Op) : Op :=
  if o.id = op then o else { o with clobbered := regs.filter (fun r => o.dests.contains r) ++ o.clobbered }

theorem Op.markedBy_id (op : Nat) (regs : List RegRef) (o : Op) : (o.markedBy op regs).id = o.id := by
  unfold Op.markedBy
  split <;> rfl

theorem Op.markedBy_unmarked (op : Nat) (regs : List RegRef) (o : Op) : ({ o.markedBy op regs with clobbered := [] } : Op) =
    { o with clobbered := [] } := by
  unfold Op.markedBy
  split <;> rfl

/-- A deposit: the bare writes, marks for the other operations, and the end of the registers' own marks. -/
theorem Group.deposit_eq (g : Group) (op : Nat) (ty : Ty) (d : Dst) (t : Tid) (x : BitVec 128) : ∃ u p,
    g.deposit op ty d t x = { g.putLoaded ty d t x with
      ops := (g.putLoaded ty d t x).ops.map (Op.markedBy op ((Dst.regs ty d t).filter g.writable)), undef := u, regPoison := p } ∧
    (∀ r, r ∈ u ↔ r ∈ (g.putLoaded ty d t x).undef ∧ r ∉ (Dst.regs ty d t).filter g.writable) ∧
    ∀ r, r ∈ p ↔ r ∈ (g.putLoaded ty d t x).regPoison ∧ r ∉ (Dst.regs ty d t).filter g.writable :=
  Group.foldl_cleanse ((Dst.regs ty d t).filter g.writable) { g.putLoaded ty d t x with
    ops := (g.putLoaded ty d t x).ops.map (Op.markedBy op ((Dst.regs ty d t).filter g.writable)) }

theorem VReg.up_val (n : VReg) (k : Nat) : (VReg.up n k).val = (n.val + k) % 128 := rfl

theorem VReg.up_zero (n : VReg) : VReg.up n 0 = n := Fin.ext (Nat.mod_eq_of_lt n.isLt)

/-- What a loaded value writes to a vector register, pair or quad, word by word. -/
theorem loadResult_v (ty : Ty) (n : VReg) (t : Tid) (budget : Nat) (x : BitVec 128) (u : Tid) (m : VReg) :
    loadResult ty (.v n) t budget x (.v u m) =
      if u = t ∧ m.val < budget then
        ((List.range (ty.bits / 32)).find? (fun i => decide (m = VReg.up n i))).map
          (fun i => ((loadedWords ty x).extractLsb' (32 * i) 32).setWidth 64)
      else none := rfl

theorem sreg_up_one_ne (n : SReg) : SReg.up n 1 ≠ n := by
  intro h
  have hv := congrArg Fin.val h
  simp only [SReg.up] at hv
  omega

/-- Bare writes of one thread's registers from one on. -/
theorem Group.foldl_putV_put (t : Tid) (n : VReg) (f : Nat → Word32) (l : List Nat) (hl : (l.map (VReg.up n)).Nodup) (g : Group) :
    (l.foldl (fun g i => g.putV t (VReg.up n i) (f i)) g).Put g (fun r => match r with
      | .v u m => if u = t ∧ m.val < g.budget then (l.find? (fun i => decide (m = VReg.up n i))).map (fun i => (f i).setWidth 64) else none
      | _ => none) := by
  induction l generalizing g with
  | nil => exact (Group.Put.refl g).congr fun r => by cases r <;> simp [noReg]
  | cons i l ih =>
    obtain ⟨hi, hl⟩ := List.nodup_cons.mp hl
    have h1 := g.putV_put t (VReg.up n i) (f i)
    refine ((ih hl (g.putV t (VReg.up n i) (f i))).trans h1).congr fun r => ?_
    rw [h1.budget]
    rcases r with ⟨u, m⟩ | ⟨u, m⟩ | m
    · by_cases hm : m = VReg.up n i
      · have hnone : l.find? (fun j => decide (m = VReg.up n j)) = none :=
          List.find?_eq_none.mpr fun j hj => by
            simp only [decide_eq_true_eq]
            exact fun h => hi (List.mem_map.mpr ⟨j, hj, h.symm.trans hm⟩)
        subst hm
        simp only [both, hnone, List.find?_cons, decide_true, oneReg, RegRef.v.injEq, and_true]
        grind
      · simp [both, oneReg, hm]
    · simp [both, oneReg]
    · simp [both, oneReg]

/-- The registers of a quad are distinct. -/
theorem nodup_up (n : VReg) {k : Nat} (hk : k ≤ 4) : ((List.range k).map (VReg.up n)).Nodup := by
  refine List.Nodup.map_on (fun i hi j hj h => ?_) List.nodup_range
  have hv := congrArg Fin.val h
  rw [List.mem_range] at hi hj
  simp only [VReg.up_val] at hv
  omega

/-- The words of a loaded value go to its registers in ascending order. -/
theorem Group.putLoaded_v (g : Group) (ty : Ty) (n : VReg) (t : Tid) (x : BitVec 128) : g.putLoaded ty (.v n) t x =
    (List.range (ty.bits / 32)).foldl (fun g i => g.putV t (VReg.up n i) ((loadedWords ty x).extractLsb' (32 * i) 32)) g := by
  have hword (i : Nat) : (x >>> (32 * i)).setWidth 32 = x.extractLsb' (32 * i) 32 := by
    ext j hj
    simp
  have hlow (w : Word64) : (w.setWidth 128).extractLsb' 0 32 = w.setWidth 32 := by
    ext j hj
    simp
    omega
  have hhigh (w : Word64) : (w.setWidth 128).extractLsb' 32 32 = (w >>> 32).setWidth 32 := by
    ext j hj
    simp
    omega
  obtain h | h | h := ty_bits_cases ty
  · simp [Group.putLoaded, h, loadedWords, List.range_succ, VReg.up_zero, hlow]
  · simp [Group.putLoaded, h, loadedWords, List.range_succ, VReg.up_zero, hlow, hhigh]
  · simp [Group.putLoaded, h, loadedWords, hword]

theorem Group.putLoaded_put (g : Group) (ty : Ty) (d : Dst) (t : Tid) (x : BitVec 128) :
    (g.putLoaded ty d t x).Put g (loadResult ty d t g.budget x) := by
  cases d with
  | v n =>
    rw [Group.putLoaded_v]
    refine (g.foldl_putV_put t n _ _ (nodup_up n ?_)).congr fun r => ?_
    · obtain h | h | h := ty_bits_cases ty <;> rw [h] <;> decide
    · rcases r with ⟨u, m⟩ | ⟨u, m⟩ | m
      all_goals rfl
  | s n =>
    have h0 := g.putS_put n ((loadedWords ty x).setWidth 64)
    by_cases hb : ty.bits = 128
    · have h1 := (g.putS n (x.setWidth 64)).putS_put (SReg.up n 1) ((x >>> 64).setWidth 64)
      rw [loadedWords, if_pos hb] at h0
      rw [Group.putLoaded, if_pos hb]
      refine (h1.trans h0).congr fun r => ?_
      have hne : SReg.up n 1 ≠ n := sreg_up_one_ne n
      obtain ⟨-, hhigh⟩ := pair_words x
      rcases r with ⟨u, m⟩ | ⟨u, m⟩ | m
      · rfl
      · rfl
      · by_cases hm : m = n
        · simp [both, oneReg, loadResult, hb, hm, hne.symm]
        · by_cases hm1 : m = SReg.up n 1 <;> simp [both, oneReg, loadResult, hb, hm, hm1, hhigh, hne]
    · rw [loadedWords, if_neg hb, BitVec.setWidth_setWidth_of_le _ (by decide), BitVec.setWidth_eq] at h0
      rw [Group.putLoaded, if_neg hb]
      refine h0.congr fun r => ?_
      rcases r with ⟨u, m⟩ | ⟨u, m⟩ | m
      · rfl
      · rfl
      · by_cases hm : m = n <;> simp [oneReg, loadResult, hb, hm]
  | zero => exact (Group.Put.refl g).congr fun r => by cases r <;> rfl

/-- The registers that a loaded value writes. -/
theorem mem_regs_iff (g : Group) (ty : Ty) (d : Dst) (t : Tid) (x : BitVec 128) (r : RegRef) :
    r ∈ (Dst.regs ty d t).filter g.writable ↔ loadResult ty d t g.budget x r ≠ none := by
  cases d with
  | v n =>
    rcases r with ⟨u, m⟩ | ⟨u, m⟩ | m
    · rw [loadResult_v]
      simp only [Dst.regs, List.mem_filter, List.mem_map, List.mem_range, RegRef.v.injEq, Group.writable, decide_eq_true_eq]
      by_cases h : u = t ∧ m.val < g.budget
      · rw [if_pos h, ne_eq, Option.map_eq_none_iff, ← ne_eq, ← Option.isSome_iff_ne_none, List.find?_isSome]
        simp only [List.mem_range, decide_eq_true_eq]
        grind
      · simp only [if_neg h]
        grind
    · simp [Dst.regs, loadResult]
    · simp [Dst.regs, loadResult]
  | s n =>
    rcases r with ⟨u, m⟩ | ⟨u, m⟩ | m
    · by_cases hb : ty.bits = 128 <;> simp [Dst.regs, loadResult, hb]
    · by_cases hb : ty.bits = 128 <;> simp [Dst.regs, loadResult, hb]
    · by_cases hb : ty.bits = 128
      · simp [Dst.regs, loadResult, hb, Group.writable]
        grind
      · simp [Dst.regs, loadResult, hb, Group.writable]
  | zero => rcases r with ⟨u, m⟩ | ⟨u, m⟩ | m <;> simp [Dst.regs, loadResult]

/-- A loaded value is written, and nothing else (R50, R111). -/
theorem Group.deposit_wrote (g : Group) (op : Nat) (ty : Ty) (d : Dst) (t : Tid) (x : BitVec 128) :
    (g.deposit op ty d t x).WroteOnly g (loadResult ty d t g.budget x) := by
  have hput := g.putLoaded_put ty d t x
  obtain ⟨u, p, hc, hu, hp⟩ := g.deposit_eq op ty d t x
  have hmem (r : RegRef) : r ∉ (Dst.regs ty d t).filter g.writable ↔ loadResult ty d t g.budget x r = none := by
    rw [mem_regs_iff g ty d t x r, not_not]
  rw [hc]
  refine ⟨⟨fun r => ?_, fun r => ?_, fun r => ?_⟩, hput.pcs, ?_⟩
  · rw [← hput.values]
    cases r <;> rfl
  · change r ∈ u ↔ _
    rw [hu, hmem, hput.rest]
  · change r ∈ p ↔ _
    rw [hp, hmem, hput.rest]
  · rw [← hput.bare]
    simp only [Group.bare, List.map_map]
    congr 1
    exact List.map_congr_left fun o _ => o.markedBy_unmarked op _

/-! ## The end of an operation (R50, R253) -/

theorem foldl_wroteOnly {α : Type} {f : Group → α → Group} {val : α → RegRef → Option Word64} {n : Nat}
    (hf : ∀ a g, g.budget = n → (f g a).WroteOnly g (val a)) (l : List α) (g : Group) (hg : g.budget = n) :
    (l.foldl f g).WroteOnly g (fun r => l.reverse.findSome? (fun a => val a r)) := by
  induction l generalizing g with
  | nil => exact Group.WroteOnly.refl g
  | cons a l ih =>
    have h1 := hf a g hg
    refine ((ih (f g a) (h1.budget.trans hg)).trans h1).congr fun r => ?_
    simp [both, List.findSome?_append]

theorem foldl_deposit_wrote (op : Nat) (l : List Arrival) (g : Group) :
    (l.foldl (fun g a => g.deposit op a.ty a.dst (a.who.getD 0) a.x) g).WroteOnly g (arrivedResult g.budget l) :=
  foldl_wroteOnly (val := fun a => loadResult a.ty a.dst (a.who.getD 0) g.budget a.x)
    (fun a g' hg => hg ▸ g'.deposit_wrote op a.ty a.dst (a.who.getD 0) a.x) l g rfl

/-- What has arrived is written; of some arrivals it may be withheld (R253). -/
theorem Group.depositAll_wroteOnly (g : Group) (o : Op) : ∃ val, (g.depositAll o).WroteOnly g val :=
  ⟨_, foldl_deposit_wrote _ _ _⟩

theorem Group.wholeSets_zero (g : Group) : g.wholeSets 0#32 = 0#32 := by
  rw [Group.wholeSets, maskTids_eq_nil.mpr rfl]
  rfl

/-- Where no part has failed, all that has arrived is written. -/
theorem Group.depositAll_wrote (g : Group) {o : Op} (h : ∀ a ∈ o.arrivals, a.bad = none) :
    (g.depositAll o).WroteOnly g (arrivedResult g.budget o.arrivals) := by
  have hbad : o.arrivals.filter (fun a => a.bad.isSome) = [] := List.filter_eq_nil_iff.mpr fun a ha => by simp [h a ha]
  have hall : o.arrivals.filter (fun a => o.concerns a &&& 0#32 == 0#32) = o.arrivals := List.filter_eq_self.mpr fun a _ => by simp
  have hd : g.depositAll o = o.arrivals.foldl (fun g a => g.deposit o.id a.ty a.dst (a.who.getD 0) a.x) g := by
    rw [Group.depositAll, hbad, List.foldl_nil, Group.wholeSets_zero, hall]
  rw [hd]
  exact foldl_deposit_wrote _ _ _

theorem Op.fault_none {o : Op} (h : ∀ a ∈ o.arrivals, a.bad = none) : o.fault = none := by
  have hbad : o.arrivals.filterMap Arrival.bad = [] := List.filterMap_eq_nil_iff.mpr h
  rw [Op.fault, hbad]
  rfl

theorem Group.bare_without {g' g : Group} (h : g'.bare = g.bare) (id : Nat) : (g'.without id).bare = (g.without id).bare := by
  have hfilter (l : List Op) : (l.filter (fun o => o.id != id)).map (fun o : Op => { o with clobbered := [] }) =
      (l.map (fun o : Op => { o with clobbered := [] })).filter (fun o => o.id != id) := by
    rw [List.filter_map]
    rfl
  have hl (g : Group) : (g.without id).bare = { g.bare with ops := g.bare.ops.filter (fun o => o.id != id) } := by
    simp only [Group.bare, Group.without, hfilter]
  rw [hl, hl, h]

theorem Group.WroteOnly.without {g' g : Group} {val : RegRef → Option Word64} (h : g'.WroteOnly g val) (id : Nat) :
    (g'.without id).WroteOnly (g.without id) val := by
  refine ⟨⟨fun x => ?_, h.regs.undef, h.regs.errors⟩, h.pcs, Group.bare_without h.bare id⟩
  have hv := h.regs.values x
  cases x <;> exact hv

/-- A state that differs from another in one group alone. -/
structure State.OneGroup (s t : State) (r : GroupRef) : Prop where
  rest : ∃ gs, t = { s with groups := gs }
  others : ∀ q, q ≠ r → t.group q = s.group q

theorem State.OneGroup.trans {s t u : State} {r : GroupRef} (h : State.OneGroup s t r) (h' : State.OneGroup t u r) : State.OneGroup s u r := by
  obtain ⟨⟨gs, rfl⟩, ho⟩ := h
  obtain ⟨⟨gs', rfl⟩, ho'⟩ := h'
  exact ⟨⟨gs', rfl⟩, fun q hq => (ho' q hq).trans (ho q hq)⟩

theorem State.OneGroup.quiet {s t : State} {r : GroupRef} (h : State.OneGroup s t r) :
    t.net = s.net ∧ t.lines = s.lines ∧ t.mem = s.mem ∧ t.cores = s.cores ∧ t.txns = s.txns := by
  obtain ⟨⟨gs, rfl⟩, -⟩ := h
  exact ⟨rfl, rfl, rfl, rfl, rfl⟩

theorem oneGroup_setGroup (s : State) (r : GroupRef) (g : Group) : State.OneGroup s (s.setGroup r g) r :=
  ⟨⟨_, rfl⟩, fun _ hq => State.group_setGroup_other s g hq⟩

theorem oneGroup_modGroup (s : State) (r : GroupRef) (f : Group → Group) : State.OneGroup s (s.modGroup r f) r :=
  ⟨⟨_, rfl⟩, fun q hq => by rw [State.group_modGroup, if_neg hq]⟩

theorem oneGroup_opPart (s : State) (r : GroupRef) (id : Nat) : State.OneGroup s (s.opPart r id) r := by
  obtain ⟨gs, h, hq⟩ := quietButGroups_opPart s r id
  exact ⟨⟨gs, h⟩, fun q hne => by rw [h]; exact hq q hne⟩

theorem group_modGroup_self {s : State} {r : GroupRef} {g : Group} (h : s.group r = some g) (f : Group → Group) :
    (s.modGroup r f).group r = some (f g) := by
  rw [State.group_modGroup, if_pos rfl, h, Option.map_some]

/-- An operation that waits for more parts than one counts this one. -/
theorem opPart_waits {s : State} {r : GroupRef} {g : Group} {id : Nat} {o : Op} (hg : s.group r = some g)
    (ho : g.ops.find? (fun o => o.id == id) = some o) (hp : 1 < o.parts) :
    s.opPart r id = s.setGroup r { g with ops := g.ops.map (fun x => if x.id = id then { x with parts := x.parts - 1 } else x) } := by
  rw [State.opPart, hg]
  dsimp only
  rw [ho]
  dsimp only
  rw [if_pos hp]

/-- With its last part an operation is over (R253): what arrived is written, what was written meanwhile is undefined (R50). -/
theorem opPart_ends {s : State} {r : GroupRef} {g : Group} {id : Nat} {o : Op} (hg : s.group r = some g)
    (ho : g.ops.find? (fun o => o.id == id) = some o) (hp : o.parts ≤ 1) :
    s.opPart r id =
      let s1 := s.setGroup r { (g.depositAll o).without id with undef := o.clobbered.foldl insertNew (g.depositAll o).undef }
      (o.fault.map (fun f => s1.raiseLater r f)).getD s1 := by
  rw [State.opPart, hg]
  dsimp only
  rw [ho]
  dsimp only
  rw [if_neg (Nat.not_lt.mpr hp)]
  cases o.fault <;> rfl

/-- The last part of an operation that has not failed. -/
theorem opPart_completes {s : State} {r : GroupRef} {g : Group} {id : Nat} {o : Op} (hg : s.group r = some g) (ho : LastPart g id o) :
    GroupIs (s.opPart r id) r (g.without id) (arrivedResult g.budget o.arrivals) := by
  obtain ⟨hfind, hparts, hclob, hbad⟩ := ho
  have hw := (g.depositAll_wrote hbad).without id
  refine ⟨(g.depositAll o).without id, ?_, hw.regs, hw.pcs, hw.bare⟩
  rw [opPart_ends hg hfind hparts, Op.fault_none hbad, hclob]
  exact State.group_setGroup_self _ _ _

theorem LastPart.arrival {g : Group} {id : Nat} {o : Op} (h : LastPart g id o) {a : Arrival} (ha : a.bad = none) :
    LastPart (g.arrival id a) id { o with arrivals := o.arrivals ++ [a] } := by
  obtain ⟨hfind, hparts, hclob, hbad⟩ := h
  refine ⟨g.find?_arrival id a hfind, hparts, hclob, fun b hb => ?_⟩
  obtain hb | hb := List.mem_append.mp hb
  · exact hbad b hb
  · rwa [List.mem_singleton.mp hb]

end Sys2Proof.Machine

namespace Sys2Proof.Machine

/-! ## A translation leaves the buffers alone (R79, R85) -/

theorem buffer_modCore {s : State} {n : Nat} {f : Core → Core} (h : ∀ c, (f c).buffer = c.buffer) (core : Nat) :
    ((s.modCore n f).core core).buffer = (s.core core).buffer := by
  by_cases hn : core = n
  · rw [hn, State.core_modCore_self, h]
  · rw [State.core_modCore_other _ _ hn]

theorem buffer_fillTlbs (s : State) (n : Nat) (e : TlbEntry) (core : Nat) : ((s.fillTlbs n e).core core).buffer = (s.core core).buffer :=
  buffer_modCore (f := fun c => { c with tlb := fillTlb Config.tlbCore c.tlb e }) (fun _ => rfl) core

theorem buffer_foldl_fillTlbs (e : TlbEntry) (l : List Nat) (s : State) (core : Nat) :
    ((l.foldl (fun s core => s.fillTlbs core e) s).core core).buffer = (s.core core).buffer := by
  induction l generalizing s with
  | nil => rfl
  | cons c l ih => exact (ih _).trans (buffer_fillTlbs s c e core)

theorem buffer_of_cores {s t : State} (h : t.cores = s.cores) (core : Nat) : (t.core core).buffer = (s.core core).buffer := by
  rw [State.core, State.core, h]

theorem buffer_endWalk (s : State) (die k : Nat) (w : Walk) (core : Nat) : ((s.endWalk die k w).2.core core).buffer = (s.core core).buffer := by
  have h1 : ((s.walkEnded die k).walkBy die w.ctx w.va).2.cores = s.cores := cores_walkBy _ _ _ _
  rcases h : (s.walkEnded die k).walkBy die w.ctx w.va with ⟨x, s2⟩
  rw [h] at h1
  by_cases hx : ∃ l, x = .leaf l
  · obtain ⟨l, rfl⟩ := hx
    rw [endWalk_leaf h]
    exact (buffer_foldl_fillTlbs _ _ _ core).trans (buffer_of_cores h1 core)
  · rw [endWalk_other h fun l hl => hx ⟨l, hl⟩]
    exact buffer_of_cores h1 core

theorem buffer_walkNow (s : State) (n ctx : Nat) (va : Word64) (core : Nat) : ((s.walkNow n ctx va).2.core core).buffer = (s.core core).buffer := by
  unfold State.walkNow
  dsimp only
  split
  · exact buffer_endWalk _ _ _ _ _
  · have h2 := cores_walkBy s (dieOfCore n) ctx va
    split
    next l s1 h =>
      rw [h] at h2
      exact (buffer_fillTlbs _ _ _ core).trans (buffer_of_cores h2 core)
    · exact buffer_of_cores h2 core

theorem buffer_translate (s : State) (n ctx : Nat) (va : Word64) (core : Nat) :
    ((s.translate n ctx va).2.core core).buffer = (s.core core).buffer := by
  unfold State.translate
  split
  · rfl
  · split
    next e _ => exact buffer_modCore (f := fun c => { c with tlb := fillTlb Config.tlbCore c.tlb e }) (fun _ => rfl) core
    · exact buffer_walkNow _ _ _ _ _

/-! ## A buffer entry drains (R85, R103, R104) -/

/-- The transaction that an entry's store is. -/
def BufEntry.txn (b : BufEntry) (core : Nat) : StoreTxn :=
  { id := b.id, line := b.line, ctx := b.ctx, core := core, mask := b.mask, coreTime := some b.latest, ops := b.ops, writers := b.writers,
    threads := b.threads, colour := b.colour }

/-- The store that it sends. -/
def BufEntry.store (b : BufEntry) (s : State) (core : Nat) : StoreReq :=
  { line := b.line, data := b.data, mask := b.mask, txn := b.id, core := core, ctx := b.ctx, keep := b.keep, slot := s.blockSlot b.lastG,
    poison := false, l0 := false, colour := b.colour, via := none }

/-- The entry has left its buffer. -/
def State.withoutEntry (s : State) (core : Nat) (b : BufEntry) : State :=
  s.modCore core (fun c => { c with buffer := c.buffer.filter (fun x => x.id != b.id) })

theorem drainEntry_goes {b : BufEntry} (hr : b.retrans = false) (hp : b.poison = false) (s : State) (core : Nat) (d : Drainer) :
    s.drainEntry core b d =
      let s1 := (s.withoutEntry core b).drainToCopy core b.line b.data b.mask
      { s1 with txns := tblPut s1.txns b.id (b.txn core) }.sendOwn (chanOut core b.line) (.store (b.store s core) (goesHome core b.line)) [] b.id := by
  unfold State.drainEntry
  rw [hr, hp]
  simp only [Bool.not_false, if_true, Bool.false_eq_true, if_false, State.sendStore, Bool.and_false]
  rfl

theorem drainEntry_fails {b : BufEntry} (hr : b.retrans = true) {s s1 : State} {core : Nat}
    (hx : (s.withoutEntry core b).translate core b.ctx b.va = (.absent, s1)) (d : Drainer) :
    s.drainEntry core b d = b.ops.foldl (fun s o => s.opPart o.1 o.2) ((s1.deferredWrite b.ctx b d).resolve (.entry core b.id) {}) := by
  rw [State.withoutEntry] at hx
  unfold State.drainEntry
  rw [hr]
  simp only [Bool.not_true, Bool.false_eq_true, if_false, hx]

theorem bufferTimerDrain_drains {s : State} {core k : Nat} {b : BufEntry} (hb : (s.core core).buffer.find? (fun x => x.id == k) = some b)
    (h : b.retrans = true ∨ b.created + 20 ≤ s.nowAt core) :
    exec (.bufferTimerDrain core k) s = .next (s.drainEntry core b b.drainer) := by
  dsimp only [exec, execBufferTimerDrain]
  rw [hb]
  refine if_pos ?_
  rw [Bool.or_eq_true, decide_eq_true_eq]
  exact h

theorem bufferTimerDrain_early {s : State} {core k : Nat} {b : BufEntry} (hb : (s.core core).buffer.find? (fun x => x.id == k) = some b)
    (hr : b.retrans = false) (h : ¬ b.created + 20 ≤ s.nowAt core) : exec (.bufferTimerDrain core k) s = .next s := by
  dsimp only [exec, execBufferTimerDrain]
  rw [hb]
  refine if_neg ?_
  rw [hr, Bool.false_or, decide_eq_true_eq]
  exact h

theorem drainEntry_out {b : BufEntry} (hr : b.retrans = false) (hp : b.poison = false) (s : State) (core : Nat) (d : Drainer) :
    Sent s (s.drainEntry core b d) [{ ch := chanOut core b.line, body := .store (b.store s core) (goesHome core b.line), seq := b.id }] ∧
      SameBytes s (s.drainEntry core b d) ∧ SameGroups s (s.drainEntry core b d) ∧
      ((s.drainEntry core b d).core core).buffer = ((s.withoutEntry core b).core core).buffer ∧
      tblGet (s.drainEntry core b d).txns b.id = some (b.txn core) ∧
      ∀ x, tblGet (s.core core).copies b.line = some x → tblGet ((s.drainEntry core b d).core core).copies b.line = some { x with
        data := mergeLine x.data b.data b.mask
        older := x.older.map (fun y => { y with data := mergeLine y.data b.data b.mask }) } := by
  rw [drainEntry_goes hr hp]
  refine ⟨rfl, sameBytes_of_eq rfl rfl, sameGroups_of_eq rfl, ?_, tblGet_tblPut_self _ _ _, fun x hx => ?_⟩
  · change (((s.withoutEntry core b).drainToCopy core b.line b.data b.mask).core core).buffer = _
    rw [State.drainToCopy, State.core_modCore_self]
  · change tblGet (((s.withoutEntry core b).drainToCopy core b.line b.data b.mask).core core).copies b.line = _
    rw [State.drainToCopy, State.core_modCore_self]
    dsimp only
    rw [tblGet_tblMod, if_pos rfl, State.withoutEntry, State.core_modCore_self, hx, Option.map_some]

/-! ## A deferred write (R85, R413) -/

/-- The number whose bits are those of a test. -/
theorem testBit_foldl_pow (p : Nat → Bool) (n i : Nat) :
    ((List.range n).foldl (fun acc i => if p i then acc + 2 ^ i else acc) 0).testBit i = (decide (i < n) && p i) := by
  have hlt (n : Nat) : (List.range n).foldl (fun acc i => if p i then acc + 2 ^ i else acc) 0 < 2 ^ n := by
    induction n with
    | zero => exact Nat.one_pos
    | succ n ih =>
      rw [List.range_succ, List.foldl_append, List.foldl_cons, List.foldl_nil, pow_succ]
      split <;> omega
  induction n with
  | zero => simp
  | succ n ih =>
    by_cases hn : i < n + 1
    · rw [List.range_succ, List.foldl_append, List.foldl_cons, List.foldl_nil]
      by_cases hi : i = n
      · subst hi
        have h0 := Nat.testBit_lt_two_pow (hlt i)
        split
        next hp => rw [Nat.add_comm, Nat.testBit_two_pow_add_eq, h0]; simp [hp]
        next hp => rw [h0]; simp [hp]
      · have hlow : i < n := by omega
        split
        next => rw [Nat.add_comm, Nat.testBit_two_pow_add_gt hlow, ih]; simp [hlow, hn]
        next => rw [ih]; simp [hlow, hn]
    · rw [Nat.testBit_lt_two_pow ((hlt (n + 1)).trans_le (Nat.pow_le_pow_right (by decide) (by omega)))]
      simp [hn]

/-- The bytes of an entry, as the fault buffer records them. -/
def BufEntry.bytes (b : BufEntry) : BitVec 128 :=
  BitVec.ofNat 128 ((List.range 128).foldl (fun acc i => if b.mask.getLsbD (8 * i) then acc + 2 ^ i else acc) 0)

theorem BufEntry.getLsbD_bytes (b : BufEntry) {i : Nat} (hi : i < 128) : b.bytes.getLsbD i = b.mask.getLsbD (8 * i) := by
  rw [BufEntry.bytes, BitVec.getLsbD_ofNat, testBit_foldl_pow fun i => b.mask.getLsbD (8 * i)]
  simp [hi]

theorem ctx_modCtx_of_some {s : State} {n : Nat} {c : Ctx} (h : s.ctx n = some c) (f : Ctx → Ctx) : (s.modCtx n f).ctx n = some (f c) := by
  refine (tblGet_tblMod s.ctxs f n n).trans ?_
  rw [if_pos rfl, show tblGet s.ctxs n = some c from h, Option.map_some]

theorem deferredWrite_eq {s : State} {ctx : Nat} {c : Ctx} {f : Nat} (hc : s.ctx ctx = some c)
    (hf : firstFrom (fun n => (tblGet c.fbuf n).isNone) 0 64 = some f) (b : BufEntry) (d : Drainer) :
    s.deferredWrite ctx b d = (s.modCtx ctx (fun c => { c with fbuf := tblPut c.fbuf f ⟨b.va, b.bytes, b.data⟩ })).raiseLater d.g
      { code := .deferredWrite, mask := d.mask, addr := b.va, pc := d.pc, fb := some f } := by
  have hf' : firstFrom (fun n => (tblGet c.fbuf n).isNone) 0 Config.faultBuffer = some f := hf
  unfold State.deferredWrite
  rw [hc]
  dsimp only
  rw [hf']
  rfl

theorem pendingTrap_of_bare {g' g : Group} (h : g'.bare = g.bare) : g'.pendingTrap = g.pendingTrap := by
  change g'.bare.pendingTrap = g.bare.pendingTrap
  rw [h]

/-- A group's pending trap is some fault. -/
def State.traps (s : State) (r : GroupRef) (f : FaultInfo) : Prop := ∃ g, s.group r = some g ∧ g.pendingTrap = some f

theorem traps_setGroup {s : State} {r q : GroupRef} {f : FaultInfo} {g' : Group} (h : s.traps q f) (hg : r = q → g'.pendingTrap = some f) :
    (s.setGroup r g').traps q f := by
  obtain ⟨g, h1, h2⟩ := h
  by_cases hq : q = r
  · subst hq
    exact ⟨g', State.group_setGroup_self _ _ _, hg rfl⟩
  · exact ⟨g, by rw [State.group_setGroup_other _ _ hq, h1], h2⟩

/-- Another fault does not take its place (R417). -/
theorem traps_raiseLater {s : State} {q : GroupRef} {f : FaultInfo} (h : s.traps q f) (r : GroupRef) (x : FaultInfo) :
    (s.raiseLater r x).traps q f := by
  obtain ⟨g, h1, h2⟩ := h
  rw [State.traps, State.raiseLater, State.group_modGroup]
  split
  · exact ⟨g, by rw [h1, Option.map_some, if_pos (by rw [h2]; rfl)], h2⟩
  · exact ⟨g, h1, h2⟩

theorem traps_opPart {s : State} {q : GroupRef} {f : FaultInfo} (h : s.traps q f) (r : GroupRef) (id : Nat) : (s.opPart r id).traps q f := by
  have hq := h
  obtain ⟨g, h1, h2⟩ := hq
  cases hg : s.group r with
  | none =>
    rw [State.opPart, hg]
    exact h
  | some g' =>
    have htrap : r = q → g'.pendingTrap = some f := by
      rintro rfl
      rw [← h2, Option.some.inj (hg.symm.trans h1)]
    cases ho : g'.ops.find? (fun o => o.id == id) with
    | none =>
      rw [State.opPart, hg]
      dsimp only
      rw [ho]
      exact h
    | some o =>
      by_cases hp : 1 < o.parts
      · rw [opPart_waits hg ho hp]
        exact traps_setGroup h htrap
      · obtain ⟨val, hw⟩ := g'.depositAll_wroteOnly o
        rw [opPart_ends hg ho (Nat.not_lt.mp hp)]
        have h3 : (s.setGroup r { (g'.depositAll o).without id with undef := o.clobbered.foldl insertNew (g'.depositAll o).undef }).traps q f :=
          traps_setGroup h fun e => (pendingTrap_of_bare hw.bare).trans (htrap e)
        cases o.fault with
        | none => exact h3
        | some x => exact traps_raiseLater h3 r x

/-- The parts of a list of operations end. -/
def State.opParts (s : State) (l : List (GroupRef × Nat)) : State := l.foldl (fun s o => s.opPart o.1 o.2) s

theorem opParts_groups (s : State) (l : List (GroupRef × Nat)) : ∃ gs, s.opParts l = { s with groups := gs } := by
  induction l generalizing s with
  | nil => exact ⟨s.groups, rfl⟩
  | cons o l ih =>
    obtain ⟨gs, h⟩ := (oneGroup_opPart s o.1 o.2).rest
    obtain ⟨gs', h'⟩ := ih (s.opPart o.1 o.2)
    exact ⟨gs', h'.trans (by rw [h])⟩

theorem traps_opParts {s : State} {q : GroupRef} {f : FaultInfo} (h : s.traps q f) (l : List (GroupRef × Nat)) : (s.opParts l).traps q f := by
  induction l generalizing s with
  | nil => exact h
  | cons o l ih => exact ih (traps_opPart h o.1 o.2)

theorem group_resolve (s : State) (p : Pending) (h : Horizons) (r : GroupRef) : (s.resolve p h).group r = (s.group r).map (fun g =>
    if g.pendObs.any (fun q => q.1 == p) then { g with ob := g.ob.fold h, pendObs := g.pendObs.filter (fun q => q.1 != p) } else g) := by
  rw [State.group, State.resolve, tblGet_map _ _ (fun x => by split <;> rfl)]
  refine congrArg (fun f => Option.map f (s.group r)) (funext fun g => ?_)
  split <;> rfl

theorem traps_resolve {s : State} {q : GroupRef} {f : FaultInfo} (h : s.traps q f) (p : Pending) (z : Horizons) : (s.resolve p z).traps q f := by
  obtain ⟨g, h1, h2⟩ := h
  rw [State.traps, group_resolve, h1, Option.map_some]
  refine ⟨_, rfl, ?_⟩
  split
  · exact h2
  · exact h2

/-- The fault of a deferred write (R413). -/
def BufEntry.fault (b : BufEntry) (f : Nat) : FaultInfo :=
  { code := .deferredWrite, mask := b.lastAct, addr := b.va, pc := b.lastPc, fb := some f }

/-- The bytes are in the fault buffer, the group's trap is pending, and the parts of the stores end. -/
theorem deferredWrite_ends {s : State} {b : BufEntry} {c : Ctx} {f : Nat} {g : Group} (hc : s.ctx b.ctx = some c)
    (hf : firstFrom (fun n => (tblGet c.fbuf n).isNone) 0 64 = some f) (hg : s.group b.lastG = some g) (hn : g.pendingTrap = none) (core : Nat) :
    ∃ t gs cs, ((s.deferredWrite b.ctx b b.drainer).resolve (.entry core b.id) {}).opParts b.ops = t ∧ t = { s with groups := gs, ctxs := cs } ∧
      t.ctx b.ctx = some { c with fbuf := tblPut c.fbuf f ⟨b.va, b.bytes, b.data⟩ } ∧ t.traps b.lastG (b.fault f) := by
  let s1 := s.modCtx b.ctx (fun c => { c with fbuf := tblPut c.fbuf f ⟨b.va, b.bytes, b.data⟩ })
  have hctx : s1.ctx b.ctx = some { c with fbuf := tblPut c.fbuf f ⟨b.va, b.bytes, b.data⟩ } :=
    ctx_modCtx_of_some hc _
  have htrap : (s1.raiseLater b.lastG (b.fault f)).traps b.lastG (b.fault f) := by
    refine ⟨{ g with pendingTrap := some (b.fault f) }, ?_, rfl⟩
    rw [State.raiseLater, State.group_modGroup, if_pos rfl, State.group_modCtx, hg, Option.map_some, if_neg (by rw [hn]; decide)]
  obtain ⟨gs, hgs⟩ := opParts_groups ((s1.raiseLater b.lastG (b.fault f)).resolve (.entry core b.id) {}) b.ops
  have htraps := traps_opParts (traps_resolve htrap (.entry core b.id) {}) b.ops
  rw [hgs] at htraps
  exact ⟨_, gs, s1.ctxs, (congrArg (fun t : State => (t.resolve (.entry core b.id) {}).opParts b.ops) (deferredWrite_eq hc hf b b.drainer)).trans hgs,
    rfl, hctx, htraps⟩

theorem drainEntry_deferred {s s1 : State} {core : Nat} {b : BufEntry} {c : Ctx} {f : Nat} {g : Group} (hr : b.retrans = true)
    (hx : (s.withoutEntry core b).translate core b.ctx b.va = (.absent, s1)) (hc : s.ctx b.ctx = some c)
    (hf : firstFrom (fun n => (tblGet c.fbuf n).isNone) 0 64 = some f) (hg : s.group b.lastG = some g) (hn : g.pendingTrap = none) :
    Sent s (s.drainEntry core b b.drainer) [] ∧ SameBytes s (s.drainEntry core b b.drainer) ∧
      ((s.drainEntry core b b.drainer).core core).buffer = ((s.withoutEntry core b).core core).buffer ∧
      (s.drainEntry core b b.drainer).ctx b.ctx = some { c with fbuf := tblPut c.fbuf f ⟨b.va, b.bytes, b.data⟩ } ∧
      (s.drainEntry core b b.drainer).traps b.lastG (b.fault f) := by
  have htr := translated_translate (s.withoutEntry core b) core b.ctx b.va
  have hbuf := buffer_translate (s.withoutEntry core b) core b.ctx b.va core
  rw [hx] at htr hbuf
  obtain ⟨hsame, hbytes, hsent⟩ := htr.same
  have hctx : s1.ctx b.ctx = some c := by
    obtain ⟨_, _, _, h⟩ := htr.eq
    rw [show s1 = _ from h]
    exact hc
  obtain ⟨t, gs, cs, ht, heq, hctx', htrap⟩ := deferredWrite_ends hctx hf ((hsame b.lastG).trans hg) hn core
  rw [drainEntry_fails hr hx, show b.ops.foldl (fun s o => s.opPart o.1 o.2) _ = t from ht]
  refine ⟨?_, ?_, ?_, hctx', htrap⟩
  · rw [heq]
    exact hsent
  · rw [heq]
    exact hbytes
  · rw [heq]
    exact hbuf

/-- Settles O23: an entry's bytes go out in time, or to the fault buffer. -/
theorem bufferEntriesDrain : Obligations.BufferEntriesDrain := by
  intro s s1 core k b c f g out gone hb
  refine ⟨fun hr hp => ?_, fun hr hx hc hf hg hn => ?_⟩
  · by_cases ht : b.created + 20 ≤ s.nowAt core
    · obtain ⟨hsent, hbytes, hgroups, hbuf, htxn, hcopy⟩ := drainEntry_out hr hp s core b.drainer
      refine ⟨_, bufferTimerDrain_drains hb (.inr ht), ?_⟩
      beta_reduce
      rw [if_pos ht]
      exact ⟨hsent, hbytes, hgroups, hbuf, ⟨_, htxn, rfl, rfl, rfl, rfl, rfl, rfl, rfl⟩, hcopy⟩
    · exact ⟨s, bufferTimerDrain_early hb hr ht, by beta_reduce; rw [if_neg ht]⟩
  · obtain ⟨hsent, hbytes, hbuf, hctx, htrap⟩ := drainEntry_deferred hr hx hc hf hg hn
    exact ⟨_, bufferTimerDrain_drains hb (.inl hr), hsent, hbytes, hbuf,
      ⟨_, _, hctx, tblGet_tblPut_self _ _ _, rfl, rfl, fun i hi => b.getLsbD_bytes hi⟩, htrap⟩

end Sys2Proof.Machine

namespace Sys2Proof.Machine

/-! ## Responses to a core (R89, R111, R112, R119, R124) -/

theorem GroupIs.of_wroteOnly {t : State} {r : GroupRef} {g' g1 : Group} {val : RegRef → Option Word64} (hg : t.group r = some g')
    (h : g'.WroteOnly g1 val) : GroupIs t r g1 val := ⟨g', hg, h.regs, h.pcs, h.bare⟩

/-- What a part of a load brings its thread. -/
def LoadPart.brings (p : LoadPart) (data : LineBits) : Arrival :=
  ⟨p.who, p.va, p.dst, p.ty, fieldOf (mergeLine data p.own p.ownMask) p.off p.n, none⟩

/-- The group of a part once its bytes are there. -/
def Group.gets (g : Group) (p : LoadPart) (data : LineBits) : Group :=
  if (g.ops.find? (fun o => o.id == p.op)).any (fun o => o.kind == .fill) then
    { g with fills := g.fills ++ [(p.who.getD 0, (g.thread (p.who.getD 0)).fdep, (p.brings data).x)] }
  else g.arrival p.op (p.brings data)

theorem serve_one {s : State} {p : LoadPart} {g : Group} (hg : s.group p.g = some g) (data : LineBits) (obs : ObsInfo) :
    s.serve data obs false [p] = ((s.setGroup p.g (g.gets p data)).observe p.g p.op p.beyond obs).opPart p.g p.op := by
  rw [State.serve, List.foldl_cons, List.foldl_nil, hg]
  rfl

theorem serve_oneGroup {s : State} {p : LoadPart} {g : Group} (hg : s.group p.g = some g) (data : LineBits) (obs : ObsInfo) :
    State.OneGroup s (s.serve data obs false [p]) p.g := by
  rw [serve_one hg]
  exact ((oneGroup_setGroup _ _ _).trans (oneGroup_modGroup _ _ _)).trans (oneGroup_opPart _ _ _)

/-- The part's group as the end of the part finds it. -/
theorem group_observed {s : State} {r : GroupRef} (g : Group) (op : Nat) (bytes : LineBits) (obs : ObsInfo) :
    ((s.setGroup r g).observe r op bytes obs).group r = some (g.saw op bytes obs) :=
  group_modGroup_self (State.group_setGroup_self _ _ _) _

theorem gets_of_load {g : Group} {p : LoadPart} {o : Op} (ho : g.ops.find? (fun o => o.id == p.op) = some o) (hk : o.kind ≠ .fill)
    (data : LineBits) : g.gets p data = g.arrival p.op (p.brings data) := by
  rw [Group.gets, ho, if_neg]
  simpa using hk

/-- The last part of a load that has not failed: what has arrived is in its registers. -/
theorem serve_completes {s : State} {p : LoadPart} {g : Group} {o : Op} (hg : s.group p.g = some g) (ho : LastPart g p.op o) (hk : o.kind ≠ .fill)
    (data : LineBits) (obs : ObsInfo) :
    GroupIs (s.serve data obs false [p]) p.g ((g.without p.op).saw p.op p.beyond obs)
      (arrivedResult g.budget (o.arrivals ++ [p.brings data])) := by
  have hlast : LastPart (g.arrival p.op (p.brings data)) p.op _ := ho.arrival rfl
  rw [serve_one hg, gets_of_load ho.1 hk, ← g.without_arrival p.op (p.brings data)]
  exact opPart_completes (g := (g.arrival p.op (p.brings data)).saw p.op p.beyond obs) (group_observed _ _ _ _) hlast

theorem loadResponse_direct {s : State} {m : Nat} {ch : Chan} {core c l : Nat} {data : LineBits} {x : Option Nat} {wl : Nat} {obs : ObsInfo}
    {p : LoadPart} (hd : Due s m ch (.loadResp c l data x wl obs false (.direct core [p]))) (hr : s.reportDue p.g.key.ctx l = false) :
    exec (.loadResponse m) s = .next ((s.take m).serve data obs false [p]) := by
  obtain ⟨own, seq, hd⟩ := hd
  dsimp only [exec, execLoadResponse]
  rw [hd]
  exact if_neg (Bool.eq_false_iff.mp hr)

theorem loadResponse_waits {s : State} {p : LoadPart} {g : Group} {o : Op} (hg : s.group p.g = some g)
    (ho : g.ops.find? (fun o => o.id == p.op) = some o) (hk : o.kind ≠ .fill) (hp : 1 < o.parts) (data : LineBits) (obs : ObsInfo) :
    ∃ g', (s.serve data obs false [p]).group p.g = some g' ∧ (∀ x, g'.reg x = g.reg x) ∧
      g'.ops.find? (fun o => o.id == p.op) = some { o with parts := o.parts - 1, arrivals := o.arrivals ++ [p.brings data] } := by
  have hid : o.id = p.op := by simpa using List.find?_some ho
  have hfind := g.find?_arrival p.op (p.brings data) ho
  rw [serve_one hg, gets_of_load ho hk,
    opPart_waits (g := (g.arrival p.op (p.brings data)).saw p.op p.beyond obs) (group_observed _ _ _ _) hfind hp, State.group_setGroup_self]
  refine ⟨_, rfl, fun x => by cases x <;> rfl, ?_⟩
  have hcomp : ((fun o : Op => o.id == p.op) ∘ fun x => if x.id = p.op then { x with parts := x.parts - 1 } else x) = fun o => o.id == p.op := by
    funext x
    dsimp only [Function.comp]
    split <;> rfl
  refine (List.find?_map ..).trans ?_
  rw [hcomp]
  refine (congrArg _ hfind).trans ?_
  rw [Option.map_some, if_pos hid]

theorem mem_insertNew {α : Type} [DecidableEq α] (l : List α) (x y : α) : x ∈ insertNew l y ↔ x ∈ l ∨ x = y := by
  unfold insertNew
  split
  next h =>
    rw [List.contains_iff_mem] at h
    exact ⟨.inl, fun hx => hx.elim id fun e => e ▸ h⟩
  · simp

theorem mem_foldl_insertNew {α : Type} [DecidableEq α] (l m : List α) (x : α) : x ∈ l.foldl insertNew m ↔ x ∈ l ∨ x ∈ m := by
  induction l generalizing m with
  | nil => simp
  | cons y l ih =>
    rw [List.foldl_cons, ih, mem_insertNew, List.mem_cons]
    tauto

theorem group_raiseLater {s : State} {r : GroupRef} {g : Group} (hg : s.group r = some g) (f : FaultInfo) :
    ∃ x, (s.raiseLater r f).group r = some { g with pendingTrap := x } := by
  rw [State.raiseLater, group_modGroup_self hg]
  split
  · exact ⟨g.pendingTrap, rfl⟩
  · exact ⟨_, rfl⟩

/-- What stands once an operation is over, whether or not a part of it has failed. -/
theorem opPart_over {s : State} {r : GroupRef} {g : Group} {id : Nat} {o : Op} (hg : s.group r = some g)
    (ho : g.ops.find? (fun o => o.id == id) = some o) (hp : o.parts ≤ 1) :
    ∃ x, (s.opPart r id).group r = some { (g.depositAll o).without id with
      undef := o.clobbered.foldl insertNew (g.depositAll o).undef, pendingTrap := x } := by
  rw [opPart_ends hg ho hp]
  cases o.fault with
  | none => exact ⟨(g.depositAll o).pendingTrap, State.group_setGroup_self _ _ _⟩
  | some f => exact group_raiseLater (State.group_setGroup_self _ _ _) f

theorem find?_without (g : Group) (id : Nat) : (g.without id).ops.find? (fun o => o.id == id) = none :=
  List.find?_eq_none.mpr fun o ho => by
    have h := (List.mem_filter.mp ho).2
    simpa using h

/-- Bytes that a fill brings are no registers' (R382), and the end of a part leaves them. -/
theorem fills_opPart {s : State} {r : GroupRef} {g : Group} {id : Nat} {o : Op} (hg : s.group r = some g)
    (ho : g.ops.find? (fun o => o.id == id) = some o) : ∃ g', (s.opPart r id).group r = some g' ∧ g'.fills = g.fills := by
  by_cases hp : 1 < o.parts
  · rw [opPart_waits hg ho hp]
    exact ⟨_, State.group_setGroup_self _ _ _, rfl⟩
  · obtain ⟨x, hx⟩ := opPart_over hg ho (Nat.not_lt.mp hp)
    obtain ⟨val, hw⟩ := g.depositAll_wroteOnly o
    have hfills : (g.depositAll o).bare.fills = g.bare.fills := by rw [hw.bare]
    exact ⟨_, hx, hfills⟩

theorem find?_gets {g : Group} {p : LoadPart} {o : Op} (ho : g.ops.find? (fun o => o.id == p.op) = some o) (data : LineBits) :
    ∃ l, (g.gets p data).ops.find? (fun o => o.id == p.op) = some { o with arrivals := l } := by
  unfold Group.gets
  split
  · exact ⟨o.arrivals, ho⟩
  · exact ⟨_, g.find?_arrival p.op _ ho⟩

/-- The last part of a load, failed or not: registers written meanwhile are undefined (R50). -/
theorem serve_over {s : State} {p : LoadPart} {g : Group} {o : Op} (hg : s.group p.g = some g)
    (ho : g.ops.find? (fun o => o.id == p.op) = some o) (hp : o.parts ≤ 1) (data : LineBits) (obs : ObsInfo) :
    ∃ g', (s.serve data obs false [p]).group p.g = some g' ∧ g'.ops.find? (fun o => o.id == p.op) = none ∧ ∀ x ∈ o.clobbered, x ∈ g'.undef := by
  obtain ⟨l, hfind⟩ := find?_gets ho data
  rw [serve_one hg]
  obtain ⟨x, hx⟩ := opPart_over (g := (g.gets p data).saw p.op p.beyond obs) (group_observed _ _ _ _) hfind hp
  exact ⟨_, hx, find?_without _ _, fun r hr => (mem_foldl_insertNew _ _ _).mpr (.inl hr)⟩

theorem serve_fills {s : State} {p : LoadPart} {g : Group} {o : Op} (hg : s.group p.g = some g)
    (ho : g.ops.find? (fun o => o.id == p.op) = some o) (hk : o.kind = .fill) (data : LineBits) (obs : ObsInfo) :
    ∃ g', (s.serve data obs false [p]).group p.g = some g' ∧
      g'.fills = g.fills ++ [(p.who.getD 0, (g.thread (p.who.getD 0)).fdep, (p.brings data).x)] := by
  obtain ⟨l, hfind⟩ := find?_gets ho data
  have hgets : (g.gets p data).fills = g.fills ++ [(p.who.getD 0, (g.thread (p.who.getD 0)).fdep, (p.brings data).x)] := by
    rw [Group.gets, ho, if_pos (by simp [hk])]
  rw [serve_one hg, ← hgets]
  exact fills_opPart (g := (g.gets p data).saw p.op p.beyond obs) (group_observed _ _ _ _) hfind

/-! ## A copy takes its place in an L1 (R89, R102) -/

/-- No pushed copy of a core can leave (R166). -/
def State.unpushed (s : State) (core : Nat) : Prop :=
  ∀ y ∈ (s.core core).copies, y.2.push = none ∧ ∀ z, y.2.older = some z → z.push = none

/-- Copies of a core have ended, and nothing else has changed. -/
structure State.Pruned (s t : State) (core : Nat) : Prop where
  rest : ∃ cs, t = { s with cores := cs }
  reqs : (t.core core).reqs = (s.core core).reqs
  unpushed : t.unpushed core

theorem State.Pruned.refl {s : State} {core : Nat} (h : s.unpushed core) : State.Pruned s s core := ⟨⟨s.cores, rfl⟩, rfl, h⟩

theorem State.Pruned.trans {s t u : State} {core : Nat} (h : State.Pruned s t core) (h' : State.Pruned t u core) : State.Pruned s u core := by
  obtain ⟨⟨cs, hrest⟩, hreqs, -⟩ := h
  obtain ⟨⟨cs', hrest'⟩, hreqs', hu⟩ := h'
  exact ⟨⟨cs', by rw [hrest', hrest]⟩, hreqs'.trans hreqs, hu⟩

theorem pruned_modCore {s : State} {core : Nat} {f : Core → Core} (hr : (f (s.core core)).reqs = (s.core core).reqs)
    (hu : ∀ y ∈ (f (s.core core)).copies, y.2.push = none ∧ ∀ z, y.2.older = some z → z.push = none) :
    State.Pruned s (s.modCore core f) core := by
  refine ⟨⟨_, rfl⟩, by rw [State.core_modCore_self, hr], fun y hy => ?_⟩
  rw [State.core_modCore_self] at hy
  exact hu y hy

theorem pruned_dropOlder {s : State} {core : Nat} (h : s.unpushed core) (l : LineNo) : State.Pruned s (s.dropOlder core l) core := by
  unfold State.dropOlder
  split
  · exact .refl h
  next y hy =>
    obtain ⟨x, hx, hxy⟩ := Option.bind_eq_some_iff.mp hy
    obtain ⟨-, hold⟩ := h _ (mem_of_tblGet hx)
    rw [hold y hxy]
    refine pruned_modCore (f := fun c => { c with copies := tblMod c.copies l (fun x => { x with older := none }) }) rfl fun z hz => ?_
    obtain ⟨w, hw, rfl⟩ := List.mem_map.mp hz
    split
    · exact ⟨(h w hw).1, fun z hz => absurd hz.symm (Option.some_ne_none z)⟩
    · exact h w hw

theorem pruned_dropCopy {s : State} {core : Nat} (h : s.unpushed core) (l : LineNo) : State.Pruned s (s.dropCopy core l) core := by
  unfold State.dropCopy
  split
  · exact .refl h
  next x hx =>
    have hold := pruned_dropOlder h l
    obtain ⟨hpush, -⟩ := h _ (mem_of_tblGet hx)
    rw [hpush]
    exact hold.trans (pruned_modCore (f := fun c => { c with copies := tblDel c.copies l }) rfl fun y hy =>
      hold.unpushed y (List.mem_filter.mp hy).1)

theorem pruned_evicted {s : State} {core : Nat} (h : s.unpushed core) (tag : LineNo) : State.Pruned s (s.evicted core tag) core :=
  pruned_modCore rfl h

theorem pruned_l1Room {s : State} {core : Nat} (h : s.unpushed core) (l : Nat) : State.Pruned s (s.l1Room core l) core := by
  unfold State.l1Room
  dsimp only
  split
  · exact .refl h
  · split
    next v _ _ =>
      have hdrop := pruned_dropCopy h v
      exact hdrop.trans (pruned_evicted hdrop.unpushed v)
    next w _ _ _ =>
      have hdel : State.Pruned s (s.modCore core (fun c => { c with weights := tblDel c.weights w.1 })) core := pruned_modCore rfl h
      exact hdel.trans (pruned_evicted hdel.unpushed _)
    · exact .refl h

theorem installCopy_installs {s : State} {core : Nat} (h : s.unpushed core) (l : LineNo) (x : L1Copy) :
    (∃ cs, s.installCopy core l x = { s with cores := cs }) ∧ ((s.installCopy core l x).core core).reqs = (s.core core).reqs ∧
      (s.l1Ways core ≠ 0 → tblGet ((s.installCopy core l x).core core).copies l = some x) := by
  have hdrop := pruned_dropCopy h l
  obtain ⟨⟨cs, hrest⟩, hreqs, -⟩ := hdrop.trans (pruned_l1Room hdrop.unpushed l)
  unfold State.installCopy
  dsimp only
  split
  next h0 => exact ⟨⟨cs, hrest⟩, hreqs, fun hn => absurd h0 hn⟩
  · refine ⟨⟨_, by rw [State.modCore, hrest]⟩, ?_, fun _ => ?_⟩
    · rw [State.core_modCore_self]
      exact hreqs
    · rw [State.core_modCore_self, tblGet_tblPut_self]

/-- The copy that a response to a request makes. -/
def L1Req.copy (q : L1Req) (data : LineBits) (e wl now : Nat) : L1Copy :=
  { data := mergeLine data q.drained q.drainedMask, from_ := 0, expiry := e, wl := wl, push := none, colour := q.colour, used := now }

/-- The state once a request has been answered, before its loads are served. -/
def State.filled (s : State) (core l : Nat) (q : L1Req) (data : LineBits) (x : Option Nat) (wl : Nat) : State :=
  let s1 := s.modCore core (fun c => { c with reqs := tblDel c.reqs l })
  match x with
  | none => s1
  | some e =>
    if q.alloc && !(tblGet (s.core core).copies l).any (fun y => decide (wl < y.wl)) then s1.installCopy core l (q.copy data e wl s.now) else s1

/-- A request of an L1 for one load is answered: the load is served. -/
theorem fillLine_one {s : State} {core l : Nat} {q : L1Req} {p : LoadPart} (hq : tblGet (s.core core).reqs l = some q)
    (hp : q.parts = [p]) (hj : q.joined = []) (hn : q.next = []) (data : LineBits) (x : Option Nat) (wl : Nat) (obs : ObsInfo) :
    s.fillLine core l data x wl obs false = (s.filled core l q data x wl).serve data obs false [p] := by
  unfold State.fillLine State.filled
  rw [hq]
  simp only [hp, hj, hn, List.filterMap_nil, ite_self, List.append_nil, List.foldl_nil, Bool.not_false, Bool.and_true]
  cases x with
  | none => rfl
  | some e => cases tblGet (s.core core).copies l <;> rfl

/-- Where a lease came the line is there. -/
theorem filled_copies {s : State} {core : Nat} (h : s.unpushed core) (l : Nat) (q : L1Req) (data : LineBits) (x : Option Nat) (wl : Nat) :
    (∃ cs, s.filled core l q data x wl = { s with cores := cs }) ∧ tblGet ((s.filled core l q data x wl).core core).reqs l = none ∧
      ∀ e, x = some e → q.alloc = true → s.l1Ways core ≠ 0 → (∀ c, tblGet (s.core core).copies l = some c → c.wl ≤ wl) →
        tblGet ((s.filled core l q data x wl).core core).copies l = some (q.copy data e wl s.now) := by
  have hs1 : State.Pruned (s.modCore core (fun c => { c with reqs := tblDel c.reqs l }))
      (s.modCore core (fun c => { c with reqs := tblDel c.reqs l })) core := .refl fun y hy => by
    rw [State.core_modCore_self] at hy
    exact h y hy
  have hreq : tblGet ((s.modCore core (fun c => { c with reqs := tblDel c.reqs l })).core core).reqs l = none := by
    rw [State.core_modCore_self, tblGet_tblDel, if_pos rfl]
  unfold State.filled
  cases x with
  | none => exact ⟨⟨_, rfl⟩, hreq, nofun⟩
  | some e =>
    obtain ⟨⟨cs, hcs⟩, hreqs, hcopy⟩ := installCopy_installs hs1.unpushed l (q.copy data e wl s.now)
    dsimp only
    split
    · refine ⟨⟨cs, hcs⟩, by rw [hreqs, hreq], fun e' he _ hw _ => ?_⟩
      rw [← Option.some.inj he]
      exact hcopy hw
    next hno =>
      refine ⟨⟨_, rfl⟩, hreq, fun _ _ ha _ hold => absurd ?_ hno⟩
      cases hc : tblGet (s.core core).copies l with
      | none => simp [ha]
      | some c => simpa [ha] using hold c hc

theorem loadResponse_l1 {s : State} {m : Nat} {ch : Chan} {core c l : Nat} {data : LineBits} {x : Option Nat} {wl : Nat} {obs : ObsInfo}
    {alloc : Bool} {q : L1Req} (hd : Due s m ch (.loadResp core l data x wl obs false (.l1 c alloc)))
    (hq : tblGet (s.core core).reqs l = some q) (hr : s.reportDue q.req.ctx l = false) :
    exec (.loadResponse m) s = .next ((s.take m).fillLine core l data x wl obs false) := by
  obtain ⟨own, seq, hd⟩ := hd
  dsimp only [exec, execLoadResponse]
  rw [hd]
  refine if_neg ?_
  dsimp only [respCtx]
  rw [hq]
  exact Bool.eq_false_iff.mp hr

/-! ## The weight stores (R118, R119) -/

/-- A line of a weight store serves a load; it may take a place in the L1. -/
theorem weightArrive_one {s : State} {core a : Nat} (h : s.unpushed core) (hb : (s.weightLine (a / 128)).2 = false) (alloc : Bool) (p : LoadPart) :
    ∃ t, s.weightArrive core a alloc [p] = t.serve (s.weightLine (a / 128)).1 noObs false [p] ∧ ∃ cs, t = { s with cores := cs } := by
  unfold State.weightArrive
  dsimp only
  rw [hb]
  refine ⟨_, rfl, ?_⟩
  split
  · exact ⟨s.cores, rfl⟩
  · obtain ⟨⟨cs, hcs⟩, -, -⟩ := pruned_l1Room h (a / 128)
    exact ⟨_, by rw [State.modCore, hcs]⟩

theorem loadResponse_weights {s : State} {m : Nat} {ch : Chan} {core a : Nat} {alloc : Bool} {p : LoadPart}
    (hd : Due s m ch (.weightResp core a alloc [p])) : exec (.loadResponse m) s = .next (if inRefresh a s.now then
      (s.take m).send ⟨.resp, 6000 + a / 2 ^ 30 * 16 + a / 256 % 16, portCore core⟩ (.refresh core a alloc [p])
    else (s.take m).weightArrive core a alloc [p]) := by
  obtain ⟨own, seq, hd⟩ := hd
  dsimp only [exec, execLoadResponse]
  rw [hd]
  dsimp only
  split <;> rfl

theorem refreshWindowEnd_weights {s : State} {m : Nat} {ch : Chan} {core a : Nat} {alloc : Bool} {p : LoadPart}
    (hd : Due s m ch (.refresh core a alloc [p])) : exec (.refreshWindowEnd m) s = .next (if inRefresh a s.now then s
    else (s.take m).weightArrive core a alloc [p]) := by
  obtain ⟨own, seq, hd⟩ := hd
  dsimp only [exec, execRefreshWindowEnd]
  rw [hd]
  dsimp only
  split <;> rfl

/-! ## Loads and stores of scratchpad (R182, R184) -/

theorem arrivedResult_nil (budget : Nat) : arrivedResult budget [] = noReg := rfl

theorem GroupIs.after {t : State} {r : GroupRef} {g1 g0 : Group} {val : RegRef → Option Word64} (h : GroupIs t r g1 noReg)
    (h0 : g1.WroteOnly g0 val) : GroupIs t r g0 val := by
  obtain ⟨g', hg, hregs, hpcs, hbare⟩ := h
  exact .of_wroteOnly hg ((Group.WroteOnly.trans ⟨hregs, hpcs, hbare⟩ h0).congr fun _ => rfl)

/-- The operation that a value is written for is not marked (R50). -/
theorem find?_deposit (g : Group) (id : Nat) (ty : Ty) (d : Dst) (t : Tid) (x : BitVec 128) {o : Op}
    (ho : g.ops.find? (fun o => o.id == id) = some o) : (g.deposit id ty d t x).ops.find? (fun o => o.id == id) = some o := by
  have hid : o.id = id := by simpa using List.find?_some ho
  obtain ⟨u, p, hc, -, -⟩ := g.deposit_eq id ty d t x
  have hops : (g.putLoaded ty d t x).ops = g.ops := by rw [(g.putLoaded_put ty d t x).rest]
  have hcomp : (fun o : Op => o.id == id) ∘ Op.markedBy id ((Dst.regs ty d t).filter g.writable) = fun o => o.id == id := by
    funext o
    rw [Function.comp, Op.markedBy_id]
  rw [hc]
  dsimp only
  rw [hops, List.find?_map, hcomp, ho, Option.map_some, Op.markedBy, if_pos hid]

theorem LastPart.deposit {g : Group} {id : Nat} {o : Op} (h : LastPart g id o) (ty : Ty) (d : Dst) (t : Tid) (x : BitVec 128) :
    LastPart (g.deposit id ty d t x) id o := by
  obtain ⟨hfind, hrest⟩ := h
  exact ⟨find?_deposit g id ty d t x hfind, hrest⟩

/-- An access that finds its block and no poison is performed, and its operation ends. -/
theorem perform_one {s : State} {r : GroupRef} {g : Group} {load : Bool} {z : ScratchPart} {v : BitVec 128} {bad : Bool}
    (hg : s.group r = some g) (hv : s.scratchValue r.key z.at_ z.n = some (v, bad)) (hb : (load && bad) = false) (op : Nat)
    (f : ScratchPart → State → State) : s.perform r op load [z] f = (f z s).opPart r op := by
  have hbank : s.bankFault r load [z] = none := by
    have hgone : [z].filter (fun p => (s.scratchValue r.key p.at_ p.n).isNone) = [] := by
      simp [hv]
    have hpoison : [z].filter (fun p => load && (s.scratchValue r.key p.at_ p.n).any Prod.snd) = [] := by
      simpa [hv] using hb
    unfold State.bankFault
    dsimp only
    rw [hgone, hpoison]
  unfold State.perform
  rw [hg, hbank]
  rfl

theorem performLdx_one {s : State} {r : GroupRef} {g : Group} {o : Op} {z : ScratchPart} {v : BitVec 128} {op : Nat} (hg : s.group r = some g)
    (ho : LastPart g op o) (ha : o.arrivals = []) (hv : s.scratchValue r.key z.at_ z.n = some (v, false)) :
    State.OneGroup s (performLdx s r op [z]) r ∧
      GroupIs (performLdx s r op [z]) r (g.without op) (loadResult z.ty z.dst (z.who.getD 0) g.budget v) := by
  have hdo : performLdx s r op [z] = (s.modGroup r (fun g => g.deposit op z.ty z.dst (z.who.getD 0) v)).opPart r op := by
    rw [performLdx, perform_one hg hv rfl, hv]
  have hend := opPart_completes (group_modGroup_self hg fun g => g.deposit op z.ty z.dst (z.who.getD 0) v) (ho.deposit z.ty z.dst (z.who.getD 0) v)
  rw [ha, arrivedResult_nil] at hend
  rw [hdo]
  exact ⟨(oneGroup_modGroup _ _ _).trans (oneGroup_opPart _ _ _), hend.after ((g.deposit_wrote op z.ty z.dst (z.who.getD 0) v).without op)⟩

/-- Bytes written to a share, of several for one place the last; every other byte stands. -/
theorem spWrite_writes (b : Block) (slot : Nat) (bs : List Byte) (s : State) (off : Nat) (w : s.mem.wf = true) :
    ∃ m p, s.spWrite b slot off bs = { s with mem := m, poison := p } ∧
      (∀ i, i < bs.length → m.read (shareKey b slot (off + i)) = bs.getD i 0#8 ∨
        ∃ j, i < j ∧ j < bs.length ∧ shareKey b slot (off + j) = shareKey b slot (off + i)) ∧
      ∀ a, (∀ i, i < bs.length → shareKey b slot (off + i) ≠ a) → m.read a = s.mem.read a := by
  induction bs generalizing s off with
  | nil => exact ⟨s.mem, s.poison, rfl, fun i hi => absurd hi (Nat.not_lt_zero i), fun _ _ => rfl⟩
  | cons x bs ih =>
    obtain ⟨m, p, heq, hwrote, hkept⟩ := ih { s with
      mem := s.mem.write (shareKey b slot off) x
      poison := if s.poison.isEmpty then [] else s.poison.filter (fun p => decide (p ≠ .byte (shareKey b slot off))) } (off + 1)
      (Memory.wf_write w _ _)
    have hoff (i : Nat) : off + 1 + i = off + (i + 1) := by omega
    simp only [hoff] at hwrote hkept
    refine ⟨m, p, heq, fun i hi => ?_, fun a ha => ?_⟩
    · cases i with
      | zero =>
        by_cases hlast : ∀ i, i < bs.length → shareKey b slot (off + (i + 1)) ≠ shareKey b slot (off + 0)
        · refine .inl ((hkept _ hlast).trans ?_)
          exact Memory.read_write_self w _ _
        · push Not at hlast
          obtain ⟨j, hj, he⟩ := hlast
          exact .inr ⟨j + 1, Nat.succ_pos j, Nat.succ_lt_succ hj, he⟩
      | succ i =>
        obtain h | ⟨j, hij, hj, he⟩ := hwrote i (Nat.lt_of_succ_lt_succ hi)
        · exact .inl h
        · exact .inr ⟨j + 1, Nat.succ_lt_succ hij, Nat.succ_lt_succ hj, he⟩
    · refine (hkept a fun i hi => ha (i + 1) (Nat.succ_lt_succ hi)).trans ?_
      exact Memory.read_write_other w (fun h => ha 0 (Nat.succ_pos _) h.symm) x

/-- One access of an STX: its bytes are in the share, and its operation ends. -/
theorem performStx_one {s : State} {r : GroupRef} {g : Group} {o : Op} {z : ScratchPart} {op slot off : Nat} {k : BlockKey} {peer : Bool} {b : Block}
    (hg : s.group r = some g) (ho : LastPart g op o) (ha : o.arrivals = []) (hz : z.at_ = .bytes k slot off peer) (hb : s.block k = some b)
    (w : s.mem.wf = true) :
    GroupIs (performStx s r op [z]) r (g.without op) noReg ∧ ∃ t, State.OneGroup t (performStx s r op [z]) r ∧
      (∃ m p, t = { s with mem := m, poison := p }) ∧
      (∀ i, i < z.n → t.mem.read (shareKey b slot (off + i)) = (leBytes z.n z.data.toNat).getD i 0#8 ∨
        ∃ j, i < j ∧ j < z.n ∧ shareKey b slot (off + j) = shareKey b slot (off + i)) ∧
      ∀ a, (∀ i, i < z.n → shareKey b slot (off + i) ≠ a) → t.mem.read a = s.mem.read a := by
  obtain ⟨m, p, heq, hwrote, hkept⟩ := spWrite_writes b slot (leBytes z.n z.data.toNat) s off w
  rw [leBytes_length] at hwrote hkept
  have hv : s.scratchValue r.key z.at_ z.n = some (leBits 128 (s.spRead b slot off z.n), s.spPoisoned b slot off z.n) := by
    rw [hz]
    exact congrArg (Option.map _) hb
  have hput : s.scratchPut z.at_ (leBytes z.n z.data.toNat) = { s with mem := m, poison := p } := by
    rw [← heq, hz]
    dsimp only [State.scratchPut]
    rw [hb]
  have hdo : performStx s r op [z] = ({ s with mem := m, poison := p } : State).opPart r op := by
    rw [performStx, perform_one hg hv rfl, hput]
  have hend := opPart_completes (s := { s with mem := m, poison := p }) hg ho
  rw [ha, arrivedResult_nil] at hend
  rw [hdo]
  exact ⟨hend, _, oneGroup_opPart _ _ _, ⟨m, p, rfl⟩, hwrote, hkept⟩

/-! ## Updates (R131, R335) -/

/-- What the group of an update observes with the old value. -/
def Update.seenBy (u : Update) (g : Group) (wl : Nat) : Group :=
  match u.op with
  | .rmw _ ty _ | .cas ty _ _ => g.saw u.opId (byteMask (u.addr % 128) (ty.width / 8)) (deviceObs wl)
  | _ => g

/-- What an update that has been made brings its thread. -/
def Update.brings (u : Update) (old : Word64) : Arrival := ⟨u.who, u.va, u.dst.getD .zero, u.op.ty, old.setWidth 128, none⟩

theorem Update.seenBy_ops (u : Update) (g : Group) (wl : Nat) : (u.seenBy g wl).ops = g.ops := by
  unfold Update.seenBy
  split <;> rfl

theorem Update.seenBy_without (u : Update) (g : Group) (wl id : Nat) : (u.seenBy g wl).without id = u.seenBy (g.without id) wl := by
  unfold Update.seenBy
  split <;> rfl

theorem Update.seenBy_budget (u : Update) (g : Group) (wl : Nat) : (u.seenBy g wl).budget = g.budget := by
  unfold Update.seenBy
  split <;> rfl

/-- The group of an update as the end of its part finds it. -/
def Update.arrived (u : Update) (g : Group) (old : Word64) (w wl : Nat) : Group :=
  u.seenBy { g.arrival u.opId (u.brings old) with hz := g.hz.fold ⟨w, w, w, w⟩ } wl

theorem groupUpdated_eq {s : State} {u : Update} {g : Group} (hg : s.group u.g = some g) (hh : u.holder = none) (old : Word64) (w wl : Nat) :
    ∃ t, s.groupUpdated u old w wl false = t.opPart u.g u.opId ∧ State.OneGroup s t u.g ∧ t.group u.g = some (u.arrived g old w wl) := by
  have h2 : ((s.setGroup u.g (g.arrival u.opId (u.brings old))).foldHz u.g ⟨w, w, w, w⟩).group u.g =
      some { g.arrival u.opId (u.brings old) with hz := g.hz.fold ⟨w, w, w, w⟩ } :=
    group_modGroup_self (State.group_setGroup_self _ _ _) _
  have hone : State.OneGroup s ((s.setGroup u.g (g.arrival u.opId (u.brings old))).foldHz u.g ⟨w, w, w, w⟩) u.g :=
    (oneGroup_setGroup _ _ _).trans (oneGroup_modGroup _ _ _)
  have hobs (bytes : LineBits) := hone.trans (oneGroup_modGroup _ u.g (fun g => g.saw u.opId bytes (deviceObs wl)))
  have hsaw (bytes : LineBits) := group_modGroup_self h2 (fun g => g.saw u.opId bytes (deviceObs wl))
  obtain ⟨addr, op, core, ctx, r, opId, who, dst, colour, holder, l0, va, tgt⟩ := u
  obtain rfl : holder = none := hh
  unfold State.groupUpdated
  rw [hg]
  cases op with
  | rmw f ty x => exact ⟨_, rfl, hobs _, hsaw _⟩
  | cas ty new cmp => exact ⟨_, rfl, hobs _, hsaw _⟩
  | signal f x => exact ⟨_, rfl, hone, h2⟩
  | put data mask keep => exact ⟨_, rfl, hone, h2⟩
  | drain f ty els => exact ⟨_, rfl, hone, h2⟩

/-- The last update of an operation: its old value is written, its time is in the group's horizons. -/
theorem groupUpdated_completes {s : State} {u : Update} {g : Group} {o : Op} (hg : s.group u.g = some g) (ho : LastPart g u.opId o)
    (hh : u.holder = none) (old : Word64) (w wl : Nat) :
    State.OneGroup s (s.groupUpdated u old w wl false) u.g ∧
      GroupIs (s.groupUpdated u old w wl false) u.g (u.seenBy { g.without u.opId with hz := g.hz.fold ⟨w, w, w, w⟩ } wl)
        (arrivedResult g.budget (o.arrivals ++ [u.brings old])) := by
  obtain ⟨t, heq, hone, ht⟩ := groupUpdated_eq hg hh old w wl
  have hlast : LastPart (u.arrived g old w wl) u.opId { o with arrivals := o.arrivals ++ [u.brings old] } := by
    unfold LastPart
    rw [Update.arrived, Update.seenBy_ops]
    exact ho.arrival rfl
  have hend := opPart_completes ht hlast
  rw [Update.arrived, Update.seenBy_budget, Update.seenBy_without] at hend
  have hwithout : ({ g.arrival u.opId (u.brings old) with hz := g.hz.fold ⟨w, w, w, w⟩ } : Group).without u.opId =
      { g.without u.opId with hz := g.hz.fold ⟨w, w, w, w⟩ } := by
    rw [← g.without_arrival u.opId (u.brings old)]
    rfl
  rw [hwithout] at hend
  rw [heq]
  exact ⟨hone.trans (oneGroup_opPart _ _ _), hend⟩

theorem loadResponse_update {s : State} {m : Nat} {ch : Chan} {u : Update} {old : Word64} {w wl : Nat}
    (hd : Due s m ch (.updateDone u old w wl false)) (ht : u.tgt = .group) {d : Dst} (hu : u.dst = some d) :
    exec (.loadResponse m) s = .next ((s.take m).groupUpdated u old w wl false) := by
  obtain ⟨own, seq, hd⟩ := hd
  dsimp only [exec, execLoadResponse]
  rw [hd]
  dsimp only
  rw [if_pos (by rw [hu]; rfl), State.updateBack, ht]

theorem storeCompletion_update {s : State} {m : Nat} {ch : Chan} {u : Update} {old : Word64} {w wl : Nat}
    (hd : Due s m ch (.updateDone u old w wl false)) (ht : u.tgt = .group) (hu : u.dst = none) :
    exec (.storeCompletion m) s = .next ((s.take m).groupUpdated u old w wl false) := by
  obtain ⟨own, seq, hd⟩ := hd
  dsimp only [exec, execStoreCompletion]
  rw [hd]
  dsimp only
  rw [if_neg (by rw [hu]; decide), State.updateBack, ht]

/-- What arrives for no destination writes nothing. -/
theorem arrivedResult_zero (budget : Nat) {a : Arrival} (h : a.dst = .zero) : arrivedResult budget [a] = noReg := by
  funext r
  rw [arrivedResult, List.reverse_singleton, List.findSome?_singleton, h]
  cases r <;> rfl

/-! ## The times of a store return (R103, R106, R107) -/

theorem sendHeldReads_none {s : State} {core : Nat} {l : LineNo} (h : tblGet (s.core core).reqs l = none) : s.sendHeldReads core l = s := by
  unfold State.sendHeldReads
  rw [h]
  exact ite_self _

/-- What waits for other times stands. -/
theorem group_resolve_other {s : State} {p : Pending} {r : GroupRef} (h : ∀ g, s.group r = some g → ∀ y ∈ g.pendObs, y.1 ≠ p) (z : Horizons) :
    (s.resolve p z).group r = s.group r := by
  rw [group_resolve]
  cases hg : s.group r with
  | none => rfl
  | some g =>
    rw [Option.map_some, if_neg]
    intro hany
    obtain ⟨y, hy, he⟩ := List.any_eq_true.mp hany
    exact h g hg y hy (eq_of_beq he)

/-- A store of one group whose times return: it is over, and the group has the times. -/
theorem finishTxn_one {s : State} {r : GroupRef} {g : Group} {o : Op} {op txn : Nat} {q : StoreTxn} (hg : s.group r = some g)
    (ho : LastPart g op o) (ha : o.arrivals = []) (hq : tblGet s.txns txn = some q) (hops : q.ops = [(r, op)]) (hw : q.writers = [r])
    (hc : q.colour = 0) (hr : tblGet (s.core q.core).reqs q.line = none)
    (hp : ∀ a x, s.group a = some x → ∀ y ∈ x.pendObs, y.1 ≠ Pending.entry q.core txn) (h : Horizons) :
    (∃ gs, s.finishTxn txn h = { s with txns := tblDel s.txns txn, groups := gs }) ∧
      (∀ q, q ≠ r → (s.finishTxn txn h).group q = s.group q) ∧
      GroupIs (s.finishTxn txn h) r { g.without op with hz := g.hz.fold { h with core := q.coreTime.getD h.clus } } noReg := by
  let times : Horizons := { h with core := q.coreTime.getD h.clus }
  let s2 := ({ s with txns := tblDel s.txns txn } : State).foldHz r times
  have h2 : State.OneGroup { s with txns := tblDel s.txns txn } s2 r := oneGroup_modGroup _ _ _
  have hg2 : s2.group r = some { g with hz := g.hz.fold times } :=
    group_modGroup_self (s := { s with txns := tblDel s.txns txn }) hg _
  have hres (a : GroupRef) : (s2.resolve (.entry q.core txn) times).group a = s2.group a := by
    refine group_resolve_other (fun x hx => ?_) times
    by_cases har : a = r
    · rw [har] at hx
      rw [← Option.some.inj (hg2.symm.trans hx)]
      exact hp r g hg
    · exact hp a x ((h2.others a har).symm.trans hx)
  have hfinish : s.finishTxn txn h = (s2.resolve (.entry q.core txn) times).opPart r op := by
    obtain ⟨-, -, -, hcores, -⟩ := ((oneGroup_opPart (s2.resolve (.entry q.core txn) times) r op)).quiet
    have hread : tblGet (((s2.resolve (.entry q.core txn) times).opPart r op).core q.core).reqs q.line = none := by
      rw [State.core, hcores]
      exact hr
    rw [← sendHeldReads_none hread]
    unfold State.finishTxn
    rw [hq]
    simp only [hops, hw, List.foldl_cons, List.foldl_nil, State.foldHzc, hc, if_true]
    rfl
  have hend := opPart_completes ((hres r).trans hg2) (o := o) (id := op) ho
  rw [ha, arrivedResult_nil] at hend
  obtain ⟨⟨gs, hgs⟩, hothers⟩ := oneGroup_opPart (s2.resolve (.entry q.core txn) times) r op
  rw [hfinish]
  exact ⟨⟨gs, hgs⟩, fun a har => (hothers a har).trans ((hres a).trans (h2.others a har)), hend⟩

theorem dieTime_one {s : State} {r : GroupRef} {g : Group} {txn : Nat} {q : StoreTxn} (hg : s.group r = some g) (hq : tblGet s.txns txn = some q)
    (hw : q.writers = [r]) (w : Nat) :
    State.OneGroup s (s.dieTime txn w) r ∧ GroupIs (s.dieTime txn w) r { g with hz := g.hz.fold ⟨0, w, w, 0⟩ } noReg := by
  have hdo : s.dieTime txn w = s.foldHz r ⟨0, w, w, 0⟩ := by
    unfold State.dieTime
    rw [hq]
    dsimp only
    rw [hw, List.foldl_cons, List.foldl_nil]
  rw [hdo]
  exact ⟨oneGroup_modGroup _ _ _, .of_wroteOnly (group_modGroup_self hg _) (.refl _)⟩

/-- A message at place `m` is taken and ends an access of a group: no byte and no other group has changed. -/
def Completes (s t : State) (m : Nat) (r : GroupRef) (g1 : Group) (val : RegRef → Option Word64) : Prop :=
  Swapped s t m [] ∧ SameBytes s t ∧ (∀ q, q ≠ r → t.group q = s.group q) ∧ GroupIs t r g1 val

theorem completes_of_cores {s t t' : State} {m : Nat} {r : GroupRef} {g1 : Group} {val : RegRef → Option Word64}
    (hc : ∃ cs, t = { s.take m with cores := cs }) (h : State.OneGroup t t' r) (hg : GroupIs t' r g1 val) : Completes s t' m r g1 val := by
  obtain ⟨cs, rfl⟩ := hc
  obtain ⟨hnet, hlines, hmem, -, -⟩ := h.quiet
  exact ⟨hnet.trans (List.append_nil _).symm, sameBytes_of_eq hlines hmem, h.others, hg⟩

theorem completes_of_oneGroup {s t : State} {m : Nat} {r : GroupRef} {g1 : Group} {val : RegRef → Option Word64}
    (h : State.OneGroup (s.take m) t r) (hg : GroupIs t r g1 val) : Completes s t m r g1 val :=
  completes_of_cores ⟨s.cores, rfl⟩ h hg

theorem State.OneGroup.core {s t : State} {r : GroupRef} (h : State.OneGroup s t r) (c : Nat) : t.core c = s.core c := by
  obtain ⟨-, -, -, hcores, -⟩ := h.quiet
  rw [State.core, State.core, hcores]

/-- The last part of a load is served, whatever has become of the cores' copies. -/
theorem completes_serve {s t : State} {m : Nat} {p : LoadPart} {g : Group} {o : Op} (hc : ∃ cs, t = { s.take m with cores := cs })
    (hg : s.group p.g = some g) (ho : LastPart g p.op o) (hk : o.kind ≠ .fill) (data : LineBits) (obs : ObsInfo) :
    Completes s (t.serve data obs false [p]) m p.g ((g.without p.op).saw p.op p.beyond obs)
      (arrivedResult g.budget (o.arrivals ++ [p.brings data])) := by
  have hg' : t.group p.g = some g := by
    obtain ⟨cs, rfl⟩ := hc
    exact hg
  exact completes_of_cores hc (serve_oneGroup hg' data obs) (serve_completes hg' ho hk data obs)

/-- A line of a weight store arrives for the last part of a load (R119). -/
theorem completes_weightArrive {s : State} {m core a : Nat} {p : LoadPart} {g : Group} {o : Op} (hg : s.group p.g = some g)
    (ho : LastPart g p.op o) (hk : o.kind ≠ .fill) (hu : s.unpushed core) (hb : (s.weightLine (a / 128)).2 = false) (alloc : Bool) :
    Completes s ((s.take m).weightArrive core a alloc [p]) m p.g ((g.without p.op).saw p.op p.beyond noObs)
      (arrivedResult g.budget (o.arrivals ++ [p.brings (s.weightLine (a / 128)).1])) := by
  obtain ⟨t, heq, hc⟩ := weightArrive_one (s := s.take m) (core := core) (a := a) hu hb alloc p
  rw [heq]
  exact completes_serve hc hg ho hk _ noObs

theorem loadResponse_l1_completes {s : State} {m : Nat} {ch : Chan} {core c l : Nat} {data : LineBits} {x : Option Nat} {wl : Nat}
    {obs : ObsInfo} {alloc : Bool} {q : L1Req} {p : LoadPart} {g : Group} {o : Op} (hg : s.group p.g = some g) (ho : LastPart g p.op o)
    (hk : o.kind ≠ .fill) (hu : s.unpushed core) (hd : Due s m ch (.loadResp core l data x wl obs false (.l1 c alloc)))
    (hq : tblGet (s.core core).reqs l = some q) (hp : q.parts = [p]) (hj : q.joined = []) (hn : q.next = [])
    (hr : s.reportDue q.req.ctx l = false) :
    Happens (.loadResponse m) s (fun t =>
      Completes s t m p.g ((g.without p.op).saw p.op p.beyond obs) (arrivedResult g.budget (o.arrivals ++ [p.brings data])) ∧
        tblGet (t.core core).reqs l = none ∧
        ∀ e, x = some e → q.alloc = true → s.l1Ways core ≠ 0 → (∀ c, tblGet (s.core core).copies l = some c → c.wl ≤ wl) →
          tblGet (t.core core).copies l = some (q.copy data e wl s.now)) := by
  obtain ⟨hc, hreq, hcopy⟩ := filled_copies (s := s.take m) hu l q data x wl
  have hg' : ((s.take m).filled core l q data x wl).group p.g = some g := by
    obtain ⟨cs, h⟩ := hc
    rw [h]
    exact hg
  refine ⟨_, loadResponse_l1 hd hq hr, ?_⟩
  rw [fillLine_one (s := s.take m) hq hp hj hn data x wl obs]
  beta_reduce
  rw [(serve_oneGroup hg' data obs).core]
  exact ⟨completes_serve hc hg ho hk data obs, hreq, hcopy⟩

theorem loadResponse_weights_completes {s : State} {m : Nat} {ch : Chan} {core a : Nat} {alloc : Bool} {p : LoadPart} {g : Group} {o : Op}
    (hg : s.group p.g = some g) (ho : LastPart g p.op o) (hk : o.kind ≠ .fill) (hu : s.unpushed core)
    (hb : (s.weightLine (a / 128)).2 = false) (hd : Due s m ch (.weightResp core a alloc [p])) :
    Happens (.loadResponse m) s (fun t => if inRefresh a s.now then
        Swapped s t m [{ ch := ⟨.resp, 6000 + a / 2 ^ 30 * 16 + a / 256 % 16, portCore core⟩, body := .refresh core a alloc [p] }] ∧ SameGroups s t
      else Completes s t m p.g ((g.without p.op).saw p.op p.beyond noObs)
        (arrivedResult g.budget (o.arrivals ++ [p.brings (s.weightLine (a / 128)).1]))) := by
  refine ⟨_, loadResponse_weights hd, ?_⟩
  by_cases h : inRefresh a s.now = true
  · simp only [if_pos h]
    exact ⟨rfl, sameGroups_of_eq rfl⟩
  · simp only [if_neg h]
    exact completes_weightArrive hg ho hk hu hb alloc

theorem refreshWindowEnd_completes {s : State} {m : Nat} {ch : Chan} {core a : Nat} {alloc : Bool} {p : LoadPart} {g : Group} {o : Op}
    (hg : s.group p.g = some g) (ho : LastPart g p.op o) (hk : o.kind ≠ .fill) (hu : s.unpushed core)
    (hb : (s.weightLine (a / 128)).2 = false) (hd : Due s m ch (.refresh core a alloc [p])) :
    Happens (.refreshWindowEnd m) s (fun t => if inRefresh a s.now then t = s
      else Completes s t m p.g ((g.without p.op).saw p.op p.beyond noObs)
        (arrivedResult g.budget (o.arrivals ++ [p.brings (s.weightLine (a / 128)).1]))) := by
  refine ⟨_, refreshWindowEnd_weights hd, ?_⟩
  by_cases h : inRefresh a s.now = true
  · simp only [if_pos h]
  · simp only [if_neg h]
    exact completes_weightArrive hg ho hk hu hb alloc

/-- What a scratchpad read finds does not depend on the network. -/
theorem scratchValue_take (s : State) (m : Nat) (key : BlockKey) (a : ScratchAt) (n : Nat) :
    (s.take m).scratchValue key a n = s.scratchValue key a n := by
  have hread (b : Block) (slot off n : Nat) : (s.take m).spRead b slot off n = s.spRead b slot off n := by
    induction n generalizing off with
    | zero => rfl
    | succ n ih =>
      rw [State.spRead, State.spRead, ih]
      rfl
  have hpoison (b : Block) (slot off n : Nat) : (s.take m).spPoisoned b slot off n = s.spPoisoned b slot off n := by
    induction n generalizing off with
    | zero => rfl
    | succ n ih =>
      rw [State.spPoisoned, State.spPoisoned, ih]
      rfl
  cases a with
  | bytes k slot off peer =>
    simp only [State.scratchValue, hread, hpoison]
    rfl
  | window slot bar off => rfl

theorem loadResponse_scratch {s : State} {m : Nat} {ch : Chan} {r : GroupRef} {op : Nat} {z : ScratchPart}
    (hd : Due s m ch (.scratch r op true [z])) : exec (.loadResponse m) s = .next (performLdx (s.take m) r op [z]) := by
  obtain ⟨own, seq, hd⟩ := hd
  dsimp only [exec, execLoadResponse]
  rw [hd]

theorem storeCompletion_done {s : State} {m : Nat} {ch : Chan} {txn : Nat} {h : Horizons} (hd : Due s m ch (.storeDone txn h)) :
    exec (.storeCompletion m) s = .next ((s.take m).finishTxn txn h) := by
  obtain ⟨own, seq, hd⟩ := hd
  dsimp only [exec, execStoreCompletion]
  rw [hd]

theorem storeCompletion_die {s : State} {m : Nat} {ch : Chan} {txn w : Nat} (hd : Due s m ch (.storeDie txn w)) :
    exec (.storeCompletion m) s = .next ((s.take m).dieTime txn w) := by
  obtain ⟨own, seq, hd⟩ := hd
  dsimp only [exec, execStoreCompletion]
  rw [hd]

theorem storeCompletion_scratch {s : State} {m : Nat} {ch : Chan} {r : GroupRef} {op : Nat} {z : ScratchPart}
    (hd : Due s m ch (.scratch r op false [z])) : exec (.storeCompletion m) s = .next (performStx (s.take m) r op [z]) := by
  obtain ⟨own, seq, hd⟩ := hd
  dsimp only [exec, execStoreCompletion]
  rw [hd]

/-- The old value of an atomic arrives for the last part (R335). -/
theorem loadResponse_update_completes {s : State} {m : Nat} {ch : Chan} {u : Update} {old : Word64} {w wl : Nat} {g : Group} {o : Op} {d : Dst}
    {f : AOp} {ty : Ty} {y : Word64} (hg : s.group u.g = some g) (ho : LastPart g u.opId o) (hdst : u.dst = some d) (hop : u.op = .rmw f ty y)
    (hh : u.holder = none) (ht : u.tgt = .group) (hd : Due s m ch (.updateDone u old w wl false)) :
    Happens (.loadResponse m) s (fun t => Completes s t m u.g
      ({ g.without u.opId with hz := g.hz.fold ⟨w, w, w, w⟩ }.saw u.opId (byteMask (u.addr % 128) (ty.width / 8)) (deviceObs wl))
      (arrivedResult g.budget (o.arrivals ++ [⟨u.who, u.va, d, ty, old.setWidth 128, none⟩]))) := by
  obtain ⟨hone, hend⟩ := groupUpdated_completes (s := s.take m) hg ho hh old w wl
  rw [Update.seenBy, hop, Update.brings, hdst, hop] at hend
  exact ⟨_, loadResponse_update hd ht hdst, completes_of_oneGroup hone hend⟩

/-- The time of an update that returns no value. -/
theorem storeCompletion_update_completes {s : State} {m : Nat} {ch : Chan} {u : Update} {old : Word64} {w wl : Nat} {g : Group} {o : Op}
    (hg : s.group u.g = some g) (ho : LastPart g u.opId o) (ha : o.arrivals = []) (hdst : u.dst = none) (hh : u.holder = none)
    (ht : u.tgt = .group) (hd : Due s m ch (.updateDone u old w wl false)) :
    Happens (.storeCompletion m) s (fun t =>
      Completes s t m u.g (u.seenBy { g.without u.opId with hz := g.hz.fold ⟨w, w, w, w⟩ } wl) noReg) := by
  obtain ⟨hone, hend⟩ := groupUpdated_completes (s := s.take m) hg ho hh old w wl
  rw [ha, List.nil_append, arrivedResult_zero _ (by rw [Update.brings, hdst]; rfl)] at hend
  exact ⟨_, storeCompletion_update hd ht hdst, completes_of_oneGroup hone hend⟩

/-- The times of a store of one group return. -/
theorem storeCompletion_done_completes {s : State} {m : Nat} {ch : Chan} {r : GroupRef} {g : Group} {o : Op} {op txn : Nat} {h : Horizons}
    {q : StoreTxn} (hg : s.group r = some g) (ho : LastPart g op o) (ha : o.arrivals = []) (hd : Due s m ch (.storeDone txn h))
    (hq : tblGet s.txns txn = some q) (hops : q.ops = [(r, op)]) (hw : q.writers = [r]) (hc : q.colour = 0)
    (hr : (tblGet (s.core q.core).reqs q.line).isSome = false)
    (hp : ∀ a x, s.group a = some x → ∀ y ∈ x.pendObs, y.1 ≠ Pending.entry q.core txn) :
    Happens (.storeCompletion m) s (fun t => Swapped s t m [] ∧ SameBytes s t ∧ (∀ q, q ≠ r → t.group q = s.group q) ∧
      tblGet t.txns txn = none ∧ GroupIs t r { g.without op with hz := g.hz.fold { h with core := q.coreTime.getD h.clus } } noReg) := by
  have hread : tblGet (s.core q.core).reqs q.line = none := by simpa using hr
  obtain ⟨⟨gs, hgs⟩, hothers, hend⟩ := finishTxn_one (s := s.take m) hg ho ha hq hops hw hc hread hp h
  refine ⟨_, storeCompletion_done hd, ?_, ?_, hothers, ?_, hend⟩
  · rw [hgs]
    exact (List.append_nil _).symm
  · rw [hgs]
    exact sameBytes_of_eq rfl rfl
  · rw [hgs]
    exact (tblGet_tblDel _ _ _).trans (if_pos rfl)

/-- The die-scope time of a store returns first (R100). -/
theorem storeCompletion_die_folds {s : State} {m : Nat} {ch : Chan} {r : GroupRef} {g : Group} {txn w : Nat} {q : StoreTxn}
    (hg : s.group r = some g) (hd : Due s m ch (.storeDie txn w)) (hq : tblGet s.txns txn = some q) (hw : q.writers = [r]) :
    Happens (.storeCompletion m) s (fun t => Swapped s t m [] ∧ SameBytes s t ∧ (∀ q, q ≠ r → t.group q = s.group q) ∧ t.txns = s.txns ∧
      GroupIs t r { g with hz := g.hz.fold ⟨0, w, w, 0⟩ } noReg) := by
  obtain ⟨hone, hgrp⟩ := dieTime_one (s := s.take m) hg hq hw w
  obtain ⟨-, -, -, -, htxns⟩ := hone.quiet
  obtain ⟨hnet, hbytes, hothers, hend⟩ := completes_of_oneGroup hone hgrp
  exact ⟨_, storeCompletion_die hd, hnet, hbytes, hothers, htxns, hend⟩

/-- An STX is performed at the banks. -/
theorem storeCompletion_scratch_writes {s : State} {m : Nat} {ch : Chan} {r : GroupRef} {g : Group} {o : Op} {op slot off : Nat} {z : ScratchPart}
    {k : BlockKey} {peer : Bool} {b : Block} (hg : s.group r = some g) (ho : LastPart g op o) (ha : o.arrivals = [])
    (hd : Due s m ch (.scratch r op false [z])) (hz : z.at_ = .bytes k slot off peer) (hb : s.block k = some b) (w : s.mem.wf = true) :
    Happens (.storeCompletion m) s (fun t => Swapped s t m [] ∧ (∀ q, q ≠ r → t.group q = s.group q) ∧ GroupIs t r (g.without op) noReg ∧
      (∀ i, i < z.n → t.mem.read (shareKey b slot (off + i)) = (leBytes z.n z.data.toNat).getD i 0#8 ∨
        ∃ j, i < j ∧ j < z.n ∧ shareKey b slot (off + j) = shareKey b slot (off + i)) ∧
      ∀ a, (∀ i, i < z.n → shareKey b slot (off + i) ≠ a) → t.mem.read a = s.mem.read a) := by
  obtain ⟨hgrp, t, hone, ⟨bs, ps, rfl⟩, hwrote, hkept⟩ := performStx_one (s := s.take m) hg ho ha hz hb w
  obtain ⟨hnet, -, hmem, -, -⟩ := hone.quiet
  refine ⟨_, storeCompletion_scratch hd, hnet.trans (List.append_nil _).symm, hone.others, hgrp, ?_⟩
  rw [hmem]
  exact ⟨hwrote, hkept⟩

/-- Settles O22: what arrives with an operation's last part takes effect, at its group and nowhere else. -/
theorem accessesComplete : Obligations.AccessesComplete := by
  refine ⟨fun s m ch g o p core l data x wl obs q alloc a r op z v u d ty f y old w => ?_,
    fun s m ch g o r op txn h q z k b slot off peer u old w wl => ?_⟩
  · intro field got seen unpushed others
    refine ⟨fun hg ho hk hu => ⟨fun hd hr => ?_, fun hd hq hp hj hn hr => ?_, ?_, ?_⟩,
      fun hg ho hd hr => ⟨fun hp hk => ?_, fun hp => ?_, fun hk => ?_⟩, fun hg ho ha hd hv => ?_, ?_⟩
    · exact ⟨_, loadResponse_direct hd hr, completes_serve ⟨s.cores, rfl⟩ hg ho hk data obs⟩
    · obtain ⟨t, ht, ⟨hnet, hbytes, hoth, hgrp⟩, hreq, hcopy⟩ := loadResponse_l1_completes hg ho hk hu hd hq hp hj hn hr
      exact ⟨t, ht, hnet, hbytes, hoth, hgrp, hreq, hcopy⟩
    · exact fun hd hb => loadResponse_weights_completes hg ho hk hu hb hd
    · exact fun hd hb => refreshWindowEnd_completes hg ho hk hu hb hd
    · exact ⟨_, loadResponse_direct hd hr, loadResponse_waits (s := s.take m) hg ho hk hp data obs⟩
    · exact ⟨_, loadResponse_direct hd hr, serve_over (s := s.take m) hg ho hp data obs⟩
    · exact ⟨_, loadResponse_direct hd hr, serve_fills (s := s.take m) hg ho hk data obs⟩
    · obtain ⟨hone, hgrp⟩ := performLdx_one (s := s.take m) hg ho ha ((scratchValue_take s m _ _ _).trans hv)
      obtain ⟨-, -, hmem, -, -⟩ := hone.quiet
      obtain ⟨hnet, hbytes, hoth, hend⟩ := completes_of_oneGroup hone hgrp
      exact ⟨_, loadResponse_scratch hd, hnet, hbytes, hmem, hoth, hend⟩
    · exact loadResponse_update_completes
  · exact ⟨storeCompletion_done_completes, storeCompletion_die_folds, storeCompletion_scratch_writes,
      fun hg ho ha hdst hh ht hd => storeCompletion_update_completes hg ho ha hdst hh ht hd⟩

end Sys2Proof.Machine
